-- ==== Sys2Proof/Word.lean ====
section
/-! DEFINITION. The word types of the machine (00 R2, R3, R5). -/

namespace Sys2Proof

/-- A byte of memory. -/
abbrev Byte := BitVec 8

/-- A lane of a v register (03 R49). -/
abbrev Word := BitVec 32

/-- A 64-bit value (00 R3). -/
abbrev DWord := BitVec 64

/-- One bit for each lane position (02 R22). -/
abbrev Mask := BitVec 32

end Sys2Proof
end

