-- ==== Sys2Proof/Config.lean ====
section
/-! DEFINITION. What the spec leaves open, as opaque constants with no body: the schedule, the passing of time,
what a cache still holds, outcomes of checks on stored material, and values an instruction leaves free. A
constant is applied to `State.steps`, the model's own counter (log entry 6), and to the operands it depends on. -/

namespace Sys2Proof.Config

/-- Which of the enabled turns is taken next (log entry 4). -/
opaque schedule : Nat → Nat
/-- Ticks that FT advances in a step (log entry 5; 01 R16). -/
opaque tick : Nat → Nat
/-- How far, 0 to 2 ticks, a landing's FT stands ahead of the base (01 R16; log entry 5). -/
opaque skew : Nat → Nat → Nat
/-- Whether a cached translation is still held when a lookup is made (19 R380; log entry 14). -/
opaque tlbHeld : Nat → Nat → Bool
/-- Which of the values that a halfword of code had since the last TLBINV a fetch returns (01 R13; log entry 13). -/
opaque fetched : Nat → Nat → Nat
/-- One of several equally allowed choices (log entries 15, 16, 18). -/
opaque choice : Nat → Nat
/-- Which of two allowed orders or outcomes is taken (09 R251, R253, 11 R290, log entry 18; 07 R187, log entry 86; 23 R429, log entry 25; 21 R412, log entry 27). -/
opaque coin : Nat → Nat → Bool
/-- The cells in which a matrix step finds an error its code cannot correct (10 R267; log entry 97). -/
opaque cellErrors : Nat → List Nat
/-- The row-buffer elements, as row and logical K, whose parity fails in a matrix step (10 R267; log entry 97). -/
opaque rowErrors : Nat → List (Nat × Nat)
/-- How many errors of cells a matrix step corrects (10 R267; log entry 97). -/
opaque cellsCorrected : Nat → Nat
/-- The sequence number of a new token (19 R381; log entry 15). -/
opaque tokenSeq : Nat → Nat
/-- A byte of host memory that the copy engine reads (23 R425; log entry 19). -/
opaque hostByte : Nat → Nat → Byte
/-- A position that Locate may return on a tensor that is not well formed (12 R299; log entry 17). -/
opaque locate : Nat → Nat → Nat
/-- A value of which the spec states only that it results (log entry 20). -/
opaque value : Nat → Nat → Nat
/-- The result of the check numbered `k` of a start (24 R432 to R435, R439; log entry 10). -/
opaque bootCheck : Nat → Nat → Bool
/-- A field of the configuration record, the firmware header or the identity material (24 R434, R440; log entry 10). -/
opaque bootField : Nat → Nat → Nat
/-- The content of an SPDM response or key (24 R436; log entry 10). -/
opaque spdm : Nat → Nat → Nat

end Sys2Proof.Config
end

