-- ==== Sys2Proof/Syntax.lean ====
section
/-! DEFINITION. Operand records of the instruction formats (06 R148, Table 6-1) and of the events of
opcode_table.json, and `Instr`, one constructor for each of its 290 rows. -/

namespace Sys2Proof

/-- C16 (R148): guard bit, source or imm5, destination. -/
structure C16 where
  g : BitVec 1
  s : BitVec 5
  d : BitVec 5
  deriving DecidableEq, Repr

/-- A32 (R148). `fn` is func3. -/
structure A32 where
  g : BitVec 4
  fn : BitVec 3
  b : BitVec 6
  a : BitVec 6
  d : BitVec 6
  deriving DecidableEq, Repr

/-- I32 (R148). Major 14 reads `imm` as kind [8:6] and amount [5:0]; major 16 as condition and imm6. -/
structure I32 where
  g : BitVec 4
  imm : BitVec 9
  a : BitVec 6
  d : BitVec 6
  deriving DecidableEq, Repr

/-- I32 of major 17: imm15 in place of imm9 and a. -/
structure I15 where
  g : BitVec 4
  imm : BitVec 15
  d : BitVec 6
  deriving DecidableEq, Repr

/-- B32 (R148). -/
structure B32 where
  g : BitVec 4
  off : BitVec 21
  deriving DecidableEq, Repr

/-- X64, T64 and K64 (R148). In K64 `d` is the reserved [13:11] followed by the token. `fn` is func6. -/
structure T64 where
  ctl : BitVec 12
  fn : BitVec 6
  ls : BitVec 6
  la : BitVec 4
  g : BitVec 4
  c : BitVec 6
  b : BitVec 6
  a : BitVec 6
  d : BitVec 6
  deriving DecidableEq, Repr

/-- M64 (R148, R158). `af` is func6[5] and `fn` is func6[4:0]. -/
structure M64 where
  off : BitVec 12
  af : BitVec 1
  fn : BitVec 5
  ls : BitVec 6
  la : BitVec 4
  g : BitVec 4
  scope : BitVec 2
  size : BitVec 4
  b : BitVec 6
  a : BitVec 6
  d : BitVec 6
  deriving DecidableEq, Repr

/-- L64 (R148). `rsv` is the zero field [31:30]. -/
structure L64 where
  imm : BitVec 32
  rsv : BitVec 2
  g : BitVec 4
  fn : BitVec 6
  a : BitVec 6
  d : BitVec 6
  deriving DecidableEq, Repr

/-- J64 (R148). `hi` is [25:14] and `d` is [13:8], F/8 in ENTER. -/
structure J64 where
  off : BitVec 32
  fn : BitVec 2
  g : BitVec 4
  hi : BitVec 12
  d : BitVec 6
  deriving DecidableEq, Repr

/-- The scopes that have a tide (05 R132). -/
inductive TideScope where
  | landing | module | system
  deriving DecidableEq, Repr

/-- A 64-byte write, or less, to the launch window of a landing (20 R395). -/
structure LaunchWrite where
  l : Nat
  bytes : List Byte
  deriving DecidableEq, Repr

/-- A write of `n` bytes to control space at a privilege level (17 R344, 20 R390). -/
structure CtlWrite where
  pa : Nat
  n : Nat
  value : Nat
  pl : Nat
  deriving DecidableEq, Repr

/-- A host CXL.mem write of bytes within one line at an HDM offset (23 R422, R424). -/
structure HostWrite where
  hdm : Nat
  bytes : List Byte
  poison : Bool
  deriving DecidableEq, Repr

/-- A host CXL.mem read (23 R422). -/
structure HostRead where
  hdm : Nat
  n : Nat
  deriving DecidableEq, Repr

/-- A host CXL.io access to control space through BAR0 (23 R421, R423); `value` is none for a read. -/
structure IoAccess where
  off : Nat
  n : Nat
  value : Option Nat
  deriving DecidableEq, Repr

/-- A place at the home of a link item: the address, the kind of its page and log2 of the page's size (05 R117, R118). -/
structure LinkPlace where
  pa : Nat
  kind : Nat
  pageBits : Nat
  deriving DecidableEq, Repr

/-- A lane that a link item carries: its place, its value with the length in bytes, the value that ATOM.CAS compares with, its
poison, and for a posted operation its counter's place and its key (05 R127, R130). -/
structure LinkLane where
  lane : Nat
  place : LinkPlace
  n : Nat
  value : Nat
  cmp : Nat
  poison : Bool
  ctr : Option LinkPlace
  key : Nat
  deriving DecidableEq, Repr

/-- What a crossing-link item carries (23 R426). One item carries every lane of an instruction that one home executes, and
the privilege level of its context (05 R122; log entry 92). -/
inductive LinkBody where
  /-- A crossing: CTXID, context image (02 R38, R39) and the module that holds the context's anchor (log entry 91). -/
  | crossing (ctxid : Nat) (image : List Byte) (anchor : Nat)
  /-- A context that has joined, on its way to its anchor: the slot and the address of its JOIN or RET (02 R31). -/
  | arrival (ctxid : Nat) (image : List Byte) (slot addr : Nat) (implicit : Bool)
  /-- A posted store (05 R130). -/
  | store (ctxid pl : Nat) (lanes : List LinkLane)
  /-- A posted reduction: operation code of Table 9-3 (09 R236). -/
  | reduction (ctxid pl op : Nat) (lanes : List LinkLane)
  /-- Keyed tuples (09 R237). -/
  | keyed (ctxid op : Nat) (lanes : List LinkLane)
  /-- A publish flip of the page at a physical address (05 R140). -/
  | flip (pa : Nat)
  /-- An exit notice (02 R35). -/
  | exitNotice (ctxid tag team rank : Nat) (mask : BitVec 32)
  /-- A barrier object that a context registers with its team at its anchor (09 R245). -/
  | register (ctxid tag team obj : Nat)
  /-- A live-rank change, toward a registered object's home (09 R245). -/
  | live (ctxid team obj : Nat) (mask : BitVec 128)
  /-- A request of a direct-mode access or of a copy (19 R377, 05 R144): `op` 0 read, 1 write of a store, 2 write of a copy to the
  shadow of a publish page (09 R252), 3 any other write, 16 + f the ATOM operation f of Table 9-3, 32 ATOM.CAS. -/
  | request (id pl op : Nat) (lanes : List LinkLane)
  /-- The reply to a request: each lane's value, little-endian, and its poison; and the flags of FADD (19 R377). -/
  | reply (id : Nat) (results : List (Nat × Nat × Bool)) (flags : BitVec 5)
  /-- A system-tide report (05 R133). -/
  | tide (t o : Nat)
  deriving DecidableEq, Repr

/-- An item of a crossing-link pair, with its sequence number (23 R429). -/
structure LinkItem where
  peer : Nat
  src : Nat
  dst : Nat
  seq : Nat
  ft : Nat
  body : LinkBody
  deriving DecidableEq, Repr

/-- A transfer that will fail parity (21 R402, R405, R406): the 128-byte block in the landing's slot and the direction, how many
attempts fail (1 to 4), the connections that differ between the failing beat and the passing retry (data connection c as c,
parity connection p as 1,024 + p), and the failing parity groups where no retry passes or none differs. With another `array` it
is an error of a store instead, `groups` naming what it hits (R409, R413): of stored 16-byte words of the block, correctable (1) or
uncorrectable (2), which wait for a read to find them; of words of block `block` of the landing's scratch, likewise (3 and 4); a
corrected one of another SRAM structure (5); and an uncorrectable one of 16-byte words of an image of the wharf (6), of the window
store, where `block` is the core and berth, `conns` the frame, newest first, and `groups` a register and its slot, or nothing for the
frame record (7), and of tuples of the merge network, where `block` is a session slot, or 8 for the keyed buffer (8). -/
structure ParityFailure where
  l : Nat
  block : Nat
  write : Bool
  groups : List Nat
  conns : List Nat
  fails : Nat
  array : Nat
  deriving DecidableEq, Repr

/-- TRAPINFO of the illegal-instruction trap (06 Table 6-6). -/
structure BadEncoding where
  sub : Nat
  maj : Nat
  len : Nat
  deriving DecidableEq, Repr

/-- An SPDM request over the DOE mailbox (24 R436): the algorithms it asks for, or the index it names,
and whether the exchange it belongs to verifies. -/
structure SpdmRequest where
  arg : Nat
  deriving DecidableEq, Repr

/-- One constructor for each row of opcode_table.json. -/
inductive Instr where
  /-- C16_MOV (R154): 16-bit form of MOV, copying vs to vd (v0-v31), with the halfword 0x0000 trapping. -/
  | c16Mov (o : C16)
  /-- C16_ADD (R154): 16-bit form of ADD vd, vd, vs. -/
  | c16Add (o : C16)
  /-- C16_SUB (R154): 16-bit form of SUB vd, vd, vs. -/
  | c16Sub (o : C16)
  /-- C16_AND (R154): 16-bit form of AND vd, vd, vs. -/
  | c16And (o : C16)
  /-- C16_OR (R154): 16-bit form of OR vd, vd, vs. -/
  | c16Or (o : C16)
  /-- C16_XOR (R154): 16-bit form of XOR vd, vd, vs. -/
  | c16Xor (o : C16)
  /-- C16_SHLI (R154): 16-bit form of SHLI vd, vd, amount 0-31. -/
  | c16Shli (o : C16)
  /-- C16_SHRI (R154): 16-bit form of SHRI vd, vd, amount 0-31. -/
  | c16Shri (o : C16)
  /-- C16_ADDI (R154): 16-bit form of ADDI vd, vd, signed imm5. -/
  | c16Addi (o : C16)
  /-- C16_MOVI (R154): 16-bit form of MOVI vd, signed imm5. -/
  | c16Movi (o : C16)
  /-- C16_MUL (R154): 16-bit form of MUL vd, vd, vs. -/
  | c16Mul (o : C16)
  /-- C16_FADD (R154): 16-bit form of FADD vd, vd, vs. -/
  | c16Fadd (o : C16)
  /-- C16_FSUB (R154): 16-bit form of FSUB vd, vd, vs. -/
  | c16Fsub (o : C16)
  /-- C16_FMUL (R154): 16-bit form of FMUL vd, vd, vs. -/
  | c16Fmul (o : C16)
  /-- C16_FMAX (R154): 16-bit form of FMAX vd, vd, vs. -/
  | c16Fmax (o : C16)
  /-- C16_FMIN (R154): 16-bit form of FMIN vd, vd, vs. -/
  | c16Fmin (o : C16)
  /-- ADD (R173): Per-lane 32-bit wrapping addition. -/
  | add (o : A32)
  /-- SUB (R173): Per-lane 32-bit wrapping subtraction. -/
  | sub (o : A32)
  /-- MUL (R173): Per-lane low 32 bits of the product. -/
  | mul (o : A32)
  /-- MULHI (R173): Per-lane high 32 bits of the signed product. -/
  | mulhi (o : A32)
  /-- MULHIZ (R173): Per-lane high 32 bits of the unsigned product. -/
  | mulhiz (o : A32)
  /-- ABS (R173): Per-lane absolute value of an s32. -/
  | abs (o : A32)
  /-- MIN (R173): Per-lane signed minimum. -/
  | min (o : A32)
  /-- MAX (R173): Per-lane signed maximum. -/
  | max (o : A32)
  /-- MINZ (R173): Per-lane unsigned minimum. -/
  | minz (o : A32)
  /-- MAXZ (R173): Per-lane unsigned maximum. -/
  | maxz (o : A32)
  /-- AND (R173): Per-lane bitwise AND. -/
  | and (o : A32)
  /-- OR (R173): Per-lane bitwise OR. -/
  | or (o : A32)
  /-- XOR (R173): Per-lane bitwise XOR. -/
  | xor (o : A32)
  /-- ANDN (R173): Per-lane a AND NOT b. -/
  | andn (o : A32)
  /-- ORN (R173): Per-lane a OR NOT b. -/
  | orn (o : A32)
  /-- ROTL (R173): Per-lane left rotation by b mod 32. -/
  | rotl (o : A32)
  /-- SHL (R173): Per-lane left shift, zero for amounts of 32 or more. -/
  | shl (o : A32)
  /-- SHR (R173): Per-lane logical right shift. -/
  | shr (o : A32)
  /-- SAR (R173): Per-lane arithmetic right shift. -/
  | sar (o : A32)
  /-- CLZ (R173): Per-lane count of leading zero bits. -/
  | clz (o : A32)
  /-- CTZ (R173): Per-lane count of trailing zero bits. -/
  | ctz (o : A32)
  /-- POPC (R173): Per-lane count of one bits. -/
  | popc (o : A32)
  /-- BREV (R173): Per-lane bit reversal. -/
  | brev (o : A32)
  /-- BPICK (R174): Builds each lane word from bytes of va, of vd or constants under a nibble selector. -/
  | bpick (o : A32)
  /-- BFX (R175): Per-lane unsigned bit-field extract. -/
  | bfx (o : A32)
  /-- BFXS (R175): Per-lane sign-extended bit-field extract. -/
  | bfxs (o : A32)
  /-- BFI (R175): Per-lane bit-field insert into vd. -/
  | bfi (o : A32)
  /-- SEL (R176): Selects va or vb per lane by a predicate carried in the G4 field. -/
  | sel (o : A32)
  /-- ADD64 (R175): 64-bit addition on aligned register pairs. -/
  | add64 (o : A32)
  /-- SUB64 (R175): 64-bit subtraction on aligned register pairs. -/
  | sub64 (o : A32)
  /-- MOV (R175): Copies va with its poison to vd. -/
  | mov (o : A32)
  /-- ACTMASK (R175): Writes the ACTIVE mask as a z32. -/
  | actmask (o : A32)
  /-- CMP (R181): Writes a predicate from an integer comparison selected by the condition field. -/
  | cmp (o : A32)
  /-- FADD (R204): Per-lane f32 addition. -/
  | fadd (o : A32)
  /-- FSUB (R204): Per-lane f32 subtraction. -/
  | fsub (o : A32)
  /-- FMUL (R204): Per-lane f32 multiplication. -/
  | fmul (o : A32)
  /-- FMIN (R94): Per-lane f32 minimumNumber. -/
  | fmin (o : A32)
  /-- FMAX (R94): Per-lane f32 maximumNumber. -/
  | fmax (o : A32)
  /-- FSAT (R205): Per-lane saturation of an f32 to [0, 1]. -/
  | fsat (o : A32)
  /-- FSCALE (R205): Per-lane multiplication of an f32 by 2^n. -/
  | fscale (o : A32)
  /-- FGETEXP (R205): Per-lane exponent of an f32 as an f32 integer. -/
  | fgetexp (o : A32)
  /-- FCMP (R206): Writes a predicate from an f32 comparison selected by the condition field. -/
  | fcmp (o : A32)
  /-- PAND (R182): Predicate AND. -/
  | pand (o : A32)
  /-- POR (R182): Predicate OR. -/
  | por (o : A32)
  /-- PXOR (R182): Predicate XOR. -/
  | pxor (o : A32)
  /-- PANDN (R182): Predicate AND NOT. -/
  | pandn (o : A32)
  /-- PNOT (R182): Predicate NOT. -/
  | pnot (o : A32)
  /-- PMOV (R182): Predicate copy. -/
  | pmov (o : A32)
  /-- PTOV (R182): Writes 1 or 0 per lane from a predicate into a v register. -/
  | ptov (o : A32)
  /-- VTOP (R182): Sets a predicate where a v register lane is non-zero. -/
  | vtop (o : A32)
  /-- XLANE_GET (R183): Reads lane n mod 32 of va into each lane. -/
  | xlaneGet (o : A32)
  /-- XLANE_ROT (R183): Reads lane (L + n) mod 32 of va. -/
  | xlaneRot (o : A32)
  /-- XLANE_FLIP (R183): Reads lane L xor n of va. -/
  | xlaneFlip (o : A32)
  /-- XLANE_SHIFT (R183): Reads lane L − n of va, or zero below lane 0. -/
  | xlaneShift (o : A32)
  /-- PCOUNT (R184): Counts the ACTIVE lanes where a predicate is true. -/
  | pcount (o : A32)
  /-- PMASK (R184): Writes a predicate's ACTIVE lanes as a mask. -/
  | pmask (o : A32)
  /-- PFIRST (R184): Writes the lowest ACTIVE lane where a predicate is true. -/
  | pfirst (o : A32)
  /-- VRANK (R184): Ranks each lane among lower ACTIVE lanes that hold the same value. -/
  | vrank (o : A32)
  /-- PKADD (R207): Packed addition of two f16 or bf16 elements, the format chosen by func3 bit 2. -/
  | pkadd (o : A32)
  /-- PKMUL (R207): Packed multiplication of two f16 or bf16 elements. -/
  | pkmul (o : A32)
  /-- PKMAX (R207): Packed maximumNumber of two f16 or bf16 elements. -/
  | pkmax (o : A32)
  /-- PKMIN (R207): Packed minimumNumber of two f16 or bf16 elements. -/
  | pkmin (o : A32)
  /-- ADDI (R177): Adds a sign-extended imm9. -/
  | addi (o : I32)
  /-- ANDI (R177): ANDs a sign-extended imm9. -/
  | andi (o : I32)
  /-- ORI (R177): ORs a sign-extended imm9. -/
  | ori (o : I32)
  /-- XORI (R177): XORs a sign-extended imm9. -/
  | xori (o : I32)
  /-- SHLI (R177): Left shift by an immediate amount. -/
  | shli (o : I32)
  /-- SHRI (R177): Logical right shift by an immediate amount. -/
  | shri (o : I32)
  /-- SARI (R177): Arithmetic right shift by an immediate amount. -/
  | sari (o : I32)
  /-- ROTLI (R177): Left rotation by an immediate amount. -/
  | rotli (o : I32)
  /-- MULI (R177): Multiplies by a sign-extended imm9. -/
  | muli (o : I32)
  /-- CMPI (R181): Writes a predicate from a comparison with a sign-extended imm6. -/
  | cmpi (o : I32)
  /-- MOVI (R177): Writes a sign-extended imm15. -/
  | movi (o : I15)
  /-- BRA (R189): Direct branch by off21 halfwords, splitting on a divergent guard. -/
  | bra (o : B32)
  /-- LANEID (R186): Writes the lane number (form A). -/
  | laneid (o : A32)
  /-- GRPRANK (R186): Writes the group rank. -/
  | grprank (o : A32)
  /-- TEAMID (R186): Writes the team id. -/
  | teamid (o : A32)
  /-- FTIME (R186): Writes the landing's FT at issue into a register pair. -/
  | ftime (o : A32)
  /-- POISONQ (R186): Writes the poison mask of va. -/
  | poisonq (o : A32)
  /-- FORMQ (R186): Writes the form of va. -/
  | formq (o : A32)
  /-- NOP (R186): Does nothing. -/
  | nop (o : A32)
  /-- YIELD (R187): Gives other ready groups of its class the issue slot before this group issues again. -/
  | yield (o : A32)
  /-- RET (R62): Returns to the caller frame, or acts as an implicit JOIN 15 or as EXIT. -/
  | ret (o : A32)
  /-- EXIT (R195): Ends the ACTIVE lanes and frees the berth when no active lane remains. -/
  | exit (o : A32)
  /-- BRX (R190): Indirect branch to per-lane pair targets, splitting by target. -/
  | brx (o : A32)
  /-- CALLX (R190): Indirect call to per-lane pair targets, opening a new frame. -/
  | callx (o : A32)
  /-- JOIN (R31): Declares a reconvergence point; a split context crosses to the anchor and becomes an arrival. -/
  | join (o : A32)
  /-- WSYNC (R73): Waits until every started spill has been applied at its home. -/
  | wsync (o : A32)
  /-- PIN (R197): Sets the pinned flag and the affinity to the present core. -/
  | pin (o : A32)
  /-- UNPIN (R197): Clears the pinned flag. -/
  | unpin (o : A32)
  /-- TRAP (R198): Raises a precise program trap carrying a 9-bit code. -/
  | trap (o : I32)
  /-- SYSCALL (R198): Raises a precise system-call trap to the system handler. -/
  | syscall (o : I32)
  /-- REDUX (R185): Writes to every ACTIVE lane the reduction, selected by func3, over the ACTIVE lanes of va. -/
  | redux (o : A32)
  /-- FFMA (R208): f32 fused multiply-add. -/
  | ffma (o : T64)
  /-- DFMA (R208): f64 fused multiply-add on pairs. -/
  | dfma (o : T64)
  /-- PKFMA_F16 (R208): Packed f16 fused multiply-add. -/
  | pkfmaF16 (o : T64)
  /-- PKFMA_BF16 (R208): Packed bf16 fused multiply-add. -/
  | pkfmaBf16 (o : T64)
  /-- MAD (R179): 32-bit integer multiply-add. -/
  | mad (o : T64)
  /-- MADW (R179): Widening multiply-add into a 64-bit pair, signed or unsigned by ctl[0]. -/
  | madw (o : T64)
  /-- DOT4 (R179): Signed four-byte dot product added to c. -/
  | dot4 (o : T64)
  /-- DOT4Z (R179): Unsigned four-byte dot product added to c. -/
  | dot4z (o : T64)
  /-- DOT2BF (R208): Two-element bf16 dot product into an f32 with one rounding. -/
  | dot2bf (o : T64)
  /-- FDIV (R210): Correctly rounded f32 division. -/
  | fdiv (o : T64)
  /-- FSQRT (R210): Correctly rounded f32 square root. -/
  | fsqrt (o : T64)
  /-- FRCP (R210): Correctly rounded f32 reciprocal. -/
  | frcp (o : T64)
  /-- FRSQ (R102): Table-defined f32 reciprocal square root. -/
  | frsq (o : T64)
  /-- FEXP2 (R100): Table-defined f32 base-2 exponential. -/
  | fexp2 (o : T64)
  /-- FLOG2 (R101): Table-defined f32 base-2 logarithm. -/
  | flog2 (o : T64)
  /-- FSIN (R103): Table-defined f32 sine. -/
  | fsin (o : T64)
  /-- FCOS (R103): Table-defined f32 cosine. -/
  | fcos (o : T64)
  /-- FRND (R211): Rounds an f32 to an integral value. -/
  | frnd (o : T64)
  /-- FCLASS (R212): Classifies an f32, or an f64 with ctl[4], as a one-hot word. -/
  | fclass (o : T64)
  /-- DDIV (R210): Correctly rounded f64 division. -/
  | ddiv (o : T64)
  /-- DSQRT (R210): Correctly rounded f64 square root. -/
  | dsqrt (o : T64)
  /-- DADD (R209): f64 addition. -/
  | dadd (o : T64)
  /-- DSUB (R209): f64 subtraction, selected by ctl[4] of major 1 func6 12. -/
  | dsub (o : T64)
  /-- DMUL (R209): f64 multiplication. -/
  | dmul (o : T64)
  /-- DMIN (R94): f64 minimumNumber. -/
  | dmin (o : T64)
  /-- DMAX (R94): f64 maximumNumber. -/
  | dmax (o : T64)
  /-- DCMP (R209): Writes a predicate from an f64 comparison. -/
  | dcmp (o : T64)
  /-- DIV (R180): Signed 32-bit division. -/
  | div (o : T64)
  /-- DIVZ (R180): Unsigned 32-bit division. -/
  | divz (o : T64)
  /-- REM (R180): Signed 32-bit remainder. -/
  | rem (o : T64)
  /-- REMZ (R180): Unsigned 32-bit remainder. -/
  | remz (o : T64)
  /-- CVT_F2F (R214): Converts between f64 and f32. -/
  | cvtF2f (o : T64)
  /-- CVT_F2I (R215): Converts a float to a saturated integer. -/
  | cvtF2i (o : T64)
  /-- CVT_I2F (R216): Converts an integer to f32 or f64. -/
  | cvtI2f (o : T64)
  /-- CVT_NARROW (R217): Narrows two f32 values into a slot of a packed destination. -/
  | cvtNarrow (o : T64)
  /-- CVT_WIDEN (R218): Widens one packed element to f32 exactly. -/
  | cvtWiden (o : T64)
  /-- PACKMX (R219): Packs the ACTIVE lanes as one MX block with a shared scale. -/
  | packmx (o : T64)
  /-- PLANE_SPLIT (R220): Splits byte-held FP6 elements into high or low planes. -/
  | planeSplit (o : T64)
  /-- PLANE_JOIN (R221): Rejoins FP6 planes into byte-held elements. -/
  | planeJoin (o : T64)
  /-- RNG_CB (R222): Writes one word of the counter-based random permutation. -/
  | rngCb (o : T64)
  /-- MOVI32 (R178): Writes a 32-bit immediate. -/
  | movi32 (o : L64)
  /-- ADDI32 (R178): Adds a 32-bit immediate. -/
  | addi32 (o : L64)
  /-- CALL (R191): Direct call that opens a new window frame. -/
  | call (o : J64)
  /-- BRL (R189): Long direct branch by off32 halfwords. -/
  | brl (o : J64)
  /-- ENTER (R61): Sets the frame size and manifest table of an unentered frame. -/
  | enter (o : J64)
  /-- LD (R230): Loads per lane at each home, splitting and crossing by home. -/
  | ld (o : M64)
  /-- LD_L (R230): Loads per lane at the current landing only, trapping on remote lanes. -/
  | ldL (o : M64)
  /-- ST (R232): Plain store per lane at each home. -/
  | st (o : M64)
  /-- ST_P (R233): Posted store per lane, optionally adding to a counter, without moving the group. -/
  | stP (o : M64)
  /-- ATOM (R234): Atomic read-modify-write per lane with the operation selected by f 0-9. -/
  | atom (o : M64)
  /-- ATOM_CAS (R235): Atomic compare-and-swap per lane. -/
  | atomCas (o : M64)
  /-- RED_P (R236): Posted reduction per lane into memory. -/
  | redP (o : M64)
  /-- RED_K (R237): Posted keyed reduction tuple buffered at the home's merge network. -/
  | redK (o : M64)
  /-- REDCLOSE (R238): Sends close commands that apply buffered keyed tuples of a region in key order. -/
  | redclose (o : M64)
  /-- FENCE (R135): Waits for earlier work and, at landing scope or wider, for the tide to pass the posted horizon. -/
  | fence (o : M64)
  /-- BAR_INIT (R247): Initialises and registers a barrier object at its home. -/
  | barInit (o : M64)
  /-- BAR_ARRIVE (R247): Arrives at a barrier and returns the phase token. -/
  | barArrive (o : M64)
  /-- BAR_WAIT (R247): Waits at the barrier home until the phase passes the token. -/
  | barWait (o : M64)
  /-- BAR_SYNC (R247): Arrives and then waits at a barrier. -/
  | barSync (o : M64)
  /-- CWAIT (R240): Waits at each counter's home until the counter reaches a value. -/
  | cwait (o : M64)
  /-- MIGRATE (R241): Moves each part of the context to the home of its addresses. -/
  | migrate (o : M64)
  /-- PARK (R242): Writes the context image as a continuation and ends its residence. -/
  | park (o : M64)
  /-- WAKE (R243): Claims an armed continuation at its home and submits it to that home's wharf. -/
  | wake (o : M64)
  /-- QPUSH (R250): Appends lane entries to a work queue at its home. -/
  | qpush (o : M64)
  /-- QPOP (R250): Pops queue entries into lanes at the queue home. -/
  | qpop (o : M64)
  /-- COPY (R251): Starts copies through the copy engine under a token and registers fill entries. -/
  | copy (o : T64)
  /-- COPY_S (R252): Starts copies into the shadow of publish pages. -/
  | copyS (o : T64)
  /-- TWAIT (R254): Waits until a copy token is complete. -/
  | twait (o : T64)
  /-- TPOLL (R254): Writes whether a copy token is complete. -/
  | tpoll (o : T64)
  /-- CFILL (R253): Reads the fill pointer of the copy covering an address. -/
  | cfill (o : T64)
  /-- PUBLISH (R255): Posts the flip of a publish page to its home. -/
  | publish (o : T64)
  /-- HSET (R302): Writes one field of a tensor handle. -/
  | hset (o : T64)
  /-- HGET (R302): Reads one field of a tensor handle. -/
  | hget (o : T64)
  /-- HLOAD (R303): Loads a 32-byte tensor handle from memory. -/
  | hload (o : T64)
  /-- TLD (R304): Locates and loads tensor elements by coordinate or position. -/
  | tld (o : T64)
  /-- TST (R304): Locates and stores tensor elements. -/
  | tst (o : T64)
  /-- TNEXT (R304): Writes the coordinates of a tensor position. -/
  | tnext (o : T64)
  /-- TPOS (R304): Writes the position of a tensor coordinate. -/
  | tpos (o : T64)
  /-- MGOPEN (R311): Opens a merge session from a descriptor and returns its id. -/
  | mgopen (o : T64)
  /-- MGPUSH (R312): Sends lane tuples in batches to a session stream. -/
  | mgpush (o : T64)
  /-- MGSEAL (R313): Seals a session stream. -/
  | mgseal (o : T64)
  /-- MGWAIT (R320): Waits until a session rests and writes its status word. -/
  | mgwait (o : T64)
  /-- MGSTAT (R319): Writes the four session status words, optionally clearing flags. -/
  | mgstat (o : T64)
  /-- MGSTAT_K (R322): Writes the keyed status of the merge network at an address's home. -/
  | mgstatK (o : T64)
  /-- MGRESUME (R318): Resumes a stopped session from a new descriptor. -/
  | mgresume (o : T64)
  /-- MGCLOSE (R321): Closes a session after its writes are applied and frees the slot. -/
  | mgclose (o : T64)
  /-- MCLAIM (R280): Claims and clears the core's matrix unit for the team instance and pins the context. -/
  | mclaim (o : T64)
  /-- MRELEASE (R281): Queues the end of the team's matrix claim. -/
  | mrelease (o : T64)
  /-- MLOADB (R283): Queues a load of a dense or 2:4-compressed B tile into the macros. -/
  | mloadb (o : T64)
  /-- MLOADS (R284): Queues a load of the B scale image. -/
  | mloads (o : T64)
  /-- MZERO (R285): Queues the zeroing of an accumulator tile. -/
  | mzero (o : T64)
  /-- MMA (R286): Queues one dense step with A rows taken from eight registers. -/
  | mma (o : T64)
  /-- MLOOP (R288): Queues a loop of K-steps described by a memory descriptor. -/
  | mloop (o : T64)
  /-- MBATCH (R288): Queues batched block-diagonal steps described by a descriptor. -/
  | mbatch (o : T64)
  /-- MSPARSE (R286): Queues one FP8 2:4 step with A from registers. -/
  | msparse (o : T64)
  /-- MWAIT (R291): Waits until every earlier queued matrix command has completed. -/
  | mwait (o : T64)
  /-- MREAD (R289): Queues a read of one tile row into eight registers. -/
  | mread (o : T64)
  /-- MSTORE (R290): Queues conversion and storing of tile rows to memory. -/
  | mstore (o : T64)
  /-- MSTAT (R292): Queues a read, and optional clear, of the matrix status word and log. -/
  | mstat (o : T64)
  /-- MPROG (R293): Reads matrix progress and queue occupancy without queueing. -/
  | mprog (o : T64)
  /-- MFS (R351): Reads a system register of the context or, at PL1, of another context. -/
  | mfs (o : T64)
  /-- MTS (R351): Writes a system register of the context or of another context. -/
  | mts (o : T64)
  /-- RTE (R359): Returns from a trap to TRAPPC, optionally advanced past the instruction. -/
  | rte (o : T64)
  /-- RDPREV (R358): Reads a v register of the frame that trap entry made previous. -/
  | rdprev (o : T64)
  /-- RDPREV_P (R358): Reads a predicate of the previous frame. -/
  | rdprevP (o : T64)
  /-- WRPREV (R358): Writes a v register of the previous frame. -/
  | wrprev (o : T64)
  /-- WRPREV_P (R358): Writes a predicate of the previous frame. -/
  | wrprevP (o : T64)
  /-- REPLAY (R385): Releases a fault token: replays its side-log parts and wakes its waiters. -/
  | replay (o : T64)
  /-- REPLAY_PAGE (R385): Releases every live token of a context on a 128 KiB page at every landing. -/
  | replayPage (o : T64)
  /-- TLBINV_PAGE (R386): Discards translations and instruction-cache lines of one page module-wide. -/
  | tlbinvPage (o : T64)
  /-- TLBINV_CTX (R386): Discards all translations of a context and all instruction-cache lines. -/
  | tlbinvCtx (o : T64)
  /-- TLBINV_ALL (R386): Discards all translations and instruction-cache lines. -/
  | tlbinvAll (o : T64)
  /-- PARKCTX (R363): Parks a whole context across its landings. -/
  | parkctx (o : T64)
  /-- WAKECTX (R365): Resumes a parked context. -/
  | wakectx (o : T64)
  /-- WAKECTX_GRP (R365): Resumes the single group of one park record. -/
  | wakectxGrp (o : T64)
  /-- IDLE (R366): Waits for a deadline or for a new fault record. -/
  | idle (o : T64)
  /-- FSINX (R442): Decode-table sine (major 56) that follows R103 for all inputs. -/
  | fsinx (o : T64)
  /-- FCOSX (R442): Decode-table cosine (major 56) that follows R103 for all inputs. -/
  | fcosx (o : T64)
  /-- CROSSING_ARRIVAL (R43): An arriving context image is taken into the destination wharf, writing out overflow continuations if it does not fit. -/
  | crossingArrival (src dst : Nat)
  /-- BERTH_RELEASE (R40): The source frees the berth once the image has left and its spills are accepted. -/
  | berthRelease (l core berth : Nat)
  /-- ADMISSION (R41): The landing dispatcher admits a wharf context to a free berth once its FT hold has passed, reading its top record. -/
  | admission (l : Nat)
  /-- OVERFLOW_RETURN (R43): Overflow continuations return to the wharf when occupancy falls below 1.5 MiB. -/
  | overflowReturn (l : Nat)
  /-- WHARF_PROMOTION (R41): A class 0 or 1 context that has waited 65,536 FT ticks ranks as class 2. -/
  | wharfPromotion (l uid : Nat)
  /-- ARRIVAL (R32): A joining context reaches the anchor and is recorded at its join instance. -/
  | arrival (src dst : Nat)
  /-- EXIT_NOTICE (R35): The anchor's join record counts exiting lanes as exited and re-evaluates instances. -/
  | exitNotice (src dst : Nat)
  /-- LIVE_RANK_CHANGE (R245): A live-rank mask change reaches a registered barrier's home. -/
  | liveRankChange (src dst : Nat)
  /-- POSTED_STORE_APPLY (R130): The home applies an ST.P lane together with its counter addition, satisfying CWAIT waiters. -/
  | postedStoreApply (src dst : Nat)
  /-- REDUCTION_APPLY (R236): The home combines a RED.P part with memory. -/
  | reductionApply (src dst : Nat)
  /-- KEYED_BUFFER_ENTRY (R322): A RED.K tuple enters the home's keyed buffer, spilling a keyed run when full. -/
  | keyedBufferEntry (src dst : Nat)
  /-- FLIP (R140): The home flips a publish page's flip bit in one acceptance. -/
  | flip (src dst : Nat)
  /-- CLOSE_COMMAND (R238): A merge network applies the buffered keyed tuples and runs of a region under R109. -/
  | closeCommand (l : Nat)
  /-- TIDE_SAMPLE (R133): At a sample point each reporting unit reports and the scope's tide is reduced. -/
  | tideSample (scope : TideScope) (l : Nat)
  /-- TIDE_ADOPTION (R133): A landing adopts the sampled tide at T plus lag, completing satisfied FENCEs. -/
  | tideAdoption (scope : TideScope) (l : Nat)
  /-- COPY_LINE (R138): The copy engine reads a source line and writes a destination line, advancing the fill pointer and completing the token after its last write. -/
  | copyLine (id k : Nat)
  /-- WINDOW_SPILL (R71): The window spill engine writes the oldest frame image at the segment cursor. -/
  | windowSpill (uid : Nat)
  /-- REFILL (R72): A non-resident caller frame is read back from its image for RET. -/
  | refill (uid : Nat)
  /-- PARK_COMMAND (R363): A landing stops, seals and writes every group and image of the context, then sends drain markers. -/
  | parkCommand (ctxid l : Nat)
  /-- DRAIN_MARKER (R363): A drain marker arrives; once all have arrived the landing reports done. -/
  | drainMarker (src dst : Nat)
  /-- PARK_REPORT (R363): A landing's done report arrives; when all have, the context becomes PARKED. -/
  | parkReport (ctxid l : Nat)
  /-- CLAIM_NARROWING (R270): At the next progress boundary the matrix claim is saved to its save area and the unit unclaimed. -/
  | claimNarrowing (l core : Nat)
  /-- CLAIM_RESTORE (R271): A parked claim is restored to a free matrix unit before its team is admitted. -/
  | claimRestore (ctxid l core : Nat)
  /-- CLAIM_END (R265): The claim ends after every queued command completes and MSTORE writes are applied. -/
  | claimEnd (l core : Nat)
  /-- MATRIX_COMMAND_EXECUTION (R266): The matrix unit executes the next queued command in queue order. -/
  | matrixCommandExecution (l core : Nat)
  /-- MERGE_SPILL (R314): The merge network writes the fullest session's tuples as a sorted run, or fails it. -/
  | mergeSpill (l : Nat)
  /-- ROW_COMMIT (R315): In MERGING, the network combines and commits the next output row. -/
  | rowCommit (l slot : Nat)
  /-- LAUNCH_RECORD (R396): A 64-byte write to LWIN is accepted into the pending list or rejected with a cause. -/
  | launchRecord (w : LaunchWrite)
  /-- TEAM_PLACEMENT (R398): The landing tags the launch, takes scratch, writes the argument block and submits a team's images. -/
  | teamPlacement (l : Nat)
  /-- LAUNCH_COMPLETION (R399): When every group of a launch has ceased and its posts are applied, DONECTR is incremented. -/
  | launchCompletion (ctxid tag : Nat)
  /-- QUEUE_REGISTER_WRITE (R390): A write to a queue's registers configures, enables, stops or disables it. -/
  | queueRegisterWrite (w : CtlWrite)
  /-- APPEND (R393): A host write to an enabled queue's append window appends entries all or nothing. -/
  | append (w : HostWrite)
  /-- HOST_CXL_MEM_READ (R422): A host CXL.mem read is accepted at its home, returning poisoned zero for absent offsets. -/
  | hostCxlMemRead (r : HostRead)
  /-- HOST_CXL_MEM_WRITE (R143): A host CXL.mem write is applied at its home and completed. -/
  | hostCxlMemWrite (w : HostWrite)
  /-- CXL_IO_ACCESS (R421): A host CXL.io access through BAR0 reaches control space. -/
  | cxlIoAccess (x : IoAccess)
  /-- LINK_ITEM_ARRIVAL (R429): A crossing-link item is applied in sequence order, duplicates discarded. -/
  | linkItemArrival (x : LinkItem)
  /-- ROUTE_CHANGE (R429): A port change moves a pair to a new port and resends unacknowledged items. -/
  | routeChange (up : BitVec 16)
  /-- PAGE_MOVE (R388): PMCTL.GO starts the page move engine that unmaps, copies, remaps and replays a page. -/
  | pageMove (l : Nat)
  /-- FQHEAD_WRITE (R387): Advancing FQHEAD frees fault-queue room and writes out held records. -/
  | fqheadWrite (l : Nat) (value : BitVec 32)
  /-- PARITY_FAILURE (R405): A transfer that fails parity is retried alone up to three times and attributed. -/
  | parityFailure (x : ParityFailure)
  /-- REPAIR_SWAP (R407): A third attributed failure swaps the connection onto a spare between transfers, or exhausts the group. -/
  | repairSwap (l bus group : Nat)
  /-- INIT (R408): DRCTL.INIT retires buses, sets the capacity, zeroes DRAM and rewrites the home maps. -/
  | init (l : Nat)
  /-- INIT_COMPLETE (R408): INIT finishes zeroing and sets READY. -/
  | initComplete (l : Nat)
  /-- TEST_MODE (R411): A PL2 write of VBSTAT.STATE 3 puts a bus into test mode, where it carries no transfer. -/
  | testMode (l bus : Nat)
  /-- GO (R412): VBTEST.GO drives a walking one on a physical connection from each end. -/
  | go (l bus phys : Nat)
  /-- TEST_COMPLETE (R418): A bus test completes and sets PASS and FAILK; `ones` are what the two receiving ends read as one. -/
  | testComplete (l bus : Nat) (ones : List Nat)
  /-- LOGCLR (R410): A write of 1 to LOGCLR clears a log's counters and entries. -/
  | logclr (l : Nat) (link : Bool)
  /-- MODULE_RESET (R432): Reset runs the boot ROM through the start phases to RUN or to a stop cause. -/
  | moduleReset
  /-- WATCHDOG (R437): A start not reaching RUN within 60 s resets the module with cause 11. -/
  | watchdog
  /-- RECOVERY (R439): RECCTL.GO in minimal mode verifies and runs a recovery image. -/
  | recovery (len : Nat)
  /-- GET_VERSION (R436): SPDM GET_VERSION request answered over the DOE mailbox. -/
  | getVersion (q : SpdmRequest)
  /-- GET_CAPABILITIES (R436): SPDM GET_CAPABILITIES request. -/
  | getCapabilities (q : SpdmRequest)
  /-- NEGOTIATE_ALGORITHMS (R436): SPDM NEGOTIATE_ALGORITHMS request. -/
  | negotiateAlgorithms (q : SpdmRequest)
  /-- GET_DIGESTS (R436): SPDM GET_DIGESTS request. -/
  | getDigests (q : SpdmRequest)
  /-- GET_CERTIFICATE (R436): SPDM GET_CERTIFICATE request. -/
  | getCertificate (q : SpdmRequest)
  /-- CHALLENGE (R436): SPDM CHALLENGE request signed with the identity key. -/
  | challenge (q : SpdmRequest)
  /-- GET_MEASUREMENTS (R436): SPDM GET_MEASUREMENTS request returning indices 1-5. -/
  | getMeasurements (q : SpdmRequest)
  /-- KEY_EXCHANGE (R436): SPDM KEY_EXCHANGE request. -/
  | keyExchange (q : SpdmRequest)
  /-- FINISH (R436): SPDM FINISH request completing a session. -/
  | finish (q : SpdmRequest)
  /-- IDLE_COMPLETION (R366): IDLE completes when FT reaches its deadline or a fault record arrives. -/
  | idleCompletion (uid : Nat)
  /-- REGISTER_WRITE (R9): A write to a control or system register with no row of its own, ignored if it sets reserved bits or breaks a constraint. -/
  | registerWrite (w : CtlWrite)
  /-- ILLEGAL_INSTRUCTION (R159): Fetching an encoding that is no instruction (reserved major or func, majors 20-23, an unmapped decode-table slot, a reserved field) raises the precise illegal-instruction trap. -/
  | illegalInstruction (x : BadEncoding)
  /-- HOST_PORT_TRAINING (R421): The CXL host link trains to a width and rate, or goes down, changing WIDTH and RATE, with RATE 0 meaning down. -/
  | hostPortTraining (width rate : Nat)
  deriving DecidableEq, Repr

end Sys2Proof
end

