-- ==== Sys2Proof/WellFormed.lean ====
section
/-! DEFINITION. The opcode map (06 Tables 6-2, 6-3, 6-4): the format and major of each instruction, the
instruction a major and function value name, the operand classes of each instruction, and when an
instruction is well formed (06 R149, R150, R153, R159; Tables 7-1 to 7-6, 9-1, 11-1, 11-2, 12-2, 12-6, 17-5). -/

namespace Sys2Proof

/-- An instruction's fields under its format and major. -/
inductive Fmt where
  | c16 (op : Nat) (o : C16)
  | a32 (maj : Nat) (o : A32)
  | i32 (maj : Nat) (o : I32)
  | i15 (maj : Nat) (o : I15)
  | b32 (maj : Nat) (o : B32)
  | t64 (maj : Nat) (o : T64)
  | m64 (maj : Nat) (o : M64)
  | l64 (maj : Nat) (o : L64)
  | j64 (maj : Nat) (o : J64)
  /-- An event: no encoding. -/
  | event
  deriving DecidableEq, Repr

/-- The format and major of each row (06 R148, R154, R156, R157). -/
def Instr.fmt : Instr → Fmt
  | .c16Mov o => .c16 0 o
  | .c16Add o => .c16 1 o
  | .c16Sub o => .c16 2 o
  | .c16And o => .c16 3 o
  | .c16Or o => .c16 4 o
  | .c16Xor o => .c16 5 o
  | .c16Shli o => .c16 6 o
  | .c16Shri o => .c16 7 o
  | .c16Addi o => .c16 8 o
  | .c16Movi o => .c16 9 o
  | .c16Mul o => .c16 10 o
  | .c16Fadd o => .c16 11 o
  | .c16Fsub o => .c16 12 o
  | .c16Fmul o => .c16 13 o
  | .c16Fmax o => .c16 14 o
  | .c16Fmin o => .c16 15 o
  | .add o => .a32 0 o
  | .sub o => .a32 0 o
  | .mul o => .a32 0 o
  | .mulhi o => .a32 0 o
  | .mulhiz o => .a32 0 o
  | .abs o => .a32 0 o
  | .min o => .a32 0 o
  | .max o => .a32 0 o
  | .minz o => .a32 1 o
  | .maxz o => .a32 1 o
  | .and o => .a32 1 o
  | .or o => .a32 1 o
  | .xor o => .a32 1 o
  | .andn o => .a32 1 o
  | .orn o => .a32 1 o
  | .rotl o => .a32 1 o
  | .shl o => .a32 2 o
  | .shr o => .a32 2 o
  | .sar o => .a32 2 o
  | .clz o => .a32 2 o
  | .ctz o => .a32 2 o
  | .popc o => .a32 2 o
  | .brev o => .a32 2 o
  | .bpick o => .a32 2 o
  | .bfx o => .a32 3 o
  | .bfxs o => .a32 3 o
  | .bfi o => .a32 3 o
  | .sel o => .a32 3 o
  | .add64 o => .a32 3 o
  | .sub64 o => .a32 3 o
  | .mov o => .a32 3 o
  | .actmask o => .a32 3 o
  | .cmp o => .a32 4 o
  | .fadd o => .a32 5 o
  | .fsub o => .a32 5 o
  | .fmul o => .a32 5 o
  | .fmin o => .a32 5 o
  | .fmax o => .a32 5 o
  | .fsat o => .a32 5 o
  | .fscale o => .a32 5 o
  | .fgetexp o => .a32 5 o
  | .fcmp o => .a32 6 o
  | .pand o => .a32 7 o
  | .por o => .a32 7 o
  | .pxor o => .a32 7 o
  | .pandn o => .a32 7 o
  | .pnot o => .a32 7 o
  | .pmov o => .a32 7 o
  | .ptov o => .a32 7 o
  | .vtop o => .a32 7 o
  | .xlaneGet o => .a32 8 o
  | .xlaneRot o => .a32 8 o
  | .xlaneFlip o => .a32 8 o
  | .xlaneShift o => .a32 8 o
  | .pcount o => .a32 8 o
  | .pmask o => .a32 8 o
  | .pfirst o => .a32 8 o
  | .vrank o => .a32 8 o
  | .pkadd o => .a32 9 o
  | .pkmul o => .a32 9 o
  | .pkmax o => .a32 9 o
  | .pkmin o => .a32 9 o
  | .addi o => .i32 10 o
  | .andi o => .i32 11 o
  | .ori o => .i32 12 o
  | .xori o => .i32 13 o
  | .shli o => .i32 14 o
  | .shri o => .i32 14 o
  | .sari o => .i32 14 o
  | .rotli o => .i32 14 o
  | .muli o => .i32 15 o
  | .cmpi o => .i32 16 o
  | .movi o => .i15 17 o
  | .bra o => .b32 18 o
  | .laneid o => .a32 19 o
  | .grprank o => .a32 19 o
  | .teamid o => .a32 19 o
  | .ftime o => .a32 19 o
  | .poisonq o => .a32 19 o
  | .formq o => .a32 19 o
  | .nop o => .a32 19 o
  | .yield o => .a32 19 o
  | .ret o => .a32 20 o
  | .exit o => .a32 20 o
  | .brx o => .a32 20 o
  | .callx o => .a32 20 o
  | .join o => .a32 20 o
  | .wsync o => .a32 20 o
  | .pin o => .a32 20 o
  | .unpin o => .a32 20 o
  | .trap o => .i32 21 o
  | .syscall o => .i32 22 o
  | .redux o => .a32 23 o
  | .ffma o => .t64 0 o
  | .dfma o => .t64 0 o
  | .pkfmaF16 o => .t64 0 o
  | .pkfmaBf16 o => .t64 0 o
  | .mad o => .t64 0 o
  | .madw o => .t64 0 o
  | .dot4 o => .t64 0 o
  | .dot4z o => .t64 0 o
  | .dot2bf o => .t64 0 o
  | .fdiv o => .t64 1 o
  | .fsqrt o => .t64 1 o
  | .frcp o => .t64 1 o
  | .frsq o => .t64 1 o
  | .fexp2 o => .t64 1 o
  | .flog2 o => .t64 1 o
  | .fsin o => .t64 1 o
  | .fcos o => .t64 1 o
  | .frnd o => .t64 1 o
  | .fclass o => .t64 1 o
  | .ddiv o => .t64 1 o
  | .dsqrt o => .t64 1 o
  | .dadd o => .t64 1 o
  | .dsub o => .t64 1 o
  | .dmul o => .t64 1 o
  | .dmin o => .t64 1 o
  | .dmax o => .t64 1 o
  | .dcmp o => .t64 1 o
  | .div o => .t64 2 o
  | .divz o => .t64 2 o
  | .rem o => .t64 2 o
  | .remz o => .t64 2 o
  | .cvtF2f o => .t64 3 o
  | .cvtF2i o => .t64 3 o
  | .cvtI2f o => .t64 3 o
  | .cvtNarrow o => .t64 3 o
  | .cvtWiden o => .t64 3 o
  | .packmx o => .t64 3 o
  | .planeSplit o => .t64 3 o
  | .planeJoin o => .t64 3 o
  | .rngCb o => .t64 4 o
  | .movi32 o => .l64 5 o
  | .addi32 o => .l64 5 o
  | .call o => .j64 6 o
  | .brl o => .j64 6 o
  | .enter o => .j64 7 o
  | .ld o => .m64 8 o
  | .ldL o => .m64 8 o
  | .st o => .m64 9 o
  | .stP o => .m64 9 o
  | .atom o => .m64 10 o
  | .atomCas o => .m64 10 o
  | .redP o => .m64 11 o
  | .redK o => .m64 11 o
  | .redclose o => .m64 11 o
  | .fence o => .m64 12 o
  | .barInit o => .m64 12 o
  | .barArrive o => .m64 12 o
  | .barWait o => .m64 12 o
  | .barSync o => .m64 12 o
  | .cwait o => .m64 12 o
  | .migrate o => .m64 12 o
  | .park o => .m64 12 o
  | .wake o => .m64 12 o
  | .qpush o => .m64 13 o
  | .qpop o => .m64 13 o
  | .copy o => .t64 14 o
  | .copyS o => .t64 14 o
  | .twait o => .t64 14 o
  | .tpoll o => .t64 14 o
  | .cfill o => .t64 14 o
  | .publish o => .t64 14 o
  | .hset o => .t64 15 o
  | .hget o => .t64 15 o
  | .hload o => .t64 15 o
  | .tld o => .t64 15 o
  | .tst o => .t64 15 o
  | .tnext o => .t64 15 o
  | .tpos o => .t64 15 o
  | .mgopen o => .t64 16 o
  | .mgpush o => .t64 16 o
  | .mgseal o => .t64 16 o
  | .mgwait o => .t64 16 o
  | .mgstat o => .t64 16 o
  | .mgstatK o => .t64 16 o
  | .mgresume o => .t64 16 o
  | .mgclose o => .t64 16 o
  | .mclaim o => .t64 17 o
  | .mrelease o => .t64 17 o
  | .mloadb o => .t64 17 o
  | .mloads o => .t64 17 o
  | .mzero o => .t64 17 o
  | .mma o => .t64 17 o
  | .mloop o => .t64 17 o
  | .mbatch o => .t64 17 o
  | .msparse o => .t64 17 o
  | .mwait o => .t64 17 o
  | .mread o => .t64 17 o
  | .mstore o => .t64 17 o
  | .mstat o => .t64 17 o
  | .mprog o => .t64 17 o
  | .mfs o => .t64 18 o
  | .mts o => .t64 18 o
  | .rte o => .t64 18 o
  | .rdprev o => .t64 18 o
  | .rdprevP o => .t64 18 o
  | .wrprev o => .t64 18 o
  | .wrprevP o => .t64 18 o
  | .replay o => .t64 18 o
  | .replayPage o => .t64 18 o
  | .tlbinvPage o => .t64 18 o
  | .tlbinvCtx o => .t64 18 o
  | .tlbinvAll o => .t64 18 o
  | .parkctx o => .t64 18 o
  | .wakectx o => .t64 18 o
  | .wakectxGrp o => .t64 18 o
  | .idle o => .t64 18 o
  | .fsinx o => .t64 56 o
  | .fcosx o => .t64 56 o
  | .crossingArrival _ _ => .event
  | .berthRelease _ _ _ => .event
  | .admission _ => .event
  | .overflowReturn _ => .event
  | .wharfPromotion _ _ => .event
  | .arrival _ _ => .event
  | .exitNotice _ _ => .event
  | .liveRankChange _ _ => .event
  | .postedStoreApply _ _ => .event
  | .reductionApply _ _ => .event
  | .keyedBufferEntry _ _ => .event
  | .flip _ _ => .event
  | .closeCommand _ => .event
  | .tideSample _ _ => .event
  | .tideAdoption _ _ => .event
  | .copyLine _ _ => .event
  | .windowSpill _ => .event
  | .refill _ => .event
  | .parkCommand _ _ => .event
  | .drainMarker _ _ => .event
  | .parkReport _ _ => .event
  | .claimNarrowing _ _ => .event
  | .claimRestore _ _ _ => .event
  | .claimEnd _ _ => .event
  | .matrixCommandExecution _ _ => .event
  | .mergeSpill _ => .event
  | .rowCommit _ _ => .event
  | .launchRecord _ => .event
  | .teamPlacement _ => .event
  | .launchCompletion _ _ => .event
  | .queueRegisterWrite _ => .event
  | .append _ => .event
  | .hostCxlMemRead _ => .event
  | .hostCxlMemWrite _ => .event
  | .cxlIoAccess _ => .event
  | .linkItemArrival _ => .event
  | .routeChange _ => .event
  | .pageMove _ => .event
  | .fqheadWrite _ _ => .event
  | .parityFailure _ => .event
  | .repairSwap _ _ _ => .event
  | .init _ => .event
  | .initComplete _ => .event
  | .testMode _ _ => .event
  | .go _ _ _ => .event
  | .testComplete _ _ _ => .event
  | .logclr _ _ => .event
  | .moduleReset => .event
  | .watchdog => .event
  | .recovery _ => .event
  | .getVersion _ => .event
  | .getCapabilities _ => .event
  | .negotiateAlgorithms _ => .event
  | .getDigests _ => .event
  | .getCertificate _ => .event
  | .challenge _ => .event
  | .getMeasurements _ => .event
  | .keyExchange _ => .event
  | .finish _ => .event
  | .idleCompletion _ => .event
  | .registerWrite _ => .event
  | .illegalInstruction _ => .event
  | .hostPortTraining _ _ => .event

/-- The C16 operations (Table 6-2). -/
def c16Of (op : Nat) (o : C16) : Option Instr :=
  match op with
  | 0 => some (.c16Mov o)
  | 1 => some (.c16Add o)
  | 2 => some (.c16Sub o)
  | 3 => some (.c16And o)
  | 4 => some (.c16Or o)
  | 5 => some (.c16Xor o)
  | 6 => some (.c16Shli o)
  | 7 => some (.c16Shri o)
  | 8 => some (.c16Addi o)
  | 9 => some (.c16Movi o)
  | 10 => some (.c16Mul o)
  | 11 => some (.c16Fadd o)
  | 12 => some (.c16Fsub o)
  | 13 => some (.c16Fmul o)
  | 14 => some (.c16Fmax o)
  | 15 => some (.c16Fmin o)
  | _ => none

/-- The A32 majors (Table 6-3). -/
def a32Of (maj : Nat) (o : A32) : Option Instr :=
  match maj with
  | 0 =>
    match o.fn.toNat with
    | 0 => some (.add o)
    | 1 => some (.sub o)
    | 2 => some (.mul o)
    | 3 => some (.mulhi o)
    | 4 => some (.mulhiz o)
    | 5 => some (.abs o)
    | 6 => some (.min o)
    | 7 => some (.max o)
    | _ => none
  | 1 =>
    match o.fn.toNat with
    | 0 => some (.minz o)
    | 1 => some (.maxz o)
    | 2 => some (.and o)
    | 3 => some (.or o)
    | 4 => some (.xor o)
    | 5 => some (.andn o)
    | 6 => some (.orn o)
    | 7 => some (.rotl o)
    | _ => none
  | 2 =>
    match o.fn.toNat with
    | 0 => some (.shl o)
    | 1 => some (.shr o)
    | 2 => some (.sar o)
    | 3 => some (.clz o)
    | 4 => some (.ctz o)
    | 5 => some (.popc o)
    | 6 => some (.brev o)
    | 7 => some (.bpick o)
    | _ => none
  | 3 =>
    match o.fn.toNat with
    | 0 => some (.bfx o)
    | 1 => some (.bfxs o)
    | 2 => some (.bfi o)
    | 3 => some (.sel o)
    | 4 => some (.add64 o)
    | 5 => some (.sub64 o)
    | 6 => some (.mov o)
    | 7 => some (.actmask o)
    | _ => none
  | 4 =>
    some (.cmp o)
  | 5 =>
    match o.fn.toNat with
    | 0 => some (.fadd o)
    | 1 => some (.fsub o)
    | 2 => some (.fmul o)
    | 3 => some (.fmin o)
    | 4 => some (.fmax o)
    | 5 => some (.fsat o)
    | 6 => some (.fscale o)
    | 7 => some (.fgetexp o)
    | _ => none
  | 6 =>
    some (.fcmp o)
  | 7 =>
    match o.fn.toNat with
    | 0 => some (.pand o)
    | 1 => some (.por o)
    | 2 => some (.pxor o)
    | 3 => some (.pandn o)
    | 4 => some (.pnot o)
    | 5 => some (.pmov o)
    | 6 => some (.ptov o)
    | 7 => some (.vtop o)
    | _ => none
  | 8 =>
    match o.fn.toNat with
    | 0 => some (.xlaneGet o)
    | 1 => some (.xlaneRot o)
    | 2 => some (.xlaneFlip o)
    | 3 => some (.xlaneShift o)
    | 4 => some (.pcount o)
    | 5 => some (.pmask o)
    | 6 => some (.pfirst o)
    | 7 => some (.vrank o)
    | _ => none
  | 9 =>
    match o.fn.toNat with
    | 0 => some (.pkadd o)
    | 1 => some (.pkmul o)
    | 2 => some (.pkmax o)
    | 3 => some (.pkmin o)
    | 4 => some (.pkadd o)
    | 5 => some (.pkmul o)
    | 6 => some (.pkmax o)
    | 7 => some (.pkmin o)
    | _ => none
  | 19 =>
    match o.fn.toNat with
    | 0 => some (.laneid o)
    | 1 => some (.grprank o)
    | 2 => some (.teamid o)
    | 3 => some (.ftime o)
    | 4 => some (.poisonq o)
    | 5 => some (.formq o)
    | 6 => some (.nop o)
    | 7 => some (.yield o)
    | _ => none
  | 20 =>
    match o.fn.toNat with
    | 0 => some (.ret o)
    | 1 => some (.exit o)
    | 2 => some (.brx o)
    | 3 => some (.callx o)
    | 4 => some (.join o)
    | 5 => some (.wsync o)
    | 6 => some (.pin o)
    | 7 => some (.unpin o)
    | _ => none
  | 23 =>
    some (.redux o)
  | _ => none

/-- The I32 majors but 17 (Table 6-3). Major 14 selects by kind [8:6] of `imm`. -/
def i32Of (maj : Nat) (o : I32) : Option Instr :=
  match maj with
  | 10 => some (.addi o)
  | 11 => some (.andi o)
  | 12 => some (.ori o)
  | 13 => some (.xori o)
  | 14 =>
    match (o.imm.extractLsb' 6 3).toNat with
    | 0 => some (.shli o)
    | 1 => some (.shri o)
    | 2 => some (.sari o)
    | 3 => some (.rotli o)
    | _ => none
  | 15 => some (.muli o)
  | 16 => some (.cmpi o)
  | 21 => some (.trap o)
  | 22 => some (.syscall o)
  | _ => none

/-- The T64 and K64 majors (Table 6-4, 24 R442). -/
def t64Of (maj : Nat) (o : T64) : Option Instr :=
  match maj with
  | 0 =>
    match o.fn.toNat with
    | 0 => some (.ffma o)
    | 1 => some (.dfma o)
    | 2 => some (.pkfmaF16 o)
    | 3 => some (.pkfmaBf16 o)
    | 4 => some (.mad o)
    | 5 => some (.madw o)
    | 6 => some (.dot4 o)
    | 7 => some (.dot4z o)
    | 8 => some (.dot2bf o)
    | _ => none
  | 1 =>
    match o.fn.toNat with
    | 0 => some (.fdiv o)
    | 1 => some (.fsqrt o)
    | 2 => some (.frcp o)
    | 3 => some (.frsq o)
    | 4 => some (.fexp2 o)
    | 5 => some (.flog2 o)
    | 6 => some (.fsin o)
    | 7 => some (.fcos o)
    | 8 => some (.frnd o)
    | 9 => some (.fclass o)
    | 10 => some (.ddiv o)
    | 11 => some (.dsqrt o)
    | 12 => some (if o.ctl.getLsbD 4 then .dsub o else .dadd o)
    | 13 => some (.dmul o)
    | 14 => some (.dmin o)
    | 15 => some (.dmax o)
    | 16 => some (.dcmp o)
    | _ => none
  | 2 =>
    match o.fn.toNat with
    | 0 => some (.div o)
    | 1 => some (.divz o)
    | 2 => some (.rem o)
    | 3 => some (.remz o)
    | _ => none
  | 3 =>
    match o.fn.toNat with
    | 0 => some (.cvtF2f o)
    | 1 => some (.cvtF2i o)
    | 2 => some (.cvtI2f o)
    | 3 => some (.cvtNarrow o)
    | 4 => some (.cvtWiden o)
    | 5 => some (.packmx o)
    | 6 => some (.planeSplit o)
    | 7 => some (.planeJoin o)
    | _ => none
  | 4 =>
    match o.fn.toNat with
    | 0 => some (.rngCb o)
    | 1 => some (.rngCb o)
    | 2 => some (.rngCb o)
    | 3 => some (.rngCb o)
    | _ => none
  | 14 =>
    match o.fn.toNat with
    | 0 => some (.copy o)
    | 1 => some (.copyS o)
    | 2 => some (.twait o)
    | 3 => some (.tpoll o)
    | 4 => some (.cfill o)
    | 5 => some (.publish o)
    | _ => none
  | 15 =>
    match o.fn.toNat with
    | 0 => some (.hset o)
    | 1 => some (.hget o)
    | 2 => some (.hload o)
    | 3 => some (.tld o)
    | 4 => some (.tst o)
    | 5 => some (.tnext o)
    | 6 => some (.tpos o)
    | _ => none
  | 16 =>
    match o.fn.toNat with
    | 0 => some (.mgopen o)
    | 1 => some (.mgpush o)
    | 2 => some (.mgseal o)
    | 3 => some (.mgwait o)
    | 4 => some (if o.ctl.getLsbD 0 then .mgstatK o else .mgstat o)
    | 5 => some (.mgresume o)
    | 6 => some (.mgclose o)
    | _ => none
  | 17 =>
    match o.fn.toNat with
    | 0 => some (.mclaim o)
    | 1 => some (.mrelease o)
    | 2 => some (.mloadb o)
    | 3 => some (.mloads o)
    | 4 => some (.mzero o)
    | 5 => some (.mma o)
    | 6 => some (.mloop o)
    | 7 => some (.mbatch o)
    | 8 => some (.msparse o)
    | 9 => some (.mwait o)
    | 10 => some (.mread o)
    | 11 => some (.mstore o)
    | 12 => some (.mstat o)
    | 13 => some (.mprog o)
    | _ => none
  | 18 =>
    match o.fn.toNat with
    | 0 => some (.mfs o)
    | 1 => some (.mts o)
    | 2 => some (.rte o)
    | 3 => some (if o.ctl.getLsbD 0 then .rdprevP o else .rdprev o)
    | 4 => some (if o.ctl.getLsbD 0 then .wrprevP o else .wrprev o)
    | 5 => some (if o.ctl.getLsbD 0 then .replayPage o else .replay o)
    | 6 => some (match (o.ctl.extractLsb' 0 2).toNat with | 1 => .tlbinvCtx o | 2 => .tlbinvAll o | _ => .tlbinvPage o)
    | 7 => some (.parkctx o)
    | 8 => some (if o.ctl.getLsbD 0 then .wakectxGrp o else .wakectx o)
    | 9 => some (.idle o)
    | _ => none
  | 56 =>
    match o.fn.toNat with
    | 0 => some (.fsinx o)
    | 1 => some (.fcosx o)
    | _ => none
  | _ => none

/-- The M64 majors (Table 6-4); `fn` is func6[4:0]. -/
def m64Of (maj : Nat) (o : M64) : Option Instr :=
  match maj with
  | 8 =>
    match o.fn.toNat with
    | 0 => some (.ld o)
    | 1 => some (.ldL o)
    | _ => none
  | 9 =>
    match o.fn.toNat with
    | 0 => some (.st o)
    | 1 => some (.stP o)
    | _ => none
  | 10 =>
    match o.fn.toNat with
    | 0 => some (.atom o)
    | 1 => some (.atom o)
    | 2 => some (.atom o)
    | 3 => some (.atom o)
    | 4 => some (.atom o)
    | 5 => some (.atom o)
    | 6 => some (.atom o)
    | 7 => some (.atom o)
    | 8 => some (.atom o)
    | 9 => some (.atom o)
    | 10 => some (.atomCas o)
    | _ => none
  | 11 =>
    match o.fn.toNat with
    | 0 => some (.redP o)
    | 1 => some (.redP o)
    | 2 => some (.redP o)
    | 3 => some (.redP o)
    | 4 => some (.redP o)
    | 5 => some (.redP o)
    | 6 => some (.redP o)
    | 7 => some (.redP o)
    | 8 => some (.redP o)
    | 9 => some (.redK o)
    | 10 => some (.redK o)
    | 11 => some (.redK o)
    | 12 => some (.redK o)
    | 13 => some (.redK o)
    | 14 => some (.redK o)
    | 15 => some (.redK o)
    | 16 => some (.redK o)
    | 17 => some (.redK o)
    | 18 => some (.redclose o)
    | _ => none
  | 12 =>
    match o.fn.toNat with
    | 0 => some (.fence o)
    | 1 => some (.barInit o)
    | 2 => some (.barArrive o)
    | 3 => some (.barWait o)
    | 4 => some (.barSync o)
    | 5 => some (.cwait o)
    | 6 => some (.migrate o)
    | 7 => some (.park o)
    | 8 => some (.wake o)
    | _ => none
  | 13 =>
    match o.fn.toNat with
    | 0 => some (.qpush o)
    | 1 => some (.qpop o)
    | _ => none
  | _ => none

/-- The L64 major (Table 6-4). -/
def l64Of (maj : Nat) (o : L64) : Option Instr :=
  match maj with
  | 5 =>
    match o.fn.toNat with
    | 0 => some (.movi32 o)
    | 1 => some (.addi32 o)
    | _ => none
  | _ => none

/-- The J64 majors (Table 6-4). -/
def j64Of (maj : Nat) (o : J64) : Option Instr :=
  match maj with
  | 6 =>
    match o.fn.toNat with
    | 0 => some (.call o)
    | 1 => some (.brl o)
    | _ => none
  | 7 =>
    match o.fn.toNat with
    | 0 => some (.enter o)
    | _ => none
  | _ => none

/-- The instruction that a format's major and function value name, if the map lists it. -/
def Fmt.instr? : Fmt → Option Instr
  | .c16 op o => c16Of op o
  | .a32 maj o => a32Of maj o
  | .i32 maj o => i32Of maj o
  | .i15 maj o => if maj = 17 then some (.movi o) else none
  | .b32 maj o => if maj = 18 then some (.bra o) else none
  | .t64 maj o => t64Of maj o
  | .m64 maj o => m64Of maj o
  | .l64 maj o => l64Of maj o
  | .j64 maj o => j64Of maj o
  | .event => none

/-- The operand classes of R149. `v n` is a run of `n` registers aligned to `n` (a register, pair, quad or
oct); the others name their class. -/
inductive Cls where
  | v (n : Nat)
  | pred
  | handle
  | token
  | tile
  | row
  deriving DecidableEq, Repr

/-- One register field of an instruction: its value, class, and whether its register is read as a source. -/
structure Use where
  n : Nat
  cls : Cls
  rd : Bool
  deriving DecidableEq, Repr

/-- What the decoder checks of an instruction: the register fields it uses, the fields and bits that must be
zero (SUB 3), and its out-of-range conditions (SUB 2). -/
structure Shape where
  uses : List Use
  zeros : List Nat := []
  bad : List Bool := []
  deriving DecidableEq, Repr

/-- A v register, or aligned run, that is read. -/
def vr (n : Nat) (x : BitVec w) : List Use := [⟨x.toNat, .v n, true⟩]
/-- A v register, or aligned run, that is only written, or read in a way its instruction describes. -/
def vw (n : Nat) (x : BitVec w) : List Use := [⟨x.toNat, .v n, false⟩]
/-- A predicate that is read. -/
def pr (x : BitVec w) : List Use := [⟨x.toNat, .pred, true⟩]
/-- A predicate that is written. -/
def pw (x : BitVec w) : List Use := [⟨x.toNat, .pred, false⟩]
/-- A handle that is read. -/
def hr (x : BitVec w) : List Use := [⟨x.toNat, .handle, true⟩]
/-- A handle that is written. -/
def hw (x : BitVec w) : List Use := [⟨x.toNat, .handle, false⟩]
/-- A tile. -/
def tl (x : BitVec w) : List Use := [⟨x.toNat, .tile, false⟩]
/-- A tile row immediate. -/
def rowImm (x : BitVec w) : List Use := [⟨x.toNat, .row, false⟩]

/-- The value of a field that no use names must be zero (R149). -/
def unusedZero (us : List Use) (x : BitVec w) : List Nat := if us.isEmpty then [x.toNat] else []

/-- The guard G4 = 0b1000 is out of range (R151). -/
def badGuard (g : BitVec 4) : Bool := g == 8

/-- Shape of an A32 instruction. -/
def shA (o : A32) (ud ua ub : List Use) : Shape :=
  { uses := ud ++ ua ++ ub
    zeros := unusedZero ud o.d ++ unusedZero ua o.a ++ unusedZero ub o.b
    bad := [badGuard o.g] }

/-- Shape of a T64 instruction; `m` is the mask of ctl bits it uses. -/
def shT (o : T64) (m : BitVec 12) (ud ua ub uc : List Use) (bad : List Bool := []) : Shape :=
  { uses := ud ++ ua ++ ub ++ uc
    zeros := unusedZero ud o.d ++ unusedZero ua o.a ++ unusedZero ub o.b ++ unusedZero uc o.c ++
      [(o.ctl &&& ~~~m).toNat]
    bad := badGuard o.g :: bad }

/-- Shape of a K64 instruction: the reserved [13:11] must be zero, and `k` says whether the token field is
used (R148, R223). -/
def shK (o : T64) (k : Bool) (m : BitVec 12) (ua ub uc : List Use) : Shape :=
  { uses := (if k then [⟨(o.d.extractLsb' 0 3).toNat, .token, false⟩] else []) ++ ua ++ ub ++ uc
    zeros := (if k then [(o.d.extractLsb' 3 3).toNat] else [o.d.toNat]) ++ unusedZero ua o.a ++
      unusedZero ub o.b ++ unusedZero uc o.c ++ [(o.ctl &&& ~~~m).toNat]
    bad := [badGuard o.g] }

/-- A reserved rounding mode (R153). -/
def badRM (o : T64) : Bool := 5 ≤ (o.ctl.extractLsb' 0 3).toNat

/-- Registers of an M64 address operand (R158). -/
def memUse (o : M64) : List Use := if o.af == 0 then vr 2 o.a else vr 1 o.a

/-- Byte count of a size code (Table 6-5); 0 for a reserved code. -/
def sizeBytes (s : BitVec 4) : Nat :=
  match s.toNat with
  | 0 => 1 | 1 => 2 | 2 => 4 | 3 => 8 | 4 => 16 | 5 => 1 | 6 => 2 | _ => 0

/-- Registers a size code's operand takes (Table 6-5). -/
def sizeRegs (s : BitVec 4) : Nat :=
  match s.toNat with
  | 3 => 2 | 4 => 4 | _ => 1

/-- Shape of an M64 instruction that addresses memory; `sizes` are the admitted size codes (Table 9-1). -/
def shM (o : M64) (sizes : List Nat) (ud ub : List Use) : Shape :=
  { uses := ud ++ memUse o ++ ub
    zeros := unusedZero ud o.d ++ unusedZero ub o.b
    bad := [badGuard o.g, o.scope != 0, !sizes.contains o.size.toNat] }

/-- An aligned run of registers for a size code that is read. -/
def szr (s : BitVec 4) (x : BitVec w) : List Use := vr (sizeRegs s) x
/-- An aligned run of registers for a size code that is written. -/
def szw (s : BitVec 4) (x : BitVec w) : List Use := vw (sizeRegs s) x

/-- Shape of a C16 instruction, by its equivalent of Table 6-2. -/
def shC (_o : C16) (us : List Use) : Shape := { uses := us }

/-- ctl[7:4], the FMT field of Table 8-10 and the format fields of Table 11-2. -/
def T64.fmt4 (o : T64) : Nat := (o.ctl.extractLsb' 4 4).toNat
/-- ctl[11:8], the SUB8 field of Table 8-10. -/
def T64.sub8 (o : T64) : Nat := (o.ctl.extractLsb' 8 4).toNat

/-- The highest slot of CVT.NARROW (R217). -/
def narrowSlots (fmt : Nat) : Nat := if fmt ≤ 3 then 0 else if fmt ≤ 7 then 1 else 3
/-- The highest slot of CVT.WIDEN (R218). -/
def widenSlots (fmt : Nat) : Nat := if fmt ≤ 3 then 1 else if fmt == 8 then 7 else 3
/-- An integer code of Table 8-11 that is 64 bits wide. -/
def ityWide (t : Nat) : Bool := t == 3 || t == 7

/-- The registers of Table 17-3 that MFS and MTS name, with whether each is 64 bits wide. -/
def sysReg? (n : Nat) : Option Bool :=
  match n with
  | 0x000 => some false
  | 0x001 => some false
  | 0x002 => some true
  | 0x003 => some true
  | 0x004 => some true
  | 0x005 => some false
  | 0x100 => some false
  | 0x101 => some true
  | 0x102 => some true
  | 0x103 => some true
  | 0x104 => some true
  | 0x105 => some false
  | 0x106 => some true
  | 0x107 => some false
  | 0x108 => some true
  | 0x109 => some false
  | 0x10A => some true
  | 0x10B => some true
  | 0x10C => some true
  | 0x10D => some true
  | 0x10E => some true
  | _ => none

/-- The register number of MFS and MTS, ctl[10:0] (R347). -/
def T64.regNum (o : T64) : Nat := (o.ctl.extractLsb' 0 11).toNat
/-- X, ctl[11] of MFS and MTS (Table 17-5). -/
def T64.x (o : T64) : Bool := o.ctl.getLsbD 11
/-- SUB 2 conditions of MFS and MTS (R347, R350). -/
def badSysReg (o : T64) : List Bool := [(sysReg? o.regNum).isNone, o.x && decide (o.regNum ≤ 4)]
/-- Registers of an MFS or MTS operand: a pair for a 64-bit register. -/
def sysRegRun (o : T64) : Nat := if (sysReg? o.regNum).getD false then 2 else 1

/-- The shape of each instruction (Tables 6-2 to 6-4, 7-1 to 7-6, 8-3 to 8-10, 9-1, 11-1, 11-2, 12-2, 12-6,
17-5, 24-5). An event has no encoding and an empty shape. -/
def Instr.shape (i : Instr) : Shape :=
  match i with
  | .c16Mov o => shC o (vw 1 o.d ++ vr 1 o.s)
  | .c16Add o => shC o (vr 1 o.d ++ vr 1 o.s)
  | .c16Sub o => shC o (vr 1 o.d ++ vr 1 o.s)
  | .c16And o => shC o (vr 1 o.d ++ vr 1 o.s)
  | .c16Or o => shC o (vr 1 o.d ++ vr 1 o.s)
  | .c16Xor o => shC o (vr 1 o.d ++ vr 1 o.s)
  | .c16Shli o => shC o (vr 1 o.d)
  | .c16Shri o => shC o (vr 1 o.d)
  | .c16Addi o => shC o (vr 1 o.d)
  | .c16Movi o => shC o (vw 1 o.d)
  | .c16Mul o => shC o (vr 1 o.d ++ vr 1 o.s)
  | .c16Fadd o => shC o (vr 1 o.d ++ vr 1 o.s)
  | .c16Fsub o => shC o (vr 1 o.d ++ vr 1 o.s)
  | .c16Fmul o => shC o (vr 1 o.d ++ vr 1 o.s)
  | .c16Fmax o => shC o (vr 1 o.d ++ vr 1 o.s)
  | .c16Fmin o => shC o (vr 1 o.d ++ vr 1 o.s)
  | .add o => shA o (vw 1 o.d) (vr 1 o.a) (vr 1 o.b)
  | .sub o => shA o (vw 1 o.d) (vr 1 o.a) (vr 1 o.b)
  | .mul o => shA o (vw 1 o.d) (vr 1 o.a) (vr 1 o.b)
  | .mulhi o => shA o (vw 1 o.d) (vr 1 o.a) (vr 1 o.b)
  | .mulhiz o => shA o (vw 1 o.d) (vr 1 o.a) (vr 1 o.b)
  | .abs o => shA o (vw 1 o.d) (vr 1 o.a) []
  | .min o => shA o (vw 1 o.d) (vr 1 o.a) (vr 1 o.b)
  | .max o => shA o (vw 1 o.d) (vr 1 o.a) (vr 1 o.b)
  | .minz o => shA o (vw 1 o.d) (vr 1 o.a) (vr 1 o.b)
  | .maxz o => shA o (vw 1 o.d) (vr 1 o.a) (vr 1 o.b)
  | .and o => shA o (vw 1 o.d) (vr 1 o.a) (vr 1 o.b)
  | .or o => shA o (vw 1 o.d) (vr 1 o.a) (vr 1 o.b)
  | .xor o => shA o (vw 1 o.d) (vr 1 o.a) (vr 1 o.b)
  | .andn o => shA o (vw 1 o.d) (vr 1 o.a) (vr 1 o.b)
  | .orn o => shA o (vw 1 o.d) (vr 1 o.a) (vr 1 o.b)
  | .rotl o => shA o (vw 1 o.d) (vr 1 o.a) (vr 1 o.b)
  | .shl o => shA o (vw 1 o.d) (vr 1 o.a) (vr 1 o.b)
  | .shr o => shA o (vw 1 o.d) (vr 1 o.a) (vr 1 o.b)
  | .sar o => shA o (vw 1 o.d) (vr 1 o.a) (vr 1 o.b)
  | .clz o => shA o (vw 1 o.d) (vr 1 o.a) []
  | .ctz o => shA o (vw 1 o.d) (vr 1 o.a) []
  | .popc o => shA o (vw 1 o.d) (vr 1 o.a) []
  | .brev o => shA o (vw 1 o.d) (vr 1 o.a) []
  | .bpick o => shA o (vr 1 o.d) (vr 1 o.a) (vr 1 o.b)
  | .bfx o => shA o (vw 1 o.d) (vr 1 o.a) (vr 1 o.b)
  | .bfxs o => shA o (vw 1 o.d) (vr 1 o.a) (vr 1 o.b)
  | .bfi o => shA o (vr 1 o.d) (vr 1 o.a) (vr 1 o.b)
  | .sel o => shA o (vw 1 o.d) (vr 1 o.a) (vr 1 o.b ++ pr (o.g.extractLsb' 0 3))
  | .add64 o => shA o (vw 2 o.d) (vr 2 o.a) (vr 2 o.b)
  | .sub64 o => shA o (vw 2 o.d) (vr 2 o.a) (vr 2 o.b)
  | .mov o => shA o (vw 1 o.d) (vr 1 o.a) []
  | .actmask o => shA o (vw 1 o.d) [] []
  | .cmp o => shA o (pw o.d) (vr 1 o.a) (vr 1 o.b)
  | .fadd o => shA o (vw 1 o.d) (vr 1 o.a) (vr 1 o.b)
  | .fsub o => shA o (vw 1 o.d) (vr 1 o.a) (vr 1 o.b)
  | .fmul o => shA o (vw 1 o.d) (vr 1 o.a) (vr 1 o.b)
  | .fmin o => shA o (vw 1 o.d) (vr 1 o.a) (vr 1 o.b)
  | .fmax o => shA o (vw 1 o.d) (vr 1 o.a) (vr 1 o.b)
  | .fsat o => shA o (vw 1 o.d) (vr 1 o.a) []
  | .fscale o => shA o (vw 1 o.d) (vr 1 o.a) (vr 1 o.b)
  | .fgetexp o => shA o (vw 1 o.d) (vr 1 o.a) []
  | .fcmp o => shA o (pw o.d) (vr 1 o.a) (vr 1 o.b)
  | .pand o => shA o (pw o.d) (pr o.a) (pr o.b)
  | .por o => shA o (pw o.d) (pr o.a) (pr o.b)
  | .pxor o => shA o (pw o.d) (pr o.a) (pr o.b)
  | .pandn o => shA o (pw o.d) (pr o.a) (pr o.b)
  | .pnot o => shA o (pw o.d) (pr o.a) []
  | .pmov o => shA o (pw o.d) (pr o.a) []
  | .ptov o => shA o (vw 1 o.d) (pr o.a) []
  | .vtop o => shA o (pw o.d) (vr 1 o.a) []
  | .xlaneGet o => shA o (vw 1 o.d) (vr 1 o.a) (vr 1 o.b)
  | .xlaneRot o => shA o (vw 1 o.d) (vr 1 o.a) (vr 1 o.b)
  | .xlaneFlip o => shA o (vw 1 o.d) (vr 1 o.a) (vr 1 o.b)
  | .xlaneShift o => shA o (vw 1 o.d) (vr 1 o.a) (vr 1 o.b)
  | .pcount o => shA o (vw 1 o.d) (pr o.a) []
  | .pmask o => shA o (vw 1 o.d) (pr o.a) []
  | .pfirst o => shA o (vw 1 o.d) (pr o.a) []
  | .vrank o => shA o (vw 1 o.d) (vr 1 o.a) []
  | .pkadd o => shA o (vw 1 o.d) (vr 1 o.a) (vr 1 o.b)
  | .pkmul o => shA o (vw 1 o.d) (vr 1 o.a) (vr 1 o.b)
  | .pkmax o => shA o (vw 1 o.d) (vr 1 o.a) (vr 1 o.b)
  | .pkmin o => shA o (vw 1 o.d) (vr 1 o.a) (vr 1 o.b)
  | .addi o => { uses := vw 1 o.d ++ vr 1 o.a, bad := [badGuard o.g] }
  | .andi o => { uses := vw 1 o.d ++ vr 1 o.a, bad := [badGuard o.g] }
  | .ori o => { uses := vw 1 o.d ++ vr 1 o.a, bad := [badGuard o.g] }
  | .xori o => { uses := vw 1 o.d ++ vr 1 o.a, bad := [badGuard o.g] }
  | .shli o => { uses := vw 1 o.d ++ vr 1 o.a, bad := [badGuard o.g, o.imm.getLsbD 5] }
  | .shri o => { uses := vw 1 o.d ++ vr 1 o.a, bad := [badGuard o.g, o.imm.getLsbD 5] }
  | .sari o => { uses := vw 1 o.d ++ vr 1 o.a, bad := [badGuard o.g, o.imm.getLsbD 5] }
  | .rotli o => { uses := vw 1 o.d ++ vr 1 o.a, bad := [badGuard o.g, o.imm.getLsbD 5] }
  | .muli o => { uses := vw 1 o.d ++ vr 1 o.a, bad := [badGuard o.g] }
  | .cmpi o => { uses := pw o.d ++ vr 1 o.a, bad := [badGuard o.g] }
  | .movi o => { uses := vw 1 o.d, bad := [badGuard o.g] }
  | .bra o => { uses := [], bad := [badGuard o.g] }
  | .laneid o => shA o (vw 1 o.d) [] []
  | .grprank o => shA o (vw 1 o.d) [] []
  | .teamid o => shA o (vw 1 o.d) [] []
  | .ftime o => shA o (vw 2 o.d) [] []
  | .poisonq o => shA o (vw 1 o.d) (vw 1 o.a) []
  | .formq o => shA o (vw 1 o.d) (vw 1 o.a) []
  | .nop o => shA o [] [] []
  | .yield o => shA o [] [] []
  | .ret o => shA o [] [] []
  | .exit o => shA o [] [] []
  | .brx o => shA o [] (vr 2 o.a) []
  | .callx o => shA o [] (vr 2 o.a) []
  | .join o => { uses := [], zeros := [o.d.toNat, o.a.toNat], bad := [o.g != 0, decide (16 ≤ o.b.toNat)] }
  | .wsync o => shA o [] [] []
  | .pin o => shA o [] [] []
  | .unpin o => shA o [] [] []
  | .trap o => { uses := [], zeros := [o.d.toNat, o.a.toNat], bad := [badGuard o.g] }
  | .syscall o => { uses := [], zeros := [o.d.toNat, o.a.toNat], bad := [badGuard o.g] }
  | .redux o => shA o (vw 1 o.d) (vr 1 o.a) []
  | .ffma o => shT o 7 (vw 1 o.d) (vr 1 o.a) (vr 1 o.b) (vr 1 o.c) [badRM o]
  | .dfma o => shT o 7 (vw 2 o.d) (vr 2 o.a) (vr 2 o.b) (vr 2 o.c) [badRM o]
  | .pkfmaF16 o => shT o 7 (vw 1 o.d) (vr 1 o.a) (vr 1 o.b) (vr 1 o.c) [badRM o]
  | .pkfmaBf16 o => shT o 7 (vw 1 o.d) (vr 1 o.a) (vr 1 o.b) (vr 1 o.c) [badRM o]
  | .mad o => shT o 0 (vw 1 o.d) (vr 1 o.a) (vr 1 o.b) (vr 1 o.c)
  | .madw o => shT o 1 (vw 2 o.d) (vr 1 o.a) (vr 1 o.b) (vr 2 o.c)
  | .dot4 o => shT o 0 (vw 1 o.d) (vr 1 o.a) (vr 1 o.b) (vr 1 o.c)
  | .dot4z o => shT o 0 (vw 1 o.d) (vr 1 o.a) (vr 1 o.b) (vr 1 o.c)
  | .dot2bf o => shT o 7 (vw 1 o.d) (vr 1 o.a) (vr 1 o.b) (vr 1 o.c) [badRM o]
  | .fdiv o => shT o 7 (vw 1 o.d) (vr 1 o.a) (vr 1 o.b) [] [badRM o]
  | .fsqrt o => shT o 7 (vw 1 o.d) (vr 1 o.a) [] [] [badRM o]
  | .frcp o => shT o 7 (vw 1 o.d) (vr 1 o.a) [] [] [badRM o]
  | .frsq o => shT o 7 (vw 1 o.d) (vr 1 o.a) [] [] [badRM o]
  | .fexp2 o => shT o 7 (vw 1 o.d) (vr 1 o.a) [] [] [badRM o]
  | .flog2 o => shT o 7 (vw 1 o.d) (vr 1 o.a) [] [] [badRM o]
  | .fsin o => shT o 7 (vw 1 o.d) (vr 1 o.a) [] [] [badRM o]
  | .fcos o => shT o 7 (vw 1 o.d) (vr 1 o.a) [] [] [badRM o]
  | .frnd o => shT o 7 (vw 1 o.d) (vr 1 o.a) [] [] [badRM o]
  | .fclass o => shT o 0x010 (vw 1 o.d) (if o.ctl.getLsbD 4 then vr 2 o.a else vr 1 o.a) [] []
  | .ddiv o => shT o 7 (vw 2 o.d) (vr 2 o.a) (vr 2 o.b) [] [badRM o]
  | .dsqrt o => shT o 7 (vw 2 o.d) (vr 2 o.a) [] [] [badRM o]
  | .dadd o => shT o 0x017 (vw 2 o.d) (vr 2 o.a) (vr 2 o.b) [] [badRM o]
  | .dsub o => shT o 0x017 (vw 2 o.d) (vr 2 o.a) (vr 2 o.b) [] [badRM o]
  | .dmul o => shT o 7 (vw 2 o.d) (vr 2 o.a) (vr 2 o.b) [] [badRM o]
  | .dmin o => shT o 0 (vw 2 o.d) (vr 2 o.a) (vr 2 o.b) []
  | .dmax o => shT o 0 (vw 2 o.d) (vr 2 o.a) (vr 2 o.b) []
  | .dcmp o => shT o 7 (pw o.d) (vr 2 o.a) (vr 2 o.b) []
  | .div o => shT o 0 (vw 1 o.d) (vr 1 o.a) (vr 1 o.b) []
  | .divz o => shT o 0 (vw 1 o.d) (vr 1 o.a) (vr 1 o.b) []
  | .rem o => shT o 0 (vw 1 o.d) (vr 1 o.a) (vr 1 o.b) []
  | .remz o => shT o 0 (vw 1 o.d) (vr 1 o.a) (vr 1 o.b) []
  | .cvtF2f o => shT o 0xFF7 (if o.fmt4 == 0 then vw 2 o.d else vw 1 o.d) (if o.sub8 == 0 then vr 2 o.a else vr 1 o.a) [] [] [badRM o, decide (1 < o.fmt4), decide (1 < o.sub8), o.fmt4 == o.sub8]
  | .cvtF2i o => shT o 0x7F7 (if ityWide (o.sub8 % 8) then vw 2 o.d else vw 1 o.d) (if o.fmt4 == 0 then vr 2 o.a else vr 1 o.a) [] [] [badRM o, decide (1 < o.fmt4)]
  | .cvtI2f o => shT o 0x7F7 (if o.fmt4 == 0 then vw 2 o.d else vw 1 o.d) (if ityWide (o.sub8 % 8) then vr 2 o.a else vr 1 o.a) [] [] [badRM o, decide (1 < o.fmt4)]
  | .cvtNarrow o => shT o 0x3FF (if o.fmt4 ≤ 3 then vw 1 o.d else vr 1 o.d) (vr 1 o.a) (vr 1 o.b) [] [badRM o, decide (o.fmt4 < 2), decide (8 < o.fmt4), decide (narrowSlots o.fmt4 < o.sub8 % 4), o.ctl.getLsbD 3 && decide (6 ≤ o.fmt4)]
  | .cvtWiden o => shT o 0x7F0 (vw 1 o.d) (vr 1 o.a) [] [] [decide (o.fmt4 < 2), decide (9 < o.fmt4), decide (widenSlots o.fmt4 < o.sub8 % 8)]
  | .packmx o => shT o 0x0F7 (vw 1 o.d) (vr 1 o.a) [] [] [badRM o, decide (o.fmt4 < 4), decide (8 < o.fmt4)]
  | .planeSplit o => shT o (if o.ctl.getLsbD 4 then 0x030 else 0x010) (if o.ctl.getLsbD 4 then vr 1 o.d else vw 1 o.d) (vr 1 o.a) (vr 1 o.b) []
  | .planeJoin o => shT o 0x030 (vw 1 o.d) (vr 1 o.a) (vr 1 o.b) []
  | .rngCb o => shT o 0 (vw 1 o.d) (vr 2 o.a) (vr 2 o.b) []
  | .movi32 o => { uses := vw 1 o.d, zeros := [o.rsv.toNat, o.a.toNat], bad := [badGuard o.g] }
  | .addi32 o => { uses := vw 1 o.d ++ vr 1 o.a, zeros := [o.rsv.toNat], bad := [badGuard o.g] }
  | .call o => { uses := [], zeros := [o.hi.toNat, o.d.toNat], bad := [badGuard o.g] }
  | .brl o => { uses := [], zeros := [o.hi.toNat, o.d.toNat], bad := [badGuard o.g] }
  | .enter o => { uses := [], zeros := [o.hi.toNat], bad := [o.g != 0, o.d == 0 || decide (8 < o.d.toNat)] }
  | .ld o => shM o [0, 1, 2, 3, 4, 5, 6] (szw o.size o.d) []
  | .ldL o => shM o [0, 1, 2, 3, 4, 5, 6] (szw o.size o.d) []
  | .st o => shM o [0, 1, 2, 3, 4] [] (szr o.size o.b)
  | .stP o =>
    let s := shM o [0, 1, 2, 3, 4] (vw 1 o.d) (szr o.size o.b)
    { s with uses := (if o.d == 0 then [] else if o.af == 0 then vr 2 o.d else vr 1 o.d) ++ memUse o ++ szr o.size o.b }
  | .atom o => shM o (if o.fn == 9 then [2] else [2, 3]) (szw o.size o.d) (szr o.size o.b)
  | .atomCas o => shM o [2, 3] (szw o.size o.d) (if o.size == 3 then vr 4 o.b else vr 2 o.b)
  | .redP o => shM o (if o.fn == 8 then [2] else [2, 3]) [] (szr o.size o.b)
  | .redK o => shM o [2] (vr 1 o.d) (vr 1 o.b)
  | .redclose o => shM o [0] [] (vr 1 o.b)
  | .fence o => { uses := [], zeros := [o.d.toNat, o.a.toNat, o.b.toNat, o.af.toNat, o.off.toNat], bad := [badGuard o.g, o.size != 0] }
  | .barInit o => shM o [0] [] (vr 1 o.b)
  | .barArrive o => shM o [0] (vw 1 o.d) []
  | .barWait o => shM o [0] [] (vr 1 o.b)
  | .barSync o => shM o [0] (vw 1 o.d) []
  | .cwait o => shM o [3] [] (vr 2 o.b)
  | .migrate o => shM o [0] [] []
  | .park o => shM o [0] [] (vr 1 o.b)
  | .wake o => shM o [0] (vw 1 o.d) []
  | .qpush o => shM o [2, 3, 4] (pw o.d) (szr o.size o.b)
  | .qpop o => shM o [2, 3, 4] (szw o.size o.d) (pw o.b)
  | .copy o => shK o true 3 (if o.ctl.getLsbD 0 then vr 1 o.a else vr 2 o.a) (if o.ctl.getLsbD 1 then vr 1 o.b else vr 2 o.b) (vr 1 o.c)
  | .copyS o => shK o true 3 (if o.ctl.getLsbD 0 then vr 1 o.a else vr 2 o.a) (if o.ctl.getLsbD 1 then vr 1 o.b else vr 2 o.b) (vr 1 o.c)
  | .twait o => shK o true 0 [] [] []
  | .tpoll o => shK o true 0 [] [] (vw 1 o.c)
  | .cfill o => shK o false 1 (if o.ctl.getLsbD 0 then vr 1 o.a else vr 2 o.a) [] (vw 2 o.c)
  | .publish o => shK o false 1 (if o.ctl.getLsbD 0 then vr 1 o.a else vr 2 o.a) [] []
  | .hset o => shT o 0x00F (hw o.d) (if (o.ctl.extractLsb' 0 4).toNat == 4 || (o.ctl.extractLsb' 0 4).toNat == 5 then vr 2 o.a else if (o.ctl.extractLsb' 0 4).toNat == 6 then [] else vr 1 o.a) [] [] [decide (7 ≤ (o.ctl.extractLsb' 0 4).toNat)]
  | .hget o => shT o 0x00F (if (o.ctl.extractLsb' 0 4).toNat == 4 || (o.ctl.extractLsb' 0 4).toNat == 5 then vw 2 o.d else vw 1 o.d) (hr o.a) [] [] [decide (6 ≤ (o.ctl.extractLsb' 0 4).toNat)]
  | .hload o => shT o 0 (hw o.d) (vr 2 o.a) [] []
  | .tld o => shT o 0x010 (vw 1 o.d) (if o.ctl.getLsbD 4 then vr 2 o.a else vw 1 o.a) (hr o.b) (pw o.c)
  | .tst o => shT o 0x010 (vr 1 o.d) (if o.ctl.getLsbD 4 then vr 2 o.a else vw 1 o.a) (hr o.b) (pw o.c)
  | .tnext o => shT o 0 (vw 1 o.d) (vr 2 o.a) (hr o.b) (pw o.c)
  | .tpos o => shT o 0 (vw 2 o.d) (vw 1 o.a) (hr o.b) (pw o.c)
  | .mgopen o => shT o 0 (vw 1 o.d) (vr 2 o.a) [] []
  | .mgpush o => shT o 0 [] (vr 4 o.a) (vr 1 o.b) (vr 1 o.c)
  | .mgseal o => shT o 0 [] [] (vr 1 o.b) (vr 1 o.c)
  | .mgwait o => shT o 0 (vw 1 o.d) [] (vr 1 o.b) []
  | .mgstat o => shT o 3 (vw 4 o.d) [] (vr 1 o.b) []
  | .mgstatK o => shT o 3 (vw 4 o.d) (vr 2 o.a) [] []
  | .mgresume o => shT o 0 [] (vr 2 o.a) (vr 1 o.b) []
  | .mgclose o => shT o 0 [] [] (vr 1 o.b) []
  | .mclaim o => shT o 0 (pw o.d) [] [] []
  | .mrelease o => shT o 0 [] [] [] []
  | .mloadb o => shT o 0x1F0 [] (vr 2 o.a) (vr 1 o.b) (if o.ctl.getLsbD 8 then vr 2 o.c else [])
  | .mloads o => shT o 0 [] (vr 2 o.a) [] []
  | .mzero o => shT o 0 (tl o.d) [] [] []
  | .mma o => shT o 0x1F0 (tl o.d) (vw 8 o.a) (rowImm o.b) (if o.ctl.getLsbD 8 then vr 1 o.c else [])
  | .mloop o => shT o 0 [] (vr 2 o.a) [] []
  | .mbatch o => shT o 0 [] (vr 2 o.a) [] []
  | .msparse o => shT o 0x1F0 (tl o.d) (vw 8 o.a) (rowImm o.b) (if o.ctl.getLsbD 8 then vr 1 o.c else [])
  | .mwait o => shT o 0 [] [] [] []
  | .mread o => shT o 0 (vw 8 o.d) (tl o.a) (rowImm o.b) []
  | .mstore o => shT o 0x0FF (rowImm o.d) (vr 2 o.a) (vr 2 o.b) (tl o.c) [badRM o]
  | .mstat o => shT o 1 (vw 2 o.d) [] [] []
  | .mprog o => shT o 0 (vw 1 o.d) [] [] []
  | .mfs o => shT o 0xFFF (vw (sysRegRun o) o.d) [] (if o.x then vr 1 o.b else []) [] (badSysReg o)
  | .mts o => shT o 0xFFF [] (vr (sysRegRun o) o.a) (if o.x then vr 1 o.b else []) [] (badSysReg o)
  | .rte o => shT o 1 [] [] [] [] [o.g != 0]
  | .rdprev o => shT o 1 (vw 1 o.d) (vr 1 o.a) [] []
  | .rdprevP o => shT o 1 (vw 1 o.d) (vr 1 o.a) [] []
  | .wrprev o => shT o 1 [] (vr 1 o.a) (vr 1 o.b) []
  | .wrprevP o => shT o 1 [] (vr 1 o.a) (vr 1 o.b) []
  | .replay o => shT o 1 (vw 1 o.d) (vr 1 o.a) [] []
  | .replayPage o => shT o 1 (vw 1 o.d) (vr 2 o.a) (vr 1 o.b) []
  | .tlbinvPage o => shT o 0xFFF [] (vr 2 o.a) (vr 1 o.b) [] [decide (2 < o.ctl.toNat)]
  | .tlbinvCtx o => shT o 0xFFF [] [] (vr 1 o.b) [] [decide (2 < o.ctl.toNat)]
  | .tlbinvAll o => shT o 0xFFF [] [] [] [] [decide (2 < o.ctl.toNat)]
  | .parkctx o => shT o 0 (vw 1 o.d) (vr 1 o.a) [] []
  | .wakectx o => shT o 1 (vw 1 o.d) (vr 1 o.a) [] []
  | .wakectxGrp o => shT o 1 (vw 1 o.d) (vr 2 o.a) [] []
  | .idle o => shT o 0 [] (vr 2 o.a) [] []
  | .fsinx o => shT o 7 (vw 1 o.d) (vr 1 o.a) [] [] [badRM o]
  | .fcosx o => shT o 7 (vw 1 o.d) (vr 1 o.a) [] [] [badRM o]
  | .crossingArrival _ _ => { uses := [] }
  | .berthRelease _ _ _ => { uses := [] }
  | .admission _ => { uses := [] }
  | .overflowReturn _ => { uses := [] }
  | .wharfPromotion _ _ => { uses := [] }
  | .arrival _ _ => { uses := [] }
  | .exitNotice _ _ => { uses := [] }
  | .liveRankChange _ _ => { uses := [] }
  | .postedStoreApply _ _ => { uses := [] }
  | .reductionApply _ _ => { uses := [] }
  | .keyedBufferEntry _ _ => { uses := [] }
  | .flip _ _ => { uses := [] }
  | .closeCommand _ => { uses := [] }
  | .tideSample _ _ => { uses := [] }
  | .tideAdoption _ _ => { uses := [] }
  | .copyLine _ _ => { uses := [] }
  | .windowSpill _ => { uses := [] }
  | .refill _ => { uses := [] }
  | .parkCommand _ _ => { uses := [] }
  | .drainMarker _ _ => { uses := [] }
  | .parkReport _ _ => { uses := [] }
  | .claimNarrowing _ _ => { uses := [] }
  | .claimRestore _ _ _ => { uses := [] }
  | .claimEnd _ _ => { uses := [] }
  | .matrixCommandExecution _ _ => { uses := [] }
  | .mergeSpill _ => { uses := [] }
  | .rowCommit _ _ => { uses := [] }
  | .launchRecord _ => { uses := [] }
  | .teamPlacement _ => { uses := [] }
  | .launchCompletion _ _ => { uses := [] }
  | .queueRegisterWrite _ => { uses := [] }
  | .append _ => { uses := [] }
  | .hostCxlMemRead _ => { uses := [] }
  | .hostCxlMemWrite _ => { uses := [] }
  | .cxlIoAccess _ => { uses := [] }
  | .linkItemArrival _ => { uses := [] }
  | .routeChange _ => { uses := [] }
  | .pageMove _ => { uses := [] }
  | .fqheadWrite _ _ => { uses := [] }
  | .parityFailure _ => { uses := [] }
  | .repairSwap _ _ _ => { uses := [] }
  | .init _ => { uses := [] }
  | .initComplete _ => { uses := [] }
  | .testMode _ _ => { uses := [] }
  | .go _ _ _ => { uses := [] }
  | .testComplete _ _ _ => { uses := [] }
  | .logclr _ _ => { uses := [] }
  | .moduleReset => { uses := [] }
  | .watchdog => { uses := [] }
  | .recovery _ => { uses := [] }
  | .getVersion _ => { uses := [] }
  | .getCapabilities _ => { uses := [] }
  | .negotiateAlgorithms _ => { uses := [] }
  | .getDigests _ => { uses := [] }
  | .getCertificate _ => { uses := [] }
  | .challenge _ => { uses := [] }
  | .getMeasurements _ => { uses := [] }
  | .keyExchange _ => { uses := [] }
  | .finish _ => { uses := [] }
  | .idleCompletion _ => { uses := [] }
  | .registerWrite _ => { uses := [] }
  | .illegalInstruction _ => { uses := [] }
  | .hostPortTraining _ _ => { uses := [] }

/-- The registers of a class a field may name (R149); 64 for v registers. -/
def Cls.range : Cls → Nat
  | .v _ => 64
  | .pred => 8
  | .handle => 8
  | .token => 8
  | .tile => 4
  | .row => 64

/-- A field value outside its class (SUB 2). -/
def Use.outOfClass (u : Use) : Bool := decide (u.cls.range ≤ u.n)

/-- A pair, quad or oct field that is not aligned (SUB 7, R50, R272). -/
def Use.misaligned (u : Use) : Bool :=
  match u.cls with
  | .v n => u.n % n != 0
  | _ => false

/-- The halfword 0x0000 (R155). -/
def Instr.isZeroHalf : Instr → Bool
  | .c16Mov o => o.g == 0 && o.s == 0 && o.d == 0
  | _ => false

/-- The lowest sub-code of Table 6-6 that applies to an encoding the map lists (R159); none when it is legal. -/
def Instr.illegalSub (i : Instr) : Option Nat :=
  let sh := i.shape
  if sh.bad.any id || sh.uses.any Use.outOfClass then some 2
  else if sh.zeros.any (· != 0) then some 3
  else if i.isZeroHalf then some 6
  else if sh.uses.any Use.misaligned then some 7
  else none

/-- An instruction that some encoding holds: its function value names it, and no sub-code applies. -/
def WellFormed (i : Instr) : Prop := i.fmt.instr? = some i ∧ i.illegalSub = none

/-- The v registers of an instruction's uses that are read as sources. -/
def Shape.sources (sh : Shape) : List Nat :=
  sh.uses.flatMap fun u =>
    match u.cls with
    | .v n => if u.rd then (List.range n).map (u.n + ·) else []
    | _ => []

/-- Every v register an instruction names (R50). -/
def Shape.named (sh : Shape) : List Nat :=
  sh.uses.flatMap fun u =>
    match u.cls with
    | .v n => (List.range n).map (u.n + ·)
    | _ => []

/-- The predicates, beside the guard, that are read as sources. -/
def Shape.predSources (sh : Shape) : List Nat :=
  sh.uses.flatMap fun u => if u.cls = .pred ∧ u.rd = true then [u.n] else []

/-- The handles that are read as sources. -/
def Shape.handleSources (sh : Shape) : List Nat :=
  sh.uses.flatMap fun u => if u.cls = .handle ∧ u.rd = true then [u.n] else []

end Sys2Proof
end

