-- ==== Sys2Proof/Decode.lean ====
section
/-! DEFINITION. The decoder, total on any bytes, and the encoder (06 R145, R148, R154 to R161; 07 R169;
24 R442). An encoding that is no instruction is refused with its `BadEncoding` (06 Table 6-6). -/

namespace Sys2Proof

/-- Bytes of the instruction whose first halfword is `h` (R145). -/
def lengthOf (h : BitVec 16) : Nat := if h.getLsbD 0 then (if h.getLsbD 1 then 8 else 4) else 2

/-- The LEN code of Table 6-6 for a length in bytes. -/
def lenCode (n : Nat) : Nat := if n = 8 then 3 else if n = 4 then 1 else 0

/-- A C16 word's fields (Table 6-1). -/
def unpackC16 (w : BitVec 16) : Fmt :=
  .c16 (w.extractLsb' 1 4).toNat ⟨w.extractLsb' 15 1, w.extractLsb' 10 5, w.extractLsb' 5 5⟩

/-- An A32 word's fields (Table 6-1). -/
def unpackA32 (w : BitVec 32) : A32 :=
  ⟨w.extractLsb' 28 4, w.extractLsb' 25 3, w.extractLsb' 19 6, w.extractLsb' 13 6, w.extractLsb' 7 6⟩

/-- An I32 word's fields. -/
def unpackI32 (w : BitVec 32) : I32 :=
  ⟨w.extractLsb' 28 4, w.extractLsb' 19 9, w.extractLsb' 13 6, w.extractLsb' 7 6⟩

/-- A MOVI word's fields. -/
def unpackI15 (w : BitVec 32) : I15 := ⟨w.extractLsb' 28 4, w.extractLsb' 13 15, w.extractLsb' 7 6⟩

/-- A B32 word's fields. -/
def unpackB32 (w : BitVec 32) : B32 := ⟨w.extractLsb' 28 4, w.extractLsb' 7 21⟩

/-- A T64 or K64 word's fields. -/
def unpackT64 (w : BitVec 64) : T64 :=
  ⟨w.extractLsb' 52 12, w.extractLsb' 46 6, w.extractLsb' 40 6, w.extractLsb' 36 4, w.extractLsb' 32 4,
    w.extractLsb' 26 6, w.extractLsb' 20 6, w.extractLsb' 14 6, w.extractLsb' 8 6⟩

/-- An M64 word's fields; func6 is at [51:46] and AF is its top bit. -/
def unpackM64 (w : BitVec 64) : M64 :=
  ⟨w.extractLsb' 52 12, w.extractLsb' 51 1, w.extractLsb' 46 5, w.extractLsb' 40 6, w.extractLsb' 36 4,
    w.extractLsb' 32 4, w.extractLsb' 30 2, w.extractLsb' 26 4, w.extractLsb' 20 6, w.extractLsb' 14 6,
    w.extractLsb' 8 6⟩

/-- An L64 word's fields. -/
def unpackL64 (w : BitVec 64) : L64 :=
  ⟨w.extractLsb' 32 32, w.extractLsb' 30 2, w.extractLsb' 26 4, w.extractLsb' 20 6, w.extractLsb' 14 6,
    w.extractLsb' 8 6⟩

/-- A J64 word's fields. -/
def unpackJ64 (w : BitVec 64) : J64 :=
  ⟨w.extractLsb' 32 32, w.extractLsb' 30 2, w.extractLsb' 26 4, w.extractLsb' 14 12, w.extractLsb' 8 6⟩

/-- The format of a 32-bit major and the word's fields under it; none for majors 24 to 31 (Table 6-3). -/
def fmt32 (maj : Nat) (w : BitVec 32) : Option Fmt :=
  if maj ≤ 9 ∨ maj = 19 ∨ maj = 20 ∨ maj = 23 then some (.a32 maj (unpackA32 w))
  else if maj = 17 then some (.i15 maj (unpackI15 w))
  else if maj = 18 then some (.b32 maj (unpackB32 w))
  else if maj ≤ 22 then some (.i32 maj (unpackI32 w))
  else none

/-- The format of a 64-bit major and the word's fields under it; none for the majors that hold no
instruction of stepping B0 (Table 6-4, R162, R442). -/
def fmt64 (maj : Nat) (w : BitVec 64) : Option Fmt :=
  if maj ≤ 4 ∨ (14 ≤ maj ∧ maj ≤ 18) ∨ maj = 56 then some (.t64 maj (unpackT64 w))
  else if maj = 5 then some (.l64 maj (unpackL64 w))
  else if maj = 6 ∨ maj = 7 then some (.j64 maj (unpackJ64 w))
  else if 8 ≤ maj ∧ maj ≤ 13 then some (.m64 maj (unpackM64 w))
  else none

/-- The sub-code of a 64-bit major that holds no instruction: the optional group (R161), an unmapped
decode-table slot (R162), or a reserved major. -/
def noMajorSub (maj : Nat) : Nat :=
  if 20 ≤ maj ∧ maj ≤ 23 then 4 else if 56 ≤ maj then 5 else 0

/-- The instruction a format names, when no sub-code of Table 6-6 applies. -/
def checkFmt (f : Fmt) (maj len : Nat) : Except BadEncoding Instr :=
  match f.instr? with
  | none => .error ⟨1, maj, lenCode len⟩
  | some i =>
    match i.illegalSub with
    | none => .ok i
    | some s => .error ⟨s, maj, lenCode len⟩

/-- Decode a 16-bit instruction. -/
def decode16 (w : BitVec 16) : Except BadEncoding Instr := checkFmt (unpackC16 w) 0 2

/-- Decode a 32-bit instruction. -/
def decode32 (w : BitVec 32) : Except BadEncoding Instr :=
  let maj := (w.extractLsb' 2 5).toNat
  match fmt32 maj w with
  | some f => checkFmt f maj 4
  | none => .error ⟨0, maj, 1⟩

/-- Decode a 64-bit instruction. -/
def decode64 (w : BitVec 64) : Except BadEncoding Instr :=
  let maj := (w.extractLsb' 2 6).toNat
  match fmt64 maj w with
  | some f => checkFmt f maj 8
  | none => .error ⟨noMajorSub maj, maj, 3⟩

/-- Decode an instruction of `n` bytes whose value is the low `8 * n` bits of `w` (R145). -/
def decodeWord (n : Nat) (w : BitVec 64) : Except BadEncoding Instr :=
  if n = 2 then decode16 (w.setWidth 16) else if n = 4 then decode32 (w.setWidth 32) else decode64 w

/-- The little-endian value of a list of bytes. -/
def leBytes : List Byte → Nat
  | [] => 0
  | b :: bs => b.toNat + 256 * leBytes bs

/-- The first `n` bytes, little-endian, of a number. -/
def toBytes : Nat → Nat → List Byte
  | 0, _ => []
  | n + 1, x => BitVec.ofNat 8 x :: toBytes n (x / 256)

/-- Decode the instruction at the head of a list of bytes, with the rest of the list; none when the list
ends inside the instruction. -/
def decodeBytes (bs : List Byte) : Option (Except BadEncoding Instr × List Byte) :=
  if bs.length < 2 then none
  else
    let n := lengthOf (BitVec.ofNat 16 (leBytes (bs.take 2)))
    if bs.length < n then none
    else some (decodeWord n (BitVec.ofNat 64 (leBytes (bs.take n))), bs.drop n)

/-- Encode a format: its length in bytes and its word (R148, R169, R223). -/
def Fmt.encode : Fmt → Nat × BitVec 64
  | .c16 op o => (2, (o.g ++ o.s ++ o.d ++ BitVec.ofNat 4 op ++ 0#1).setWidth 64)
  | .a32 maj o => (4, (o.g ++ o.fn ++ o.b ++ o.a ++ o.d ++ BitVec.ofNat 5 maj ++ 1#2).setWidth 64)
  | .i32 maj o => (4, (o.g ++ o.imm ++ o.a ++ o.d ++ BitVec.ofNat 5 maj ++ 1#2).setWidth 64)
  | .i15 maj o => (4, (o.g ++ o.imm ++ o.d ++ BitVec.ofNat 5 maj ++ 1#2).setWidth 64)
  | .b32 maj o => (4, (o.g ++ o.off ++ BitVec.ofNat 5 maj ++ 1#2).setWidth 64)
  | .t64 maj o => (8, o.ctl ++ o.fn ++ o.ls ++ o.la ++ o.g ++ o.c ++ o.b ++ o.a ++ o.d ++ BitVec.ofNat 6 maj ++ 3#2)
  | .m64 maj o => (8, o.off ++ o.af ++ o.fn ++ o.ls ++ o.la ++ o.g ++ o.scope ++ o.size ++ o.b ++ o.a ++ o.d ++
      BitVec.ofNat 6 maj ++ 3#2)
  | .l64 maj o => (8, o.imm ++ o.rsv ++ o.g ++ o.fn ++ o.a ++ o.d ++ BitVec.ofNat 6 maj ++ 3#2)
  | .j64 maj o => (8, o.off ++ o.fn ++ o.g ++ o.hi ++ o.d ++ BitVec.ofNat 6 maj ++ 3#2)
  | .event => (0, 0)

/-- The length in bytes and the word of an instruction; an event has length 0. -/
def encode (i : Instr) : Nat × BitVec 64 := i.fmt.encode

/-- The bytes of an instruction, lowest address first. -/
def encodeBytes (i : Instr) : List Byte := toBytes (encode i).1 (encode i).2.toNat

/-- The bits of an instruction as its word: the low `nbits` of `w`, with zeros above. -/
def tableBits (nbits w : Nat) : BitVec 64 := BitVec.ofNat 64 (w % 2 ^ nbits)

/-- The instruction the decoder reads from an instruction whose bits are `w`, numbered as opcode_table.json
numbers them. -/
def decodeTableWord (nbits w : Nat) : Option Instr :=
  match decodeBytes (toBytes 8 (tableBits nbits w).toNat) with
  | some (.ok i, _) => some i
  | _ => none

end Sys2Proof
end

