-- ==== Sys2Proof/Machine/State.lean ====
section
/-! DEFINITION. The state of one BX64 module: every piece of state that the spec names (INVENTORY.md, State),
as plain data, with the model's own fields `cur`, `event`, `inputs`, `steps` and the fresh identities. Counts,
identities and addresses that index memory are naturals; register contents are bit vectors. -/

namespace Sys2Proof.Machine

/-- Why a machine stops. Raised by `exec` alone, for a state that no step of the machine gives. -/
inductive Fault where
  /-- An instruction is executed with no current group: raised by `issue` (safe: no group issues it). -/
  | noGroup
  deriving DecidableEq, Repr

/-- Why the model has no meaning for a step. -/
inductive Refusal where
  /-- An arm of `exec` that has no meaning yet; raised by the refused arms of Dispatch.lean (safe). -/
  | notModelled (mnemonic : String)
  deriving DecidableEq, Repr

/-- The machine's own next turn when it is no group's instruction: an event of the machine, or one from outside. -/
inductive Event where
  /-- From outside the machine. -/
  | outside (i : Instr)
  /-- CROSSING_ARRIVAL. -/
  | crossingArrival (src dst : Nat)
  /-- BERTH_RELEASE. -/
  | berthRelease (l core berth : Nat)
  /-- ADMISSION. -/
  | admission (l : Nat)
  /-- OVERFLOW_RETURN. -/
  | overflowReturn (l : Nat)
  /-- WHARF_PROMOTION. -/
  | wharfPromotion (l uid : Nat)
  /-- ARRIVAL. -/
  | arrival (src dst : Nat)
  /-- EXIT_NOTICE. -/
  | exitNotice (src dst : Nat)
  /-- LIVE_RANK_CHANGE. -/
  | liveRankChange (src dst : Nat)
  /-- POSTED_STORE_APPLY. -/
  | postedStoreApply (src dst : Nat)
  /-- REDUCTION_APPLY. -/
  | reductionApply (src dst : Nat)
  /-- KEYED_BUFFER_ENTRY. -/
  | keyedBufferEntry (src dst : Nat)
  /-- FLIP. -/
  | flip (src dst : Nat)
  /-- CLOSE_COMMAND. -/
  | closeCommand (l : Nat)
  /-- TIDE_SAMPLE. -/
  | tideSample (scope : TideScope) (l : Nat)
  /-- TIDE_ADOPTION. -/
  | tideAdoption (scope : TideScope) (l : Nat)
  /-- COPY_LINE. -/
  | copyLine (id k : Nat)
  /-- WINDOW_SPILL. -/
  | windowSpill (uid : Nat)
  /-- REFILL. -/
  | refill (uid : Nat)
  /-- PARK_COMMAND. -/
  | parkCommand (ctxid l : Nat)
  /-- DRAIN_MARKER. -/
  | drainMarker (src dst : Nat)
  /-- PARK_REPORT. -/
  | parkReport (ctxid l : Nat)
  /-- CLAIM_NARROWING. -/
  | claimNarrowing (l core : Nat)
  /-- CLAIM_RESTORE. -/
  | claimRestore (ctxid l core : Nat)
  /-- CLAIM_END. -/
  | claimEnd (l core : Nat)
  /-- MATRIX_COMMAND_EXECUTION. -/
  | matrixCommandExecution (l core : Nat)
  /-- MERGE_SPILL. -/
  | mergeSpill (l : Nat)
  /-- ROW_COMMIT. -/
  | rowCommit (l slot : Nat)
  /-- TEAM_PLACEMENT. -/
  | teamPlacement (l : Nat)
  /-- LAUNCH_COMPLETION. -/
  | launchCompletion (ctxid tag : Nat)
  /-- PAGE_MOVE. -/
  | pageMove (l : Nat)
  /-- REPAIR_SWAP. -/
  | repairSwap (l bus group : Nat)
  /-- INIT_COMPLETE. -/
  | initComplete (l : Nat)
  /-- TEST_COMPLETE. -/
  | testComplete (l bus : Nat) (ones : List Nat)
  /-- IDLE_COMPLETION. -/
  | idleCompletion (uid : Nat)
  /-- WATCHDOG. -/
  | watchdog
  /-- MODULE_RESET. -/
  | moduleReset
  deriving DecidableEq, Repr

/-- The value of a present v register in its form (03 R51). -/
inductive Val where
  /-- Form U. -/
  | u (x : Word)
  /-- Form A: base and stride. -/
  | a (b s : Word)
  /-- Form G: lane 0 first. -/
  | g (xs : List Word)
  deriving DecidableEq, Repr

/-- A present v register (03 R49, R51). -/
structure VReg where
  val : Val
  poison : Mask
  deriving DecidableEq, Repr

/-- A copy token: the copies issued under it that have not been seen complete; `dropped` after a crossing
that did not ship it (02 R37, 05 R138, 09 R254). -/
structure Token where
  copies : List Nat
  dropped : Bool
  deriving DecidableEq, Repr

/-- A window frame (03 R59 to R62, R69). `none` marks an absent register. -/
structure Frame where
  fsz : Nat
  v : List (Option VReg)
  p : List (Option Mask)
  h : List (Option (BitVec 256))
  k : List Token
  table : Option DWord
  entered : Bool
  /-- Made previous by trap entry (17 R355). -/
  tp : Bool
  resumePC : DWord
  /-- Caller link: segment and offset of the caller's image (Table 3-9). -/
  cp : Bool
  cseg : Nat
  coff : Nat
  deriving DecidableEq, Repr

/-- A trap: cause, TRAPINFO, TRAPADDR (17 R352). -/
structure Trap where
  cause : Nat
  info : DWord
  addr : DWord
  deriving DecidableEq, Repr

/-- What a group waits on, beside waits that re-execute the instruction at its PC. -/
inductive Wait where
  | none
  /-- Parked in the wait table under a token (19 R383). -/
  | token (t : Nat)
  /-- Waiting at a barrier object for the phase after a token (09 R247): the object's physical and virtual address, the
  token, and whether by BAR.SYNC. -/
  | bar (obj va : Nat) (phase : Word) (sync : Bool)
  /-- IDLE: the deadline and the fault-queue records counted at issue (17 R366). -/
  | idle (deadline records : Nat)
  /-- An MREAD or MSTAT has not written its registers (11 R295). -/
  | matrixReply
  /-- Stopped by a context park at its stop point (17 R363). -/
  | stopped
  deriving DecidableEq, Repr

/-- What the window spill engine is asked to do for a waiting group (03 Table 3-10). -/
inductive Wse where
  | none
  /-- Spill the oldest resident frame. -/
  | spillOne
  /-- Spill every resident frame older than the current one. -/
  | spillAll
  /-- Refill the caller of the current frame. -/
  | refill
  deriving DecidableEq, Repr

/-- The LA window a long instruction opened (02 R45): instructions left in it, the v registers, predicates
and handles the instruction writes, the lines it touches, and whether memory and engine instructions must wait for
it. -/
structure LaWindow where
  left : Nat
  regs : List Nat
  preds : List Nat
  handles : List Nat
  lines : List Nat
  sync : Bool
  deriving DecidableEq, Repr

/-- Where an access goes once translated: a physical address, or one on a peer module. -/
structure Loc where
  pa : Nat
  kind : Nat
  peer : Option Nat
  direct : Bool
  /-- log2 of the page size. -/
  pageBits : Nat
  deriving DecidableEq, Repr

/-- The places whose translations a TLBINV or a page move has discarded (19 R386): all, or those in physical ranges, each with its
peer module, base and length. -/
structure Flush where
  all : Bool
  ranges : List (Option Nat × Nat × Nat)
  deriving DecidableEq, Repr

/-- What admission does with the control block (03 R72): nothing, for a launched image; reads the current frame from it;
or reads it for a merged group, whose frame R79 has given. -/
inductive BlockRead where
  | none
  | frame
  | merged
  deriving DecidableEq, Repr

/-- The read of an image whose control block was, or was not, written when it was sealed. -/
def BlockRead.of (written : Bool) : BlockRead := if written then .frame else .none

/-- A group, or any context of a lineage (02 R22, R38; 03 R49). -/
structure Group where
  uid : Nat
  ctx : Nat
  l : Nat
  core : Nat
  berth : Nat
  pc : DWord
  active : Mask
  exited : Mask
  pinned : Bool
  inTrap : Bool
  sibling : Bool
  urgent : Bool
  armed : Bool
  orig : Nat
  sib : Nat
  sdepth : Nat
  team : Nat
  rank : Nat
  anchor : Nat
  /-- The peer module that holds its anchor, when it crossed from there (02 R31, R35; log entry 91). -/
  origin : Option Nat
  affL : Nat
  affC : Nat
  cls : Nat
  tag : Nat
  horizon : Nat
  lastFT : Nat
  gstatus : Word
  gmode : Word
  depth : Nat
  /-- Split base (03 R77, R78). -/
  sb : Option Nat
  frame : Frame
  /-- Resident older frames, newest first. -/
  older : List Frame
  wait : Wait
  wse : Wse
  progIdx : Nat
  /-- Lanes of a waiting CWAIT already satisfied (09 R240). -/
  satisfied : Mask
  /-- A count an instruction took when it began to wait (11 R291, 12 R321). -/
  mark : Option Nat
  /-- A trap found away from issue, taken at the next turn (02 R34, 09 R248, 03 R76, 10 R271). -/
  pend : Option Trap
  /-- Groups that a YIELD lets issue first (07 R187). -/
  hold : List Nat
  la : List LaWindow
  /-- The lanes' translations, taken at the issuing landing, of the instruction a crossing carries (02 R28). -/
  carried : Option (List (Nat × Loc))
  /-- Requests of direct-mode lanes awaiting replies (19 R377). -/
  asked : List Nat
  /-- The counters a waiting CWAIT watches: lane, location, value (09 R240). -/
  watch : List (Nat × Loc × Nat)
  /-- The latest COPY with no plain access since (BX-E02, Table 24-4). -/
  lastCopy : Option Nat
  /-- Progress indices of instructions that trap entry interrupted, for RTE: depth, address, index (12 R312). -/
  progress : List (Nat × DWord × Nat)
  /-- Its instruction has begun and a context park waits for it to complete (17 R363, Tables 9-5, 12-10). -/
  busy : Bool
  /-- The token it waited on when a context park began to spill its frames (17 R363). -/
  ftoken : Option Nat
  /-- What a waiting TLBINV has discarded translations of (19 R386). -/
  flush : Option Flush
  /-- What is still to be read of its control block, as its admission left it (03 R72, R75). -/
  block : BlockRead
  deriving DecidableEq, Repr

/-- A join arrival's instance (02 R31): the slot and the address of its JOIN or RET. -/
structure JoinPoint where
  j : Nat
  addr : DWord
  implicit : Bool
  deriving DecidableEq, Repr

/-- A context in a wharf (02 R41 to R43), with the FT at which it entered, whether R41 has promoted it, and what
its admission reads of the control block (03 R72). -/
structure Waiting where
  g : Group
  since : Nat
  promoted : Bool
  readBlock : BlockRead
  deriving DecidableEq, Repr

/-- A join arrival held at the anchor (02 R31). -/
structure Arrival where
  g : Group
  join : JoinPoint
  deriving DecidableEq, Repr

/-- One lane of a posted operation (05 R127), with its location and its counter's. -/
structure PostLane where
  lane : Nat
  loc : Loc
  value : Nat
  poison : Bool
  ctr : Option Loc
  key : Word
  deriving DecidableEq, Repr

/-- The posted operations (05 R127). -/
inductive PostOp where
  | store
  | reduce (op : Nat)
  | keyed (op : Nat)
  | flip
  deriving DecidableEq, Repr

/-- A part of a posted operation on a pair (05 R127, R128). -/
structure Post where
  op : PostOp
  ctx : Nat
  /-- The privilege level of its context. -/
  pl : Nat
  /-- The context that issued it, and siblings split from it since (05 R123, R128). -/
  uids : List Nat
  tag : Nat
  size : Nat
  ft : Nat
  lanes : List PostLane
  /-- The token under which a full keyed spill area holds the part (12 R322). -/
  token : Option Nat
  /-- It comes from the side log: its contexts wait until it is applied (05 R126). -/
  side : Bool
  /-- It is a plain ST (05 R126). -/
  plain : Bool
  deriving DecidableEq, Repr

/-- What travels on a pair of landings (05 R128). -/
inductive Item where
  | post (p : Post)
  | crossing (g : Group)
  | arrival (a : Arrival)
  | exit (ctx tag team rank : Nat) (mask : Mask)
  | live (ctx team : Nat) (obj : Nat) (mask : BitVec 128)
  | marker (ctx : Nat)
  /-- A request from a landing of a peer module (19 R377, 05 R144): its number, privilege level, operation and lanes. -/
  | request (peer src id pl op : Nat) (lanes : List LinkLane)
  deriving DecidableEq, Repr

/-- A lane of a side-log part (19 R384): address before translation. -/
structure PartLane where
  lane : Nat
  va : Nat
  value : Nat
  poison : Bool
  ctr : Option Nat
  key : Word
  deriving DecidableEq, Repr

/-- A side-log part (05 R126, 19 R384). `direct` parts did not fault and hold no token. -/
structure SidePart where
  core : Nat
  op : PostOp
  /-- A plain ST whose part faulted (05 R126). -/
  plain : Bool
  ctx : Nat
  tag : Nat
  /-- The context that issued it, and siblings split from it since (05 R123). -/
  uids : List Nat
  team : Nat
  rank : Nat
  size : Nat
  ft : Nat
  af : Bool
  lanes : List PartLane
  token : Option Nat
  lineage : Nat
  deriving DecidableEq, Repr

/-- A live token of a landing (19 R381). -/
structure Live where
  token : Nat
  kind : Nat
  ctx : Nat
  va : Nat
  deriving DecidableEq, Repr

/-- A fault record (Table 19-5), before it is written as 64 bytes. -/
structure FaultRec where
  ft : Nat
  ctx : Nat
  kind : Nat
  access : Nat
  level : Nat
  token : Nat
  core : Nat
  va : Nat
  lineage : Nat
  team : Nat
  rank : Nat
  lanes : Mask
  slcount : Nat
  aux : Nat
  deriving DecidableEq, Repr

/-- An image held because no range of its park pool holds it (17 R361): its record, the copies of its tokens, the
token of its park-area-exhausted record (0 while that could not be posted), and the trap record to post once it is placed. -/
structure PoolHeld where
  ctx : Nat
  uid : Nat
  core : Nat
  origin : Option Nat
  record : List Byte
  img : List Byte
  toks : List (List Nat)
  block : Bool
  token : Nat
  notice : Option FaultRec
  deriving DecidableEq, Repr

/-- Fault queue registers and held records (19 R387). `posted` counts the records the queue has received. -/
structure FaultQueue where
  base : DWord
  size : Word
  head : Word
  tail : Word
  held : List FaultRec
  posted : Nat
  deriving DecidableEq, Repr

/-- Page move registers (Table 19-6) and the move under way (19 R388): context, old entry, next line. -/
structure PageMove where
  src : DWord
  dst : DWord
  pte : DWord
  new : DWord
  ctl : Word
  stat : Word
  step : Nat
  old : DWord
  deriving DecidableEq, Repr

/-- A cached translation (19 R380): the core whose TLB holds it, or none for the landing's translation unit; its context,
page base and size code, and the entry as the walk read it. -/
structure TlbEntry where
  core : Option Nat
  ctx : Nat
  page : Nat
  size : Nat
  entry : DWord
  pte : Nat
  deriving DecidableEq, Repr

/-- An instruction-cache halfword (01 R12): core, context, virtual address and value. -/
structure IcHalf where
  core : Nat
  ctx : Nat
  va : Nat
  half : BitVec 16
  deriving DecidableEq, Repr

/-- A work queue's registers (Table 20-1). -/
structure Queue where
  j : Nat
  base : DWord
  cfg : Word
  head : Word
  tail : Word
  awin : DWord
  rej : BitVec 16
  bad : BitVec 16
  deriving DecidableEq, Repr

/-- A launch (20 R395 to R399): its record, where it was submitted, its tag, and how far it has come. -/
structure Launch where
  /-- Which record it is. -/
  uid : Nat
  l : Nat
  entry : DWord
  argBase : DWord
  argStride : Nat
  ctx : Nat
  scr : Nat
  teams : Nat
  groups : Nat
  cls : Nat
  fill : Bool
  afterVal : Nat
  /-- Where its start counter lies, once translated (20 R397). -/
  watch : Option Loc
  /-- The anchor and the first scratch unit that its next team has taken while a missing page holds its placement (20 R398). -/
  taken : Option (Nat × Nat)
  placeMask : DWord
  scrVA : DWord
  afterCtr : DWord
  doneCtr : DWord
  tag : Option Nat
  /-- Ready: its start condition has held. -/
  started : Bool
  next : Nat
  /-- Every team placed, or the rest rejected. -/
  placed : Bool
  rejected : Bool
  token : Option Nat
  deriving DecidableEq, Repr

/-- The anchor's record of a team (02 R25, R30; 09 R245; 20 R398). `exited` is what the anchor counts as exited,
by rank; `objects` are the registered barrier objects. -/
structure Team where
  ctx : Nat
  tag : Nat
  team : Nat
  anchor : Nat
  scrBase : Nat
  scrUnits : Nat
  cls : Nat
  groups : Nat
  exited : List Mask
  live : BitVec 128
  objects : List Nat
  /-- Registered objects on peer modules: the module and the address there. -/
  away : List (Nat × Nat)
  /-- Ranks that have yet to take the matrix-state-lost trap (10 R270). -/
  lost : List Nat
  deriving DecidableEq, Repr

/-- A context (17 R345 to R349, 19 R379). -/
structure Ctx where
  id : Nat
  pl : Nat
  state : Nat
  landMask : DWord
  utrapVec : DWord
  trapDeleg : DWord
  spillArea : DWord
  spillSeg : Word
  parkOff : DWord
  parkSz : Word
  kspillBase : DWord
  kspillSize : Word
  ptRoot : DWord
  heapBase : DWord
  heapLim : DWord
  heapOff : DWord
  heapGeom : DWord
  /-- Launches tagged so far (20 R398). -/
  launchCount : Nat
  /-- While PARKING: landings still to take the park command, markers still to come as (source, destination),
  landings that have reported, and the group whose PARKCTX it is (17 R363). -/
  toCommand : List Nat
  /-- Landings that have taken the park command and not yet sent their markers. -/
  stopping : List Nat
  markers : List (Nat × Nat)
  reported : List Nat
  parker : Option Nat
  /-- Keyed runs written and the next free byte of the keyed spill area (12 R322), by landing. -/
  krun : List (Nat × List (Nat × Nat))
  deriving DecidableEq, Repr

/-- A segment's cursor and shared limit as the WSE holds them (03 R66, R68, R74). -/
structure Seg where
  ctx : Nat
  base : Nat
  cursor : Nat
  limit : Nat
  deriving DecidableEq, Repr

/-- The copies of a token that left with an image or a frame image at an address (03 R69, 02 R38). -/
structure TokSide where
  ctx : Nat
  key : Nat
  /-- The identity of the context whose image it is; 0 beside a frame image. -/
  uid : Nat
  /-- The peer module that holds that context's anchor. -/
  origin : Option Nat
  toks : List (List Nat)
  /-- Its segment's control block was written when it was sealed; false for a launched image never admitted. -/
  block : Bool
  deriving DecidableEq, Repr

/-- A piece of a copy: what goes to one destination line, its source as runs of bytes each in one line, the runs
read so far, each byte with its poison, and a request to a peer module for the next run. -/
structure Piece where
  dst : Loc
  src : List (Loc × Nat)
  data : List (List (Byte × Bool))
  asked : Option Nat
  deriving DecidableEq, Repr

/-- A copy under way (05 R138, 09 R251): the pieces not yet written, those of one home in ascending order. -/
structure Copy where
  id : Nat
  ctx : Nat
  uid : Nat
  l : Nat
  shadow : Bool
  pieces : List Piece
  /-- Writes travelling to a peer module or to host memory, not yet acknowledged: request number and destination. -/
  unacked : List (Nat × Loc)
  /-- The destination bytes at landings of peer modules: module, address, length (05 R139). -/
  peerRanges : List (Nat × Nat × Nat)
  deriving DecidableEq, Repr

/-- A fill entry (09 R253): its copy, and the destination bytes it covers at one home; most recent first in the
landing's list. -/
structure Fill where
  id : Nat
  ranges : List (Nat × Nat)
  deriving DecidableEq, Repr

/-- A tuple of the merge network (12 R305). -/
structure Tuple where
  row : Word
  col : Word
  val : Word
  key : Word
  poison : Bool
  deriving DecidableEq, Repr

/-- A merge descriptor (Table 12-4). -/
structure MergeDesc where
  rowPtr : DWord
  colIdx : DWord
  vals : DWord
  spill : DWord
  resume : DWord
  cap : DWord
  nrows : Word
  ncols : Word
  spillCap : Word
  ctl : Word
  deriving DecidableEq, Repr

/-- A merge session (12 R305 to R321). -/
structure Session where
  ctx : Nat
  gen : Nat
  desc : MergeDesc
  sealed : List Bool
  held : List Tuple
  /-- Address and tuple count of each run written. -/
  runs : List (Nat × Nat)
  state : Nat
  cause : Nat
  flags : BitVec 5
  drop : Bool
  poison : Bool
  nextRow : Nat
  e : Nat
  need : Nat
  faultVA : Nat
  /-- The row being committed: its entries written so far and not yet its end offset (12 R315). -/
  rowDone : Bool
  /-- Paused under a token (12 R317). -/
  token : Option Nat
  /-- An MGOPEN waits for ROWPTR[0] to be written (12 R311). -/
  opening : Bool
  /-- The resting state it enters once its resume record is written; 0 for none (12 R316). -/
  ending : Nat
  /-- MGCLOSE has been accepted and waits for the row boundary (12 R321). -/
  closing : Bool
  deriving DecidableEq, Repr

/-- An entry of the keyed buffer (12 R322). -/
structure KeyedEntry where
  ctx : Nat
  pa : Nat
  op : Nat
  poison : Bool
  key : Word
  value : Word
  deriving DecidableEq, Repr

/-- A close command at a merge network (09 R238): which REDCLOSE, and the physical pages at this home. -/
structure Close where
  id : Nat
  ctx : Nat
  pages : List Nat
  /-- Blocked under a token until REPLAY. -/
  token : Option Nat
  deriving DecidableEq, Repr

/-- A landing's merge network (12 R305, R306, R322). -/
structure MergeNet where
  slots : List (Option Session)
  gens : List Nat
  keyed : List KeyedEntry
  kflags : BitVec 5
  kpoison : Bool
  kruns : Nat
  closes : List Close
  deriving DecidableEq, Repr

/-- A loop descriptor (Table 11-6): rows per step and steps as counts; `rsv` is bit 11 of the control word. -/
structure LoopDesc where
  aBase : Nat
  aPitch : Nat
  aStep : Int
  xaBase : Nat
  xaPitch : Nat
  xaStep : Int
  bBase : Nat
  bPitch : Nat
  bStep : Int
  xbBase : Nat
  xbStep : Int
  aFmt : Nat
  bFmt : Nat
  amx : Bool
  reload : Bool
  sparse : Bool
  rsv : Bool
  tile : Nat
  row0 : Nat
  n : Nat
  steps : Nat
  deriving DecidableEq, Repr

/-- Operands of a queued matrix command, as checked at issue (11 R274, R275, R286, R287). -/
inductive MOp where
  /-- MRELEASE, with the group that waits for the claim's end. -/
  | release (uid : Nat)
  | loadB (fmt : Nat) (sp : Bool) (base pitch : Nat) (metas : List (Nat × Bool))
  | loadS (base : Nat)
  | zero (z : Nat)
  /-- MMA and MSPARSE: A rows as elements (none: substituted), and A scales, both by row. -/
  | step (z row fmt : Nat) (sparse : Bool) (a : List (List (Option Nat))) (xs : List (List Nat))
  | loop (batch : Bool) (desc : LoopDesc) (metas : List (List (Nat × Bool)))
  | read (z row d : Nat) (uid : Nat) (mask : Mask)
  | store (rm : Nat) (nosat : Bool) (fmt row n z base pitch : Nat)
  | stat (clr : Bool) (d : Nat) (uid : Nat) (mask : Mask)
  deriving DecidableEq, Repr

/-- The command is MRELEASE. -/
def MOp.isRelease : MOp → Bool
  | .release _ => true
  | _ => false

/-- The group that waits for a command to execute: that of MREAD or MSTAT, which write its registers, or of MRELEASE (11 R295,
R281). -/
def MOp.waiter : MOp → Option Nat
  | .read _ _ _ uid _ => some uid
  | .stat _ _ uid _ => some uid
  | .release uid => some uid
  | _ => none

/-- A queued command: its context, and the physical address of every page it will touch (11 R275, R279). -/
structure MCmd where
  op : MOp
  ctx : Nat
  seq : Nat
  pages : List (Nat × Loc)
  deriving DecidableEq, Repr

/-- A core's matrix unit (10 R257 to R271). Cells, metadata, scales and tile elements are listed where they
differ from the cleared value (0, 0x4444_4444, 127 and +0); `failed` are the cells written from poisoned words and `broken`
those in which an array error was found (R267). -/
structure MUnit where
  l : Nat
  core : Nat
  holder : Option (Nat × Nat × Nat)
  cells : List (Nat × Nat)
  failed : List Nat
  broken : List Nat
  md : List (Nat × Nat)
  bscale : List (Nat × Nat)
  /-- The row buffer: the elements of A of the step that was fed last, by row; a substituted element is 0. -/
  rows : List (List Nat)
  /-- The A scales of that step: block `β` of row `r` at byte 32 × r + β (R262), where it differs from 127. -/
  ascale : List (Nat × Nat)
  tiles : List (Nat × Nat)
  /-- The B record of R275 as it stands now: format and compressed flag. -/
  brec : Option (Nat × Bool)
  queue : List MCmd
  accepted : Nat
  done : Nat
  progIdx : Nat
  /-- The status word without LOGCNT (Table 10-2). -/
  status : Word
  log : List (BitVec 128)
  deriving DecidableEq, Repr

/-- A claim narrowed into its save area (10 R270), with the queue and row-buffer regions as written there. -/
structure SavedClaim where
  ctx : Nat
  l : Nat
  core : Nat
  unit : MUnit
  queueBytes : List Byte
  rowBytes : List Byte
  deriving DecidableEq, Repr

/-- A report of a landing at a sample point, kept until its tide has been adopted everywhere (05 R133). -/
structure Sample where
  scope : TideScope
  at_ : Nat
  value : Nat
  deriving DecidableEq, Repr

/-- A tracker of a repair group (Table 21-1). -/
structure Tracker where
  phys : Nat
  cnt : Nat
  start : Nat
  deriving DecidableEq, Repr

/-- A repair group of a vertical bus: F0, F1, EXH and its tracker (21 R407). -/
structure RepairGroup where
  f0 : Nat
  f1 : Nat
  exh : Bool
  trk : Tracker
  deriving DecidableEq, Repr

/-- A vertical bus (21 R402 to R412, Table 21-1). -/
structure Bus where
  state : Nat
  retire : Bool
  xfer : Nat
  phys : Nat
  busy : Bool
  /-- The connection that the running test drives (R412). -/
  driven : Nat
  pass : Bool
  failk : Nat
  groups : List RepairGroup
  deriving DecidableEq, Repr

/-- A log of 16 entries with its counters (21 R410). -/
structure RasLog where
  entries : List (BitVec 128)
  ovf : Bool
  cntA : Nat
  cntB : Nat
  deriving DecidableEq, Repr

/-- The memory RAS state of a landing (21 R411). `homemap` is CAP[M] in 3 GiB units as this landing holds it. -/
structure Ras where
  buses : List Bus
  busy : Bool
  ready : Bool
  capU : Nat
  act : List Nat
  homemap : List Nat
  arrayLog : RasLog
  linkLog : RasLog
  /-- Failures that the next transfer of their block and direction meets (R405). -/
  armed : List ParityFailure
  /-- Words whose uncorrectable transfer took place in this step, and whether it wrote them (R406). -/
  spent : List (Nat × Bool)
  deriving DecidableEq, Repr

/-- A landing (01 R10). -/
structure Landing where
  wharf : List Waiting
  arrivals : List Arrival
  queues : List Queue
  pending : List Launch
  launchCause : Nat
  rejected : BitVec 16
  bgcap : Nat
  hold : Bool
  sysscr : Nat
  overflow : BitVec 16
  tideL : Nat
  tideM : Nat
  tideS : Nat
  samples : List Sample
  /-- FT of the latest adoption of each tide here, one past it; 0 before the first. -/
  adL : Nat
  adM : Nat
  adS : Nat
  tokens : List Live
  fq : FaultQueue
  pm : PageMove
  tlb : List TlbEntry
  icache : List IcHalf
  side : List SidePart
  fills : List Fill
  mn : MergeNet
  ras : Ras
  /-- Images held because no range of the pool holds them (17 R361). -/
  poolWait : List PoolHeld
  /-- Ticks by which this landing's FT stands ahead of the base (01 R16). -/
  skew : Nat
  deriving DecidableEq, Repr

/-- A TLBINV as instruction caches saw it (01 R13, 19 R386): the context, the page and its size that it covered, and how
many of the entries of `Mem.past` it made void. -/
structure CodeClean where
  ctx : Nat
  page : Nat
  size : Nat
  upto : Nat
  deriving DecidableEq, Repr

/-- Memory (01 R19): bytes that differ from zero, poisoned 16-byte words by index, words whose array holds an
uncorrectable or a correctable error that no read has met (21 R409), and the flip bits that are 1 (05 R117). -/
structure Mem where
  cells : List Host.Cell
  poison : List Nat
  bad : List Nat
  weak : List Nat
  flips : List Nat
  /-- Words whose next read, or next write, meets an uncorrectable transfer (21 R406). -/
  failR : List Nat
  failW : List Nat
  /-- Halfwords by index, with a value that a write replaced, latest first: what instruction caches may hold (01 R13). -/
  past : List (Nat × BitVec 16)
  /-- The TLBINVs that made some of them void. -/
  clean : List CodeClean
  deriving DecidableEq, Repr

/-- What the source keeps of the posted operation that a link item carries: its context and launch tag, the contexts that a
side-log part holds, and whether it is a plain ST (05 R126, 20 R399). -/
structure OutNote where
  ctx : Nat
  tag : Nat
  uids : List Nat
  plain : Bool
  deriving DecidableEq, Repr

/-- An item of a pair toward a peer module. -/
structure OutItem where
  item : LinkItem
  note : OutNote
  deriving DecidableEq, Repr

/-- A reply of a peer module that has arrived (19 R377). -/
structure PeerReply where
  id : Nat
  results : List (Nat × Nat × Bool)
  flags : BitVec 5
  deriving DecidableEq, Repr

/-- A write of the copy engine toward host memory: its number, address and bytes (23 R425). -/
structure HostOut where
  id : Nat
  addr : Nat
  bytes : List Byte
  deriving DecidableEq, Repr

/-- Link state of a pair toward a peer module (23 R429). -/
structure OutPair where
  peer : Nat
  src : Nat
  dst : Nat
  nextSeq : Nat
  unacked : List OutItem
  deriving DecidableEq, Repr

/-- Link state of a pair from a peer module: the next number to apply, and items that came early (23 R429). -/
structure InPair where
  peer : Nat
  src : Nat
  dst : Nat
  expect : Nat
  early : List LinkItem
  deriving DecidableEq, Repr

/-- What the device answers to a host access (23 R421 to R424). -/
inductive HostReply where
  | none
  /-- Data, and whether it carries the poison indication. -/
  | data (bytes : List Byte) (poison : Bool)
  /-- A write has been applied. -/
  | complete
  /-- An error completion. -/
  | error
  deriving DecidableEq, Repr

/-- The host port and the crossing links (23 R421 to R431). -/
structure Links where
  width : Nat
  rate : Nat
  ide : Bool
  herr : BitVec 16
  myPeer : Nat
  portUp : BitVec 16
  routes : List (Nat × DWord)
  outs : List OutPair
  ins : List InPair
  /-- The system-tide reports of peers: the module, the sample point, and the oldest issue FT it names (05 R133). -/
  peerTide : List (Nat × Nat × Nat)
  /-- The latest answer to a host access (23 R421, R422). -/
  hostReply : HostReply
  /-- Copy-engine writes sent toward host memory and not acknowledged, oldest first (23 R425). -/
  hostOut : List HostOut
  nextReq : Nat
  replies : List PeerReply
  deriving DecidableEq, Repr

/-- SPDM session state (24 R436). -/
structure Spdm where
  version : Bool
  caps : Bool
  algs : Bool
  session : Bool
  keyed : Bool
  /-- The last response: its kind and content. -/
  response : List Nat
  deriving DecidableEq, Repr

/-- Boot, recovery and identity (24 R432 to R440). -/
structure Boot where
  phase : Nat
  cause : Nat
  lastCause : Nat
  attempts : Nat
  fwver : Word
  recLen : Nat
  plag : Nat
  ideReq : Bool
  /-- Majors the decode table maps, and its lock (06 R162, 24 R435). -/
  mapped : List Nat
  locked : Bool
  spdm : Spdm
  deriving DecidableEq, Repr

/-- The module. -/
structure State where
  cur : Nat
  event : Option Event
  inputs : List Instr
  steps : Nat
  nextUid : Nat
  nextCopy : Nat
  nextReq : Nat
  ft : Nat
  mem : Mem
  groups : List Group
  ghosts : List (Nat × Nat × Nat)
  landings : List Landing
  ctxs : List Ctx
  teams : List Team
  /-- The live-rank mask that the home of a registered barrier object last received (09 R245). -/
  barLive : List (Nat × BitVec 128)
  launches : List Launch
  pairs : List ((Nat × Nat) × List Item)
  copies : List Copy
  units : List MUnit
  saved : List SavedClaim
  segs : List Seg
  tokSides : List TokSide
  links : Links
  boot : Boot
  deriving DecidableEq, Repr

/-- A token under which no copy is outstanding. -/
def Token.complete : Token := ⟨[], false⟩

/-- A frame that has not executed ENTER, with every register absent (03 R60, R61). -/
def Frame.fresh : Frame :=
  { fsz := 8, v := List.replicate 64 none, p := List.replicate 8 none, h := List.replicate 8 none
    k := List.replicate 8 Token.complete, table := none, entered := false, tp := false, resumePC := 0
    cp := false, cseg := 0, coff := 0 }

/-- A context in state FREE, with the resets of Table 17-3. -/
def Ctx.free (id : Nat) : Ctx :=
  { id := id, pl := 0, state := 0, landMask := 0, utrapVec := 0, trapDeleg := 0, spillArea := 0, spillSeg := 16
    parkOff := 0, parkSz := 25, kspillBase := 0, kspillSize := 0, ptRoot := 0, heapBase := 0, heapLim := 0
    heapOff := 0, heapGeom := 0, launchCount := 0, toCommand := [], stopping := [], markers := [], reported := []
    parker := none, krun := [] }

/-- A repair group with no failed position (Table 21-1). -/
def RepairGroup.reset : RepairGroup := ⟨0x7F, 0x7F, false, ⟨0x7F, 0, 0⟩⟩

/-- A bus in service (Table 21-1). -/
def Bus.reset : Bus := ⟨0, false, 0, 0, false, 0, false, 0, List.replicate 16 RepairGroup.reset⟩

/-- An empty log. -/
def RasLog.empty : RasLog := ⟨[], false, 0, 0⟩

/-- The RAS registers at module reset (Table 21-1): no landing READY, every CAP zero. -/
def Ras.reset : Ras :=
  { buses := List.replicate 16 Bus.reset, busy := false, ready := false, capU := 0, act := []
    homemap := List.replicate 64 0, arrayLog := RasLog.empty, linkLog := RasLog.empty
    armed := [], spent := [] }

/-- A merge network with eight free slots of generation 0 (12 R306). -/
def MergeNet.reset : MergeNet :=
  { slots := List.replicate 8 none, gens := List.replicate 8 0, keyed := [], kflags := 0, kpoison := false
    kruns := 0, closes := [] }

/-- A landing at module reset (Tables 19-6, 20-3, 21-1). -/
def Landing.reset : Landing :=
  { wharf := [], arrivals := [], queues := [], pending := [], launchCause := 0, rejected := 0, bgcap := 28
    hold := false, sysscr := 0, overflow := 0, tideL := 0, tideM := 0, tideS := 0, samples := [], adL := 0, adM := 0, adS := 0, tokens := []
    fq := ⟨0, 0, 0, 0, [], 0⟩, pm := ⟨0, 0, 0, 0, 0, 0, 0, 0⟩, tlb := [], icache := [], side := [], fills := []
    mn := MergeNet.reset, ras := Ras.reset, poolWait := [], skew := 0 }

/-- The link registers at module reset (Table 23-3). MYPEER has no reset value (DESIGN CHOICE, log entry 11). -/
def Links.reset : Links :=
  { width := 0, rate := 0, ide := false, herr := 0, myPeer := 0, portUp := 0, routes := [], outs := [], ins := []
    peerTide := [], hostReply := .none, hostOut := [], nextReq := 0, replies := [] }

/-- BOOTSTATUS and RECCTL at module reset (Table 24-3). PLAG and the decode table have no reset value (DESIGN
CHOICE, log entries 8 and 10). -/
def Boot.reset : Boot :=
  { phase := 0, cause := 0, lastCause := 0, attempts := 0, fwver := 0, recLen := 0, plag := 2048, ideReq := false
    mapped := [], locked := false, spdm := ⟨false, false, false, false, false, []⟩ }

/-- The module right after reset (24 R432): PHASE 0, nothing berthed, every context FREE, and MODULE_RESET the
next turn (log entry 1). Memory lists nothing. -/
def State.reset : State :=
  { cur := 0, event := some .moduleReset, inputs := [], steps := 0, nextUid := 1, nextCopy := 1, nextReq := 0, ft := 0
    mem := ⟨[], [], [], [], [], [], [], [], []⟩, groups := [], ghosts := [], landings := List.replicate 64 Landing.reset, ctxs := []
    teams := [], barLive := [], launches := [], pairs := [], copies := [], units := [], saved := [], segs := [], tokSides := []
    links := Links.reset, boot := Boot.reset }

end Sys2Proof.Machine
end

