-- ==== Sys2Proof/Machine/Link.lean ====
section
/-! DEFINITION. The vertical buses (21 R402 to R407; 22 R415): which bus and connections a transfer uses, and what a transfer
that fails parity does to its tracker and the link log. -/

namespace Sys2Proof.Machine

/-- A bit as a number. -/
def b2n (b : Bool) : Nat := if b then 1 else 0

/-- Insert a number into a rising list. -/
def natInsert : List Nat → Nat → List Nat
  | [], a => [a]
  | k :: ks, a => if a < k then a :: k :: ks else if a = k then k :: ks else k :: natInsert ks a

/-- The bus that carries an offset of a landing's slot (21 R404). -/
def Ras.busOf (r : Ras) (w : Nat) : Nat := r.act.getD ((w / 2048) % max r.act.length 1) 0

/-- Record an entry in a log of 16 (21 R410). -/
def RasLog.record (g : RasLog) (e : BitVec 128) (a b : Nat) : RasLog :=
  let g' := { g with cntA := min 65535 (g.cntA + a), cntB := min 65535 (g.cntB + b) }
  if g.entries.length < 16 then { g' with entries := g.entries ++ [e] } else { g' with ovf := true }

/-- The physical position that carries a logical connection of a group (R403). -/
def RepairGroup.position (r : RepairGroup) (i : Nat) : Nat :=
  ((List.range 68).filter fun p => p != r.f0 && p != r.f1).getD i 0x7F

/-- A swap, or the exhaustion of a group (R407). -/
def Bus.swap (b : Bus) (g : Nat) : Bus :=
  let r := b.groups.getD g RepairGroup.reset
  if r.trk.cnt ≠ 3 then b
  else
    let t := { r.trk with phys := 0x7F, cnt := 0 }
    if r.f0 = 0x7F then { b with groups := b.groups.set g { r with f0 := r.trk.phys, trk := t } }
    else if r.f1 = 0x7F then { b with groups := b.groups.set g { r with f1 := r.trk.phys, trk := t } }
    else { b with state := if b.state = 0 then 1 else b.state, groups := b.groups.set g { r with exh := true, trk := t } }

/-- The tracker after an attributed failure at a position (R407). -/
def Tracker.hit (t : Tracker) (p xfer : Nat) : Tracker :=
  if p = t.phys ∧ 1 ≤ t.cnt ∧ (xfer + 2 ^ 32 - t.start % 2 ^ 32) % 2 ^ 32 < 2 ^ 20 then { t with cnt := t.cnt + 1 }
  else ⟨p, 1, xfer⟩

/-- ACTION of a failure that brings a tracker to 3: swap or exhaustion (Table 21-3). -/
def RepairGroup.action (r : RepairGroup) : Nat :=
  if r.trk.cnt ≠ 3 then 0 else if r.f0 = 0x7F ∨ r.f1 = 0x7F then 1 else 2

/-- A LINKLOG entry (Table 21-3). -/
def linkEntry (ft bus : Nat) (write : Bool) (pgrp group conn phys tries result action : Nat) : BitVec 128 :=
  BitVec.ofNat 128 (ft % 2 ^ 64 + 2 ^ 64 * (bus % 16) + 2 ^ 68 * b2n write + 2 ^ 69 * (pgrp % 32) + 2 ^ 74 * (group % 16) +
    2 ^ 78 * (conn % 128) + 2 ^ 85 * (phys % 128) + 2 ^ 92 * (tries % 4) + 2 ^ 94 * result + 2 ^ 95 * action)

/-- The repair group of a data connection (0 to 1,023) or a parity connection (1,024 + p) of a bus (R403). -/
def connGroup (c : Nat) : Nat := if c < 1024 then c / 64 else (c - 1024) / 2
/-- Its logical number in the group (R403). -/
def connLogical (c : Nat) : Nat := if c < 1024 then c % 64 else 64 + (c - 1024) % 2
/-- The parity group that it carries or covers (R402). -/
def connParity (c : Nat) : Nat := if c < 1024 then c / 32 else c - 1024

/-- The parity groups that fail (R402): where a retry passes, those in which an odd number of connections differ. -/
def groupsOut (x : ParityFailure) : List Nat :=
  (List.range 32).filter fun p =>
    if x.fails ≤ 3 ∧ !x.conns.isEmpty then (x.conns.filter fun c => connParity c == p).length % 2 == 1 else x.groups.contains p

/-- A failure that a transfer can meet (R405): one to four failing attempts, of connections of the bus. -/
def parityReal (x : ParityFailure) : Bool :=
  decide (1 ≤ x.fails) && decide (x.fails ≤ 4) && x.conns.all (fun c => decide (c < 1056)) && !(groupsOut x).isEmpty

/-- The 16-byte words of a 128-byte block that failing parity groups carry (R402, R406). -/
def failedWords (l block : Nat) (groups : List Nat) : List Nat :=
  (groups.filter (· < 32)).foldl (fun a p => natInsert a ((l * 0x1000000000 + 128 * block) / 16 + p / 4)) []

/-- A failing transfer of a block is attributed, tracked and logged (R405 to R407). EXH and STATE follow at once; a swap takes
effect between two transfers (REPAIR_SWAP). -/
def Ras.fail (r : Ras) (ft : Nat) (x : ParityFailure) : Ras :=
  let n := r.busOf (128 * x.block)
  let b0 := r.buses.getD n Bus.reset
  let pgrp := (groupsOut x).headD 0
  if x.fails = 4 then { r with linkLog := r.linkLog.record (linkEntry ft n x.write pgrp 0 0x7F 0x7F 3 1 0) 0 1 }
  else
    match x.conns with
    | [c] =>
      let g := connGroup c
      let b := b0.swap g
      let rg := b.groups.getD g RepairGroup.reset
      let p := rg.position (connLogical c)
      let rg' := if b.state = 1 then rg else { rg with trk := rg.trk.hit p (b.xfer % 2 ^ 32) }
      let b1 := { b with groups := b.groups.set g rg' }
      { r with
        buses := r.buses.set n (if rg'.action = 2 then b1.swap g else b1)
        linkLog := r.linkLog.record (linkEntry ft n x.write pgrp g (connLogical c) p (x.fails - 1) 0 rg'.action) 1 0 }
    | _ => { r with linkLog := r.linkLog.record (linkEntry ft n x.write pgrp 0 0x7F 0x7F (x.fails - 1) 0 0) 1 0 }

/-- One transfer of a block of landing `l` (R402, 22 R415): the failure that waits for it, if any, and XFER. `lines` are the
64-byte lines of the block that the access touches. -/
def Ras.transfer (r : Ras) (l ft block : Nat) (write : Bool) (lines : List Nat) : Ras :=
  let r1 := match r.armed.find? fun x => x.block == block && x.write == write with
    | none => r
    | some x =>
      let ws := if x.fails = 4 then (failedWords l block (groupsOut x)).filter fun w => lines.contains (w / 4) else []
      { r.fail ft x with armed := r.armed.erase x, spent := r.spent ++ ws.map fun w => (w, write) }
  { r1 with buses := r1.buses.modify (r1.busOf (128 * block)) fun b => { b with xfer := b.xfer + 1 } }

end Sys2Proof.Machine
end

