-- ==== Sys2Proof/Machine/Mem.lean ====
section
/-! DEFINITION. Physical memory (01 R19 to R21, 05 R120, 09 R229, 21 R402 to R410): bytes in canonical form,
poison marks, the home of an address, one read and one write of memory with what each does to poison, array
errors, their log and the transfer counts. -/

namespace Sys2Proof.Machine

/-- The byte at an address; a byte not listed reads zero (log entry 2). -/
def cellRead : List Host.Cell → Nat → Byte
  | [], _ => 0
  | (k, v) :: cs, a => if a = k then v else if a < k then 0 else cellRead cs a

/-- Write a byte, keeping addresses rising and no zero listed. -/
def cellWrite : List Host.Cell → Nat → Byte → List Host.Cell
  | [], a, b => if b = 0 then [] else [(a, b)]
  | (k, v) :: cs, a, b =>
    if a < k then (if b = 0 then (k, v) :: cs else (a, b) :: (k, v) :: cs)
    else if a = k then (if b = 0 then cs else (a, b) :: cs)
    else (k, v) :: cellWrite cs a b

/-- Addresses rise, and no entry is zero. -/
def cellsWf : List Host.Cell → Bool
  | [] => true
  | [(_, v)] => v != 0
  | (k, v) :: (k', v') :: cs => v != 0 && decide (k < k') && cellsWf ((k', v') :: cs)

/-- The canonical form of memory. -/
def Mem.wf (m : Mem) : Bool := cellsWf m.cells

/-- The byte at a physical address. -/
def Mem.byte (m : Mem) (pa : Nat) : Byte := cellRead m.cells pa

/-- `n` bytes from a physical address, lowest first. -/
def Mem.bytes (m : Mem) (pa n : Nat) : List Byte := (List.range n).map fun i => m.byte (pa + i)

/-- The little-endian value of `n` bytes (00 R3). -/
def Mem.num (m : Mem) (pa n : Nat) : Nat := leBytes (m.bytes pa n)

/-- Write bytes one after another from an address. -/
def cellsPut : List Host.Cell → Nat → List Byte → List Host.Cell
  | cs, _, [] => cs
  | cs, a, b :: bs => cellsPut (cellWrite cs a b) (a + 1) bs

/-- The 16-byte words (by index) that `n` bytes from `pa` touch (09 R229). -/
def wordsOf (pa n : Nat) : List Nat :=
  if n = 0 then [] else (List.range ((pa + n - 1) / 16 - pa / 16 + 1)).map (pa / 16 + ·)

/-- Whether `n` bytes from `pa` cover the whole of word `w`. -/
def coversWord (pa n w : Nat) : Bool := decide (pa ≤ 16 * w) && decide (16 * w + 16 ≤ pa + n)

/-- Whether any of `n` bytes lies in a poisoned word (09 R229). -/
def Mem.poisoned (m : Mem) (pa n : Nat) : Bool := (wordsOf pa n).any (m.poison.contains ·)

/-- Poison marks after a write of `n` bytes (09 R229): poisoned data mark every word touched, clean data clear
the words covered whole. -/
def poisonAfter (ps : List Nat) (pa n : Nat) (dirty : Bool) : List Nat :=
  if dirty then (wordsOf pa n).foldl natInsert ps
  else ps.filter fun w => !coversWord pa n w

/-- The halfwords that differ between two contents of `n` bytes from an address, as the first holds them (01 R13). -/
def replaced (old new : List Host.Cell) (pa n : Nat) : List (Nat × BitVec 16) :=
  let half (cs : List Host.Cell) (h : Nat) : BitVec 16 := cellRead cs (2 * h + 1) ++ cellRead cs (2 * h)
  ((List.range ((pa + n + 1) / 2 - pa / 2)).map (pa / 2 + ·)).filterMap fun h =>
    if half old h = half new h then none else some (h, half old h)

/-- Write bytes with the poison of their source; a word written whole is rewritten in the array (R229, R409). -/
def Mem.put (m : Mem) (pa : Nat) (bs : List Byte) (dirty : Bool) : Mem :=
  { m with
    cells := cellsPut m.cells pa bs
    past := replaced m.cells (cellsPut m.cells pa bs) pa bs.length ++ m.past
    poison := (m.failW.filter fun w => (wordsOf pa bs.length).contains w).foldl natInsert (poisonAfter m.poison pa bs.length dirty)
    failW := m.failW.filter fun w => !(wordsOf pa bs.length).contains w
    bad := m.bad.filter fun w => !coversWord pa bs.length w
    weak := m.weak.filter fun w => !coversWord pa bs.length w }

/-- A landing of the module. -/
def State.landing (s : State) (l : Nat) : Landing := s.landings.getD l Landing.reset

/-- Replace a landing. -/
def State.setLanding (s : State) (l : Nat) (x : Landing) : State := { s with landings := s.landings.set l x }

/-- Change a landing. -/
def State.modLanding (s : State) (l : Nat) (f : Landing → Landing) : State := s.setLanding l (f (s.landing l))

/-- FT at a landing (01 R16). -/
def State.ftAt (s : State) (l : Nat) : Nat := s.ft + (s.landing l).skew

/-- What a physical address names (01 Table 1-4). -/
inductive Target where
  | dram (l : Nat)
  | scratch (l : Nat)
  | control (l : Nat)
  | host
  | absent
  deriving DecidableEq, Repr

/-- 3 GiB, what one vertical bus contributes (21 R404). -/
def busBytes : Nat := 0xC0000000

/-- CAP[m] as landing `l` holds it (21 R408, R411). -/
def State.cap (s : State) (l m : Nat) : Nat := busBytes * (s.landing l).ras.homemap.getD m 0

/-- What an address names, as landing `l` sees it (01 R19). -/
def State.target (s : State) (l pa : Nat) : Target :=
  if pa < 0x040000000000 then
    if pa % 0x1000000000 < s.cap l (pa / 0x1000000000) then .dram (pa / 0x1000000000) else .absent
  else if 0x080000000000 ≤ pa ∧ pa < 0x080080000000 then .scratch ((pa - 0x080000000000) / 0x2000000)
  else if 0x0C0000000000 ≤ pa ∧ pa < 0x0C1000000000 then .control (pa / 0x40000000 % 64)
  else if 0x800000000000 ≤ pa ∧ pa < 0x1000000000000 then .host
  else .absent

/-- Home(pa) of 00 R7: a landing, 64 for HOST, 65 for NONE where no range lies. -/
def home (pa : Nat) : Nat :=
  if pa < 0x040000000000 then pa / 0x1000000000
  else if 0x080000000000 ≤ pa ∧ pa < 0x080080000000 then (pa - 0x080000000000) / 0x2000000
  else if 0x0C0000000000 ≤ pa ∧ pa < 0x0C1000000000 then pa / 0x40000000 % 64
  else if 0x800000000000 ≤ pa ∧ pa < 0x1000000000000 then 64
  else 65

/-- The landing scratch range. -/
def isScratch (pa : Nat) : Bool := decide (0x080000000000 ≤ pa) && decide (pa < 0x080080000000)
/-- The control space range. -/
def isControl (pa : Nat) : Bool := decide (0x0C0000000000 ≤ pa) && decide (pa < 0x0C1000000000)

/-- An ARRAYLOG entry (Table 21-2). Which of the 137 codeword bits a corrected error lay in is free (22 R414; log entry
20). -/
def arrayEntry (ft pa ty src synd : Nat) : BitVec 128 :=
  BitVec.ofNat 128 (ft % 2 ^ 64 + 2 ^ 64 * (pa / 16 % 2 ^ 44) + 2 ^ 108 * ty + 2 ^ 110 * src + 2 ^ 113 * (synd % 512))

/-- SRC of an access to an address (Table 21-2). -/
def arraySrc (pa : Nat) : Nat := if isScratch pa then 2 else 0

/-- Log the array errors that a read of `n` bytes finds at the home, and correct the correctable ones (21 R409,
R413: corrected scratch errors are counted only). -/
def State.findErrors (s : State) (pa n src : Nat) : State :=
  if s.mem.bad.isEmpty && s.mem.weak.isEmpty then s
  else
    let hit := (wordsOf pa n).filter fun w => s.mem.bad.contains w || s.mem.weak.contains w
    let l := home pa
    let log := hit.foldl (fun (g : RasLog) w =>
      if s.mem.bad.contains w then
        g.record (arrayEntry (s.ftAt l) (16 * w) 1 src 0x1FF) 0 1
      else if isScratch pa then { g with cntA := min 65535 (g.cntA + 1) }
      else g.record (arrayEntry (s.ftAt l) (16 * w) 0 src (Config.value s.steps w % 137 + 1)) 1 0) (s.landing l).ras.arrayLog
    { (s.modLanding l fun x => { x with ras := { x.ras with arrayLog := log } }) with
      mem := { s.mem with weak := s.mem.weak.filter fun w => !hit.contains w } }

/-- The 128-byte blocks of DRAM that runs of bytes touch, each once. -/
def blocksOf (xs : List (Nat × Nat)) : List Nat :=
  xs.foldl (fun (bs : List Nat) x =>
    if x.1 < 0x040000000000 ∧ 0 < x.2 then
      (List.range ((x.1 + x.2 - 1) / 128 - x.1 / 128 + 1)).foldl (fun (cs : List Nat) k => natInsert cs (x.1 / 128 + k)) bs
    else bs) []

/-- The transfers on the vertical buses of the homes for runs of bytes read, or written, together: one for each
128-byte block (21 R402, 22 R415; log entry 21). -/
def State.beats (s : State) (xs : List (Nat × Nat)) (write : Bool := false) : State :=
  let lines := xs.flatMap fun x => (List.range ((x.1 + x.2 - 1) / 64 + 1 - x.1 / 64)).map (x.1 / 64 + ·)
  (blocksOf xs).foldl (fun (t : State) b =>
    let l := home (128 * b)
    t.modLanding l fun x => { x with ras := x.ras.transfer l (t.ftAt l) (b % 0x20000000) write lines }) s

/-- Whether `n` bytes read poisoned: a poison mark, an uncorrectable array error, or an uncorrectable transfer of
the read (R229, R406, R409). -/
def Mem.unreadable (m : Mem) (pa n : Nat) : Bool := m.poisoned pa n || (wordsOf pa n).any fun w => m.bad.contains w || m.failR.contains w

/-- The effect on memory of reading `n` bytes: the errors it finds. -/
def State.sense (s : State) (pa n : Nat) : State :=
  let s' := s.findErrors pa n (arraySrc pa)
  { s' with mem := { s'.mem with failR := s'.mem.failR.filter fun w => !(wordsOf pa n).contains w } }

/-- The effect on the home of one access that reads `n` bytes: its transfers, and the errors it finds. -/
def State.touch (s : State) (pa n : Nat) : State := (s.beats [(pa, n)]).sense pa n

/-- Write bytes to memory. -/
def State.lay (s : State) (pa : Nat) (bs : List Byte) (dirty : Bool) : State := { s with mem := s.mem.put pa bs dirty }

/-- One access that writes bytes at the home, with its transfers. -/
def State.store (s : State) (pa : Nat) (bs : List Byte) (dirty : Bool) : State :=
  (s.beats [(pa, bs.length)] true).lay pa bs dirty

/-- The flip bit of the publish page at physical address `b` (05 R117). -/
def Mem.flip (m : Mem) (b : Nat) : Bool := m.flips.contains b

/-- Set or clear a flip bit. -/
def Mem.setFlip (m : Mem) (b : Nat) (v : Bool) : Mem :=
  { m with flips := if v then natInsert m.flips b else m.flips.filter (· != b) }

/-- The physical address an access to a page of a kind reaches: on a publish page, the front, or the shadow for
COPY.S (05 R117, R140). -/
def Mem.backing (m : Mem) (x : Loc) (shadow : Bool) : Nat :=
  if x.kind = 2 then
    let b := x.pa / 2 ^ x.pageBits * 2 ^ x.pageBits
    if m.flip b != shadow then x.pa + 2 ^ x.pageBits else x.pa
  else x.pa

end Sys2Proof.Machine
end

