-- ==== Sys2Proof/Machine/Regs.lean ====
section
/-! DEFINITION. Registers of a frame (03 R49 to R59, 02 R36, R37): lanes, forms, poison, predicates, the write of
a v register under a guard (Table 3-4 is applied in Flags.lean), and what a frame costs in the window store. -/

namespace Sys2Proof.Machine

/-- The mask of the lanes a test holds in. -/
def maskOf (f : Nat → Bool) : Mask :=
  BitVec.ofNat 32 ((List.range 32).foldl (fun a i => if f i then a + 2 ^ i else a) 0)

/-- The lanes of a mask, ascending. -/
def lanesOf (m : Mask) : List Nat := (List.range 32).filter fun i => m.getLsbD i

/-- The lowest lane of a mask. -/
def lowLane (m : Mask) : Nat := (lanesOf m).headD 0

/-- Lane `i` of a value in its form (03 R51). -/
def Val.lane (x : Val) (i : Nat) : Word :=
  match x with
  | .u w => w
  | .a b s => b + BitVec.ofNat 32 i * s
  | .g xs => xs.getD i 0

/-- The register's poison bit of lane `i`. -/
def VReg.bad (r : VReg) (i : Nat) : Bool := r.poison.getLsbD i

/-- v register `n`, when present. -/
def Frame.reg? (f : Frame) (n : Nat) : Option VReg := f.v.getD n none

/-- Lane `i` of v register `n`; an absent register reads zero (02 R37). -/
def Frame.lane (f : Frame) (n i : Nat) : Word := ((f.reg? n).map fun r => r.val.lane i).getD 0

/-- Poison of lane `i` of v register `n`. -/
def Frame.bad (f : Frame) (n i : Nat) : Bool := ((f.reg? n).map fun r => r.bad i).getD false

/-- The value of the aligned pair at `n` in lane `i` (00 R3). -/
def Frame.pair (f : Frame) (n i : Nat) : DWord := f.lane (n + 1) i ++ f.lane n i

/-- The value of `k` registers from `n` in lane `i`, lowest first (00 R3). -/
def Frame.wide (f : Frame) (n k i : Nat) : Nat :=
  (List.range k).foldl (fun a j => a + (f.lane (n + j) i).toNat * 2 ^ (32 * j)) 0

/-- Poison of any of `k` registers from `n` in lane `i`. -/
def Frame.badRun (f : Frame) (n k i : Nat) : Bool := (List.range k).any fun j => f.bad (n + j) i

/-- Predicate `n`: p0 is all ones, an absent predicate all zeros (03 R49, 02 R37). -/
def Frame.pred (f : Frame) (n : Nat) : Mask := if n = 0 then -1 else (f.p.getD n none).getD 0

/-- Handle `n`; an absent handle reads zero (02 R37). -/
def Frame.handle (f : Frame) (n : Nat) : BitVec 256 := (f.h.getD n none).getD 0

/-- The lanes a guard leaves (06 R151). -/
def Group.guard (g : Group) (g4 : BitVec 4) : Mask :=
  let p := g.frame.pred (g4.extractLsb' 0 3).toNat
  g.active &&& (if g4.getLsbD 3 then ~~~p else p)

/-- The destination form a write asks for (Table 3-4). -/
inductive DForm where
  | u
  | a (b s : Word)
  | g
  deriving DecidableEq, Repr

/-- What an instruction writes to a v register: its form in a full write, its value and its poison at each
position. -/
structure LaneWrite where
  form : DForm
  val : Nat → Word
  bad : Nat → Bool

/-- A v register after a write under `act` in a context whose active mask is `amask` (03 R57). -/
def writeReg (old : Option VReg) (amask act : Mask) (w : LaneWrite) : VReg :=
  let o : Nat → Word := fun i => (old.map fun r => r.val.lane i).getD 0
  let ob : Nat → Bool := fun i => (old.map fun r => r.bad i).getD false
  let merged : VReg :=
    ⟨.g ((List.range 32).map fun i => if act.getLsbD i then w.val i else o i),
      maskOf fun i => if act.getLsbD i then w.bad i else ob i⟩
  if act = amask then
    match w.form with
    | .u => ⟨.u (w.val 0), maskOf w.bad⟩
    | .a b s => ⟨.a b s, maskOf w.bad⟩
    | .g => merged
  else merged

/-- Put a register into a file of `k`, which keeps its size. -/
def fileSet {α : Type} (k : Nat) (xs : List (Option α)) (n : Nat) (r : Option α) : List (Option α) :=
  ((xs ++ List.replicate k none).take k).set n r

/-- Write v register `n` of a frame. -/
def Frame.setReg (f : Frame) (n : Nat) (r : Option VReg) : Frame := { f with v := fileSet 64 f.v n r }

/-- Write v register `n` under a guard. -/
def Frame.write (f : Frame) (amask act : Mask) (n : Nat) (w : LaneWrite) : Frame :=
  f.setReg n (some (writeReg (f.reg? n) amask act w))

/-- Write predicate `n` in the lanes of `act`; p0 is discarded (07 R181). -/
def Frame.writePred (f : Frame) (act : Mask) (n : Nat) (x : Mask) : Frame :=
  if n = 0 then f else { f with p := fileSet 8 f.p n (some ((f.pred n &&& ~~~act) ||| (x &&& act))) }

/-- Write handle `n` whole. -/
def Frame.setHandle (f : Frame) (n : Nat) (x : BitVec 256) : Frame := { f with h := fileSet 8 f.h n (some x) }

/-- Slots of a v register in the window store (Table 3-5). -/
def VReg.slots (r : VReg) : Nat := match r.val with | .u _ => 1 | .a _ _ => 2 | .g _ => 32

/-- Entries of a frame in the window store (Table 3-5). -/
def Frame.entries (f : Frame) : Nat :=
  1 + (f.v.filter Option.isSome).length + (f.p.filter Option.isSome).length + (f.h.filter Option.isSome).length

/-- Slots of a frame in the window store (Table 3-5). -/
def Frame.slots (f : Frame) : Nat :=
  4 + (f.v.map fun r => (r.map VReg.slots).getD 0).sum + (f.p.filter Option.isSome).length +
    8 * (f.h.filter Option.isSome).length

/-- Whether a group's resident frames fit its berth's window store (03 R59). -/
def Group.fits (g : Group) : Bool :=
  let fs := g.frame :: g.older
  decide ((fs.map Frame.entries).sum ≤ 1024) && decide ((fs.map Frame.slots).sum ≤ 8192)

/-- The group named by an identity. -/
def State.group? (s : State) (uid : Nat) : Option Group := s.groups.find? fun g => g.uid == uid

/-- Replace a group. -/
def State.setGroup (s : State) (g : Group) : State :=
  { s with groups := s.groups.map fun x => if x.uid = g.uid then g else x }

/-- Change a group. -/
def State.modGroup (s : State) (uid : Nat) (f : Group → Group) : State :=
  { s with groups := s.groups.map fun x => if x.uid = uid then f x else x }

/-- Remove a group from its berth. -/
def State.dropGroup (s : State) (uid : Nat) : State :=
  { s with groups := s.groups.filter fun x => x.uid != uid }

/-- The context named by a CTXID; an unlisted one is FREE (17 R345). -/
def State.ctx (s : State) (id : Nat) : Ctx := (s.ctxs.find? fun c => c.id == id).getD (Ctx.free id)

/-- Replace a context; one equal to a FREE context is not listed. -/
def State.setCtx (s : State) (c : Ctx) : State :=
  let rest := s.ctxs.filter fun x => x.id != c.id
  { s with ctxs := if c = Ctx.free c.id then rest else c :: rest }

/-- Change a context. -/
def State.modCtx (s : State) (id : Nat) (f : Ctx → Ctx) : State := s.setCtx (f (s.ctx id))

/-- GSTATUS bits (Table 3-3). -/
def Group.sticky (g : Group) (bits : Word) : Group := { g with gstatus := g.gstatus ||| bits }

/-- GSTATUS.DEADRD. -/
def DEADRD : Word := 0x20
/-- GSTATUS.LAVIOL. -/
def LAVIOL : Word := 0x40
/-- GSTATUS.PSTORE. -/
def PSTORE : Word := 0x80

/-- GMODE.DEADTRAP (Table 3-2). -/
def Group.deadTrap (g : Group) : Bool := g.gmode.getLsbD 2
/-- GMODE.FXE (Table 3-2). -/
def Group.fxe (g : Group) : BitVec 5 := g.gmode.extractLsb' 3 5
/-- GMODE.RM (Table 3-2). -/
def Group.rm (g : Group) : Nat := (g.gmode.extractLsb' 0 2).toNat

/-- The items on a pair, oldest first (05 R128). -/
def State.pair (s : State) (src dst : Nat) : List Item :=
  ((s.pairs.find? fun p => p.1 == (src, dst)).map Prod.snd).getD []

/-- Replace the items of a pair; an empty pair is not listed. -/
def State.setPair (s : State) (src dst : Nat) (xs : List Item) : State :=
  let rest := s.pairs.filter fun p => p.1 != (src, dst)
  { s with pairs := if xs.isEmpty then rest else rest ++ [((src, dst), xs)] }

/-- Put an item on a pair behind what it carries. -/
def State.send (s : State) (src dst : Nat) (x : Item) : State := s.setPair src dst (s.pair src dst ++ [x])

end Sys2Proof.Machine
end

