-- ==== Sys2Proof/Machine/Translate.lean ====
section
/-! DEFINITION. Translation (05 R114 to R118, 19 R374 to R380): the heap window, the page walk, leaf checks,
kinds and permissions, cached translations, accessed and dirty bits. -/

namespace Sys2Proof.Machine

/-- The columns of Table 5-1, with the accesses that the table leaves to other rules. -/
inductive Row where
  /-- LD, LD.L and ST, which PL1 and PL2 may make to spill-only pages (03 R67). -/
  | plain
  /-- ATOM, ATOM.CAS, TLD, TST, HLOAD, CFILL, tensor index reads, CWAIT. -/
  | atomic
  /-- ST.P and RED.P. -/
  | posted
  | keyed
  /-- COPY source and destination, and matrix and merge-network accesses. -/
  | copy
  | copyS
  | publish
  | fetch
  /-- QPUSH and QPOP. -/
  | queue
  /-- Barrier objects, PARK and WAKE images: kind normal (09 R242 to R244). -/
  | object
  | migrate
  /-- WSE accesses: kind spill-only (03 R66). -/
  | spill
  deriving DecidableEq, Repr

/-- An access as translation sees it: the access code of 17 R443, its row, the permissions it needs (19 Table
19-2), whether it writes (19 R378), whether a peer module or host memory may be its target, and how many bytes it covers,
where that matters (17 R344). -/
structure Access where
  code : Nat
  row : Row
  r : Bool
  w : Bool
  x : Bool
  writes : Bool
  peer : Bool
  host : Bool
  span : Nat
  deriving DecidableEq, Repr

/-- An access of `n` bytes. -/
def Access.wide (a : Access) (n : Nat) : Access := { a with span := n }

/-- Why a translation fails (09 R227 checks 5 and 6, 19 R374). -/
inductive TFault where
  | access
  | absent
  | heap
  /-- V = 0 at a level (1 missing page, above it missing table). -/
  | missing (level : Nat)
  deriving DecidableEq, Repr

/-- The trap cause of a failed check 5 (Table 17-6). -/
def TFault.cause : TFault → Nat
  | .access => 8
  | .absent => 9
  | .heap => 10
  | .missing _ => 8

/-- Whether a page kind admits an access at a privilege level (Table 5-1, 03 R67, 01 R20). -/
def kindAdmits (pl : Nat) (row : Row) (kind : Nat) : Bool :=
  match kind with
  | 0 => row ∈ [.plain, .atomic, .posted, .copy, .fetch, .object, .migrate]
  | 1 => row == .spill || (decide (1 ≤ pl) && row ∈ [.plain, .migrate])
  | 2 => row ∈ [.plain, .atomic, .posted, .copy, .copyS, .publish, .migrate]
  | 3 => row ∈ [.plain, .atomic, .posted, .keyed, .copy, .migrate]
  | 4 => row == .queue
  | 5 => decide (1 ≤ pl) && row ∈ [.plain, .atomic, .posted, .copy, .migrate]
  | _ => false

/-- Bits `hi:lo` of an entry. -/
def bits (e hi lo : Nat) : Nat := e / 2 ^ lo % 2 ^ (hi - lo + 1)

/-- Fields of a leaf entry (Table 19-1). -/
def leafKind (e : Nat) : Nat := bits e 8 6
/-- PA of a leaf entry. -/
def leafPA (e : Nat) : Nat := bits e 47 17 * 0x20000
/-- PV of a leaf entry. -/
def leafPV (e : Nat) : Bool := bits e 13 13 == 1
/-- PEER of a leaf entry. -/
def leafPeer (e : Nat) : Nat := bits e 57 48
/-- MODE of a leaf entry. -/
def leafMode (e : Nat) : Bool := bits e 12 12 == 1

/-- Page size of a level, as log2 (19 R374). -/
def pageBits (lvl : Nat) : Nat := 9 * lvl + 8

/-- A target that memory holds: DRAM or scratch. -/
def Target.isMemory : Target → Bool
  | .dram _ => true
  | .scratch _ => true
  | _ => false

/-- A leaf of level `lvl` is well formed (19 R376, 05 R117): that both backings of a publish page are present is tested here
for a page of this module. -/
def State.leafOk (s : State) (l : Nat) (e lvl : Nat) : Bool :=
  let pa := leafPA e
  let k := leafKind e
  bits e 16 14 == 0 && bits e 63 58 == 0 && decide (k ≤ 5) && pa % 2 ^ pageBits lvl == 0 &&
    (leafPV e || !leafMode e) && (!isScratch pa || lvl == 1) && (k == 5) == isControl pa &&
    (k != 2 || (decide (lvl ≤ 2) && home pa == home (pa + 2 ^ pageBits lvl) &&
      (leafPV e || ((s.target l pa).isMemory && (s.target l (pa + 2 ^ pageBits lvl)).isMemory))))

/-- A leaf found by a walk: the entry, its address and its level. -/
structure Leaf where
  e : Nat
  pte : Nat
  lvl : Nat
  deriving DecidableEq, Repr

/-- The walk from a table at level `n` (19 R374). -/
def State.walkFrom (s : State) (l va : Nat) : Nat → Nat → Except TFault Leaf
  | 0, _ => .error .access
  | n + 1, t =>
    let lvl := n + 1
    let idx := if lvl = 5 then bits va 55 53 else bits va (9 * lvl + 16) (9 * lvl + 8)
    let a := t + 8 * idx
    if !(s.target l a).isMemory || s.mem.unreadable a 8 then .error .access
    else
      let e := s.mem.num a 8
      if e % 2 = 0 then .error (.missing lvl)
      else if bits e 2 1 = 0 ∧ 1 < lvl then
        if bits e 11 3 != 0 || bits e 63 48 != 0 then .error .access
        else s.walkFrom l va n (bits e 47 12 * 4096)
      else if bits e 2 1 ≠ lvl ∨ 3 < lvl ∨ !s.leafOk l e lvl then .error .access
      else .ok ⟨e, a, lvl⟩

/-- The walk of a context's page table (19 R374). -/
def State.walk (s : State) (l ctx va : Nat) : Except TFault Leaf :=
  s.walkFrom l va 5 (bits (s.ctx ctx).ptRoot.toNat 47 6 * 64)

/-- The entries that the walk from a table at level `n` reads (19 R374). -/
def State.walkReads (s : State) (l va : Nat) : Nat → Nat → List Nat
  | 0, _ => []
  | n + 1, t =>
    let lvl := n + 1
    let a := t + 8 * (if lvl = 5 then bits va 55 53 else bits va (9 * lvl + 16) (9 * lvl + 8))
    let e := s.mem.num a 8
    if !(s.target l a).isMemory then []
    else if s.mem.unreadable a 8 ∨ e % 2 = 0 ∨ bits e 2 1 ≠ 0 ∨ lvl = 1 then [a]
    else a :: s.walkReads l va n (bits e 47 12 * 4096)

/-- What the reads of a walk do at the homes of the entries (21 R402, R409). -/
def State.walkSense (s : State) (l ctx va : Nat) : State :=
  (s.walkReads l va 5 (bits (s.ctx ctx).ptRoot.toNat 47 6 * 64)).foldl (fun (t : State) a => t.touch a 8) s

/-- Set A, and D for a write, in the entry of a leaf at its home, unless it changed (19 R378). -/
def State.setAD (s : State) (f : Leaf) (w : Bool) : State :=
  let now := s.mem.num f.pte 8
  let want := now ||| (if w then 0x600 else 0x200)
  if (now ||| 0x600) = (f.e ||| 0x600) ∧ now ≠ want then
    (s.beats [(f.pte, 8)]).store f.pte (toBytes 8 want) (s.mem.poisoned f.pte 8)
  else s

/-- What a leaf covers: context and page. -/
def leafPage (lvl va : Nat) : Nat := va / 2 ^ pageBits lvl * 2 ^ pageBits lvl

/-- The core whose TLB a translation at a landing goes through first: that of the group whose instruction executes; none
for the landing's own units and engines (19 R380). -/
def State.tlbCore (s : State) (l : Nat) : Option Nat :=
  match s.event, s.group? s.cur with
  | none, some g => if g.l = l then some g.core else none
  | _, _ => none

/-- Entries of a core's TLB, or of a landing's translation unit (Table 1-2). -/
def tlbSize (core : Option Nat) : Nat := if core.isSome then 256 else 8192

/-- A list without the `n`-th of its members that a test holds of. -/
def dropNth (p : α → Bool) : Nat → List α → List α
  | _, [] => []
  | n, t :: ts => if p t then (match n with | 0 => ts | k + 1 => t :: dropNth p k ts) else t :: dropNth p n ts

/-- Keep a leaf in a TLB or translation unit, in the place of another when it is full (19 R380): which one is free (log
entry 14). -/
def State.cacheLeaf (s : State) (l ctx va : Nat) (core : Option Nat) (f : Leaf) : State :=
  s.modLanding l fun x =>
    let e : TlbEntry := ⟨core, ctx, leafPage f.lvl va, f.lvl, BitVec.ofNat 64 f.e, f.pte⟩
    let rest := x.tlb.filter fun t => !(t.core == core && t.ctx == ctx && t.page == e.page && t.size == f.lvl)
    let full := decide (tlbSize core ≤ (rest.filter (·.core == core)).length)
    { x with tlb := e :: if full then dropNth (·.core == core) (Config.choice s.steps % tlbSize core) rest else rest }

/-- The leaf that a TLB or translation unit holds for an address (19 R380): one that differs from what a walk finds may
have been replaced (log entry 14). A cached entry with D = 0 serves a write only while its table entry is unchanged (19
R378). -/
def State.cached (s : State) (l ctx va : Nat) (w : Bool) (fresh : Option Leaf) (core : Option Nat) : Option Leaf :=
  match (s.landing l).tlb.find? fun t => t.core == core && t.ctx == ctx && t.page == leafPage t.size va with
  | none => none
  | some t =>
    let f : Leaf := ⟨t.entry.toNat, t.pte, t.size⟩
    let stale := w && bits f.e 10 10 == 0 && ((s.mem.num f.pte 8 ||| 0x600) != (f.e ||| 0x600))
    if !stale && (decide (fresh = some f) || Config.tlbHeld s.steps t.page) then some f else none

/-- A write through a cached leaf whose D is 0 sets it first (19 R378). -/
def State.markDirty (s : State) (f : Leaf) (w : Bool) : State := if w && bits f.e 10 10 == 0 then s.setAD f w else s

/-- A leaf found below a core's TLB is kept there too. -/
def State.fillTlb (s : State) (l ctx va : Nat) (f : Leaf) : State :=
  match s.tlbCore l with
  | none => s
  | some c => s.cacheLeaf l ctx va (some c) f

/-- The outcome of a walk, with the state after its updates (19 R378, R380). -/
def State.walkLeaf (s : State) (l ctx va : Nat) (w : Bool) (r : Except TFault Leaf) : Except TFault (Leaf × State) :=
  match r with
  | .error e => .error e
  | .ok f =>
    let s' := (s.walkSense l ctx va).setAD f w
    let f' : Leaf := ⟨s'.mem.num f.pte 8, f.pte, f.lvl⟩
    .ok (f, (s'.cacheLeaf l ctx va none f').fillTlb l ctx va f')

/-- The leaf that serves an access, from the core's TLB, else from the landing's translation unit, else by a walk (19 R378,
R380). -/
def State.leafFor (s : State) (l ctx va : Nat) (w : Bool) : Except TFault (Leaf × State) :=
  let fresh := s.walk l ctx va
  match (s.tlbCore l).bind fun c => s.cached l ctx va w fresh.toOption (some c) with
  | some f => .ok (f, s.markDirty f w)
  | none =>
    match s.cached l ctx va w fresh.toOption none with
    | some f => .ok (f, (s.markDirty f w).fillTlb l ctx va f)
    | none => s.walkLeaf l ctx va w fresh

/-- A route to a peer module exists: V set and no reserved bit set (23 R428). -/
def State.routeOk (s : State) (peer : Nat) : Bool :=
  match s.links.routes.find? fun r => r.1 == peer with
  | some r => r.2.getLsbD 0 && (r.2 >>> 28) == 0
  | none => false

/-- The 64-bit control word at an address holds a register that PL2 alone writes (R344): those of Table 21-1, and the
routing table. -/
def pl2Writes (pa : Nat) : Bool :=
  let off := pa / 8 * 8 % 0x40000000
  let x := off % 0x200
  (decide (0x40000 ≤ off) && decide (off < 0x42000) && (decide (x < 0x18) || (decide (0x40 ≤ x) && decide (x < 0x100)))) ||
    off == 0x42000 || (decide (0x42100 ≤ off) && decide (off < 0x42300)) ||
    (decide (0x43000 ≤ off) && decide (off < 0x43800) &&
      (decide (off % 0x400 < 0x10) || (decide (0x100 ≤ off % 0x400) && decide (off % 0x400 < 0x200)))) ||
    (home pa == 0 && decide (0x50000 ≤ off) && decide (off < 0x52000))

/-- Some of `n` bytes from an address lie in a register that PL2 alone writes (R344). -/
def pl2Within (pa n : Nat) : Bool := (List.range ((pa % 8 + n + 7) / 8)).any fun i => pl2Writes (pa + 8 * i)

/-- Checks of a well-formed leaf against an access (19 R375, R376, 05 R116, 01 R20, 17 R344, 23 R427, R428). -/
def State.leafAccess (s : State) (l pl va : Nat) (a : Access) (f : Leaf) : Except TFault Loc :=
  let pa := leafPA f.e + va % 2 ^ pageBits f.lvl
  let k := leafKind f.e
  let perm := if a.row == .migrate then bits f.e 5 3 != 0
    else (!a.r || bits f.e 3 3 == 1) && (!a.w || bits f.e 4 4 == 1) && (!a.x || bits f.e 5 5 == 1)
  let reserved := k == 5 && a.w && decide (pl < 2) && pl2Within pa a.span
  if bits f.e 11 11 = 1 then .error .access
  else if leafPV f.e then
    if home pa = 65 then .error .absent
    else if home pa = 64 || !a.peer || leafPeer f.e == s.links.myPeer || !s.routeOk (leafPeer f.e) || !kindAdmits pl a.row k || !perm || reserved then
      .error .access
    else .ok ⟨pa, k, some (leafPeer f.e), leafMode f.e, pageBits f.lvl⟩
  else
    match s.target l pa with
    | .absent => .error .absent
    | .host => if a.host && kindAdmits pl a.row k && perm then .ok ⟨pa, k, none, false, pageBits f.lvl⟩ else .error .access
    | _ => if kindAdmits pl a.row k && perm && !reserved then .ok ⟨pa, k, none, false, pageBits f.lvl⟩ else .error .access

/-- The heap window (05 R115): kind normal, R and W, not X. -/
def State.heap (s : State) (l : Nat) (c : Ctx) (va : Nat) (a : Access) : Except TFault Loc :=
  let o := va - c.heapBase.toNat
  let geom := c.heapGeom.toNat
  let sh := bits geom 18 13
  let first := bits geom 5 0
  let n := o / 2 ^ sh
  let w := c.heapOff.toNat + o % 2 ^ sh
  if a.row == .fetch then .error .access
  else if bits geom 12 6 ≤ n ∨ 63 < first + n then .error .heap
  else if s.cap l (first + n) ≤ w then .error .absent
  else if kindAdmits c.pl a.row 0 then .ok ⟨(first + n) * 0x1000000000 + w, 0, none, false, 17⟩
  else .error .access

/-- Whether an address lies in the heap window (05 R114). -/
def Ctx.inHeap (c : Ctx) (va : Nat) : Bool := decide (c.heapBase.toNat ≤ va) && decide (va < c.heapLim.toNat)

/-- Translate(va) for an access of a context at a landing (00 R7, 05 R114). -/
def State.translate (s : State) (l ctx va : Nat) (a : Access) : Except TFault (Loc × State) :=
  let c := s.ctx ctx
  if 2 ^ 56 ≤ va then .error .access
  else if c.inHeap va then
    match s.heap l c va a with
    | .ok x => .ok (x, s)
    | .error e => .error e
  else
    match s.leafFor l ctx va a.writes with
    | .error e => .error e
    | .ok (f, s') =>
      match s.leafAccess l c.pl va a f with
      | .ok x => .ok (x, s')
      | .error e => .error e

/-- The accesses of instructions, by code and row (17 R443, Tables 5-1 and 19-2). -/
def accLoad : Access := ⟨0, .plain, true, false, false, false, true, false, 1⟩
/-- LD.L, which names no peer module. -/
def accLoadL : Access := ⟨0, .plain, true, false, false, false, true, false, 1⟩
/-- ST. -/
def accStore : Access := ⟨1, .plain, false, true, false, true, true, false, 1⟩
/-- ATOM and ATOM.CAS. -/
def accAtom : Access := ⟨2, .atomic, true, true, false, true, true, false, 1⟩
/-- CWAIT, which reads (19 R378). -/
def accCwait : Access := ⟨2, .atomic, true, true, false, false, true, false, 1⟩
/-- TLD. -/
def accTld : Access := ⟨0, .atomic, true, false, false, false, true, false, 1⟩
/-- TST. -/
def accTst : Access := ⟨1, .atomic, false, true, false, true, true, false, 1⟩
/-- HLOAD and tensor index reads: a peer target raises the access fault (12 R301). -/
def accIndex : Access := ⟨0, .atomic, true, false, false, false, false, false, 1⟩
/-- HLOAD, which executes at the address's home (12 R303). -/
def accHload : Access := ⟨0, .atomic, true, false, false, false, true, false, 1⟩
/-- CFILL. -/
def accCfill : Access := ⟨0, .atomic, true, false, false, false, true, false, 1⟩
/-- ST.P, its counter, and RED.P. -/
def accPost : Access := ⟨3, .posted, false, true, false, true, true, false, 1⟩
/-- RED.K. -/
def accKeyed : Access := ⟨3, .keyed, false, true, false, true, true, false, 1⟩
/-- PUBLISH: Table 19-2 names no permission for it, and none is asked (log entry 22). -/
def accPublish : Access := ⟨3, .publish, false, false, false, false, true, false, 1⟩
/-- COPY source. -/
def accCopySrc : Access := ⟨4, .copy, true, false, false, false, true, true, 1⟩
/-- COPY destination. -/
def accCopyDst : Access := ⟨4, .copy, false, true, false, true, true, true, 1⟩
/-- COPY.S destination. -/
def accCopyS : Access := ⟨4, .copyS, false, true, false, true, true, false, 1⟩
/-- REDCLOSE pages: kind keyed (09 R238). Table 19-2 has no row for them: W is asked, and a page of a peer module raises the
access fault (log entry 95). -/
def accClose : Access := ⟨4, .keyed, false, true, false, true, false, false, 1⟩
/-- Matrix and merge-network reads: peer and host targets raise the access fault (11 R275, 12 R307). -/
def accEngR : Access := ⟨4, .copy, true, false, false, false, false, false, 1⟩
/-- Matrix and merge-network writes. -/
def accEngW : Access := ⟨4, .copy, false, true, false, true, false, false, 1⟩
/-- QPUSH. -/
def accQueue : Access := ⟨2, .queue, true, true, false, true, true, false, 1⟩
/-- QPOP, which reads the queue's elements (19 R378). -/
def accQpop : Access := ⟨2, .queue, true, true, false, false, true, false, 1⟩
/-- BAR.WAIT, which reads (19 R378). -/
def accBarWait : Access := ⟨2, .object, true, true, false, false, true, false, 1⟩
/-- Barrier objects. -/
def accBar : Access := ⟨2, .object, true, true, false, true, true, false, 1⟩
/-- PARK. -/
def accPark : Access := ⟨1, .object, true, true, false, true, true, false, 1⟩
/-- WAKE: a peer-module address raises the access fault (09 R243). -/
def accWake : Access := ⟨2, .object, true, true, false, true, false, false, 1⟩
/-- MIGRATE. -/
def accMigrate : Access := ⟨0, .migrate, false, false, false, false, true, false, 1⟩
/-- Instruction fetch and manifest-table reads. -/
def accFetch : Access := ⟨5, .fetch, false, false, true, false, false, false, 1⟩
/-- WSE writes of spill pages. -/
def accSpill : Access := ⟨6, .spill, false, true, false, true, false, false, 1⟩
/-- WSE reads of spill pages. -/
def accRefill : Access := ⟨7, .spill, true, false, false, false, false, false, 1⟩

/-- The lanes of an instruction after translation: each lane's location, the lanes that fail check 5 with the
cause of the lowest, and those with a missing page or table (09 R227). -/
structure Lanes where
  ok : List (Nat × Loc)
  refused : List (Nat × TFault)
  missing : List (Nat × Nat)
  s : State

/-- Translate each lane's address in turn (09 R227 checks 5 and 6). -/
def State.translateLanes (s : State) (l ctx : Nat) (a : Access) : List (Nat × Nat) → Lanes
  | [] => ⟨[], [], [], s⟩
  | (i, va) :: rest =>
    match s.translate l ctx va a with
    | .ok (x, s') =>
      let r := s'.translateLanes l ctx a rest
      { r with ok := (i, x) :: r.ok }
    | .error (.missing lv) =>
      let r := s.translateLanes l ctx a rest
      { r with missing := (i, lv) :: r.missing }
    | .error e =>
      let r := s.translateLanes l ctx a rest
      { r with refused := (i, e) :: r.refused }

end Sys2Proof.Machine
end

