-- ==== Sys2Proof/Machine/Faults.lean ====
section
/-! DEFINITION. Tokens, fault records and the fault queue of a landing (19 R381 to R383, R387). -/

namespace Sys2Proof.Machine

/-- Bytes 28 to 31 of an image header: original group id, sibling index, split depth (Table 2-2). -/
def Group.lineage (g : Group) : Nat := g.orig % 65536 + 65536 * (g.sib % 32) + 2097152 * (g.sdepth % 2048)

/-- The 64 bytes of a fault record (Table 19-5). -/
def FaultRec.bytes (r : FaultRec) : List Byte :=
  toBytes 8 r.ft ++ toBytes 2 r.ctx ++ toBytes 1 r.kind ++ toBytes 1 (r.access % 16 + 16 * (r.level % 16)) ++
    toBytes 3 r.token ++ toBytes 1 (r.core % 32) ++ toBytes 8 r.va ++ toBytes 4 r.lineage ++ toBytes 2 r.team ++
    toBytes 1 r.rank ++ [0] ++ toBytes 4 r.lanes.toNat ++ toBytes 4 r.slcount ++ toBytes 8 r.aux ++ toBytes 16 0

/-- The fault queue has room for a record (19 R387). -/
def FaultQueue.room (q : FaultQueue) : Bool :=
  let n := bits q.size.toNat 4 0
  n != 0 && decide ((q.tail - q.head).toNat < 2 ^ n)

/-- Write one record at the tail of the queue. -/
def State.writeRecord (s : State) (l : Nat) (r : FaultRec) : State :=
  let q := (s.landing l).fq
  let n := bits q.size.toNat 4 0
  let a := q.base.toNat + 64 * (q.tail.toNat % 2 ^ n)
  let s' := if (s.target l a).isMemory then s.store a r.bytes false else s
  s'.modLanding l fun x => { x with fq := { x.fq with tail := x.fq.tail + 1, posted := x.fq.posted + 1 } }

/-- SLCOUNT of a record: the side-log parts under its token as it is written (Table 19-5). -/
def Landing.partsUnder (x : Landing) (token : Nat) : Nat :=
  if token = 0 then 0 else (x.side.filter fun p => p.token == some token).length

/-- Write held records in order while there is room (19 R387). The fuel is the number held. -/
def State.drainHeld (s : State) (l : Nat) : Nat → State
  | 0 => s
  | n + 1 =>
    let q := (s.landing l).fq
    match q.held with
    | [] => s
    | r :: rest =>
      if q.room then
        State.drainHeld ((s.modLanding l fun x => { x with fq := { x.fq with held := rest } }).writeRecord l
          { r with slcount := max r.slcount ((s.landing l).partsUnder r.token) }) l n
      else s

/-- Post a record: written when there is room, held otherwise (19 R387). -/
def State.post (s : State) (l : Nat) (r : FaultRec) : State :=
  let q := (s.landing l).fq
  if q.held.isEmpty && q.room then s.writeRecord l r
  else s.modLanding l fun x => { x with fq := { x.fq with held := x.fq.held ++ [r] } }

/-- A new record can be taken: fewer than 64 are held and fewer than 4,096 tokens live (19 R381, R387). -/
def State.canPost (s : State) (l : Nat) : Bool :=
  decide ((s.landing l).fq.held.length < 64) && decide ((s.landing l).tokens.length < 4096)

/-- A sequence number that is not 0 and that no live token holds: the first free one from the free value on
(19 R381; log entry 15). -/
def State.freshSeq (s : State) (l : Nat) : Nat :=
  let used := (s.landing l).tokens.map fun t => t.token % 262144
  ((List.range 4097).map fun i => (Config.tokenSeq s.steps + i) % 262143 + 1).find? (fun q => !used.contains q)
    |>.getD 1

/-- The live token of kind 0 or 1 that a missing page of a context joins (19 R381). -/
def State.joinable (s : State) (l ctx va : Nat) : Option Live :=
  (s.landing l).tokens.find? fun t => decide (t.kind ≤ 1) && t.ctx == ctx && t.va / 0x20000 == va / 0x20000

/-- A record for an event of a group's lineage, before its token. -/
def Group.faultRec (g : Group) (ft kind access level va : Nat) (lanes : Mask) (aux : Nat) : FaultRec :=
  { ft := ft, ctx := g.ctx, kind := kind, access := access, level := level, token := 0, core := g.core, va := va
    lineage := g.lineage, team := g.team, rank := g.rank, lanes := lanes, slcount := 0, aux := aux }

/-- ACCESS of a record whose event is no access: the spec states no code for it (Table 19-5; log entry 30). -/
def freeAccess (steps : Nat) : Nat := Config.value steps 1905 % 8

/-- VA of a record of kind 6, for which the spec states no address (Table 19-5; log entry 30). -/
def freeVA (steps : Nat) : Nat := Config.value steps 1906 % 2 ^ 64

/-- Take a token for a record at a landing, joining a live one where R381 says so; none when no token or no room
for a record is free, and the instruction waits. `slcount` is recorded with the record. -/
def State.takeToken (s : State) (l : Nat) (r : FaultRec) : Option (Nat × State) :=
  match (if r.kind ≤ 1 then s.joinable l r.ctx r.va else none) with
  | some t => some (t.token, s)
  | none =>
    if s.canPost l then
      let t := l * 262144 + s.freshSeq l
      let s' := s.modLanding l fun x => { x with tokens := x.tokens ++ [⟨t, r.kind, r.ctx, r.va⟩] }
      some (t, s'.post l { r with token := t })
    else none

/-- Park a group in its landing's wait table under a new or joined token (19 R383). The instruction has no
effect; where no token is free the group waits at issue. -/
def State.parkOnToken (s : State) (g : Group) (r : FaultRec) : State :=
  match s.takeToken g.l r with
  | some (t, s') => s'.modGroup g.uid fun x => { x with wait := .token t }
  | none => s

/-- Park a group on the lowest lane with a missing page or table (09 R228, 19 R382). -/
def State.parkMissing (s : State) (g : Group) (access : Nat) (lanes : List (Nat × Nat)) (vas : List (Nat × Nat)) : State :=
  match lanes.head? with
  | none => s
  | some (i, lv) =>
    let va := ((vas.find? fun p => p.1 == i).map Prod.snd).getD 0
    s.parkOnToken g (g.faultRec (s.ftAt g.l) (if lv = 1 then 0 else 1) access lv va
      (maskOf fun j => lanes.any fun p => p.1 == j) 0)

end Sys2Proof.Machine
end

