-- ==== Sys2Proof/Machine/Image.lean ====
section
/-! DEFINITION. Context images and frame images as bytes (02 R38, R39, 03 R69), how they are read back, and the
checks of 02 R47. -/

namespace Sys2Proof.Machine

/-- A byte with its poison flag. -/
abbrev FByte := Byte × Bool

/-- Bytes of a number with one flag. -/
def flagged (n x : Nat) (p : Bool) : List FByte := (toBytes n x).map fun b => (b, p)

/-- The form code of R39. -/
def formCode (r : Option VReg) : Nat :=
  match r with
  | none => 0
  | some r => match r.val with | .u _ => 1 | .a _ _ => 2 | .g _ => 3

/-- A number with a bit for each position where a test holds. -/
def bitsOf (n : Nat) (f : Nat → Bool) : Nat := (List.range n).foldl (fun a i => if f i then a + 2 ^ i else a) 0

/-- The data bytes of a register in its form (R39); a poisoned lane's bytes are flagged. -/
def VReg.data (r : VReg) : List FByte :=
  match r.val with
  | .u x => flagged 4 x.toNat (r.poison != 0)
  | .a b s => flagged 4 b.toNat (r.poison != 0) ++ flagged 4 s.toNat (r.poison != 0)
  | .g xs => (List.range 32).flatMap fun i => flagged 4 (xs.getD i 0).toNat (r.bad i)

/-- The register section of a frame (R39). -/
def Frame.section (f : Frame) : List FByte :=
  let present := f.v.filterMap id
  flagged 16 ((List.range 64).foldl (fun a i => a + formCode (f.reg? i) * 4 ^ i) 0) false ++
    present.flatMap VReg.data ++
    flagged 8 (bitsOf 64 fun i => ((f.reg? i).map fun r => r.poison != 0).getD false) false ++
    (present.filter fun r => r.poison != 0).flatMap (fun r => flagged 4 r.poison.toNat false) ++
    (f.p.filterMap id).flatMap (fun p => flagged 4 p.toNat false) ++
    (f.h.filterMap id).flatMap (fun h => flagged 32 h.toNat false)

/-- Masks of the present predicates, handles and registers. -/
def Frame.pmask (f : Frame) : Nat := bitsOf 8 fun i => i != 0 && (f.p.getD i none).isSome
/-- HMASK. -/
def Frame.hmask (f : Frame) : Nat := bitsOf 8 fun i => (f.h.getD i none).isSome
/-- The shipped-register mask. -/
def Frame.vmask (f : Frame) : Nat := bitsOf 64 fun i => (f.reg? i).isSome

/-- A token has a copy that is still under way and was not dropped (05 R138, 02 R37). -/
def State.outstanding (s : State) (t : Token) : Bool := !t.dropped && t.copies.any fun i => s.copies.any fun c => c.id == i

/-- The tokens outstanding in a frame. -/
def State.kmask (s : State) (f : Frame) : Nat := bitsOf 8 fun i => s.outstanding (f.k.getD i Token.complete)

/-- Pad with zeros to a multiple of 64 bytes. -/
def pad64 (bs : List FByte) : List FByte := bs ++ List.replicate ((64 - bs.length % 64) % 64) (0, false)

/-- The 64-byte header of a context image (Table 2-2). -/
def State.header (s : State) (g : Group) : List Byte :=
  toBytes 8 g.pc.toNat ++ toBytes 4 g.active.toNat ++ toBytes 4 g.exited.toNat ++ toBytes 8 g.frame.vmask ++
    toBytes 1 g.frame.pmask ++ toBytes 1 g.frame.hmask ++ toBytes 1 (s.kmask g.frame) ++
    toBytes 1 (bitsOf 5 fun i => [g.pinned, g.inTrap, g.sibling, g.urgent, g.armed].getD i false) ++
    toBytes 4 g.lineage ++
    toBytes 8 (g.team % 65536 + 2 ^ 16 * (g.rank % 256) + 2 ^ 24 * (g.anchor % 64) + 2 ^ 30 * (g.affL % 64) +
      2 ^ 36 * (g.affC % 32) + 2 ^ 41 * (g.cls % 4) + 2 ^ 43 * (g.tag % 65536)) ++
    toBytes 8 g.horizon ++ toBytes 8 g.lastFT ++ toBytes 4 g.gstatus.toNat ++
    toBytes 4 (g.frame.fsz % 128 + 128 * (g.depth % 65536))

/-- A context image: header and register section (R38, R39). -/
def State.image (s : State) (g : Group) : List FByte := (s.header g).map (·, false) ++ g.frame.section

/-- Bytes an image occupies in a wharf or a park area (R39). -/
def imageRoom (g : Group) : Nat := (64 + g.frame.section.length + 63) / 64 * 64

/-- The value of bytes `hi:lo` positions of a list. -/
def num (bs : List Byte) (off n : Nat) : Nat := leBytes ((bs.drop off).take n)

/-- Read the registers of a section from its form vector: each register, and the bytes after them. -/
def readRegs (forms : Nat) : Nat → Nat → List Byte → List (Option Val) × List Byte
  | 0, _, bs => ([], bs)
  | k + 1, i, bs =>
    let (v, rest) : Option Val × List Byte :=
      match forms / 4 ^ i % 4 with
      | 0 => (none, bs)
      | 1 => (some (.u (BitVec.ofNat 32 (num bs 0 4))), bs.drop 4)
      | 2 => (some (.a (BitVec.ofNat 32 (num bs 0 4)) (BitVec.ofNat 32 (num bs 4 4))), bs.drop 8)
      | _ => (some (.g ((List.range 32).map fun j => BitVec.ofNat 32 (num bs (4 * j) 4))), bs.drop 128)
    let (vs, out) := readRegs forms k (i + 1) rest
    (v :: vs, out)

/-- Read one item of `n` bytes for each set bit of a mask, from bit `i` on. -/
def readItems (mask n : Nat) : Nat → Nat → List Byte → List (Option Nat) × List Byte
  | 0, _, bs => ([], bs)
  | k + 1, i, bs =>
    if mask / 2 ^ i % 2 = 1 then
      let (xs, out) := readItems mask n k (i + 1) (bs.drop n)
      (some (num bs 0 n) :: xs, out)
    else
      let (xs, out) := readItems mask n k (i + 1) bs
      (none :: xs, out)

/-- A register section read back: v registers, predicates, handles (R39). -/
def readSection (pmask hmask : Nat) (bs : List Byte) : List (Option VReg) × List (Option Mask) × List (Option (BitVec 256)) :=
  let forms := num bs 0 16
  let (vals, rest) := readRegs forms 64 0 (bs.drop 16)
  let pp := num rest 0 8
  let (pois, rest) := readItems pp 4 64 0 (rest.drop 8)
  let (ps, rest) := readItems (pmask / 2 * 2) 4 8 0 rest
  let (hs, _) := readItems hmask 32 8 0 rest
  ((vals.zip pois).map fun (v, p) => v.map fun x => ⟨x, BitVec.ofNat 32 (p.getD 0)⟩,
    ps.map fun p => p.map (BitVec.ofNat 32), hs.map fun h => h.map (BitVec.ofNat 256))

/-- Length in bytes of a register section, from its own form vector, poison mask and presence masks (R39). -/
def sectionLen (pmask hmask : Nat) (bs : List Byte) : Nat :=
  let forms := num bs 0 16
  let data := ((List.range 64).map fun i => [0, 4, 8, 128].getD (forms / 4 ^ i % 4) 0).sum
  let pois := num bs (16 + data) 8
  let count (m n : Nat) := ((List.range n).filter fun i => m / 2 ^ i % 2 == 1).length
  16 + data + 8 + 4 * count pois 64 + 4 * count (pmask / 2 * 2) 8 + 32 * count hmask 8

/-- Length in bytes of an image, from its header and section (R39). -/
def imageLen (bs : List Byte) : Nat := 64 + sectionLen (num bs 24 1) (num bs 25 1) (bs.drop 64)

/-- The context an image describes, with identity `uid`, at a landing, in context `ctx` (R38, R39). `toks` are the
copies of its tokens. Bit 0 of its pc is 0 (06 R147). Its frame's table, caller link and entered flag, its GMODE and split base are read from the
control block (03 R72). -/
def imageGroup (uid ctx l : Nat) (toks : List (List Nat)) (bs : List Byte) : Group :=
  let fl := num bs 27 1
  let id := num bs 28 4
  let t := num bs 32 8
  let (v, p, h) := readSection (num bs 24 1) (num bs 25 1) (bs.drop 64)
  let fd := num bs 60 4
  { uid := uid, ctx := ctx, l := l, core := 0, berth := 0, pc := BitVec.ofNat 64 (num bs 0 8 / 2 * 2)
    active := BitVec.ofNat 32 (num bs 8 4), exited := BitVec.ofNat 32 (num bs 12 4)
    pinned := fl.testBit 0, inTrap := fl.testBit 1, sibling := fl.testBit 2, urgent := fl.testBit 3
    armed := fl.testBit 4, orig := bits id 15 0, sib := bits id 20 16, sdepth := bits id 31 21
    team := bits t 15 0, rank := bits t 23 16, anchor := bits t 29 24, origin := none, affL := bits t 35 30, affC := bits t 40 36
    cls := bits t 42 41, tag := bits t 58 43, horizon := num bs 40 8, lastFT := num bs 48 8
    gstatus := BitVec.ofNat 32 (num bs 56 4), gmode := 0, depth := bits fd 22 7, sb := none
    frame := { Frame.fresh with
      fsz := bits fd 6 0, v := v, p := p, h := h
      k := (List.range 8).map fun i =>
        if num bs 26 1 / 2 ^ i % 2 = 1 then ⟨toks.getD i [], false⟩ else Token.complete }
    older := [], wait := .none, wse := .none, progIdx := 0, satisfied := 0, mark := none, pend := none, hold := []
    la := [], carried := none, asked := [], watch := [], lastCopy := none, progress := [], busy := false, ftoken := none, flush := none, block := .none }

/-- The team record that a context's team id, launch tag and context name. -/
def State.team? (s : State) (ctx tag team : Nat) : Option Team :=
  s.teams.find? fun t => t.ctx == ctx && t.tag == tag && t.team == team

/-- A rank's lineage still holds a lane that the anchor counts as not exited. -/
def Team.rankLive (t : Team) (r : Nat) : Bool := decide (r < t.groups) && t.exited.getD r (-1) != -1

/-- The first check of R47 that an image fails, numbered from 1. `inTrapOk` leaves check 5 out (17 R365). -/
def State.imageCheck (s : State) (ctx : Nat) (inTrapOk : Bool) (bs : List Byte) : Option Nat :=
  let g := imageGroup 0 ctx 0 [] bs
  let fd := num bs 60 4
  let forms := num bs 64 16
  let data := ((List.range 64).map fun i => [0, 4, 8, 128].getD (forms / 4 ^ i % 4) 0).sum
  let pois := num bs (80 + data) 8
  let team := s.team? ctx g.tag g.team
  let present := bitsOf 64 fun i => forms / 4 ^ i % 4 != 0
  if num bs 27 1 / 32 ≠ 0 ∨ num bs 32 8 / 2 ^ 59 ≠ 0 ∨ fd / 2 ^ 23 ≠ 0 ∨ g.frame.fsz % 8 ≠ 0 ∨ g.frame.fsz < 8 ∨
      64 < g.frame.fsz ∨ num bs 24 1 % 2 = 1 ∨ num bs 16 8 / 2 ^ g.frame.fsz ≠ 0 then some 1
  else if !(team.map fun t => t.anchor == g.anchor && t.rankLive g.rank).getD false then some 2
  else if (team.map Team.cls).getD 0 < g.cls then some 3
  else if g.urgent != (g.cls == 3) then some 4
  else if g.inTrap && !inTrapOk then some 5
  else if present ≠ num bs 16 8 ∨ (pois &&& num bs 16 8) ≠ pois then some 6
  else none

/-- The sixteen bytes of a frame header (Table 3-9), where the frame resumes at `pc`. -/
def Frame.header (f : Frame) (pc : DWord) (kout : Nat) : List Byte :=
  let moff := ((f.table.getD 0 - (pc &&& ~~~0xF#64)).sshiftRight 4).toNat
  toBytes 8 ((if f.table.isSome then 1 else 0) + (pc.toNat % 2 ^ 56) / 2 * 2 + 2 ^ 56 * ((f.fsz / 8 + 7) % 8) +
      (if f.cp then 2 ^ 59 else 0)) ++
    toBytes 4 (if f.table.isSome then moff else 0) ++
    toBytes 4 (f.cseg % 32 + 32 * (f.coff % 2 ^ 19) + 2 ^ 24 * kout)

/-- The record of an older frame was lost to an uncorrectable error in the window store (21 R413), which its size, 0, says (log entry 81). -/
def Frame.lost (f : Frame) : Bool := f.fsz == 0

/-- The presence word (R69). -/
def Frame.word (f : Frame) : Nat :=
  f.pmask + 256 * f.hmask + (if f.tp then 65536 else 0) + (if f.entered then 131072 else 0)

/-- The image of a frame (R69), padded to 64 bytes. The overlap of a frame that is not current is held by its
callee, so its registers are absent here, unless TP is set. A frame record that is lost leaves a lost header (21 R413). -/
def Frame.image (f : Frame) (kout : Nat) : List FByte :=
  pad64 ((f.header f.resumePC kout).map (·, f.lost) ++ flagged 4 f.word false ++ f.section)

/-- Give a frame what a header and presence word say of it: size, table, caller link, resume PC, TP, ENT. -/
def Frame.withHeader (f : Frame) (bs : List Byte) : Frame :=
  let w0 := num bs 0 8
  let w1 := num bs 8 8
  let pc : DWord := BitVec.ofNat 64 (w0 % 2 ^ 56 / 2 * 2)
  let pw := num bs 16 4
  let moff : DWord := (BitVec.ofNat 32 (bits w1 31 0)).signExtend 64
  { f with
    fsz := 8 * (bits w0 58 56 + 1), resumePC := pc
    table := if w0 % 2 = 1 then some ((pc &&& ~~~0xF#64) + 16 * moff) else none
    cp := bits w0 59 59 == 1, cseg := bits w1 36 32, coff := bits w1 55 37
    tp := bits pw 16 16 == 1, entered := bits pw 17 17 == 1 }

/-- A frame read from its image (R69, R72). -/
def readFrame (toks : List (List Nat)) (bs : List Byte) : Frame :=
  let pw := num bs 16 4
  let (v, p, h) := readSection (bits pw 7 0) (bits pw 15 8) (bs.drop 20)
  let kout := num bs 15 1
  Frame.withHeader { Frame.fresh with
    v := v, p := p, h := h
    k := (List.range 8).map fun i => if kout / 2 ^ i % 2 = 1 then ⟨toks.getD i [], false⟩ else Token.complete } bs

/-- Length of a frame image, from its presence word and form vector, padded. -/
def frameImageLen (bs : List Byte) : Nat :=
  (20 + sectionLen (num bs 16 1) (num bs 17 1) (bs.drop 20) + 63) / 64 * 64

/-- A frame image whose header or form vector is damaged: a reserved bit, or a register beyond F (R67, R76). -/
def frameDamaged (bs : List Byte) : Bool :=
  let w0 := num bs 0 8
  let forms := num bs 20 16
  w0 / 2 ^ 60 != 0 || num bs 16 4 / 2 ^ 18 != 0 || num bs 16 4 % 2 != 0 || forms / 4 ^ (8 * (bits w0 58 56 + 1)) != 0

/-- Poison the lanes of a register whose bytes, from offset `off` of an image, lie in a failed line (R76). -/
def VReg.poisonBy (r : VReg) (off : Nat) (failed : Nat → Bool) : VReg :=
  { r with poison := r.poison ||| maskOf fun i =>
      match r.val with
      | .u _ => failed off
      | .a _ _ => failed off || failed (off + 4)
      | .g _ => failed (off + 4 * i) }

/-- Poison the registers of a frame image by its failed bytes, register data from offset `off` on (R76). -/
def poisonRegs (failed : Nat → Bool) : Nat → List (Option VReg) → List (Option VReg)
  | _, [] => []
  | off, none :: rs => none :: poisonRegs failed off rs
  | off, some r :: rs => some (r.poisonBy off failed) :: poisonRegs failed (off + r.data.length) rs

end Sys2Proof.Machine
end

