-- ==== Sys2Proof/Machine/Window.lean ====
section
/-! DEFINITION. The window spill engine (03 R66 to R79): segments and cursors, a spill, a refill, the control
block written at sealing and read at admission. -/

namespace Sys2Proof.Machine

/-- log2 of a context's segment size (R66). -/
def Ctx.segBits (c : Ctx) : Nat := c.spillSeg.toNat

/-- GSPILL of R66. -/
def Ctx.gspill (c : Ctx) (team rank : Nat) : Nat :=
  (c.spillArea.toNat + (team * 128 + rank) * 32 * 2 ^ c.segBits) % 2 ^ 64

/-- SPILLBASE of a group's own segment (R66). -/
def State.spillBase (s : State) (g : Group) : Nat :=
  ((s.ctx g.ctx).gspill g.team g.rank + g.sib * 2 ^ (s.ctx g.ctx).segBits) % 2 ^ 64

/-- SPILLLIM (R66). -/
def State.spillLim (s : State) (g : Group) : Nat := (s.spillBase g + 2 ^ (s.ctx g.ctx).segBits) % 2 ^ 64

/-- The cursor and shared limit of a segment, base + 64 until the WSE moves them (R68; log entry 7). -/
def State.seg (s : State) (ctx base : Nat) : Seg :=
  (s.segs.find? fun x => x.ctx == ctx && x.base == base).getD ⟨ctx, base, (base + 64) % 2 ^ 64, (base + 64) % 2 ^ 64⟩

/-- Replace a segment's record. -/
def State.setSeg (s : State) (x : Seg) : State :=
  { s with segs := x :: s.segs.filter fun y => !(y.ctx == x.ctx && y.base == x.base) }

/-- SPILLTOP (R66). -/
def State.spillTop (s : State) (g : Group) : Nat := (s.seg g.ctx (s.spillBase g)).cursor

/-- Bytes and poison written at a virtual address whose pages translate as given, sixteen bytes at a time, the
transfers apart. -/
def State.layWords (s : State) (loc : Nat → Nat) : Nat → Nat → List FByte → State
  | 0, _, _ => s
  | k + 1, va, bs =>
    if bs.isEmpty then s
    else
      let w := bs.take 16
      (s.lay (loc va) (w.map Prod.fst) (w.any Prod.snd)).layWords loc k (va + 16) (bs.drop 16)

/-- One write of bytes and poison at a virtual address whose pages translate as given, `k` words of sixteen. -/
def State.putWords (s : State) (loc : Nat → Nat) (k va : Nat) (bs : List FByte) : State :=
  (s.beats ((List.range (min k ((bs.length + 15) / 16))).map fun i => (loc (va + 16 * i), min 16 (bs.length - 16 * i))) true).layWords loc k va bs

/-- Translate the page or pages of a run of bytes; the offending address when a page fails (R75). -/
def State.pagesOf (s : State) (l ctx : Nat) (a : Access) (va n : Nat) : Except (Nat × TFault) ((Nat → Nat) × State) :=
  match s.translate l ctx va a with
  | .error e => .error (va, e)
  | .ok (x, s1) =>
    let last := va + n - 1
    if last / 2 ^ x.pageBits = va / 2 ^ x.pageBits then .ok (fun v => x.pa + (v - va), s1)
    else
      let next := (va / 2 ^ x.pageBits + 1) * 2 ^ x.pageBits
      match s1.translate l ctx next a with
      | .error e => .error (next, e)
      | .ok (y, s2) => .ok (fun v => if v < next then x.pa + (v - va) else y.pa + (v - next), s2)

/-- The record of a WSE access that fails: a missing page or table, or an access refused (R75, Table 19-4). -/
def State.wseRecord (s : State) (g : Group) (a : Access) (va : Nat) (e : TFault) : FaultRec :=
  match e with
  | .missing lv => g.faultRec (s.ftAt g.l) (if lv = 1 then 0 else 1) a.code lv va g.active 0
  | _ => g.faultRec (s.ftAt g.l) 2 a.code 0 va g.active 0

/-- A record of kind 3, spill room exhausted; VA is SPILLLIM (Table 19-4). -/
def State.roomRecord (s : State) (g : Group) : FaultRec :=
  g.faultRec (s.ftAt g.l) 3 6 0 (s.spillLim g) g.active 0

/-- The key of a frame image beside its virtual address, and of a context image beside its physical one. -/
def frameKey (va : Nat) : Nat := 2 * va
/-- The key of a context image at a physical address. -/
def imageKey (pa : Nat) : Nat := 2 * pa + 1

/-- Keep the copies of an image's tokens, and where its anchor is, beside it (R69, 02 R31); `block` says whether its control
block was written. -/
def State.keepToks (s : State) (ctx key uid : Nat) (origin : Option Nat) (f : Frame) (block : Bool) : State :=
  { s with tokSides := ⟨ctx, key, uid, origin, f.k.map Token.copies, block⟩ :: s.tokSides.filter fun t => !(t.ctx == ctx && t.key == key) }

/-- The copies of the tokens of the image kept at an address. -/
def State.toksAt (s : State) (ctx key : Nat) : List (List Nat) :=
  ((s.tokSides.find? fun t => t.ctx == ctx && t.key == key).map TokSide.toks).getD []

/-- The context whose image bytes lie at an address, as its landing takes it up: with the identity, the copies of its tokens
and the place of its anchor that are kept beside it, a fresh identity where none is kept; and whether its control block was
written. -/
def State.takeImage (s : State) (ctx key l : Nat) (bs : List Byte) : Group × Bool × State :=
  match s.tokSides.find? fun t => t.key == key with
  | some t =>
    let s1 := { s with tokSides := s.tokSides.filter fun k => k.key != key }
    let g (uid : Nat) : Group := { imageGroup uid ctx l t.toks bs with origin := t.origin }
    if t.uid = 0 then (g s.nextUid, t.block, { s1 with nextUid := s1.nextUid + 1 }) else (g t.uid, t.block, s1)
  | none => (imageGroup s.nextUid ctx l [] bs, true, { s with nextUid := s.nextUid + 1 })

/-- The bytes of the cursor and shared limit of a control block (Table 3-8). -/
def Seg.bytes (x : Seg) : List FByte := flagged 8 x.cursor false ++ flagged 8 x.limit false

/-- Give the newest resident frame newer than the oldest its caller link (Table 3-9). -/
def linkOldest (seg coff : Nat) : List Frame → List Frame
  | [] => []
  | [f] => [{ f with cp := true, cseg := seg, coff := coff }]
  | f :: fs => f :: linkOldest seg coff fs

/-- WINDOW_SPILL: write the oldest resident older frame at the cursor of the group's own segment, then advance
the cursor (R70, R71). A failure parks the group under a token, with nothing written (R75). -/
def State.spillOldest (s : State) (g : Group) : State :=
  match g.older.getLast? with
  | none => s
  | some f =>
    let base := s.spillBase g
    let x := s.seg g.ctx base
    let img := f.image (s.kmask f)
    if s.spillLim g < x.cursor + img.length then s.parkOnToken g (s.roomRecord g)
    else
      match s.pagesOf g.l g.ctx accSpill x.cursor img.length with
      | .error (va, e) => s.parkOnToken g (s.wseRecord g accSpill va e)
      | .ok (loc, s1) =>
        match s1.pagesOf g.l g.ctx accSpill base 64 with
        | .error (va, e) => s.parkOnToken g (s.wseRecord g accSpill va e)
        | .ok (cb, s2) =>
          let y := { x with cursor := x.cursor + img.length }
          let s3 := (s2.putWords loc (img.length / 16) x.cursor img).putWords cb 1 base y.bytes
          let coff := (x.cursor - base) / 64
          let s4 := ((s3.setSeg y).keepToks g.ctx (frameKey x.cursor) 0 none f true)
          let older := g.older.dropLast
          let g' := if older.isEmpty then
              { g with older := [], frame := { g.frame with cp := true, cseg := g.sib, coff := coff } }
            else { g with older := linkOldest g.sib coff older }
          s4.setGroup g'

/-- Where the caller's image of a group's current frame lies (R72). -/
def State.callerVA (s : State) (g : Group) : Nat :=
  ((s.ctx g.ctx).gspill g.team g.rank + g.frame.cseg * 2 ^ (s.ctx g.ctx).segBits + 64 * g.frame.coff) % 2 ^ 64

/-- Cursor and shared limit after a refill of the image at `x` in segment `seg` (R74); the failing address when the control
block's page does not translate (R75). -/
def State.reclaim (s : State) (g : Group) (seg x : Nat) : Except (Nat × TFault) State :=
  let base := ((s.ctx g.ctx).gspill g.team g.rank + seg * 2 ^ (s.ctx g.ctx).segBits) % 2 ^ 64
  let t := s.seg g.ctx base
  let t' : Seg :=
    if g.sibling then (if seg = g.sib ∧ t.limit ≤ x then { t with cursor := x } else t)
    else { t with cursor := x, limit := min t.limit x }
  if t' = t then .ok s
  else
    match s.pagesOf g.l g.ctx accSpill base 16 with
    | .error e => .error e
    | .ok (cb, s1) => .ok ((s1.putWords cb 1 base t'.bytes).setSeg t')

/-- The trap of a spill image error (R76): the image's address. -/
def spillImageError (va : Nat) : Trap := ⟨34, 0, BitVec.ofNat 64 va⟩

/-- Whether an aligned sixteen bytes hold an uncorrectable error, where their poison is not that of lanes of the image itself
(R76, 09 R229; log entry 29). -/
def Mem.lost (m : Mem) (pa : Nat) (own : Bool) : Bool :=
  m.bad.contains (pa / 16) || m.failR.contains (pa / 16) || (!own && m.poison.contains (pa / 16))

/-- REFILL: read the caller of the current frame from its image (R72, R74, R76). A fault parks the group under a
token; a damaged header or form vector leaves a spill image error pending. -/
def State.refill (s : State) (g : Group) : State :=
  let va := s.callerVA g
  match s.pagesOf g.l g.ctx accRefill va 64 with
  | .error (v, e) => s.parkOnToken g (s.wseRecord g accRefill v e)
  | .ok (loc, s1) =>
    let first := (List.range 64).map fun i => s1.mem.byte (loc (va + i))
    let damaged : State := (s1.touch (loc va) 64).modGroup g.uid fun x => { x with pend := some (spillImageError va), wse := .none }
    if s1.mem.lost (loc va) false || s1.mem.lost (loc (va + 16)) false || frameDamaged first then damaged
    else
      match s1.pagesOf g.l g.ctx accRefill va (frameImageLen first) with
      | .error (v, e) => s.parkOnToken g (s.wseRecord g accRefill v e)
      | .ok (loc, s2) =>
        let n := frameImageLen ((List.range 9000).map fun i => s2.mem.byte (loc (va + i)))
        match s2.pagesOf g.l g.ctx accRefill va n with
        | .error (v, e) => s.parkOnToken g (s.wseRecord g accRefill v e)
        | .ok (loc, s3) =>
          let f := readFrame (s3.toksAt g.ctx (frameKey va)) ((List.range n).map fun i => s3.mem.byte (loc (va + i)))
          let own := f.image 0
          let lost (k : Nat) : Bool := s3.mem.lost (loc (va + 16 * k)) (((own.drop (16 * k)).take 16).any Prod.snd)
          if lost 2 then damaged
          else
            let failed (off : Nat) := (List.range 4).any fun j => lost (off / 64 * 4 + j)
            let f' := { f with v := poisonRegs failed 36 f.v }
            match (s3.touch (loc va) n).reclaim g g.frame.cseg va with
            | .error (v, e) => s.parkOnToken g (s.wseRecord g accSpill v e)
            | .ok s4 => s4.modGroup g.uid fun x => { x with older := x.older ++ [f'], wse := .none }

/-- The caller of the current frame, not resident, was made previous by trap entry, as the presence word of its image says
(R62, R69). -/
def State.callerTP (s : State) (g : Group) : Bool :=
  let va := s.callerVA g
  match s.pagesOf g.l g.ctx accRefill va 64 with
  | .error _ => false
  | .ok (loc, s1) =>
    let first := (List.range 64).map fun i => s1.mem.byte (loc (va + i))
    !(s1.mem.lost (loc va) false || s1.mem.lost (loc (va + 16)) false || frameDamaged first) && first.getD 18 0 % 2 == 1

/-- The control-block bytes written when a context is sealed (Table 3-8, R71): top record, SB, GMODE, TOPWORD. -/
def State.blockBytes (s : State) (g : Group) : List FByte :=
  let f := { g.frame with cp := decide (0 < g.depth) }
  (f.header g.pc (s.kmask f)).map (·, false) ++ flagged 2 (g.sb.getD 0xFFFF) false ++
    flagged 4 g.gmode.toNat false ++ flagged 4 f.word false ++ flagged 22 0 false

/-- Write the control block of a context that is being sealed; the failing address when its page does not
translate (R71, R75). -/
def State.writeBlock (s : State) (g : Group) : Except (Nat × TFault) State :=
  let base := s.spillBase g
  match s.pagesOf g.l g.ctx accSpill base 64 with
  | .error e => .error e
  | .ok (loc, s1) =>
    .ok (s1.putWords loc 4 base ((s1.seg g.ctx base).bytes ++ s1.blockBytes g))

/-- What admission reads from the control block: frame size stays the image's; table, caller link, entered flag and GMODE
come from the top record (R72), and so does SB while the sibling flag is 1 (R78). A merged group has all of these from
R79. -/
def Group.withBlock (g : Group) (bs : List Byte) : Group :=
  let f := Frame.withHeader g.frame (((bs.drop 16).take 16) ++ ((bs.drop 38).take 4))
  let sb := num bs 32 2
  if g.block = .merged then g
  else { g with
    frame := { f with fsz := g.frame.fsz, resumePC := g.frame.resumePC }
    sb := if sb = 0xFFFF ∨ !g.sibling then none else some sb
    gmode := BitVec.ofNat 32 (num bs 34 4) }

/-- Admission's read of the control block, and of the segment's cursor and limit as memory holds them (R72, R75). -/
def State.readBlock (s : State) (g : Group) : Except (Nat × TFault) (Group × State) :=
  let base := s.spillBase g
  match s.pagesOf g.l g.ctx accRefill base 64 with
  | .error e => .error e
  | .ok (loc, s1) =>
    let bs := (List.range 64).map fun i => s1.mem.byte (loc (base + i))
    let s2 := s1.touch (loc base) 64
    if s1.mem.unreadable (loc base) 64 then .error (base, .access)
    else .ok (g.withBlock bs, s2.setSeg ⟨g.ctx, base, num bs 0 8, num bs 8 8⟩)

/-- The cursor and limit of a group's segment as memory holds them, where its control block can be read: system software may
have written them while a WSE fault held the group (R67). -/
def State.rereadSeg (s : State) (g : Group) : State :=
  let base := s.spillBase g
  match s.pagesOf g.l g.ctx accRefill base 16 with
  | .error _ => s
  | .ok (loc, s1) =>
    if s1.mem.unreadable (loc base) 16 then s
    else (s1.touch (loc base) 16).setSeg ⟨g.ctx, base, s1.mem.num (loc base) 8, s1.mem.num (loc base + 8) 8⟩

/-- W of R63: the padded lengths of the resident frames other than the current one. -/
def Group.olderBytes (g : Group) : Nat := (g.older.map fun f => (f.image 0).length).sum

end Sys2Proof.Machine
end

