-- ==== Sys2Proof/Machine/Park.lean ====
section
/-! DEFINITION. The park area (17 R360 to R362): the pool as a chain of records in memory, allocation, release and
the record layout. -/

namespace Sys2Proof.Machine

/-- A park record's fields (Table 17-7). -/
structure ParkRec where
  ctx : Nat
  reason : Nat
  arrival : Bool
  fwait : Bool
  replayed : Bool
  reply : Bool
  progIdx : Nat
  cause : Nat
  ftoken : Nat
  info : Nat
  addr : Nat
  ft : Nat
  deriving DecidableEq, Repr

/-- The 64 bytes of a VALID record whose range is `len` bytes (Table 17-7). -/
def ParkRec.bytes (r : ParkRec) (len : Nat) : List Byte :=
  toBytes 2 r.ctx ++ toBytes 1 r.reason ++
    toBytes 1 (1 + bitsOf 5 fun i => i != 0 && [false, r.arrival, r.fwait, r.replayed, r.reply].getD i false) ++
    toBytes 4 len ++ toBytes 2 r.progIdx ++ toBytes 1 r.cause ++ [0] ++ toBytes 4 r.ftoken ++ toBytes 8 r.info ++
    toBytes 8 r.addr ++ toBytes 8 r.ft ++ toBytes 24 0

/-- The fields of the record in 64 bytes (Table 17-7). -/
def ParkRec.read (bs : List Byte) : ParkRec :=
  let f := num bs 3 1
  { ctx := num bs 0 2, reason := num bs 2 1, arrival := f.testBit 1, fwait := f.testBit 2, replayed := f.testBit 3
    reply := f.testBit 4, progIdx := num bs 8 2, cause := num bs 10 1, ftoken := num bs 12 3, info := num bs 16 8
    addr := num bs 24 8, ft := num bs 32 8 }

/-- Physical address of a context's slice at a landing (R360). -/
def Ctx.slice (c : Ctx) (l : Nat) : Nat := l * 0x1000000000 + c.parkOff.toNat
/-- The first record of the pool. -/
def Ctx.poolBase (c : Ctx) (l : Nat) : Nat := c.slice l + 0x1000040
/-- The end of the slice. -/
def Ctx.sliceEnd (c : Ctx) (l : Nat) : Nat := c.slice l + 2 ^ c.parkSz.toNat

/-- A record of the chain: address, VALID, and length of its range; the last stands for the free space up to the
end of the slice. -/
structure Link where
  pa : Nat
  valid : Bool
  len : Nat
  deriving DecidableEq, Repr

/-- Follow the chain from an address (R361). Each record but the last has a byte that is not zero, so the number
of listed cells bounds the chain. -/
def Mem.chain (m : Mem) (stop : Nat) : Nat → Nat → List Link
  | 0, _ => []
  | n + 1, a =>
    if stop < a + 64 then []
    else
      let valid := (m.byte (a + 3)).getLsbD 0
      let len := m.num (a + 4) 4
      if !valid && len == 0 then [⟨a, false, stop - a - 64⟩]
      else ⟨a, valid, len⟩ :: m.chain stop n (a + 64 + (len + 63) / 64 * 64)

/-- The chain of a context's pool at a landing. -/
def State.pool (s : State) (c : Ctx) (l : Nat) : List Link :=
  s.mem.chain (c.sliceEnd l) (1 + s.mem.cells.length) (c.poolBase l)

/-- Write the pool header: the count of VALID records and the bytes they use (R360). -/
def State.poolHeader (s : State) (c : Ctx) (l : Nat) : State :=
  let v := (s.pool c l).filter Link.valid
  s.store (c.slice l + 0x1000000)
    (toBytes 4 v.length ++ toBytes 4 0 ++ toBytes 8 (v.map fun x => x.len + 64).sum ++ toBytes 48 0) false

/-- Mark an address as a free record of a length; length 0 ends the chain (R361). -/
def State.freeRecord (s : State) (a len : Nat) : State :=
  (s.store (a + 3) [0] false).store (a + 4) (toBytes 4 len) false

/-- Place a record and its image at the lowest free range that holds it (R361): the record's address, or none. -/
def State.placeImage (s : State) (c : Ctx) (l : Nat) (rec : Nat → List Byte) (img : List FByte) : Option (Nat × State) :=
  let p := pad64 img
  match (s.pool c l).find? fun x => !x.valid && decide (p.length ≤ x.len) with
  | none => none
  | some x =>
    let rest := x.len - p.length
    let own := if rest < 128 then x.len else p.length
    let last := x.pa + 64 + x.len = c.sliceEnd l
    let s1 := (s.store x.pa (rec own) false).putWords id (p.length / 16) (x.pa + 64) p
    let s2 := if 128 ≤ rest then s1.freeRecord (x.pa + 64 + own) (if last then 0 else rest - 64) else s1
    some (x.pa, s2.poolHeader c l)

/-- Join adjacent free ranges of a chain; the last free range reaches the end of the slice (R361). -/
def coalesce : List Link → List Link
  | [] => []
  | x :: xs =>
    match coalesce xs with
    | [] => [x]
    | y :: ys => if !x.valid && !y.valid then ⟨x.pa, false, x.len + 64 + y.len⟩ :: ys else x :: y :: ys

/-- Release records of a pool: clear VALID, coalesce, and write the free ranges (R361). -/
def State.releaseRecords (s : State) (c : Ctx) (l : Nat) (pas : List Nat) : State :=
  let ch := coalesce ((s.pool c l).map fun x => if pas.contains x.pa then { x with valid := false } else x)
  let s1 := pas.foldl (fun (t : State) a => t.store (a + 3) [0] false) s
  let s2 := (ch.filter fun x => !x.valid).foldl (fun (t : State) x =>
    t.freeRecord x.pa (if x.pa + 64 + x.len = c.sliceEnd l then 0 else x.len)) s1
  s2.poolHeader c l

/-- Give each image held at a landing whose park-area-exhausted record could not be posted its token and record, as far as
they are free (R361, 19 R381). -/
def State.postHeld (s : State) (l : Nat) : State :=
  (s.landing l).poolWait.foldl (fun (t : State) h =>
    if h.token ≠ 0 then t
    else
      let g := { imageGroup h.uid h.ctx l [] h.img with core := h.core }
      match t.takeToken l (g.faultRec (t.ftAt l) 6 (freeAccess t.steps) 0 (freeVA t.steps) 0 h.img.length) with
      | none => t
      | some (k, t1) => t1.modLanding l fun x => { x with poolWait := x.poolWait.map fun y => if y = h then { y with token := k } else y }) s

/-- Write an image with its record into a landing's pool; where no range holds it, post a park-area-exhausted
record and hold the image (R361). `notice` is the trap record that names the record's address (R357); `block` says whether the image's control block was written. -/
def State.parkImage (s : State) (l : Nat) (g : Group) (block : Bool) (r : ParkRec) (notice : Option FaultRec) : State :=
  let c := s.ctx g.ctx
  match s.placeImage c l r.bytes (s.image g) with
  | some (pa, s1) =>
    let s2 := s1.keepToks g.ctx (imageKey pa) g.uid g.origin g.frame block
    match notice with
    | some n => s2.post l { n with aux := pa }
    | none => s2
  | none =>
    (s.modLanding l fun x => { x with
      poolWait := x.poolWait ++ [⟨g.ctx, g.uid, g.core, g.origin, r.bytes 0, (s.image g).map Prod.fst, g.frame.k.map Token.copies, block, 0, notice⟩] }).postHeld l

/-- A held record as it is written: with its length, and FT as it then stands (Table 17-7). -/
def PoolHeld.bytes (h : PoolHeld) (ft len : Nat) : List Byte :=
  h.record.take 4 ++ toBytes 4 len ++ (h.record.drop 8).take 24 ++ toBytes 8 ft ++ h.record.drop 40

/-- Try again to place the images a landing holds, all or those under one token (R361, 19 R385). -/
def State.retryPool (s : State) (l : Nat) (only : Option Nat) : State :=
  (s.landing l).poolWait.foldl (fun (t : State) h =>
    if (only.map fun k => k == h.token).getD true then
      let c := t.ctx h.ctx
      match t.placeImage c l (h.bytes (t.ftAt l)) (h.img.map (·, false)) with
      | none => t
      | some (pa, t1) =>
        let t2 := t1.modLanding l fun x => { x with poolWait := x.poolWait.filter fun y => y != h }
        let t3 := { t2 with tokSides := ⟨h.ctx, imageKey pa, h.uid, h.origin, h.toks, h.block⟩ :: t2.tokSides.filter fun k => !(k.ctx == h.ctx && k.key == imageKey pa) }
        match h.notice with
        | some n => t3.post l { n with aux := pa }
        | none => t3
    else t) s

/-- Records of a pool are released, and the images held are placed where they now fit (R361). -/
def State.release (s : State) (c : Ctx) (l : Nat) (pas : List Nat) : State := (s.releaseRecords c l pas).retryPool l none

end Sys2Proof.Machine
end

