-- ==== Sys2Proof/Machine/Operands.lean ====
section
/-! DEFINITION. The operand forms of instructions: guard, LS, LA and length (06 R148 to R152), privileged uses
(06 R157, 17 R350), the part each instruction has in LA windows (02 R45), and the addresses of memory operands
(06 R158, 09 R224, R225). -/

namespace Sys2Proof.Machine

/-- A trap with small TRAPINFO and zero TRAPADDR. -/
def mkTrap (cause info : Nat) : Trap := ⟨cause, BitVec.ofNat 64 info, 0⟩

end Sys2Proof.Machine

namespace Sys2Proof

/-- The guard field of an instruction; SEL's selects and does not guard (06 R151, 07 R176). -/
def Instr.g4 (i : Instr) : BitVec 4 :=
  match i with
  | .sel _ => 0
  | i =>
    match i.fmt with
    | .c16 _ o => if o.g = 1 then 1 else 0
    | .a32 _ o => o.g
    | .i32 _ o => o.g
    | .i15 _ o => o.g
    | .b32 _ o => o.g
    | .t64 _ o => o.g
    | .m64 _ o => o.g
    | .l64 _ o => o.g
    | .j64 _ o => o.g
    | .event => 0

/-- LS of an instruction; 0 outside the X64 family (06 R152). -/
def Instr.ls (i : Instr) : Nat :=
  match i.fmt with
  | .t64 _ o => o.ls.toNat
  | .m64 _ o => o.ls.toNat
  | _ => 0

/-- LA of an instruction; 0 outside the X64 family (06 R152). -/
def Instr.la (i : Instr) : Nat :=
  match i.fmt with
  | .t64 _ o => o.la.toNat
  | .m64 _ o => o.la.toNat
  | _ => 0

/-- Bytes of an instruction. -/
def Instr.len (i : Instr) : Nat := (encode i).1

/-- The major of Table 6-6: 0 for C16. -/
def Instr.major (i : Instr) : Nat :=
  match i.fmt with
  | .c16 _ _ => 0
  | .a32 m _ => m
  | .i32 m _ => m
  | .i15 m _ => m
  | .b32 m _ => m
  | .t64 m _ => m
  | .m64 m _ => m
  | .l64 m _ => m
  | .j64 m _ => m
  | .event => 0

/-- The privileged-instruction trap of an instruction at PL0 (06 R157, 17 R350), with the ctl number of MFS, MTS. -/
def Instr.privTrap (i : Instr) (pl : Nat) : Option Machine.Trap :=
  if 1 ≤ pl then none
  else
    match i with
    | .mfs o => if !o.x && decide (o.regNum ≤ 4) then none else some (Machine.mkTrap 1 o.regNum)
    | .mts o => if !o.x && decide (o.regNum ≤ 1) then none else some (Machine.mkTrap 1 o.regNum)
    | .replay _ => some (Machine.mkTrap 1 0)
    | .replayPage _ => some (Machine.mkTrap 1 0)
    | .tlbinvPage _ => some (Machine.mkTrap 1 0)
    | .tlbinvCtx _ => some (Machine.mkTrap 1 0)
    | .tlbinvAll _ => some (Machine.mkTrap 1 0)
    | .parkctx _ => some (Machine.mkTrap 1 0)
    | .wakectx _ => some (Machine.mkTrap 1 0)
    | .wakectxGrp _ => some (Machine.mkTrap 1 0)
    | .idle _ => some (Machine.mkTrap 1 0)
    | _ => none

/-- What an instruction does to the LA windows open before it (02 R45): whether it depends on one by a register,
or is held by a synchronisation window, and the windows left. -/
structure LaKind where
  /-- Ends every window: a control transfer, JOIN, or what may split or cross. -/
  ends : Bool
  /-- A memory or engine instruction. -/
  mem : Bool
  /-- A long instruction: the v registers and predicates it writes, and whether it is FENCE, CWAIT or a barrier. -/
  long : Option (List Nat × List Nat × Bool)

/-- The handles among an instruction's uses that are not sources. -/
def Shape.handleWritten (sh : Shape) : List Nat :=
  sh.uses.flatMap fun u => if u.cls = .handle ∧ u.rd = false then [u.n] else []

/-- The v registers among an instruction's uses that are not sources. -/
def Shape.written (sh : Shape) : List Nat :=
  sh.uses.flatMap fun u =>
    match u.cls with
    | .v n => if u.rd then [] else (List.range n).map (u.n + ·)
    | _ => []

/-- The predicates among an instruction's uses that are not sources. -/
def Shape.predWritten (sh : Shape) : List Nat :=
  sh.uses.flatMap fun u => if u.cls = .pred ∧ u.rd = false then [u.n] else []

/-- Each instruction's part in LA windows (02 R45; 07 R172, 08 R202, 09 R223, 11 R278, 12 R304, R309). -/
def Instr.laKind (i : Instr) : LaKind :=
  let sh := i.shape
  match i.fmt with
  | .b32 _ _ => ⟨true, false, none⟩
  | .j64 maj _ => ⟨decide (maj = 6), false, none⟩
  | .i32 maj _ => ⟨decide (21 ≤ maj), false, none⟩
  | .a32 maj o => ⟨decide (maj = 20) && decide (o.fn.toNat ≤ 4), false, none⟩
  | .t64 maj o =>
    match maj with
    | 14 => ⟨false, true, some (sh.written, [], false)⟩
    | 15 =>
      if o.fn.toNat ≤ 1 then ⟨false, false, none⟩
      else if o.fn.toNat = 2 then ⟨false, true, none⟩
      else ⟨o.fn.toNat ≤ 4, true, some ((match o.fn.toNat with | 4 => [] | 6 => [o.d.toNat, o.d.toNat + 1] | _ => [o.d.toNat]), sh.predWritten, false)⟩
    | 16 => ⟨false, true, some (sh.written, [], false)⟩
    | 17 =>
      match o.fn.toNat with
      | 0 => ⟨false, true, some ([], sh.predWritten, true)⟩
      | 1 => ⟨false, true, some ([], [], true)⟩
      | 9 => ⟨false, true, some ([], [], true)⟩
      | 10 => ⟨false, true, some (sh.written, [], false)⟩
      | 12 => ⟨false, true, some (sh.written, [], false)⟩
      | _ => ⟨false, true, none⟩
    | 18 => ⟨decide (o.fn.toNat = 2), false, none⟩
    | _ => ⟨false, false, some (sh.written ++ (match i with | .cvtNarrow o => [o.d.toNat] | .planeSplit o => [o.d.toNat] | _ => []), sh.predWritten, false)⟩
  | .m64 maj o =>
    let f := o.fn.toNat
    let sync := decide (maj = 12) && decide (f ≤ 5)
    let ends := !(decide (maj = 11) || (decide (maj = 9) && decide (f = 1)) || (decide (maj = 8) && decide (f = 1)) ||
      (decide (maj = 12) && (f == 0 || f == 8)))
    ⟨ends, true, some (sh.written, sh.predWritten, sync)⟩
  | _ => ⟨false, false, none⟩

/-- Whether a C16 instruction writes a register of a window: BX-E03 leaves LAVIOL clear (Table 24-4). -/
def Instr.c16Writes (i : Instr) (regs : List Nat) : Bool :=
  match i.fmt with
  | .c16 _ o => regs.contains o.d.toNat
  | _ => false

/-- A floating-point instruction (08 R200): the majors whose LA counts as 0 while FXE is non-zero. -/
def Instr.isFp (i : Instr) : Bool :=
  match i.fmt with
  | .t64 maj o => (maj == 0 && (decide (o.fn.toNat ≤ 3) || o.fn.toNat == 8)) || maj == 1 || maj == 3 || maj == 4 || maj == 56
  | _ => false

end Sys2Proof

namespace Sys2Proof.Machine

/-- The address of a base register or pair in a lane: AF = 0 an aligned pair, AF = 1 the heap window's base plus a
register (06 R158). -/
def baseAddr (c : Ctx) (g : Group) (heap : Bool) (a lane : Nat) : Nat :=
  if heap then c.heapBase.toNat + (g.frame.lane a lane).toNat else (g.frame.pair a lane).toNat

/-- The registers an address operand reads. -/
def addrRegs (heap : Bool) (a : Nat) : List Nat := if heap then [a] else [a, a + 1]

/-- The virtual address of an M64 operand in a lane (06 R158). -/
def memAddr (c : Ctx) (g : Group) (o : M64) (lane : Nat) : Nat :=
  (baseAddr c g (o.af == 1) o.a.toNat lane +
    (2 ^ 64 - (if o.off.msb then (2 ^ 12 - o.off.toNat) * sizeBytes o.size else 0)) +
    (if o.off.msb then 0 else o.off.toNat * sizeBytes o.size)) % 2 ^ 64

/-- The addresses of an M64 operand in the lanes of a mask. -/
def memAddrs (c : Ctx) (g : Group) (o : M64) (act : Mask) : List (Nat × Nat) :=
  (lanesOf act).map fun i => (i, memAddr c g o i)

/-- The counter address of ST.P in a lane: its own AF, no offset (09 R224). -/
def ctrAddr (c : Ctx) (g : Group) (o : M64) (lane : Nat) : Nat :=
  baseAddr c g (o.af == 1) o.d.toNat lane % 2 ^ 64

end Sys2Proof.Machine
end

