-- ==== Sys2Proof/Machine/Ops.lean ====
section
/-! DEFINITION. The shared operations of the meanings: taking a trap (17 R353 to R357) and returning from one
(R359), sealing, splitting and crossing (02 R28 to R30, R36, R40), instruction fetch (06 R146, 01 R13), and
`issue`, which every instruction goes through (06 R160, 02 R37, R45, 03 R70). -/

namespace Sys2Proof.Machine

/-- What an instruction's own effect comes to. -/
inductive R where
  /-- It completes, or moves on: the state after it. -/
  | ok (s : State)
  /-- It traps; the state holds what its description leaves standing (17 R354). -/
  | trap (s : State) (t : Trap)
  /-- It waits with no effect of its own, and executes again. -/
  | wait (s : State)

/-- TRAPINFO with an access code and lanes, and TRAPADDR (Table 17-6, causes 6 to 10). -/
def laneTrap (cause code : Nat) (lanes : Mask) (addr : Nat) : Trap :=
  ⟨cause, BitVec.ofNat 64 (code + 2 ^ 32 * lanes.toNat), BitVec.ofNat 64 addr⟩

/-- The illegal-instruction trap of an instruction whose operand value is out of range (SUB 2; Table 6-6). -/
def illegalTrap (sub maj len : Nat) : Trap := mkTrap 0 (sub + 256 * maj + 65536 * lenCode len)

/-- The current group. -/
def State.curGroup (s : State) : Option Group := s.group? s.cur

/-- A group can issue: it waits on nothing and asks nothing of the WSE. -/
def Group.ready (g : Group) : Bool :=
  g.wse == .none && g.wait == .none

/-- Bring a group to a state in which its older frames are spilled: none when it is, else the state in which it
waits for the WSE (Table 3-10). -/
def State.needSealed (s : State) (g : Group) : Option State :=
  if g.older.isEmpty then none else some (s.modGroup g.uid fun x => { x with wse := .spillAll })

/-- Free a berth at once. -/
def State.leaveBerth (s : State) (g : Group) : State := s.dropGroup g.uid

/-- Trap park (17 R357): seal, write a park record with its image into the pool of the landing, free the berth,
post a record of kind 5. REASON 1, or 3 when trap entry failed. Waits while frames remain to be spilled, with the trap
`due` that was found pending, for a spill fault, or while no record can be posted. -/
def State.trapPark (s : State) (g : Group) (t due : Trap) (reason : Nat) : State :=
  match s.needSealed g with
  | some s' => s'.modGroup g.uid fun x => { x with pend := some due }
  | none =>
    if !s.canPost g.l then s
    else
      match s.writeBlock g with
      | .error (va, e) => s.parkOnToken g (s.wseRecord g accSpill va e)
      | .ok s1 =>
        let rec_ : ParkRec := ⟨g.ctx, reason, false, false, false, false, g.progIdx, t.cause, 0, t.info.toNat, t.addr.toNat, s.ftAt g.l⟩
        let note := g.faultRec (s.ftAt g.l) 5 (freeAccess s.steps) 0 g.pc.toNat 0 0
        (s1.leaveBerth g).parkImage g.l { g with pend := none } true rec_ (some note)

/-- A U register of a value. -/
def uReg (x : Word) : Option VReg := some ⟨.u x, 0⟩

/-- The frame that trap entry opens, with the trap record in v0 to v7 (17 R354). -/
def trapFrame (g : Group) (t : Trap) : Frame :=
  let words : List Word := [g.pc.setWidth 32, (g.pc >>> 32).setWidth 32,
    BitVec.ofNat 32 (t.cause + (if g.inTrap then 256 else 0)), g.gmode, t.info.setWidth 32, (t.info >>> 32).setWidth 32,
    t.addr.setWidth 32, (t.addr >>> 32).setWidth 32]
  { Frame.fresh with v := words.map uReg ++ List.replicate 56 none }

/-- The group after trap entry (17 R354, R355): the trapping frame becomes previous with TP set and resumes at the
trapping instruction; FXE and DEADTRAP are cleared; the pc is UTRAPVEC. What the trapping instruction kept while it waited
is gone, and so are LA windows, whose registers are the previous frame's (02 R45). -/
def Group.enterTrap (g : Group) (t : Trap) (vec : DWord) : Group :=
  { g with
    frame := trapFrame g t
    older := { g.frame with resumePC := g.pc, tp := true } :: g.older
    gmode := g.gmode &&& 0xFFFFFF03#32, inTrap := true, depth := g.depth + 1, pc := vec, pend := none, progIdx := 0
    la := [], carried := none, asked := [], mark := none, satisfied := 0, watch := [], busy := false, flush := none
    progress := if g.progIdx = 0 then g.progress else (g.depth, g.pc, g.progIdx) :: g.progress }

/-- Whether a cause is delivered by trap entry (17 R353). -/
def Ctx.entersTrap (c : Ctx) (cause : Nat) : Bool :=
  c.utrapVec != 0 && ((decide (1 ≤ c.pl) && cause != 37) || (c.pl == 0 && c.trapDeleg.getLsbD cause))

/-- Trap entry (17 R354, R356): where no frame can be opened the trap is parked with cause 37; where spill room
fails the group parks with a spill-room-exhausted record; where the window store is full the WSE spills first. -/
def State.trapEntry (s : State) (g : Group) (t : Trap) : State :=
  if g.depth = 65535 then s.trapPark g (mkTrap 37 t.cause) t 3
  else if s.spillLim g < s.spillTop g + g.olderBytes + (g.frame.image 0).length then s.parkOnToken g (s.roomRecord g)
  else
    let g' := g.enterTrap t (s.ctx g.ctx).utrapVec
    if g'.fits || g.older.isEmpty then s.setGroup g'
    else s.modGroup g.uid fun x => { x with wse := .spillOne, pend := some t }

/-- Take a trap at a group's instruction (17 R353). -/
def State.takeTrap (s : State) (g : Group) (t : Trap) : State :=
  if (s.ctx g.ctx).entersTrap t.cause then s.trapEntry g t else s.trapPark g t t 1

/-- Return from a trap to `pc` with saved status `st` and mode `gm`, the previous frame resident (17 R359). -/
def Group.returnTrap (g : Group) (prev : Frame) (pc : DWord) (st gm : Word) : Group :=
  { g with
    frame := prev, older := g.older.drop 1, depth := g.depth - 1, gmode := gm, inTrap := st.getLsbD 8, pc := pc
    progIdx := ((g.progress.find? fun x => x.1 == g.depth - 1 && x.2.1 == pc).map fun x => x.2.2).getD 0
    progress := g.progress.filter fun x => decide (x.1 < g.depth - 1) }

/-- The lanes' worth of a lane-mask trap over lanes that fail. -/
def failMask (xs : List Nat) : Mask := maskOf fun i => xs.contains i

/-- The poison-use trap of the lowest poisoned source register in the lanes of `act` (07 R171), if any. -/
def Group.poisonUse (g : Group) (act : Mask) (regs : List Nat) : Option Trap :=
  let bad := (List.range 64).filter fun r => regs.contains r && (lanesOf act).any fun i => g.frame.bad r i
  match bad.head? with
  | none => none
  | some r => some (mkTrap 13 (r + 256 * ((lanesOf act).filter fun i => g.frame.bad r i).headD 0))

/-- Berth tiers of a context (02 R41, R42). -/
def tiers (pl cls : Nat) : List (List Nat) :=
  if 1 ≤ pl then [[31], [28, 29, 30], List.range 28]
  else if cls = 3 then [[28, 29, 30], List.range 28]
  else [List.range 28]

/-- A berth is free: no group is in it and none that has left still holds it (02 R40). -/
def State.berthFree (s : State) (l core b : Nat) : Bool :=
  !(s.groups.any fun g => g.l == l && g.core == core && g.berth == b) && !s.ghosts.contains (l, core, b)

/-- The lowest free berth of a core in a list of berths. -/
def State.freeIn (s : State) (l core : Nat) (bs : List Nat) : Option Nat := bs.find? (s.berthFree l core)

/-- What a manifest names (Table 3-7); `none` stands for LS = 0. -/
structure Manifest where
  v : Nat
  p : Nat
  h : Nat
  k : Nat
  deriving DecidableEq, Repr

/-- The manifest that names everything (02 R36). -/
def Manifest.all : Manifest := ⟨2 ^ 64 - 1, 255, 255, 255⟩

/-- The context as a crossing ships it (02 R36, R37): what the manifest names, with the instruction's own sources
and guard predicate; outstanding tokens not named are dropped. -/
def State.ship (s : State) (g : Group) (m : Manifest) (srcV srcP srcH : List Nat) : Group :=
  let f := g.frame
  { g with
    frame := { f with
      v := (List.range 64).map fun i => if m.v.testBit i || srcV.contains i then f.reg? i else none
      p := (List.range 8).map fun i => if m.p.testBit i || srcP.contains i then f.p.getD i none else none
      h := (List.range 8).map fun i => if m.h.testBit i || srcH.contains i then f.h.getD i none else none
      k := (List.range 8).map fun i =>
        let t := f.k.getD i Token.complete
        if m.k.testBit i || !s.outstanding t then t else { t with dropped := true } } }

/-- Seal a group whose older frames are spilled and ship it to a landing of the module (02 R28, R36, R40): the
berth is held until BERTH_RELEASE. A spill fault parks it at its instruction. -/
def State.cross (s : State) (g : Group) (dst : Nat) (m : Manifest) (srcV srcP srcH : List Nat) : State :=
  match s.writeBlock g with
  | .error (va, e) => s.parkOnToken g (s.wseRecord g accSpill va e)
  | .ok s1 =>
    let h := { s.ship g m srcV srcP srcH with lastFT := s.ftAt g.l, la := [] }
    { (s1.dropGroup g.uid).send g.l dst (.crossing h) with ghosts := (g.l, g.core, g.berth) :: s1.ghosts }

/-- The note of an item that carries no posted operation of a context. -/
def OutNote.none : OutNote := ⟨0, 0, [], false⟩

/-- The note of an item of a context. -/
def noteOf (ctx tag : Nat) : OutNote := ⟨ctx, tag, [], false⟩

/-- Queue an item toward a peer module on its pair, numbered (23 R429). -/
def State.sendPeer (s : State) (peer src dst ft : Nat) (b : LinkBody) (n : OutNote := OutNote.none) : State :=
  let o := (s.links.outs.find? fun o => o.peer == peer && o.src == src && o.dst == dst).getD ⟨peer, src, dst, 0, []⟩
  let it : LinkItem := ⟨peer, src, dst, o.nextSeq, ft, b⟩
  let o' := { o with nextSeq := (o.nextSeq + 1) % 2 ^ 32, unacked := o.unacked ++ [⟨it, n⟩] }
  { s with links := { s.links with
      outs := o' :: s.links.outs.filter fun x => !(x.peer == peer && x.src == src && x.dst == dst) } }

/-- Seal a group and ship it to a landing of a peer module (05 R118, R144). -/
def State.crossPeer (s : State) (g : Group) (peer dst : Nat) (m : Manifest) (srcV srcP srcH : List Nat) : State :=
  match s.writeBlock g with
  | .error (va, e) => s.parkOnToken g (s.wseRecord g accSpill va e)
  | .ok s1 =>
    let h := { s.ship g m srcV srcP srcH with lastFT := s.ftAt g.l, la := [] }
    let s2 := (s1.dropGroup g.uid).sendPeer peer g.l dst (s.ftAt g.l) (.crossing g.ctx ((s1.image h).map Prod.fst) (g.origin.getD s.links.myPeer)) (noteOf g.ctx g.tag)
    { s2 with ghosts := (g.l, g.core, g.berth) :: s2.ghosts }

/-- The values that a halfword has had since the last TLBINV over its page: what memory holds, what the core's instruction
cache holds of it, and what stores have replaced (01 R13). -/
def State.codeSeen (s : State) (g : Group) (va pa : Nat) : List (BitVec 16) :=
  let m := s.mem
  let void := (m.clean.filter fun c => c.ctx == g.ctx && decide (c.page ≤ va) && decide (va < c.page + c.size)).foldl (fun a c => max a c.upto) 0
  BitVec.ofNat 16 (m.num pa 2) ::
    (((s.landing g.l).icache.filter fun h => h.core == g.core && h.ctx == g.ctx && h.va == va).map IcHalf.half ++
      ((m.past.take (m.past.length - void)).filter fun p => p.1 == pa / 2).map Prod.snd)

/-- Fetch the halfword at an address for a group, with the line it lies in when the core holds none of it: which of the values that its code has had is free (06 R146, 01 R13; log
entry 13). -/
def State.fetchHalf (s : State) (g : Group) (va : Nat) : Except TFault (BitVec 16 × State) :=
  match s.translate g.l g.ctx va accFetch with
  | .error e => .error e
  | .ok (x, s1) =>
    let h := match s.codeSeen g va x.pa with
      | [h] => h
      | xs => xs.getD (Config.fetched s.steps va % xs.length) 0
    let line := (s1.landing g.l).icache.any fun y => y.core == g.core && y.ctx == g.ctx && y.va / 64 == va / 64
    .ok (h, (if line then s1 else s1.touch (x.pa / 64 * 64) 64).modLanding g.l fun y => { y with
      icache := if y.icache.contains ⟨g.core, g.ctx, va, h⟩ then y.icache else ⟨g.core, g.ctx, va, h⟩ :: y.icache })

/-- Fetch `n` halfwords from an address: their value, or the lowest that faults (06 R146). -/
def State.fetch (s : State) (g : Group) : Nat → Nat → Except (Nat × TFault) (Nat × State)
  | 0, _ => .ok (0, s)
  | n + 1, va =>
    match s.fetchHalf g va with
    | .error e => .error (va, e)
    | .ok (h, s1) =>
      match s1.fetch g n ((va + 2) % 2 ^ 64) with
      | .error e => .error e
      | .ok (x, s2) => .ok (h.toNat + 65536 * x, s2)

/-- The outcome of a fetch fault at an address (06 R146, 19 R383): a missing page or table parks the group, any
other condition is the fetch-fault trap. -/
def State.fetchFault (s : State) (g : Group) (va : Nat) (e : TFault) : State :=
  let s := s.walkSense g.l g.ctx va
  match e with
  | .missing lv => s.parkOnToken g (g.faultRec (s.ftAt g.l) (if lv = 1 then 0 else 1) 5 lv va g.active 0)
  | _ => s.takeTrap g ⟨2, BitVec.ofNat 64 e.cause, BitVec.ofNat 64 va⟩

/-- The frame-range trap of an instruction that names a register at or above F (03 R50); the register reported
is the lowest such. -/
def Group.rangeTrap (g : Group) (regs : List Nat) : Option Trap :=
  match (List.range 72).find? fun r => decide (g.frame.fsz ≤ r) && regs.contains r with
  | none => none
  | some r => some (mkTrap 3 r)

/-- The manifest an instruction names (03 R64, R65): its entry, or the trap or fetch fault. -/
inductive ManifestRead where
  | ok (m : Manifest) (s : State)
  | trap (t : Trap)
  | fault (va : Nat) (e : TFault)

/-- Read entry LS of a frame's manifest table (03 R64, R65). -/
def State.manifest (s : State) (g : Group) (ls : Nat) : ManifestRead :=
  if ls = 0 then .ok Manifest.all s
  else
    match g.frame.table with
    | none => .trap (mkTrap 4 ls)
    | some t =>
      match s.fetch g 8 ((t.toNat + 16 * (ls - 1)) % 2 ^ 64) with
      | .error (va, e) => .fault va e
      | .ok (x, s1) =>
        if x / 2 ^ 88 ≠ 0 ∨ x.testBit 64 then .trap (mkTrap 4 ls)
        else .ok ⟨x % 2 ^ 64, bits x 71 64, bits x 79 72, bits x 87 80⟩ s1

/-- The registers that the tensor handle an instruction names makes it read, beside those of its fields: the coordinates at va to
va + NLEV - 1 (12 R300). -/
def Group.coordReads (g : Group) (i : Instr) : List Nat :=
  let run (hn a : Nat) : List Nat := (List.range ((g.frame.handle hn).toNat / 16 % 4)).map (a + ·)
  match i with
  | .tld o => if o.ctl.getLsbD 4 then [] else run o.b.toNat o.a.toNat
  | .tst o => if o.ctl.getLsbD 4 then [] else run o.b.toNat o.a.toNat
  | .tpos o => run o.b.toNat o.a.toNat
  | _ => []

/-- The registers that the handle of a TNEXT makes it write after its first: vd + 1 to vd + NLEV - 1 (12 R300). -/
def Group.coordWrites (g : Group) (i : Instr) : List Nat :=
  match i with
  | .tnext o => (List.range ((g.frame.handle o.b.toNat).toNat / 16 % 4)).map (o.d.toNat + ·)
  | _ => []

/-- The absent registers an instruction reads, as class and number: v registers, predicates (the guard's among
them), handles (02 R37). -/
def Group.absentReads (g : Group) (i : Instr) : List (Nat × Nat) :=
  let sh := i.shape
  let gp := (i.g4.extractLsb' 0 3).toNat
  let ps := (if gp = 0 then [] else [gp]) ++ sh.predSources.filter (· != 0)
  ((sh.sources ++ g.coordReads i).filter fun n => (g.frame.reg? n).isNone).map (fun n => (0, n)) ++
    (ps.filter fun n => (g.frame.p.getD n none).isNone).map (fun n => (1, n)) ++
    (sh.handleSources.filter fun n => (g.frame.h.getD n none).isNone).map fun n => (2, n)

/-- The effect of reading absent registers (02 R37): the trap under DEADTRAP, else DEADRD. Which register the
trap names when there are several is free (log entry 16). -/
def State.deadRead (s : State) (g : Group) (xs : List (Nat × Nat)) : Except Trap Group :=
  match xs with
  | [] => .ok g
  | x :: rest =>
    if g.deadTrap then
      let y := if rest.isEmpty then x else (x :: rest).getD (Config.choice s.steps % (rest.length + 1)) x
      .error (mkTrap 14 (y.2 + 64 * y.1))
    else .ok (g.sticky DEADRD)

/-- Advance the pc past an instruction. -/
def Group.advance (g : Group) (i : Instr) : Group :=
  { g with pc := g.pc + BitVec.ofNat 64 i.len, carried := none, asked := [], progIdx := 0, mark := none, satisfied := 0, watch := [], busy := false, flush := none }

/-- The LA window that an instruction opens (02 R45, 08 R200): none when it completes at issue. -/
def Group.laNew (g : Group) (i : Instr) : List LaWindow :=
  let n := if i.isFp && g.fxe != 0 then 0 else i.la
  match i.laKind.long with
  | some (vs, ps, sync) => if n = 0 then [] else [⟨n, vs ++ g.coordWrites i, ps, i.shape.handleWritten, [], sync⟩]
  | none => []

/-- An instruction names a register of an open LA window, or is held by a window of FENCE, CWAIT or a barrier (02 R45). -/
def Group.laHeld (g : Group) (i : Instr) : Bool :=
  let sh := i.shape
  let ps := sh.predSources ++ sh.predWritten ++ [(i.g4.extractLsb' 0 3).toNat]
  let hs := sh.handleSources ++ sh.handleWritten
  !i.laKind.ends && g.la.any fun w =>
    (w.regs.any fun r => (sh.named ++ g.coordReads i ++ g.coordWrites i).contains r && !i.c16Writes w.regs) || (w.preds.any fun p => p != 0 && ps.contains p) ||
      w.handles.any hs.contains || (w.sync && i.laKind.mem)

/-- The group's LA windows and LAVIOL as an instruction issues (02 R45, 08 R200); `live` says that its guard leaves a lane:
without one it opens no window and breaks none (06 R151). -/
def Group.laStep (g : Group) (i : Instr) (live : Bool) : Group :=
  if g.la.isEmpty && i.la == 0 then g
  else
    let old := if i.laKind.ends then [] else (g.la.map fun w => { w with left := w.left - 1 }).filter fun w => w.left != 0
    let g' := { g with la := old ++ if live then g.laNew i else [] }
    if live && g.laHeld i then g'.sticky LAVIOL else g'

/-- The lines a memory instruction touches, against the windows before it and into the window it opened (02 R45). -/
def Group.laLines (g : Group) (i : Instr) (pas : List Nat) : Group :=
  if g.la.isEmpty then g
  else
    let ls := pas.map (· / 64)
    let mine := !(g.laNew i).isEmpty
    let before := if mine then g.la.dropLast else g.la
    let g' := if before.any fun w => w.lines.any ls.contains then g.sticky LAVIOL else g
    if mine then { g' with la := before ++ (g.la.drop before.length).map fun w => { w with lines := ls } } else g'

/-- Take back what issue did to a group that waits or traps: its windows, DEADRD and LAVIOL (17 R354). -/
def Group.undo (g0 g1 x : Group) : Group :=
  { x with la := g0.la, gstatus := x.gstatus &&& ~~~(g1.gstatus &&& ~~~g0.gstatus) }

/-- Settle an instruction's effect: a trap is taken at it; a register write that its berth has no room for waits
for a spill (03 R70). `s0` is the state before it and `g0`, `g1` its group before and after issue. -/
def settle (s0 : State) (g0 g1 : Group) (r : R) : State :=
  match r with
  | .ok s =>
    match s.group? g0.uid with
    | some g => if g.fits || g.older.isEmpty then s else s0.modGroup g0.uid fun x => { x with wse := .spillOne }
    | none => s
  | .wait s => s.modGroup g0.uid (g0.undo g1)
  | .trap s t =>
    let s' := s.modGroup g0.uid (g0.undo g1)
    match s'.group? g0.uid with
    | some g => s'.takeTrap g t
    | none => s'

/-- What an instruction's own meaning is given: its group, as it issues; ACTIVE; its manifest. -/
structure Env where
  g : Group
  act : Mask
  m : Manifest

/-- Issue an instruction for the current group: the checks of 06 R160 from item 3 on, the guard of R151, absent
reads (02 R37), LA windows (R45), and then its own meaning. -/
def issue (i : Instr) (s : State) (body : State → Env → R) : Host.Outcome State Fault Refusal :=
  match s.curGroup with
  | none => .fault .noGroup
  | some g =>
    match i.privTrap (s.ctx g.ctx).pl with
    | some t => .next (s.takeTrap g t)
    | none =>
      match g.rangeTrap i.shape.named with
      | some t => .next (s.takeTrap g t)
      | none =>
        match s.manifest g i.ls with
        | .trap t => .next (s.takeTrap g t)
        | .fault va e => .next (s.fetchFault g va e)
        | .ok m s1 =>
          let act := g.guard i.g4
          if act = 0 then .next (s1.setGroup ((g.laStep i false).advance i))
          else
            match s1.deadRead g (g.absentReads i) with
            | .error t => .next (s.takeTrap g t)
            | .ok g1 =>
              let g2 := g1.laStep i true
              .next (settle s g g2 (body (s1.setGroup g2) ⟨g2, act, m⟩))

/-- Complete an instruction: its group, changed, with the pc past it. -/
def done (s : State) (i : Instr) (g : Group) : R := .ok (s.setGroup (g.advance i))

end Sys2Proof.Machine
end

