-- ==== Sys2Proof/Machine/Wharf.lean ====
section
/-! DEFINITION. The wharf and the dispatcher's order (02 R41 to R43, 01 R17, 20 R400): what a context's admission
rank is, where it may be admitted, the entry of an image into a wharf with its overflow continuations; and the split of a
context, whose siblings may wait there (02 R28 to R30). -/

namespace Sys2Proof.Machine

/-- Bytes of SRAM in a wharf (01 Table 1-1). -/
def wharfBytes : Nat := 0x200000

/-- The token a context waits on (19 R383). -/
def Group.waitToken (g : Group) : Option Nat := match g.wait with | .token t => some t | _ => none

/-- The images that are in a wharf: those that wait for a token stand in the landing's wait table (17 R365, 19 R383). -/
def Landing.waiting (x : Landing) : List Waiting := x.wharf.filter fun w => w.g.waitToken.isNone

/-- Bytes the wharf and the arrivals of a landing occupy (R39, R43). -/
def Landing.occupied (x : Landing) : Nat :=
  (x.waiting.map fun w => imageRoom w.g).sum + (x.arrivals.map fun a => imageRoom a.g).sum

/-- The rank of R41 of a context, 0 first. -/
def admissionRank (pl : Nat) (promoted : Bool) (cls : Nat) : Nat :=
  if 1 ≤ pl then 0 else if cls = 3 then 1 else if cls = 2 || promoted then 2 else 4 - cls

/-- Lexicographic order of lists of numbers. -/
def lexLt : List Nat → List Nat → Bool
  | [], [] => false
  | [], _ :: _ => true
  | _ :: _, [] => false
  | a :: as, b :: bs => decide (a < b) || (a == b && lexLt as bs)

/-- A context has waited long enough in a wharf to be promoted (R41): class 0 or 1 of a PL0 context, 65,536 ticks. -/
def State.promotable (s : State) (l : Nat) (w : Waiting) : Bool :=
  decide (w.g.cls ≤ 1) && (s.ctx w.g.ctx).pl == 0 && decide (w.since + 65536 ≤ s.ftAt l)

/-- A waiting context ranks as class 2, whether or not its promotion has been noted (R41). -/
def State.promotedNow (s : State) (l : Nat) (w : Waiting) : Bool := w.promoted || s.promotable l w

/-- The order of R41: rank, FT of last crossing, team id, group rank, sibling index. -/
def State.admissionKey (s : State) (g : Group) (promoted : Bool) : List Nat :=
  [admissionRank (s.ctx g.ctx).pl promoted g.cls, g.lastFT, g.team, g.rank, g.sib]

/-- The element with the least key. -/
def leastBy (key : α → List Nat) : List α → Option α
  | [] => none
  | x :: xs =>
    match leastBy key xs with
    | none => some x
    | some y => if lexLt (key y) (key x) then some y else some x

/-- The tiers of a context of a privilege level and class at a landing, as R41 limits them while a promoted context waits
(R42). -/
def State.tiersNow (s : State) (l pl cls : Nat) : List (List Nat) :=
  let ts := tiers pl cls
  if ((s.landing l).waiting.any (s.promotedNow l)) && (cls == 3 || decide (1 ≤ pl)) then ts.dropLast else ts

/-- Occupied berths of a core. -/
def State.occupiedBerths (s : State) (l core : Nat) : Nat :=
  ((List.range 32).filter fun b => !s.berthFree l core b).length

/-- A class 0 context may enter a core (R400). -/
def State.bgOpen (s : State) (l core : Nat) (g : Group) : Bool :=
  g.cls != 0 || decide ((s.groups.filter fun h => h.l == l && h.core == core && h.cls == 0).length < (s.landing l).bgcap)

/-- The lowest free berth of a tier on a core that is open to a context. -/
def State.berthOn (s : State) (l core : Nat) (g : Group) (tier : List Nat) : Option (Nat × Nat) :=
  if s.bgOpen l core g then (s.freeIn l core tier).map fun b => (core, b) else none

/-- Where the dispatcher admits a context (R42). -/
def State.berthFor (s : State) (l : Nat) (g : Group) : Option (Nat × Nat) :=
  let ts := s.tiersNow l (s.ctx g.ctx).pl g.cls
  if g.pinned && g.affL == l then ts.findSome? (s.berthOn l g.affC g)
  else ts.findSome? fun tier =>
    match (if g.affL = l then s.berthOn l g.affC g tier else none) with
    | some r => some r
    | none =>
      let cs := (List.range 32).filterMap fun c => s.berthOn l c g tier
      leastBy (fun r => [s.occupiedBerths l r.1, r.1]) cs

/-- A claim of the context's team at a landing still waits to be restored (10 R271). -/
def State.awaitsClaim (s : State) (l : Nat) (g : Group) : Bool :=
  s.saved.any fun c => c.l == l && c.unit.holder == some (g.ctx, g.tag, g.team)

/-- A landing still runs a context: RUNNING, or PARKING before the park command reaches the landing (17 R363). -/
def Ctx.runsAt (c : Ctx) (l : Nat) : Bool := c.state == 2 || (c.state == 3 && c.toCommand.contains l)

/-- A waiting context can be admitted now: its context runs, FT has passed its last crossing (01 R17), its claim
is restored (10 R271), it waits for no token (19 R383) or matrix reply (11 R295), and a berth is free. -/
def State.admissible (s : State) (l : Nat) (w : Waiting) : Bool :=
  (s.ctx w.g.ctx).runsAt l && decide (w.g.lastFT < s.ftAt l) && !s.awaitsClaim l w.g &&
    w.g.wait == .none && (s.berthFor l w.g).isSome

/-- The context the dispatcher admits next (R41). -/
def State.nextAdmitted (s : State) (l : Nat) : Option Waiting :=
  leastBy (fun w => s.admissionKey w.g (s.promotedNow l w)) ((s.landing l).wharf.filter (s.admissible l))

/-- A matrix unit, or a claim narrowed into its save area, holds a queued command for whose execution a group waits (11
R295). -/
def State.replyQueued (s : State) (uid : Nat) : Bool :=
  (s.units.flatMap MUnit.queue ++ s.saved.flatMap fun c => c.unit.queue).any fun c => c.op.waiter == some uid

/-- Write one waiting context or arrival out as an overflow continuation (R43): those of class 3 last, among the
others, and among those, the lowest admission rank first, joining arrivals after waiting contexts. One that a queued matrix
command will still write to stays (11 R295; log entry 94). -/
def State.overflowOne (s : State) (l : Nat) : State :=
  let x := s.landing l
  let key (w : Waiting) := (s.admissionKey w.g (s.promotedNow l w))
  let rec_ (g : Group) (arr : Bool) : ParkRec :=
    ⟨g.ctx, 2, arr, g.waitToken.isSome, false, g.wait == .matrixReply, g.progIdx, 0, g.waitToken.getD 0, 0, 0, s.ftAt l⟩
  let out (g : Group) (block arr : Bool) (y : Landing) : State :=
    (s.setLanding l { y with overflow := if y.overflow = 0xFFFF then y.overflow else y.overflow + 1 }).parkImage l g block (rec_ g arr) none
  let worst (ws : List Waiting) : Option Waiting := ws.foldl (fun a w =>
    match a with
    | none => some w
    | some v => if lexLt (key v) (key w) then some w else some v) none
  let ws := x.waiting.filter fun w => !(w.g.wait == .matrixReply && s.replyQueued w.g.uid)
  match worst (ws.filter fun w => w.g.cls != 3) with
  | some w => out w.g (w.readBlock != .none) false { x with wharf := x.wharf.filter fun v => v.g.uid != w.g.uid }
  | none =>
    match x.arrivals.find? fun a => a.g.cls != 3 with
    | some a => out a.g true true { x with arrivals := x.arrivals.filter fun b => b.g.uid != a.g.uid }
    | none =>
      match worst ws with
      | some w => out w.g (w.readBlock != .none) false { x with wharf := x.wharf.filter fun v => v.g.uid != w.g.uid }
      | none =>
        match x.arrivals.head? with
        | some a => out a.g true true { x with arrivals := x.arrivals.filter fun b => b.g.uid != a.g.uid }
        | none => s

/-- Make room in a wharf for an image (R43). The fuel is the number of images there. -/
def State.makeRoom (s : State) (l room : Nat) : Nat → State
  | 0 => s
  | n + 1 =>
    if wharfBytes < (s.landing l).occupied + room then (s.overflowOne l).makeRoom l room n else s

/-- Room is made in a wharf for the image of a context. -/
def State.roomFor (s : State) (l : Nat) (g : Group) : State :=
  s.makeRoom l (imageRoom g) ((s.landing l).wharf.length + (s.landing l).arrivals.length)

/-- An image enters a landing's wharf (R43), or its wait table when it waits for a token. `block` says what admission reads of
the control block (03 R72). -/
def State.enterWharf (s : State) (l : Nat) (g : Group) (block : BlockRead) : State :=
  (if g.waitToken.isSome then s else s.roomFor l g).modLanding l fun y => { y with wharf := y.wharf ++ [⟨{ g with l := l }, s.ftAt l, false, block⟩] }

/-- The record of an image that a landing writes to the pool of a context that is PARKING or PARKED (17 R363; BX-E04
gives REASON 2 to overflow continuations alone). -/
def State.parkArriving (s : State) (l : Nat) (g : Group) (block arr : Bool) : State :=
  let fw := g.waitToken
  s.parkImage l { g with l := l } block ⟨g.ctx, 0, arr, fw.isSome, false, g.wait == .matrixReply, g.progIdx, 0, fw.getD 0, 0, 0, s.ftAt l⟩ none

/-- An image reaches a landing: the wharf, or the pool while its context is parking (17 R363). -/
def State.arriveImage (s : State) (l : Nat) (g : Group) : State :=
  let c := s.ctx g.ctx
  if c.runsAt l then s.enterWharf l g .frame
  else if c.state = 0 then s
  else s.parkArriving l g true false

/-- A new sibling takes a free berth of its class on the core of the context it was split from, or waits in the landing's wharf
(02 R29, R43). What limits admission, BGCAP (R400) and the berths kept while a promoted context waits (R41), is not applied
to a berth taken so (log entry 90). -/
def State.placeSibling (s : State) (h : Group) : State :=
  match (tiers (s.ctx h.ctx).pl h.cls).findSome? (s.freeIn h.l h.core) with
  | some b => { s with groups := s.groups ++ [{ h with berth := b }] }
  | none =>
    match s.writeBlock h with
    | .ok s1 => s1.enterWharf h.l h .frame
    | .error _ => s.enterWharf h.l h .none

/-- The contexts of a part, with a new sibling of one of them. -/
def withSibling (uid new : Nat) (us : List Nat) : List Nat := if us.contains uid then us ++ [new] else us

/-- The program order of a new sibling begins with that of the context it was split from (05 R123): what side-log parts and
posts hold for the one they hold for the other (R126, R128). -/
def State.heldWith (s : State) (uid new : Nat) : State :=
  let w := withSibling uid new
  { s with
    landings := s.landings.map fun (x : Landing) => { x with side := x.side.map fun p => { p with uids := w p.uids } }
    pairs := s.pairs.map fun p => (p.1, p.2.map fun i => match i with | .post q => .post { q with uids := w q.uids } | i => i)
    links := { s.links with outs := s.links.outs.map fun o =>
      { o with unacked := o.unacked.map fun x => { x with note := { x.note with uids := w x.note.uids } } } } }

/-- Split a context at its current instruction into parts, each with the translations it carries (02 R28 to R30,
03 R77, R78). The first part stays; each further part is a sibling in a free berth of its class on the core, or
in the landing's wharf. Needs the older frames spilled. -/
def State.split (s : State) (g : Group) (parts : List (Mask × (Group → Group))) : State :=
  match parts with
  | [] => s
  | (m0, f0) :: rest =>
    let base := s.spillBase g
    let x := s.seg g.ctx base
    let s0 := s.setSeg { x with limit := x.cursor }
    let s0 := match s0.pagesOf g.l g.ctx accSpill base 16 with
      | .ok (cb, s1) => s1.putWords cb 1 base (Seg.bytes { x with limit := x.cursor })
      | .error _ => s0
    let part (m : Mask) (f : Group → Group) (h : Group) : Group :=
      f { h with
        active := m, sib := lowLane m, sdepth := min 2047 (g.sdepth + 1), sibling := true
        sb := if g.sibling then g.sb else some g.depth, la := [] }
    rest.foldl (fun (t : State) p => (({ t with nextUid := t.nextUid + 1 }).heldWith g.uid t.nextUid).placeSibling (part p.1 p.2 { g with uid := t.nextUid }))
      (s0.setGroup (part m0 f0 g))

end Sys2Proof.Machine
end

