-- ==== Sys2Proof/Machine/Lineage.lean ====
section
/-! DEFINITION. Lineages and teams (02 R30 to R35, 03 R77 to R79, 09 R245): what the anchor counts as exited, the
live-rank mask, join instances and their merge, and a context's exit or arrival. -/

namespace Sys2Proof.Machine

/-- A side-log part that a test admits is not applied: in a side log, or on its way to its home (05 R126). The test is given the
part's contexts and whether it is a plain ST. -/
def State.sidePart (s : State) (f : List Nat → Bool → Bool) : Bool :=
  (s.landings.any fun x => x.side.any fun p => f p.uids p.plain) ||
    (s.pairs.any fun p => p.2.any fun i => match i with | .post q => q.side && f q.uids q.plain | _ => false) ||
    s.links.outs.any fun o => o.unacked.any fun x => f x.note.uids x.note.plain

/-- The context has side-log parts that are not applied (05 R126). -/
def State.sideBusy (s : State) (uid : Nat) : Bool := s.sidePart fun us _ => us.contains uid

/-- The context has a plain ST in a side log that is not applied: what waits for its earlier plain accesses alone (05 R137, 19
R385) waits for it. -/
def State.plainBusy (s : State) (uid : Nat) : Bool := s.sidePart fun us plain => plain && us.contains uid

/-- Replace a team's record. -/
def State.setTeam (s : State) (t : Team) : State :=
  { s with teams := s.teams.map fun x => if x.ctx = t.ctx ∧ x.tag = t.tag ∧ x.team = t.team then t else x }

/-- Remove a team's record: its scratch is free, and its claims end (20 R398, 10 R265). -/
def State.dropTeam (s : State) (t : Team) : State :=
  { s with teams := s.teams.filter fun x => !(x.ctx == t.ctx && x.tag == t.tag && x.team == t.team) }

/-- A rank's lineage ceased: the live-rank mask loses it and each registered barrier's home is told (R245). -/
def State.rankCeased (s : State) (t : Team) (r : Nat) : State :=
  let t' := { t with live := t.live &&& ~~~((1 : BitVec 128) <<< r) }
  let s0 := t'.objects.foldl (fun (z : State) o => z.send t.anchor (home o) (.live t.ctx t.team o t'.live)) (s.setTeam t')
  let s1 := t'.away.foldl (fun (z : State) o =>
    z.sendPeer o.1 t.anchor (home o.2) (z.ftAt t.anchor) (.live t.ctx t.team o.2 t'.live)) s0
  if (List.range t.groups).any t'.rankLive then s1 else s1.dropTeam t'

/-- Lanes of a rank count as exited at the anchor (R35, R195). -/
def State.countExited (s : State) (ctx tag team rank : Nat) (m : Mask) : State :=
  match s.team? ctx tag team with
  | none => s
  | some t =>
    let was := t.exited.getD rank 0
    let t' := { t with exited := t.exited.set rank (was ||| m) }
    if t.rankLive rank && !t'.rankLive rank then (s.setTeam t').rankCeased t' rank else s.setTeam t'

/-- A context belongs to the lineage of another. -/
def Group.kin (g h : Group) : Bool := g.ctx == h.ctx && g.tag == h.tag && g.team == h.team && g.rank == h.rank

/-- The instance of an arrival: window depth and slot (R31). -/
def Arrival.at_ (a : Arrival) : Nat × Nat := (a.g.depth, a.join.j)

/-- An instance comes before another in the order of R32. -/
def instLt (x y : Nat × Nat) : Bool := decide (x.1 < y.1) || (x.1 == y.1 && decide (x.2 < y.2))

/-- The greatest instance among arrivals. -/
def topInst : List Arrival → Nat × Nat
  | [] => (0, 0)
  | a :: as => if instLt (topInst as) a.at_ then a.at_ else topInst as

/-- The arrival that owns a lane. -/
def ownerOf (as : List Arrival) (l : Nat) : Option Group := (as.find? fun a => a.g.active.getLsbD l).map Arrival.g

/-- A merged v register (R33): from the arrivals, the owner of the lowest lane, and the union of the masks. -/
def mergeReg (as : List Arrival) (low : Group) (n : Nat) : Option VReg :=
  if as.all fun a => (a.g.frame.reg? n).isNone then none
  else
    let own (l : Nat) : Group := (ownerOf as l).getD low
    let val (l : Nat) : Word := (own l).frame.lane n l
    let us := as.map fun a => match a.g.frame.reg? n with
      | some r => (match r.val with | .u x => some x | _ => none)
      | none => none
    let bad := maskOf fun l => (own l).frame.bad n l
    match us with
    | some x :: rest => if rest.all (· == some x) then some ⟨.u x, bad⟩ else some ⟨.g ((List.range 32).map val), bad⟩
    | _ => some ⟨.g ((List.range 32).map val), bad⟩

/-- A merged predicate (R33). -/
def mergePred (as : List Arrival) (low : Group) (n : Nat) : Option Mask :=
  if as.all fun a => (a.g.frame.p.getD n none).isNone then none
  else some (maskOf fun l => (((ownerOf as l).getD low).frame.pred n).getLsbD l)

/-- A merged token: outstanding while any arrival's copies under it are (R33). -/
def mergeTok (as : List Arrival) (n : Nat) : Token :=
  let ts := as.map fun a => a.g.frame.k.getD n Token.complete
  ⟨(ts.filter fun t => !t.dropped).flatMap Token.copies, ts.all Token.dropped⟩

/-- The group that an instance's arrivals merge into (R33, R79, 03 R78): `live` says the lineage still holds other
contexts. -/
def mergeGroup (as : List Arrival) (live : Bool) : Option Group :=
  match as with
  | [] => none
  | first :: _ =>
    let u := as.foldl (fun m a => m ||| a.g.active) (0 : Mask)
    let low := (ownerOf as (lowLane u)).getD first.g
    let f := first.g.frame
    let trap : Trap := ⟨18, 0x2F, first.join.addr⟩
    some { first.g with
      active := u
      exited := as.foldl (fun m a => m ||| a.g.exited) 0
      pc := if first.join.implicit then first.join.addr else first.join.addr + 4
      frame := { f with
        v := (List.range 64).map (mergeReg as low), p := (List.range 8).map (mergePred as low)
        h := low.frame.h, k := (List.range 8).map (mergeTok as) }
      gstatus := as.foldl (fun m a => m ||| a.g.gstatus) 0
      horizon := as.foldl (fun m a => max m a.g.horizon) 0
      lastFT := as.foldl (fun m a => min m a.g.lastFT) first.g.lastFT
      gmode := low.gmode, pinned := low.pinned, affL := low.affL, affC := low.affC
      sibling := live, sib := lowLane u
      sdepth := if live then as.foldl (fun m a => min m a.g.sdepth) first.g.sdepth else 0
      sb := if live then first.g.sb else none
      pend := if first.join.implicit && live then some trap else none
      progIdx := 0, wait := .none, wse := .none }

/-- Evaluate a lineage's instances at its anchor (R32): the greatest, when it completes, merges and enters the
wharf. The copies of its arrivals are its own (09 R229). Its segment's control block stays as its lowest lane's last sealing left it (16 R343). -/
def State.evalJoins (s : State) (l ctx tag team rank : Nat) : State :=
  match s.team? ctx tag team with
  | none => s
  | some t =>
    let mine := (s.landing l).arrivals.filter fun a =>
      a.g.ctx == ctx && a.g.tag == tag && a.g.team == team && a.g.rank == rank
    let top := topInst mine
    let as := mine.filter fun a => a.at_ == top
    let lanes := ~~~(t.exited.getD rank (-1))
    let waiting := mine.foldl (fun m a => m ||| a.g.active) (0 : Mask)
    let u := as.foldl (fun m a => m ||| a.g.active) (0 : Mask)
    if mine.isEmpty || (lanes &&& ~~~waiting) != 0 then s
    else
      match mergeGroup as ((lanes &&& ~~~u) != 0) with
      | none => s
      | some g =>
        let s1 := s.modLanding l fun x => { x with
          arrivals := x.arrivals.filter fun a => !(as.any fun b => b.g.uid == a.g.uid) }
        let s2 := { s1 with copies := s1.copies.map fun (c : Copy) => if as.any (fun b => b.g.uid == c.uid) then { c with uid := g.uid } else c }
        s2.enterWharf l g .merged

/-- A joining context becomes an arrival at its anchor (R31, R34, R79): the last one takes the join-mismatch trap
when its JOIN's address or its caller image differs from the first arrival's. -/
def State.joinArrives (s : State) (l : Nat) (a : Arrival) : State :=
  let same := (s.landing l).arrivals.filter fun b => b.g.kin a.g && b.at_ == a.at_
  let bad : Option Nat :=
    match same.head? with
    | none => none
    | some b =>
      if b.join.addr ≠ a.join.addr then some a.join.j
      else if b.g.frame.cp ≠ a.g.frame.cp ∨ (b.g.frame.cp ∧ (b.g.frame.cseg ≠ a.g.frame.cseg ∨ b.g.frame.coff ≠ a.g.frame.coff)) then
        some (a.join.j + 16)
      else none
  match bad with
  | some info =>
    let addr := (same.head?.map fun b => b.join.addr).getD 0
    s.enterWharf l { a.g with pend := some ⟨18, BitVec.ofNat 64 info, addr⟩ } .frame
  | none =>
    ((s.roomFor l a.g).modLanding l fun y => { y with arrivals := y.arrivals ++ [{ a with g := { a.g with l := l } }] }).evalJoins
      l a.g.ctx a.g.tag a.g.team a.g.rank

/-- An arrival whose image comes from a pool or from a peer module joins at its anchor with what the control block holds of its
frame (03 R78, R79). Where that cannot be read, it waits for admission at its JOIN, which reads the block, or faults, as any
admission does (R75). -/
def State.rejoin (s : State) (l : Nat) (a : Arrival) (block : BlockRead) : State :=
  match s.readBlock { a.g with l := l, block := block } with
  | .ok (h, s1) => s1.joinArrives l { a with g := { h with block := .none } }
  | .error _ => s.enterWharf l a.g block

/-- The context exits lanes (R35, 07 R195); it ceases when none is active. Toward an anchor on a peer module the notice travels
whatever the sibling flag, since the record of exited lanes is there. -/
def State.exitLanes (s : State) (g : Group) (m : Mask) : State :=
  let g' := { g with exited := g.exited ||| m, active := g.active &&& ~~~m }
  let s1 := if g'.active = 0 then s.leaveBerth g else s.setGroup g'
  match g.origin with
  | some p => s1.sendPeer p g.l g.anchor (s.ftAt g.l) (.exitNotice g.ctx g.tag g.team g.rank m)
  | none =>
    if g.sibling then s1.send g.l g.anchor (.exit g.ctx g.tag g.team g.rank m)
    else s1.countExited g.ctx g.tag g.team g.rank m

/-- JOIN of a context with sibling flag 1, or a RET that acts as one (R31, 03 R78): the context seals, leaves its
berth and goes to its anchor as an arrival. -/
def joinAt (s : State) (e : Env) (j : Nat) (implicit : Bool) : R :=
  let g := e.g
  if s.sideBusy g.uid then .wait s
  else if g.origin.isNone ∧ g.anchor ≠ g.l ∧ !(s.ctx g.ctx).landMask.getLsbD g.anchor then .trap s (laneTrap 8 0 e.act 0)
  else
    match s.needSealed g with
    | some s1 => .wait s1
    | none =>
      match s.writeBlock g with
      | .error (va, er) => .wait (s.parkOnToken g (s.wseRecord g accSpill va er))
      | .ok s1 =>
        let here : Bool := g.anchor == g.l && g.origin.isNone
        let h := { g with la := [], lastFT := if here then g.lastFT else s.ftAt g.l }
        let s2 := s1.dropGroup g.uid
        let s3 := match g.origin with
          | none => s2.send g.l g.anchor (.arrival ⟨h, ⟨j, g.pc, implicit⟩⟩)
          | some p => s2.sendPeer p g.l g.anchor (s.ftAt g.l) (.arrival g.ctx ((s1.image h).map Prod.fst) j g.pc.toNat implicit)
        .ok (if here then s3 else { s3 with ghosts := (g.l, g.core, g.berth) :: s3.ghosts })

end Sys2Proof.Machine
end

