-- ==== Sys2Proof/Machine/Control.lean ====
section
/-! DEFINITION. Control transfer, frames, joins, exits, pinning and software traps (02 R29, 03 R60 to R63, R72, R73,
R78, 07 R188 to R198). -/

namespace Sys2Proof.Machine

/-- The control block and, for a sibling that will wait in the wharf, the pages its sealing needs (R75). -/
def State.splitFault (s : State) (g : Group) (parts : List (Mask × (Group → Group))) : Option (Nat × TFault) :=
  (g.sib :: parts.map fun p => lowLane p.1).findSome? fun k =>
    let va := s.spillBase { g with sib := k }
    match s.pagesOf g.l g.ctx accSpill va 64 with
    | .error e => some e
    | .ok _ => none

/-- Give each part of a transfer its own continuation, splitting when there are several (R188, 02 R29). -/
def transfer (s : State) (e : Env) (parts : List (Mask × (Group → Group))) : R :=
  match parts with
  | [] => .ok s
  | [p] => .ok (s.setGroup (p.2 e.g))
  | ps =>
    match s.needSealed e.g with
    | some s1 => .wait s1
    | none =>
      match s.splitFault e.g ps with
      | some (va, er) => .wait (s.parkOnToken e.g (s.wseRecord e.g accSpill va er))
      | none => .ok (s.split e.g ps)

/-- The fall-through part, when it has lanes (R188). -/
def fallPart (i : Instr) (e : Env) : List (Mask × (Group → Group)) :=
  let m := e.g.active &&& ~~~e.act
  if m = 0 then [] else [(m, fun h => h.advance i)]

/-- Jump to a target. -/
def Group.jump (g : Group) (i : Instr) (t : DWord) : Group := { g.advance i with pc := t }

/-- A target below 2^56 (R188). -/
def inRange (t : DWord) : Bool := decide (t.toNat < 2 ^ 56)

/-- The target of a direct transfer (R188). -/
def directTarget (g : Group) (off : DWord) : DWord := g.pc + 2 * off

/-- A direct branch (R189). -/
def branch (i : Instr) (off : DWord) (s : State) (e : Env) : R :=
  let t := directTarget e.g off
  if inRange t then transfer s e (fallPart i e ++ [(e.act, fun h => h.jump i t)])
  else .trap s (laneTrap 6 5 e.act t.toNat)

/-- DEPTHLIMIT (Table 3-6). -/
def Group.depthLimit (g : Group) : Nat := if g.inTrap then 65535 else 65504

/-- Open a frame (03 R60): the callee shares the caller's last eight registers. -/
def Group.call (g : Group) (ret target : DWord) : Group :=
  let f := g.frame
  let n : Frame := { Frame.fresh with
    v := (List.range 64).map fun k => if k < 8 then f.reg? (f.fsz - 8 + k) else none, p := f.p, h := f.h }
  let c : Frame := { f with
    resumePC := ret, v := (List.range 64).map fun k => if f.fsz - 8 ≤ k ∧ k < f.fsz then none else f.reg? k }
  { g with frame := n, older := c :: g.older, depth := g.depth + 1, pc := target }

/-- The window-overflow trap at the depth limit (Table 17-6). -/
def depthTrap : Trap := mkTrap 16 0

/-- What a context that calls comes to: its new frame, or at the depth limit the trap at its next turn (R191). -/
def callPart (i : Instr) (t : DWord) (h : Group) : Group :=
  if h.depthLimit ≤ h.depth then { h with pend := some depthTrap }
  else { h.advance i with pc := h.pc }.call (h.pc + BitVec.ofNat 64 i.len) t

/-- Transfer calls: alone at the depth limit, the context traps at once. -/
def calls (i : Instr) (s : State) (e : Env) (targets : List (Mask × DWord)) : R :=
  let parts := fallPart i e ++ targets.map fun p => (p.1, callPart i p.2)
  if parts.length = 1 ∧ e.g.depthLimit ≤ e.g.depth then .trap s depthTrap else transfer s e parts

/-- The distinct targets of the lanes of ACTIVE, ascending, each with its lanes (R188). -/
def targetsOf (act : Mask) (f : Nat → Nat) : List (Mask × DWord) :=
  let ts := (lanesOf act).foldl (fun a l => natInsert a (f l)) []
  ts.map fun t => (maskOf fun l => act.getLsbD l && f l == t, BitVec.ofNat 64 t)

/-- The checks of BRX and CALLX (R190), then their transfer. -/
def indirect (a : Nat) (go : List (Mask × DWord) → R) (s : State) (e : Env) : R :=
  let t (l : Nat) : Nat := (e.g.frame.pair a l).toNat
  let far := (lanesOf e.act).filter fun l => decide (2 ^ 56 ≤ t l)
  let odd := (lanesOf e.act).filter fun l => t l % 2 == 1
  match e.g.poisonUse e.act [a, a + 1] with
  | some p => .trap s p
  | none =>
    if !far.isEmpty then .trap s (laneTrap 6 5 (failMask far) (t (far.headD 0)))
    else if !odd.isEmpty then .trap s (laneTrap 5 0 (failMask odd) (t (odd.headD 0)))
    else go (targetsOf e.act t)

/-- BRA (R189). -/
def execBra (o : B32) (s : State) := issue (.bra o) s (branch (.bra o) (o.off.signExtend 64))
/-- BRL (R189). -/
def execBrl (o : J64) (s : State) := issue (.brl o) s (branch (.brl o) (o.off.signExtend 64))
/-- BRX (R190). -/
def execBrx (o : A32) (s : State) := issue (.brx o) s fun s e =>
  indirect o.a.toNat (fun ts => transfer s e (fallPart (.brx o) e ++ ts.map fun p => (p.1, fun h => h.jump (.brx o) p.2))) s e
/-- CALLX (R190). -/
def execCallx (o : A32) (s : State) := issue (.callx o) s fun s e => indirect o.a.toNat (calls (.callx o) s e) s e
/-- CALL (R191). -/
def execCall (o : J64) (s : State) := issue (.call o) s fun s e =>
  let t := directTarget e.g (o.off.signExtend 64)
  if inRange t then calls (.call o) s e [(e.act, t)] else .trap s (laneTrap 6 5 e.act t.toNat)

/-- Return into the caller frame (03 R62): it takes back the registers it shares. -/
def Group.return_ (g : Group) (c : Frame) (rest : List Frame) : Group :=
  let f := { c with v := (List.range 64).map fun k =>
    if c.fsz - 8 ≤ k ∧ k < c.fsz then g.frame.reg? (k - (c.fsz - 8)) else c.reg? k }
  { g with frame := f, older := rest, depth := g.depth - 1, pc := c.resumePC }

/-- RET (R193, 03 R62, R72, R78). -/
def execRet (o : A32) (s : State) := issue (.ret o) s fun s e =>
  let g := e.g
  let fall := fallPart (.ret o) e
  if !fall.isEmpty then transfer s e (fall ++ [(e.act, id)])
  else if g.sibling && g.sb == some g.depth then joinAt s e 15 true
  else if g.depth = 0 then .ok (s.exitLanes g e.act)
  else
    match g.older with
    | [] => if s.callerTP g then .trap s (mkTrap 17 5) else .wait (s.modGroup g.uid fun x => { x with wse := .refill })
    | c :: rest =>
      if c.lost then .trap s (spillImageError 0)
      else if c.tp then .trap s (mkTrap 17 5) else .ok (s.setGroup ((g.advance (.ret o)).return_ c rest))

/-- ENTER (R192, 03 R61, R63). -/
def execEnter (o : J64) (s : State) := issue (.enter o) s fun s e =>
  let g := e.g
  let t := directTarget g (o.off.signExtend 64)
  let f := g.frame
  if o.off != 0 && (t &&& 0xF) != 0 then .trap s (illegalTrap 2 7 8)
  else if f.entered then .trap s (mkTrap 17 1)
  else if g.inTrap && decide (s.spillLim g < s.spillTop g + g.olderBytes) then .wait (s.parkOnToken g (s.roomRecord g))
  else if !g.inTrap && decide (s.spillLim g < s.spillTop g + g.olderBytes + 16384) then .trap s (mkTrap 16 1)
  else done s (.enter o) { g with frame := { f with
    fsz := 8 * o.d.toNat, table := if o.off = 0 then none else some t, entered := true
    v := (List.range 64).map fun k => if k < 8 then f.reg? k else none } }

/-- JOIN (R194): nothing with sibling flag 0; it waits for side-log parts in either case. -/
def execJoin (o : A32) (s : State) := issue (.join o) s fun s e =>
  if s.sideBusy e.g.uid then .wait s
  else if e.g.sibling then joinAt s e o.b.toNat false else done s (.join o) e.g

/-- EXIT (R195). -/
def execExit (o : A32) (s : State) := issue (.exit o) s fun s e => .ok (s.exitLanes (e.g.advance (.exit o)) e.act)

/-- WSYNC (R196, 03 R73): a spill is applied at its home in the step that makes it, so none is outstanding. -/
def execWsync (o : A32) (s : State) := issue (.wsync o) s fun s e => done s (.wsync o) e.g

/-- PIN (R197). -/
def execPin (o : A32) (s : State) := issue (.pin o) s fun s e =>
  done s (.pin o) { e.g with pinned := true, affL := e.g.l, affC := e.g.core }

/-- UNPIN (R197). -/
def execUnpin (o : A32) (s : State) := issue (.unpin o) s fun s e => done s (.unpin o) { e.g with pinned := false }

/-- The trap of TRAP and SYSCALL (R198). -/
def codeTrap (cause : Nat) (code : BitVec 9) (act : Mask) : Trap :=
  ⟨cause, BitVec.ofNat 64 (code.toNat + 2 ^ 32 * act.toNat), 0⟩

/-- TRAP (R198). -/
def execTrap (o : I32) (s : State) := issue (.trap o) s fun s e => .trap s (codeTrap 35 o.imm e.act)

/-- SYSCALL (R198). -/
def execSyscall (o : I32) (s : State) := issue (.syscall o) s fun s e => .trap s (codeTrap 36 o.imm e.act)

end Sys2Proof.Machine
end

