-- ==== Sys2Proof/Machine/Flags.lean ====
section
/-! DEFINITION. The form of a destination (03 Table 3-4) and the exception flags of a floating-point instruction
(04 R95, R96, 08 R200). -/

namespace Sys2Proof.Machine

/-- A source register in form U; an absent register reads as a U zero (02 R37). -/
def Frame.isU (f : Frame) (n : Nat) : Bool :=
  match f.reg? n with
  | none => true
  | some r => match r.val with | .u _ => true | _ => false

/-- Base and stride of a U or A source; none for G (03 R51). -/
def Frame.affine (f : Frame) (n : Nat) : Option (Word × Word) :=
  match f.reg? n with
  | none => some (0, 0)
  | some r =>
    match r.val with
    | .u x => some (x, 0)
    | .a b s => some (b, s)
    | .g _ => none

/-- The "all other" row: U when every source is U, else G. -/
def Frame.formOther (f : Frame) (srcs : List Nat) : DForm := if srcs.all f.isU then .u else .g

/-- The MOV row: the form of the source. -/
def Frame.formMov (f : Frame) (n : Nat) : DForm :=
  match f.affine n with
  | none => .g
  | some (b, s) => if f.isU n then .u else .a b s

/-- The ADD and SUB rows over two sources given as affine values and whether each is U. -/
def formAdd (sub : Bool) (x y : Option (Word × Word)) (ux uy : Bool) : DForm :=
  match x, y with
  | some (b, s), some (b', s') =>
    if ux && uy then .u else if sub then .a (b - b') (s - s') else .a (b + b') (s + s')
  | _, _ => .g

/-- The MUL row. -/
def formMul (x y : Option (Word × Word)) (ux uy : Bool) : DForm :=
  match x, y with
  | some (b, s), some (b', s') =>
    if ux && uy then .u
    else if ux then .a (b * b') (b * s')
    else if uy then .a (b * b') (s * b')
    else .g
  | _, _ => .g

/-- SHL of 07 Table 7-1. -/
def shlWord (a n : Word) : Word := if n.toNat ≤ 31 then a <<< n.toNat else 0

/-- The SHL row. -/
def formShl (x : Option (Word × Word)) (ux uy : Bool) (n : Word) : DForm :=
  match x with
  | some (b, s) => if ux && uy then .u else if uy then .a (shlWord b n) (shlWord s n) else .g
  | none => .g

/-- The five exception flags NV, DZ, OF, UF, NX from bit 0 (Table 3-3). -/
abbrev Flags := BitVec 5

/-- No flag. -/
def fNone : Flags := 0
/-- NV. -/
def fNV : Flags := 1
/-- DZ. -/
def fDZ : Flags := 2
/-- OF. -/
def fOF : Flags := 4
/-- UF. -/
def fUF : Flags := 8
/-- NX. -/
def fNX : Flags := 16

/-- The flags raised over the lanes of a mask (04 R96). -/
def orFlags (act : Mask) (f : Nat → Flags) : Flags := (lanesOf act).foldl (fun a i => a ||| f i) 0

/-- The floating-point exception trap (08 R200, Table 8-1): the flags over the written lanes, and the lanes that
raised an enabled one. -/
def fpTrap (g : Group) (act : Mask) (f : Nat → Flags) : Trap :=
  ⟨15, BitVec.ofNat 64 ((orFlags act f).toNat + 2 ^ 32 * (maskOf fun i => act.getLsbD i && (f i &&& g.fxe) != 0).toNat), 0⟩

/-- Complete a floating-point instruction (08 R200, 03 R53): its flags go to GSTATUS; when one of them is enabled the
instruction traps with its destination unwritten and its flags set. -/
def fpDone (s : State) (i : Instr) (e : Env) (f : Nat → Flags) (frame : Frame) : R :=
  let fl := orFlags e.act f
  let g := e.g.sticky (fl.setWidth 32)
  if (fl &&& e.g.fxe) != 0 then .trap (s.setGroup g) (fpTrap e.g e.act f)
  else done s i { g with frame := frame }

end Sys2Proof.Machine
end

