-- ==== Sys2Proof/Machine/Fp.lean ====
section
/-! DEFINITION. Floating-point values and their arithmetic (00 R7, 04 R81 to R98, 08 R204 to R212): encodings as
exact numbers, Round, sums, products, quotients and roots. -/

namespace Sys2Proof.Machine

/-- A floating-point format: exponent and fraction widths, bias, the largest finite encoding, the canonical NaN
(Table 4-1), whether it has infinities. -/
structure FpFmt where
  w : Nat
  p : Nat
  bias : Nat
  top : Nat
  nan : Nat
  inf : Bool
  deriving DecidableEq, Repr

/-- f64. -/
def F64 : FpFmt := ⟨11, 52, 1023, 0x7FEFFFFFFFFFFFFF, 0x7FF8000000000000, true⟩
/-- f32. -/
def F32 : FpFmt := ⟨8, 23, 127, 0x7F7FFFFF, 0x7FC00000, true⟩
/-- f16. -/
def F16 : FpFmt := ⟨5, 10, 15, 0x7BFF, 0x7E00, true⟩
/-- bf16. -/
def BF16 : FpFmt := ⟨8, 7, 127, 0x7F7F, 0x7FC0, true⟩
/-- e4m3: the two encodings 0x7F and 0xFF are NaN. -/
def E4M3 : FpFmt := ⟨4, 3, 7, 0x7E, 0x7F, false⟩
/-- e5m2. -/
def E5M2 : FpFmt := ⟨5, 2, 15, 0x7B, 0x7E, true⟩
/-- e3m2: no NaN; a NaN narrows to +0. -/
def E3M2 : FpFmt := ⟨3, 2, 3, 0x1F, 0, false⟩
/-- e2m3. -/
def E2M3 : FpFmt := ⟨2, 3, 1, 0x1F, 0, false⟩
/-- e2m1. -/
def E2M1 : FpFmt := ⟨2, 1, 1, 0x7, 0, false⟩

/-- A format's sign bit as a number. -/
def FpFmt.sign (f : FpFmt) : Nat := 2 ^ (f.w + f.p)

/-- What an encoding stands for (R81, R83): a finite value is (−1)^neg × m × 2^e. -/
inductive Num where
  | nan (signalling : Bool)
  | inf (neg : Bool)
  | fin (neg : Bool) (m : Nat) (e : Int)
  deriving DecidableEq, Repr

/-- The number an encoding stands for (R81, R83). -/
def FpFmt.num (f : FpFmt) (x : Nat) : Num :=
  let neg := decide (x / f.sign % 2 = 1)
  let e := x / 2 ^ f.p % 2 ^ f.w
  let t := x % 2 ^ f.p
  if e = 2 ^ f.w - 1 ∧ f.inf then (if t = 0 then .inf neg else .nan (t / 2 ^ (f.p - 1) == 0))
  else if x % f.sign > f.top then .nan false
  else if e = 0 then .fin neg t (1 - (f.bias : Int) - f.p)
  else .fin neg (2 ^ f.p + t) ((e : Int) - f.bias - f.p)

/-- A NaN. -/
def Num.isNan : Num → Bool
  | .nan _ => true
  | _ => false
/-- A signalling NaN. -/
def Num.isSig : Num → Bool
  | .nan s => s
  | _ => false
/-- An infinity. -/
def Num.isInf : Num → Bool
  | .inf _ => true
  | _ => false
/-- A zero. -/
def Num.isZero : Num → Bool
  | .fin _ m _ => m == 0
  | _ => false
/-- The sign of a number that is no NaN. -/
def Num.neg : Num → Bool
  | .nan _ => false
  | .inf s => s
  | .fin s _ _ => s
/-- The number with its sign changed. -/
def Num.flip : Num → Num
  | .nan s => .nan s
  | .inf s => .inf (!s)
  | .fin s m e => .fin (!s) m e
/-- A finite number times a power of two (R87). -/
def Num.scale (n : Num) (k : Int) : Num :=
  match n with
  | .fin s m e => .fin s m (e + k)
  | x => x

/-- The rounding modes, coded as GMODE.RM codes them (Table 3-2). -/
inductive Rm where
  | rne | rtz | rup | rdn
  deriving DecidableEq, Repr

/-- The mode of a code of Table 3-2. -/
def Rm.ofCode (n : Nat) : Rm :=
  match n with
  | 0 => .rne
  | 1 => .rtz
  | 2 => .rup
  | _ => .rdn

/-- The mode of a T64 instruction's ctl[2:0] (R153). -/
def rmOf (g : Group) (c : Nat) : Rm := if c = 0 then Rm.ofCode g.rm else Rm.ofCode (c - 1)

/-- The mode is away from zero for a value of this sign. -/
def Rm.away (r : Rm) (neg : Bool) : Bool :=
  match r with
  | .rup => !neg
  | .rdn => neg
  | _ => false

/-- A magnitude of m units, plus less than one more when `st`, cut to a grid 2^d units wide: the count of grid steps
after rounding, and whether it is inexact. -/
def cut (r : Rm) (neg : Bool) (m : Nat) (st : Bool) (d : Nat) : Nat × Bool :=
  let d := min d (Nat.log2 m + 3)
  let n := m / 2 ^ d
  let rest := m % 2 ^ d
  let half := 2 ^ d / 2
  let inexact := rest != 0 || st
  let more := d != 0 && (decide (half < rest) || (rest == half && st))
  let tie := d != 0 && rest == half && !st
  let up := match r with
    | .rne => more || (tie && n % 2 == 1)
    | _ => r.away neg && inexact
  (if up then n + 1 else n, inexact)

/-- A result: its bits and its flags. -/
structure FpR where
  bits : Nat
  fl : Flags
  deriving DecidableEq, Repr

/-- Magnitude bits after Round, before any overflow rule, with the inexact and tiny outcomes (R7): the value is m × 2^e,
and above it by less than 2^e when `st`. A magnitude far above the format's range gives an encoding above its largest. -/
def FpFmt.roundRaw (f : FpFmt) (r : Rm) (neg : Bool) (m : Nat) (e : Int) (st : Bool) : Nat × Bool × Bool :=
  let top : Int := Nat.log2 m + e
  let emin : Int := 1 - (f.bias : Int)
  if (2 ^ f.w : Int) < top then (2 ^ (f.w + f.p), true, false)
  else
    let q := max top emin - f.p
    let (n, inexact) := if q ≤ e then (m * 2 ^ (e - q).toNat, st) else cut r neg m st (q - e).toNat
    let bits := ((q + f.p + f.bias).toNat - 1) * 2 ^ f.p + n
    let q' := top - f.p
    let (n', _) := if q' ≤ e then (m * 2 ^ (e - q').toNat, st) else cut r neg m st (q' - e).toNat
    let tiny := decide (top < emin) && !(decide (top = emin - 1) && n' == 2 ^ (f.p + 1))
    (bits, inexact, tiny && inexact)

/-- The IEEE overflow result: infinity, or the largest finite value (R7, R92). -/
def FpFmt.overflow (f : FpFmt) (r : Rm) (neg : Bool) : Nat :=
  let toInf := f.inf && (match r with | .rne => true | _ => r.away neg)
  (if neg then f.sign else 0) + (if toInf then f.top + 1 else f.top)

/-- Round of a nonzero finite value (R7). -/
def FpFmt.round (f : FpFmt) (r : Rm) (neg : Bool) (m : Nat) (e : Int) (st : Bool) : FpR :=
  let (b, inexact, under) := f.roundRaw r neg m e st
  if f.top < b then ⟨f.overflow r neg, fOF ||| fNX⟩
  else ⟨(if neg then f.sign else 0) + b, (if inexact then fNX else 0) ||| (if under then fUF else 0)⟩

/-- A zero. -/
def FpFmt.zero (f : FpFmt) (neg : Bool) : Nat := if neg then f.sign else 0
/-- An infinity. -/
def FpFmt.infinity (f : FpFmt) (neg : Bool) : Nat := f.zero neg + f.top + 1
/-- The canonical NaN, with NV when asked (R84, R93). -/
def FpFmt.nanR (f : FpFmt) (nv : Bool) : FpR := ⟨f.nan, if nv then fNV else 0⟩

/-- The exact product of two numbers; none for 0 × ∞. -/
def mulNum : Num → Num → Option Num
  | .nan s, _ => some (.nan s)
  | _, .nan s => some (.nan s)
  | .inf s, .inf t => some (.inf (s != t))
  | .inf s, .fin t m _ => if m = 0 then none else some (.inf (s != t))
  | .fin s m _, .inf t => if m = 0 then none else some (.inf (s != t))
  | .fin s m e, .fin t n k => some (.fin (s != t) (m * n) (e + k))

/-- The least exponent among finite terms. -/
def leastExp : List Num → Int
  | [] => 0
  | [.fin _ _ e] => e
  | .fin _ _ e :: xs => min e (leastExp xs)
  | _ :: xs => leastExp xs

/-- The exact sum of finite terms in units of 2^e. -/
def sumUnits (e : Int) (xs : List Num) : Int :=
  xs.foldl (fun a x => match x with
    | .fin s m k => let v : Int := m * 2 ^ (k - e).toNat; if s then a - v else a + v
    | _ => a) 0

/-- Round of the exact sum of terms, none of them a NaN (R91, R204, R208). -/
def FpFmt.sum (f : FpFmt) (r : Rm) (xs : List Num) : FpR :=
  let infs := xs.filter Num.isInf
  match infs with
  | i :: rest => if rest.all fun j => j.neg == i.neg then ⟨f.infinity i.neg, 0⟩ else f.nanR true
  | [] =>
    let ys := xs.filter fun x => !x.isZero
    let e := leastExp ys
    let u := sumUnits e ys
    if u = 0 then
      let same := match xs with | [] => some false | x :: rest => if ys.isEmpty && rest.all (fun y => y.neg == x.neg) then some x.neg else none
      ⟨f.zero (same.getD (r == .rdn)), 0⟩
    else f.round r (decide (u < 0)) u.natAbs e false

/-- An operation on operands whose exact result is the sum of `terms`, a term of none being 0 × ∞ (R93, R95). A quiet NaN operand
beside terms that are infinities of opposite sign (08 R208) gives NaN without NV (log entry 101). -/
def FpFmt.arith (f : FpFmt) (r : Rm) (ops : List Num) (terms : List (Option Num)) : FpR :=
  let sig := ops.any Num.isSig
  let invalid := terms.any Option.isNone
  if ops.any Num.isNan || invalid then f.nanR (sig || invalid) else f.sum r (terms.filterMap id)

/-- a + b. -/
def FpFmt.add (f : FpFmt) (r : Rm) (a b : Nat) : FpR := f.arith r [f.num a, f.num b] [some (f.num a), some (f.num b)]
/-- a + (−b). -/
def FpFmt.sub (f : FpFmt) (r : Rm) (a b : Nat) : FpR := f.arith r [f.num a, f.num b] [some (f.num a), some (f.num b).flip]
/-- a × b. -/
def FpFmt.mul (f : FpFmt) (r : Rm) (a b : Nat) : FpR := f.arith r [f.num a, f.num b] [mulNum (f.num a) (f.num b)]
/-- a × b + c. -/
def FpFmt.fma (f : FpFmt) (r : Rm) (a b c : Nat) : FpR :=
  f.arith r [f.num a, f.num b, f.num c] [mulNum (f.num a) (f.num b), some (f.num c)]

/-- The sign rule and exactness of a magnitude compared with another: less. -/
def magLt (m : Nat) (e : Int) (n : Nat) (k : Int) : Bool :=
  if m = 0 then n != 0
  else if n = 0 then false
  else
    let x : Int := Nat.log2 m + e
    let y : Int := Nat.log2 n + k
    if x < y then true
    else if y < x then false
    else
      let l := min e k
      decide (m * 2 ^ (e - l).toNat < n * 2 ^ (k - l).toNat)

/-- a < b for numbers that are no NaN, −0 equal to +0 (R206). -/
def numLt (a b : Num) : Bool :=
  match a, b with
  | .nan _, _ => false
  | _, .nan _ => false
  | .inf s, .inf t => s && !t
  | .inf s, .fin _ _ _ => s
  | .fin _ _ _, .inf t => !t
  | .fin s m e, .fin t n k =>
    if m = 0 ∧ n = 0 then false
    else if s && !t then true
    else if !s && t then false
    else if s then magLt n k m e else magLt m e n k

/-- minimumNumber or maximumNumber, −0 below +0 (R94). -/
def FpFmt.minmax (f : FpFmt) (isMax : Bool) (a b : Nat) : FpR :=
  let x := f.num a
  let y := f.num b
  let fl := if x.isSig || y.isSig then fNV else 0
  if x.isNan && y.isNan then ⟨f.nan, fl⟩
  else if x.isNan then ⟨b, fl⟩
  else if y.isNan then ⟨a, fl⟩
  else
    let less := numLt x y || (!numLt y x && x.neg && !y.neg)
    ⟨if less != isMax then a else b, fl⟩

/-- The conditions of Table 8-5, and NV. -/
def FpFmt.compare (f : FpFmt) (cc a b : Nat) : Bool × Flags :=
  let x := f.num a
  let y := f.num b
  let un := x.isNan || y.isNan
  let lt := !un && numLt x y
  let eq := !un && !numLt x y && !numLt y x
  let sig := x.isSig || y.isSig
  match cc with
  | 0 => (eq, if sig then fNV else 0)
  | 1 => (!eq, if sig then fNV else 0)
  | 2 => (lt, if un then fNV else 0)
  | 3 => (lt || eq, if un then fNV else 0)
  | 4 => (un, if sig then fNV else 0)
  | 5 => (!un, if sig then fNV else 0)
  | 6 => (un || lt, if sig then fNV else 0)
  | _ => (un || lt || eq, if sig then fNV else 0)

/-- a / b (R98, Table 8-8). -/
def FpFmt.div (f : FpFmt) (r : Rm) (a b : Nat) : FpR :=
  let x := f.num a
  let y := f.num b
  let neg := x.neg != y.neg
  if x.isNan || y.isNan then f.nanR (x.isSig || y.isSig)
  else
    match x, y with
    | .inf _, .inf _ => f.nanR true
    | .inf _, _ => ⟨f.infinity neg, 0⟩
    | _, .inf _ => ⟨f.zero neg, 0⟩
    | .fin _ m e, .fin _ n k =>
      if n = 0 then (if m = 0 then f.nanR true else ⟨f.infinity neg, fDZ⟩)
      else if m = 0 then ⟨f.zero neg, 0⟩
      else
        let up := 2 * f.p + 8
        let q := m * 2 ^ up / n
        f.round r neg q (e - k - up) (m * 2 ^ up % n != 0)
    | _, _ => f.nanR false

/-- The integer square root of `n`, whose root has at most `k` bits. -/
def isqrt (n : Nat) : Nat → Nat → Nat
  | 0, r => r
  | k + 1, r => if (r + 2 ^ k) * (r + 2 ^ k) ≤ n then isqrt n k (r + 2 ^ k) else isqrt n k r

/-- √a (R98, Table 8-8). -/
def FpFmt.sqrt (f : FpFmt) (r : Rm) (a : Nat) : FpR :=
  match f.num a with
  | .nan s => f.nanR s
  | .inf s => if s then f.nanR true else ⟨f.infinity false, 0⟩
  | .fin s m e =>
    if m = 0 then ⟨f.zero s, 0⟩
    else if s then f.nanR true
    else
      let up := 2 * f.p + 6 + (if (e + 2 * f.p) % 2 = 0 then 0 else 1)
      let n := m * 2 ^ up
      let q := isqrt n (Nat.log2 n / 2 + 1) 0
      f.round r false q ((e - up) / 2) (q * q != n)

/-- The value rounded to an integer under a mode: its magnitude, and whether it differs (R211, R215). -/
def roundInt (r : Rm) (neg : Bool) (m : Nat) (e : Int) : Nat × Bool :=
  if 0 ≤ e then (m * 2 ^ e.toNat, false) else cut r neg m false (-e).toNat

/-- FRND (R211). -/
def frndR (r : Rm) (a : Nat) : FpR :=
  match F32.num a with
  | .nan s => F32.nanR s
  | .inf _ => ⟨a, 0⟩
  | .fin s m e =>
    if m = 0 ∨ 0 ≤ e then ⟨a, 0⟩
    else
      let (n, _) := roundInt r s m e
      if n = 0 then ⟨F32.zero s, 0⟩ else ⟨(F32.round r s n 0 false).bits, 0⟩

/-- FCLASS's word (Table 8-9). -/
def FpFmt.cls (f : FpFmt) (a : Nat) : Word :=
  let k : Nat := match f.num a with
    | .nan s => if s then 1 else 0
    | .inf s => if s then 9 else 2
    | .fin s m _ =>
      if m = 0 then (if s then 6 else 5)
      else if a / 2 ^ f.p % 2 ^ f.w = 0 then (if s then 7 else 4)
      else if s then 8 else 3
  BitVec.ofNat 32 (2 ^ k)

/-- FSAT (Table 8-4). -/
def fsatR (a : Nat) : FpR :=
  match F32.num a with
  | .nan s => ⟨0, if s then fNV else 0⟩
  | .inf s => ⟨if s then 0 else 0x3F800000, 0⟩
  | .fin s m _ => ⟨if s || m == 0 then 0 else if 0x3F800000 ≤ a then 0x3F800000 else a, 0⟩

/-- FSCALE (Table 8-4). -/
def fscaleR (r : Rm) (a : Nat) (n : Int) : FpR :=
  match F32.num a with
  | .nan s => F32.nanR s
  | .inf s => ⟨F32.infinity s, 0⟩
  | .fin s m e => if m = 0 then ⟨F32.zero s, 0⟩ else F32.round r s m (e + n) false

/-- An integer as f32 or f64 (R216). -/
def FpFmt.ofInt (f : FpFmt) (r : Rm) (x : Int) : FpR :=
  if x = 0 then ⟨0, 0⟩ else f.round r (decide (x < 0)) x.natAbs 0 false

/-- FGETEXP (Table 8-4). -/
def fgetexpR (a : Nat) : FpR :=
  match F32.num a with
  | .nan s => F32.nanR s
  | .inf _ => ⟨F32.infinity false, 0⟩
  | .fin _ m e => if m = 0 then ⟨F32.infinity true, fDZ⟩ else F32.ofInt .rne (Nat.log2 m + e)

/-- A narrow conversion of a number (R92, Table 4-3). -/
def FpFmt.narrow (f : FpFmt) (r : Rm) (nosat : Bool) (x : Num) : FpR :=
  let noNan := f.nan == 0
  match x with
  | .nan s => if noNan then ⟨0, fNV⟩ else f.nanR s
  | .inf s =>
    if f.inf then ⟨f.infinity s, 0⟩
    else if nosat && !noNan then ⟨f.zero s + f.nan, fNV⟩
    else ⟨f.zero s + f.top, fNX⟩
  | .fin s m e =>
    if m = 0 then ⟨f.zero s, 0⟩
    else
      let (b, inexact, under) := f.roundRaw r s m e false
      if f.top < b then
        ⟨if nosat then (if f.inf then f.overflow r s else f.zero s + f.nan) else f.zero s + f.top, fOF ||| fNX⟩
      else ⟨f.zero s + b, (if inexact then fNX else 0) ||| (if under then fUF else 0)⟩

end Sys2Proof.Machine
end

