-- ==== Sys2Proof/Machine/FpFunc.lean ====
section
/-! DEFINITION. The table-defined functions of f32 (04 R99 to R104) in exact arithmetic on dyadic numbers. The tables
EXT, RCP and RSQ are computed by their rules in Table 4-6; SIN64, LGT and π are written out from theirs. -/

namespace Sys2Proof.Machine

/-- A dyadic number m × 2^e. -/
structure Dy where
  m : Int
  e : Int
  deriving DecidableEq, Repr

/-- Sum. -/
def Dy.add (x y : Dy) : Dy :=
  let e := min x.e y.e
  ⟨x.m * 2 ^ (x.e - e).toNat + y.m * 2 ^ (y.e - e).toNat, e⟩
/-- Negation. -/
def Dy.neg (x : Dy) : Dy := ⟨-x.m, x.e⟩
/-- Difference. -/
def Dy.sub (x y : Dy) : Dy := x.add y.neg
/-- Product. -/
def Dy.mul (x y : Dy) : Dy := ⟨x.m * y.m, x.e + y.e⟩
/-- An integer. -/
def Dy.int (n : Int) : Dy := ⟨n, 0⟩
/-- Multiplied by 2^k. -/
def Dy.shift (x : Dy) (k : Int) : Dy := ⟨x.m, x.e + k⟩
/-- Floor. -/
def Dy.floor (x : Dy) : Int := if 0 ≤ x.e then x.m * 2 ^ x.e.toNat else x.m / 2 ^ (-x.e).toNat

/-- Tz(v, n) of R99: truncation toward zero onto a grid of 2^−n. -/
def tz (v : Dy) (n : Nat) : Dy :=
  if -(n : Int) ≤ v.e then v
  else ⟨v.m.tdiv (2 ^ (-(n : Int) - v.e).toNat), -(n : Int)⟩

/-- Round of a dyadic number to f32, NX always raised (R99). -/
def dyRound (r : Rm) (v : Dy) : FpR :=
  if v.m = 0 then ⟨0, fNX⟩
  else
    let x := F32.round r (decide (v.m < 0)) v.m.natAbs v.e false
    ⟨x.bits, x.fl ||| fNX⟩

/-- A value on the grid 2^−64. -/
def q64 (n : Int) : Dy := ⟨n, -64⟩
/-- A value on the grid 2^−32. -/
def q32 (n : Int) : Dy := ⟨n, -32⟩

/-- The greatest n of at most `k` bits over `r` that a test admits, for a test that holds up to a bound. -/
def greatest (ok : Nat → Bool) : Nat → Nat → Nat
  | 0, r => r
  | k + 1, r => if ok (r + 2 ^ k) then greatest ok k (r + 2 ^ k) else greatest ok k r

/-- EXT[j]: the n nearest 2^32 × 2^(j/64), so that (2n − 1)^64 ≤ 2^(64 × 33 + j). -/
def extTab (j : Nat) : Dy := q32 (greatest (fun n => decide ((2 * n - 1) ^ 64 ≤ 2 ^ (2112 + j))) 34 0)

/-- RCP[j]: the n nearest 512 × 64 / (j + 45.5), and 1 at the two entries beside 1 (Table 4-6). -/
def rcpTab (j : Nat) : Dy :=
  if j = 18 ∨ j = 19 then .int 1 else ⟨((131072 + (2 * j + 91)) / (2 * (2 * j + 91)) : Nat), -9⟩

/-- RSQ[j]: the n nearest 2^32 × (1 + (2j + 1)/64)^(−1/2), so that (2n − 1)² × (65 + 2j) ≤ 2^72. -/
def rsqTab (j : Nat) : Dy := q32 (greatest (fun n => decide ((2 * n - 1) ^ 2 * (65 + 2 * j) ≤ 2 ^ 72)) 34 0)

/-- LGT, as multiples of 2^−64, entries from 0. -/
def lgtTab0 : List Int :=
  [-0x7DEA15A32C1B3B38, -0x7623845DDEC522B6, -0x6E32236FE219E65D, -0x66A008E4788CBCD3,
   -0x5EE55EB146AB115E, -0x57923497D8AAE594, -0x501918EC6C1125D7, -0x49101EAC381CE609,
   -0x41E42B6EC0C025BC, -0x3B314FB14C0B4D80, -0x345EC6464170D594, -0x2E0E85A9DE04FE54,
   -0x27A228DB3514C7E0, -0x2118B119B4F3C72C, -0x1B1CD1ECAE66E6A2, -0x1507B836033BB6D5]

/-- LGT, as multiples of 2^−64, entries from 16. -/
def lgtTab1 : List Int :=
  [-0xED88BA8B079D7C8, -0x88E68EA899A0977, 0, 0,
   0x8C25C7262B57C15, 0xDF7648A8D561729, 0x14023B7B26AC9DC3, 0x1960CAF9ABB7C9EE,
   0x1ED3A1D4CDBEBAA4, 0x238FCEFBBC67B716, 0x2929F0C771BE6975, 0x2E08C0638F3F097C,
   0x32F8396278FD810B, 0x37F8CF4FFFE9980E, 0x3D0AFA7A6C26CF7C, 0x422F383657E8DFB1]

/-- LGT, as multiples of 2^−64, entries from 32. -/
def lgtTab2 : List Int :=
  [0x4686429759D281A3, 0x4BCCF9B48483C644, 0x5041805F0FB28A3A, 0x54C3F423CA7E9C27,
   0x5954AD266189DDAD, 0x5DF406D9BEF4DA92, 0x62A2602AFEF4C99A, 0x666C1CAA5B1AC9BD,
   0x6B36704C3754FD70, 0x6F17152249532E75, 0x73FEB9846B44AD8A, 0x77F7627561B8AC27,
   0x7BFB186C047E156D]

/-- LGT, as multiples of 2^−64 (Table 4-6). -/
def lgtTab : List Int := lgtTab0 ++ lgtTab1 ++ lgtTab2

/-- SIN64, as multiples of 2^−64, entries from 0. -/
def sinTab0 : List Nat :=
  [0x0, 0xC8FB2F886EC09F3, 0x1917A6BC29B42BE2, 0x259020DD1CC27445,
   0x31F17078D34C156D, 0x3E33F2F642BE355F, 0x4A5018BB567C16A3, 0x563E69D6AC7F73F8,
   0x61F78A9ABAA58B47, 0x6D744027857300AE, 0x78AD74E01BD8EC78, 0x839C3CC917FF6CB5,
   0x8E39D9CD73464365, 0x987FBFE70B81A708, 0xA267992848EEB0C0, 0xABEB49A46764FD15]

/-- SIN64, as multiples of 2^−64, entries from 16. -/
def sinTab1 : List Nat :=
  [0xB504F333F9DE6484, 0xBDAEF913557D76F1, 0xC5E40358A8BA05A7, 0xCD9F023F9C3A059E,
   0xD4DB3148750D181A, 0xDB941A28CB71EC87, 0xE1C5978C05ED8692, 0xE76BD7A1E63B9786,
   0xEC835E79946A3145, 0xF1090827B43725FD, 0xF4FA0AB6316ED2EC, 0xF853F7DC9186B953,
   0xFB14BE7FBAE58156, 0xFD3AABF84528B50C, 0xFEC46D1E89292CF0, 0xFFB10F1BCB6BEF1D]

/-- SIN64, as multiples of 2^−64, entries from 32. -/
def sinTab2 : List Nat :=
  [0x10000000000000000]

/-- SIN64, as multiples of 2^−64 (Table 4-6). -/
def sinTab : List Nat := sinTab0 ++ sinTab1 ++ sinTab2

/-- π × 2^448, truncated: the bits of π that R103 takes for every f32 (log entry 23). -/
def piBits : Nat :=
  0x3243F6A8885A308D313198A2E03707344A4093822299F31D0082EFA98EC4E6C89452821E638D01377BE5466CF34E90C6CC0AC29B7C97C50DD

/-- π as R103 takes it. -/
def piFull : Dy := ⟨piBits, -448⟩
/-- π as BX-E01 takes it: floor(π × 2^190) × 2^−190. -/
def piShort : Dy := ⟨(piBits / 2 ^ 258 : Nat), -190⟩

/-- The special inputs of Table 4-5: the results for +∞, −∞, +0, −0, and whether a finite value below −0 gives NaN. -/
structure Special where
  pinf : FpR
  ninf : FpR
  pzero : FpR
  nzero : FpR
  noNeg : Bool

/-- Apply a function to an f32 with the special inputs of Table 4-5. -/
def special (t : Special) (a : Nat) (f : Bool → Nat → Int → FpR) : FpR :=
  match F32.num a with
  | .nan s => F32.nanR s
  | .inf s => if s then t.ninf else t.pinf
  | .fin s m e =>
    if m = 0 then (if s then t.nzero else t.pzero)
    else if s && t.noNeg then F32.nanR true
    else f s m e

/-- 1.0. -/
def oneR : FpR := ⟨0x3F800000, 0⟩
/-- A signed number of natural magnitude. -/
def sgn (s : Bool) (m : Nat) : Int := if s then -(m : Int) else m

/-- FEXP2 (R100). -/
def exp2R (r : Rm) (a : Nat) : FpR :=
  special ⟨⟨F32.infinity false, 0⟩, ⟨0, 0⟩, oneR, oneR, false⟩ a fun s m e =>
    let x : Dy := ⟨sgn s m, e⟩
    let n := x.floor
    let f := x.sub (.int n)
    if f.m = 0 then F32.round r false 1 n false
    else
      let big := tz f 32
      let j := (big.shift 6).floor
      let rr := big.sub ⟨j, -6⟩
      let q := q32 0x0E35846C
      let q := (q32 0x3D7F7BFF).add (tz (rr.mul q) 64)
      let q := (q32 0xB17217F8).add (tz (rr.mul q) 64)
      let t := extTab j.toNat
      let y := t.add (tz (t.mul (tz (rr.mul q) 64)) 64)
      dyRound r (y.shift n)

/-- The nested sums of R101 and R102: from the highest coefficient down. -/
def horner (u : Dy) : List Dy → Dy → Dy
  | [], q => q
  | c :: cs, q => horner u cs (c.add (tz (u.mul q) 64))

/-- LN[6] to LN[1] (Table 4-6). -/
def lnTab : List Dy :=
  [q64 (-0x2AAAAAAAAAAAAAAB), q64 0x3333333333333333, ⟨-1, -2⟩, q64 0x5555555555555555, ⟨-1, -1⟩, .int 1]

/-- FLOG2 (R101). -/
def log2R (r : Rm) (a : Nat) : FpR :=
  special ⟨⟨F32.infinity false, 0⟩, F32.nanR true, ⟨F32.infinity true, fDZ⟩, ⟨F32.infinity true, fDZ⟩, true⟩ a fun _ m e =>
    let top := Nat.log2 m
    if m = 2 ^ top then F32.ofInt r (top + e)
    else
      let high := decide (90 * 2 ^ top ≤ 64 * m)
      let ex : Int := top + e + (if high then 1 else 0)
      let mm : Dy := ⟨m, -(top : Int) - (if high then 1 else 0)⟩
      let j := ((mm.shift 6).floor - 45).toNat
      let u := (mm.mul (rcpTab j)).sub (.int 1)
      let q := horner u lnTab (q64 0x2492492492492492)
      let t := tz (u.mul q) 64
      dyRound r (((Dy.int ex).add (q64 (lgtTab.getD j 0))).add (tz ((⟨0x5C551D94AE0BF85E, -62⟩ : Dy).mul t) 64))

/-- BN[3] to BN[1] (Table 4-6). -/
def bnTab : List Dy := [q64 (-0x5000000000000000), q64 0x6000000000000000, q64 (-0x8000000000000000)]

/-- FRSQ (R102). -/
def rsqR (r : Rm) (a : Nat) : FpR :=
  special ⟨⟨0, 0⟩, F32.nanR true, ⟨F32.infinity false, fDZ⟩, ⟨F32.infinity true, fDZ⟩, true⟩ a fun _ m e =>
    let top := Nat.log2 m
    let ex : Int := top + e
    let odd := ex % 2 != 0
    let ev := if odd then ex - 1 else ex
    let mm : Dy := ⟨m, -(top : Int) + (if odd then 1 else 0)⟩
    if m = 2 ^ top ∧ !odd then F32.round r false 1 (-(ev / 2)) false
    else
      let j := ((mm.sub (.int 1)).shift 5).floor.toNat
      let y := rsqTab j
      let t := (mm.mul (y.mul y)).sub (.int 1)
      let q := horner t bnTab (q64 0x4600000000000000)
      let v := y.add (tz (y.mul (tz (t.mul q) 64)) 64)
      dyRound r (v.shift (-(ev / 2)))

/-- SK(i) of R103. -/
def skTab (i : Int) : Dy :=
  let a := (i % 128).toNat
  let b := a % 64
  let n : Int := sinTab.getD (if b ≤ 32 then b else 64 - b) 0
  q64 (if 64 ≤ a then -n else n)

/-- FSIN and FCOS with a value of π (R103). -/
def trigR (isCos : Bool) (pi : Dy) (r : Rm) (x : Dy) : FpR :=
  let den := (pi.shift (-6))
  let two := 2 * den.m
  let e := min x.e den.e
  let xn := x.m * 2 ^ (x.e - e).toNat
  let dn := two * 2 ^ (den.e - e).toNat
  let k := (2 * xn + dn / 2) / dn
  let rho := if k = 0 then x else tz (x.sub (den.mul (.int k))) 72
  let w := rho.mul rho
  let sc5 := q64 0x0222222222222222
  let ps := rho.sub (tz (rho.mul (tz (w.mul ((q64 0x2AAAAAAAAAAAAAAB).sub (tz (w.mul sc5) 64))) 64)) 64)
  let cc4 := q64 0x0AAAAAAAAAAAAAAB
  let pc := (Dy.int 1).sub (tz (w.mul ((q64 0x8000000000000000).sub (tz (w.mul cc4) 64))) 64)
  let v := if isCos then ((skTab (k + 32)).mul pc).sub ((skTab k).mul ps)
    else ((skTab k).mul pc).add ((skTab (k + 32)).mul ps)
  dyRound r v

/-- FSINX and FCOSX, and FSIN and FCOS below 2^63 (R103, R442). -/
def trigXR (isCos : Bool) (r : Rm) (a : Nat) : FpR :=
  special ⟨F32.nanR true, F32.nanR true, if isCos then oneR else ⟨0, 0⟩, if isCos then oneR else ⟨0x80000000, 0⟩, false⟩ a
    fun s m e => trigR isCos piFull r ⟨sgn s m, e⟩

/-- FSIN and FCOS at B0 (R103, BX-E01 of Table 24-4). -/
def trigB0R (isCos : Bool) (r : Rm) (a : Nat) : FpR :=
  special ⟨F32.nanR true, F32.nanR true, if isCos then oneR else ⟨0, 0⟩, if isCos then oneR else ⟨0x80000000, 0⟩, false⟩ a
    fun s m e => trigR isCos (if (63 : Int) ≤ Nat.log2 m + e then piShort else piFull) r ⟨sgn s m, e⟩

end Sys2Proof.Machine
end

