-- ==== Sys2Proof/Machine/Integer.lean ====
section
/-! DEFINITION. Integer arithmetic and logic (07 R173 to R180), and the 16-bit forms of it (06 R154). -/

namespace Sys2Proof.Machine

/-- Write one v register in the lanes of ACTIVE (07 R170). -/
def writeLanes (i : Instr) (s : State) (e : Env) (d : Nat) (w : LaneWrite) : R :=
  done s i { e.g with frame := e.g.frame.write e.g.active e.act d w }

/-- Poison of any of the sources (07 R170). -/
def Frame.badAny (f : Frame) (srcs : List Nat) (l : Nat) : Bool := srcs.any fun r => f.bad r l

/-- A lane operation of two registers, in a form. -/
def lane2 (i : Instr) (d a b : Nat) (form : Frame → DForm) (f : Word → Word → Word) (s : State) (e : Env) : R :=
  writeLanes i s e d ⟨form e.g.frame, fun l => f (e.g.frame.lane a l) (e.g.frame.lane b l), e.g.frame.badAny [a, b]⟩

/-- A lane operation of one register and an immediate, in a form. -/
def lane1 (i : Instr) (d a : Nat) (form : Frame → DForm) (f : Word → Word) (s : State) (e : Env) : R :=
  writeLanes i s e d ⟨form e.g.frame, fun l => f (e.g.frame.lane a l), e.g.frame.badAny [a]⟩

/-- Write one value, with poison cleared. -/
def laneConst (i : Instr) (d : Nat) (x : Word) (s : State) (e : Env) : R :=
  writeLanes i s e d ⟨.u, fun _ => x, fun _ => false⟩

/-- "All other" form over two registers. -/
def other2 (a b : Nat) (f : Frame) : DForm := f.formOther [a, b]
/-- "All other" form over one register. -/
def other1 (a : Nat) (f : Frame) : DForm := f.formOther [a]

/-- ADD (Table 7-1; form row ADD). -/
def addOp (i : Instr) (d a b : Nat) : State → Env → R :=
  lane2 i d a b (fun f => formAdd false (f.affine a) (f.affine b) (f.isU a) (f.isU b)) (· + ·)
/-- SUB. -/
def subOp (i : Instr) (d a b : Nat) : State → Env → R :=
  lane2 i d a b (fun f => formAdd true (f.affine a) (f.affine b) (f.isU a) (f.isU b)) (· - ·)
/-- MUL. -/
def mulOp (i : Instr) (d a b : Nat) : State → Env → R :=
  lane2 i d a b (fun f => formMul (f.affine a) (f.affine b) (f.isU a) (f.isU b)) (· * ·)
/-- AND. -/
def andOp (i : Instr) (d a b : Nat) : State → Env → R := lane2 i d a b (other2 a b) (· &&& ·)
/-- OR. -/
def orOp (i : Instr) (d a b : Nat) : State → Env → R := lane2 i d a b (other2 a b) (· ||| ·)
/-- XOR. -/
def xorOp (i : Instr) (d a b : Nat) : State → Env → R := lane2 i d a b (other2 a b) (· ^^^ ·)
/-- ADDI, ADDI32: the immediate is a U source. -/
def addImm (i : Instr) (d a : Nat) (x : Word) : State → Env → R :=
  lane1 i d a (fun f => formAdd false (f.affine a) (some (x, 0)) (f.isU a) true) (· + x)
/-- SHLI. -/
def shlImm (i : Instr) (d a n : Nat) : State → Env → R :=
  lane1 i d a (fun f => formShl (f.affine a) (f.isU a) true (BitVec.ofNat 32 n)) fun x => shlWord x (BitVec.ofNat 32 n)
/-- SHR of Table 7-1. -/
def shrWord (a n : Word) : Word := if n.toNat ≤ 31 then a >>> n.toNat else 0
/-- SAR of Table 7-1. -/
def sarWord (a n : Word) : Word := a.sshiftRight (min n.toNat 31)
/-- SHRI. -/
def shrImm (i : Instr) (d a n : Nat) : State → Env → R :=
  lane1 i d a (other1 a) fun x => shrWord x (BitVec.ofNat 32 n)
/-- MOV: the form of the source. -/
def movOp (i : Instr) (d a : Nat) : State → Env → R := lane1 i d a (fun f => f.formMov a) id

/-- Lesser as s32. -/
def minS (a b : Word) : Word := if a.toInt ≤ b.toInt then a else b
/-- Greater as s32. -/
def maxS (a b : Word) : Word := if a.toInt ≤ b.toInt then b else a
/-- Lesser as z32. -/
def minZ (a b : Word) : Word := if a.toNat ≤ b.toNat then a else b
/-- Greater as z32. -/
def maxZ (a b : Word) : Word := if a.toNat ≤ b.toNat then b else a
/-- High half of the signed product. -/
def mulhiWord (a b : Word) : Word := BitVec.ofInt 32 (a.toInt * b.toInt / 2 ^ 32)
/-- High half of the unsigned product. -/
def mulhizWord (a b : Word) : Word := BitVec.ofNat 32 (a.toNat * b.toNat / 2 ^ 32)
/-- ABS; of 0x8000_0000 it is itself. -/
def absWord (a : Word) : Word := if a.msb then -a else a
/-- Count of leading zero bits, 32 for 0. -/
def clzWord (a : Word) : Word := BitVec.ofNat 32 (((List.range 32).takeWhile fun i => !a.getLsbD (31 - i)).length)
/-- Count of trailing zero bits, 32 for 0. -/
def ctzWord (a : Word) : Word := BitVec.ofNat 32 (((List.range 32).takeWhile fun i => !a.getLsbD i).length)
/-- Count of one bits. -/
def popcWord (a : Word) : Word := BitVec.ofNat 32 (lanesOf a).length
/-- Bit i of the result is bit 31 − i. -/
def brevWord (a : Word) : Word := maskOf fun i => a.getLsbD (31 - i)
/-- Rotate left by n mod 32. -/
def rotlWord (a n : Word) : Word := a.rotateLeft (n.toNat % 32)

/-- C16_ADD (R154). -/
def execC16Add (o : C16) (s : State) := issue (.c16Add o) s (addOp (.c16Add o) o.d.toNat o.d.toNat o.s.toNat)
/-- C16_SUB (R154). -/
def execC16Sub (o : C16) (s : State) := issue (.c16Sub o) s (subOp (.c16Sub o) o.d.toNat o.d.toNat o.s.toNat)
/-- C16_AND (R154). -/
def execC16And (o : C16) (s : State) := issue (.c16And o) s (andOp (.c16And o) o.d.toNat o.d.toNat o.s.toNat)
/-- C16_OR (R154). -/
def execC16Or (o : C16) (s : State) := issue (.c16Or o) s (orOp (.c16Or o) o.d.toNat o.d.toNat o.s.toNat)
/-- C16_XOR (R154). -/
def execC16Xor (o : C16) (s : State) := issue (.c16Xor o) s (xorOp (.c16Xor o) o.d.toNat o.d.toNat o.s.toNat)
/-- C16_MUL (R154). -/
def execC16Mul (o : C16) (s : State) := issue (.c16Mul o) s (mulOp (.c16Mul o) o.d.toNat o.d.toNat o.s.toNat)
/-- C16_MOV (R154, R155). -/
def execC16Mov (o : C16) (s : State) := issue (.c16Mov o) s (movOp (.c16Mov o) o.d.toNat o.s.toNat)
/-- C16_SHLI (R154, R150): an unsigned amount. -/
def execC16Shli (o : C16) (s : State) := issue (.c16Shli o) s (shlImm (.c16Shli o) o.d.toNat o.d.toNat o.s.toNat)
/-- C16_SHRI (R154, R150). -/
def execC16Shri (o : C16) (s : State) := issue (.c16Shri o) s (shrImm (.c16Shri o) o.d.toNat o.d.toNat o.s.toNat)
/-- C16_ADDI (R154, R150): a signed imm5. -/
def execC16Addi (o : C16) (s : State) := issue (.c16Addi o) s (addImm (.c16Addi o) o.d.toNat o.d.toNat (o.s.signExtend 32))
/-- C16_MOVI (R154, R150). -/
def execC16Movi (o : C16) (s : State) := issue (.c16Movi o) s (laneConst (.c16Movi o) o.d.toNat (o.s.signExtend 32))

/-- ADD (R173). -/
def execAdd (o : A32) (s : State) := issue (.add o) s (addOp (.add o) o.d.toNat o.a.toNat o.b.toNat)
/-- SUB (R173). -/
def execSub (o : A32) (s : State) := issue (.sub o) s (subOp (.sub o) o.d.toNat o.a.toNat o.b.toNat)
/-- MUL (R173). -/
def execMul (o : A32) (s : State) := issue (.mul o) s (mulOp (.mul o) o.d.toNat o.a.toNat o.b.toNat)
/-- AND (R173). -/
def execAnd (o : A32) (s : State) := issue (.and o) s (andOp (.and o) o.d.toNat o.a.toNat o.b.toNat)
/-- OR (R173). -/
def execOr (o : A32) (s : State) := issue (.or o) s (orOp (.or o) o.d.toNat o.a.toNat o.b.toNat)
/-- XOR (R173). -/
def execXor (o : A32) (s : State) := issue (.xor o) s (xorOp (.xor o) o.d.toNat o.a.toNat o.b.toNat)
/-- MULHI (R173). -/
def execMulhi (o : A32) (s : State) := issue (.mulhi o) s (lane2 (.mulhi o) o.d.toNat o.a.toNat o.b.toNat (other2 o.a.toNat o.b.toNat) mulhiWord)
/-- MULHIZ (R173). -/
def execMulhiz (o : A32) (s : State) := issue (.mulhiz o) s (lane2 (.mulhiz o) o.d.toNat o.a.toNat o.b.toNat (other2 o.a.toNat o.b.toNat) mulhizWord)
/-- ABS (R173). -/
def execAbs (o : A32) (s : State) := issue (.abs o) s (lane1 (.abs o) o.d.toNat o.a.toNat (other1 o.a.toNat) absWord)
/-- MIN (R173). -/
def execMin (o : A32) (s : State) := issue (.min o) s (lane2 (.min o) o.d.toNat o.a.toNat o.b.toNat (other2 o.a.toNat o.b.toNat) minS)
/-- MAX (R173). -/
def execMax (o : A32) (s : State) := issue (.max o) s (lane2 (.max o) o.d.toNat o.a.toNat o.b.toNat (other2 o.a.toNat o.b.toNat) maxS)
/-- MINZ (R173). -/
def execMinz (o : A32) (s : State) := issue (.minz o) s (lane2 (.minz o) o.d.toNat o.a.toNat o.b.toNat (other2 o.a.toNat o.b.toNat) minZ)
/-- MAXZ (R173). -/
def execMaxz (o : A32) (s : State) := issue (.maxz o) s (lane2 (.maxz o) o.d.toNat o.a.toNat o.b.toNat (other2 o.a.toNat o.b.toNat) maxZ)
/-- ANDN (R173). -/
def execAndn (o : A32) (s : State) := issue (.andn o) s (lane2 (.andn o) o.d.toNat o.a.toNat o.b.toNat (other2 o.a.toNat o.b.toNat) fun a b => a &&& ~~~b)
/-- ORN (R173). -/
def execOrn (o : A32) (s : State) := issue (.orn o) s (lane2 (.orn o) o.d.toNat o.a.toNat o.b.toNat (other2 o.a.toNat o.b.toNat) fun a b => a ||| ~~~b)
/-- ROTL (R173). -/
def execRotl (o : A32) (s : State) := issue (.rotl o) s (lane2 (.rotl o) o.d.toNat o.a.toNat o.b.toNat (other2 o.a.toNat o.b.toNat) rotlWord)
/-- SHL (R173): zero for amounts of 32 or more. -/
def execShl (o : A32) (s : State) := issue (.shl o) s (lane2 (.shl o) o.d.toNat o.a.toNat o.b.toNat (fun f => formShl (f.affine o.a.toNat) (f.isU o.a.toNat) (f.isU o.b.toNat) (f.lane o.b.toNat 0)) shlWord)
/-- SHR (R173). -/
def execShr (o : A32) (s : State) := issue (.shr o) s (lane2 (.shr o) o.d.toNat o.a.toNat o.b.toNat (other2 o.a.toNat o.b.toNat) shrWord)
/-- SAR (R173). -/
def execSar (o : A32) (s : State) := issue (.sar o) s (lane2 (.sar o) o.d.toNat o.a.toNat o.b.toNat (other2 o.a.toNat o.b.toNat) sarWord)
/-- CLZ (R173). -/
def execClz (o : A32) (s : State) := issue (.clz o) s (lane1 (.clz o) o.d.toNat o.a.toNat (other1 o.a.toNat) clzWord)
/-- CTZ (R173). -/
def execCtz (o : A32) (s : State) := issue (.ctz o) s (lane1 (.ctz o) o.d.toNat o.a.toNat (other1 o.a.toNat) ctzWord)
/-- POPC (R173). -/
def execPopc (o : A32) (s : State) := issue (.popc o) s (lane1 (.popc o) o.d.toNat o.a.toNat (other1 o.a.toNat) popcWord)
/-- BREV (R173). -/
def execBrev (o : A32) (s : State) := issue (.brev o) s (lane1 (.brev o) o.d.toNat o.a.toNat (other1 o.a.toNat) brevWord)

/-- One byte of BPICK's result (R174). -/
def bpickByte (x s o : Word) (i : Nat) : Byte :=
  let n := (s.extractLsb' (4 * i) 2).toNat
  match (s.extractLsb' (4 * i + 2) 2).toNat with
  | 0 => x.extractLsb' (8 * n) 8
  | 1 => o.extractLsb' (8 * i) 8
  | 2 => 0
  | _ => 0xFF

/-- BPICK's word (R174). -/
def bpickWord (x s o : Word) : Word := bpickByte x s o 3 ++ bpickByte x s o 2 ++ bpickByte x s o 1 ++ bpickByte x s o 0

/-- BPICK (R174): vd is a source. -/
def execBpick (o : A32) (s : State) := issue (.bpick o) s fun s e =>
  let f := e.g.frame
  let srcs := [o.a.toNat, o.b.toNat, o.d.toNat]
  writeLanes (.bpick o) s e o.d.toNat ⟨f.formOther srcs,
    fun l => bpickWord (f.lane o.a.toNat l) (f.lane o.b.toNat l) (f.lane o.d.toNat l), f.badAny srcs⟩

/-- pos of a bit-field control word (R175). -/
def fieldPos (c : Word) : Nat := (c.extractLsb' 0 5).toNat
/-- w of a bit-field control word (R175). -/
def fieldLen (c : Word) : Nat := min (min (c.extractLsb' 8 6).toNat 32) (32 - fieldPos c)
/-- The field mask M (R175). -/
def fieldMask (c : Word) : Word := BitVec.ofNat 32 ((2 ^ fieldLen c - 1) * 2 ^ fieldPos c)
/-- BFX (Table 7-2). -/
def bfxWord (a c : Word) : Word := (a &&& fieldMask c) >>> fieldPos c
/-- BFXS (Table 7-2). -/
def bfxsWord (a c : Word) : Word :=
  let w := fieldLen c
  if w = 0 then 0 else (bfxWord a c <<< (32 - w)).sshiftRight (32 - w)
/-- BFI (Table 7-2). -/
def bfiWord (d a c : Word) : Word := (d &&& ~~~fieldMask c) ||| ((a <<< fieldPos c) &&& fieldMask c)

/-- BFX (R175). -/
def execBfx (o : A32) (s : State) := issue (.bfx o) s (lane2 (.bfx o) o.d.toNat o.a.toNat o.b.toNat (other2 o.a.toNat o.b.toNat) bfxWord)
/-- BFXS (R175). -/
def execBfxs (o : A32) (s : State) := issue (.bfxs o) s (lane2 (.bfxs o) o.d.toNat o.a.toNat o.b.toNat (other2 o.a.toNat o.b.toNat) bfxsWord)
/-- BFI (R175): vd is a source. -/
def execBfi (o : A32) (s : State) := issue (.bfi o) s fun s e =>
  let f := e.g.frame
  let srcs := [o.a.toNat, o.b.toNat, o.d.toNat]
  writeLanes (.bfi o) s e o.d.toNat ⟨f.formOther srcs,
    fun l => bfiWord (f.lane o.d.toNat l) (f.lane o.a.toNat l) (f.lane o.b.toNat l), f.badAny srcs⟩

/-- SEL (R176): its predicate selects; the write is full over the active mask. -/
def execSel (o : A32) (s : State) := issue (.sel o) s fun s e =>
  let f := e.g.frame
  let p := f.pred (o.g.extractLsb' 0 3).toNat
  let sel := if o.g.getLsbD 3 then ~~~p else p
  let form := if sel = -1 then f.formMov o.a.toNat else if sel = 0 then f.formMov o.b.toNat else .g
  writeLanes (.sel o) s e o.d.toNat ⟨form,
    fun l => if sel.getLsbD l then f.lane o.a.toNat l else f.lane o.b.toNat l,
    fun l => if sel.getLsbD l then f.bad o.a.toNat l else f.bad o.b.toNat l⟩

/-- Write a pair in the lanes of ACTIVE, each register formed separately under the "all other" row, with the
poison of every source (R170, R175, R179). -/
def pairFrame (f : Frame) (amask act : Mask) (d : Nat) (form : DForm) (v : Nat → DWord) (bad : Nat → Bool) : Frame :=
  (f.write amask act d ⟨form, fun l => (v l).setWidth 32, bad⟩).write amask act (d + 1)
    ⟨form, fun l => (v l >>> 32).setWidth 32, bad⟩

/-- A lane operation on aligned pairs. -/
def pair2 (i : Instr) (d a b : Nat) (op : DWord → DWord → DWord) (s : State) (e : Env) : R :=
  let f := e.g.frame
  let srcs := [a, a + 1, b, b + 1]
  let f' := pairFrame f e.g.active e.act d (f.formOther srcs) (fun l => op (f.pair a l) (f.pair b l)) (f.badAny srcs)
  done s i { e.g with frame := f' }

/-- ADD64 (R175). -/
def execAdd64 (o : A32) (s : State) := issue (.add64 o) s (pair2 (.add64 o) o.d.toNat o.a.toNat o.b.toNat (· + ·))
/-- SUB64 (R175). -/
def execSub64 (o : A32) (s : State) := issue (.sub64 o) s (pair2 (.sub64 o) o.d.toNat o.a.toNat o.b.toNat (· - ·))
/-- MOV (R175). -/
def execMov (o : A32) (s : State) := issue (.mov o) s (movOp (.mov o) o.d.toNat o.a.toNat)
/-- ACTMASK (R175). -/
def execActmask (o : A32) (s : State) := issue (.actmask o) s fun s e => laneConst (.actmask o) o.d.toNat e.act s e

/-- ADDI (R177). -/
def execAddi (o : I32) (s : State) := issue (.addi o) s (addImm (.addi o) o.d.toNat o.a.toNat (o.imm.signExtend 32))
/-- ANDI (R177). -/
def execAndi (o : I32) (s : State) := issue (.andi o) s (lane1 (.andi o) o.d.toNat o.a.toNat (other1 o.a.toNat) (· &&& o.imm.signExtend 32))
/-- ORI (R177). -/
def execOri (o : I32) (s : State) := issue (.ori o) s (lane1 (.ori o) o.d.toNat o.a.toNat (other1 o.a.toNat) (· ||| o.imm.signExtend 32))
/-- XORI (R177). -/
def execXori (o : I32) (s : State) := issue (.xori o) s (lane1 (.xori o) o.d.toNat o.a.toNat (other1 o.a.toNat) (· ^^^ o.imm.signExtend 32))
/-- The amount of major 14 (R150). -/
def I32.amount (o : I32) : Nat := (o.imm.extractLsb' 0 6).toNat
/-- SHLI (R177). -/
def execShli (o : I32) (s : State) := issue (.shli o) s (shlImm (.shli o) o.d.toNat o.a.toNat (I32.amount o))
/-- SHRI (R177). -/
def execShri (o : I32) (s : State) := issue (.shri o) s (shrImm (.shri o) o.d.toNat o.a.toNat (I32.amount o))
/-- SARI (R177). -/
def execSari (o : I32) (s : State) := issue (.sari o) s (lane1 (.sari o) o.d.toNat o.a.toNat (other1 o.a.toNat) (sarWord · (BitVec.ofNat 32 (I32.amount o))))
/-- ROTLI (R177). -/
def execRotli (o : I32) (s : State) := issue (.rotli o) s (lane1 (.rotli o) o.d.toNat o.a.toNat (other1 o.a.toNat) (rotlWord · (BitVec.ofNat 32 (I32.amount o))))
/-- MULI (R177; form row MUL). -/
def execMuli (o : I32) (s : State) := issue (.muli o) s (lane1 (.muli o) o.d.toNat o.a.toNat
  (fun f => formMul (f.affine o.a.toNat) (some (o.imm.signExtend 32, 0)) (f.isU o.a.toNat) true) (· * o.imm.signExtend 32))
/-- MOVI (R177). -/
def execMovi (o : I15) (s : State) := issue (.movi o) s (laneConst (.movi o) o.d.toNat (o.imm.signExtend 32))
/-- MOVI32 (R178). -/
def execMovi32 (o : L64) (s : State) := issue (.movi32 o) s (laneConst (.movi32 o) o.d.toNat o.imm)
/-- ADDI32 (R178). -/
def execAddi32 (o : L64) (s : State) := issue (.addi32 o) s (addImm (.addi32 o) o.d.toNat o.a.toNat o.imm)

/-- A lane operation of three registers under the "all other" row. -/
def lane3 (i : Instr) (d a b c : Nat) (f : Word → Word → Word → Word) (s : State) (e : Env) : R :=
  let fr := e.g.frame
  writeLanes i s e d ⟨fr.formOther [a, b, c], fun l => f (fr.lane a l) (fr.lane b l) (fr.lane c l), fr.badAny [a, b, c]⟩

/-- The dot product of four bytes, extended by `x` (Table 7-4). -/
def dot4Word (x : Byte → Int) (a b c : Word) : Word :=
  BitVec.ofInt 32 (c.toNat + ((List.range 4).map fun i => x (a.extractLsb' (8 * i) 8) * x (b.extractLsb' (8 * i) 8)).sum)

/-- MAD (R179). -/
def execMad (o : T64) (s : State) := issue (.mad o) s
  (lane3 (.mad o) o.d.toNat o.a.toNat o.b.toNat o.c.toNat fun a b c => a * b + c)
/-- DOT4 (R179). -/
def execDot4 (o : T64) (s : State) := issue (.dot4 o) s
  (lane3 (.dot4 o) o.d.toNat o.a.toNat o.b.toNat o.c.toNat (dot4Word BitVec.toInt))
/-- DOT4Z (R179). -/
def execDot4z (o : T64) (s : State) := issue (.dot4z o) s
  (lane3 (.dot4z o) o.d.toNat o.a.toNat o.b.toNat o.c.toNat (dot4Word fun b => (b.toNat : Int)))
/-- MADW (R179): ctl[0] selects zero-extension. -/
def execMadw (o : T64) (s : State) := issue (.madw o) s fun s e =>
  let f := e.g.frame
  let srcs := [o.a.toNat, o.b.toNat, o.c.toNat, o.c.toNat + 1]
  let x (w : Word) : DWord := if o.ctl.getLsbD 0 then w.setWidth 64 else w.signExtend 64
  let f' := pairFrame f e.g.active e.act o.d.toNat (f.formOther srcs)
    (fun l => x (f.lane o.a.toNat l) * x (f.lane o.b.toNat l) + f.pair o.c.toNat l) (f.badAny srcs)
  done s (.madw o) { e.g with frame := f' }

/-- DIV (R180). -/
def divWord (a b : Word) : Word := if b = 0 then -1 else BitVec.ofInt 32 (a.toInt.tdiv b.toInt)
/-- DIVZ (R180). -/
def divzWord (a b : Word) : Word := if b = 0 then -1 else BitVec.ofNat 32 (a.toNat / b.toNat)
/-- REM (R180). -/
def remWord (a b : Word) : Word := if b = 0 then a else BitVec.ofInt 32 (a.toInt.tmod b.toInt)
/-- REMZ (R180). -/
def remzWord (a b : Word) : Word := if b = 0 then a else BitVec.ofNat 32 (a.toNat % b.toNat)

/-- DIV (R180). -/
def execDiv (o : T64) (s : State) := issue (.div o) s (lane2 (.div o) o.d.toNat o.a.toNat o.b.toNat (other2 o.a.toNat o.b.toNat) divWord)
/-- DIVZ (R180). -/
def execDivz (o : T64) (s : State) := issue (.divz o) s (lane2 (.divz o) o.d.toNat o.a.toNat o.b.toNat (other2 o.a.toNat o.b.toNat) divzWord)
/-- REM (R180). -/
def execRem (o : T64) (s : State) := issue (.rem o) s (lane2 (.rem o) o.d.toNat o.a.toNat o.b.toNat (other2 o.a.toNat o.b.toNat) remWord)
/-- REMZ (R180). -/
def execRemz (o : T64) (s : State) := issue (.remz o) s (lane2 (.remz o) o.d.toNat o.a.toNat o.b.toNat (other2 o.a.toNat o.b.toNat) remzWord)

end Sys2Proof.Machine
end

