-- ==== Sys2Proof/Machine/Pred.lean ====
section
/-! DEFINITION. Comparisons and predicates (07 R171, R181, R182). -/

namespace Sys2Proof.Machine

/-- The conditions of R181. -/
def intCond (cc : Nat) (a b : Word) : Bool :=
  match cc with
  | 0 => a == b
  | 1 => a != b
  | 2 => decide (a.toInt < b.toInt)
  | 3 => decide (a.toInt ≤ b.toInt)
  | 4 => decide (a.toNat < b.toNat)
  | 5 => decide (a.toNat ≤ b.toNat)
  | 6 => (a &&& b) != 0
  | _ => (a &&& b) == 0

/-- Write a predicate in the lanes of ACTIVE from v registers, a poisoned source lane trapping (R171, R181). -/
def predFrom (i : Instr) (d : Nat) (srcs : List Nat) (f : Frame → Nat → Bool) (s : State) (e : Env) : R :=
  match e.g.poisonUse e.act srcs with
  | some t => .trap s t
  | none => done s i { e.g with frame := e.g.frame.writePred e.act d (maskOf (f e.g.frame)) }

/-- Write a predicate in the lanes of ACTIVE from predicates (R182). -/
def predOp (i : Instr) (d : Nat) (x : Frame → Mask) (s : State) (e : Env) : R :=
  done s i { e.g with frame := e.g.frame.writePred e.act d (x e.g.frame) }

/-- CMP (R181). -/
def execCmp (o : A32) (s : State) := issue (.cmp o) s
  (predFrom (.cmp o) o.d.toNat [o.a.toNat, o.b.toNat] fun f l => intCond o.fn.toNat (f.lane o.a.toNat l) (f.lane o.b.toNat l))
/-- CMPI (R181): the condition is bits [27:25] and the comparand sext(imm6). -/
def execCmpi (o : I32) (s : State) := issue (.cmpi o) s
  (predFrom (.cmpi o) o.d.toNat [o.a.toNat] fun f l =>
    intCond (o.imm.extractLsb' 6 3).toNat (f.lane o.a.toNat l) ((o.imm.extractLsb' 0 6).signExtend 32))
/-- PAND (R182). -/
def execPand (o : A32) (s : State) := issue (.pand o) s
  (predOp (.pand o) o.d.toNat fun f => f.pred o.a.toNat &&& f.pred o.b.toNat)
/-- POR (R182). -/
def execPor (o : A32) (s : State) := issue (.por o) s
  (predOp (.por o) o.d.toNat fun f => f.pred o.a.toNat ||| f.pred o.b.toNat)
/-- PXOR (R182). -/
def execPxor (o : A32) (s : State) := issue (.pxor o) s
  (predOp (.pxor o) o.d.toNat fun f => f.pred o.a.toNat ^^^ f.pred o.b.toNat)
/-- PANDN (R182). -/
def execPandn (o : A32) (s : State) := issue (.pandn o) s
  (predOp (.pandn o) o.d.toNat fun f => f.pred o.a.toNat &&& ~~~f.pred o.b.toNat)
/-- PNOT (R182). -/
def execPnot (o : A32) (s : State) := issue (.pnot o) s (predOp (.pnot o) o.d.toNat fun f => ~~~f.pred o.a.toNat)
/-- PMOV (R182). -/
def execPmov (o : A32) (s : State) := issue (.pmov o) s (predOp (.pmov o) o.d.toNat fun f => f.pred o.a.toNat)
/-- PTOV (R182): form G. -/
def execPtov (o : A32) (s : State) := issue (.ptov o) s fun s e =>
  writeLanes (.ptov o) s e o.d.toNat
    ⟨.g, fun l => if (e.g.frame.pred o.a.toNat).getLsbD l then 1 else 0, fun _ => false⟩
/-- VTOP (R182). -/
def execVtop (o : A32) (s : State) := issue (.vtop o) s
  (predFrom (.vtop o) o.d.toNat [o.a.toNat] fun f l => f.lane o.a.toNat l != 0)

end Sys2Proof.Machine
end

