-- ==== Sys2Proof/Machine/Float.lean ====
section
/-! DEFINITION. Floating-point instructions (08 R199 to R212, 24 R442), and the 16-bit forms of them (06 R154). -/

namespace Sys2Proof.Machine

/-- A lane operation on v registers that gives a word and flags (R199). -/
def fpLanes (i : Instr) (d : Nat) (srcs : List Nat) (f : Frame → Nat → FpR) (s : State) (e : Env) : R :=
  let fr := e.g.frame
  fpDone s i e (fun l => (f fr l).fl) (fr.write e.g.active e.act d
    ⟨fr.formOther srcs, fun l => BitVec.ofNat 32 (f fr l).bits, fr.badAny srcs⟩)

/-- A lane operation that gives an f64 pair and flags (R199). -/
def fpPairs (i : Instr) (d : Nat) (srcs : List Nat) (f : Frame → Nat → FpR) (s : State) (e : Env) : R :=
  let fr := e.g.frame
  fpDone s i e (fun l => (f fr l).fl)
    (pairFrame fr e.g.active e.act d (fr.formOther srcs) (fun l => BitVec.ofNat 64 (f fr l).bits) (fr.badAny srcs))

/-- A comparison of floats into a predicate (R206): poison first, then flags. -/
def fpPred (i : Instr) (d : Nat) (srcs : List Nat) (f : Frame → Nat → Bool × Flags) (s : State) (e : Env) : R :=
  let fr := e.g.frame
  match e.g.poisonUse e.act srcs with
  | some t => .trap s t
  | none => fpDone s i e (fun l => (f fr l).2) (fr.writePred e.act d (maskOf fun l => (f fr l).1))

/-- An f32 lane. -/
def Frame.f32 (f : Frame) (n l : Nat) : Nat := (f.lane n l).toNat
/-- An f64 lane. -/
def Frame.f64 (f : Frame) (n l : Nat) : Nat := (f.pair n l).toNat

/-- An f32 operation of two registers under GMODE.RM. -/
def fp2 (i : Instr) (d a b : Nat) (op : Rm → Nat → Nat → FpR) (s : State) (e : Env) : R :=
  fpLanes i d [a, b] (fun f l => op (Rm.ofCode e.g.rm) (f.f32 a l) (f.f32 b l)) s e

/-- Two 16-bit elements, each operated on (R207, R208). -/
def halves (op : Nat → FpR) : FpR :=
  ⟨(op 0).bits + 65536 * (op 1).bits, (op 0).fl ||| (op 1).fl⟩

/-- Element `k` of two in a word (R88). -/
def half (x k : Nat) : Nat := x / 65536 ^ k % 65536

/-- A packed operation of two registers, f16 or bf16 by func3 bit 2 (R207). -/
def pk2 (i : Instr) (o : A32) (op : FpFmt → Rm → Nat → Nat → FpR) (s : State) (e : Env) : R :=
  let fmt := if o.fn.getLsbD 2 then BF16 else F16
  fp2 i o.d.toNat o.a.toNat o.b.toNat (fun r x y => halves fun k => op fmt r (half x k) (half y k)) s e

/-- C16_FADD (06 R154). -/
def execC16Fadd (o : C16) (s : State) := issue (.c16Fadd o) s (fp2 (.c16Fadd o) o.d.toNat o.d.toNat o.s.toNat F32.add)
/-- C16_FSUB (06 R154). -/
def execC16Fsub (o : C16) (s : State) := issue (.c16Fsub o) s (fp2 (.c16Fsub o) o.d.toNat o.d.toNat o.s.toNat F32.sub)
/-- C16_FMUL (06 R154). -/
def execC16Fmul (o : C16) (s : State) := issue (.c16Fmul o) s (fp2 (.c16Fmul o) o.d.toNat o.d.toNat o.s.toNat F32.mul)
/-- C16_FMAX (06 R154). -/
def execC16Fmax (o : C16) (s : State) := issue (.c16Fmax o) s (fp2 (.c16Fmax o) o.d.toNat o.d.toNat o.s.toNat (fun _ => F32.minmax true))
/-- C16_FMIN (06 R154). -/
def execC16Fmin (o : C16) (s : State) := issue (.c16Fmin o) s (fp2 (.c16Fmin o) o.d.toNat o.d.toNat o.s.toNat (fun _ => F32.minmax false))
/-- FADD (R203, R204). -/
def execFadd (o : A32) (s : State) := issue (.fadd o) s (fp2 (.fadd o) o.d.toNat o.a.toNat o.b.toNat F32.add)
/-- FSUB (R203, R204). -/
def execFsub (o : A32) (s : State) := issue (.fsub o) s (fp2 (.fsub o) o.d.toNat o.a.toNat o.b.toNat F32.sub)
/-- FMUL (R203, R204). -/
def execFmul (o : A32) (s : State) := issue (.fmul o) s (fp2 (.fmul o) o.d.toNat o.a.toNat o.b.toNat F32.mul)
/-- FMAX (R203, R204). -/
def execFmax (o : A32) (s : State) := issue (.fmax o) s (fp2 (.fmax o) o.d.toNat o.a.toNat o.b.toNat (fun _ => F32.minmax true))
/-- FMIN (R203, R204). -/
def execFmin (o : A32) (s : State) := issue (.fmin o) s (fp2 (.fmin o) o.d.toNat o.a.toNat o.b.toNat (fun _ => F32.minmax false))
/-- FSAT (R205). -/
def execFsat (o : A32) (s : State) := issue (.fsat o) s (fpLanes (.fsat o) o.d.toNat [o.a.toNat] fun f l => fsatR (f.f32 o.a.toNat l))
/-- FSCALE (R205): b is read as s32. -/
def execFscale (o : A32) (s : State) := issue (.fscale o) s fun s e =>
  fpLanes (.fscale o) o.d.toNat [o.a.toNat, o.b.toNat]
    (fun f l => fscaleR (Rm.ofCode e.g.rm) (f.f32 o.a.toNat l) (f.lane o.b.toNat l).toInt) s e
/-- FGETEXP (R205). -/
def execFgetexp (o : A32) (s : State) := issue (.fgetexp o) s (fpLanes (.fgetexp o) o.d.toNat [o.a.toNat] fun f l => fgetexpR (f.f32 o.a.toNat l))
/-- FCMP (R206). -/
def execFcmp (o : A32) (s : State) := issue (.fcmp o) s (fpPred (.fcmp o) o.d.toNat [o.a.toNat, o.b.toNat] fun f l => F32.compare o.fn.toNat (f.f32 o.a.toNat l) (f.f32 o.b.toNat l))
/-- PKADD (R207). -/
def execPkadd (o : A32) (s : State) := issue (.pkadd o) s (pk2 (.pkadd o) o FpFmt.add)
/-- PKMUL (R207). -/
def execPkmul (o : A32) (s : State) := issue (.pkmul o) s (pk2 (.pkmul o) o FpFmt.mul)
/-- PKMAX (R207). -/
def execPkmax (o : A32) (s : State) := issue (.pkmax o) s (pk2 (.pkmax o) o (fun f _ => f.minmax true))
/-- PKMIN (R207). -/
def execPkmin (o : A32) (s : State) := issue (.pkmin o) s (pk2 (.pkmin o) o (fun f _ => f.minmax false))

/-- The mode of a T64 instruction (R153). -/
def Env.mode (e : Env) (o : T64) : Rm := rmOf e.g (o.ctl.extractLsb' 0 3).toNat

/-- An f32 function of one register, under the instruction's mode. -/
def fpFun (i : Instr) (o : T64) (op : Rm → Nat → FpR) (s : State) (e : Env) : R :=
  fpLanes i o.d.toNat [o.a.toNat] (fun f l => op (e.mode o) (f.f32 o.a.toNat l)) s e

/-- An f64 operation of two pairs, under the instruction's mode. -/
def fp64 (i : Instr) (o : T64) (op : Rm → Nat → Nat → FpR) (s : State) (e : Env) : R :=
  let a := o.a.toNat
  let b := o.b.toNat
  fpPairs i o.d.toNat [a, a + 1, b, b + 1] (fun f l => op (e.mode o) (f.f64 a l) (f.f64 b l)) s e

/-- FFMA (R208). -/
def execFfma (o : T64) (s : State) := issue (.ffma o) s fun s e =>
  fpLanes (.ffma o) o.d.toNat [o.a.toNat, o.b.toNat, o.c.toNat]
    (fun f l => F32.fma (e.mode o) (f.f32 o.a.toNat l) (f.f32 o.b.toNat l) (f.f32 o.c.toNat l)) s e
/-- DFMA (R208). -/
def execDfma (o : T64) (s : State) := issue (.dfma o) s fun s e =>
  let a := o.a.toNat
  let b := o.b.toNat
  let c := o.c.toNat
  fpPairs (.dfma o) o.d.toNat [a, a + 1, b, b + 1, c, c + 1]
    (fun f l => F64.fma (e.mode o) (f.f64 a l) (f.f64 b l) (f.f64 c l)) s e
/-- A packed fused multiply-add (R208). -/
def pkFma (i : Instr) (o : T64) (fmt : FpFmt) (s : State) (e : Env) : R :=
  fpLanes i o.d.toNat [o.a.toNat, o.b.toNat, o.c.toNat]
    (fun f l => halves fun k =>
      fmt.fma (e.mode o) (half (f.f32 o.a.toNat l) k) (half (f.f32 o.b.toNat l) k) (half (f.f32 o.c.toNat l) k)) s e
/-- PKFMA_F16 (R208). -/
def execPkfmaF16 (o : T64) (s : State) := issue (.pkfmaF16 o) s (pkFma (.pkfmaF16 o) o F16)
/-- PKFMA_BF16 (R208). -/
def execPkfmaBf16 (o : T64) (s : State) := issue (.pkfmaBf16 o) s (pkFma (.pkfmaBf16 o) o BF16)
/-- c + a_0 × b_0 + a_1 × b_1 in f32, one rounding (R208). -/
def dot2R (r : Rm) (a b c : Nat) : FpR :=
  let x (k : Nat) := BF16.num (half a k)
  let y (k : Nat) := BF16.num (half b k)
  F32.arith r [F32.num c, x 0, y 0, x 1, y 1] [some (F32.num c), mulNum (x 0) (y 0), mulNum (x 1) (y 1)]
/-- DOT2BF (R208). -/
def execDot2bf (o : T64) (s : State) := issue (.dot2bf o) s fun s e =>
  fpLanes (.dot2bf o) o.d.toNat [o.a.toNat, o.b.toNat, o.c.toNat]
    (fun f l => dot2R (e.mode o) (f.f32 o.a.toNat l) (f.f32 o.b.toNat l) (f.f32 o.c.toNat l)) s e
/-- FDIV (R210). -/
def execFdiv (o : T64) (s : State) := issue (.fdiv o) s fun s e =>
  fpLanes (.fdiv o) o.d.toNat [o.a.toNat, o.b.toNat]
    (fun f l => F32.div (e.mode o) (f.f32 o.a.toNat l) (f.f32 o.b.toNat l)) s e

/-- FSQRT (R210). -/
def execFsqrt (o : T64) (s : State) := issue (.fsqrt o) s (fpFun (.fsqrt o) o F32.sqrt)
/-- FRCP (R210). -/
def execFrcp (o : T64) (s : State) := issue (.frcp o) s (fpFun (.frcp o) o (fun r x => F32.div r 0x3F800000 x))
/-- FRSQ (04 R102). -/
def execFrsq (o : T64) (s : State) := issue (.frsq o) s (fpFun (.frsq o) o rsqR)
/-- FEXP2 (04 R100). -/
def execFexp2 (o : T64) (s : State) := issue (.fexp2 o) s (fpFun (.fexp2 o) o exp2R)
/-- FLOG2 (04 R101). -/
def execFlog2 (o : T64) (s : State) := issue (.flog2 o) s (fpFun (.flog2 o) o log2R)
/-- FSIN (04 R103, BX-E01). -/
def execFsin (o : T64) (s : State) := issue (.fsin o) s (fpFun (.fsin o) o (trigB0R false))
/-- FCOS (04 R103, BX-E01). -/
def execFcos (o : T64) (s : State) := issue (.fcos o) s (fpFun (.fcos o) o (trigB0R true))
/-- FRND (R211). -/
def execFrnd (o : T64) (s : State) := issue (.frnd o) s (fpFun (.frnd o) o frndR)
/-- FSINX (24 R442). -/
def execFsinx (o : T64) (s : State) := issue (.fsinx o) s (fpFun (.fsinx o) o (trigXR false))
/-- FCOSX (24 R442). -/
def execFcosx (o : T64) (s : State) := issue (.fcosx o) s (fpFun (.fcosx o) o (trigXR true))
/-- FCLASS (R212): ctl[4] selects f64. -/
def execFclass (o : T64) (s : State) := issue (.fclass o) s fun s e =>
  let f := e.g.frame
  let a := o.a.toNat
  if o.ctl.getLsbD 4 then
    writeLanes (.fclass o) s e o.d.toNat ⟨f.formOther [a, a + 1], fun l => F64.cls (f.f64 a l), f.badAny [a, a + 1]⟩
  else writeLanes (.fclass o) s e o.d.toNat ⟨f.formOther [a], fun l => F32.cls (f.f32 a l), f.badAny [a]⟩
/-- DSQRT (R210). -/
def execDsqrt (o : T64) (s : State) := issue (.dsqrt o) s fun s e =>
  fpPairs (.dsqrt o) o.d.toNat [o.a.toNat, o.a.toNat + 1] (fun f l => F64.sqrt (e.mode o) (f.f64 o.a.toNat l)) s e
/-- DDIV (R210). -/
def execDdiv (o : T64) (s : State) := issue (.ddiv o) s (fp64 (.ddiv o) o F64.div)
/-- DADD (R209). -/
def execDadd (o : T64) (s : State) := issue (.dadd o) s (fp64 (.dadd o) o F64.add)
/-- DSUB (R209). -/
def execDsub (o : T64) (s : State) := issue (.dsub o) s (fp64 (.dsub o) o F64.sub)
/-- DMUL (R209). -/
def execDmul (o : T64) (s : State) := issue (.dmul o) s (fp64 (.dmul o) o F64.mul)
/-- DMIN (R209). -/
def execDmin (o : T64) (s : State) := issue (.dmin o) s (fp64 (.dmin o) o (fun _ => F64.minmax false))
/-- DMAX (R209). -/
def execDmax (o : T64) (s : State) := issue (.dmax o) s (fp64 (.dmax o) o (fun _ => F64.minmax true))
/-- DCMP (R209): the condition is ctl[2:0]. -/
def execDcmp (o : T64) (s : State) := issue (.dcmp o) s fun s e =>
  let a := o.a.toNat
  let b := o.b.toNat
  fpPred (.dcmp o) o.d.toNat [a, a + 1, b, b + 1]
    (fun f l => F64.compare (o.ctl.extractLsb' 0 3).toNat (f.f64 a l) (f.f64 b l)) s e

end Sys2Proof.Machine
end

