-- ==== Sys2Proof/Machine/Convert.lean ====
section
/-! DEFINITION. Conversions, block packing, FP6 planes and random numbers (08 R213 to R222, 04 R86 to R92, R111). -/

namespace Sys2Proof.Machine

/-- FMT of a conversion (Table 8-10). -/
def cvFmt (o : T64) : Nat := (o.ctl.extractLsb' 4 4).toNat
/-- SUB8 of a conversion (Table 8-10). -/
def cvSub (o : T64) : Nat := (o.ctl.extractLsb' 8 4).toNat

/-- The format of a float code (Table 8-11); codes no conversion admits stand for e2m1. -/
def fpCode (n : Nat) : FpFmt :=
  match n with
  | 0 => F64
  | 1 => F32
  | 2 => F16
  | 3 => BF16
  | 4 => E4M3
  | 5 => E5M2
  | 6 => E3M2
  | 7 => E2M3
  | _ => E2M1

/-- Bits of an element in its register: a byte-held FP6 element takes a byte (R213, R217). -/
def elemBits (n : Nat) : Nat := if n ≤ 3 then 16 else if n = 8 then 4 else 8

/-- A number rounded into a format that is no narrow conversion (R214). -/
def FpFmt.ofNum (f : FpFmt) (r : Rm) (x : Num) : FpR :=
  match x with
  | .nan s => f.nanR s
  | .inf s => ⟨f.infinity s, 0⟩
  | .fin s m e => if m = 0 then ⟨f.zero s, 0⟩ else f.round r s m e false

/-- CVT_F2F (R214): FMT 0 is f64 from f32, FMT 1 is f32 from f64. -/
def execCvtF2f (o : T64) (s : State) := issue (.cvtF2f o) s fun s e =>
  let a := o.a.toNat
  if cvFmt o = 0 then
    fpPairs (.cvtF2f o) o.d.toNat [a] (fun f l => F64.ofNum (e.mode o) (F32.num (f.f32 a l))) s e
  else fpLanes (.cvtF2f o) o.d.toNat [a, a + 1] (fun f l => F32.ofNum (e.mode o) (F64.num (f.f64 a l))) s e

/-- Bits of an integer type (Table 8-11). -/
def intBits (ty : Nat) : Nat := 8 * 2 ^ (ty % 4)
/-- The least value of an integer type. -/
def intMin (ty : Nat) : Int := if ty < 4 then -(2 ^ (intBits ty - 1) : Int) else 0
/-- The greatest value of an integer type. -/
def intMax (ty : Nat) : Int := if ty < 4 then (2 ^ (intBits ty - 1) : Int) - 1 else (2 ^ intBits ty : Int) - 1

/-- A float as an integer of a type (R215), as 64 bits two's complement. -/
def toIntR (ty : Nat) (r : Rm) (x : Num) : FpR :=
  let out (v : Int) : Nat := (v % 2 ^ 64).toNat
  match x with
  | .nan _ => ⟨0, fNV⟩
  | .inf s => ⟨out (if s then intMin ty else intMax ty), fNV⟩
  | .fin s m e =>
    if 200 < (Nat.log2 m : Int) + e then ⟨out (if s then intMin ty else intMax ty), fNV⟩
    else
      let (n, inexact) := roundInt r s m e
      let v : Int := if s then -(n : Int) else n
      if v < intMin ty then ⟨out (intMin ty), fNV⟩
      else if intMax ty < v then ⟨out (intMax ty), fNV⟩
      else ⟨out v, if inexact then fNX else 0⟩

/-- CVT_F2I (R215): an 8-bit to 32-bit result is written extended to 32 bits. -/
def execCvtF2i (o : T64) (s : State) := issue (.cvtF2i o) s fun s e =>
  let a := o.a.toNat
  let ty := cvSub o % 8
  let srcs := if cvFmt o = 0 then [a, a + 1] else [a]
  let op (f : Frame) (l : Nat) : FpR :=
    toIntR ty (e.mode o) (if cvFmt o = 0 then F64.num (f.f64 a l) else F32.num (f.f32 a l))
  if ty % 4 = 3 then fpPairs (.cvtF2i o) o.d.toNat srcs op s e else fpLanes (.cvtF2i o) o.d.toNat srcs op s e

/-- The integer a lane holds as a type (R216). -/
def intOf (ty : Nat) (x : Nat) : Int :=
  let n := x % 2 ^ intBits ty
  if ty < 4 ∧ 2 ^ (intBits ty - 1) ≤ n then (n : Int) - 2 ^ intBits ty else n

/-- CVT_I2F (R216). -/
def execCvtI2f (o : T64) (s : State) := issue (.cvtI2f o) s fun s e =>
  let a := o.a.toNat
  let ty := cvSub o % 8
  let srcs := if ty % 4 = 3 then [a, a + 1] else [a]
  let val (f : Frame) (l : Nat) : Int := intOf ty (if ty % 4 = 3 then f.f64 a l else f.f32 a l)
  if cvFmt o = 0 then fpPairs (.cvtI2f o) o.d.toNat srcs (fun f l => F64.ofInt (e.mode o) (val f l)) s e
  else fpLanes (.cvtI2f o) o.d.toNat srcs (fun f l => F32.ofInt (e.mode o) (val f l)) s e

/-- A word with `n` bits from bit `lo` replaced. -/
def putBits (x lo n v : Nat) : Nat := x - x / 2 ^ lo % 2 ^ n * 2 ^ lo + v % 2 ^ n * 2 ^ lo

/-- Two elements written into slot k of a word (R217). -/
def narrowWord (code : Nat) (r : Rm) (nosat : Bool) (k x a b : Nat) : FpR :=
  let f := fpCode code
  let n := elemBits code
  let p := f.narrow r nosat (F32.num a)
  let q := f.narrow r nosat (F32.num b)
  ⟨putBits (putBits x (2 * k * n) n p.bits) ((2 * k + 1) * n) n q.bits, p.fl ||| q.fl⟩

/-- CVT_NARROW (R217): vd is a source unless the format is f16 or bf16. -/
def execCvtNarrow (o : T64) (s : State) := issue (.cvtNarrow o) s fun s e =>
  let code := cvFmt o
  let wide := decide (code ≤ 3)
  let srcs := [o.a.toNat, o.b.toNat] ++ (if wide then [] else [o.d.toNat])
  fpLanes (.cvtNarrow o) o.d.toNat srcs
    (fun f l => narrowWord code (e.mode o) (o.ctl.getLsbD 3) (cvSub o % 4)
      (if wide then 0 else f.f32 o.d.toNat l) (f.f32 o.a.toNat l) (f.f32 o.b.toNat l)) s e

/-- The f32 value of an element (R218): code 9 is e8m0. -/
def widenR (code x : Nat) : FpR :=
  if code = 9 then (if x = 255 then F32.nanR false else F32.round .rne false 1 ((x : Int) - 127) false)
  else F32.ofNum .rne ((fpCode code).num x)

/-- CVT_WIDEN (R218). -/
def execCvtWiden (o : T64) (s : State) := issue (.cvtWiden o) s fun s e =>
  let code := cvFmt o
  let n := elemBits code
  let val := if code = 6 ∨ code = 7 then 6 else n
  fpLanes (.cvtWiden o) o.d.toNat [o.a.toNat]
    (fun f l => widenR code (f.f32 o.a.toNat l / 2 ^ (n * (cvSub o % 8)) % 2 ^ val)) s e

/-- EMAX of R219. -/
def packEmax (code : Nat) : Int :=
  match code with
  | 4 => 8
  | 5 => 15
  | 6 => 4
  | _ => 2

/-- floor(log2) of the greatest magnitude among numbers; none when all are zero. -/
def topExp : List Num → Option Int
  | [] => none
  | .fin _ m e :: xs =>
    if m = 0 then topExp xs
    else match topExp xs with
      | none => some (Nat.log2 m + e)
      | some t => some (max t (Nat.log2 m + e))
  | _ :: xs => topExp xs

/-- The scale X of a block of finite numbers (R219). -/
def packScale (code : Nat) (xs : List Num) : Nat :=
  match topExp xs with
  | none => 127
  | some t => (max 0 (min 254 (t - packEmax code + 127))).toNat

/-- PACKMX (R219). -/
def execPackmx (o : T64) (s : State) := issue (.packmx o) s fun s e =>
  let f := e.g.frame
  let a := o.a.toNat
  let code := cvFmt o
  let act := lanesOf e.act
  let num (l : Nat) := F32.num (f.f32 a l)
  let odd (l : Nat) := (num l).isNan || (num l).isInf
  let special := act.any odd
  let x := packScale code (act.map num)
  let op (l : Nat) : FpR :=
    if special then ⟨0xFF00, if odd l then fNV else 0⟩
    else
      let r := (fpCode code).narrow (e.mode o) false ((num l).scale (127 - x))
      ⟨x * 256 + r.bits, r.fl⟩
  let bad := act.any fun l => f.bad a l
  fpDone s (.packmx o) e (fun l => (op l).fl)
    (f.write e.g.active e.act o.d.toNat ⟨f.formOther [a], fun l => BitVec.ofNat 32 (op l).bits, fun _ => bad⟩)

/-- Element j of eight byte-held elements, 0 to 3 in `a` and 4 to 7 in `b` (R220). -/
def heldElem (a b : Nat) (j : Nat) : Nat := (if j < 4 then a else b) / 256 ^ (j % 4) % 64

/-- PLANE_SPLIT (R220): ctl[4] selects the low planes, ctl[5] the half. -/
def execPlaneSplit (o : T64) (s : State) := issue (.planeSplit o) s fun s e =>
  let f := e.g.frame
  let lo := o.ctl.getLsbD 4
  let h := if o.ctl.getLsbD 5 then 1 else 0
  let srcs := [o.a.toNat, o.b.toNat] ++ (if lo then [o.d.toNat] else [])
  let val (l : Nat) : Nat :=
    let el := heldElem (f.f32 o.a.toNat l) (f.f32 o.b.toNat l)
    if lo then putBits (f.f32 o.d.toNat l) (16 * h) 16 ((List.range 8).foldl (fun x j => x + el j % 4 * 4 ^ j) 0)
    else (List.range 8).foldl (fun x j => x + el j / 4 * 16 ^ j) 0
  writeLanes (.planeSplit o) s e o.d.toNat ⟨f.formOther srcs, fun l => BitVec.ofNat 32 (val l), f.badAny srcs⟩

/-- PLANE_JOIN (R221): t is ctl[5:4]. -/
def execPlaneJoin (o : T64) (s : State) := issue (.planeJoin o) s fun s e =>
  let f := e.g.frame
  let t := (o.ctl.extractLsb' 4 2).toNat
  let srcs := [o.a.toNat, o.b.toNat]
  let val (l : Nat) : Nat := (List.range 4).foldl (fun x j =>
    x + (f.f32 o.a.toNat l / 16 ^ (4 * (t % 2) + j) % 16 * 4 + f.f32 o.b.toNat l / 4 ^ (4 * t + j) % 4) * 256 ^ j) 0
  writeLanes (.planeJoin o) s e o.d.toNat ⟨f.formOther srcs, fun l => BitVec.ofNat 32 (val l), f.badAny srcs⟩

/-- ROTA of Table 4-7. -/
def rotA : List Nat := [8, 20, 12, 24, 16, 4, 28, 12, 8, 20]
/-- ROTB of Table 4-7. -/
def rotB : List Nat := [24, 4, 16, 8, 12, 28, 20, 4, 16, 24]

/-- The four words of RNG.CB's state. -/
structure Rng where
  x0 : Word
  x1 : Word
  x2 : Word
  x3 : Word
  deriving DecidableEq, Repr

/-- Round n of RNG.CB (04 R111). -/
def Rng.round (x : Rng) (n : Nat) : Rng :=
  let y0 := x.x0 + x.x1
  let y1 := x.x1.rotateLeft (rotA.getD n 0) ^^^ y0
  let y2 := x.x2 + x.x3
  let y3 := x.x3.rotateLeft (rotB.getD n 0) ^^^ y2
  ⟨y0 + BitVec.ofNat 32 ((n + 1) * 0x9E3779B9), y3, y2, y1⟩

/-- Word `n` of RNG.CB (04 R111). -/
def rngWord (ctr key : DWord) (n : Nat) : Word :=
  let x : Rng := ⟨ctr.setWidth 32, (ctr >>> 32).setWidth 32, key.setWidth 32 ^^^ 0x9E3779B9,
    (key >>> 32).setWidth 32 ^^^ 0xBB67AE85⟩
  let y := (List.range 10).foldl Rng.round x
  match n with
  | 0 => y.x0
  | 1 => y.x1
  | 2 => y.x2
  | _ => y.x3

/-- RNG_CB (R222): func6 is the word. -/
def execRngCb (o : T64) (s : State) := issue (.rngCb o) s fun s e =>
  let f := e.g.frame
  let a := o.a.toNat
  let b := o.b.toNat
  let srcs := [a, a + 1, b, b + 1]
  writeLanes (.rngCb o) s e o.d.toNat
    ⟨f.formOther srcs, fun l => rngWord (f.pair a l) (f.pair b l) o.fn.toNat, f.badAny srcs⟩

end Sys2Proof.Machine
end

