-- ==== Sys2Proof/Machine/Ras.lean ====
section
/-! DEFINITION. Memory RAS (21 R402 to R413, 22 R414 to R418): the registers of Table 21-1, initialisation, the bus
test, and a failing transfer with its attribution, tracker and repair. -/

namespace Sys2Proof.Machine

/-- A write to a 64-bit register word: the word that the written bytes leave, and the bits written. -/
structure WordWrite where
  new : Nat
  mask : Nat
  deriving DecidableEq, Repr

/-- Bits `hi:lo` of a register word. -/
def fld (x hi lo : Nat) : Nat := x / 2 ^ lo % 2 ^ (hi - lo + 1)

/-- The write touches bits `hi:lo`. -/
def WordWrite.touches (w : WordWrite) (hi lo : Nat) : Bool := fld w.mask hi lo != 0

/-- The write sets, among the bits it writes, one that is not in `allowed`: it is ignored (00 R9). -/
def WordWrite.reserved (w : WordWrite) (allowed : Nat) : Bool :=
  let x := w.new &&& w.mask
  (x &&& allowed) != x

/-- A number with ones in bits `hi:lo`. -/
def ones (hi lo : Nat) : Nat := (2 ^ (hi - lo + 1) - 1) * 2 ^ lo

/-- VBREPAIR's word (Table 21-1). -/
def RepairGroup.word (r : RepairGroup) : Nat := r.f0 + 256 * r.f1 + 65536 * b2n r.exh

/-- VBTRACK's word (Table 21-1); a swap that is due has already cleared PHYS and CNT. -/
def RepairGroup.track (r : RepairGroup) : Nat :=
  (if r.trk.cnt = 3 then 0x7F else r.trk.phys + 256 * r.trk.cnt) + 2 ^ 32 * (r.trk.start % 2 ^ 32)

/-- The word at offset `x` of a bus's registers (Table 21-1). -/
def Bus.read (b : Bus) (x : Nat) : Nat :=
  if x = 0 then b.state + 4 * b2n b.retire
  else if x = 8 then b.xfer % 2 ^ 64
  else if x = 0x10 then b.phys + 2 ^ 17 * b2n b.busy + 2 ^ 18 * b2n b.pass + 2 ^ 32 * b.failk
  else if 0x40 ≤ x ∧ x < 0x80 then
    let g := (x - 0x40) / 4
    (b.groups.getD g RepairGroup.reset).word + 2 ^ 32 * (b.groups.getD (g + 1) RepairGroup.reset).word
  else if 0x80 ≤ x ∧ x < 0x100 then (b.groups.getD ((x - 0x80) / 8) RepairGroup.reset).track
  else 0

/-- LOGSTAT's word (Table 21-1). -/
def RasLog.stat (g : RasLog) : Nat := g.entries.length + 32 * b2n g.ovf + 2 ^ 16 * g.cntA + 2 ^ 32 * g.cntB

/-- The word at offset `x` of a log's registers (Table 21-1). -/
def RasLog.read (g : RasLog) (x : Nat) : Nat :=
  if x = 0 then g.stat
  else if 0x100 ≤ x ∧ x < 0x200 then
    let e := (g.entries.getD ((x - 0x100) / 16) 0).toNat
    if x % 16 = 0 then e % 2 ^ 64 else e / 2 ^ 64
  else 0

/-- A number with a bit for each element of a list. -/
def bitList (xs : List Nat) : Nat := xs.foldl (fun a i => a ||| 2 ^ i) 0

/-- DRCTL's word (Table 21-1). What INIT sets is read once READY is 1: until then every landing holds CAP[L] = 0 (R408;
log entry 31). -/
def Ras.ctl (r : Ras) : Nat :=
  2 * b2n r.busy + (if r.ready then 4 + 2 ^ 16 * r.act.length + 2 ^ 32 * r.capU + 2 ^ 48 * bitList r.act else 0)

/-- The word at a control offset of the RAS registers. -/
def Ras.read (r : Ras) (off : Nat) : Nat :=
  if off < 0x42000 then (r.buses.getD ((off - 0x40000) / 0x200) Bus.reset).read ((off - 0x40000) % 0x200)
  else if off = 0x42000 then r.ctl
  else if 0x42100 ≤ off ∧ off < 0x42300 then r.homemap.getD ((off - 0x42100) / 8) 0
  else if 0x43000 ≤ off ∧ off < 0x43400 then r.arrayLog.read (off - 0x43000)
  else if 0x43400 ≤ off ∧ off < 0x43800 then r.linkLog.read (off - 0x43400)
  else 0

/-- Write half a word of VBREPAIR: F0, F1 and EXH of one group, while READY = 0. -/
def RepairGroup.put (r : RepairGroup) (w : WordWrite) : RepairGroup :=
  if w.mask = 0 || w.reserved (ones 6 0 ||| ones 14 8 ||| ones 16 16) then r
  else { r with f0 := fld w.new 6 0, f1 := fld w.new 14 8, exh := fld w.new 16 16 == 1 }

/-- GO (R412, R418): ignored unless the bus is in test mode and no test runs. -/
def Bus.go (b : Bus) : Bus := if b.state = 3 ∧ !b.busy then { b with busy := true, driven := b.phys } else b

/-- Put a bus into test mode (R411): a PL2 write of 3 to STATE while READY = 0. -/
def Bus.test (b : Bus) (ready : Bool) : Bus := if ready then b else { b with state := 3 }

/-- A PL2 write at offset `x` of a bus's registers. -/
def Bus.write (b : Bus) (ready : Bool) (x : Nat) (w : WordWrite) : Bus :=
  if x = 0 then
    if w.reserved 7 then b
    else
      let b1 := if w.touches 2 2 then { b with retire := fld w.new 2 2 == 1 } else b
      if w.touches 1 0 && fld w.new 1 0 == 3 then b1.test ready else b1
  else if x = 0x10 then
    if w.reserved (ones 10 0 ||| ones 18 16 ||| ones 42 32) then b
    else
      let b1 := if w.touches 10 0 && decide (fld w.new 10 0 < 1088) then { b with phys := fld w.new 10 0 } else b
      if w.touches 16 16 && fld w.new 16 16 == 1 then b1.go else b1
  else if 0x40 ≤ x ∧ x < 0x80 ∧ !ready then
    let g := (x - 0x40) / 4
    let gs := b.groups.modify g fun r => r.put ⟨w.new % 2 ^ 32, w.mask % 2 ^ 32⟩
    { b with groups := gs.modify (g + 1) fun r => r.put ⟨w.new / 2 ^ 32, w.mask / 2 ^ 32⟩ }
  else b

/-- A log cleared (R410). -/
def RasLog.clear (_ : RasLog) : RasLog := RasLog.empty

/-- DRCTL.INIT (R408, R418): the buses it retires, ACT, and the capacity; the zeroing goes on until INIT_COMPLETE. -/
def Ras.init (r : Ras) : Ras :=
  if r.ready || r.busy then r
  else
    let out (b : Bus) : Bool := b.retire || b.groups.any RepairGroup.exh
    let bs := r.buses.map fun b => { b with state := if out b then 2 else 0, busy := false }
    let act := (List.range 16).filter fun i => !out (r.buses.getD i Bus.reset)
    { r with buses := bs, busy := true, act := act, capU := act.length }

/-- A PL2 write at a control offset of the RAS registers (R411). -/
def Ras.write (r : Ras) (off : Nat) (w : WordWrite) : Ras :=
  if off < 0x42000 then
    { r with buses := r.buses.modify ((off - 0x40000) / 0x200) fun b => b.write r.ready ((off - 0x40000) % 0x200) w }
  else if off = 0x42000 then
    (if w.reserved (ones 2 0 ||| ones 20 16 ||| ones 36 32 ||| ones 63 48) || fld w.new 0 0 == 0 || !w.touches 0 0 then r else r.init)
  else if off = 0x43008 then (if w.reserved 1 || fld w.new 0 0 == 0 || !w.touches 0 0 then r else { r with arrayLog := r.arrayLog.clear })
  else if off = 0x43408 then (if w.reserved 1 || fld w.new 0 0 == 0 || !w.touches 0 0 then r else { r with linkLog := r.linkLog.clear })
  else r

/-- Whether an address lies in a landing's DRAM slot. -/
def inSlot (l pa : Nat) : Bool := decide (pa / 0x1000000000 = l)

/-- INIT_COMPLETE (R408): every word below CAP[L] reads zero and unpoisoned; every landing's home map takes the
capacity; READY. -/
def State.initDone (s : State) (l : Nat) : State :=
  let r := (s.landing l).ras
  if !r.busy then s
  else
    let wordIn (w : Nat) : Bool := inSlot l (16 * w)
    let m := s.mem
    let m' : Mem := { m with
      cells := m.cells.filter (fun c => !inSlot l c.1), poison := m.poison.filter (fun w => !wordIn w)
      bad := m.bad.filter (fun w => !wordIn w), weak := m.weak.filter (fun w => !wordIn w)
      failR := m.failR.filter (fun w => !wordIn w), failW := m.failW.filter (fun w => !wordIn w) }
    let s1 := { s with
      mem := m', landings := s.landings.map fun (x : Landing) => { x with ras := { x.ras with homemap := x.ras.homemap.set l r.capU } } }
    s1.modLanding l fun x => { x with ras := { x.ras with busy := false, ready := true } }

/-- A test completes (R412): `ones` are the connections that read one, c for connection c at one receiving end and 1,088 + c for it
at the other. -/
def Bus.testDone (b : Bus) (ones : List Nat) : Bus :=
  if !b.busy then b
  else
    let zero := !ones.contains b.driven || !ones.contains (1088 + b.driven)
    let others := (ones.map (· % 1088)).filter (· != b.driven)
    let pass := !zero && others.isEmpty
    { b with busy := false, pass := pass, failk := if pass then 0 else if zero then b.driven else others.foldl min 2047 }

/-- What a start keeps of a bus (R408; 21 the worked example; 22 Guidance of R420): its repair map, EXH, RETIRE and STATE, which
INIT reads (log entry 103). -/
def Bus.kept (b : Bus) : Bus :=
  { Bus.reset with
    state := b.state, retire := b.retire
    groups := b.groups.map fun (y : RepairGroup) => { RepairGroup.reset with f0 := y.f0, f1 := y.f1, exh := y.exh } }

/-- A failure that a transfer of landing `x.l` will meet, or a stored word with an array error that waits for a read (R405, R406,
R409). A failure that no transfer can meet is none: the landing is not READY, the block lies above its capacity, or no parity
group fails. -/
def State.parityFails (s : State) (x : ParityFailure) : State :=
  let ws := failedWords x.l x.block x.groups
  let r := (s.landing x.l).ras
  if x.array = 1 then { s with mem := { s.mem with weak := ws.foldl natInsert s.mem.weak } }
  else if x.array = 2 then { s with mem := { s.mem with bad := ws.foldl natInsert s.mem.bad } }
  else if !parityReal x || !r.ready || decide (busBytes * r.capU < 128 * x.block + 128) then s
  else
    let ls := failedWords x.l x.block (groupsOut x)
    let s1 := s.modLanding x.l fun y => { y with ras := { y.ras with armed := y.ras.armed ++ [x] } }
    if x.fails ≠ 4 then s1
    else if x.write then { s1 with mem := { s1.mem with failW := ls.foldl natInsert s1.mem.failW } }
    else { s1 with mem := { s1.mem with failR := ls.foldl natInsert s1.mem.failR } }

end Sys2Proof.Machine
end

