-- ==== Sys2Proof/Machine/Boot.lean ====
section
/-! DEFINITION. Bring-up (24 R432 to R440): module reset and the start phases, a failed start, minimal mode,
recovery, and the SPDM responder. What a check of stored material finds is free (log entry 10). -/

namespace Sys2Proof.Machine

/-- A start stops in a phase with a cause (R432, R437). -/
def Boot.stop (b : Boot) (phase cause : Nat) : Boot := { b with phase := phase, cause := cause, lastCause := cause }

/-- The phase and cause of the first failing check of phases 1 to 3 (Table 24-1). -/
def bootFault (steps : Nat) : Option (Nat × Nat) :=
  [(1, 1), (1, 2), (1, 3), (2, 4), (2, 5), (3, 6), (3, 7)].find? fun p => !Config.bootCheck steps p.2

/-- The phase and cause of the first failing check of phase 4 (Table 24-1). -/
def firmwareFault (steps : Nat) : Option (Nat × Nat) :=
  [(4, 8), (4, 9), (4, 10)].find? fun p => !Config.bootCheck steps p.2

/-- Phase 4 on one landing (R408, R432): buses that fail their test are retired, and DRAM is initialised. -/
def State.initLanding (s : State) (l : Nat) : State :=
  let tested (r : Ras) : Ras := { r with
    buses := r.buses.mapIdx fun b (x : Bus) => { x with retire := x.retire || !Config.bootCheck s.steps (100 + 16 * l + b) } }
  (s.modLanding l fun x => { x with ras := (tested x.ras).init }).initDone l

/-- PLAG of the configuration record: 2,048 to 16,384 (Table 24-2). -/
def bootPlag (steps : Nat) : Nat := 2048 + Config.bootField steps 8 % 14337

/-- What firmware does in phase 4 up to RUN, and the lock of the decode table (R432, R435). The attempt count is
cleared (R437). -/
def State.firmware (s : State) : State :=
  let s1 := (List.range 64).foldl State.initLanding s
  { s1 with
    links := { s1.links with myPeer := Config.bootField s.steps 6 % 1024 }
    boot := { s1.boot with
      phase := 5, cause := 0, attempts := 0, fwver := BitVec.ofNat 32 (Config.bootField s.steps 1), plag := bootPlag s.steps
      ideReq := Config.bootCheck s.steps 30, mapped := [56], locked := true } }

/-- Phases 1 to 5 of a start (R432): a start that neither fails nor reaches RUN stays in phase 4 for the watchdog. -/
def State.startPhases (s : State) : State :=
  match bootFault s.steps with
  | some (p, c) => { s with boot := s.boot.stop p c }
  | none =>
    match firmwareFault s.steps with
    | some (p, c) => { s with boot := { s.boot.stop p c with fwver := BitVec.ofNat 32 (Config.bootField s.steps 1) } }
    | none => if Config.bootCheck s.steps 11 then s.firmware else { s with boot := { s.boot with phase := 4 } }

/-- Phase 0 (R437): minimal mode after three failed starts, else the count goes up and the start proceeds. -/
def State.start (s : State) : State :=
  if s.boot.attempts = 3 then { s with boot := { s.boot with phase := 6 } }
  else State.startPhases { s with boot := { s.boot with attempts := s.boot.attempts + 1 } }

/-- Module reset: everything returns to its reset value but the boot-attempt count and LASTCAUSE, which the
management controller keeps (R437), what a start keeps of the vertical buses (21 R408; log entry 103), and the inputs from outside;
then a start. -/
def State.resetModule (s : State) (lastCause : Nat) : State :=
  State.start { State.reset with
    event := none, inputs := s.inputs, steps := s.steps
    landings := State.reset.landings.mapIdx fun l (x : Landing) =>
      { x with ras := { x.ras with buses := (s.landing l).ras.buses.map Bus.kept } }
    boot := { Boot.reset with attempts := s.boot.attempts, lastCause := lastCause } }

/-- A start is still under way: it has no cause and has not reached RUN or minimal mode (R437). -/
def Boot.starting (b : Boot) : Bool := b.cause == 0 && b.phase != 5 && b.phase != 6

/-- RECCTL.GO (R439): in minimal mode the image is verified as in phase 1, phases 2 and 3 are applied, and it runs in
PHASE 7 to RUN; a failure leaves minimal mode with CAUSE 12, and one of phase 4 stops it with that phase's cause (R432). -/
def State.recover (s : State) (len : Nat) : State :=
  if s.boot.phase ≠ 6 ∨ len = 0 ∨ 2 ^ 25 < len then s
  else
    let b := { s.boot with recLen := len }
    if (bootFault s.steps).isSome then { s with boot := { b with cause := 12, lastCause := 12 } }
    else
      let run : Boot := { b with phase := 7, fwver := BitVec.ofNat 32 (Config.bootField s.steps 1) }
      match firmwareFault s.steps with
      | some (_, c) => { s with boot := run.stop 7 c }
      | none => if Config.bootCheck s.steps 11 then State.firmware { s with boot := b } else { s with boot := run }

/-- BOOTSTATUS (Table 24-3). -/
def Boot.status (b : Boot) : Nat :=
  b.phase + 16 * b.cause + 2 ^ 12 * b.lastCause + 2 ^ 20 * b.attempts + 2 ^ 24 * 0xB0 +
    2 ^ 32 * (if b.phase ≤ 3 ∨ b.phase = 6 then 0 else b.fwver.toNat)

/-- CXL.mem is served (R421, R432, R438). -/
def State.cxlMemUp (s : State) : Bool := s.boot.phase == 5 && (!s.boot.ideReq || s.links.ide)

/-- The SPDM responder answers (R436). -/
def Boot.spdmUp (b : Boot) : Bool := b.phase == 4 || b.phase == 5 || b.phase == 7

/-- An SPDM response: its request's number and content. -/
def State.spdmAnswer (s : State) (k arg : Nat) (ok : Bool) (f : Spdm → Spdm) : State :=
  if !s.boot.spdmUp then s
  else if ok then
    { s with boot := { s.boot with spdm := { f s.boot.spdm with response := [k, Config.spdm s.steps (16 * arg + k)] } } }
  else { s with boot := { s.boot with spdm := { s.boot.spdm with response := [0x7F, k] } } }

/-- The measurement an index names (R436): 4 reads as zero before the decode table is locked. -/
def State.measurement (s : State) (idx : Nat) : Nat :=
  if idx = 5 then 0xB0 else if idx = 4 ∧ !s.boot.locked then 0 else Config.spdm s.steps (4096 + idx)

end Sys2Proof.Machine
end

