-- ==== Sys2Proof/Machine/Queue.lean ====
section
/-! DEFINITION. Work queues (20 R390 to R394): their registers, and a push, a pop and a host append, each one
acceptance at the queue's home. -/

namespace Sys2Proof.Machine

/-- A queue's registers at reset (Table 20-1). -/
def Queue.reset (j : Nat) : Queue := ⟨j, 0, 0, 0, 0, 0, 0, 0⟩

/-- Queue `j` of a landing; one not listed holds its reset values. -/
def Landing.queue (x : Landing) (j : Nat) : Queue := (x.queues.find? fun q => q.j == j).getD (Queue.reset j)

/-- Replace a queue of a landing. -/
def Landing.setQueue (x : Landing) (q : Queue) : Landing := { x with queues := q :: x.queues.filter fun p => p.j != q.j }

/-- QSIZE. -/
def Queue.qsize (q : Queue) : Nat := bits q.cfg.toNat 3 0
/-- ESZ. -/
def Queue.esz (q : Queue) : Nat := bits q.cfg.toNat 5 4
/-- EN. -/
def Queue.en (q : Queue) : Bool := q.cfg.getLsbD 6
/-- STOP. -/
def Queue.stop (q : Queue) : Bool := q.cfg.getLsbD 7
/-- CTXID. -/
def Queue.ctx (q : Queue) : Nat := bits q.cfg.toNat 31 16
/-- ESB, the entry size in bytes (R391). -/
def Queue.esb (q : Queue) : Nat := 4 * 2 ^ q.esz
/-- The entry count (R391). -/
def Queue.count (q : Queue) : Nat := (q.tail - q.head).toNat
/-- The free count (R391). -/
def Queue.free (q : Queue) : Nat := 2 ^ q.qsize - q.count
/-- Where entry `i` lies (R391). -/
def Queue.slot (q : Queue) (i : Nat) : Nat := q.base.toNat + q.esb * (i % 2 ^ q.qsize)

/-- An address with a home at a landing: DRAM or scratch of it that is present (00 R7, 01 R19). -/
def State.homedAt (s : State) (l pa : Nat) : Bool := s.target l pa == .dram l || s.target l pa == .scratch l

/-- The constraints of R390 on what a write of the +8 word leaves: entry counts and sizes when they are written or EN is set,
and what setting EN requires, with which QBASE and QAWIN must lie at the queue's home (`homed`; DEDUCED, log entry 28). -/
def Queue.allowed (q : Queue) (homed : Nat → Bool) (sized set : Bool) : Bool :=
  (!(sized || set) || (decide (4 ≤ q.qsize) && q.esz != 3 && decide (q.esb * 2 ^ q.qsize ≤ 131072))) &&
    (!set || (decide (q.count ≤ 2 ^ q.qsize) && homed q.base.toNat && homed q.awin.toNat))

/-- The 64-bit word at an offset of a queue's registers (Table 20-1). -/
def Queue.read (q : Queue) (x : Nat) : Nat :=
  if x = 0 then q.base.toNat
  else if x = 8 then q.cfg.toNat
  else if x = 16 then q.head.toNat + 2 ^ 32 * q.tail.toNat
  else if x = 24 then q.awin.toNat
  else if x = 32 then q.rej.toNat + 2 ^ 16 * q.bad.toNat
  else 0

/-- A write of the +8 word: its fields first and EN second; EN and STOP alone while EN = 1 (R390). -/
def Queue.config (q : Queue) (homed : Nat → Bool) (w : WordWrite) : Queue :=
  if w.reserved (ones 7 0 ||| ones 31 16) then q
  else
    let c : Word := BitVec.ofNat 32 w.new
    let q' := if q.en then { q with cfg := (q.cfg &&& ~~~0xC0#32) ||| (c &&& 0xC0#32) } else { q with cfg := c }
    if q'.allowed homed (!q.en && w.touches 5 0) (q'.en && !q.en) then q' else q

/-- A write at an offset of a queue's registers (R390); `homed` says which addresses lie at its home. -/
def Queue.write (q : Queue) (homed : Nat → Bool) (x : Nat) (w : WordWrite) : Queue :=
  let d : DWord := BitVec.ofNat 64 w.new
  if x = 0 then
    if w.reserved (ones 47 17) || q.en || !homed w.new then q else { q with base := d }
  else if x = 8 then q.config homed w
  else if x = 16 then
    if q.en then q else { q with head := d.extractLsb' 0 32, tail := d.extractLsb' 32 32 }
  else if x = 24 then
    if w.reserved (ones 47 6) || q.en || !homed w.new then q else { q with awin := d }
  else if x = 32 then (if w.touches 31 0 then { q with rej := 0, bad := 0 } else q)
  else q

/-- The enabled queue of a context whose ring is at a page (R392). -/
def State.queueAt (s : State) (ctx page : Nat) : Option Queue :=
  (s.landing (home page)).queues.find? fun q => q.en && q.ctx == ctx && q.base.toNat == page

/-- Replace a queue at a landing. -/
def State.setQueue (s : State) (l : Nat) (q : Queue) : State := s.modLanding l fun x => x.setQueue q

/-- Entries a push may append: none while stopped (R394). -/
def Queue.room (q : Queue) : Nat := if q.stop then 0 else q.free
/-- Entries a pop may take: none while stopped (R394). -/
def Queue.held (q : Queue) : Nat := if q.stop then 0 else q.count

/-- Write entries from the `k`-th free slot on: each a value and its poison (R250, R391), the transfers apart. -/
def State.queueLay (s : State) (q : Queue) (k : Nat) : List (Nat × Bool) → State
  | [] => s
  | (x, p) :: rest => (s.lay (q.slot (q.tail.toNat + k)) (toBytes q.esb x) p).queueLay q (k + 1) rest

/-- One append of entries at the tail (R250, R391). -/
def State.queueAppend (s : State) (q : Queue) (xs : List (Nat × Bool)) : State :=
  (s.beats ((List.range xs.length).map fun i => (q.slot (q.tail.toNat + i), q.esb)) true).queueLay q 0 xs

/-- Entry `k` from the head on: its value and whether it is poisoned (R250, R391). -/
def Mem.entry (m : Mem) (q : Queue) (k : Nat) : Nat × Bool :=
  (m.num (q.slot (q.head.toNat + k)) q.esb, m.unreadable (q.slot (q.head.toNat + k)) q.esb)

/-- One removal of `n` entries at the head (R250, R391). -/
def State.queueTake (s : State) (q : Queue) (n : Nat) : List (Nat × Bool) × State :=
  let at_ (i : Nat) : Nat := q.slot (q.head.toNat + i)
  ((List.range n).map (s.mem.entry q),
    (List.range n).foldl (fun (t : State) i => t.sense (at_ i) q.esb) (s.beats ((List.range n).map fun i => (at_ i, q.esb))))

/-- The enabled queue of a landing whose append window is a line (R393). -/
def State.windowAt (s : State) (pa : Nat) : Option Queue :=
  (s.landing (home pa)).queues.find? fun q => q.en && q.awin.toNat == pa / 64 * 64

/-- One more, saturating at 16 bits. -/
def sat16 (x : BitVec 16) : BitVec 16 := if x = 0xFFFF then x else x + 1

/-- A host append (R393): all or nothing. -/
def State.hostAppend (s : State) (pa : Nat) (q : Queue) (bs : List Byte) (poison : Bool) : State :=
  let l := home pa
  let n := num bs 48 4
  if pa % 64 ≠ 0 ∨ bs.length ≠ 64 ∨ n = 0 ∨ 48 / q.esb < n ∨ (bs.drop 52).any (· != 0) then
    s.setQueue l { q with bad := sat16 q.bad }
  else if q.stop ∨ q.free < n then s.setQueue l { q with rej := sat16 q.rej }
  else
    ((s.queueAppend q ((List.range n).map fun i => (num bs (q.esb * i) q.esb, poison))).setQueue l
      { q with tail := q.tail + BitVec.ofNat 32 n })

/-- What a host read of an append window returns: 64 bytes (R393). -/
def Queue.window (q : Queue) : List Byte :=
  toBytes 4 q.head.toNat ++ toBytes 4 q.tail.toNat ++ toBytes 2 q.rej.toNat ++ toBytes 2 q.bad.toNat ++ toBytes 52 0

/-- A killed context's queues have EN cleared (R394). -/
def State.disableQueues (s : State) (ctx : Nat) : State :=
  { s with landings := s.landings.map fun (x : Landing) =>
      { x with queues := x.queues.map fun (q : Queue) => if q.ctx = ctx then { q with cfg := q.cfg &&& ~~~0x40#32 } else q } }

end Sys2Proof.Machine
end

