-- ==== Sys2Proof/Machine/Launch.lean ====
section
/-! DEFINITION. Launch records (20 R395, R396) and the dispatch registers (R400, R401). -/

namespace Sys2Proof.Machine

/-- The launch a 64-byte record describes (Table 20-2), submitted at a landing, with a fresh identity. -/
def Launch.ofBytes (uid l : Nat) (bs : List Byte) : Launch :=
  let d (off : Nat) : DWord := BitVec.ofNat 64 (num bs off 8)
  let w := num bs 24 4
  { uid := uid, l := l, entry := d 0, argBase := d 8, argStride := num bs 16 4, ctx := num bs 20 2, scr := num bs 22 2
    teams := bits w 15 0 + 1, groups := bits w 22 16 + 1, cls := bits w 24 23, fill := bits w 25 25 == 1
    afterVal := num bs 28 4, watch := none, taken := none, placeMask := d 32, scrVA := d 40, afterCtr := d 48, doneCtr := d 56, tag := none
    started := false, next := 0, placed := false, rejected := false, token := none }

/-- A reserved or out-of-range field, or a PL1 or PL2 context whose CLASS is not 3 (R396). -/
def Launch.malformed (x : Launch) (rsv pl : Nat) : Bool :=
  x.entry.getLsbD 0 || decide (2 ^ 56 ≤ x.entry.toNat) || x.argStride == 0 || x.argStride % 64 != 0 ||
    decide (128 < x.scr) || rsv != 0 || (decide (1 ≤ pl) && x.cls != 3)

/-- Record a rejection (Table 20-3). -/
def State.rejectLaunch (s : State) (l cause : Nat) : State :=
  s.modLanding l fun x => { x with launchCause := cause, rejected := sat16 x.rejected }

/-- Landings of PLACEMASK and LANDMASK, ascending (R397). -/
def State.candidates (s : State) (x : Launch) : List Nat :=
  (List.range 64).filter fun l => (x.placeMask &&& (s.ctx x.ctx).landMask).getLsbD l

/-- A write to LWIN (R395, R396): causes are tested in the order 5, 1, 2, 3, 4. -/
def State.submitLaunch (s : State) (l : Nat) (bs : List Byte) : State :=
  let x := Launch.ofBytes s.nextUid l bs
  let c := s.ctx x.ctx
  if bs.length ≠ 64 then s.rejectLaunch l 5
  else if x.malformed (bits (num bs 24 4) 31 26) c.pl then s.rejectLaunch l 1
  else if c.state ≠ 1 ∧ c.state ≠ 2 then s.rejectLaunch l 2
  else if (s.candidates x).isEmpty then s.rejectLaunch l 3
  else if 16 ≤ (s.landing l).pending.length then s.rejectLaunch l 4
  else
    (({ s with nextUid := s.nextUid + 1 }).modCtx x.ctx fun k => { k with state := 2 }).modLanding l fun y => { y with pending := y.pending ++ [x] }

/-- Free berths of a landing (Table 20-3). -/
def State.freeBerths (s : State) (l : Nat) : Nat :=
  1024 - (s.groups.filter fun g => g.l == l).length - (s.ghosts.filter fun k => k.1 == l).length

/-- The word at an offset of the dispatch registers (Table 20-3). -/
def State.dispatchRead (s : State) (l off : Nat) : Nat :=
  let x := s.landing l
  if off = 0x32040 then x.pending.length + 2 ^ 8 * x.launchCause + 2 ^ 16 * x.rejected.toNat
  else if off = 0x32048 then x.bgcap + 2 ^ 8 * b2n x.hold
  else if off = 0x32050 then x.occupied + 2 ^ 32 * s.freeBerths l + 2 ^ 48 * x.overflow.toNat
  else if off = 0x32058 then x.sysscr
  else 0

/-- SYSSCR may take a value: at most 480, covering no unit a live team holds (Table 20-3). -/
def State.sysscrOk (s : State) (l v : Nat) : Bool :=
  decide (v ≤ 480) && !s.teams.any fun t => t.anchor == l && t.scrUnits != 0 && decide (t.scrBase < v)

/-- A write at an offset of the dispatch registers (Table 20-3). -/
def State.dispatchWrite (s : State) (l off : Nat) (w : WordWrite) : State :=
  if off = 0x32040 then (if w.touches 31 0 then s.modLanding l fun x => { x with rejected := 0 } else s)
  else if off = 0x32048 then
    if fld w.mask 31 0 = 0 || WordWrite.reserved ⟨w.new % 2 ^ 32, w.mask % 2 ^ 32⟩ (ones 4 0 ||| ones 8 8) then s
    else s.modLanding l fun x =>
      { x with bgcap := if fld w.new 4 0 ≤ 28 then fld w.new 4 0 else x.bgcap, hold := fld w.new 8 8 == 1 }
  else if off = 0x32050 then s.modLanding l fun x => { x with overflow := 0 }
  else if off = 0x32058 then
    if fld w.mask 31 0 = 0 || WordWrite.reserved ⟨w.new % 2 ^ 32, w.mask % 2 ^ 32⟩ (ones 9 0) || !s.sysscrOk l (fld w.new 9 0) then s
    else s.modLanding l fun x => { x with sysscr := fld w.new 9 0 }
  else s

end Sys2Proof.Machine
end

