-- ==== Sys2Proof/Machine/Ctl.lean ====
section
/-! DEFINITION. Control space (01 R20, 17 R344, Tables 19-6, 20-1, 20-3, 21-1, 23-2, 23-3, 24-3): the 64-bit words of a
landing's registers, what a read of bytes returns and what a write of bytes does. A write of part of a word leaves
the other bytes as they read (log entry 24). -/

namespace Sys2Proof.Machine

/-- The port a routing entry uses now (R429): MIN when up, else the first valid alternative that is up. -/
def State.portOf (s : State) (e : Nat) : Option Nat :=
  let alts := [(1, bits e 4 1), (bits e 5 5, bits e 9 6), (bits e 10 10, bits e 14 11), (bits e 15 15, bits e 19 16)]
  (alts.find? fun a => a.1 == 1 && s.links.portUp.getLsbD a.2).map Prod.snd

/-- A routing entry as it reads (Table 23-2). -/
def State.routeWord (s : State) (n : Nat) : Nat :=
  match s.links.routes.find? fun r => r.1 == n with
  | some r => r.2.toNat % 2 ^ 24 + 2 ^ 24 * (s.portOf r.2.toNat).getD 0
  | none => 0

/-- The link registers (Table 23-3). -/
def Links.read (k : Links) (off : Nat) : Nat :=
  if off = 0x52000 then k.width + 2 ^ 5 * k.rate + 2 ^ 8 * b2n k.ide + 2 ^ 16 * k.herr.toNat
  else if off = 0x52008 then k.myPeer
  else if off = 0x52010 then k.portUp.toNat
  else 0

/-- Registers of the translation unit and the page move engine (Table 19-6). -/
def Landing.tuRead (x : Landing) (off : Nat) : Nat :=
  if off = 0x20000 then x.fq.base.toNat
  else if off = 0x20008 then x.fq.size.toNat
  else if off = 0x20010 then x.fq.head.toNat
  else if off = 0x20018 then x.fq.tail.toNat
  else if off = 0x20020 then min x.fq.held.length 64 + 2 ^ 16 * min x.tokens.length 4096
  else if off = 0x20100 then x.pm.src.toNat
  else if off = 0x20108 then x.pm.dst.toNat
  else if off = 0x20110 then x.pm.pte.toNat
  else if off = 0x20118 then x.pm.new.toNat
  else if off = 0x20120 then x.pm.ctl.toNat
  else if off = 0x20128 then x.pm.stat.toNat
  else 0

/-- The 64-bit word at an offset of a landing's control space; an offset that names no register reads zero. -/
def State.ctlWord (s : State) (l off : Nat) : Nat :=
  if 0x20000 ≤ off ∧ off < 0x20130 then (s.landing l).tuRead off
  else if 0x30000 ≤ off ∧ off < 0x32000 then ((s.landing l).queue ((off - 0x30000) / 64)).read (off % 64)
  else if 0x32040 ≤ off ∧ off < 0x32060 then s.dispatchRead l off
  else if 0x40000 ≤ off ∧ off < 0x43800 then (s.landing l).ras.read off
  else if l ≠ 0 then 0
  else if 0x50000 ≤ off ∧ off < 0x52000 then s.routeWord ((off - 0x50000) / 8)
  else if 0x52000 ≤ off ∧ off < 0x52018 then s.links.read off
  else if off = 0x60000 then s.boot.status
  else 0

/-- `n` bytes read from a control address. -/
def State.ctlRead (s : State) (pa n : Nat) : Nat :=
  leBytes ((List.range n).map fun i =>
    BitVec.ofNat 8 (s.ctlWord (home pa) ((pa % 0x40000000 + i) / 8 * 8) / 2 ^ (8 * ((pa + i) % 8))))

/-- PMCTL.GO (R388): the move starts, unless one is under way. -/
def PageMove.go (p : PageMove) : PageMove :=
  if p.stat.getLsbD 0 then p else { p with stat := 1, step := 0 }

/-- A write to the registers of the translation unit and the page move engine (Table 19-6). -/
def Landing.tuWrite (x : Landing) (off : Nat) (w : WordWrite) : Landing :=
  let d : DWord := BitVec.ofNat 64 w.new
  let v : Word := BitVec.ofNat 32 w.new
  let low := fld w.mask 31 0 != 0
  if off = 0x20000 then (if w.reserved (ones 47 6) then x else { x with fq := { x.fq with base := d } })
  else if off = 0x20008 then
    (if low && (v == 0 || (decide (6 ≤ v.toNat) && decide (v.toNat ≤ 16))) then { x with fq := { x.fq with size := v } } else x)
  else if off = 0x20010 then (if low then { x with fq := { x.fq with head := v } } else x)
  else if off = 0x20100 then { x with pm := { x.pm with src := d } }
  else if off = 0x20108 then { x with pm := { x.pm with dst := d } }
  else if off = 0x20110 then { x with pm := { x.pm with pte := d } }
  else if off = 0x20118 then { x with pm := { x.pm with new := d } }
  else if off = 0x20120 then
    if !low || WordWrite.reserved ⟨w.new % 2 ^ 32, w.mask % 2 ^ 32⟩ (ones 2 0 ||| ones 31 16) then x
    else
      let p := { x.pm with ctl := v &&& ~~~1#32 }
      { x with pm := if v.getLsbD 0 && w.touches 0 0 then p.go else p }
  else x

/-- A write to a routing entry, by PL2 (Table 23-2). -/
def Links.routeWrite (k : Links) (n : Nat) (w : WordWrite) : Links :=
  if w.reserved (ones 27 0) then k
  else { k with routes := (n, BitVec.ofNat 64 (w.new % 2 ^ 24)) :: k.routes.filter fun r => r.1 != n }

/-- A write to RECCTL (Table 24-3, R439). -/
def State.recctl (s : State) (w : WordWrite) : State :=
  let x := w.new &&& w.mask
  if w.reserved (ones 25 0 ||| ones 31 31) || fld x 31 31 == 0 then s else s.recover (fld x 25 0)

/-- A write to the 64-bit word at an offset of a landing's control space, at a privilege level; registers that PL2
alone writes ignore others (R9, R411), and an offset that names no register ignores it. -/
def State.ctlPut (s : State) (l off pl : Nat) (w : WordWrite) : State :=
  if 0x20000 ≤ off ∧ off < 0x20130 then (s.modLanding l fun x => x.tuWrite off w).drainHeld l 64
  else if 0x30000 ≤ off ∧ off < 0x32000 then
    s.setQueue l (((s.landing l).queue ((off - 0x30000) / 64)).write (s.homedAt l) (off % 64) w)
  else if 0x32040 ≤ off ∧ off < 0x32060 then s.dispatchWrite l off w
  else if 0x40000 ≤ off ∧ off < 0x43800 then
    (if pl = 2 then s.modLanding l fun x => { x with ras := x.ras.write off w } else s)
  else if l ≠ 0 then s
  else if 0x50000 ≤ off ∧ off < 0x52000 then
    (if pl = 2 then { s with links := s.links.routeWrite ((off - 0x50000) / 8) w } else s)
  else if off = 0x52000 then (if w.touches 31 0 then { s with links := { s.links with herr := 0 } } else s)
  else if off = 0x60008 then s.recctl w
  else s

/-- The part of a write of bytes at a control address that falls in one 64-bit word at `off`. -/
def State.ctlPart (s : State) (l off pl : Nat) (start : Nat) (bs : List Byte) : State :=
  let hit := (List.range 8).filter fun i => decide (start ≤ off + i) && decide (off + i < start + bs.length)
  if hit.isEmpty then s
  else
    let mask := (hit.map fun i => 255 * 2 ^ (8 * i)).sum
    let new := (hit.map fun i => (bs.getD (off + i - start) 0).toNat * 2 ^ (8 * i)).sum
    let old := s.ctlWord l off
    s.ctlPut l off pl ⟨old - (old &&& mask) + new, mask⟩

/-- Whether a control offset is in the launch window (R395). -/
def inLwin (off : Nat) : Bool := decide (0x32000 ≤ off) && decide (off < 0x32040)

/-- A write of bytes at a control address: one access of at most 64 bytes in one line. -/
def State.ctlWrite (s : State) (pa pl : Nat) (bs : List Byte) : State :=
  let l := home pa
  let off := pa % 0x40000000
  if inLwin off then s.submitLaunch l bs
  else (List.range 9).foldl (fun (t : State) i => t.ctlPart l (off / 8 * 8 + 8 * i) pl off bs) s

/-- Read `n` bytes at a physical address as part of an access whose transfers are counted apart: their value, whether
they are poisoned, and the errors found. -/
def State.readPart (s : State) (pa n : Nat) : Nat × Bool × State :=
  if isControl pa then (s.ctlRead pa n, false, s) else (s.mem.num pa n, s.mem.unreadable pa n, s.sense pa n)

/-- An 8-byte value is a valid leaf of a publish page of this module (05 R116). -/
def publishLeaf (e : Nat) : Bool := e % 2 == 1 && leafKind e == 2 && !leafPV e

/-- The flip bit of a publish page is 0 when system software maps the page (05 R117): an aligned 8-byte write above PL0 that puts
a leaf of a publish page where there was none of that address (log entry 96). -/
def State.mapFlip (s : State) (pa pl : Nat) (bs : List Byte) : State :=
  let old := s.mem.num pa 8
  let new := leBytes bs
  if pl = 0 ∨ bs.length ≠ 8 ∨ pa % 8 ≠ 0 ∨ !publishLeaf new ∨ (publishLeaf old ∧ leafPA old = leafPA new) then s
  else { s with mem := s.mem.setFlip (leafPA new) false }

/-- Write bytes at a physical address as part of an access whose transfers are counted apart. -/
def State.writePart (s : State) (pa pl : Nat) (bs : List Byte) (dirty : Bool) : State :=
  if isControl pa then s.ctlWrite pa pl bs else (s.mapFlip pa pl bs).lay pa bs dirty

/-- Read `n` bytes at a physical address in one access. -/
def State.readAt (s : State) (pa n : Nat) : Nat × Bool × State := (s.beats [(pa, n)]).readPart pa n

/-- Write bytes at a physical address in one access. -/
def State.writeAt (s : State) (pa pl : Nat) (bs : List Byte) (dirty : Bool) : State :=
  (s.beats [(pa, bs.length)] true).writePart pa pl bs dirty

end Sys2Proof.Machine
end

