-- ==== Sys2Proof/Machine/Access.lean ====
section
/-! DEFINITION. What memory instructions share (02 R28, 05 R126 to R128, 09 R223 to R229): the checks of Table 9-2,
the partition by home and the moves it makes, direct-mode requests, posted parts and side-log parts, and the reads,
writes and combinations of lanes at a home. -/

namespace Sys2Proof.Machine

/-- An address operand of an instruction: the registers it reads, its alignment, and its address by lane. -/
structure AddrOp where
  regs : List Nat
  align : Nat
  va : Nat → Nat

/-- The failing lanes of checks 2 and 3 over several address operands: each lane's first failing address. -/
def failing (lanes : List Nat) (ops : List AddrOp) (bad : AddrOp → Nat → Bool) : List (Nat × Nat) :=
  lanes.filterMap fun l => (ops.find? fun o => bad o (o.va l)).map fun o => (l, o.va l)

/-- The trap of lanes that fail a check, each with its address. -/
def lanesTrap (cause code : Nat) (xs : List (Nat × Nat)) : Trap :=
  laneTrap cause code (failMask (xs.map Prod.fst)) ((xs.map Prod.snd).headD 0)

/-- Checks 1 to 3 of Table 9-2 over the lanes of a mask. -/
def checks3 (g : Group) (code : Nat) (m : Mask) (ops : List AddrOp) : Option Trap :=
  match g.poisonUse m (ops.flatMap AddrOp.regs) with
  | some t => some t
  | none =>
    let far := failing (lanesOf m) ops fun _ v => decide (2 ^ 56 ≤ v)
    let odd := failing (lanesOf m) ops fun o v => v % o.align != 0
    if !far.isEmpty then some (lanesTrap 6 code far)
    else if !odd.isEmpty then some (lanesTrap 7 code odd)
    else none

/-- The address operand of an M64 instruction, aligned to `align` bytes. -/
def memOp (c : Ctx) (g : Group) (o : M64) (align : Nat) : AddrOp := ⟨addrRegs (o.af == 1) o.a.toNat, align, memAddr c g o⟩

/-- Lanes whose part would cross to a landing of the module outside LANDMASK (R346). -/
def outside (c : Ctx) (g : Group) (xs : List (Nat × Loc)) : List Nat :=
  (xs.filter fun x => x.2.peer.isNone && home x.2.pa != g.l && !c.landMask.getLsbD (home x.2.pa)).map Prod.fst

/-- The trap of check 5 over translated lanes: the cause of the lowest failing lane, and every failing lane. -/
def check5 (code : Nat) (va : Nat → Nat) (refused : List (Nat × TFault)) (out : List Nat) : Option Trap :=
  let bad := (List.range 32).filter fun i => out.contains i || refused.any fun r => r.1 == i
  match bad.head? with
  | none => none
  | some i => some (laneTrap (((refused.find? fun r => r.1 == i).map fun r => r.2.cause).getD 8) code (failMask bad) (va i))

/-- What an address operand comes to. -/
inductive Got where
  /-- Each lane's location, in a state after the walks. -/
  | go (xs : List (Nat × Loc)) (s : State)
  /-- The instruction ends here: it waits or traps. -/
  | out (r : R)

/-- Checks 4 to 6 for the lanes of a mask, where the instruction's own check 4 is done on the lanes that translate
(R227); a missing page parks the group (R228). `moves` brings LANDMASK in. -/
def resolveLanes (s : State) (e : Env) (a : Access) (moves : Bool) (m : Mask) (va : Nat → Nat)
    (check4 : List (Nat × Loc) → Option Trap) : Got :=
  let vas := (lanesOf m).map fun i => (i, va i)
  let r := s.translateLanes e.g.l e.g.ctx a vas
  match check4 r.ok with
  | some t => .out (.trap s t)
  | none =>
    let sensed := (vas.filter fun v => r.refused.any (·.1 == v.1) || r.missing.any (·.1 == v.1)).foldl
      (fun (t : State) v => t.walkSense e.g.l e.g.ctx v.2) s
    match check5 a.code va r.refused (if moves then outside (s.ctx e.g.ctx) e.g r.ok else []) with
    | some t => .out (.trap sensed t)
    | none =>
      if r.missing.isEmpty then .go r.ok r.s
      else .out (.wait (sensed.parkMissing e.g (if a.code = 4 then 4 else a.code) r.missing vas))

/-- An instruction that moves or is held by side-log parts: what it carries, or the checks of Table 9-2 (R126). -/
def resolve (s : State) (e : Env) (a : Access) (m : Mask) (o : AddrOp) : Got :=
  match e.g.carried with
  | some xs => .go xs s
  | none =>
    if s.sideBusy e.g.uid then .out (.wait s)
    else
      match checks3 e.g a.code m [o] with
      | some t => .out (.trap s t)
      | none => resolveLanes s e a true m o.va fun _ => none

/-- Where a lane's part executes, in the order of R28: here, another landing of the module, a peer module. -/
def Loc.part (x : Loc) (l : Nat) (direct : Bool) : Nat × Nat × Nat :=
  match x.peer with
  | some p => if direct && x.direct then (0, 0, 0) else (2, p, home x.pa)
  | none => if home x.pa = l then (0, 0, 0) else (1, 0, home x.pa)

/-- Order on parts. -/
def partLt (x y : Nat × Nat × Nat) : Bool := lexLt [x.1, x.2.1, x.2.2] [y.1, y.2.1, y.2.2]

/-- Insert a part into a rising list without repeats. -/
def partInsert : List (Nat × Nat × Nat) → Nat × Nat × Nat → List (Nat × Nat × Nat)
  | [], a => [a]
  | k :: ks, a => if partLt a k then a :: k :: ks else if a = k then k :: ks else k :: partInsert ks a

/-- The v registers, predicates and handles an instruction ships beside its manifest (02 R36). -/
structure Srcs where
  v : List Nat
  p : List Nat
  h : List Nat

/-- The sources of an instruction. -/
def srcsOf (g : Group) (i : Instr) : Srcs :=
  let sh := i.shape
  ⟨sh.sources ++ g.coordReads i, (i.g4.extractLsb' 0 3).toNat :: sh.predSources, sh.handleSources⟩

/-- The whole context crosses to a part's place with the translations it carries (02 R28, R36). -/
def crossTo (s : State) (i : Instr) (e : Env) (k : Nat × Nat × Nat) (xs : List (Nat × Loc)) : R :=
  match s.needSealed e.g with
  | some s1 => .wait s1
  | none =>
    let g := { e.g with carried := some xs }
    let r := srcsOf e.g i
    if k.1 = 1 then .ok (s.cross g k.2.2 e.m r.v r.p r.h) else .ok (s.crossPeer g k.2.1 k.2.2 e.m r.v r.p r.h)

/-- Partition lanes by home (02 R28, 09 R226): execute what is here when all of it is; cross when all of it is in
one other place; else split, each part carrying its own translations. `stay` are further lanes that count as here. -/
def partitioned (s : State) (i : Instr) (e : Env) (direct : Bool) (xs : List (Nat × Loc)) (stay : Mask)
    (here : R) : R :=
  let part (x : Nat × Loc) := x.2.part e.g.l direct
  let keys := (xs.map part).foldl partInsert []
  let far := keys.filter (·.1 != 0)
  let mine := (keys.filter (·.1 == 0)) ++ (if stay != 0 && !keys.contains (0, 0, 0) then [(0, 0, 0)] else [])
  let lanes (k : Nat × Nat × Nat) := xs.filter fun x => part x == k
  let mask (k : Nat × Nat × Nat) : Mask := failMask ((lanes k).map Prod.fst) ||| (if k.1 = 0 then stay else 0)
  match mine, far with
  | _, [] => here
  | [], [k] => crossTo s i e k xs
  | _, _ => transfer s e ((mine ++ far).map fun k => (mask k, fun h => { h with carried := some (lanes k) }))

/-- Lanes of the active mask that the guard leaves out: they count as here (R226). -/
def Env.rest (e : Env) : Mask := e.g.active &&& ~~~e.act

/-- An instruction of one address that executes at the home of it (R225, R226): the whole context moves. -/
def atHome (s : State) (i : Instr) (e : Env) (x : Nat × Loc) (here : R) : R :=
  let k := x.2.part e.g.l false
  if k.1 = 0 then here else crossTo s i e k [x]

/-- The context still has its own posted operations on the pair of its landing with itself (05 R128). -/
def State.ownPosts (s : State) (g : Group) : Bool :=
  (s.pair g.l g.l).any fun x => match x with | .post p => p.uids.contains g.uid | _ => false

/-- A location as a link item names it (05 R118). -/
def Loc.place (x : Loc) : LinkPlace := ⟨x.pa, x.kind, x.pageBits⟩

/-- Lanes by what a number says of each, one list for each number, in ascending order. -/
def byKey (f : α → Nat) (xs : List α) : List (Nat × List α) :=
  (xs.foldl (fun (a : List Nat) x => natInsert a (f x)) []).map fun k => (k, xs.filter fun x => f x == k)

/-- A peer module's landing as one number: the module, then the landing. -/
def Loc.farHome (x : Loc) : Nat := 64 * x.peer.getD 0 + home x.pa

/-- Lanes that go to peer modules, in one list for each home (05 R122; log entry 92). -/
def farParts (f : α → Loc) (xs : List α) : List ((Nat × Nat) × List α) :=
  (byKey (fun x => (f x).farHome) (xs.filter fun x => (f x).peer.isSome)).map fun k => ((k.1 / 64, k.1 % 64), k.2)

/-- Requests of the lanes on direct pages of a peer module (19 R377), one for each home: an operation on `n` bytes, with each lane's
value, compare value and poison. The lanes' replies, with FADD's flags, once all have come; lanes that the replies leave out found
no memory there, which is the absent-memory trap at their addresses with an access code (01 R20; log entry 12). -/
def askPeers (s : State) (e : Env) (xs : List (Nat × Loc)) (code : Nat) (va : Nat → Nat) (op n : Nat) (val cmp : Nat → Nat) (bad : Nat → Bool) :
    Except R (List (Nat × Nat × Bool) × Flags × State) :=
  let ds := farParts Prod.snd xs
  if ds.isEmpty then .ok ([], 0, s)
  else if e.g.asked.isEmpty then
    let lane (x : Nat × Loc) : LinkLane := ⟨x.1, x.2.place, n, val x.1, cmp x.1, bad x.1, none, 0⟩
    let go (t : State) (d : (Nat × Nat) × List (Nat × Loc)) : State :=
      { (t.sendPeer d.1.1 e.g.l d.1.2 (t.ftAt e.g.l) (.request t.nextReq (s.ctx e.g.ctx).pl op (d.2.map lane)) (noteOf e.g.ctx e.g.tag)) with nextReq := t.nextReq + 1 }
    .error (.wait ((ds.foldl go s).modGroup e.g.uid fun h =>
      { h with carried := some xs, asked := (List.range ds.length).map (s.nextReq + ·), busy := true }))
  else
    let got := e.g.asked.filterMap fun a => s.links.replies.find? fun r => r.id == a
    if got.length < e.g.asked.length then .error (.wait s)
    else
      let res := got.flatMap PeerReply.results
      let s1 := { s with links := { s.links with replies := s.links.replies.filter fun r => !e.g.asked.contains r.id } }
      let lost := (xs.filter fun x => x.2.peer.isSome && !res.any fun r => r.1 == x.1).map fun x => (x.1, va x.1)
      if lost.isEmpty then .ok (res, got.foldl (fun a r => a ||| r.flags) 0, s1)
      else .error (.trap s1 (lanesTrap 9 code lost))

/-- Complete a plain access (02 R45; BX-E02). -/
def plainDone (s : State) (i : Instr) (g : Group) (pas : List Nat) : R := done s i { g.laLines i pas with lastCopy := none }

/-- Complete a memory instruction that touched addresses (02 R45). -/
def memDone (s : State) (i : Instr) (g : Group) (pas : List Nat) : R := done s i (g.laLines i pas)

/-- Read `n` bytes at a location (05 R117, R120, 09 R229). -/
def State.readLoc (s : State) (x : Loc) (n : Nat) : Nat × Bool × State := s.readAt (s.mem.backing x false) n

/-- The transfers of an access of `n` bytes at each of some locations. -/
def State.beatLocs (s : State) (xs : List Loc) (n : Nat) (write : Bool := false) : State :=
  s.beats (xs.map fun x => (s.mem.backing x false, n)) write

/-- Read `n` bytes at a location, the transfers apart. -/
def State.readLocPart (s : State) (x : Loc) (n : Nat) : Nat × Bool × State := s.readPart (s.mem.backing x false) n

/-- Write bytes at a location at a privilege level, the transfers apart. -/
def State.writeLocPart (s : State) (x : Loc) (pl : Nat) (bs : List Byte) (dirty : Bool) : State :=
  s.writePart (s.mem.backing x false) pl bs dirty

/-- Write bytes at a location at a privilege level. -/
def State.writeLoc (s : State) (x : Loc) (pl : Nat) (bs : List Byte) (dirty : Bool) : State :=
  s.writeAt (s.mem.backing x false) pl bs dirty

/-- What `n` bytes at a location read as, and whether they are poisoned (05 R117, 09 R229). -/
def State.seen (s : State) (n : Nat) (x : Loc) : Nat × Bool :=
  let pa := s.mem.backing x false
  if isControl pa then (s.ctlRead pa n, false) else (s.mem.num pa n, s.mem.unreadable pa n)

/-- Read the lanes of an instruction's part at a home, as one access (R122). -/
def State.readLanes (s : State) (n : Nat) (xs : List (Nat × Loc)) : List (Nat × Nat × Bool) × State :=
  (xs.map fun x => (x.1, s.seen n x.2),
    xs.foldl (fun (t : State) x => (t.readLocPart x.2 n).2.2) (s.beatLocs (xs.map Prod.snd) n))

/-- Whether a location lies in a launch window (20 R395). -/
def Loc.lwin (x : Loc) : Bool := isControl x.pa && inLwin (x.pa % 0x40000000)

/-- Lanes of one plain store that fall in launch windows: together a 64-byte write when they write every byte, each
byte from its highest lane, else a partial write (20 R395). -/
def State.storeLwin (s : State) (n : Nat) (xs : List (Nat × Loc)) (val : Nat → Nat) : State :=
  match xs.filter fun x => x.2.lwin with
  | [] => s
  | x :: rest =>
    let put (bs : List (Option Byte)) (y : Nat × Loc) : List (Option Byte) :=
      (List.range 64).map fun k =>
        let o := y.2.pa % 64
        if o ≤ k ∧ k < o + n then some (BitVec.ofNat 8 (val y.1 / 2 ^ (8 * (k - o)))) else bs.getD k none
    s.submitLaunch (home x.2.pa) (((x :: rest).foldl put (List.replicate 64 none)).filterMap id)

/-- The addresses that lanes' locations reach now (05 R117, R140). -/
def State.reach (s : State) (xs : List (Nat × Loc)) : List (Nat × Nat) := xs.map fun x => (x.1, s.mem.backing x.2 false)

/-- Write each lane in ascending order (R122, R232). -/
def State.writeLanes (s : State) (pl n : Nat) (val : Nat → Nat) (bad : Nat → Bool) (xs : List (Nat × Loc)) : State :=
  let ys := xs.filter fun x => !x.2.lwin
  let s1 := (s.reach ys).foldl (fun (t : State) x =>
    t.writePart x.2 pl (toBytes n (val x.1)) (bad x.1)) (s.beatLocs (ys.map Prod.snd) n true)
  s1.storeLwin n xs val

/-- The data of a lane: the low `n` bytes of the registers from `b`. -/
def dataLane (f : Frame) (b k n lane : Nat) : Nat := f.wide b k lane % 2 ^ (8 * n)

/-- Set PSTORE when a lane of poisoned data is written (R229). -/
def Group.pstore (g : Group) (m : Mask) (bad : Nat → Bool) : Group := if (lanesOf m).any bad then g.sticky PSTORE else g

/-- A signed value of `n` bytes. -/
def signed (n x : Nat) : Int := (BitVec.ofNat (8 * n) x).toInt

/-- The operations of Table 9-3 by their codes, on values of `n` bytes: the new value, and flags of FADD. -/
def combine (op n old v : Nat) : Nat × Flags :=
  match op with
  | 0 => ((old + v) % 2 ^ (8 * n), 0)
  | 1 => (if signed n v < signed n old then v else old, 0)
  | 2 => (if signed n old < signed n v then v else old, 0)
  | 3 => (min old v, 0)
  | 4 => (max old v, 0)
  | 5 => (old &&& v, 0)
  | 6 => (old ||| v, 0)
  | 7 => (old ^^^ v, 0)
  | 8 => (v, 0)
  | _ => let r := F32.add .rne old v
         (r.bits, r.fl)

/-- One lane of an atomic combination at its home, in one step (R234), the transfers apart: the old value, whether it
was poisoned, and FADD's flags. -/
def State.combineAt (s : State) (pa pl op n v : Nat) (dirty : Bool) : Nat × Bool × Flags × State :=
  let (old, p, s1) := s.readPart pa n
  let (new, fl) := combine op n old v
  (old, p, fl, s1.writePart pa pl (toBytes n new) dirty)

/-- The transfers of combining `n` bytes at each of some locations: those that read, and those that write. -/
def State.beatTwice (s : State) (xs : List Loc) (n : Nat) : State := (s.beatLocs xs n).beatLocs xs n true

/-- A posted lane as a link item carries it, on `n` bytes (23 R426). -/
def PostLane.link (x : PostLane) (n : Nat) : LinkLane :=
  ⟨x.lane, x.loc.place, n, x.value, 0, x.poison, x.ctr.map Loc.place, x.key.toNat⟩

/-- What a peer module is sent for lanes of a posted operation (05 R118, 23 R426). -/
def Post.body (p : Post) : LinkBody :=
  let xs := p.lanes.map fun x => x.link p.size
  match p.op with
  | .store => .store p.ctx p.pl xs
  | .reduce f => .reduction p.ctx p.pl f xs
  | .keyed f => .keyed p.ctx f xs
  | .flip => .flip ((p.lanes.head?.map fun x => x.loc.pa).getD 0)

/-- Send a posted operation from a landing toward its homes, the lanes of each together (R127, R128, R233): on the pair of
each landing of the module, and in one link item for each landing of a peer module (log entry 92). -/
def State.sendParts (s : State) (l : Nat) (p : Post) : State :=
  let near := p.lanes.filter fun x => x.loc.peer.isNone
  let s1 := (byKey (fun (x : PostLane) => home x.loc.pa) near).foldl (fun (t : State) k =>
    t.send l k.1 (.post { p with lanes := k.2 })) s
  (farParts PostLane.loc p.lanes).foldl (fun (t : State) k =>
    t.sendPeer k.1.1 l k.1.2 p.ft { p with lanes := k.2 }.body ⟨p.ctx, p.tag, if p.side then p.uids else [], p.plain⟩) s1

/-- A posted operation of a context that issues now. -/
def State.newPost (s : State) (g : Group) (op : PostOp) (size : Nat) (xs : List PostLane) : Post :=
  ⟨op, g.ctx, (s.ctx g.ctx).pl, [g.uid], g.tag, size, s.ftAt g.l, xs, none, false, false⟩

/-- Send the parts of a posted operation that issues now; the context's horizon takes the issue FT (R127). -/
def State.sendPosts (s : State) (g : Group) (op : PostOp) (size : Nat) (xs : List PostLane) : State :=
  (s.sendParts g.l (s.newPost g op size xs)).modGroup g.uid fun h => { h with horizon := max h.horizon (s.ftAt g.l) }

/-- Lanes of a posted instruction as they fall in one 128 KiB page (19 R384), with the fault of each lane that has
one: its level and address. -/
structure SideLanes where
  lanes : List PartLane
  fault : Option (Nat × Nat)

/-- The page parts of an instruction's lanes, in ascending order of address. -/
def sideParts (xs : List (PartLane × Option (Nat × Nat))) : List SideLanes :=
  (byKey (fun (x : PartLane × Option (Nat × Nat)) => x.1.va / 0x20000) xs).map fun k =>
    ⟨k.2.map Prod.fst, k.2.findSome? Prod.snd⟩

/-- Put parts into the side log of the context's core (R126, 19 R381, R384); none when a token or a record is wanting,
and the instruction waits. -/
def State.sideLog (s : State) (g : Group) (op : PostOp) (plain af : Bool) (size code : Nat) : List SideLanes → Option State
  | [] => some s
  | p :: rest =>
    let ft := s.ftAt g.l
    let part (tok : Option Nat) : SidePart :=
      ⟨g.core, op, plain, g.ctx, g.tag, [g.uid], g.team, g.rank, size, ft, af, p.lanes, tok, g.lineage⟩
    let put (t : State) (tok : Option Nat) : State := t.modLanding g.l fun x => { x with side := x.side ++ [part tok] }
    match p.fault with
    | none => (put s none).sideLog g op plain af size code rest
    | some (lv, va) =>
      let r := { g.faultRec ft (if lv = 1 then 0 else 1) code lv va (failMask (p.lanes.map PartLane.lane)) 0 with slcount := 1 }
      match s.takeToken g.l r with
      | none => none
      | some (t, s1) => (put s1 (some t)).sideLog g op plain af size code rest

/-- The side log of a core has no room for parts (R126). -/
def State.sideFull (s : State) (g : Group) (n : Nat) : Bool :=
  decide (128 < ((s.landing g.l).side.filter fun p => p.core == g.core).length + n)

/-- Retire parts into the side log, or park the group under a side-log-full record (R126, Table 19-4). -/
def retire (s : State) (e : Env) (op : PostOp) (plain af : Bool) (size code : Nat) (ps : List SideLanes)
    (next : State → R) : R :=
  if s.sideFull e.g ps.length then
    let p := (ps.head?.map SideLanes.lanes).getD []
    .wait (s.parkOnToken e.g (e.g.faultRec (s.ftAt e.g.l) 4 code 0 ((p.head?.map PartLane.va).getD 0)
      (failMask (p.map PartLane.lane)) 0))
  else
    match s.sideLog e.g op plain af size code ps with
    | none => .wait s
    | some s1 => next s1

end Sys2Proof.Machine
end

