-- ==== Sys2Proof/Machine/Memory.lean ====
section
/-! DEFINITION. Memory instructions of majors 8 to 12 (09 R230 to R241): loads, stores, atomics, reductions, the close
of keyed regions, fences, counter waits and migration. -/

namespace Sys2Proof.Machine

/-- Word `j` of a loaded value of a size code (R230, Table 6-5). -/
def loadWord (size : BitVec 4) (x j : Nat) : Word :=
  if size = 5 then (BitVec.ofNat 8 x).signExtend 32
  else if size = 6 then (BitVec.ofNat 16 x).signExtend 32
  else BitVec.ofNat 32 (x / 2 ^ (32 * j))

/-- Write a memory result to the registers from `d` (Table 3-4): each lane's value and poison. -/
def Frame.writeLoad (f : Frame) (amask act : Mask) (d : Nat) (size : BitVec 4) (form : DForm) (val : Nat → Nat)
    (bad : Nat → Bool) : Frame :=
  (List.range (sizeRegs size)).foldl (fun (h : Frame) j =>
    h.write amask act (d + j) ⟨form, fun l => loadWord size (val l) j, bad⟩) f

/-- The result of a lane. -/
def laneVal (res : List (Nat × Nat × Bool)) (l : Nat) : Nat := ((res.find? fun r => r.1 == l).map fun r => r.2.1).getD 0
/-- The poison of a lane's result. -/
def laneBad (res : List (Nat × Nat × Bool)) (l : Nat) : Bool := ((res.find? fun r => r.1 == l).map fun r => r.2.2).getD false

/-- The lines that lanes touch, in ascending order of the lowest lane that touches each (R231). -/
def lineOrder (xs : List (Nat × Loc)) : List Nat :=
  xs.foldl (fun a x => if a.contains (x.2.pa / 64) then a else a ++ [x.2.pa / 64]) []

/-- The lanes of batch `k`: sixteen lines each (R231). -/
def batchOf (xs : List (Nat × Loc)) (k : Nat) : List (Nat × Loc) :=
  let ls := ((lineOrder xs).drop (16 * k)).take 16
  xs.filter fun x => ls.contains (x.2.pa / 64)

/-- The registers from `d` that a value of a size code takes (Table 6-5). -/
def sizeRegSpan (d : Nat) (size : BitVec 4) : List Nat := (List.range (sizeRegs size)).map (d + ·)

/-- A part of a load at its home (R230, R231): one batch of it, the last of which completes it. The lanes' locations are kept from
batch to batch; a context park does not stop between batches a load that writes its own address registers. -/
def loadHere (s : State) (i : Instr) (e : Env) (o : M64) (xs0 : List (Nat × Loc)) : R :=
  let uni := (addrRegs (o.af == 1) o.a.toNat).all e.g.frame.isU
  let n := sizeBytes o.size
  let xs := if uni then xs0.take 1 else xs0
  if s.ownPosts e.g then .wait s
  else
    match askPeers s e xs 0 (memOp (s.ctx e.g.ctx) e.g o n).va 0 n (fun _ => 0) (fun _ => 0) (fun _ => false) with
    | .error r => r
    | .ok (far, _, s1) =>
      let near := xs.filter fun x => x.2.peer.isNone
      let count := ((lineOrder near).length + 15) / 16
      let (got, s2) := s1.readLanes n (batchOf near e.g.progIdx)
      let res := got ++ far
      let one := res.head?.getD (0, 0, false)
      let val (l : Nat) : Nat := if uni then one.2.1 else laneVal res l
      let bad (l : Nat) : Bool := if uni then one.2.2 else laneBad res l
      let act := if count ≤ 1 then e.act else failMask (res.map Prod.fst)
      let f := e.g.frame.writeLoad e.g.active act o.d.toNat o.size (if uni then .u else .g) val bad
      if e.g.progIdx + 1 < count then
        let lost := (addrRegs (o.af == 1) o.a.toNat).any (sizeRegSpan o.d.toNat o.size).contains
        .ok (s2.setGroup { e.g with frame := f, progIdx := e.g.progIdx + 1, carried := some xs0, busy := lost })
      else plainDone s2 i { e.g with frame := f } (xs.map fun x => x.2.pa)

/-- Lanes of the active mask that translations do not name count as here (R226). -/
def Env.stay (e : Env) (xs : List (Nat × Loc)) : Mask := e.g.active &&& ~~~(failMask (xs.map Prod.fst))

/-- LD (R230, R231). -/
def execLd (o : M64) (s : State) := issue (.ld o) s fun s e =>
  match resolve s e accLoad e.act (memOp (s.ctx e.g.ctx) e.g o (sizeBytes o.size)) with
  | .out r => r
  | .go xs s1 => partitioned s1 (.ld o) e true xs (e.stay xs) (loadHere s1 (.ld o) e o xs)

/-- The remote-access trap of LD.L (R230). -/
def remoteTrap (g : Group) (xs : List (Nat × Loc)) : Option Trap :=
  let far := (xs.filter fun x => x.2.peer.isSome || home x.2.pa != g.l).map Prod.fst
  if far.isEmpty then none else some (laneTrap 11 0 (failMask far) 0)

/-- LD.L (R230). -/
def execLdL (o : M64) (s : State) := issue (.ldL o) s fun s e =>
  let op := memOp (s.ctx e.g.ctx) e.g o (sizeBytes o.size)
  match e.g.carried with
  | some xs => loadHere s (.ldL o) e o xs
  | none =>
    if s.sideBusy e.g.uid then .wait s
    else
      match checks3 e.g 0 e.act [op] with
      | some t => .trap s t
      | none =>
        match resolveLanes s e accLoadL false e.act op.va (remoteTrap e.g) with
        | .out r => r
        | .go xs s1 => loadHere s1 (.ldL o) e o xs

/-- A part of a store at its home (R232). -/
def storeHere (s : State) (i : Instr) (e : Env) (o : M64) (xs : List (Nat × Loc)) : R :=
  let n := sizeBytes o.size
  let k := sizeRegs o.size
  let val (l : Nat) : Nat := dataLane e.g.frame o.b.toNat k n l
  let bad (l : Nat) : Bool := e.g.frame.badRun o.b.toNat k l
  if s.ownPosts e.g then .wait s
  else
    match askPeers s e xs 1 (memOp (s.ctx e.g.ctx) e.g o n).va 1 n val (fun _ => 0) bad with
    | .error r => r
    | .ok (_, _, s1) =>
      let near := xs.filter fun x => x.2.peer.isNone
      plainDone (s1.writeLanes (s.ctx e.g.ctx).pl n val bad near) i (e.g.pstore e.act bad) (xs.map fun x => x.2.pa)

/-- A lane of a posted or stored part, before translation. -/
def partLane (g : Group) (o : M64) (va : Nat → Nat) (ctr : Option (Nat → Nat)) (l : Nat) : PartLane :=
  let k := sizeRegs o.size
  ⟨l, va l, dataLane g.frame o.b.toNat k (sizeBytes o.size) l, g.frame.badRun o.b.toNat k l, ctr.map fun f => f l,
    g.frame.lane o.d.toNat l⟩

/-- What waits after a part of it has taken effect goes on from there: it keeps the locations of the rest (R228). -/
def R.keep (r : R) (uid : Nat) (xs : List (Nat × Loc)) : R :=
  match r with
  | .wait t => .wait (t.modGroup uid fun h => { h with carried := some (h.carried.getD xs), busy := true })
  | r => r

/-- ST (R232); the parts that fault retire into the side log (R126, R228). -/
def execSt (o : M64) (s : State) := issue (.st o) s fun s e =>
  let i : Instr := .st o
  let n := sizeBytes o.size
  let op := memOp (s.ctx e.g.ctx) e.g o n
  match e.g.carried with
  | some xs => partitioned s i e true xs (e.stay xs) (storeHere s i e o xs)
  | none =>
    if s.sideBusy e.g.uid then .wait s
    else
      match checks3 e.g 1 e.act [op] with
      | some t => .trap s t
      | none =>
        let r := s.translateLanes e.g.l e.g.ctx (accStore.wide n) ((lanesOf e.act).map fun l => (l, op.va l))
        match check5 1 op.va r.refused (outside (s.ctx e.g.ctx) e.g r.ok) with
        | some t => .trap s t
        | none =>
          let go (t : State) : R := partitioned t i e true r.ok (e.stay r.ok) (storeHere t i e o r.ok)
          if r.missing.isEmpty then go r.s
          else
            match (if r.ok.any fun x => (x.2.part e.g.l true).1 != 0 then s.needSealed e.g else none) with
            | some s1 => .wait s1
            | none =>
              let ps := sideParts (r.missing.map fun m =>
                (partLane e.g o op.va none m.1, some (m.2, op.va m.1)))
              retire r.s e .store true (o.af == 1) n 1 ps fun t => (go t).keep e.g.uid r.ok

/-- The home of a location among all modules. -/
def Loc.site (x : Loc) : Option Nat × Nat := (x.peer, home x.pa)

/-- A posted lane, from its part and its locations. -/
def PartLane.post (p : PartLane) (x : Loc) (ctr : Option Loc) : PostLane := ⟨p.lane, x, p.value, p.poison, ctr, p.key⟩

/-- Posted operations by lane (R228, R233, R236, R237; 05 R126 to R130): `ctr` says whether lanes name counters. -/
def postLanes (i : Instr) (o : M64) (op : PostOp) (a : Access) (ctr : Bool) (extra : List Nat) (s : State) (e : Env) : R :=
  let c := s.ctx e.g.ctx
  let n := sizeBytes o.size
  let m := memOp c e.g o n
  let k : AddrOp := ⟨addrRegs (o.af == 1) o.d.toNat, 8, ctrAddr c e.g o⟩
  let ls := lanesOf e.act
  match checks3 e.g 3 e.act ({ m with regs := m.regs ++ extra } :: if ctr then [k] else []) with
  | some t => .trap s t
  | none =>
    let r := s.translateLanes e.g.l e.g.ctx (a.wide n) (ls.map fun l => (l, m.va l))
    let q := r.s.translateLanes e.g.l e.g.ctx (accPost.wide 8) (if ctr then ls.map fun l => (l, k.va l) else [])
    let va (l : Nat) : Nat := if r.refused.any fun x => x.1 == l then m.va l else k.va l
    let first := r.refused ++ q.refused.filter fun x => !r.refused.any fun y => y.1 == x.1
    match check5 3 va first [] with
    | some t => .trap s t
    | none =>
      let locs := ls.map fun l =>
        (l, (r.ok.find? fun x => x.1 == l).map Prod.snd, (q.ok.find? fun x => x.1 == l).map Prod.snd)
      let astray := locs.filter fun x =>
        match x.2 with | (some a, some b) => a.site != b.site | _ => false
      if !astray.isEmpty then .trap s (laneTrap 12 0 (failMask (astray.map Prod.fst)) 0)
      else
        let pl (l : Nat) : PartLane := partLane e.g o m.va (if ctr then some k.va else none) l
        let fault (l : Nat) : Option (Nat × Nat) :=
          match r.missing.find? fun x => x.1 == l with
          | some x => some (x.2, m.va l)
          | none => (q.missing.find? fun x => x.1 == l).map fun x => (x.2, k.va l)
        let busy := s.sideBusy e.g.uid
        let side := ls.filter fun l => busy || (fault l).isSome
        let posts := locs.filterMap fun x =>
          if side.contains x.1 then none else x.2.1.map fun y => (pl x.1).post y x.2.2
        let g := e.g.pstore e.act fun l => e.g.frame.badRun o.b.toNat (sizeRegs o.size) l
        let fin (t : State) : R :=
          memDone (t.sendPosts e.g op n posts) i { g with horizon := max g.horizon (s.ftAt e.g.l) } (posts.map fun x => x.loc.pa)
        if side.isEmpty then fin q.s
        else retire q.s e op false (o.af == 1) n 3 (sideParts (side.map fun l => (pl l, fault l))) fin

/-- ST.P (R233). -/
def execStP (o : M64) (s : State) := issue (.stP o) s (postLanes (.stP o) o .store accPost (o.d != 0) [])

/-- The Table 9-3 code of a reduction's function value: FADD is 8 in RED.P and 17 in RED.K (R236, R237). -/
def redCode (f : Nat) : Nat := if f = 8 ∨ f = 17 then 9 else if f < 9 then f else f - 9

/-- RED.P (R236). -/
def execRedP (o : M64) (s : State) := issue (.redP o) s (postLanes (.redP o) o (.reduce (redCode o.fn.toNat)) accPost false [])

/-- RED.K (R237): the key register is checked for poison with the address. -/
def execRedK (o : M64) (s : State) := issue (.redK o) s
  (postLanes (.redK o) o (.keyed (redCode o.fn.toNat)) accKeyed false [o.d.toNat])

/-- Apply atomic lanes at their addresses in ascending order (R122, R234): old values with their poison, the flags, the state. -/
def State.atomRuns (s : State) (pl op n : Nat) (val : Nat → Nat) (bad : Nat → Bool) :
    List (Nat × Nat) → List (Nat × Nat × Bool) × Flags × State
  | [] => ([], 0, s)
  | (i, pa) :: rest =>
    let (old, p, fl, s1) := s.combineAt pa pl op n (val i) (bad i)
    let (rs, fl2, s2) := s1.atomRuns pl op n val bad rest
    ((i, old, p) :: rs, fl ||| fl2, s2)

/-- The same at locations, each reached as it is when the access begins (05 R140). -/
def State.atomLanes (s : State) (pl op n : Nat) (val : Nat → Nat) (bad : Nat → Bool) (xs : List (Nat × Loc)) :
    List (Nat × Nat × Bool) × Flags × State :=
  s.atomRuns pl op n val bad (s.reach xs)

/-- ATOM (R234). -/
def execAtom (o : M64) (s : State) := issue (.atom o) s fun s e =>
  let i : Instr := .atom o
  let n := sizeBytes o.size
  let k := sizeRegs o.size
  let val (l : Nat) : Nat := dataLane e.g.frame o.b.toNat k n l
  let bad (l : Nat) : Bool := e.g.frame.badRun o.b.toNat k l
  match resolve s e (accAtom.wide n) e.act (memOp (s.ctx e.g.ctx) e.g o n) with
  | .out r => r
  | .go xs s1 => partitioned s1 i e true xs (e.stay xs)
    (if s1.ownPosts e.g then .wait s1
     else
      match askPeers s1 e xs 2 (memOp (s.ctx e.g.ctx) e.g o n).va (16 + o.fn.toNat) n val (fun _ => 0) bad with
      | .error r => r
      | .ok (far, farFl, s2) =>
        let near := xs.filter fun x => x.2.peer.isNone
        let (got, fl, s3) := (s2.beatTwice (near.map Prod.snd) n).atomLanes (s.ctx e.g.ctx).pl o.fn.toNat n val bad near
        let res := got ++ far
        let g := (e.g.pstore e.act bad).sticky ((fl ||| farFl).setWidth 32)
        plainDone s3 i { g with frame := g.frame.writeLoad g.active e.act o.d.toNat o.size .g (laneVal res) (laneBad res) }
          (xs.map fun x => x.2.pa))

/-- Compare-and-swap lanes at their addresses in ascending order (R235), the transfers apart: old values with their poison, the
lanes written, the state. -/
def State.casRuns (s : State) (pl n : Nat) (cmp new : Nat → Nat) (bad : Nat → Bool) :
    List (Nat × Nat) → List (Nat × Nat × Bool) × List Nat × State
  | [] => ([], [], s)
  | (i, pa) :: rest =>
    let (old, p, s1) := s.readPart pa n
    let hit := old == cmp i
    let s2 := if hit then s1.writePart pa pl (toBytes n (new i)) (bad i) else s1
    let (rs, ws, s3) := s2.casRuns pl n cmp new bad rest
    ((i, old, p) :: rs, (if hit then i :: ws else ws), s3)

/-- The same at locations, each reached as it is when the access begins (05 R140). -/
def State.casLanes (s : State) (pl n : Nat) (cmp new : Nat → Nat) (bad : Nat → Bool) (xs : List (Nat × Loc)) :
    List (Nat × Nat × Bool) × List Nat × State :=
  s.casRuns pl n cmp new bad (s.reach xs)

/-- ATOM.CAS (R235). -/
def execAtomCas (o : M64) (s : State) := issue (.atomCas o) s fun s e =>
  let i : Instr := .atomCas o
  let n := sizeBytes o.size
  let k := sizeRegs o.size
  let f := e.g.frame
  let cmp (l : Nat) : Nat := dataLane f o.b.toNat k n l
  let new (l : Nat) : Nat := dataLane f (o.b.toNat + k) k n l
  let bad (l : Nat) : Bool := f.badRun (o.b.toNat + k) k l
  match resolve s e (accAtom.wide n) e.act (memOp (s.ctx e.g.ctx) e.g o n) with
  | .out r => r
  | .go xs s1 => partitioned s1 i e true xs (e.stay xs)
    (if s1.ownPosts e.g then .wait s1
     else
      match askPeers s1 e xs 2 (memOp (s.ctx e.g.ctx) e.g o n).va 32 n new cmp bad with
      | .error r => r
      | .ok (far, _, s2) =>
        let near := xs.filter fun x => x.2.peer.isNone
        let (got, hits, s3) := (s2.beatLocs (near.map Prod.snd) n).casLanes (s.ctx e.g.ctx).pl n cmp new bad near
        let s4 := s3.beatLocs ((near.filter fun x => hits.contains x.1).map Prod.snd) n true
        let res := got ++ far
        let farHit (l : Nat) : Bool := far.any fun r => r.1 == l && r.2.1 == cmp l
        let g := e.g.pstore e.act fun l => (hits.contains l || farHit l) && bad l
        plainDone s4 i { g with
          frame := f.writeLoad g.active e.act o.d.toNat o.size .g (laneVal res)
            fun l => laneBad res l || f.badRun o.b.toNat k l } (xs.map fun x => x.2.pa))

/-- Translate each page of a region: its locations, the first page refused, the first page missing (R227, R238). -/
def State.translatePages (s : State) (l ctx : Nat) (a : Access) (va : Nat) : Nat → Except (Nat × TFault) (List Loc × State)
  | 0 => .ok ([], s)
  | n + 1 =>
    match s.translate l ctx va a with
    | .error (.missing lv) =>
      match s.translatePages l ctx a (va + 0x20000) n with
      | .error (v, .missing _) => let _ := v; .error (va, .missing lv)
      | .error e => .error e
      | .ok _ => .error (va, .missing lv)
    | .error e => .error (va, e)
    | .ok (x, s1) =>
      match s1.translatePages l ctx a (va + 0x20000) n with
      | .error e => .error e
      | .ok (xs, s2) => .ok (x :: xs, s2)

/-- The failure of an address that stands for the whole context: the trap of check 5 over its lanes, or a park under
a record with an access code (R227, R228). -/
def refusedAt (s : State) (e : Env) (m : Mask) (code va : Nat) (f : TFault) : R :=
  let s := s.walkSense e.g.l e.g.ctx va
  match f with
  | .missing lv => .wait (s.parkOnToken e.g (e.g.faultRec (s.ftAt e.g.l) (if lv = 1 then 0 else 1) code lv va m 0))
  | f => .trap s (laneTrap f.cause code m va)

/-- The mask of the lowest lane of ACTIVE. -/
def Env.low (e : Env) : Mask := failMask [lowLane e.act]

/-- REDCLOSE (R238): close commands to every home of the region; it completes when each has been carried out. -/
def execRedclose (o : M64) (s : State) := issue (.redclose o) s fun s e =>
  let i : Instr := .redclose o
  let op := memOp (s.ctx e.g.ctx) e.g o 0x20000
  let va := op.va (lowLane e.act)
  let n := (e.g.frame.lane o.b.toNat (lowLane e.act)).toNat
  match e.g.mark with
  | some id => if s.landings.any fun x => x.mn.closes.any fun c => c.id == id then .wait s else done s i e.g
  | none =>
    if s.plainBusy e.g.uid then .wait s
    else
      match checks3 e.g 4 e.low [op] with
      | some t => .trap s t
      | none =>
        if n = 0 ∨ 65536 < n then .trap s (illegalTrap 2 11 8)
        else
          match s.translatePages e.g.l e.g.ctx accClose va n with
          | .error (v, f) => refusedAt s e e.low 4 v f
          | .ok (xs, s1) =>
            let id := s1.nextReq
            let s2 := (byKey (fun (x : Loc) => home x.pa) xs).foldl (fun (t : State) k =>
              t.modLanding k.1 fun y =>
                { y with mn := { y.mn with closes := y.mn.closes ++ [⟨id, e.g.ctx, k.2.map Loc.pa, none⟩] } }) { s1 with nextReq := id + 1 }
            .wait (s2.modGroup e.g.uid fun h => { h with mark := some id, busy := true })

/-- The tide of a FENCE's scope at a landing, and the stamp of its latest adoption (R132, R133). -/
def Landing.tide (x : Landing) (scope : Nat) : Nat × Nat :=
  match scope with
  | 1 => (x.tideL, x.adL)
  | 2 => (x.tideM, x.adM)
  | _ => (x.tideS, x.adS)

/-- FENCE (R239; 05 R135): complete at the first adoption after its issue at which the tide has passed the horizon. -/
def execFence (o : M64) (s : State) := issue (.fence o) s fun s e =>
  if o.scope = 0 then done s (.fence o) e.g
  else if s.sideBusy e.g.uid then .wait s
  else
    let (tide, ad) := (s.landing e.g.l).tide o.scope.toNat
    match e.g.mark with
    | none => .wait (s.modGroup e.g.uid fun h => { h with mark := some ad })
    | some m => if m < ad ∧ e.g.horizon < tide then done s (.fence o) e.g else .wait s

/-- The lanes of a counter wait that their counters satisfy now (R240), at the front of a publish page (05 R140). -/
def State.reached (s : State) (watch : List (Nat × Loc × Nat)) : Mask :=
  failMask ((watch.filter fun w => decide (w.2.2 ≤ (s.seen 8 w.2.1).1)).map Prod.fst)

/-- A part of CWAIT at its counters' home (R240; 05 R131). -/
def cwaitHere (s : State) (i : Instr) (e : Env) (o : M64) (xs : List (Nat × Loc)) : R :=
  if s.ownPosts e.g then .wait s
  else
    let w := xs.map fun x => (x.1, x.2, (e.g.frame.pair o.b.toNat x.1).toNat)
    let s1 := if e.g.watch.isEmpty then (s.readLanes 8 xs).2 else s
    let got := e.g.satisfied ||| s.reached w
    if (e.act &&& ~~~got) = 0 then memDone s1 i e.g (xs.map fun x => x.2.pa)
    else .wait (s1.modGroup e.g.uid fun h => { h with satisfied := got, watch := w, carried := some xs })

/-- CWAIT (R240). -/
def execCwait (o : M64) (s : State) := issue (.cwait o) s fun s e =>
  match resolve s e accCwait e.act (memOp (s.ctx e.g.ctx) e.g o 8) with
  | .out r => r
  | .go xs s1 => partitioned s1 (.cwait o) e false xs (e.stay xs) (cwaitHere s1 (.cwait o) e o xs)

/-- MIGRATE (R241). -/
def execMigrate (o : M64) (s : State) := issue (.migrate o) s fun s e =>
  match resolve s e accMigrate e.act (memOp (s.ctx e.g.ctx) e.g o 1) with
  | .out r => r
  | .go xs s1 => partitioned s1 (.migrate o) e false xs (e.stay xs) (done s1 (.migrate o) e.g)

end Sys2Proof.Machine
end

