-- ==== Sys2Proof/Machine/Sync.lean ====
section
/-! DEFINITION. Instructions of one address (09 R242 to R250): barriers, continuations and queues. -/

namespace Sys2Proof.Machine

/-- Checks 1 to 6 for the one address of an instruction that executes at its home (R225, R227): its location. -/
def resolveOne (s : State) (e : Env) (a : Access) (waits moves : Bool) (op : AddrOp) (check4 : Option Trap) : Except R ((Nat × Loc) × State) :=
  match e.g.carried with
  | some (x :: _) => .ok (x, s)
  | _ =>
    if waits && s.sideBusy e.g.uid then .error (.wait s)
    else
      match checks3 e.g a.code e.low [op] with
      | some t => .error (.trap s t)
      | none =>
        match check4 with
        | some t => .error (.trap s t)
        | none =>
          let va := op.va (lowLane e.act)
          match s.translate e.g.l e.g.ctx va a with
          | .error (.missing lv) => .error (refusedAt s e e.act a.code va (.missing lv))
          | .error f => .error (refusedAt s e e.low a.code va f)
          | .ok (x, s1) =>
            if moves && !(outside (s.ctx e.g.ctx) e.g [(0, x)]).isEmpty then .error (.trap s (laneTrap 8 a.code e.act va))
            else .ok ((lowLane e.act, x), s1)

/-- A barrier object (Table 9-4); `rsv` says whether a reserved byte is not zero. -/
structure BarObj where
  team : Nat
  st : Nat
  e : Nat
  phase : Word
  arrived : BitVec 128
  rsv : Bool
  deriving DecidableEq, Repr

/-- The barrier object at a physical address. -/
def Mem.bar (m : Mem) (pa : Nat) : BarObj :=
  ⟨m.num pa 2, m.num (pa + 2) 1, m.num (pa + 3) 1, BitVec.ofNat 32 (m.num (pa + 4) 4), BitVec.ofNat 128 (m.num (pa + 8) 16),
    (m.bytes (pa + 24) 40).any (· != 0)⟩

/-- Write a barrier object. -/
def State.putBar (s : State) (pa : Nat) (b : BarObj) : State :=
  s.store pa (toBytes 2 b.team ++ toBytes 1 b.st ++ toBytes 1 b.e ++ toBytes 4 b.phase.toNat ++ toBytes 16 b.arrived.toNat) false

/-- Set bits of a mask of ranks. -/
def count128 (x : BitVec 128) : Nat := ((List.range 128).filter fun i => x.getLsbD i).length

/-- The live-rank mask as an object's home holds it (R245). -/
def State.liveAt (s : State) (pa : Nat) : BitVec 128 := ((s.barLive.find? fun x => x.1 == pa).map Prod.snd).getD 0

/-- The home of an object receives a live-rank mask. -/
def State.setLive (s : State) (pa : Nat) (m : BitVec 128) : State :=
  { s with barLive := (pa, m) :: s.barLive.filter fun x => x.1 != pa }

/-- The barrier-unreachable trap (R248). -/
def BarObj.unreachable (b : BarObj) (live : BitVec 128) (va : Nat) : Trap :=
  ⟨24, BitVec.ofNat 64 (b.e % 256 + 256 * count128 b.arrived + 65536 * count128 (live &&& ~~~b.arrived) + 2 ^ 32 * b.phase.toNat),
    BitVec.ofNat 64 va⟩

/-- A waiter of an object passes its wait (R247). -/
def Group.pass (g : Group) : Group :=
  { g with pc := g.pc + 8, wait := .none, progIdx := 0, carried := none }

/-- Release the waiters on a phase (R247). -/
def State.releaseBar (s : State) (pa : Nat) (phase : Word) : State :=
  { s with groups := s.groups.map fun g =>
      match g.wait with
      | .bar o _ t _ => if o = pa ∧ t = phase then g.pass else g
      | _ => g }

/-- Whether a context waits at an object. -/
def State.barWaiters (s : State) (pa : Nat) : Bool :=
  s.groups.any fun g => match g.wait with | .bar o _ _ _ => o == pa | _ => false

/-- R248, at the object's home: an active object that too few live ranks can complete breaks, and those waiting on
its phase take the trap. -/
def State.evalBar (s : State) (pa : Nat) : State :=
  let b := s.mem.bar pa
  let live := s.liveAt pa
  if b.st = 1 ∧ count128 (live &&& ~~~b.arrived) + count128 b.arrived < b.e then
    let s1 := s.putBar pa { b with st := 2 }
    { s1 with groups := s1.groups.map fun g =>
        match g.wait with
        | .bar o va t _ =>
          if o = pa ∧ t = b.phase then { g with wait := .none, progIdx := 0, pend := some (b.unreachable live va) } else g
        | _ => g }
  else s

/-- The failing check of R246: `arriving` for BAR.ARRIVE and an arriving BAR.SYNC, `init` for BAR.INIT. A rank whose ARRIVED bit is
set fails with barrier state 3 on a broken object too, before R248's barrier unreachable is looked at (log entry 100). -/
def barCheck (s : State) (g : Group) (pa : Nat) (b : BarObj) (init arriving : Bool) : Option Nat :=
  let objs := ((s.team? g.ctx g.tag g.team).map Team.objects).getD []
  if 2 < b.st ∨ b.rsv ∨ (b.st ≠ 0 ∧ (b.e = 0 ∨ 128 < b.e)) ∨ (b.st = 0 ∧ !init) then some 1
  else if b.st ≠ 0 ∧ b.team ≠ g.team then some 2
  else if arriving && b.arrived.getLsbD g.rank then some 3
  else if init && decide (64 ≤ (objs.filter (· != pa)).length) then some 4
  else if init && b.st == 1 && (b.arrived != 0 || s.barWaiters pa) then some 5
  else none

/-- The barrier-state trap (R246). -/
def barTrap (k va : Nat) : Trap := ⟨23, BitVec.ofNat 64 k, BitVec.ofNat 64 va⟩

/-- ARRIVE of R247 on an unbroken object: the token and whether the phase advanced; then R248. -/
def State.arriveBar (s : State) (g : Group) (pa : Nat) (b : BarObj) : Bool × State :=
  let arr := b.arrived ||| ((1 : BitVec 128) <<< g.rank)
  if count128 arr = b.e then
    (true, ((s.putBar pa { b with arrived := 0, phase := b.phase + 1 }).releaseBar pa b.phase).evalBar pa)
  else (false, (s.putBar pa { b with arrived := arr }).evalBar pa)

/-- The wait of BAR.WAIT on a token (R247). -/
def waitBar (s : State) (i : Instr) (e : Env) (pa va : Nat) (tok : Word) (sync : Bool) : R :=
  let b := s.mem.bar pa
  if b.st = 2 then .trap (s.modGroup e.g.uid fun h => { h with progIdx := 0 }) (b.unreachable (s.liveAt pa) va)
  else if b.phase ≠ tok then done s i e.g
  else .wait (s.modGroup e.g.uid fun h => { h with wait := .bar pa va tok sync, progIdx := if sync then 1 else 0 })

/-- A barrier instruction up to its object's home (R225, R245, R246): `init` carries BAR.INIT's count check. -/
def barOp (i : Instr) (o : M64) (a : Access) (init : Option Nat) (arriving : Bool) (s : State) (e : Env) (go : State → Nat → Nat → BarObj → R) : R :=
  let op := memOp (s.ctx e.g.ctx) e.g o 64
  let va := op.va (lowLane e.act)
  let c4 : Option Trap :=
    if e.g.sibling then some (mkTrap 22 0)
    else match init with
      | some n => if n = 0 ∨ 128 < n then some (illegalTrap 2 12 8) else none
      | none => none
  match resolveOne s e a true true op c4 with
  | .error r => r
  | .ok (x, s1) => atHome s1 i e x
    (if s1.ownPosts e.g then .wait s1
     else
      let b := s1.mem.bar x.2.pa
      match barCheck s1 e.g x.2.pa b init.isSome arriving with
      | some k => .trap s1 (barTrap k va)
      | none => go (s1.touch x.2.pa 64) x.2.pa va b)

/-- A lane of the lowest active lane: an operand that holds for the whole context (R225). -/
def Env.uniform (e : Env) (r : Nat) : Word := e.g.frame.lane r (lowLane e.act)

/-- Write one value to every lane of ACTIVE in form G, poison cleared (Table 3-4). -/
def Group.writeG (g : Group) (act : Mask) (d : Nat) (x : Word) : Group :=
  { g with frame := g.frame.write g.active act d ⟨.g, fun _ => x, fun _ => false⟩ }

/-- Register an object with the record of a context's team at its anchor (R245): on a peer module, the request goes to the
anchor. -/
def State.register (s : State) (g : Group) (pa : Nat) : State :=
  match g.origin with
  | some p => s.sendPeer p g.l g.anchor (s.ftAt g.l) (.register g.ctx g.tag g.team pa)
  | none =>
    match s.team? g.ctx g.tag g.team with
    | some tm => (s.setTeam { tm with objects := if tm.objects.contains pa then tm.objects else tm.objects ++ [pa] }).setLive pa tm.live
    | none => s

/-- BAR.INIT (R247): the object is registered with the team's record (R245). -/
def execBarInit (o : M64) (s : State) := issue (.barInit o) s fun s e =>
  let n := (e.uniform o.b.toNat).toNat
  barOp (.barInit o) o accBar (some n) false s e fun t pa _ _ =>
    let t1 := t.putBar pa ⟨e.g.team, 1, n, 0, 0, false⟩
    done (t1.register e.g pa) (.barInit o) e.g

/-- BAR.ARRIVE (R247). -/
def execBarArrive (o : M64) (s : State) := issue (.barArrive o) s fun s e =>
  barOp (.barArrive o) o accBar none true s e fun t pa va b =>
    if b.st = 2 then .trap t (b.unreachable (t.liveAt pa) va)
    else done (t.arriveBar e.g pa b).2 (.barArrive o) (e.g.writeG e.act o.d.toNat b.phase)

/-- BAR.WAIT (R247). -/
def execBarWait (o : M64) (s : State) := issue (.barWait o) s fun s e =>
  barOp (.barWait o) o accBarWait none false s e fun t pa va _ => waitBar t (.barWait o) e pa va (e.uniform o.b.toNat) false

/-- BAR.SYNC (R247); with PROGIDX 1 only its wait remains (R249). -/
def execBarSync (o : M64) (s : State) := issue (.barSync o) s fun s e =>
  let i : Instr := .barSync o
  let again := e.g.progIdx == 1
  barOp i o accBar none (!again) s e fun t pa va b =>
    if again then waitBar t i e pa va (e.uniform o.d.toNat) true
    else if b.st = 2 then .trap t (b.unreachable (t.liveAt pa) va)
    else
      let g := e.g.writeG e.act o.d.toNat b.phase
      let (full, t1) := t.arriveBar e.g pa b
      if full then done t1 i g
      else
        let b1 := t1.mem.bar pa
        let w : Group := { g with wait := .bar pa va b.phase true, progIdx := 1 }
        if b1.st = 2 then .ok (t1.setGroup { g with pend := some (b1.unreachable (t1.liveAt pa) va) })
        else .ok (t1.setGroup w)

/-- Translate each 64-byte line of a run: its locations, or the address that fails. -/
def State.translateLines (s : State) (l ctx : Nat) (a : Access) (va : Nat) : Nat → Except (Nat × TFault) (List Loc × State)
  | 0 => .ok ([], s)
  | n + 1 =>
    match s.translate l ctx va a with
    | .error f => .error (va, f)
    | .ok (x, s1) =>
      match s1.translateLines l ctx a (va + 64) n with
      | .error f => .error f
      | .ok (xs, s2) => .ok (x :: xs, s2)

/-- Bytes at a place, as lanes of a link item, one for each 16-byte word, with its poison (R229). -/
def wordLanes (x : LinkPlace) (bs : List FByte) : List LinkLane :=
  (List.range ((bs.length + 15) / 16)).map fun k =>
    let w := (bs.drop (16 * k)).take 16
    ⟨0, { x with pa := x.pa + 16 * k }, w.length, leBytes (w.map Prod.fst), 0, w.any Prod.snd, none, 0⟩

/-- Write part of an image with its poison, here or at a peer module, where nothing waits for the reply. -/
def State.putLine (s : State) (l pl : Nat) (x : Loc) (bs : List FByte) : State :=
  match x.peer with
  | some p => { (s.sendPeer p l (home x.pa) (s.ftAt l) (.request s.nextReq pl 3 (wordLanes x.place bs))) with nextReq := s.nextReq + 1 }
  | none => s.putWords (fun v => x.pa + v) 4 0 bs

/-- Write an image line by line. -/
def State.putLines (s : State) (l pl : Nat) : List Loc → List FByte → State
  | [], _ => s
  | x :: xs, bs => (s.putLine l pl x (bs.take 64)).putLines l pl xs (bs.drop 64)

/-- PARK (R242; 02 R46): the image is written at its home and armed last. -/
def execPark (o : M64) (s : State) := issue (.park o) s fun s e =>
  let i : Instr := .park o
  let g := e.g
  let ext := (e.uniform o.b.toNat).toNat
  let op := memOp (s.ctx g.ctx) g o 64
  let va := op.va (lowLane e.act)
  let c4 := if ext % 64 ≠ 0 ∨ ext < 128 ∨ 2 ^ 20 < ext then some (illegalTrap 2 12 8) else none
  match resolveOne s e accPark true false op c4 with
  | .error r => r
  | .ok (_, s0) =>
    if e.rest != 0 then transfer s0 e [(e.rest, fun h => h.advance i), (e.act, id)]
    else if s.ownPosts g then .wait s
    else
      match s.needSealed g with
      | some s1 => .wait s1
      | none =>
        let r := srcsOf g i
        let h : Group := { s.ship (g.advance i) e.m r.v r.p r.h with armed := false, la := [] }
        let img := s.image h
        if ext < imageRoom h then .trap s (mkTrap 20 img.length)
        else
          match s0.translateLines g.l g.ctx accPark va (imageRoom h / 64) with
          | .error (v, f) => refusedAt s e e.act 1 v f
          | .ok (xs, s1) =>
            match s1.writeBlock h with
            | .error (v, f) => .wait (s.parkOnToken g (s.wseRecord g accSpill v f))
            | .ok s2 =>
              let s3 := s2.putLines g.l (s.ctx g.ctx).pl xs (pad64 img)
              let x := xs.headD ⟨0, 0, none, false, 17⟩
              let flag : Byte := ((img.getD 27 (0, false)).1 ||| 16)
              let s4 := match x.peer with
                | some _ => s3.putLine g.l (s.ctx g.ctx).pl { x with pa := x.pa + 27 } [(flag, false)]
                | none => (s3.store (x.pa + 27) [flag] false).keepToks g.ctx (imageKey x.pa) g.uid g.origin h.frame true
              .ok (s4.leaveBerth g)

/-- The bytes of an image at a virtual address whose first is at a location, no more than any image has (02 R46, R47): those of the
next page only when the image's extent passes the end of the first. With the runs they lie in. -/
def State.imageAt (s : State) (l ctx va : Nat) (x : Loc) : Except (Nat × TFault) (List Byte × List (Nat × Nat) × State) :=
  let n := min 8832 (2 ^ x.pageBits - x.pa % 2 ^ x.pageBits)
  let bs := s.mem.bytes x.pa n
  if imageLen bs ≤ n then .ok (bs, [(x.pa, imageLen bs)], s)
  else
    match s.translate l ctx (va + n) accWake with
    | .error f => .error (va + n, f)
    | .ok (y, s1) =>
      let all := bs ++ s.mem.bytes y.pa (8832 - n)
      .ok (all, [(x.pa, n), (y.pa, imageLen all - n)], s1)

/-- Submit an armed image at its home (R243): the state after the claim. -/
def State.claimImage (s : State) (ctx pa : Nat) (bs : List Byte) : State :=
  let l := home pa
  let (g0, block, s1) := s.takeImage ctx (imageKey pa) l bs
  let s2 := s1.store (pa + 27) [(bs.getD 27 0) &&& 0xEF] false
  let g := { g0 with armed := false }
  if (s.ctx ctx).runsAt l then s2.enterWharf l g (.of block)
  else if (s.ctx ctx).state = 0 then s2 else s2.parkArriving l g block false

/-- WAKE (R243; 02 R46, R47). -/
def execWake (o : M64) (s : State) := issue (.wake o) s fun s e =>
  let i : Instr := .wake o
  let op := memOp (s.ctx e.g.ctx) e.g o 64
  match resolveOne s e accWake true false op none with
  | .error r => r
  | .ok (x, s1) =>
    let pa := x.2.pa
    let va := op.va (lowLane e.act)
    if s1.ownPosts e.g && home pa == e.g.l then .wait s1
    else if !(s1.mem.byte (pa + 27)).getLsbD 4 then memDone (s1.touch pa 64) i (e.g.writeG e.act o.d.toNat 0) [pa]
    else
      match s1.imageAt e.g.l e.g.ctx va x.2 with
      | .error (v, f) => refusedAt s e (match f with | .missing _ => e.act | _ => e.low) accWake.code v f
      | .ok (bs, runs, s2) =>
        match s2.imageCheck e.g.ctx false bs with
        | some k => .trap s2 ⟨19, BitVec.ofNat 64 k, BitVec.ofNat 64 va⟩
        | none =>
          let s3 := runs.foldl (fun (t : State) r => t.sense r.1 r.2) (s2.beats runs)
          memDone (s3.claimImage e.g.ctx pa bs) i (e.g.writeG e.act o.d.toNat 1) [pa]

/-- A queue instruction up to its queue (R250, 20 R392). -/
def queueOp (i : Instr) (o : M64) (a : Access) (s : State) (e : Env) (go : State → Nat → Queue → R) : R :=
  let n := sizeBytes o.size
  let op := memOp (s.ctx e.g.ctx) e.g o n
  let va := op.va (lowLane e.act)
  match resolveOne s e a true true op none with
  | .error r => r
  | .ok (x, s1) => atHome s1 i e x
    (if s1.ownPosts e.g then .wait s1
     else
      match (if x.2.pageBits = 17 then s1.queueAt e.g.ctx (x.2.pa / 0x20000 * 0x20000) else none) with
      | none => .trap s (laneTrap 8 2 e.act va)
      | some q => if q.esb ≠ n then .trap s ⟨25, BitVec.ofNat 64 n, BitVec.ofNat 64 va⟩ else go s1 x.2.pa q)

/-- QPUSH (R250). -/
def execQpush (o : M64) (s : State) := issue (.qpush o) s fun s e =>
  queueOp (.qpush o) o accQueue s e fun t pa q =>
    let f := e.g.frame
    let k := sizeRegs o.size
    let ls := (lanesOf e.act).take q.room
    let bad (l : Nat) : Bool := f.badRun o.b.toNat k l
    let t1 := t.queueAppend q (ls.map fun l => (dataLane f o.b.toNat k q.esb l, bad l))
    let t2 := t1.setQueue (home pa) { q with tail := q.tail + BitVec.ofNat 32 ls.length }
    let g := e.g.pstore (failMask ls) bad
    memDone t2 (.qpush o) { g with frame := f.writePred e.act o.d.toNat (failMask ls) } [pa]

/-- QPOP (R250). -/
def execQpop (o : M64) (s : State) := issue (.qpop o) s fun s e =>
  queueOp (.qpop o) o accQpop s e fun t pa q =>
    let ls := (lanesOf e.act).take q.held
    let (xs, t1) := t.queueTake q ls.length
    let t2 := t1.setQueue (home pa) { q with head := q.head + BitVec.ofNat 32 ls.length }
    let res := ls.zip xs
    let f := e.g.frame.writeLoad e.g.active e.act o.d.toNat o.size .g (laneVal res) (laneBad res)
    memDone t2 (.qpop o) { e.g with frame := f.writePred e.act o.b.toNat (failMask ls) } [pa]

end Sys2Proof.Machine
end

