-- ==== Sys2Proof/Machine/Copy.lean ====
section
/-! DEFINITION. Copies, tokens, fill pointers and publication (09 R251 to R255; 05 R137 to R140; 23 R425). -/

namespace Sys2Proof.Machine

/-- An address operand of a K64 instruction (R223): a pair, or the heap form. -/
def kOp (c : Ctx) (g : Group) (heap : Bool) (r : Nat) : AddrOp := ⟨addrRegs heap r, 1, fun l => baseAddr c g heap r l % 2 ^ 64⟩

/-- A failure of a missing page. -/
def TFault.isMissing : TFault → Bool
  | .missing _ => true
  | _ => false

/-- Translate the 128 KiB pages from page `p` on for the bytes of a range that lie in them: each page's address and where it
begins, or the failure, of an access refused before one of a missing page (R227). -/
def State.rangePages (s : State) (l ctx : Nat) (a : Access) (va n : Nat) : Nat → Nat → Except (Nat × TFault) (List (Nat × Loc) × State)
  | _, 0 => .ok ([], s)
  | p, k + 1 =>
    let v := max va p
    match s.translate l ctx v { a with span := min (va + n) (p + 0x20000) - v } with
    | .error f =>
      match s.rangePages l ctx a va n (p + 0x20000) k with
      | .error (v', f') => if f.isMissing && !f'.isMissing then .error (v', f') else .error (v, f)
      | .ok _ => .error (v, f)
    | .ok (x, s1) =>
      match s1.rangePages l ctx a va n (p + 0x20000) k with
      | .error e => .error e
      | .ok (xs, s2) => .ok ((p, { x with pa := x.pa - (v - p) }) :: xs, s2)

/-- Translate every 128 KiB page of a range (R251): each page's address and location, or the failure. -/
def State.translateRange (s : State) (l ctx : Nat) (a : Access) (va n : Nat) : Except (Nat × TFault) (List (Nat × Loc) × State) :=
  if n = 0 then .ok ([], s)
  else s.rangePages l ctx a va n (va / 0x20000 * 0x20000) ((va + n - 1) / 0x20000 - va / 0x20000 + 1)

/-- Where a byte of a translated range lies. -/
def locOf (pages : List (Nat × Loc)) (v : Nat) : Loc :=
  let p := v / 0x20000 * 0x20000
  match pages.find? fun x => x.1 == p with
  | some x => { x.2 with pa := x.2.pa + (v - p) }
  | none => ⟨0, 0, none, false, 17⟩

/-- The 16-byte words of `n` bytes at a virtual address, as physical runs. -/
def State.wordRuns (s : State) (pages : List (Nat × Loc)) (va n : Nat) : List (Nat × Nat) :=
  (List.range ((va % 16 + n + 15) / 16)).map fun k =>
    let v := if k = 0 then va else va / 16 * 16 + 16 * k
    (s.mem.backing (locOf pages v) false, min (va + n) (va / 16 * 16 + 16 * k + 16) - v)

/-- Cut a run of `n` bytes at multiples of 64, from an address on. The fuel is the number of lines. -/
def cutLines (va n : Nat) : Nat → List (Nat × Nat)
  | 0 => []
  | k + 1 =>
    if n = 0 then []
    else
      let m := min n (64 - va % 64)
      (va, m) :: cutLines (va + m) (n - m) k

/-- One lane's copy as pieces: one for each destination line, its source cut at source lines (R138, R251). -/
def lanePieces (src dst : List (Nat × Loc)) (sv dv n : Nat) : List Piece :=
  (cutLines dv n (n / 64 + 2)).map fun d =>
    ⟨locOf dst d.1, (cutLines (sv + (d.1 - dv)) d.2 3).map fun r => (locOf src r.1, r.2), [], none⟩

/-- Bytes a piece writes. -/
def Piece.size (p : Piece) : Nat := (p.src.map Prod.snd).sum

/-- Insert a piece by its destination address; which of two pieces of one line is written first is free (R251; log
entry 18). -/
def pieceInsert (steps : Nat) (p : Piece) : List Piece → List Piece
  | [] => [p]
  | q :: qs =>
    if p.dst.pa / 64 < q.dst.pa / 64 ∨ (p.dst.pa / 64 = q.dst.pa / 64 ∧ Config.coin steps (p.dst.pa / 64)) then p :: q :: qs
    else q :: pieceInsert steps p qs

/-- The lanes' ranges of a COPY: lane, source, destination, length (R251). -/
def copyRanges (c : Ctx) (e : Env) (o : T64) : List (Nat × Nat × Nat × Nat) :=
  (lanesOf e.act).filterMap fun l =>
    let n := (e.g.frame.lane o.c.toNat l).toNat
    if n = 0 then none
    else some (l, (kOp c e.g (o.ctl.getLsbD 1) o.b.toNat).va l, (kOp c e.g (o.ctl.getLsbD 0) o.a.toNat).va l, n)

/-- What a lane's two ranges fail with: a refused access of either before a missing page of either (R227, R251). -/
def laneFault (l : Nat) (d r : Except (Nat × TFault) α) : List (Nat × Nat × TFault) :=
  let of_ : Except (Nat × TFault) α → List (Nat × Nat × TFault) := fun x => match x with | .error (v, f) => [(l, v, f)] | .ok _ => []
  let fs := of_ d ++ of_ r
  ((fs.filter fun f => !f.2.2.isMissing) ++ fs).take 1

/-- Every page of every lane, destination and source (R251): the lanes' pages, those refused, those missing. -/
def State.copyPages (s : State) (e : Env) (ad : Access) : List (Nat × Nat × Nat × Nat) →
    List (Nat × List (Nat × Loc) × List (Nat × Loc)) × List (Nat × Nat × TFault) × State
  | [] => ([], [], s)
  | (l, sv, dv, n) :: rest =>
    let d := s.translateRange e.g.l e.g.ctx ad dv n
    let s1 := match d with | .ok (_, t) => t | .error _ => s
    match d, s1.translateRange e.g.l e.g.ctx accCopySrc sv n with
    | .ok (ds, _), .ok (ss, s2) =>
      let (xs, bad, t) := s2.copyPages e ad rest
      ((l, ss, ds) :: xs, bad, t)
    | d, r =>
      let (xs, bad, t) := s.copyPages e ad rest
      (xs, laneFault l d r ++ bad, t)

/-- The destination bytes of pieces at each home of the module (R253). -/
def fillRanges (ps : List Piece) : List (Nat × List (Nat × Nat)) :=
  (byKey (fun (p : Piece) => home p.dst.pa) (ps.filter fun p => p.dst.peer.isNone && decide (home p.dst.pa < 64))).map fun k =>
    (k.1, k.2.map fun p => (p.dst.pa, p.size))

/-- The destination bytes of pieces at peer modules (R139). -/
def peerRanges (ps : List Piece) : List (Nat × Nat × Nat) :=
  ps.filterMap fun p => p.dst.peer.map fun m => (m, p.dst.pa, p.size)

/-- The token a new copy joins (R251, 02 R37). -/
def Token.join (t : Token) (id : Nat) : Token := if t.dropped then ⟨[id], false⟩ else ⟨t.copies ++ [id], false⟩

/-- The pieces of the lanes' copies, in the order they are written (R251). -/
def copyPieces (steps : Nat) (rs : List (Nat × Nat × Nat × Nat)) (xs : List (Nat × List (Nat × Loc) × List (Nat × Loc))) : List Piece :=
  (rs.flatMap fun r =>
    match xs.find? fun x => x.1 == r.1 with
    | some x => lanePieces x.2.1 x.2.2 r.2.1 r.2.2.1 r.2.2.2
    | none => []).foldl (fun a p => pieceInsert steps p a) []

/-- COPY and COPY.S (R251, R252). -/
def copyOp (i : Instr) (o : T64) (shadow : Bool) (s : State) (e : Env) : R :=
  let c := s.ctx e.g.ctx
  let g := e.g
  let da := kOp c g (o.ctl.getLsbD 0) o.a.toNat
  let sa := kOp c g (o.ctl.getLsbD 1) o.b.toNat
  let rs := copyRanges c e o
  let far := rs.filterMap fun r =>
    if 2 ^ 56 < r.2.2.1 + r.2.2.2 then some (r.1, r.2.2.1) else if 2 ^ 56 < r.2.1 + r.2.2.2 then some (r.1, r.2.1) else none
  let lapped := rs.filter fun r => decide (r.2.1 < r.2.2.1 + r.2.2.2) && decide (r.2.2.1 < r.2.1 + r.2.2.2)
  if s.sideBusy g.uid then .wait s
  else
    match g.poisonUse e.act (da.regs ++ sa.regs ++ [o.c.toNat]) with
    | some t => .trap s t
    | none =>
      if !far.isEmpty then .trap s (lanesTrap 6 4 far)
      else if !lapped.isEmpty then .trap s (laneTrap 21 0 (failMask (lapped.map Prod.fst)) 0)
      else
        let (xs, bad, s1) := s.copyPages e (if shadow then accCopyS else accCopyDst) rs
        let refused := bad.filter fun b => !b.2.2.isMissing
        match refused.head? with
        | some r => .trap s (laneTrap r.2.2.cause 4 (failMask (refused.map Prod.fst)) r.2.1)
        | none =>
          if !bad.isEmpty then
            .wait (s.parkMissing g 4 (bad.map fun b => (b.1, match b.2.2 with | .missing lv => lv | _ => 0))
              (bad.map fun b => (b.1, b.2.1)))
          else
            let ps := copyPieces s.steps rs xs
            let fills := if shadow then [] else fillRanges ps
            if fills.any fun k => decide (256 ≤ (s.landing k.1).fills.length) then .wait s
            else if ps.isEmpty then memDone s i g []
            else
              let id := s.nextCopy
              let s2 := fills.foldl (fun (t : State) k =>
                t.modLanding k.1 fun x => { x with fills := ⟨id, k.2⟩ :: x.fills })
                { s1 with nextCopy := id + 1, copies := s1.copies ++ [⟨id, g.ctx, g.uid, g.l, shadow, ps, [], if shadow then [] else peerRanges ps⟩] }
              let k := o.d.toNat % 8
              let f := { g.frame with k := g.frame.k.modify k fun t => t.join id }
              memDone s2 i { g with frame := f, lastCopy := some id } (ps.flatMap fun p => p.dst.pa :: p.src.map fun r => r.1.pa)

/-- COPY (R251). -/
def execCopy (o : T64) (s : State) := issue (.copy o) s (copyOp (.copy o) o false)
/-- COPY.S (R252). -/
def execCopyS (o : T64) (s : State) := issue (.copyS o) s (copyOp (.copyS o) o true)

/-- The token of a K64 instruction. -/
def Frame.token (f : Frame) (o : T64) : Token := f.k.getD (o.d.toNat % 8) Token.complete

/-- Reading a dropped token sets DEADRD (02 R37). -/
def Group.readToken (g : Group) (t : Token) : Group := if t.dropped then g.sticky DEADRD else g

/-- TWAIT (R254). -/
def execTwait (o : T64) (s : State) := issue (.twait o) s fun s e =>
  let t := e.g.frame.token o
  if !t.dropped && s.outstanding t then .wait s else done s (.twait o) (e.g.readToken t)

/-- TPOLL (R254). -/
def execTpoll (o : T64) (s : State) := issue (.tpoll o) s fun s e =>
  let t := e.g.frame.token o
  let x : Word := if !t.dropped && s.outstanding t then 0 else 1
  done s (.tpoll o) ((e.g.readToken t).writeG e.act o.c.toNat x)

/-- The fill pointer of a copy at a home (05 R139): the lowest destination byte not yet applied there, or the end. -/
def State.fillPtr (s : State) (f : Fill) (l : Nat) : Nat :=
  let rest := (s.copies.filter fun c => c.id == f.id).flatMap fun c =>
    (c.pieces.filter fun p => p.dst.peer.isNone && home p.dst.pa == l).map fun p => p.dst.pa
  match rest with
  | [] => (f.ranges.map fun r => r.1 + r.2).foldl max 0
  | a :: as => as.foldl min a

/-- The destination bytes of a copy at a landing of a peer module that are not applied there, by their lowest address (05 R139). -/
def Copy.peerLeft (c : Copy) (m l : Nat) : List Nat :=
  ((c.pieces.map Piece.dst ++ c.unacked.map Prod.snd).filter fun x => x.peer == some m && home x.pa == l).map Loc.pa

/-- The fill pointer, less an address, of the latest copy of this module that covers an address of a peer module and is not all
applied at its home there; a free value where no copy of this module does, since the peer's own copies are not known here (05
R139, R253; log entry 93). -/
def State.peerFill (s : State) (m : Nat) (x : Loc) : Nat :=
  match s.copies.reverse.find? fun c => !(c.peerLeft m (home x.pa)).isEmpty &&
      c.peerRanges.any fun r => r.1 == m && decide (r.2.1 ≤ x.pa) && decide (x.pa < r.2.1 + r.2.2) with
  | none => Config.value s.steps x.pa % 2 ^ 64
  | some c => ((c.peerLeft m (home x.pa)).foldl min (2 ^ 64 - 1)) - x.pa

/-- The value CFILL reads at an address (R253); BX-E02 may give that of the next older entry. -/
def State.fillAt (s : State) (g : Group) (x : Loc) : Nat :=
  match x.peer with
  | some m => s.peerFill m x
  | none =>
    let l := home x.pa
    let live := (s.landing l).fills.filter fun f => f.ranges.any fun r => decide (r.1 ≤ x.pa) && decide (x.pa < r.1 + r.2)
    match live with
    | [] => 2 ^ 64 - 1
    | f :: rest =>
      let f' := if g.lastCopy = some f.id ∧ Config.coin s.steps x.pa then rest.headD f else f
      s.fillPtr f' l - x.pa

/-- CFILL (R253). -/
def execCfill (o : T64) (s : State) := issue (.cfill o) s fun s e =>
  let op := kOp (s.ctx e.g.ctx) e.g (o.ctl.getLsbD 0) o.a.toNat
  match checks3 e.g 0 e.act [op] with
  | some t => .trap s t
  | none =>
    match resolveLanes s e accCfill false e.act op.va fun _ => none with
    | .out r => r
    | .go xs s1 =>
      let res := xs.map fun x => (x.1, s.fillAt e.g x.2, false)
      memDone s1 (.cfill o) { e.g with
        frame := e.g.frame.writeLoad e.g.active e.act o.c.toNat 3 .g (laneVal res) (laneBad res) } []

/-- PUBLISH (R255). -/
def execPublish (o : T64) (s : State) := issue (.publish o) s fun s e =>
  let i : Instr := .publish o
  let g := e.g
  let op := kOp (s.ctx g.ctx) g (o.ctl.getLsbD 0) o.a.toNat
  let va := op.va (lowLane e.act)
  let part : PartLane := ⟨lowLane e.act, va, 0, false, none, 0⟩
  if s.sideBusy g.uid then .wait s
  else
    match checks3 g 3 e.low [op] with
    | some t => .trap s t
    | none =>
      match s.translate g.l g.ctx va accPublish with
      | .error (.missing lv) =>
        retire s e .flip false false 1 3 [⟨[part], some (lv, va)⟩] fun t =>
          memDone t i { g with horizon := max g.horizon (s.ftAt g.l) } []
      | .error f => .trap s (laneTrap f.cause 3 e.low va)
      | .ok (x, s1) =>
        let page := { x with pa := x.pa / 2 ^ x.pageBits * 2 ^ x.pageBits }
        memDone (s1.sendPosts g .flip 1 [part.post page none]) i
          { g with horizon := max g.horizon (s.ftAt g.l) } []

/-- Write bytes with their poison, word by word (R229), the transfers apart. -/
def State.layFlagged (s : State) (pa : Nat) (bs : List (Byte × Bool)) : Nat → State
  | 0 => s
  | k + 1 =>
    if bs.isEmpty then s
    else
      let n := 16 - pa % 16
      let w := bs.take n
      (s.lay pa (w.map Prod.fst) (w.any Prod.snd)).layFlagged (pa + n) (bs.drop n) k

/-- One write of bytes with their poison, of at most 64 bytes. -/
def State.putFlagged (s : State) (pa : Nat) (bs : List (Byte × Bool)) : State :=
  (s.beats [(pa, bs.length)] true).layFlagged pa bs 5

/-- GSTATUS of an image takes status bits: its bytes 56 to 59 (Table 2-2). -/
def stickyImage (b : Word) (img : List Byte) : List Byte :=
  img.take 56 ++ toBytes 4 (num img 56 4 ||| b.toNat) ++ img.drop 60

/-- Give a context status bits wherever it is: berthed, waiting in a wharf, an arrival, on a pair, or an image held for a pool or
in memory. -/
def State.stickyOf (s : State) (uid : Nat) (b : Word) : State :=
  let f (g : Group) : Group := if g.uid = uid then g.sticky b else g
  let item (i : Item) : Item := match i with
    | .crossing g => .crossing (f g)
    | .arrival a => .arrival { a with g := f a.g }
    | i => i
  let s1 := { s with
    groups := s.groups.map f
    pairs := s.pairs.map fun p => (p.1, p.2.map item)
    landings := s.landings.map fun (x : Landing) => { x with
      wharf := x.wharf.map fun (w : Waiting) => { w with g := f w.g }
      arrivals := x.arrivals.map fun (a : Arrival) => { a with g := f a.g }
      poolWait := x.poolWait.map fun p => if p.uid = uid then { p with img := stickyImage b p.img } else p } }
  (s.tokSides.filter fun k => k.uid == uid && k.key % 2 == 1).foldl (fun (t : State) k =>
    t.lay (k.key / 2 + 56) (toBytes 4 (t.mem.num (k.key / 2 + 56) 4 ||| b.toNat)) false) s1

/-- Bytes read from a source run, each with its poison (R229, 23 R425). -/
def State.readRun (s : State) (x : Loc) (n : Nat) : List (Byte × Bool) × State :=
  if home x.pa = 64 then ((List.range n).map fun i => (Config.hostByte s.steps (x.pa - 0x800000000000 + i), false), s)
  else
    let pa := s.mem.backing x false
    if isControl pa then
      let v := s.ctlRead pa n
      ((List.range n).map fun i => (BitVec.ofNat 8 (v / 2 ^ (8 * i)), false), s)
    else ((List.range n).map fun i => (s.mem.byte (pa + i), s.mem.unreadable (pa + i) 1), s.touch pa n)

/-- Free the fill entries of a copy at homes where nothing of it remains, and the copy when all is applied (R138, R253). -/
def State.endCopy (s : State) (c : Copy) : State :=
  let left (l : Nat) : Bool := c.pieces.any fun p => p.dst.peer.isNone && home p.dst.pa == l
  { s with
    landings := s.landings.mapIdx fun l (x : Landing) => { x with fills := x.fills.filter fun f => f.id != c.id || left l }
    copies := if c.pieces.isEmpty && c.unacked.isEmpty then s.copies.filter fun d => d.id != c.id
      else s.copies.map fun d => if d.id = c.id then c else d }

/-- Bytes at a place as lanes of a link item, one for each 16-byte word they touch, each with its poison (R229). The fuel is the
number of words. -/
def flaggedLanes (x : LinkPlace) (bs : List (Byte × Bool)) : Nat → List LinkLane
  | 0 => []
  | k + 1 =>
    if bs.isEmpty then []
    else
      let n := 16 - x.pa % 16
      let w := bs.take n
      ⟨0, x, w.length, leBytes (w.map Prod.fst), 0, w.any Prod.snd, none, 0⟩ :: flaggedLanes { x with pa := x.pa + n } (bs.drop n) k

/-- The lanes that ask for a run of bytes (05 R138). -/
def runLanes (x : Loc) (n : Nat) : List LinkLane := flaggedLanes x.place (List.replicate n (0, false)) 5

/-- The bytes of a run, from the reply to its lanes. -/
def replyBytes (xs : List LinkLane) (rs : List (Nat × Nat × Bool)) : List (Byte × Bool) :=
  (xs.zip rs).flatMap fun p => (toBytes p.1.n p.2.2.1).map fun b => (b, p.2.2.2)

/-- Write a piece whose data is read: at its home, toward host memory, or to a peer module (R138, R252, 23 R425); with the writes
that wait for an acknowledgement. -/
def State.writePiece (s : State) (c : Copy) (p : Piece) : State × List (Nat × Loc) :=
  let bs := p.data.flatten
  let s0 := if bs.any Prod.snd then s.stickyOf c.uid PSTORE else s
  match p.dst.peer with
  | some m =>
    let body : LinkBody := .request s.nextReq (s.ctx c.ctx).pl (if c.shadow then 2 else 3) (flaggedLanes p.dst.place bs 5)
    ({ (s0.sendPeer m c.l (home p.dst.pa) (s.ftAt c.l) body (noteOf c.ctx 0)) with nextReq := s.nextReq + 1 }, [(s.nextReq, p.dst)])
  | none =>
    if home p.dst.pa = 64 then
      ({ s0 with nextReq := s.nextReq + 1, links := { s0.links with
          hostOut := s0.links.hostOut ++ [⟨s.nextReq, p.dst.pa - 0x800000000000, bs.map Prod.fst⟩] } }, [(s.nextReq, p.dst)])
    else
      let pa := s.mem.backing p.dst c.shadow
      if isControl pa then (s0.ctlWrite pa (s.ctx c.ctx).pl (bs.map Prod.fst), [])
      else (s0.putFlagged pa bs, [])

/-- COPY_LINE (05 R138, R139): read the next source run of a piece, or write it once all are read. -/
def State.copyStep (s : State) (c : Copy) (k : Nat) (p : Piece) : State :=
  let put (t : State) (q : Piece) : State := t.endCopy { c with pieces := c.pieces.set k q }
  match p.src[p.data.length]? with
  | some (x, n) =>
    match x.peer, p.asked with
    | none, _ =>
      let (bs, s1) := s.readRun x n
      put s1 { p with data := p.data ++ [bs] }
    | some m, none =>
      put { (s.sendPeer m c.l (home x.pa) (s.ftAt c.l) (.request s.nextReq (s.ctx c.ctx).pl 4 (runLanes x n)) (noteOf c.ctx 0)) with nextReq := s.nextReq + 1 }
        { p with asked := some s.nextReq }
    | some _, some id =>
      match s.links.replies.find? fun r => r.id == id with
      | none => s
      | some r =>
        put { s with links := { s.links with replies := s.links.replies.filter fun q => q.id != id } }
          { p with data := p.data ++ [replyBytes (runLanes x n) r.results], asked := none }
  | none =>
    let (s1, ids) := s.writePiece c p
    s1.endCopy { c with pieces := c.pieces.eraseIdx k, unacked := c.unacked ++ ids }

/-- The host link is up (23 R421). -/
def State.hostUp (s : State) : Bool := s.links.rate != 0

/-- A copy's piece can go on: its next run may be read, over the host link while that is up (23 R425), or it is first of its home
to be written (05 R139). -/
def State.pieceReady (s : State) (c : Copy) (k : Nat) : Bool :=
  match c.pieces[k]? with
  | none => false
  | some p =>
    match p.src[p.data.length]? with
    | some x =>
      (match p.asked with | none => home x.1.pa != 64 || x.1.peer.isSome || s.hostUp | some id => s.links.replies.any fun r => r.id == id)
    | none => !(c.pieces.take k).any fun q => q.dst.peer == p.dst.peer && home q.dst.pa == home p.dst.pa

/-- COPY_LINE. -/
def execCopyLine (id k : Nat) (s : State) : Host.Outcome State Fault Refusal :=
  match s.copies.find? fun c => c.id == id with
  | none => .next s
  | some c =>
    match c.pieces[k]? with
    | none => .next s
    | some p => if s.pieceReady c k then .next (s.copyStep c k p) else .next s

end Sys2Proof.Machine
end

