-- ==== Sys2Proof/Machine/Merge.lean ====
section
/-! DEFINITION. The merge network of a landing (12 R305 to R324; 04 R108, R109): sessions and the instructions of
major 16, runs, row commits and resume records, keyed buffering and the close of keyed regions. -/

namespace Sys2Proof.Machine

/-- Insert into a list ordered by a key. -/
def insertBy (key : α → List Nat) (x : α) : List α → List α
  | [] => [x]
  | y :: ys => if lexLt (key x) (key y) then x :: y :: ys else y :: insertBy key x ys

/-- Order a list by a key; elements of one key keep their order. -/
def sortBy (key : α → List Nat) (xs : List α) : List α := xs.foldl (fun a x => insertBy key x a) []

/-- Tuples the run store holds for sessions (R305). -/
def runStore : Nat := 458752
/-- Entries the keyed buffer holds (R305). -/
def keyedRoom : Nat := 65536

/-- A session id (R306). -/
def sessionId (l slot gen : Nat) : Nat := slot + 256 * l + 65536 * gen
/-- The landing of a session id. -/
def sidLanding (sid : Nat) : Nat := bits sid 13 8
/-- The slot of a session id. -/
def sidSlot (sid : Nat) : Nat := sid % 8

/-- The session in the slot an id names, of the id's generation. -/
def State.slotOf (s : State) (sid : Nat) : Option Session :=
  match (s.landing (sidLanding sid)).mn.slots.getD (sidSlot sid) none with
  | some x => if x.gen = sid / 65536 then some x else none
  | none => none

/-- The open session that an id names for a context (R306). -/
def State.session? (s : State) (ctx sid : Nat) : Option Session :=
  if bits sid 7 3 ≠ 0 ∨ bits sid 15 14 ≠ 0 then none
  else
    match s.slotOf sid with
    | some x => if x.ctx = ctx ∧ !x.closing then some x else none
    | none => none

/-- Change a merge network. -/
def State.modMN (s : State) (l : Nat) (f : MergeNet → MergeNet) : State := s.modLanding l fun y => { y with mn := f y.mn }

/-- Put a session in its slot, or free the slot. -/
def State.setSlot (s : State) (l slot : Nat) (x : Option Session) : State :=
  s.modMN l fun (m : MergeNet) => { m with slots := m.slots.set slot x }

/-- A descriptor from its 64 bytes (Table 12-4). -/
def MergeDesc.ofBytes (bs : List Byte) : MergeDesc :=
  let q (k : Nat) : DWord := BitVec.ofNat 64 (num bs k 8)
  let w (k : Nat) : Word := BitVec.ofNat 32 (num bs k 4)
  ⟨q 0, q 8, q 16, q 24, q 32, q 40, w 48, w 52, w 56, w 60⟩

/-- OUTFMT is COO. -/
def MergeDesc.coo (d : MergeDesc) : Bool := d.ctl.extractLsb' 0 2 == 1#2
/-- VTYPE. -/
def MergeDesc.vtype (d : MergeDesc) : Nat := bits d.ctl.toNat 3 2
/-- OPW. -/
def MergeDesc.opw (d : MergeDesc) : Bool := d.ctl.getLsbD 4
/-- Bytes of a row offset. -/
def MergeDesc.pw (d : MergeDesc) : Nat := if d.opw then 8 else 4
/-- Streams. -/
def MergeDesc.streams (d : MergeDesc) : Nat := bits d.ctl.toNat 8 5 + 1

/-- The REASON of the merge-descriptor trap, 1 to 4 (R307, Table 12-7). -/
def MergeDesc.bad (d : MergeDesc) : Option Nat :=
  let ill (x : DWord) (n : Nat) : Bool := x.toNat % n != 0
  if d.ctl.toNat / 512 ≠ 0 then some 1
  else if 2 ≤ d.ctl.toNat % 4 ∨ d.vtype = 3 ∨ (d.opw ∧ d.coo) then some 2
  else if ill d.rowPtr d.pw || ill d.colIdx 4 || ill d.vals 4 || ill d.spill 64 || ill d.resume 64 then some 3
  else if d.nrows = 0 ∨ d.ncols = 0 then some 4
  else none

/-- MGRESUME may change only ROWPTR, COLIDX, VALS, CAP, RESUME, and OPW from 0 to 1 (R318). -/
def MergeDesc.resumes (old new : MergeDesc) : Bool :=
  old.spill == new.spill && old.nrows == new.nrows && old.ncols == new.ncols && old.spillCap == new.spillCap &&
    (old.ctl &&& ~~~16#32) == (new.ctl &&& ~~~16#32) && (!old.opw || new.opw)

/-- Status word 0 with a state (Table 12-9). -/
def Session.word0 (x : Session) (state : Nat) : Nat :=
  state + 16 * x.cause + 256 * x.flags.toNat + (if x.drop then 8192 else 0) + (if x.poison then 16384 else 0) +
    65536 * x.runs.length

/-- The status words with a state. -/
def Session.words (x : Session) (state : Nat) : List Nat :=
  [x.word0 state, x.nextRow, x.e % 2 ^ 32, x.e / 2 ^ 32 % 2 ^ 32]

/-- A record of a fault of the network (Table 19-4; which group's fields it holds is not stated: zero). -/
def State.netRecord (s : State) (l ctx kind level va aux : Nat) : FaultRec :=
  { ft := s.ftAt l, ctx := ctx, kind := kind, access := 4, level := level, token := 0, core := 0, va := va
    lineage := 0, team := 0, rank := 0, lanes := 0, slcount := 0, aux := aux }

/-- The kind of a record for a missing page or table. -/
def missingKind (lv : Nat) : Nat := if lv = 1 then 0 else 1

/-- What a set of output accesses of the network comes to (R317). -/
inductive Emit where
  | ok (s : State)
  | missing (va lv : Nat)
  | refused (va : Nat)

/-- Translate each write of a list: address, bytes, poison. -/
def State.emitLocs (s : State) (l ctx : Nat) : List (Nat × List Byte × Bool) →
    Except (Nat × TFault) (List (Loc × List Byte × Bool) × State)
  | [] => .ok ([], s)
  | (va, w) :: rest =>
    match s.translate l ctx va accEngW with
    | .error f => .error (va, f)
    | .ok (x, s1) =>
      match s1.emitLocs l ctx rest with
      | .error e => .error e
      | .ok (xs, s2) => .ok ((x, w) :: xs, s2)

/-- Write a list of words: every page is translated before any byte is written (R317). -/
def State.emit (s : State) (l ctx : Nat) (ws : List (Nat × List Byte × Bool)) : Emit :=
  match s.emitLocs l ctx ws with
  | .error (va, .missing lv) => .missing va lv
  | .error (va, _) => .refused va
  | .ok (xs, s1) => .ok (xs.foldl (fun (t : State) x => t.writeLocPart x.1 (s.ctx ctx).pl x.2.1 x.2.2)
      (s1.beats (xs.map fun x => (s1.mem.backing x.1 false, x.2.1.length)) true))

/-- Pause a session on a missing page (R317): under a token, or tried again where none is free. -/
def State.pauseSession (s : State) (l slot : Nat) (x : Session) (va lv : Nat) : State :=
  match s.takeToken l (s.netRecord l x.ctx (missingKind lv) lv va (sessionId l slot x.gen)) with
  | some (t, s1) => s1.setSlot l slot (some { x with token := some t })
  | none => s.setSlot l slot (some x)

/-- The resume record of a session that comes to rest (Table 12-8). -/
def Session.record (x : Session) (ft : Nat) : List Byte :=
  (x.words x.ending).flatMap (toBytes 4) ++ toBytes 8 (if x.ending = 4 then x.need else 0) ++ toBytes 8 ft ++
    toBytes 8 (if x.cause = 4 then x.faultVA else 0) ++ toBytes 24 0

/-- A session as its writes leave it; one that is closing and has no more to write frees its slot (R321). -/
def State.settleSlot (s : State) (l slot : Nat) (x : Session) : State := s.setSlot l slot (if x.closing then none else some x)

/-- Bring a session to its resting state: the resume record first (R316). One whose address is refused is not written. -/
def State.rest (s : State) (l slot : Nat) (x : Session) : State :=
  let y := { x with state := x.ending, ending := 0, held := if x.ending = 4 then x.held else [] }
  match s.emit l x.ctx [(x.desc.resume.toNat, x.record (s.ftAt l), false)] with
  | .ok s1 => s1.settleSlot l slot y
  | .missing va lv => s.pauseSession l slot x va lv
  | .refused _ => s.settleSlot l slot y

/-- A session enters FAILED (R317). -/
def State.failSession (s : State) (l slot : Nat) (x : Session) (cause va : Nat) : State :=
  s.rest l slot { x with ending := 5, cause := cause, faultVA := va, rowDone := false, opening := false
                         held := if cause = 3 then [] else x.held }

/-- The poison-use trap over registers read in the lowest lane of ACTIVE and registers read in every lane (R310). -/
def mergePoison (e : Env) (low all : List Nat) : Option Trap :=
  let badIn (r : Nat) : List Nat := (lanesOf e.act).filter fun i => e.g.frame.bad r i && (all.contains r || (low.contains r && i == lowLane e.act))
  match (List.range 64).find? fun r => !(badIn r).isEmpty with
  | none => none
  | some r => some (mkTrap 13 (r + 256 * (badIn r).headD 0))

/-- The merge-session trap (Table 12-7). -/
def sessionTrap (reason batch : Nat) : Trap := mkTrap 33 (reason + 256 * batch)

/-- The session checks (R310 check 6): the REASON. -/
def sessionCheck (x : Option Session) (stream : Option Nat) (admits : List Nat) : Option Nat :=
  match x with
  | none => some 1
  | some x =>
    if stream.any fun k => decide (x.desc.streams ≤ k) then some 2
    else if stream.any fun k => x.sealed.getD k false then some 3
    else if admits.contains x.state then none
    else some 4

/-- The value of a register in the lowest lane of ACTIVE. -/
def Env.lowWord (e : Env) (r : Nat) : Nat := (e.g.frame.lane r (lowLane e.act)).toNat
/-- The value of a pair in the lowest lane of ACTIVE. -/
def Env.lowPair (e : Env) (r : Nat) : Nat := (e.g.frame.pair r (lowLane e.act)).toNat

/-- Checks 1 to 5 of R310 for a descriptor at pair `a`: the descriptor, its address and its location. -/
def readDesc (s : State) (e : Env) (a : Nat) (low : List Nat) : Except R (MergeDesc × Nat × Loc × State) :=
  match mergePoison e (a :: (a + 1) :: low) [] with
  | some t => .error (.trap s t)
  | none =>
    match resolveOne s e accEngR true false ⟨[a, a + 1], 64, fun l => (e.g.frame.pair a l).toNat⟩ none with
    | .error r => .error r
    | .ok (x, s1) =>
      let va := e.lowPair a
      let pa := s1.mem.backing x.2 false
      let poison := s1.mem.unreadable pa 64
      let (v, _, s2) := s1.readAt pa 64
      let bs := toBytes 64 v
      if poison then .error (.trap s2 (wordTrap va))
      else
        let d := MergeDesc.ofBytes bs
        match d.bad with
        | some r => .error (.trap s2 ⟨32, BitVec.ofNat 64 r, BitVec.ofNat 64 va⟩)
        | none => .ok (d, va, x.2, s2)
where
  /-- The poison-use trap of a poisoned descriptor. -/
  wordTrap (va : Nat) : Trap := ⟨13, 0, BitVec.ofNat 64 va⟩

/-- An MGOPEN whose session has been taken: it writes the id once ROWPTR[0] has been written or the session has
FAILED (R311). -/
def openWait (s : State) (i : Instr) (e : Env) (d sid : Nat) : R :=
  let l := sidLanding sid
  let slot := sidSlot sid
  let fin (t : State) : R := done t i (e.g.writeG e.act d (BitVec.ofNat 32 sid))
  let hold (t : State) : R := .wait (t.modGroup e.g.uid fun h => { h with mark := some sid, busy := true })
  match s.slotOf sid with
  | none => fin s
  | some x =>
    if x.token.isSome || x.ending != 0 then hold s
    else if !x.opening then fin s
    else
      match s.emit l x.ctx [(x.desc.rowPtr.toNat, toBytes x.desc.pw 0, false)] with
      | .ok s1 => fin (s1.settleSlot l slot { x with opening := false })
      | .missing va lv => hold (s.pauseSession l slot x va lv)
      | .refused va => hold (s.failSession l slot x 4 va)

/-- MGOPEN (R307, R311). -/
def execMgopen (o : T64) (s : State) := issue (.mgopen o) s fun s e =>
  let i : Instr := .mgopen o
  let d := o.d.toNat
  match e.g.mark with
  | some sid => openWait s i e d sid
  | none =>
    match readDesc s e o.a.toNat [] with
    | .error r => r
    | .ok (desc, _, x, s1) =>
      let l := home x.pa
      match (List.range 8).find? fun k => ((s1.landing l).mn.slots.getD k none).isNone with
      | none => done s1 i (e.g.writeG e.act d 0xFFFFFFFF)
      | some k =>
        let gen := ((s1.landing l).mn.gens.getD k 0 + 1) % 65536
        let y : Session :=
          { ctx := e.g.ctx, gen := gen, desc := desc, sealed := List.replicate 16 false, held := [], runs := [], state := 1
            cause := 0, flags := 0, drop := false, poison := false, nextRow := 0, e := 0, need := 0, faultVA := 0
            rowDone := false, token := none, opening := !desc.coo, ending := 0, closing := false }
        let s2 := s1.modMN l fun (m : MergeNet) => { m with slots := m.slots.set k (some y), gens := m.gens.set k gen }
        openWait s2 i e d (sessionId l k gen)

/-- Tuples the sessions of a network hold. -/
def MergeNet.held (m : MergeNet) : Nat :=
  m.slots.foldl (fun n x => n + ((x.map fun (y : Session) => y.held.length).getD 0)) 0

/-- Accept a batch (R312). -/
def Session.accept (x : Session) (ts : List Tuple) : Session :=
  let keep := ts.filter fun t => decide (t.row < x.desc.nrows) && decide (t.col < x.desc.ncols)
  { x with held := x.held ++ keep, drop := x.drop || decide (keep.length < ts.length) }

/-- The tuple of a lane (R312). -/
def Frame.tuple (f : Frame) (a l : Nat) : Tuple :=
  ⟨f.lane a l, f.lane (a + 1) l, f.lane (a + 2) l, f.lane (a + 3) l, f.bad (a + 2) l⟩

/-- The batches of R312: the lanes of ACTIVE in each group of eight lane positions, those with none left out. -/
def batches (act : Mask) : List (List Nat) :=
  ((List.range 4).map fun j => (lanesOf act).filter fun i => i / 8 == j).filter fun b => !b.isEmpty

/-- MGPUSH (R312): one batch at each turn. -/
def execMgpush (o : T64) (s : State) := issue (.mgpush o) s fun s e =>
  let i : Instr := .mgpush o
  let a := o.a.toNat
  match mergePoison e [o.b.toNat, o.c.toNat] [a, a + 1, a + 3] with
  | some t => .trap s t
  | none =>
    let sid := e.lowWord o.b.toNat
    if s.plainBusy e.g.uid then .wait s
    else
      match (batches e.act).drop e.g.progIdx with
      | [] => done s i e.g
      | b :: rest =>
        match s.session? e.g.ctx sid, sessionCheck (s.session? e.g.ctx sid) (some (e.lowWord o.c.toNat)) [1] with
        | some x, none =>
          if runStore < (s.landing (sidLanding sid)).mn.held + b.length then .wait s
          else
            let s1 := s.setSlot (sidLanding sid) (sidSlot sid) (some (x.accept (b.map (e.g.frame.tuple a))))
            if rest.isEmpty then done s1 i e.g else .ok (s1.setGroup { e.g with progIdx := e.g.progIdx + 1 })
        | _, r => .trap s (sessionTrap (r.getD 1) e.g.progIdx)

/-- A command on the session that register `b` names, once the checks of R310 pass. -/
def sessionOp (s : State) (e : Env) (b : Nat) (stream : Option Nat) (admits : List Nat) (go : Nat → Session → R) : R :=
  match mergePoison e (b :: stream.toList) [] with
  | some t => .trap s t
  | none =>
    let sid := e.lowWord b
    if s.plainBusy e.g.uid then .wait s
    else
      match s.session? e.g.ctx sid, sessionCheck (s.session? e.g.ctx sid) (stream.map e.lowWord) admits with
      | some x, none => go sid x
      | _, r => .trap s (sessionTrap (r.getD 1) 0)

/-- MGSEAL (R313). -/
def execMgseal (o : T64) (s : State) := issue (.mgseal o) s fun s e =>
  sessionOp s e o.b.toNat (some o.c.toNat) [1] fun sid x =>
    let y := { x with sealed := x.sealed.set (e.lowWord o.c.toNat) true }
    let all := (List.range x.desc.streams).all fun k => y.sealed.getD k false
    done (s.setSlot (sidLanding sid) (sidSlot sid) (some { y with state := if all then 2 else 1 })) (.mgseal o) e.g

/-- MGWAIT (R320). -/
def execMgwait (o : T64) (s : State) := issue (.mgwait o) s fun s e =>
  let i : Instr := .mgwait o
  let fin (x : Nat) : R := done s i (e.g.writeG e.act o.d.toNat (BitVec.ofNat 32 x))
  let go (sid : Nat) (x : Session) : R :=
    if 3 ≤ x.state then fin (x.word0 x.state)
    else .wait (s.modGroup e.g.uid fun h => { h with mark := some sid })
  match e.g.mark with
  | none => sessionOp s e o.b.toNat none [1, 2, 3, 4, 5] go
  | some sid =>
    match s.session? e.g.ctx sid with
    | none => fin 0
    | some x => go sid x

/-- Write four words to a quad, form G. -/
def Group.writeQuad (g : Group) (act : Mask) (d : Nat) (ws : List Nat) : Group :=
  (List.range 4).foldl (fun (h : Group) k => h.writeG act (d + k) (BitVec.ofNat 32 (ws.getD k 0))) g

/-- MGSTAT (R319). -/
def execMgstat (o : T64) (s : State) := issue (.mgstat o) s fun s e =>
  sessionOp s e o.b.toNat none [1, 2, 3, 4, 5] fun sid x =>
    let s1 := if o.ctl.getLsbD 1 then
        s.setSlot (sidLanding sid) (sidSlot sid) (some { x with flags := 0, drop := false, poison := false })
      else s
    done s1 (.mgstat o) (e.g.writeQuad e.act o.d.toNat (x.words x.state))

/-- MGSTAT.K (R319, R322). -/
def execMgstatK (o : T64) (s : State) := issue (.mgstatK o) s fun s e =>
  let a := o.a.toNat
  match resolveOne s e accEngR true false ⟨[a, a + 1], 1, fun l => (e.g.frame.pair a l).toNat⟩ none with
  | .error r => r
  | .ok (x, s1) =>
    let l := home x.2.pa
    let m := (s1.landing l).mn
    let ws := [256 * m.kflags.toNat + (if m.kpoison then 16384 else 0), m.keyed.length, m.kruns, 0]
    let s2 := if o.ctl.getLsbD 1 then s1.modMN l fun (m : MergeNet) => { m with kflags := 0, kpoison := false } else s1
    done s2 (.mgstatK o) (e.g.writeQuad e.act o.d.toNat ws)

/-- MGRESUME (R318). -/
def execMgresume (o : T64) (s : State) := issue (.mgresume o) s fun s e =>
  let sid := e.lowWord o.b.toNat
  match readDesc s e o.a.toNat [o.b.toNat] with
  | .error r => r
  | .ok (d, va, _, s1) =>
    match s1.session? e.g.ctx sid with
    | none => .trap s1 (sessionTrap 1 0)
    | some x =>
      if !x.desc.resumes d then .trap s1 ⟨32, 5, BitVec.ofNat 64 va⟩
      else if x.state ≠ 4 then .trap s1 (sessionTrap 4 0)
      else
        done (s1.setSlot (sidLanding sid) (sidSlot sid) (some { x with desc := d, state := 2, cause := 0, need := 0 }))
          (.mgresume o) e.g

/-- A session has begun a write that has not been applied: a row's entries without their end offset, or a write that waits for
a page (R317, R321). -/
def Session.writing (x : Session) : Bool := x.rowDone || x.token.isSome || x.opening

/-- Close a session (R321): at once, or when the writes it has begun have been applied, at a row boundary. -/
def State.closeSession (s : State) (l slot : Nat) (x : Session) : State :=
  s.setSlot l slot (if x.writing then some { x with closing := true, held := if x.rowDone then [] else x.held } else none)

/-- MGCLOSE (R321). -/
def execMgclose (o : T64) (s : State) := issue (.mgclose o) s fun s e =>
  let i : Instr := .mgclose o
  match e.g.mark with
  | some sid => if (s.slotOf sid).isSome then .wait s else done s i e.g
  | none =>
    sessionOp s e o.b.toNat none [1, 2, 3, 4, 5] fun sid x =>
      let s1 := s.closeSession (sidLanding sid) (sidSlot sid) x
      if (s1.slotOf sid).isSome then .wait (s1.modGroup e.g.uid fun h => { h with mark := some sid, busy := true })
      else done s1 i e.g

/-- Bytes of a run of `n` tuples (R314). -/
def runBytes (n : Nat) : Nat := (64 + 16 * n + 63) / 64 * 64

/-- Write a run: its header and its tuples of 16 bytes, each with its poison. The pages are translated first. -/
def State.writeRun (s : State) (l ctx va : Nat) (ts : List (List Byte × Bool)) : Emit :=
  match s.translateRange l ctx accEngW va (64 + 16 * ts.length) with
  | .error (v, .missing lv) => .missing v lv
  | .error (v, _) => .refused v
  | .ok (pages, s1) =>
    let words := [(toBytes 16 ts.length, false), (toBytes 16 0, false), (toBytes 16 0, false), (toBytes 16 0, false)] ++ ts
    let pl := (s.ctx ctx).pl
    .ok ((words.foldl (fun (a : State × Nat) w =>
      (a.1.writeLocPart (locOf pages a.2) pl w.1 w.2, a.2 + 16)) (s1.beats (s1.wordRuns pages va (16 * words.length)) true, va)).1)

/-- Read a run of `n` tuples: the header's count, and each tuple's 16 bytes with their poison. -/
def State.readRun16 (s : State) (l ctx va n : Nat) : Except (Nat × TFault) (Nat × List (Nat × Bool) × State) :=
  match s.translateRange l ctx accEngR va (64 + 16 * n) with
  | .error e => .error e
  | .ok (pages, s1) =>
    let (c, _, s2) := (s1.beats (s1.wordRuns pages va (64 + 16 * n))).readLocPart (locOf pages va) 8
    let r := (List.range n).foldl (fun (a : List (Nat × Bool) × State) k =>
      let (x, p, t) := a.2.readLocPart (locOf pages (va + 64 + 16 * k)) 16
      ((x, p) :: a.1, t)) ([], s2)
    .ok (c, r.1.reverse, r.2)

/-- A tuple's 16 bytes (R305). -/
def Tuple.bytes (t : Tuple) : List Byte := [t.row, t.col, t.val, t.key].flatMap fun w => toBytes 4 w.toNat
/-- A tuple from its 16 bytes. -/
def Tuple.ofNat (x : Nat) (p : Bool) : Tuple :=
  let w (k : Nat) : Word := BitVec.ofNat 32 (x / 2 ^ (32 * k))
  ⟨w 0, w 1, w 2, w 3, p⟩
/-- The order of a run: row, col, key, value bits (R314). -/
def Tuple.order (t : Tuple) : List Nat := [t.row.toNat, t.col.toNat, t.key.toNat, t.val.toNat]

/-- Whether tuples stand in the order of a run. -/
def inOrder : List Tuple → Bool
  | a :: b :: rest => !lexLt b.order a.order && inOrder (b :: rest)
  | _ => true

/-- The slot to spill: the session that holds the most tuples, the lower slot on a tie (R314). -/
def MergeNet.fullest (m : MergeNet) : Nat :=
  let n (k : Nat) : Nat := ((m.slots.getD k none).map fun (y : Session) => y.held.length).getD 0
  (List.range 8).foldl (fun k j => if n k < n j then j else k) 0

/-- A network must spill before it accepts another batch (R312, R314). -/
def MergeNet.full (m : MergeNet) : Bool := decide (runStore < m.held + 8)

/-- The first free byte of a list of runs, from a base. -/
def runsEnd (base : Nat) (runs : List (Nat × Nat)) : Nat := runs.foldl (fun a r => max a (r.1 + runBytes r.2)) base

/-- Write a session's held tuples as its next run (R314). -/
def State.spillSession (s : State) (l slot : Nat) (x : Session) : State :=
  let a := runsEnd x.desc.spill.toNat x.runs
  let n := x.held.length
  if 64 ≤ x.runs.length ∨ x.desc.spill.toNat + 65536 * x.desc.spillCap.toNat < a + runBytes n then s.failSession l slot x 3 0
  else
    match s.writeRun l x.ctx a ((sortBy Tuple.order x.held).map fun t => (t.bytes, t.poison)) with
    | .ok s1 => s1.settleSlot l slot { x with held := [], runs := x.runs ++ [(a, n)] }
    | .missing va lv => s.pauseSession l slot x va lv
    | .refused va => s.failSession l slot x 4 va

/-- MERGE_SPILL (R314). -/
def execMergeSpill (l : Nat) (s : State) : Host.Outcome State Fault Refusal :=
  let m := (s.landing l).mn
  let k := m.fullest
  match m.slots.getD k none with
  | none => .next s
  | some x => .next (if !m.full || x.token.isSome || x.ending != 0 then s else s.spillSession l k x)

/-- What reading a session's runs gives. -/
inductive RunRead where
  | ok (ts : List Tuple) (s : State)
  | missing (va lv : Nat)
  | refused (va : Nat)
  | corrupt (s : State)

/-- Read a session's runs, with the check of each (R315). -/
def State.readRuns (s : State) (l ctx : Nat) : List (Nat × Nat) → RunRead
  | [] => .ok [] s
  | (va, n) :: rest =>
    match s.readRun16 l ctx va n with
    | .error (v, .missing lv) => .missing v lv
    | .error (v, _) => .refused v
    | .ok (c, xs, s1) =>
      let ts := xs.map fun x => Tuple.ofNat x.1 x.2
      if c ≠ n ∨ !inOrder ts then .corrupt s1
      else
        match s1.readRuns l ctx rest with
        | .ok us s2 => .ok (ts ++ us) s2
        | r => r

/-- An entry of a row: column, value, flags of its additions, poison (R108). -/
structure Entry where
  col : Nat
  val : Nat
  fl : Flags
  bad : Bool

/-- Combine the tuples of one column, ordered by key and value (R108). -/
def combineTuples (vtype : Nat) : List Tuple → Nat × Flags × Bool
  | [] => (0, 0, false)
  | t :: ts => ts.foldl (fun (a : Nat × Flags × Bool) u =>
      let v := u.val.toNat
      if vtype = 0 then
        let r := F32.add .rne a.1 v
        (r.bits, a.2.1 ||| r.fl, a.2.2 || u.poison)
      else ((a.1 + v) % 2 ^ 32, a.2.1, a.2.2 || u.poison)) (t.val.toNat, 0, t.poison)

/-- The entries of a row from its tuples (R315). -/
def rowEntries (vtype : Nat) (ts : List Tuple) : List Entry :=
  (byKey (fun (t : Tuple) => t.col.toNat) ts).map fun k =>
    let r := combineTuples vtype (sortBy (fun (t : Tuple) => [t.key.toNat, t.val.toNat]) k.2)
    ⟨k.1, r.1, r.2.1, r.2.2⟩

/-- Commit a row whose entries have been written (R315, R321). -/
def State.commitRow (s : State) (l slot : Nat) (x : Session) : State :=
  let y := { x with
    e := x.e + x.need, nextRow := x.nextRow + 1, need := 0, rowDone := false
    held := x.held.filter fun t => decide (x.nextRow < t.row.toNat) }
  if x.closing then s.setSlot l slot none
  else if y.nextRow = x.desc.nrows.toNat then s.rest l slot { y with ending := 3 }
  else s.setSlot l slot (some y)

/-- The next output row of a session in MERGING: its entries, or a stop (R315, R316). -/
def State.mergeRow (s : State) (l slot : Nat) (x : Session) : State :=
  match s.readRuns l x.ctx x.runs with
  | .missing va lv => s.pauseSession l slot x va lv
  | .refused va => s.failSession l slot x 4 va
  | .corrupt s1 => s1.failSession l slot x 5 0
  | .ok ts s1 =>
    let es := rowEntries x.desc.vtype ((x.held ++ ts).filter fun t => t.row.toNat == x.nextRow)
    let n := es.length
    let d := x.desc
    if !d.coo && !d.opw && decide (2 ^ 32 - 1 < x.e + n) then s1.rest l slot { x with ending := 4, cause := 2, need := n }
    else if d.cap.toNat < x.e + n then s1.rest l slot { x with ending := 4, cause := 1, need := n }
    else
      let at_ (b : DWord) (k v : Nat) (p : Bool) : Nat × List Byte × Bool := (b.toNat + 4 * (x.e + k), toBytes 4 v, p)
      let ws := (List.range n).zip es |>.flatMap fun (k, y) =>
        [at_ d.colIdx k y.col false, at_ d.vals k y.val y.bad] ++ if d.coo then [at_ d.rowPtr k x.nextRow false] else []
      match s1.emit l x.ctx ws with
      | .missing va lv => s1.pauseSession l slot x va lv
      | .refused va => s1.failSession l slot x 4 va
      | .ok s2 =>
        let y := { x with
          need := n, rowDone := true, flags := es.foldl (fun f z => f ||| z.fl) x.flags
          poison := x.poison || es.any Entry.bad }
        if d.coo then s2.commitRow l slot y else s2.setSlot l slot (some y)

/-- A session that is closing while OPEN has the write of a run to finish (R321). -/
def Session.finishes (x : Session) : Bool := x.closing && x.state == 1 && !x.opening

/-- ROW_COMMIT (R315): the entries of the next row, then its end offset; or the resume record of a session that comes
to rest; or, of one that is closing, the run it had begun to write (R321). -/
def execRowCommit (l slot : Nat) (s : State) : Host.Outcome State Fault Refusal :=
  match (s.landing l).mn.slots.getD slot none with
  | none => .next s
  | some x =>
    if x.token.isSome then .next s
    else if x.ending ≠ 0 then .next (s.rest l slot x)
    else if x.state ≠ 2 then .next (if x.finishes then s.spillSession l slot x else s)
    else if x.rowDone then
      match s.emit l x.ctx [(x.desc.rowPtr.toNat + x.desc.pw * (x.nextRow + 1), toBytes x.desc.pw (x.e + x.need), false)] with
      | .missing va lv => .next (s.pauseSession l slot x va lv)
      | .refused va => .next (s.failSession l slot x 4 va)
      | .ok s1 => .next (s1.commitRow l slot x)
    else .next (s.mergeRow l slot x)

/-- A keyed entry's 16 bytes (R322). -/
def KeyedEntry.bytes (k : KeyedEntry) : List Byte :=
  toBytes 6 k.pa ++ toBytes 1 (k.op + if k.poison then 16 else 0) ++ [0] ++ toBytes 4 k.key.toNat ++ toBytes 4 k.value.toNat

/-- A keyed entry of a context from its 16 bytes. -/
def KeyedEntry.ofNat (ctx x : Nat) (p : Bool) : KeyedEntry :=
  ⟨ctx, x % 2 ^ 48, bits x 51 48, x.testBit 52 || p, BitVec.ofNat 32 (x / 2 ^ 64), BitVec.ofNat 32 (x / 2 ^ 96)⟩

/-- The order of a keyed run: address, key, value bits (R322). -/
def KeyedEntry.order (k : KeyedEntry) : List Nat := [k.pa, k.key.toNat, k.value.toNat]

/-- The context that holds the most keyed entries, the lower CTXID on a tie (R322). -/
def MergeNet.fullestCtx (m : MergeNet) : Nat :=
  let n (c : Nat) : Nat := (m.keyed.filter fun k => k.ctx == c).length
  let cs := m.keyed.foldl (fun (a : List Nat) k => natInsert a k.ctx) []
  cs.foldl (fun c d => if n c < n d then d else c) (cs.headD 0)

/-- The keyed runs of a context at a landing. -/
def Ctx.keyedRuns (c : Ctx) (l : Nat) : List (Nat × Nat) := ((c.krun.find? fun r => r.1 == l).map Prod.snd).getD []

/-- Replace the keyed runs of a context at a landing. -/
def State.setRuns (s : State) (ctx l : Nat) (runs : List (Nat × Nat)) : State :=
  s.modCtx ctx fun (c : Ctx) => { c with krun := (l, runs) :: c.krun.filter fun r => r.1 != l }

/-- Write the entries of the fullest context as a keyed run (R322), or the kind, level and address of the record that
says why not. -/
def State.keyedSpill (s : State) (l : Nat) : Except (Nat × Nat × Nat × Nat) State :=
  let m := (s.landing l).mn
  let id := m.fullestCtx
  let c := s.ctx id
  let es := sortBy KeyedEntry.order (m.keyed.filter fun k => k.ctx == id)
  let base := c.kspillBase.toNat
  let a := runsEnd base (c.krun.flatMap Prod.snd)
  if base + 65536 * c.kspillSize.toNat < a + runBytes es.length then .error (id, 7, 0, base)
  else
    match s.writeRun l id a (es.map fun k => (k.bytes, false)) with
    | .missing va lv => .error (id, missingKind lv, lv, va)
    | .refused va => .error (id, 7, 0, va)
    | .ok s1 =>
      let s2 := s1.setRuns id l (c.keyedRuns l ++ [(a, es.length)])
      .ok (s2.modMN l fun (m : MergeNet) => { m with keyed := m.keyed.filter fun k => k.ctx != id, kruns := m.kruns + 1 })

/-- Enter keyed tuples at a network, spilling while they find no room (R322): the state, and the token under which they
wait, or nothing when they are entered. The fuel bounds the spills. -/
def State.keyedEnter (s : State) (l : Nat) (es : List KeyedEntry) : Nat → Bool × Option Nat × State
  | 0 => (false, none, s)
  | n + 1 =>
    if (s.landing l).mn.keyed.length + es.length ≤ keyedRoom then
      (true, none, s.modMN l fun (m : MergeNet) => { m with keyed := m.keyed ++ es })
    else
      match s.keyedSpill l with
      | .ok s1 => s1.keyedEnter l es n
      | .error (ctx, kind, lv, va) =>
        match s.takeToken l (s.netRecord l ctx kind lv va 0) with
        | some (t, s1) => (false, some t, s1)
        | none => (false, none, s)

/-- The keyed entry of a posted lane. -/
def PostLane.entry (x : PostLane) (ctx op : Nat) : KeyedEntry :=
  ⟨ctx, x.loc.pa, op, x.poison, x.key, BitVec.ofNat 32 x.value⟩

/-- Apply keyed contributions to their locations at a home (R109, R238): in ascending key, ties by value bits. Contributions of
one location with equal key and equal value bits but different ops have no order in the spec; they go in ascending op code (log
entry 99). -/
def State.applyKeyed (s : State) (l pl : Nat) (es : List KeyedEntry) : State :=
  (byKey KeyedEntry.pa es).foldl (fun (t : State) k =>
    let (v, p, t1) := t.readAt k.1 4
    let r := (sortBy (fun (x : KeyedEntry) => [x.key.toNat, x.value.toNat, x.op]) k.2).foldl
      (fun (a : Nat × Flags × Bool) x =>
        let c := combine x.op 4 a.1 x.value.toNat
        (c.1, a.2.1 ||| c.2, a.2.2 || x.poison)) (v, 0, p)
    (t1.writeAt k.1 pl (toBytes 4 r.1) r.2.2).modMN l fun (m : MergeNet) =>
      { m with kflags := m.kflags ||| r.2.1, kpoison := m.kpoison || r.2.2 }) s

/-- Read the keyed runs of a context at a landing: each run with its entries. -/
def State.readKeyed (s : State) (l ctx : Nat) : List (Nat × Nat) → Except (Nat × TFault) (List (Nat × List KeyedEntry) × State)
  | [] => .ok ([], s)
  | (va, n) :: rest =>
    match s.readRun16 l ctx va n with
    | .error e => .error e
    | .ok (_, xs, s1) =>
      match s1.readKeyed l ctx rest with
      | .error e => .error e
      | .ok (ys, s2) => .ok ((va, xs.map fun x => KeyedEntry.ofNat ctx x.1 x.2) :: ys, s2)

/-- Write back what a close leaves of the runs. -/
def State.rewriteRuns (s : State) (l ctx : Nat) : List (Nat × List KeyedEntry) → Except (Nat × TFault) State
  | [] => .ok s
  | (va, es) :: rest =>
    if es.isEmpty then s.rewriteRuns l ctx rest
    else
      match s.writeRun l ctx va (es.map fun k => (k.bytes, false)) with
      | .missing v lv => .error (v, .missing lv)
      | .refused v => .error (v, .access)
      | .ok s1 => s1.rewriteRuns l ctx rest

/-- A close command that cannot use a keyed run waits under a token (R322, 19 R381). -/
def State.blockClose (s : State) (l : Nat) (c : Close) (va : Nat) (f : TFault) : State :=
  let r := match f with
    | .missing lv => s.netRecord l c.ctx (missingKind lv) lv va 0
    | _ => s.netRecord l c.ctx 7 0 va 0
  match s.takeToken l r with
  | some (t, s1) => s1.modMN l fun (m : MergeNet) => { m with closes := { c with token := some t } :: m.closes.drop 1 }
  | none => s

/-- CLOSE_COMMAND (R238, R109, R322): the network applies every keyed tuple it holds for the region, whichever context buffered it,
and those of the closing context's keyed runs. -/
def execCloseCommand (l : Nat) (s : State) : Host.Outcome State Fault Refusal :=
  match (s.landing l).mn.closes with
  | [] => .next s
  | c :: rest =>
    if c.token.isSome then .next s
    else
      let inside (k : KeyedEntry) : Bool := c.pages.contains (k.pa / 0x20000 * 0x20000)
      match s.readKeyed l c.ctx ((s.ctx c.ctx).keyedRuns l) with
      | .error (va, f) => .next (s.blockClose l c va f)
      | .ok (runs, s1) =>
        let left := runs.map fun r => (r.1, r.2.filter fun k => !inside k)
        match s1.rewriteRuns l c.ctx left with
        | .error (va, f) => .next (s.blockClose l c va f)
        | .ok s2 =>
          let es := ((s2.landing l).mn.keyed ++ runs.flatMap Prod.snd).filter inside
          let s3 := (s2.setRuns c.ctx l ((left.filter fun r => !r.2.isEmpty).map fun r => (r.1, r.2.length))).modMN l
            fun (m : MergeNet) => { m with keyed := m.keyed.filter fun k => !inside k, closes := rest }
          .next (s3.applyKeyed l (s.ctx c.ctx).pl es)

/-- REPLAY of a token releases what the merge network holds under it (19 R385). -/
def MergeNet.replay (m : MergeNet) (t : Nat) : MergeNet :=
  { m with
    slots := m.slots.map fun x => x.map fun (y : Session) => if y.token = some t then { y with token := none } else y
    closes := m.closes.map fun c => if c.token = some t then { c with token := none } else c }

/-- The kill of a context closes its sessions and discards its keyed entries (17 R345). -/
def State.killMerge (s : State) (ctx : Nat) : State :=
  (List.range 64).foldl (fun (t : State) l =>
    t.modMN l fun (m : MergeNet) =>
      { m with
        slots := m.slots.map fun x => match x with
          | some (y : Session) => if y.ctx = ctx then none else some y
          | none => none
        keyed := m.keyed.filter fun k => k.ctx != ctx
        closes := m.closes.filter fun c => c.ctx != ctx }) s

end Sys2Proof.Machine
end

