-- ==== Sys2Proof/Machine/Matrix.lean ====
section
/-! DEFINITION. The matrix unit (10 R257 to R271; 04 R106) and the instructions of major 17 (11 R272 to R295). -/

namespace Sys2Proof.Machine

/-- The team of a group, as claims name it (R264). -/
def Group.teamKey (g : Group) : Nat × Nat × Nat := (g.ctx, g.tag, g.team)

/-- A cleared unit (R264). -/
def MUnit.clear (l core : Nat) : MUnit :=
  { l := l, core := core, holder := none, cells := [], failed := [], broken := [], md := [], bscale := [], rows := [], ascale := [], tiles := []
    brec := none, queue := [], accepted := 0, done := 0, progIdx := 0, status := 0, log := [] }

/-- The unit of a core. -/
def State.unit (s : State) (l core : Nat) : MUnit :=
  (s.units.find? fun u => u.l == l && u.core == core).getD (MUnit.clear l core)

/-- Replace the unit of a core. -/
def State.setUnit (s : State) (u : MUnit) : State :=
  { s with units := u :: s.units.filter fun v => !(v.l == u.l && v.core == u.core) }

/-- The class of an element format: BF16, FP8, FP6, FP4 (Table 10-1). -/
def fmtClass (f : Nat) : Nat := if f = 3 then 0 else if f ≤ 5 then 1 else if f ≤ 7 then 2 else 3

/-- Bytes of a row of 256 elements of a format (Table 11-4). -/
def rowBytes (f : Nat) : Nat :=
  match fmtClass f with | 0 => 512 | 1 => 256 | 2 => 192 | _ => 128

/-- The value of a key in a list of those that differ from a default. -/
def look (xs : List (Nat × Nat)) (d k : Nat) : Nat := ((xs.find? fun x => x.1 == k).map Prod.snd).getD d

/-- A byte of a list of bytes with their poison. -/
def byteAt (bs : List FByte) (k : Nat) : FByte := bs.getD k (0, false)

/-- Element `i` of a packed run of a format class, none when a byte of it is poisoned (Table 4-2, R89, R263): `hi` and
`lo` are the byte offsets of the run, or of the planes of FP6. -/
def element (cls : Nat) (bs : List FByte) (hi lo i : Nat) : Option Nat :=
  let get (xs : List FByte) (v : Nat) : Option Nat := if xs.any Prod.snd then none else some v
  match cls with
  | 0 => let a := byteAt bs (hi + 2 * i); let b := byteAt bs (hi + 2 * i + 1)
         get [a, b] (a.1.toNat + 256 * b.1.toNat)
  | 1 => let a := byteAt bs (hi + i); get [a] a.1.toNat
  | 2 => let a := byteAt bs (hi + i / 2); let b := byteAt bs (lo + i / 4)
         get [a, b] (a.1.toNat / 16 ^ (i % 2) % 16 * 4 + b.1.toNat / 4 ^ (i % 4) % 4)
  | _ => let a := byteAt bs (hi + i / 2); get [a] (a.1.toNat / 16 ^ (i % 2) % 16)

/-- The elements of a run. -/
def elements (cls : Nat) (bs : List FByte) (hi lo n : Nat) : List (Option Nat) := (List.range n).map (element cls bs hi lo)

/-- Scale bytes; one from a poisoned byte reads 0xFF (R274, R288). -/
def scaleBytes (bs : List FByte) (off n : Nat) : List Nat :=
  (List.range n).map fun k => let b := byteAt bs (off + k); if b.2 then 255 else b.1.toNat

/-- An element with its scale (R87, R262). -/
def scaledNum (x : Num) (scale : Nat) : Num := if scale = 255 then .nan false else x.scale ((scale : Int) - 127)

/-- log2 of the magnitude of a finite number that is not zero, rounded down. -/
def Num.top : Num → Int
  | .fin _ m e => Nat.log2 m + e
  | _ => 0

/-- A number in units of 2^q, truncated toward zero, and whether a bit that is not zero was discarded. -/
def Num.units (q : Int) : Num → Int × Bool
  | .fin s m e =>
    let n := if q ≤ e then m * 2 ^ (e - q).toNat else m / 2 ^ (q - e).toNat
    (if s then -(n : Int) else n, decide (e < q) && m % 2 ^ (q - e).toNat != 0)
  | _ => (0, false)

/-- The sum of one slice (R106): f32 bits and flags. A product of none is 0 × ∞. -/
def sliceSum (ps : List (Option Num)) : Nat × Flags :=
  let xs := ps.filterMap id
  let infs := xs.filter Num.isInf
  let zero := ps.any Option.isNone
  let both := infs.any Num.neg && infs.any fun x => !x.neg
  if zero || both then (F32.nan, fNV)
  else if xs.any Num.isNan then (F32.nan, 0)
  else
    match infs with
    | x :: _ => (F32.infinity x.neg, 0)
    | [] =>
      let ys := xs.filter fun x => !x.isZero
      match ys with
      | [] => (0, 0)
      | y :: rest =>
        let q := rest.foldl (fun (m : Int) x => max m x.top) y.top - 47
        let t := ys.foldl (fun (a : Int × Bool) x => let u := x.units q; (a.1 + u.1, a.2 || u.2)) (0, false)
        let nx : Flags := if t.2 then fNX else 0
        if t.1 = 0 then (0, nx)
        else
          let r := F32.round .rne (decide (t.1 < 0)) t.1.natAbs q false
          (r.bits, r.fl ||| nx)

/-- The sum of slices into an accumulator element (R106, R259): f32 bits and flags. -/
def accumulate (acc : Nat) (slices : List (List (Option Num))) : Nat × Flags :=
  slices.foldl (fun (a : Nat × Flags) ps =>
    let t := sliceSum ps
    let r := F32.add .rne a.1 t.1
    (r.bits, a.2 ||| t.2 ||| r.fl)) (acc, 0)

/-- An element of the B tile as a step uses it: logical K, cell, scale entry (R257, R261, R262). -/
structure BElem where
  k : Nat
  cell : Nat
  scale : Nat

/-- The cell of stored row `k` and column `n` of the tile (R257). -/
def cellOf (k n : Nat) : Nat := 4096 * (4 * (k / 64) + n / 64) + 64 * (k % 64) + n % 64

/-- The macro of a cell. -/
def macroOf (cell : Nat) : Nat := cell / 4096

/-- Metadata word `w` of column `n` (R261). -/
def MUnit.mdWord (u : MUnit) (n w : Nat) : Nat := look u.md 0x44444444 (16 * n + w)

/-- The B elements of slice `sl` of column `n` in a dense step, or in a 2:4 step (R259, R261). -/
def MUnit.column (u : MUnit) (sparse : Bool) (n sl : Nat) : List BElem :=
  let at_ (row k loc : Nat) : BElem :=
    let c := cellOf row n
    ⟨k, c, 256 * macroOf c + 4 * (n % 64) + loc / 32⟩
  if sparse then
    (List.range 32).map fun j =>
      let w := 2 * sl + j / 16
      let g := j % 16 / 2
      let k := 32 * w + 4 * g + u.mdWord n w / 2 ^ (4 * g + 2 * (j % 2)) % 4
      at_ (16 * w + j % 16) k (k % 128)
  else (List.range 64).map fun i => at_ (64 * sl + i) (64 * sl + i) i

/-- A cell reads zero in place of its element (R267). -/
def MUnit.reject (u : MUnit) (cell : Nat) : Bool := u.failed.contains cell || u.broken.contains cell

/-- The number a B element stands for, with its scale; a failed cell reads zero (R267). The cells under the record "none" hold
zero in every class (R277), so the format of A, `fmt`, says how they and their scales are read. -/
def MUnit.bNum (u : MUnit) (fmt : Nat) (b : BElem) : Num :=
  let f := (u.brec.map Prod.fst).getD fmt
  let x := if u.reject b.cell then Num.fin false 0 0 else (fpCode f).num (look u.cells 0 b.cell)
  if f = 3 then x else scaledNum x (look u.bscale 127 b.scale)

/-- A row of A: its elements (none where substituted) and its scales by block of 32 (R262, R267). -/
structure ARow where
  xs : List (Option Nat)
  scales : List Nat

/-- The number an A element stands for. -/
def ARow.num (a : ARow) (fmt k : Nat) : Num :=
  let x := match a.xs.getD k (some 0) with | some v => (fpCode fmt).num v | none => .fin false 0 0
  if fmt = 3 then x else scaledNum x (a.scales.getD (k / 32) 127)

/-- A substituted element, as the log names it (Table 10-3): `cause` is 0 for an array error, 1 for a poisoned input. -/
structure Subst where
  row : Nat
  col : Nat
  mac : Nat
  cause : Nat

/-- Record a substitution in the log (R267 to R269, Table 10-3). -/
def MUnit.record (u : MUnit) (ft z src : Nat) (x : Subst) : MUnit :=
  let st := u.status ||| 0x20
  if u.log.length < 8 then
    { u with
      status := st
      log := u.log ++ [BitVec.ofNat 128
        (ft % 2 ^ 64 + 2 ^ 64 * z + 2 ^ 66 * src + 2 ^ 67 * x.cause + 2 ^ 68 * x.row + 2 ^ 78 * x.col + 2 ^ 88 * x.mac)] }
  else { u with status := st ||| 0x40 }

/-- Record several. -/
def MUnit.records (u : MUnit) (ft z src : Nat) (xs : List Subst) : MUnit := xs.foldl (fun (v : MUnit) x => v.record ft z src x) u

/-- What the codes of the arrays find as a step reads its elements (R267): cells with an error that cannot be corrected,
row-buffer elements whose parity fails, and how many errors were corrected. -/
structure ArrayErrors where
  cells : List Nat
  rows : List (Nat × Nat)
  fixed : Nat

/-- What is found in a turn is the implementation's (log entry 97). -/
def arrayErrors (steps : Nat) : ArrayErrors := ⟨Config.cellErrors steps, Config.rowErrors steps, Config.cellsCorrected steps⟩

/-- The cells that a step reads, as `reads` says, take the errors found in them, and CORR counts those corrected (R267, R268). -/
def MUnit.suffer (u : MUnit) (e : ArrayErrors) (reads : Nat → Bool) : MUnit :=
  let corr := min 0xFFFF (u.status.toNat / 65536 + e.fixed)
  { u with broken := (e.cells.filter reads).foldl natInsert u.broken, status := BitVec.ofNat 32 (u.status.toNat % 65536 + 65536 * corr) }

/-- The substitution of a B element in a step, if it is substituted. -/
def MUnit.substB (u : MUnit) (b : BElem) (row col mac : Nat) : Option Subst :=
  if u.failed.contains b.cell then some ⟨row, col, mac, 1⟩
  else if u.broken.contains b.cell then some ⟨row, col, mac, 0⟩ else none

/-- The substitution of element `k` of row `r` of A, in tile row `row` and macro `mac`, if it is substituted. -/
def ARow.subst (a : ARow) (e : ArrayErrors) (r k row mac : Nat) : Option Subst :=
  if (a.xs.getD k (some 0)).isNone then some ⟨row, k, mac, 1⟩
  else if e.rows.contains (r, k) then some ⟨row, k, mac, 0⟩ else none

/-- A row of A as the row buffer gives it: elements with a parity error are substituted. -/
def ARow.read (a : ARow) (e : ArrayErrors) (r : Nat) : ARow :=
  { a with xs := (List.range a.xs.length).zip a.xs |>.map fun (k, x) => if e.rows.contains (r, k) then none else x }

/-- The row buffer and its scales filled with elements `k0` to `k0 + n - 1` of rows of A (R257, R262). -/
def MUnit.fill (u : MUnit) (k0 n : Nat) (rows : List ARow) : MUnit :=
  { u with
    rows := rows.map fun a => ((a.xs.drop k0).take n).map fun x => x.getD 0
    ascale := (List.range rows.length).zip rows |>.flatMap fun (r, a) =>
      (List.range a.scales.length).zip a.scales |>.filterMap fun (b, v) => if v = 127 then none else some (32 * r + b, v) }

/-- Replace `n` rows of tile `z` from `row0`, columns from `c0` to below `c1`; `f` gives a row and column's new bits. -/
def MUnit.putTile (u : MUnit) (z row0 n c0 c1 : Nat) (f : Nat → Nat → Nat) : MUnit :=
  let base := 16384 * z + 256 * row0
  let old (k : Nat) : Nat := look u.tiles 0 k
  let new := (List.range (256 * n)).map fun k =>
    let c := k % 256
    (base + k, if c0 ≤ c ∧ c < c1 then f (k / 256) c else old (base + k))
  { u with tiles := (u.tiles.filter fun x => decide (x.1 < base)) ++ (new.filter fun x => x.2 != 0) ++
      u.tiles.filter fun x => decide (base + 256 * n ≤ x.1) }

/-- The products of a row with B elements. -/
def products (a : ARow) (fmt : Nat) (bs : List (Nat × Num)) : List (Option Num) :=
  bs.map fun b => mulNum (a.num fmt b.1) b.2

/-- One element's new value in a step: old bits, slices of B elements with their numbers. -/
def stepCell (fmt old : Nat) (a : ARow) (slices : List (List (Nat × Num))) : Nat × Flags :=
  accumulate old (slices.map (products a fmt))

/-- A step of R259 at FT `ft`, with the array errors it meets. -/
def MUnit.step (u : MUnit) (e : ArrayErrors) (ft z row0 fmt : Nat) (sparse : Bool) (as : List ARow) : MUnit :=
  let nsl := if sparse then 8 else 4
  let u0 := (u.fill 0 512 as).suffer e fun c => decide (c < 65536)
  let rows := (List.range as.length).zip as |>.map fun (r, a) => a.read e r
  let cols := (List.range 256).map fun n => (List.range nsl).map (u0.column sparse n)
  let failedB := (List.range 256).zip cols |>.flatMap fun (n, sls) => sls.flatten.filterMap fun b => u0.substB b b.k n (macroOf b.cell)
  let u1 := u0.records ft z 1 (sortBy (fun (x : Subst) => [x.row, x.col]) failedB)
  let u2 := u1.records ft z 0 ((List.range as.length).zip as |>.flatMap fun (r, a) =>
    (List.range a.xs.length).filterMap fun k => a.subst e r k (row0 + r) (4 * (k / if sparse then 128 else 64)))
  let nums := cols.map fun sls => sls.map fun sl => sl.map fun b => (b.k, u0.bNum fmt b)
  let cell (r c : Nat) : Nat × Flags :=
    stepCell fmt (look u.tiles 0 (16384 * z + 256 * (row0 + r) + c)) (rows.getD r ⟨[], []⟩) (nums.getD c [])
  let fl := (List.range (256 * rows.length)).foldl (fun (f : Flags) k => f ||| (cell (k / 256) (k % 256)).2) 0
  { u2.putTile z row0 rows.length 0 256 fun r c => (cell r c).1 with status := u2.status ||| fl.setWidth 32 }

/-- Quarter pass `q` of a batched step (R260): products 4q to 4q + 3 into tile q, with the array errors it meets. -/
def MUnit.pass (u : MUnit) (e : ArrayErrors) (ft q row0 fmt : Nat) (as : List ARow) : MUnit :=
  let elem (i j k : Nat) : BElem := ⟨64 * i + k, 4096 * i + 64 * k + j, 256 * i + 4 * j + k / 32⟩
  let ms := (List.range 4).map (4 * q + ·)
  let u0 := (u.fill (256 * q) 256 as).suffer e fun c => c / 16384 == q
  let rows := (List.range as.length).zip as |>.map fun (r, a) => a.read e r
  let failedB := ms.flatMap fun i => (List.range 64).flatMap fun k => (List.range 64).filterMap fun j => u0.substB (elem i j k) k j i
  let u1 := u0.records ft q 1 failedB
  let u2 := u1.records ft q 0 ((List.range as.length).zip as |>.flatMap fun (r, a) =>
    (List.range 256).filterMap fun x => let k := 256 * q + x; a.subst e r k (row0 + r) (k / 64))
  let cell (r c : Nat) : Nat × Flags :=
    stepCell fmt (look u.tiles 0 (16384 * q + 256 * (row0 + r) + c)) (rows.getD r ⟨[], []⟩)
      [(List.range 64).map fun k => let b := elem (4 * q + c / 64) (c % 64) k; (b.k, u0.bNum fmt b)]
  let fl := (List.range (256 * rows.length)).foldl (fun (f : Flags) k => f ||| (cell (k / 256) (k % 256)).2) 0
  { u2.putTile q row0 rows.length 0 256 fun r c => (cell r c).1 with status := u2.status ||| fl.setWidth 32 }

/-- Load B (R283): rows of 256 elements, the metadata words with their poison when compressed. -/
def MUnit.loadB (u : MUnit) (fmt : Nat) (sp : Bool) (rows : List (List (Option Nat))) (metas : List (Nat × Bool)) : MUnit :=
  let elem (c : Nat) : Option Nat :=
    let m := macroOf c
    let k := 64 * (m / 4) + c % 4096 / 64
    let n := 64 * (m % 4) + c % 64
    if sp && (metas.getD (16 * n + k / 16) (0, false)).2 then none else (rows.getD k []).getD n (some 0)
  let all := List.range 65536
  { u with
    cells := all.filterMap fun c => match elem c with | some v => if v = 0 then none else some (c, v) | none => none
    failed := all.filter fun c => (elem c).isNone
    broken := []
    md := if sp then (List.range 4096).filterMap fun i =>
        let w := (metas.getD i (0x44444444, false)).1
        if w = 0x44444444 then none else some (i, w)
      else u.md
    bscale := [], brec := some (fmt, sp) }

/-- Load B scales from an image of 4,096 bytes (R284). -/
def MUnit.loadScales (u : MUnit) (bs : List FByte) : MUnit :=
  { u with bscale := (List.range 4096).zip (scaleBytes bs 0 4096) |>.filter fun x => x.2 != 127 }

/-- Read `n` bytes at a virtual address whose pages are translated, in runs within 16-byte words, the transfers apart.
The fuel is the number of runs. -/
def State.readVa (s : State) (pages : List (Nat × Loc)) (va n : Nat) : Nat → List FByte × State
  | 0 => ([], s)
  | k + 1 =>
    if n = 0 then ([], s)
    else
      let m := min n (16 - va % 16)
      let (x, p, s1) := s.readLocPart (locOf pages va) m
      let (rest, s2) := s1.readVa pages (va + m) (n - m) k
      ((toBytes m x).map (fun b => (b, p)) ++ rest, s2)

/-- Read several runs, each one access. -/
def State.readVas (s : State) (pages : List (Nat × Loc)) (n : Nat) : List Nat → List (List FByte) × State
  | [] => ([], s)
  | va :: rest =>
    let (x, s1) := (s.beats (s.wordRuns pages va n)).readVa pages va n (n / 16 + 2)
    let (xs, s2) := s1.readVas pages n rest
    (x :: xs, s2)

/-- The pages that runs of bytes touch, each with the first address in it. -/
def pagesTouched (runs : List (Nat × Nat)) : List (Nat × Nat) :=
  runs.foldl (fun (a : List (Nat × Nat)) r =>
    let first := r.1 / 0x20000
    let count := if r.2 = 0 then 0 else (r.1 + r.2 - 1) / 0x20000 - first + 1
    (List.range count).foldl (fun (b : List (Nat × Nat)) k =>
      if b.any fun x => x.1 == first + k then b else b ++ [(first + k, max r.1 ((first + k) * 0x20000))]) a) []

/-- Translate pages; every access fault comes before a missing page (R275 checks 8 and 9). -/
def State.translateTouched (s : State) (l ctx : Nat) (a : Access) : List (Nat × Nat) → Except (Nat × TFault) (List (Nat × Loc) × State)
  | [] => .ok ([], s)
  | (p, va) :: rest =>
    match s.translate l ctx (p * 0x20000) a with
    | .error (.missing lv) =>
      match s.translateTouched l ctx a rest with
      | .error (_, .missing _) => .error (va, .missing lv)
      | .error e => .error e
      | .ok _ => .error (va, .missing lv)
    | .error e => .error (va, e)
    | .ok (x, s1) =>
      match s1.translateTouched l ctx a rest with
      | .error e => .error e
      | .ok (xs, s2) => .ok ((p * 0x20000, x) :: xs, s2)

/-- The core a saved claim is restored to: its own when that is unclaimed, else the lowest unclaimed (R271). -/
def State.restoreCore (s : State) (c : SavedClaim) : Option Nat :=
  let free (k : Nat) : Bool := (s.unit c.l k).holder.isNone
  if free c.core then some c.core else (List.range 32).find? free

/-- The team for whose parked claim an unclaimed unit is set aside (R280): the first claim of a resumed context that R271 restores
to it. -/
def State.setAside (s : State) (l core : Nat) : Option (Nat × Nat × Nat) :=
  (s.saved.find? fun c => c.l == l && (s.ctx c.ctx).state == 2 && s.restoreCore c == some core).bind fun c => c.unit.holder

/-- The matrix-not-claimed trap (R264, R275 check 1, Table 11-3). -/
def claimTrap (u : MUnit) (key : Nat × Nat × Nat) : Option Trap :=
  match u.holder with
  | none => some (mkTrap 26 (1 + 2 ^ 32 * 0xFFFF))
  | some h =>
    if h ≠ key then some (mkTrap 26 (2 + 2 ^ 32 * h.2.2))
    else if u.queue.any fun c => c.op.isRelease then some (mkTrap 26 (3 + 2 ^ 32 * h.2.2))
    else none

/-- The rank's matrix-state-lost trap is due (R270). -/
def State.lostClaim (s : State) (g : Group) : Bool :=
  match s.team? g.ctx g.tag g.team with
  | some t => t.lost.contains g.rank
  | none => false

/-- The rank takes its matrix-state-lost trap. -/
def State.takeLost (s : State) (g : Group) : R :=
  match s.team? g.ctx g.tag g.team with
  | some t => .trap (s.setTeam { t with lost := t.lost.filter (· != g.rank) }) (mkTrap 30 0)
  | none => .trap s (mkTrap 30 0)

/-- Checks 1 and 2 of R275; `regs` are the address, pitch and count registers. -/
def matrixChecks (s : State) (e : Env) (regs : List Nat) : Option R :=
  if s.plainBusy e.g.uid then some (.wait s)
  else if s.lostClaim e.g then some (s.takeLost e.g)
  else
    let u := s.unit e.g.l e.g.core
    match claimTrap { u with holder := u.holder.or (s.setAside u.l u.core) } e.g.teamKey with
    | some t => some (.trap s t)
    | none => (e.g.poisonUse e.low regs).map fun t => .trap s t

/-- Check 3: the first address of a list that is out of range. -/
def rangeAt (e : Env) (vas : List Nat) : Option Trap :=
  (vas.find? fun v => decide (2 ^ 56 ≤ v)).map fun v => laneTrap 6 4 e.act v

/-- The B record as it will stand after every queued command (R275). -/
def MUnit.recordAfter (u : MUnit) : Option (Nat × Bool) :=
  u.queue.foldl (fun r c => match c.op with
    | .loadB f sp _ _ _ => some (f, sp)
    | .loop _ d _ => if d.reload then some (d.bFmt, d.sparse) else r
    | _ => r) u.brec

/-- Check 6 (R277): the REASON. `next` is the format of a reload; `batch` says MBATCH, `special` MSPARSE, for which every AFMT
but 4 and 5 gives REASON 3 (R286). -/
def formatReason (af : Nat) (amx sp batch special : Bool) (rec_ : Option (Nat × Bool)) (next : Option Nat) : Option Nat :=
  let bad (f : Nat) : Bool := decide (f < 3) || decide (8 < f)
  let fp8 (f : Nat) : Bool := f == 4 || f == 5
  let b := match next with | some f => some f | none => rec_.map Prod.fst
  let comp := match next, rec_ with | some _, _ => sp | none, some r => r.2 | none, none => false
  if special && !fp8 af then some 3
  else if bad af || next.any bad then some 1
  else if amx && af == 3 then some 2
  else if sp && next.any fun f => !fp8 f then some 3
  else if b.any fun f => fmtClass f != fmtClass af then some 4
  else if comp != sp || (batch && sp) then some 5
  else none

/-- Put a command in the queue, or wait while it is full (R266); `pas` are the addresses of the lines it touches (02 R45). -/
def enqueue (s : State) (i : Instr) (e : Env) (op : MOp) (pages : List (Nat × Loc)) (pas : List Nat) (g : Group) : R :=
  let u := s.unit e.g.l e.g.core
  if 16 ≤ u.queue.length then .wait s
  else
    memDone (s.setUnit { u with queue := u.queue ++ [⟨op, e.g.ctx, u.accepted, pages⟩], accepted := u.accepted + 1 }) i g pas

/-- The physical addresses of the lines that runs of bytes touch. -/
def runLines (pages : List (Nat × Loc)) (runs : List (Nat × Nat)) : List Nat :=
  runs.flatMap fun r =>
    if r.2 = 0 then []
    else (List.range ((r.1 + r.2 - 1) / 64 + 1 - r.1 / 64)).map fun k => (locOf pages (64 * (r.1 / 64 + k))).pa

/-- A store is queued: the reads of checks 5 and 10 wait for it (R275). -/
def MUnit.storing (u : MUnit) : Bool := u.queue.any fun c => match c.op with | .store .. => true | _ => false

/-- Checks 8 to 10 and entry into the queue: `own` are addresses of lines that issue has touched, `runs` the bytes the command
touches; `metas` are the metadata bases by step, whose words are read and checked (R261, R275), and `op` takes them. -/
def matrixGo (s : State) (i : Instr) (e : Env) (a : Access) (own : List Nat) (runs : List (Nat × Nat)) (metas : List Nat)
    (op : List (List (Nat × Bool)) → MOp) : R :=
  match s.translateTouched e.g.l e.g.ctx a (pagesTouched (runs ++ metas.map fun m => (m, 16384))) with
  | .error (va, f) => refusedAt s e e.act 4 va f
  | .ok (pages, s1) =>
    if !metas.isEmpty && (s.unit e.g.l e.g.core).storing then .wait s
    else
      let (bs, s2) := s1.readVas pages 16384 metas
      let words := bs.map fun b => (List.range 4096).map fun k =>
        let w := (b.drop (4 * k)).take 4
        (leBytes (w.map Prod.fst), w.any Prod.snd)
      let badAt (w : Nat) : Option Nat := (List.range 8).find? fun g => decide (w / 2 ^ (4 * g + 2) % 4 ≤ w / 2 ^ (4 * g) % 4)
      let fails := (List.range words.length).zip words |>.filterMap fun (st, ws) =>
        ((List.range 4096).zip ws).findSome? fun (k, w) => (badAt w.1).map fun g => (st, k, g)
      match fails.head? with
      | some (st, k, g) =>
        .trap s1 ⟨29, BitVec.ofNat 64 (256 * st + 65536 * k + 2 ^ 28 * g), BitVec.ofNat 64 ((metas.getD st 0 + 4 * k) % 2 ^ 64)⟩
      | none => enqueue s2 i e (op words) pages (own ++ runLines pages (runs ++ metas.map fun m => (m, 16384))) e.g

/-- MCLAIM (R264, R280). -/
def execMclaim (o : T64) (s : State) := issue (.mclaim o) s fun s e =>
  let u := s.unit e.g.l e.g.core
  let fin (t : State) (ok : Bool) : R :=
    let g := { e.g with frame := e.g.frame.writePred e.act o.d.toNat (if ok then e.act else 0) }
    done t (.mclaim o) (if ok then { g with pinned := true, affL := g.l, affC := g.core } else g)
  if s.plainBusy e.g.uid then .wait s
  else if s.lostClaim e.g then s.takeLost e.g
  else
    match u.holder.or (s.setAside u.l u.core) with
    | none =>
      fin (s.setUnit { MUnit.clear u.l u.core with holder := some e.g.teamKey, accepted := u.accepted, done := u.done }) true
    | some h => fin s (h == e.g.teamKey && !u.queue.any fun c => c.op.isRelease)

/-- MRELEASE (R281): it enters the queue; its group waits until the claim has ended (CLAIM_END). One whose command is saved in
the queue at a narrowing parks as one that waits for a matrix reply does (R294, R295; log entry 98). -/
def execMrelease (o : T64) (s : State) := issue (.mrelease o) s fun s e =>
  match matrixChecks s e [] with
  | some r => r
  | none => enqueue s (.mrelease o) e (.release e.g.uid) [] [] { e.g with wait := .matrixReply }

/-- MLOADB (R283). -/
def execMloadb (o : T64) (s : State) := issue (.mloadb o) s fun s e =>
  let a := o.a.toNat
  let sp := o.ctl.getLsbD 8
  let fmt := (o.ctl.extractLsb' 4 4).toNat
  match matrixChecks s e ([a, a + 1, o.b.toNat] ++ if sp then [o.c.toNat, o.c.toNat + 1] else []) with
  | some r => r
  | none =>
    let base := e.lowPair a
    let mbase := e.lowPair o.c.toNat
    let pitch := e.lowWord o.b.toNat
    let rows := (List.range 256).map fun k => (base + k * pitch) % 2 ^ 64
    match rangeAt e (base :: if sp then [mbase] else []) with
    | some t => .trap s t
    | none =>
      if fmt < 3 ∨ 8 < fmt then .trap s (mkTrap 27 1)
      else if sp ∧ fmt ≠ 4 ∧ fmt ≠ 5 then .trap s (mkTrap 27 3)
      else if pitch < rowBytes fmt then .trap s (mkTrap 28 3)
      else
        match rangeAt e rows with
        | some t => .trap s t
        | none =>
          matrixGo s (.mloadb o) e accEngR [] (rows.map fun r => (r, rowBytes fmt)) (if sp then [mbase] else [])
            fun ms => .loadB fmt sp base pitch (ms.headD [])

/-- MLOADS (R284). -/
def execMloads (o : T64) (s : State) := issue (.mloads o) s fun s e =>
  let a := o.a.toNat
  match matrixChecks s e [a, a + 1] with
  | some r => r
  | none =>
    let base := e.lowPair a
    match rangeAt e [base] with
    | some t => .trap s t
    | none => matrixGo s (.mloads o) e accEngR [] [(base, 4096)] [] fun _ => .loadS base

/-- MZERO (R285). -/
def execMzero (o : T64) (s : State) := issue (.mzero o) s fun s e =>
  match matrixChecks s e [] with
  | some r => r
  | none => enqueue s (.mzero o) e (.zero o.d.toNat) [] [] e.g

/-- The 128 bytes a register holds, in the order of R286, with the poison of their lanes. -/
def Frame.regBytes (f : Frame) (r : Nat) : List FByte :=
  (List.range 32).flatMap fun l => (toBytes 4 (f.lane r l).toNat).map fun b => (b, f.bad r l)

/-- The A rows of MMA and MSPARSE (R286, Table 11-5). -/
def regRows (f : Frame) (a fmt : Nat) (sparse : Bool) : List (List (Option Nat)) :=
  let x := (List.range 8).flatMap fun k => f.regBytes (a + k)
  let cls := fmtClass fmt
  if sparse then (List.range 2).map fun r => elements 1 x (512 * r) 0 512
  else
    match cls with
    | 0 => (List.range 2).map fun r => elements 0 x (512 * r) 0 256
    | 1 => (List.range 4).map fun r => elements 1 x (256 * r) 0 256
    | 2 => (List.range 4).map fun r => elements 2 x (128 * r) (512 + 64 * r) 256
    | _ => (List.range 8).map fun r => elements 3 x (128 * r) 0 256

/-- MMA and MSPARSE (R286): A is read at issue; an absent register reads zero and sets DEADRD (R274). -/
def registerStep (i : Instr) (o : T64) (sparse : Bool) (s : State) (e : Env) : R :=
  let f := e.g.frame
  let a := o.a.toNat
  let fmt := (o.ctl.extractLsb' 4 4).toNat
  let amx := o.ctl.getLsbD 8
  let used := if !sparse && fmtClass fmt == 2 then 6 else 8
  let absent := ((List.range used).map (a + ·)).filter fun n => (f.reg? n).isNone
  match s.deadRead e.g (absent.map fun n => (0, n)) with
  | .error t => .trap s t
  | .ok g =>
    match matrixChecks s e [] with
    | some r => r
    | none =>
      match formatReason fmt amx sparse false sparse (s.unit e.g.l e.g.core).recordAfter none with
      | some r => .trap s (mkTrap 27 r)
      | none =>
        let rows := regRows f a fmt sparse
        if 64 < o.b.toNat + rows.length then .trap s (mkTrap 28 1)
        else
          let nb := if sparse then 16 else 8
          let sc := f.regBytes o.c.toNat
          let xs := (List.range rows.length).map fun r => if amx then scaleBytes sc (nb * r) nb else List.replicate nb 127
          enqueue s i e (.step o.d.toNat o.b.toNat fmt sparse rows xs) [] [] g

/-- MMA (R286). -/
def execMma (o : T64) (s : State) := issue (.mma o) s (registerStep (.mma o) o false)

/-- MSPARSE (R286). -/
def execMsparse (o : T64) (s : State) := issue (.msparse o) s (registerStep (.msparse o) o true)

/-- A descriptor from its 64 bytes (Table 11-6). -/
def LoopDesc.ofBytes (bs : List Byte) : LoopDesc :=
  let n := num bs
  let i (k : Nat) : Int := (BitVec.ofNat 32 (n k 4)).toInt
  let c := n 60 4
  { aBase := n 0 8, aPitch := n 8 4, aStep := i 12, xaBase := n 16 8, xaPitch := n 24 4, xaStep := i 28
    bBase := n 32 8, bPitch := n 40 4, bStep := i 44, xbBase := n 48 8, xbStep := i 56
    aFmt := bits c 3 0, bFmt := bits c 7 4, amx := c.testBit 8, reload := c.testBit 9, sparse := c.testBit 10
    rsv := c.testBit 11, tile := bits c 13 12, row0 := bits c 19 14, n := bits c 25 20 + 1, steps := bits c 31 26 + 1 }

/-- Bytes of an A row (Table 11-4). -/
def LoopDesc.aRowBytes (d : LoopDesc) (batch : Bool) : Nat :=
  if batch then 4 * rowBytes d.aFmt else if d.sparse then 512 else rowBytes d.aFmt
/-- Scale blocks of an A row (Table 11-4). -/
def LoopDesc.blocks (d : LoopDesc) (batch : Bool) : Nat := if batch then 32 else if d.sparse then 16 else 8

/-- An address modulo 2^64 (R287). -/
def addr64 (base : Nat) (off : Int) : Nat := ((base + off) % 2 ^ 64).toNat
/-- A rows of step `k`. -/
def LoopDesc.aRows (d : LoopDesc) (k : Nat) : List Nat := (List.range d.n).map fun (r : Nat) => addr64 d.aBase (k * d.aStep + r * d.aPitch)
/-- A scales of step `k`. -/
def LoopDesc.xaRows (d : LoopDesc) (k : Nat) : List Nat :=
  if d.amx then (List.range d.n).map fun (r : Nat) => addr64 d.xaBase (k * d.xaStep + r * d.xaPitch) else []
/-- B rows of step `k`. -/
def LoopDesc.bRows (d : LoopDesc) (k : Nat) : List Nat :=
  if d.reload then (List.range 256).map fun (r : Nat) => addr64 d.bBase (k * d.bStep + r * d.bPitch) else []
/-- B scale image of step `k`. -/
def LoopDesc.xbRows (d : LoopDesc) (k : Nat) : List Nat :=
  if d.reload && d.xbBase != 0 then [addr64 d.xbBase (k * d.xbStep)] else []
/-- Metadata of step `k`. -/
def LoopDesc.metaRows (d : LoopDesc) (k : Nat) : List Nat :=
  if d.reload && d.sparse then [addr64 d.bBase (k * d.bStep + 256 * d.bPitch)] else []

/-- Check 7 of a descriptor command (R276, R287): the REASON. -/
def LoopDesc.rangeReason (d : LoopDesc) (batch : Bool) : Option Nat :=
  if 64 < d.row0 + d.n then some 1
  else if d.aPitch < d.aRowBytes batch || (d.amx && decide (d.xaPitch < d.blocks batch)) ||
      (d.reload && decide (d.bPitch < rowBytes d.bFmt)) then some 3
  else if d.rsv || (!d.reload && d.bFmt != 0) || (batch && d.tile != 0) then some 4
  else none

/-- MLOOP and MBATCH (R287, R288). -/
def loopOp (i : Instr) (o : T64) (batch : Bool) (s : State) (e : Env) : R :=
  let a := o.a.toNat
  match matrixChecks s e [a, a + 1] with
  | some r => r
  | none =>
    let va := e.lowPair a
    match rangeAt e [va] with
    | some t => .trap s t
    | none =>
      if va % 64 ≠ 0 then .trap s (laneTrap 7 4 e.act va)
      else
        match s.translate e.g.l e.g.ctx va accEngR with
        | .error f => refusedAt s e e.act 4 va f
        | .ok (x, s1) =>
          let u := s.unit e.g.l e.g.core
          if u.storing then .wait s
          else
            let (v, _, s2) := s1.readLoc x 64
            let d := LoopDesc.ofBytes (toBytes 64 v)
            match formatReason d.aFmt d.amx d.sparse batch false u.recordAfter (if d.reload then some d.bFmt else none) with
            | some r => .trap s2 (mkTrap 27 r)
            | none =>
              match d.rangeReason batch with
              | some r => .trap s2 (mkTrap 28 r)
              | none =>
                let steps := List.range d.steps
                let metas := steps.flatMap d.metaRows
                let runs := steps.flatMap fun k =>
                  (d.aRows k).map (fun r => (r, d.aRowBytes batch)) ++ (d.xaRows k).map (fun r => (r, d.blocks batch)) ++
                    (d.bRows k).map (fun r => (r, rowBytes d.bFmt)) ++ (d.xbRows k).map fun r => (r, 4096)
                match rangeAt e (runs.map Prod.fst ++ metas) with
                | some t => .trap s2 t
                | none => matrixGo s2 i e accEngR [x.pa] runs metas fun ms => .loop batch d ms

/-- MLOOP (R287, R288). -/
def execMloop (o : T64) (s : State) := issue (.mloop o) s (loopOp (.mloop o) o false)

/-- MBATCH (R287, R288). -/
def execMbatch (o : T64) (s : State) := issue (.mbatch o) s (loopOp (.mbatch o) o true)

/-- MWAIT (R291). -/
def execMwait (o : T64) (s : State) := issue (.mwait o) s fun s e =>
  let u := s.unit e.g.l e.g.core
  match e.g.mark with
  | some n => if n ≤ u.done then done s (.mwait o) e.g else .wait s
  | none =>
    match matrixChecks s e [] with
    | some r => r
    | none =>
      if u.accepted ≤ u.done then done s (.mwait o) e.g
      else .wait (s.modGroup e.g.uid fun h => { h with mark := some u.accepted })

/-- Destinations made present in form G with the values they hold (R295). -/
def Frame.hold (f : Frame) (d n : Nat) : Frame :=
  (List.range n).foldl (fun (h : Frame) k =>
    h.setReg (d + k) (some ⟨.g ((List.range 32).map (f.lane (d + k))), maskOf fun l => f.bad (d + k) l⟩)) f

/-- MREAD and MSTAT enter the queue; the group waits for the registers (R278, R295). -/
def queueRead (s : State) (i : Instr) (e : Env) (d n : Nat) (op : MOp) : R :=
  match matrixChecks s e [] with
  | some r => r
  | none => enqueue s i e op [] [] { e.g with frame := e.g.frame.hold d n, wait := .matrixReply }

/-- MREAD (R289). -/
def execMread (o : T64) (s : State) := issue (.mread o) s fun s e =>
  queueRead s (.mread o) e o.d.toNat 8 (.read o.a.toNat o.b.toNat o.d.toNat e.g.uid e.act)

/-- MSTAT (R292). -/
def execMstat (o : T64) (s : State) := issue (.mstat o) s fun s e =>
  queueRead s (.mstat o) e o.d.toNat 2 (.stat (o.ctl.getLsbD 0) o.d.toNat e.g.uid e.act)

/-- Bytes of an element of an MSTORE format. -/
def storeBytes (fmt : Nat) : Nat := if fmt = 1 then 4 else if fmt ≤ 3 then 2 else 1

/-- MSTORE (R290). -/
def execMstore (o : T64) (s : State) := issue (.mstore o) s fun s e =>
  let a := o.a.toNat
  let b := o.b.toNat
  let fmt := (o.ctl.extractLsb' 4 4).toNat
  let rc := (o.ctl.extractLsb' 0 3).toNat
  let rm := if rc = 0 then e.g.rm else rc - 1
  let row := o.d.toNat
  match matrixChecks s e [a, a + 1, b, b + 1] with
  | some r => r
  | none =>
    let base := e.lowPair a
    let pitch := e.lowWord b
    let n := e.lowWord (b + 1)
    let w := 256 * storeBytes fmt
    match rangeAt e [base] with
    | some t => .trap s t
    | none =>
      if fmt < 1 ∨ 5 < fmt then .trap s (mkTrap 27 1)
      else if n < 1 ∨ 64 < n then .trap s (mkTrap 28 2)
      else if 64 < row + n then .trap s (mkTrap 28 1)
      else if pitch < w then .trap s (mkTrap 28 3)
      else
        let rows := (List.range n).map fun k => (base + k * pitch) % 2 ^ 64
        match rangeAt e rows with
        | some t => .trap s t
        | none =>
          matrixGo s (.mstore o) e accEngW [] (rows.map fun r => (r, w)) []
            fun _ => .store rm (o.ctl.getLsbD 3) fmt row n o.c.toNat base pitch

/-- MPROG (R293). -/
def execMprog (o : T64) (s : State) := issue (.mprog o) s fun s e =>
  match matrixChecks s e [] with
  | some r => r
  | none =>
    let u := s.unit e.g.l e.g.core
    let n := u.queue.length
    done s (.mprog o) (e.g.writeG e.act o.d.toNat (BitVec.ofNat 32 (u.progIdx + 65536 * n + if n = 0 then 2 ^ 31 else 0)))

/-- Write registers of a context that waits for a matrix reply, wherever it is, and let it run (R295). -/
def State.matrixReply (s : State) (uid : Nat) (f : Frame → Frame) : State :=
  let fix (g : Group) : Group := if g.uid = uid then { g with frame := f g.frame, wait := .none } else g
  { s with
    groups := s.groups.map fix
    landings := s.landings.map fun (x : Landing) => { x with wharf := x.wharf.map fun w => { w with g := fix w.g } } }

/-- Write lanes of a register in form G, poison cleared. -/
def Frame.putLanes (f : Frame) (mask : Mask) (d : Nat) (v : Nat → Nat) : Frame :=
  f.write (mask) mask d ⟨.g, fun l => BitVec.ofNat 32 (v l), fun _ => false⟩

/-- Convert and write the rows of an MSTORE (R290): its lines in an order that is free (log entry 18), and the flags. -/
def State.storeRows (s : State) (u : MUnit) (pages : List (Nat × Loc)) (pl rm : Nat) (nosat : Bool) (fmt row n z base pitch : Nat) :
    State × Flags :=
  let conv (x : Nat) : FpR := if fmt = 1 then ⟨x, 0⟩ else (fpCode fmt).narrow (Rm.ofCode rm) nosat (F32.num x)
  let w := storeBytes fmt
  let out := (List.range n).map fun r => (List.range 256).map fun c => conv (look u.tiles 0 (16384 * z + 256 * (row + r) + c))
  let fl := out.foldl (fun (f : Flags) xs => xs.foldl (fun (f : Flags) x => f ||| x.fl) f) 0
  let lines := (List.range n).zip out |>.flatMap fun (r, xs) =>
    let va := (base + r * pitch) % 2 ^ 64
    let bs := xs.flatMap fun x => toBytes w x.bits
    (cutLines va (256 * w) (4 * w + 2)).map fun c => (c.1, (bs.drop (c.1 - va)).take c.2)
  let early := (List.range lines.length).zip lines |>.filter fun x => Config.coin s.steps x.1
  let late := (List.range lines.length).zip lines |>.filter fun x => !Config.coin s.steps x.1
  ((early ++ late).foldl (fun (t : State) x => t.writeLoc (locOf pages x.2.1) pl x.2.2 false) s, fl)

/-- The command at the head of the queue has completed. -/
def MUnit.complete (u : MUnit) : MUnit := { u with queue := u.queue.drop 1, done := u.done + 1, progIdx := 0 }

/-- The A rows of a descriptor command's step, read from memory. -/
def State.readA (s : State) (pages : List (Nat × Loc)) (d : LoopDesc) (batch : Bool) (k : Nat) : List ARow × State :=
  let rb := d.aRowBytes batch
  let nb := d.blocks batch
  let (as, s1) := s.readVas pages rb (d.aRows k)
  let (xs, s2) := s1.readVas pages nb (d.xaRows k)
  let n := if batch then 1024 else if d.sparse then 512 else 256
  let lo := if batch then 512 else 128
  ((List.range as.length).zip as |>.map fun (r, bs) =>
    ⟨elements (fmtClass d.aFmt) bs 0 lo n, if d.amx then scaleBytes (xs.getD r []) 0 nb else List.replicate nb 127⟩, s2)

/-- The B tile and scales of a step that reloads them (R288). -/
def State.reloadB (s : State) (u : MUnit) (pages : List (Nat × Loc)) (d : LoopDesc) (k : Nat) (metas : List (Nat × Bool)) : MUnit × State :=
  let (bs, s1) := s.readVas pages (rowBytes d.bFmt) (d.bRows k)
  let u1 := u.loadB d.bFmt d.sparse (bs.map fun b => elements (fmtClass d.bFmt) b 0 128 256) metas
  let (xs, s2) := s1.readVas pages 4096 (d.xbRows k)
  (match xs with | x :: _ => u1.loadScales x | [] => u1, s2)

/-- MATRIX_COMMAND_EXECUTION (R266): the head of the queue, or one K-step or quarter pass of it. -/
def execMatrixCommandExecution (l core : Nat) (s : State) : Host.Outcome State Fault Refusal :=
  let u := s.unit l core
  match u.queue with
  | [] => .next s
  | c :: _ =>
    let pl := (s.ctx c.ctx).pl
    let ft := s.ftAt l
    match c.op with
    | .release _ => .next s
    | .loadB fmt sp base pitch metas =>
      let (bs, s1) := s.readVas c.pages (rowBytes fmt) ((List.range 256).map fun k => (base + k * pitch) % 2 ^ 64)
      .next (s1.setUnit (u.loadB fmt sp (bs.map fun b => elements (fmtClass fmt) b 0 128 256) metas).complete)
    | .loadS base =>
      let (bs, s1) := (s.beats (s.wordRuns c.pages base 4096)).readVa c.pages base 4096 258
      .next (s1.setUnit (u.loadScales bs).complete)
    | .zero z =>
      .next (s.setUnit { u with tiles := u.tiles.filter fun x => !(decide (16384 * z ≤ x.1) && decide (x.1 < 16384 * z + 16384)) }.complete)
    | .step z row fmt sparse a xs =>
      .next (s.setUnit (u.step (arrayErrors s.steps) ft z row fmt sparse ((a.zip xs).map fun r => ⟨r.1, r.2⟩)).complete)
    | .loop batch d metas =>
      let k := if batch then u.progIdx / 4 else u.progIdx
      let q := if batch then u.progIdx % 4 else 0
      let (u1, s1) := if d.reload && q == 0 then s.reloadB u c.pages d k (metas.getD k []) else (u, s)
      let (rows, s2) := s1.readA c.pages d batch k
      let err := arrayErrors s.steps
      let u2 := if batch then u1.pass err ft q d.row0 d.aFmt rows else u1.step err ft d.tile d.row0 d.aFmt d.sparse rows
      let p := u.progIdx + 1
      .next (s2.setUnit (if p = (if batch then 4 * d.steps else d.steps) then u2.complete else { u2 with progIdx := p }))
    | .read z row d uid mask =>
      let f (h : Frame) : Frame := (List.range 8).foldl (fun (h : Frame) k =>
        h.putLanes mask (d + k) fun i => look u.tiles 0 (16384 * z + 256 * row + 32 * k + i)) h
      .next ((s.matrixReply uid f).setUnit u.complete)
    | .store rm nosat fmt row n z base pitch =>
      let (s1, fl) := s.storeRows u c.pages pl rm nosat fmt row n z base pitch
      .next (s1.setUnit { u with status := u.status ||| fl.setWidth 32 }.complete)
    | .stat clr d uid mask =>
      let f (h : Frame) : Frame := (h.putLanes mask d fun _ => (u.status ||| BitVec.ofNat 32 (256 * u.log.length)).toNat).putLanes
        mask (d + 1) fun i => ((u.log.getD (i / 4) 0).toNat / 2 ^ (32 * (i % 4)))
      .next ((s.matrixReply uid f).setUnit (if clr then { u with status := 0, log := [] } else u).complete)

/-- The team of a holder has no group left (R265). -/
def State.teamGone (s : State) (h : Nat × Nat × Nat) : Bool := (s.team? h.1 h.2.1 h.2.2).isNone

/-- A claim can end: a release is at the head of the queue, or the team has ceased and the queue is empty (R265). -/
def State.claimEnds (s : State) (u : MUnit) : Bool :=
  match u.holder with
  | none => false
  | some h => (u.queue.head?.any fun c => c.op.isRelease) || (u.queue.isEmpty && s.teamGone h)

/-- The groups that wait for commands of a queue go on without them. -/
def State.letGo (s : State) (q : List MCmd) : State :=
  (q.filterMap fun c => c.op.waiter).foldl (fun (t : State) uid => t.matrixReply uid id) s

/-- CLAIM_END (R265): the MRELEASE that ended the claim completes (R281). -/
def execClaimEnd (l core : Nat) (s : State) : Host.Outcome State Fault Refusal :=
  let u := s.unit l core
  if s.claimEnds u then
    .next ((s.letGo u.queue).setUnit { MUnit.clear l core with accepted := u.accepted, done := u.accepted })
  else .next s

/-- The little-endian bytes of a claim's regions before its queue (Table 10-4). -/
def MUnit.saveBytes (u : MUnit) : List Byte :=
  (List.range 65536).flatMap (fun k => toBytes 4 (look u.tiles 0 k)) ++
    (List.range 65536).flatMap (fun k => toBytes 2 (look u.cells 0 k)) ++
    (List.range 4096).flatMap (fun k => toBytes 4 (look u.md 0x44444444 k)) ++
    (List.range 4096).map fun k => BitVec.ofNat 8 (look u.bscale 127 k)

/-- The bytes from 0x6_5800 to the end of the log (Table 10-4). The check's form is not stated: free (log entry 20). -/
def MUnit.statusBytes (u : MUnit) (steps : Nat) : List Byte :=
  toBytes 4 (u.status.toNat + 256 * u.log.length) ++ toBytes 4 u.progIdx ++ toBytes 8 (Config.value steps 0x65808) ++
    toBytes 48 0 ++ (List.range 8).flatMap fun k => toBytes 16 (u.log.getD k 0).toNat

/-- The A scale store (R262). -/
def MUnit.scaleBytes (u : MUnit) : List Byte := (List.range 2048).map fun k => BitVec.ofNat 8 (look u.ascale 127 k)

/-- Bytes whose form the spec does not state: queued commands, row buffer (Table 10-4; log entry 20). -/
def freeBytes (steps base n : Nat) : List Byte := (List.range n).map fun k => BitVec.ofNat 8 (Config.value steps (base + k))

/-- The save area of a core's claim (R360). -/
def Ctx.saveArea (c : Ctx) (l core : Nat) : Nat := c.slice l + 0x80000 * core

/-- A claim can be narrowed (R270): its context is parking, its landing has taken the park command, and no instruction of the
context there must complete first. -/
def State.narrowable (s : State) (u : MUnit) : Bool :=
  match u.holder with
  | none => false
  | some h => (s.ctx h.1).state == 3 && (s.ctx h.1).stopping.contains u.l && !s.groups.any fun g => g.ctx == h.1 && g.l == u.l && g.busy

/-- CLAIM_NARROWING (R270). -/
def execClaimNarrowing (l core : Nat) (s : State) : Host.Outcome State Fault Refusal :=
  let u := s.unit l core
  match (if s.narrowable u then u.holder else none) with
  | none => .next s
  | some h =>
    let a := (s.ctx h.1).saveArea l core
    let q := freeBytes s.steps 0x66000 1024
    let r := freeBytes s.steps 0x68000 32768
    let s1 := s.store a u.saveBytes false
    let s2 := s1.store (a + 0x65000) u.scaleBytes false
    let s3 := s2.store (a + 0x65800) (u.statusBytes s.steps) false
    let s4 := (s3.store (a + 0x66000) q false).store (a + 0x68000) r false
    .next { s4.setUnit { MUnit.clear l core with accepted := u.accepted, done := u.accepted } with
      saved := s4.saved ++ [⟨h.1, l, core, u, q, r⟩] }

/-- Pairs of a region that differ from a default. -/
def regionRead (m : Mem) (pa w n d : Nat) : List (Nat × Nat) :=
  (List.range n).filterMap fun k => let v := m.num (pa + w * k) w; if v = d then none else some (k, v)

/-- A unit from its save area; the queue, the row buffer, the B record and the failed cells are the saved claim's (R270). -/
def SavedClaim.restore (c : SavedClaim) (m : Mem) (a : Nat) : MUnit :=
  let st := m.num (a + 0x65800) 4
  { c.unit with
    tiles := regionRead m a 4 65536 0, cells := regionRead m (a + 0x40000) 2 65536 0
    md := regionRead m (a + 0x60000) 4 4096 0x44444444, bscale := regionRead m (a + 0x64000) 1 4096 127
    ascale := regionRead m (a + 0x65000) 1 2048 127
    status := BitVec.ofNat 32 st &&& ~~~0xF00#32
    log := (List.range (min 8 (bits st 11 8))).map fun k => BitVec.ofNat 128 (m.num (a + 0x65840 + 16 * k) 16) }

/-- The image of a context of a team with its affinity core changed, where that core was `old` (Table 2-2). -/
def imageAffinity (key : Nat × Nat) (l old new : Nat) (bs : List Byte) : List Byte :=
  let t := num bs 32 8
  if key = (bits t 58 43, bits t 15 0) ∧ bits t 35 30 = l ∧ bits t 40 36 = old then
    bs.take 36 ++ toBytes 2 (num bs 36 2 - 16 * old + 16 * new) ++ bs.drop 38
  else bs

/-- Give every context of a team whose affinity was a core another one (R271), those held as images in memory too. -/
def State.moveAffinity (s : State) (key : Nat × Nat × Nat) (l old new : Nat) : State :=
  let s := (s.tokSides.filter fun k => k.ctx == key.1 && k.key % 2 == 1).foldl (fun (t : State) k =>
    let pa := k.key / 2
    let bs := t.mem.bytes pa 64
    let cs := imageAffinity key.2 l old new bs
    if cs = bs then t else t.store (pa + 36) ((cs.drop 36).take 2) false) s
  let fix (g : Group) : Group := if g.teamKey = key ∧ g.affL = l ∧ g.affC = old then { g with affC := new } else g
  let item (i : Item) : Item := match i with
    | .crossing g => .crossing (fix g)
    | .arrival a => .arrival { a with g := fix a.g }
    | i => i
  { s with
    groups := s.groups.map fix
    pairs := s.pairs.map fun p => (p.1, p.2.map item)
    landings := s.landings.map fun (x : Landing) =>
      { x with wharf := x.wharf.map fun w => { w with g := fix w.g }, arrivals := x.arrivals.map fun a => { a with g := fix a.g },
                poolWait := x.poolWait.map fun h => if h.ctx = key.1 then { h with img := imageAffinity key.2 l old new h.img } else h } }

/-- CLAIM_RESTORE (R270, R271): to a free unit, or lost when its queue or row-buffer region was changed. -/
def execClaimRestore (ctxid l core : Nat) (s : State) : Host.Outcome State Fault Refusal :=
  match s.saved.find? fun c => c.ctx == ctxid && c.l == l && c.core == core && (s.ctx ctxid).state == 2 with
  | none => .next s
  | some c =>
    let a := (s.ctx ctxid).saveArea l core
    let rest := { s with saved := s.saved.filter fun d => !(d.ctx == ctxid && d.l == l && d.core == core) }
    let gone := rest.letGo c.unit.queue
    let key := c.unit.holder.getD (ctxid, 0, 0)
    if s.mem.bytes (a + 0x66000) 1024 ≠ c.queueBytes ∨ s.mem.bytes (a + 0x68000) 32768 ≠ c.rowBytes then
      match s.team? key.1 key.2.1 key.2.2 with
      | none => .next gone
      | some t => .next (gone.setTeam { t with lost := List.range t.groups })
    else
      match s.restoreCore c with
      | none => .next s
      | some k =>
        let v := s.unit l k
        let n := c.unit.queue.length
        let u := { c.restore s.mem a with l := l, core := k, accepted := v.accepted + n, done := v.accepted }
        .next ((rest.setUnit u).moveAffinity key l core k)

end Sys2Proof.Machine
end

