-- ==== Sys2Proof/Machine/System.lean ====
section
/-! DEFINITION. The instructions of major 18 (17 R344 to R366, 19 R385, R386): system registers, return from a trap and
the previous frame, replay and invalidation of translations, and the park and wake of a context. -/

namespace Sys2Proof.Machine

/-- The contexts that are not FREE and carry an id (R345). -/
def State.liveCtx (s : State) (n : Nat) : Bool := decide (n < 0xFFFF) && (s.ctx n).state != 0

/-- CTXCTL.LIVE (Table 17-4). -/
def State.liveCount (s : State) (id : Nat) : Nat :=
  min 0xFFFF ((s.teams.filter fun t => t.ctx == id).map fun t => ((List.range t.groups).filter t.rankLive).length).sum

/-- A context register (Table 17-3). -/
def State.ctxReg (s : State) (c : Ctx) (n : Nat) : Nat :=
  match n with
  | 0x005 => c.id
  | 0x100 => c.pl + 4 * c.state + 65536 * s.liveCount c.id
  | 0x101 => c.landMask.toNat
  | 0x102 => c.utrapVec.toNat
  | 0x103 => c.trapDeleg.toNat
  | 0x104 => c.spillArea.toNat
  | 0x105 => c.spillSeg.toNat
  | 0x106 => c.parkOff.toNat
  | 0x107 => c.parkSz.toNat
  | 0x108 => c.kspillBase.toNat
  | 0x109 => c.kspillSize.toNat
  | 0x10A => c.ptRoot.toNat
  | 0x10B => c.heapBase.toNat
  | 0x10C => c.heapLim.toNat
  | 0x10D => c.heapOff.toNat
  | 0x10E => c.heapGeom.toNat
  | _ => 0

/-- A group register (Table 17-3). -/
def State.groupReg (s : State) (g : Group) (n : Nat) : Nat :=
  match n with
  | 0 => g.gmode.toNat
  | 1 => g.gstatus.toNat
  | 2 => s.spillBase g
  | 3 => s.spillLim g
  | _ => s.spillTop g

/-- The context-state trap (Table 17-6). -/
def ctxTrap (n : Nat) : Trap := mkTrap 38 (n % 65536)

/-- The value of a run of one or two registers in the lowest lane of ACTIVE. -/
def Env.operand (e : Env) (r run : Nat) : Nat := if run = 2 then e.lowPair r else e.lowWord r

/-- The target context of MFS and MTS (R351): the executing context, or V[b]. -/
def targetCtx (s : State) (e : Env) (o : T64) (creates : Bool) : Except Trap Nat :=
  if !o.x then .ok e.g.ctx
  else
    let n := e.lowWord o.b.toNat
    if s.liveCtx n ∨ (creates ∧ n < 0xFFFF) then .ok n else .error (ctxTrap n)

/-- Write a value to a register, or to a pair low word first, in form U (R351). -/
def Group.writeU (g : Group) (act : Mask) (d run x : Nat) : Group :=
  let w (f : Frame) (k : Nat) : Frame := f.write g.active act (d + k) ⟨.u, fun _ => BitVec.ofNat 32 (x / 2 ^ (32 * k)), fun _ => false⟩
  { g with frame := (List.range run).foldl w g.frame }

/-- MFS (R347, R351). -/
def execMfs (o : T64) (s : State) := issue (.mfs o) s fun s e =>
  match mergePoison e (if o.x then [o.b.toNat] else []) [] with
  | some t => .trap s t
  | none =>
    match targetCtx s e o false with
    | .error t => .trap s t
    | .ok n =>
      let x := if o.regNum ≤ 4 then s.groupReg e.g o.regNum else s.ctxReg (s.ctx n) o.regNum
      done s (.mfs o) (e.g.writeU e.act o.d.toNat (sysRegRun o) x)

/-- A write to a context register satisfies its constraints (Table 17-3, R348; 05 R115; 19 R374). -/
def Ctx.allows (c : Ctx) (n x : Nat) : Bool :=
  let seg (k : Nat) : Nat := 32 * 2 ^ k
  match n with
  | 0x102 => x % 2 == 0 && decide (x < 2 ^ 56)
  | 0x103 => x &&& (2 ^ 2 + 2 ^ 34 + 2 ^ 36 + 2 ^ 37) == 0 && decide (x < 2 ^ 39)
  | 0x104 => x % seg c.spillSeg.toNat == 0
  | 0x105 => decide (16 ≤ x) && decide (x ≤ 25) && c.spillArea.toNat % seg x == 0
  | 0x106 => x % 0x2000000 == 0
  | 0x107 => decide (25 ≤ x) && decide (x ≤ 32)
  | 0x108 => x % 65536 == 0
  | 0x10A => x &&& ones 47 6 == x
  | 0x10B => x &&& ones 55 17 == x
  | 0x10C => x &&& ones 55 17 == x
  | 0x10D => x &&& ones 35 17 == x
  | 0x10E => decide (x < 2 ^ 19) && decide (1 ≤ bits x 12 6) && decide (bits x 12 6 ≤ 64) && decide (30 ≤ bits x 18 13) &&
      decide (bits x 18 13 ≤ 35)
  | _ => true

/-- A context register takes a value (Table 17-3). -/
def Ctx.setReg (c : Ctx) (n x : Nat) : Ctx :=
  let d : DWord := BitVec.ofNat 64 x
  let w : Word := BitVec.ofNat 32 x
  match n with
  | 0x101 => { c with landMask := d }
  | 0x102 => { c with utrapVec := d }
  | 0x103 => { c with trapDeleg := d }
  | 0x104 => { c with spillArea := d }
  | 0x105 => { c with spillSeg := w }
  | 0x106 => { c with parkOff := d }
  | 0x107 => { c with parkSz := w }
  | 0x108 => { c with kspillBase := d }
  | 0x109 => { c with kspillSize := w }
  | 0x10A => { c with ptRoot := d }
  | 0x10B => { c with heapBase := d }
  | 0x10C => { c with heapLim := d }
  | 0x10D => { c with heapOff := d }
  | 0x10E => { c with heapGeom := d }
  | _ => c

/-- Landings of a context's LANDMASK. -/
def Ctx.lands (c : Ctx) : List Nat := (List.range 64).filter fun l => c.landMask.getLsbD l

/-- Clear a context's park records at its landings (R345). -/
def State.dropRecords (s : State) (c : Ctx) : State :=
  c.lands.foldl (fun (t : State) l =>
    let v := (t.pool c l).filter Link.valid
    if v.isEmpty then t else t.release c l (v.map Link.pa)) s

/-- The move from PARKED to FREE, which kills the context and its queues, or from NEW to FREE (R345; 19 R381; 20 R394). -/
def State.kill (s : State) (id : Nat) : State :=
  let s0 := (s.dropRecords (s.ctx id)).killMerge id
  let s1 := if (s.ctx id).state = 4 then s0.disableQueues id else s0
  let keep (i : Item) : Bool := match i with
    | .post p => !(p.ctx == id && match p.op with | .keyed _ => true | _ => false)
    | _ => true
  { s1 with
    ctxs := s1.ctxs.filter fun c => c.id != id
    landings := s1.landings.map fun (x : Landing) => { x with
      side := x.side.filter fun p => p.ctx != id, tokens := x.tokens.filter fun t => t.ctx != id
      poolWait := x.poolWait.filter fun p => p.ctx != id, pending := x.pending.filter fun p => p.ctx != id }
    pairs := (s1.pairs.map fun p => (p.1, p.2.filter keep)).filter fun p => !p.2.isEmpty
    teams := s1.teams.filter fun t => t.ctx != id, launches := s1.launches.filter fun x => x.ctx != id
    saved := s1.saved.filter fun c => c.ctx != id, segs := s1.segs.filter fun x => x.ctx != id
    tokSides := s1.tokSides.filter fun t => t.ctx != id }

/-- Contexts in states other than FREE (R345). -/
def State.busyCtxs (s : State) : Nat := (s.ctxs.filter fun c => c.state != 0).length

/-- An MTS to CTXCTL (R345, R348, R349): none where its transition is not in Table 17-2. -/
def State.writeCtl (s : State) (n x : Nat) : Option State :=
  let c := s.ctx n
  let st := bits x 4 2
  if c.state = 0 then
    (if x = 4 ∧ s.busyCtxs < 4096 then some (s.setCtx { c with state := 1 }) else none)
  else if bits x 15 5 ≠ 0 ∨ bits x 1 0 = 3 then some s
  else
    let s1 := if c.state = 1 then s.setCtx { c with pl := bits x 1 0 } else s
    if st = c.state then some s1
    else if st = 0 ∧ (c.state = 1 ∨ c.state = 4) then some (s1.kill n)
    else none

/-- MTS (R347 to R349, R351; 03 R53, R54). -/
def execMts (o : T64) (s : State) := issue (.mts o) s fun s e =>
  let i : Instr := .mts o
  let run := sysRegRun o
  let regs := (List.range run).map (o.a.toNat + ·)
  let x := e.operand o.a.toNat run
  let r := o.regNum
  match mergePoison e (regs ++ if o.x then [o.b.toNat] else []) [] with
  | some t => .trap s t
  | none =>
    match targetCtx s e o (decide (r = 0x100 ∧ x = 4)) with
    | .error t => .trap s t
    | .ok n =>
      if r = 0 then done s i (if x < 256 then { e.g with gmode := BitVec.ofNat 32 x } else e.g)
      else if r = 1 then done s i (if x < 256 then { e.g with gstatus := e.g.gstatus &&& ~~~(BitVec.ofNat 32 x) } else e.g)
      else if r ≤ 5 then done s i e.g
      else if r = 0x100 then
        match s.writeCtl n x with
        | some s1 => done s1 i e.g
        | none => .trap s (ctxTrap n)
      else
        let c := s.ctx n
        if (c.state = 2 ∨ c.state = 3) ∧ r ≠ 0x102 ∧ r ≠ 0x103 then .trap s (ctxTrap n)
        else done (if c.allows r x then s.setCtx (c.setReg r x) else s) i e.g

/-- The frame-sequence trap (Table 17-6). -/
def frameTrap (k : Nat) : Trap := mkTrap 17 k

/-- Register `n` of the previous frame: one that its callee shares is the callee's (03 R60, 17 R355). -/
def Group.prevReg (g : Group) (c : Frame) (n : Nat) : Option VReg :=
  if !c.tp && decide (c.fsz - 8 ≤ n) then g.frame.reg? (n - (c.fsz - 8)) else c.reg? n

/-- Replace register `n` of the previous frame. -/
def Group.setPrevReg (g : Group) (c : Frame) (n : Nat) (r : VReg) : Group :=
  if !c.tp && decide (c.fsz - 8 ≤ n) then { g with frame := g.frame.setReg (n - (c.fsz - 8)) (some r) }
  else { g with older := g.older.set 0 (c.setReg n (some r)) }

/-- RDPREV and WRPREV up to the previous frame (R358): the frame, once it is resident and the indices are checked. -/
def prevOp (s : State) (e : Env) (a : Nat) (p : Bool) (go : Frame → R) : R :=
  let g := e.g
  if !g.inTrap then .trap s (frameTrap 2)
  else if g.depth = 0 then .trap s (frameTrap 3)
  else
    match g.older with
    | [] => .wait (s.modGroup g.uid fun h => { h with wse := .refill })
    | c :: _ =>
      match g.poisonUse e.act [a] with
      | some t => .trap s t
      | none =>
        let idx (l : Nat) : Nat := (g.frame.lane a l).toNat
        match (lanesOf e.act).find? fun l => decide ((if p then 8 else c.fsz) ≤ idx l) with
        | some l => .trap s (mkTrap 3 (idx l % 64 + 256 * l))
        | none => go c

/-- The indices that lanes of ACTIVE name. -/
def Env.index (e : Env) (a l : Nat) : Nat := (e.g.frame.lane a l).toNat

/-- RDPREV (R358). -/
def execRdprev (o : T64) (s : State) := issue (.rdprev o) s fun s e =>
  let a := o.a.toNat
  prevOp s e a false fun c =>
    let reg (l : Nat) : Option VReg := e.g.prevReg c (e.index a l)
    let gone := ((lanesOf e.act).filter fun l => (reg l).isNone).foldl (fun (xs : List Nat) l => natInsert xs (e.index a l)) []
    match s.deadRead e.g (gone.map fun n => (0, n)) with
    | .error t => .trap s t
    | .ok g => done s (.rdprev o) { g with
        frame := g.frame.write g.active e.act o.d.toNat
          ⟨.g, fun l => ((reg l).map fun r => r.val.lane l).getD 0, fun l => ((reg l).map fun r => r.bad l).getD false⟩ }

/-- RDPREV.P (R358). -/
def execRdprevP (o : T64) (s : State) := issue (.rdprevP o) s fun s e =>
  let a := o.a.toNat
  prevOp s e a true fun c =>
    let gone := ((lanesOf e.act).filter fun l => e.index a l != 0 && (c.p.getD (e.index a l) none).isNone).foldl
      (fun (xs : List Nat) l => natInsert xs (e.index a l)) []
    match s.deadRead e.g (gone.map fun n => (1, n)) with
    | .error t => .trap s t
    | .ok g => done s (.rdprevP o) { g with
        frame := g.frame.write g.active e.act o.d.toNat
          ⟨.g, fun l => if (c.pred (e.index a l)).getLsbD l then 1 else 0, fun _ => false⟩ }

/-- Lanes of ACTIVE by the index they name. -/
def Env.byIndex (e : Env) (a : Nat) : List (Nat × List Nat) := byKey (e.index a) (lanesOf e.act)

/-- The group's previous frame after lanes write register `b` to the registers they name (R358). -/
def Env.wrotePrev (e : Env) (a b : Nat) : Group :=
  (e.byIndex a).foldl (fun (g : Group) k =>
    let c := g.older.headD Frame.fresh
    g.setPrevReg c k.1 (writeReg (g.prevReg c k.1) g.active (failMask k.2) ⟨.g, e.g.frame.lane b, e.g.frame.bad b⟩)) e.g

/-- The group's previous frame after lanes write bit 0 of register `b` to the predicates they name (R358). -/
def Env.wrotePrevP (e : Env) (a b : Nat) : Group :=
  (e.byIndex a).foldl (fun (g : Group) k =>
    let c := g.older.headD Frame.fresh
    { g with older := g.older.set 0 (c.writePred (failMask k.2) k.1 (maskOf fun l => (e.g.frame.lane b l).getLsbD 0)) }) e.g

/-- WRPREV (R358). -/
def execWrprev (o : T64) (s : State) := issue (.wrprev o) s fun s e =>
  prevOp s e o.a.toNat false fun _ => done s (.wrprev o) (e.wrotePrev o.a.toNat o.b.toNat)

/-- WRPREV.P (R358): a poisoned value is not written to a predicate (07 R171). -/
def execWrprevP (o : T64) (s : State) := issue (.wrprevP o) s fun s e =>
  prevOp s e o.a.toNat true fun _ =>
    match e.g.poisonUse e.act [o.b.toNat] with
    | some t => .trap s t
    | none => done s (.wrprevP o) (e.wrotePrevP o.a.toNat o.b.toNat)

/-- The frame a return from a trap makes current: it takes back what its callee shares (03 R62, 17 R355). -/
def Group.resumed (g : Group) (c : Frame) : Frame :=
  { c with tp := false, v := (List.range 64).map fun n => if n < c.fsz then g.prevReg c n else c.reg? n }

/-- RTE (R359). -/
def execRte (o : T64) (s : State) := issue (.rte o) s fun s e =>
  let g := e.g
  let l0 := lowLane g.active
  let w (n : Nat) : Word := g.frame.lane n l0
  let pc0 := g.frame.pair 0 l0
  if !g.inTrap then .trap s (frameTrap 2)
  else if g.depth = 0 then .trap s (frameTrap 3)
  else if [0, 1, 2, 3].any fun n => (g.frame.reg? n).isNone then .trap s (frameTrap 4)
  else if w 2 >>> 9 != 0 || (w 2).extractLsb' 6 2 != 0 || w 3 >>> 8 != 0 then .trap s (frameTrap 4)
  else
    match [0, 1, 2, 3].find? fun n => g.frame.bad n l0 with
    | some n => .trap s (mkTrap 13 (n + 256 * l0))
    | none =>
      let go (s1 : State) (pc : DWord) : R :=
        if 2 ^ 56 ≤ pc.toNat then .trap s (laneTrap 6 5 g.active pc.toNat)
        else if pc.getLsbD 0 then .trap s (laneTrap 5 0 g.active pc.toNat)
        else
          match g.older with
          | [] => .wait (s.modGroup g.uid fun h => { h with wse := .refill })
          | c :: _ =>
            if c.lost then .trap s1 (spillImageError 0)
            else .ok (s1.setGroup ((g.advance (.rte o)).returnTrap (g.resumed c) pc (w 2) (w 3)))
      if o.ctl.getLsbD 0 then
        match s.fetchHalf g pc0.toNat with
        | .error f => .wait (s.fetchFault g pc0.toNat f)
        | .ok (h, s1) => go s1 (pc0 + BitVec.ofNat 64 (lengthOf h))
      else go s pc0

/-- A record about a side-log part: its kind and level, at an address, for lanes (Table 19-5). -/
def SidePart.record (p : SidePart) (ft kind level va : Nat) (lanes : Mask) : FaultRec :=
  { ft := ft, ctx := p.ctx, kind := kind, access := if p.plain then 1 else 3, level := level, token := 0, core := p.core, va := va
    lineage := p.lineage, team := p.team, rank := p.rank, lanes := lanes, slcount := 1, aux := 0 }

/-- The access a side-log part makes when it translates again. -/
def SidePart.access (p : SidePart) : Access :=
  if p.plain then accStore
  else match p.op with
    | .keyed _ => accKeyed
    | .flip => accPublish
    | _ => accPost

/-- A lane of a part that faults as it translates again: lane, address, and the level of a missing page or table. -/
structure PartFault where
  lane : Nat
  va : Nat
  level : Option Nat
  deriving DecidableEq, Repr

/-- A lane's fault. -/
def PartLane.fault (x : PartLane) (f : TFault) (va : Nat) : PartFault := ⟨x.lane, va, match f with | .missing lv => some lv | _ => none⟩

/-- Translate a lane of a part again: its place, its counter's and the state, or its fault. -/
def State.partLane (s : State) (l : Nat) (p : SidePart) (x : PartLane) : Except PartFault ((Loc × PostLane) × State) :=
  match s.translate l p.ctx x.va p.access with
  | .error f => .error (x.fault f x.va)
  | .ok (a, s1) =>
    let a' := if p.op = .flip then { a with pa := a.pa / 2 ^ a.pageBits * 2 ^ a.pageBits } else a
    match x.ctr with
    | none => .ok ((a', x.post a' none), s1)
    | some v =>
      match s1.translate l p.ctx v accPost with
      | .error f => .error (x.fault f v)
      | .ok (c, s2) => if c.site != a.site then .error ⟨x.lane, x.va, none⟩ else .ok ((a', x.post a' (some c)), s2)

/-- Translate the lanes of a part again: those that fault, those that do not, and the state. -/
def State.partLanes (s : State) (l : Nat) (p : SidePart) : List PartLane → List PartFault × List (Loc × PostLane) × State
  | [] => ([], [], s)
  | x :: rest =>
    match s.partLane l p x with
    | .error f => let (fs, xs, s1) := s.partLanes l p rest; (f :: fs, xs, s1)
    | .ok (y, s1) => let (fs, xs, s2) := s1.partLanes l p rest; (fs, y :: xs, s2)

/-- Wake the groups that wait for room in a core's side log and free their tokens, as a part drains (Table 19-4). -/
def State.freeFull (s : State) (l core : Nat) : State :=
  let ts := ((s.landing l).tokens.filter fun t => t.kind == 4).map Live.token
  let mine := ts.filter fun t => s.groups.any fun g => g.l == l && g.core == core && g.wait == .token t
  { (s.modLanding l fun x => { x with tokens := x.tokens.filter fun t => !mine.contains t.token }) with
    groups := s.groups.map fun g => match g.wait with
      | .token t => if g.l = l ∧ mine.contains t then { g with wait := .none } else g
      | _ => g }

/-- A list with the first of its members that equal a given one replaced. -/
def replaceFirst [DecidableEq α] (a : α) (ys : List α) : List α → List α
  | [] => []
  | x :: xs => if x = a then ys ++ xs else x :: replaceFirst a ys xs

/-- Send a side-log part to its home, give it a new token, or drop it with a record of kind 8 (R385); none when no token or no
room for a record is free. -/
def State.drainPart (s : State) (l : Nat) (p : SidePart) : Option State :=
  let out (t : State) (q : Option SidePart) : State :=
    t.modLanding l fun x => { x with side := replaceFirst p q.toList x.side }
  let (fs, xs, s1) := s.partLanes l p p.lanes
  match (fs.filter fun f => f.level.isNone) with
  | f :: more =>
    if s.canPost l then
      some (((out s none).post l { p.record (s.ftAt l) 8 0 f.va (failMask ((f :: more).map PartFault.lane)) with slcount := 0 }).freeFull l p.core)
    else none
  | [] =>
    match fs with
    | f :: _ =>
      let lv := f.level.getD 1
      (s.takeToken l (p.record (s.ftAt l) (missingKind lv) lv f.va (failMask (fs.map PartFault.lane)))).map fun r =>
        out r.2 (some { p with token := some r.1 })
    | [] =>
      let q : Post := ⟨p.op, p.ctx, (s.ctx p.ctx).pl, p.uids, p.tag, p.size, p.ft, xs.map Prod.snd, none, true, p.plain⟩
      some ((out (s1.sendParts l q) none).freeFull l p.core)

/-- The first direct part of a landing that no earlier part of its context precedes (05 R126). -/
def firstDirect : List Nat → List SidePart → Option SidePart
  | _, [] => none
  | seen, p :: ps => if p.token.isNone && !p.uids.any seen.contains then some p else firstDirect (p.uids ++ seen) ps

/-- Send direct parts in order while they are free to go (05 R126). The fuel is the number of parts. -/
def State.drainDirect (s : State) (l : Nat) : Nat → Option State
  | 0 => some s
  | n + 1 =>
    match firstDirect [] (s.landing l).side with
    | none => some s
    | some p => (s.drainPart l p).bind fun t => t.drainDirect l n

/-- Set REPLAYED in the park records of a landing that carry a token, those not yet placed included (R363). -/
def State.markReplayed (s : State) (l t : Nat) : State :=
  let hit (bs : List Byte) : Bool := (ParkRec.read bs).fwait && (ParkRec.read bs).ftoken == t
  let flag (bs : List Byte) : List Byte := bs.set 3 (bs.getD 3 0 ||| 8)
  let recs := s.ctxs.flatMap fun c =>
    if c.landMask.getLsbD l then ((s.pool c l).filter fun k => k.valid && hit (s.mem.bytes k.pa 64)).map Link.pa else []
  let s1 := recs.foldl (fun (z : State) a => z.store (a + 3) [z.mem.byte (a + 3) ||| 8] false) s
  s1.modLanding l fun x => { x with
    poolWait := x.poolWait.map fun p => if hit p.record then { p with record := flag p.record } else p }

/-- A context's hold on a token ends. -/
def Group.wakeFrom (g : Group) (t : Nat) : Group :=
  { g with
    ftoken := if g.ftoken = some t then none else g.ftoken
    wait := if g.wait = .token t then .none else g.wait }

/-- A group that waits at a landing under a token, for the WSE or with its segment known, sees its segment's cursor and limit as
memory holds them (03 R67). -/
def State.rereadWaiting (s : State) (l t : Nat) : State :=
  (s.groups.filter fun g => g.l == l && g.wait == .token t).foldl (fun (z : State) g =>
    if z.segs.any fun x => x.ctx == g.ctx && x.base == z.spillBase g then z.rereadSeg g else z) s

/-- Groups, launches, posts on pairs, images in the wait table and the merge network are free of a token (R385). -/
def State.wakeToken (s : State) (l t : Nat) : State :=
  let item (i : Item) : Item := match i with
    | .post p => .post (if p.token = some t then { p with token := none } else p)
    | i => i
  let launch (x : Launch) : Launch := if x.token = some t then { x with token := none } else x
  let s0 : State := s.rereadWaiting l t
  let s1 : State := { s0 with
    groups := s0.groups.map (fun (g : Group) => g.wakeFrom t), launches := s0.launches.map launch
    pairs := s0.pairs.map fun (p : (Nat × Nat) × List Item) => (p.1, p.2.map item) }
  ((s1.landing l).wharf.filter fun (w : Waiting) => w.g.wait == .token t).foldl (fun (z : State) (w : Waiting) => z.enterWharf l (w.g.wakeFrom t) w.readBlock)
    (s1.modLanding l fun (x : Landing) => { x with
      wharf := x.wharf.filter (fun w => w.g.wait != .token t), pending := x.pending.map launch, mn := x.mn.replay t })

/-- REPLAY of one live token at its landing (R385): the token is freed last, and until then nothing new joins it; none when a part
that faults again finds no token or no room for its record (R381). -/
def State.replayToken (s : State) (l t : Nat) : Option State :=
  let tokens (z : State) (f : List Live → List Live) : State := z.modLanding l fun x => { x with tokens := f x.tokens }
  let s0 := tokens s fun ks => ks.map fun k => if k.token = t then { k with kind := 2 } else k
  let parts := (s.landing l).side.filter fun p => p.token == some t
  let s1 := parts.foldl (fun (z : Option State) p => z.bind fun u => u.drainPart l p) (some s0)
  (s1.bind fun u => u.drainDirect l (u.landing l).side.length).map fun u =>
    tokens (((u.wakeToken l t).retryPool l (some t)).markReplayed l t) fun ks => ks.filter fun k => k.token != t

/-- A landing has a live token. -/
def State.tokenLive (s : State) (l t : Nat) : Bool := (s.landing l).tokens.any fun k => k.token == t

/-- REPLAY (R385). -/
def execReplay (o : T64) (s : State) := issue (.replay o) s fun s e =>
  let i : Instr := .replay o
  match mergePoison e [o.a.toNat] [] with
  | some t => .trap s t
  | none =>
    let t := e.lowWord o.a.toNat
    if 2 ^ 24 ≤ t then .trap s (illegalTrap 2 18 8)
    else if s.plainBusy e.g.uid then .wait s
    else
      let l := t / 262144
      if s.tokenLive l t then
        match s.replayToken l t with
        | some s1 => done s1 i (e.g.writeU e.act o.d.toNat 1 1)
        | none => .wait s
      else done s i (e.g.writeU e.act o.d.toNat 1 0)

/-- The live tokens that the page form of REPLAY matches (R385): landing and token. -/
def State.pageTokens (s : State) (ctx va : Nat) : List (Nat × Nat) :=
  (List.range 64).flatMap fun l =>
    ((s.landing l).tokens.filter fun t => t.ctx == ctx && t.va / 0x20000 == va / 0x20000 && [0, 1, 2, 3, 4, 6, 7].contains t.kind).map
      fun t => (l, t.token)

/-- Replay tokens, those that are still live as their turn comes. -/
def State.replayAll (s : State) (ts : List (Nat × Nat)) : Option State :=
  ts.foldl (fun (z : Option State) t => z.bind fun u => if u.tokenLive t.1 t.2 then u.replayToken t.1 t.2 else some u) (some s)

/-- REPLAY.PAGE (R385). -/
def execReplayPage (o : T64) (s : State) := issue (.replayPage o) s fun s e =>
  match mergePoison e [o.a.toNat, o.a.toNat + 1, o.b.toNat] [] with
  | some t => .trap s t
  | none =>
    if s.plainBusy e.g.uid then .wait s
    else
      let ts := s.pageTokens (e.lowWord o.b.toNat) (e.lowPair o.a.toNat)
      match s.replayAll ts with
      | some s1 => done s1 (.replayPage o) (e.g.writeU e.act o.d.toNat 1 ts.length)
      | none => .wait s

/-- Two ranges of bytes meet. -/
def meets (r : Nat × Nat) (pa : Nat) : Bool := decide (r.1 ≤ pa) && decide (pa < r.1 + r.2)

/-- A place of a module, or of a peer, is one whose translation was discarded. -/
def Flush.hits (f : Flush) (peer : Option Nat) (pa : Nat) : Bool := f.all || f.ranges.any fun r => r.1 == peer && meets r.2 pa

/-- A location is one whose translation was discarded. -/
def Flush.at_ (f : Flush) (x : Loc) : Bool := f.hits x.peer x.pa

/-- Places that an item on its way to a peer module was translated to: those of its lanes; for a crossing, any of the module. -/
def Flush.item (f : Flush) (peer : Nat) (b : LinkBody) : Bool :=
  let lane (x : LinkLane) : Bool := f.hits (some peer) x.place.pa || (x.ctr.map fun c => f.hits (some peer) c.pa).getD false
  match b with
  | .crossing .. => f.all || f.ranges.any fun r => r.1 == some peer
  | .store _ _ xs => xs.any lane
  | .reduction _ _ _ xs => xs.any lane
  | .keyed _ _ xs => xs.any lane
  | .flip pa => f.hits (some peer) pa
  | .request _ _ _ xs => xs.any lane
  | _ => false

/-- Accesses of a context, or of any, that took a discarded translation have not yet been accepted or applied (R386), those on
their way to peer modules and the queued commands of claims in their save areas (11 R279) among them. `self` is the group that
waits for them. -/
def State.flushing (s : State) (self : Nat) (ctx : Option Nat) (f : Flush) : Bool :=
  let mine (c : Nat) : Bool := (ctx.map fun k => k == c).getD true
  let carries (g : Group) : Bool := g.uid != self && mine g.ctx && (g.carried.getD []).any fun x => f.at_ x.2
  let queue (u : MUnit) : Bool := u.queue.any fun c => mine c.ctx && c.pages.any fun x => f.at_ x.2
  s.groups.any carries || (s.landings.any fun x => x.wharf.any fun w => carries w.g) ||
    (s.pairs.any fun p => p.2.any fun i => match i with
      | .crossing g => carries g
      | .post q => mine q.ctx && q.lanes.any fun x => f.at_ x.loc || (x.ctr.map f.at_).getD false
      | _ => false) ||
    (s.links.outs.any fun o => o.unacked.any fun x => mine x.note.ctx && f.item o.peer x.item.body) ||
    (s.copies.any fun c => mine c.ctx && ((c.pieces.any fun p => f.at_ p.dst || p.src.any fun x => f.at_ x.1) ||
      c.unacked.any fun u => f.at_ u.2)) ||
    s.units.any queue || s.saved.any fun c => queue c.unit

/-- Discard the cached translations and instruction-cache lines that a test names (R386). -/
def State.discard (s : State) (entry : TlbEntry → Bool) (line : IcHalf → Bool) : State :=
  { s with landings := s.landings.map fun (x : Landing) =>
      { x with tlb := x.tlb.filter fun t => !entry t, icache := x.icache.filter fun h => !line h } }

/-- What stores replaced in some bytes is seen no more: no halfword has the index it is given (01 R13, 19 R388). -/
def Mem.forget (m : Mem) (pa n : Nat) : Mem :=
  { m with past := m.past.map fun p => if pa ≤ 2 * p.1 ∧ 2 * p.1 < pa + n then (2 ^ 64, p.2) else p }

/-- Every instruction-cache line is gone: the values that stores replaced are seen no more (01 R13). -/
def State.cleanCode (s : State) : State := { s with mem := { s.mem with past := [], clean := [] } }

/-- The lines of pages of a context are gone from the instruction caches (01 R13). -/
def State.cleanPages (s : State) (ctx : Nat) (rs : List (Nat × Nat)) : State :=
  { s with mem := { s.mem with clean := rs.map (fun r => ⟨ctx, r.1, r.2, s.mem.past.length⟩) ++ s.mem.clean } }

/-- The places that cached translations a test names lead to. -/
def State.discarded (s : State) (entry : TlbEntry → Bool) : Flush :=
  ⟨false, s.landings.flatMap fun x => (x.tlb.filter entry).map fun t =>
    let e := t.entry.toNat
    (if leafPV e then some (leafPeer e) else none, leafPA e, 2 ^ pageBits t.size)⟩

/-- The cached translations of a context that cover an address (R386). -/
def covers (ctx va : Nat) (t : TlbEntry) : Bool := t.ctx == ctx && t.page == leafPage t.size va

/-- Discard what the page form of TLBINV names. -/
def State.invalidatePage (s : State) (ctx va : Nat) : State :=
  let rs := (va / 0x20000 * 0x20000, 0x20000) ::
    (s.landings.flatMap fun x => x.tlb.filter (covers ctx va)).map fun t => (t.page, 2 ^ pageBits t.size)
  (s.discard (covers ctx va) fun h => h.ctx == ctx && rs.any fun r => meets r h.va).cleanPages ctx rs

/-- TLBINV once its operands are read (R386): discard, then wait for what was translated before. -/
def invalidate (i : Instr) (s : State) (e : Env) (ctx : Option Nat) (go : State → State) (f : Flush) : R :=
  if s.plainBusy e.g.uid then .wait s
  else
    let wait (t : State) (f : Flush) : R :=
      if t.flushing e.g.uid ctx f then .wait (t.modGroup e.g.uid fun h => { h with flush := some f, busy := true }) else done t i e.g
    match e.g.flush with
    | some f => wait s f
    | none =>
      if (ctx.map fun n => !s.liveCtx n).getD false then done s i e.g else wait (go s) f

/-- Every place. -/
def Flush.everything : Flush := ⟨true, []⟩

/-- TLBINV.PAGE (R386). -/
def execTlbinvPage (o : T64) (s : State) := issue (.tlbinvPage o) s fun s e =>
  match mergePoison e [o.a.toNat, o.a.toNat + 1, o.b.toNat] [] with
  | some t => .trap s t
  | none =>
    let n := e.lowWord o.b.toNat
    let va := e.lowPair o.a.toNat
    invalidate (.tlbinvPage o) s e (some n) (fun t => t.invalidatePage n va) (s.discarded (covers n va))

/-- TLBINV.CTX (R386). -/
def execTlbinvCtx (o : T64) (s : State) := issue (.tlbinvCtx o) s fun s e =>
  match mergePoison e [o.b.toNat] [] with
  | some t => .trap s t
  | none =>
    let n := e.lowWord o.b.toNat
    invalidate (.tlbinvCtx o) s e (some n) (fun t => (t.discard (fun x => x.ctx == n) fun _ => true).cleanCode) Flush.everything

/-- TLBINV.ALL (R386). -/
def execTlbinvAll (o : T64) (s : State) := issue (.tlbinvAll o) s fun s e =>
  invalidate (.tlbinvAll o) s e none (fun t => (t.discard (fun _ => true) fun _ => true).cleanCode) Flush.everything

/-- The park command goes to every landing of LANDMASK, and each will send a marker to each (R363). -/
def State.startPark (s : State) (id parker : Nat) : State :=
  s.modCtx id fun (c : Ctx) =>
    let ls := c.lands
    if ls.isEmpty then { c with state := 4 }
    else { c with state := 3, toCommand := ls, stopping := [], reported := [], parker := some parker
                  markers := ls.flatMap fun a => ls.map fun b => (a, b) }

/-- PARKCTX (R363). -/
def execParkctx (o : T64) (s : State) := issue (.parkctx o) s fun s e =>
  let i : Instr := .parkctx o
  let fin (t : State) (x : Word) : R := done t i (e.g.writeG e.act o.d.toNat x)
  match e.g.mark with
  | some n => if (s.ctx n).parker = some e.g.uid then .wait s else fin s 0
  | none =>
    match mergePoison e [o.a.toNat] [] with
    | some t => .trap s t
    | none =>
      let n := e.lowWord o.a.toNat
      if n = e.g.ctx ∨ !s.liveCtx n ∨ (s.ctx n).state ≠ 2 then fin s 1
      else
        let s1 := s.startPark n e.g.uid
        if (s1.ctx n).state = 4 then fin s1 0
        else .wait (s1.modGroup e.g.uid fun h => { h with mark := some n, busy := true })

/-- The join point of an arrival's image, read from its JOIN or RET (02 R31). -/
def State.joinPoint (s : State) (g : Group) : Option (JoinPoint × State) :=
  match s.fetch g 2 g.pc.toNat with
  | .error _ => none
  | .ok (x, s1) =>
    match decodeWord 4 (BitVec.ofNat 64 x) with
    | .ok (.join o) => some (⟨o.b.toNat, g.pc, false⟩, s1)
    | .ok (.ret _) => some (⟨15, g.pc, true⟩, s1)
    | _ => none

/-- The bytes of an image in a pool or a slice, no more than any image has (02 R47). -/
def State.poolImage (s : State) (pa : Nat) : List Byte := s.mem.bytes pa 8832

/-- The context of a park record, with what the record says of it, and whether its control block was written. -/
def State.takeRecord (s : State) (l pa : Nat) (r : ParkRec) (bs : List Byte) : Group × Bool × State :=
  let (g, block, s1) := s.takeImage r.ctx (imageKey pa) l bs
  let w : Wait := if r.reply then .matrixReply else if r.fwait && !r.replayed then .token r.ftoken else .none
  ({ g with progIdx := r.progIdx, wait := w, armed := false }, block, s1)

/-- The context of a park record resumes (R365): in the wait table, at its join instance, or in the wharf. -/
def State.enterRecord (s : State) (l : Nat) (r : ParkRec) (g : Group) (block : Bool) : State :=
  if r.arrival && g.wait == .none then
    match s.joinPoint g with
    | some (j, s1) => s1.rejoin l ⟨g, j⟩ (.of block)
    | none => s.enterWharf l g (.of block)
  else s.enterWharf l g (.of block)

/-- Resume the image of one park record (R365, R368): as the record's fields now say. -/
def State.resumeRecord (s : State) (l pa : Nat) (r : ParkRec) (bs : List Byte) : State :=
  let (g, block, s1) := s.takeRecord l pa r bs
  s1.enterRecord l r g block

/-- Resume a context's VALID records of REASON 0 and 2 at a landing (R365): an image that fails validation stays. -/
def State.resumeLanding (s : State) (c : Ctx) (l : Nat) : State :=
  let recs := ((s.pool c l).filter Link.valid).filterMap fun k =>
    let r := ParkRec.read (s.mem.bytes k.pa 64)
    let bs := s.poolImage (k.pa + 64)
    if (r.reason = 0 ∨ r.reason = 2) ∧ (s.imageCheck r.ctx true bs).isNone then some (k.pa, r, bs) else none
  if recs.isEmpty then s
  else
    let take (z : List (ParkRec × Group × Bool) × State) (x : Nat × ParkRec × List Byte) : List (ParkRec × Group × Bool) × State :=
      let (g, block, t) := z.2.takeRecord l x.1 x.2.1 x.2.2
      (z.1 ++ [(x.2.1, g, block)], t)
    let (gs, s1) := recs.foldl take ([], s)
    (gs.foldl (fun (t : State) x => t.enterRecord l x.1 x.2.1 x.2.2) (s1.releaseRecords c l (recs.map Prod.fst))).retryPool l none

/-- WAKECTX, the context form (R365): the claims that wait are restored before any group of their team is admitted. -/
def execWakectx (o : T64) (s : State) := issue (.wakectx o) s fun s e =>
  let i : Instr := .wakectx o
  match mergePoison e [o.a.toNat] [] with
  | some t => .trap s t
  | none =>
    let n := e.lowWord o.a.toNat
    if !s.liveCtx n ∨ (s.ctx n).state ≠ 4 then done s i (e.g.writeG e.act o.d.toNat 1)
    else
      let c := s.ctx n
      let s1 := s.modCtx n fun (k : Ctx) => { k with state := 2, reported := [], markers := [], toCommand := [], stopping := [] }
      done (c.lands.foldl (fun (t : State) l => t.resumeLanding c l) s1) i (e.g.writeG e.act o.d.toNat 0)

/-- WAKECTX.GRP (R365): the result and the state. -/
def State.wakeGroup (s : State) (pa : Nat) : Nat × State :=
  let l := home pa
  let r := ParkRec.read (s.mem.bytes pa 64)
  let bs := s.poolImage (pa + 64)
  let c := s.ctx r.ctx
  if !(s.target l pa).isMemory || !(s.mem.byte (pa + 3)).getLsbD 0 || r.reason = 0 || r.reason = 2 then (2, s)
  else if c.state ≠ 2 ∧ c.state ≠ 4 then (1, s)
  else
    match s.imageCheck r.ctx true bs with
    | some k => (16 + k, s)
    | none =>
      if c.state = 4 then (0, s.store (pa + 2) [0] false)
      else (0, ((s.releaseRecords c l [pa]).resumeRecord l pa r bs).retryPool l none)

/-- WAKECTX.GRP (R365). -/
def execWakectxGrp (o : T64) (s : State) := issue (.wakectxGrp o) s fun s e =>
  match mergePoison e [o.a.toNat, o.a.toNat + 1] [] with
  | some t => .trap s t
  | none =>
    let (x, s1) := s.wakeGroup (e.lowPair o.a.toNat)
    done s1 (.wakectxGrp o) (e.g.writeG e.act o.d.toNat (BitVec.ofNat 32 x))

/-- IDLE (R366): the group waits for its event. -/
def execIdle (o : T64) (s : State) := issue (.idle o) s fun s e =>
  match mergePoison e [o.a.toNat, o.a.toNat + 1] [] with
  | some t => .trap s t
  | none =>
    .ok (s.setGroup { e.g with wait := .idle (e.lowPair o.a.toNat) (s.landing e.g.l).fq.posted })

end Sys2Proof.Machine
end

