-- ==== Sys2Proof/Machine/Fabric.lean ====
section
/-! DEFINITION. What pairs of landings deliver (01 R15, 05 R127 to R131), the berth a crossing leaves (02 R40), the
spills and refills of the WSE (03 R70 to R72), the end of an IDLE (17 R366) and the tides (05 R132, R133). -/

namespace Sys2Proof.Machine

/-- The oldest item of a pair, and the pair without it. -/
def State.head (s : State) (src dst : Nat) : Option (Item × State) :=
  match s.pair src dst with
  | [] => none
  | i :: rest => some (i, s.setPair src dst rest)

/-- Deliver the oldest item of a pair when it is of the kind that a function takes. -/
def State.deliver (s : State) (src dst : Nat) (f : Item → State → Option State) : Host.Outcome State Fault Refusal :=
  match s.head src dst with
  | none => .next s
  | some (i, s1) => .next ((f i s1).getD s)

/-- CROSSING_ARRIVAL (02 R28, R43; 05 R128). -/
def execCrossingArrival (src dst : Nat) (s : State) : Host.Outcome State Fault Refusal :=
  s.deliver src dst fun i t => match i with
    | .crossing g => some (t.arriveImage dst g)
    | _ => none

/-- BERTH_RELEASE (02 R40). -/
def execBerthRelease (l core berth : Nat) (s : State) : Host.Outcome State Fault Refusal :=
  .next { s with ghosts := s.ghosts.filter fun k => k != (l, core, berth) }

/-- ARRIVAL (02 R31, R32), once FT has passed that of the context's crossing (01 R17): while its context is parking, the arrival
goes to the pool (17 R363). -/
def execArrival (src dst : Nat) (s : State) : Host.Outcome State Fault Refusal :=
  s.deliver src dst fun i t => match i with
    | .arrival a =>
      if s.ftAt dst ≤ a.g.lastFT then none
      else if (t.ctx a.g.ctx).runsAt dst then some (if src < 64 then t.joinArrives dst a else t.rejoin dst a .frame)
      else if (t.ctx a.g.ctx).state = 0 then some t
      else some (t.parkArriving dst a.g true true)
    | _ => none

/-- EXIT_NOTICE (02 R32, R35). -/
def execExitNotice (src dst : Nat) (s : State) : Host.Outcome State Fault Refusal :=
  s.deliver src dst fun i t => match i with
    | .exit ctx tag team rank m => some ((t.countExited ctx tag team rank m).evalJoins dst ctx tag team rank)
    | _ => none

/-- LIVE_RANK_CHANGE (09 R245, R248). -/
def execLiveRankChange (src dst : Nat) (s : State) : Host.Outcome State Fault Refusal :=
  s.deliver src dst fun i t => match i with
    | .live _ _ o m => some ((t.setLive o m).evalBar o)
    | _ => none

/-- Apply one lane of a posted store with its counter (05 R130), the transfers apart; a lane in a launch window writes nothing. -/
def State.applyStore (s : State) (pl size : Nat) (x : PostLane) : State :=
  let s1 := if x.loc.lwin then s else s.writeLocPart x.loc pl (toBytes size x.value) x.poison
  match x.ctr with
  | none => s1
  | some c => (s1.combineAt (s1.mem.backing c false) pl 0 8 size false).2.2.2

/-- Lanes of a posted store in a launch window are together one partial write, which is rejected (20 R395). -/
def State.rejectPost (s : State) (xs : List PostLane) : State :=
  match xs.find? fun x => x.loc.lwin with
  | some x => s.rejectLaunch (home x.loc.pa) 5
  | none => s

/-- Apply a posted store's lanes in ascending order (05 R127). -/
def State.applyStores (s : State) (p : Post) : State :=
  (p.lanes.foldl (fun (z : State) x => z.applyStore p.pl p.size x)
    ((s.beatLocs (p.lanes.map PostLane.loc) p.size true).beatTwice (p.lanes.filterMap PostLane.ctr) 8)).rejectPost p.lanes

/-- Apply a posted reduction's lanes in ascending order (05 R127, 09 R236): its flags are discarded. -/
def State.applyReduce (s : State) (p : Post) (f : Nat) : State :=
  p.lanes.foldl (fun (z : State) x =>
    (z.combineAt (z.mem.backing x.loc false) p.pl f p.size x.value x.poison).2.2.2)
    (s.beatTwice (p.lanes.map PostLane.loc) p.size)

/-- POSTED_STORE_APPLY (05 R127, R130; 09 R233). -/
def execPostedStoreApply (src dst : Nat) (s : State) : Host.Outcome State Fault Refusal :=
  s.deliver src dst fun i t => match i with
    | .post p => if p.op = .store then some (t.applyStores p) else none
    | _ => none

/-- REDUCTION_APPLY (05 R127, 09 R236): its flags are discarded. -/
def execReductionApply (src dst : Nat) (s : State) : Host.Outcome State Fault Refusal :=
  s.deliver src dst fun i t => match i with
    | .post p =>
      match p.op with
      | .reduce f => some (t.applyReduce p f)
      | _ => none
    | _ => none

/-- KEYED_BUFFER_ENTRY (05 R127, 12 R322): where no room can be made the part waits under a token. -/
def execKeyedBufferEntry (src dst : Nat) (s : State) : Host.Outcome State Fault Refusal :=
  s.deliver src dst fun i t => match i with
    | .post p =>
      match p.op, p.token with
      | .keyed f, none =>
        match t.keyedEnter dst (p.lanes.map fun x => x.entry p.ctx f) 65 with
        | (true, _, s1) => some s1
        | (false, tok, s1) => some (s1.setPair src dst (.post { p with token := tok } :: s1.pair src dst))
      | _, _ => none
    | _ => none

/-- FLIP (05 R140). -/
def execFlip (src dst : Nat) (s : State) : Host.Outcome State Fault Refusal :=
  s.deliver src dst fun i t => match i with
    | .post p => if p.op = .flip then
        some { t with mem := p.lanes.foldl (fun (m : Mem) x => m.setFlip x.loc.pa !(m.flip x.loc.pa)) t.mem }
      else none
    | _ => none

/-- The WSE works for a group: one that no token holds, at a barrier and the like too when a context park stops it there (17
R363). -/
def Group.spills (g : Group) : Bool :=
  g.waitToken.isNone && (g.wse == .spillAll || (g.wait == .none && g.wse == .spillOne))

/-- WINDOW_SPILL (03 R70, R71): one frame, for a group that waits for the WSE. -/
def execWindowSpill (uid : Nat) (s : State) : Host.Outcome State Fault Refusal :=
  match s.group? uid with
  | none => .next s
  | some g =>
    if !g.spills then .next s
    else
      let s1 := s.spillOldest g
      .next (s1.modGroup uid fun h =>
        if h.waitToken.isNone ∧ (h.older.isEmpty ∨ (h.wse = .spillOne ∧ h.older.length < g.older.length)) then { h with wse := .none } else h)

/-- REFILL (03 R72). -/
def execRefill (uid : Nat) (s : State) : Host.Outcome State Fault Refusal :=
  match s.group? uid with
  | none => .next s
  | some g =>
    if g.wait ≠ .none ∨ g.wse ≠ .refill then .next s
    else if g.older.isEmpty then .next (s.refill g)
    else .next (s.modGroup uid fun h => { h with wse := .none })

/-- An IDLE is over (17 R366). -/
def State.idleOver (s : State) (g : Group) : Bool :=
  match g.wait with
  | .idle t n => decide (t ≤ s.ftAt g.l) || decide (n < (s.landing g.l).fq.posted)
  | _ => false

/-- IDLE_COMPLETION (17 R366): IDLE is eight bytes long. -/
def execIdleCompletion (uid : Nat) (s : State) : Host.Outcome State Fault Refusal :=
  match s.group? uid with
  | none => .next s
  | some g => if s.idleOver g then .next (s.setGroup { g with wait := .none, pc := g.pc + 8 }) else .next s

/-- The period of a scope's sample points (Table 5-2). -/
def tidePeriod (sc : TideScope) : Nat := match sc with | .landing => 8 | .module => 64 | .system => 1024

/-- The publication lag of a scope (Table 5-2). -/
def State.tideLag (s : State) (sc : TideScope) : Nat := match sc with | .landing => 16 | .module => 320 | .system => s.boot.plag

/-- The posted operation that a link item carries. -/
def isPosted (b : LinkBody) : Bool :=
  match b with
  | .store .. => true
  | .reduction .. => true
  | .keyed .. => true
  | .flip _ => true
  | _ => false

/-- The source of the pair that holds what a peer module's pair delivers: beyond every landing's number. -/
def linkSrc (peer src : Nat) : Nat := 64 + 64 * peer + src

/-- Issue FTs of the covered operations that are not applied and that a landing reports for a scope (R132, R133): side-log parts
that were issued there are covered whatever their home. -/
def State.outstandingFts (s : State) (sc : TideScope) (l : Nat) : List Nat :=
  let here (src dst : Nat) (side : Bool) : Bool := match sc with
    | .landing => src == l && (dst == l || side)
    | .module => decide (src < 64) && (src == l || dst == l)
    | .system => src == l || dst == l
  let posts := s.pairs.flatMap fun p => p.2.filterMap fun i =>
    match i with | .post q => if here p.1.1 p.1.2 q.side then some q.ft else none | _ => none
  let outs := (s.links.outs.filter fun o => o.src == l).flatMap fun o =>
    (o.unacked.filter fun x => isPosted x.item.body && (sc == .system || !x.note.uids.isEmpty)).map fun x => x.item.ft
  posts ++ (s.landing l).side.map SidePart.ft ++ outs

/-- A landing's report at a sample point (R133). -/
def State.report (s : State) (sc : TideScope) (l t : Nat) : Nat := (s.outstandingFts sc l).foldl min t

/-- A sample is due: the landing's FT is a sample point that it has not reported (R133). -/
def State.sampleDue (s : State) (sc : TideScope) (l : Nat) : Bool :=
  let t := s.ftAt l
  t != 0 && t % tidePeriod sc == 0 && !(s.landing l).samples.any fun x => x.scope == sc && x.at_ == t

/-- Peers with a route (23 R428). -/
def State.peers (s : State) : List Nat := (s.links.routes.map Prod.fst).filter s.routeOk

/-- TIDE_SAMPLE (R133): the landing reports, and forgets reports that every landing has used. At system sample points landing
0 sends the module's report to its peers (23 R426). -/
def execTideSample (scope : TideScope) (l : Nat) (s : State) : Host.Outcome State Fault Refusal :=
  if !s.sampleDue scope l then .next s
  else
    let t := s.ftAt l
    let o := s.report scope l t
    let s1 := s.modLanding l fun x => { x with
      samples := ⟨scope, t, o⟩ :: x.samples.filter fun y => y.scope != scope || decide (t ≤ y.at_ + s.tideLag scope + 8) }
    .next (if scope = .system ∧ l = 0 then
      let m := (List.range 64).foldl (fun (a : Nat) k => min a (s.report .system k t)) t
      s.peers.foldl (fun (z : State) p => z.sendPeer p 0 0 t (.tide t m)) s1
    else s1)

/-- The tide sampled at a point (R133): the least report, none while one of the module is wanting; and of a peer, its report for
that point, when it has come (log entry 79). -/
def State.tideAt (s : State) (sc : TideScope) (l t : Nat) : Option Nat :=
  let of_ (k : Nat) : Option Nat := ((s.landing k).samples.find? fun x => x.scope == sc && x.at_ == t).map Sample.value
  let all (ks : List Nat) (init : Nat) : Option Nat := ks.foldl (fun (a : Option Nat) k =>
    match a, of_ k with | some x, some y => some (min x y) | _, _ => none) (some init)
  match sc with
  | .landing => of_ l
  | .module => all (List.range 64) t
  | .system => all (List.range 64) ((s.links.peerTide.filter fun x => s.peers.contains x.1 && x.2.1 == t).foldl (fun (a : Nat) x =>
      min a x.2.2) t)

/-- The FT of a landing's latest adoption of a scope, one past it. -/
def Landing.adopted (x : Landing) (sc : TideScope) : Nat := match sc with | .landing => x.adL | .module => x.adM | .system => x.adS

/-- What a landing adopts now (R133): its FT is a sample point and the lag. -/
def State.adoption (s : State) (sc : TideScope) (l : Nat) : Option Nat :=
  let t := s.ftAt l
  if t < s.tideLag sc ∨ (s.landing l).adopted sc = t + 1 then none
  else
    let p := t - s.tideLag sc
    if p % tidePeriod sc = 0 then s.tideAt sc l p else none

/-- TIDE_ADOPTION (R133). -/
def execTideAdoption (scope : TideScope) (l : Nat) (s : State) : Host.Outcome State Fault Refusal :=
  match s.adoption scope l with
  | none => .next s
  | some v =>
    let n := s.ftAt l + 1
    .next (s.modLanding l fun x => match scope with
      | .landing => { x with tideL := v, adL := n }
      | .module => { x with tideM := v, adM := n }
      | .system => { x with tideS := v, adS := n })

end Sys2Proof.Machine
end

