-- ==== Sys2Proof/Machine/Dispatcher.lean ====
section
/-! DEFINITION. The landing dispatcher: admission, overflow returns and promotion (02 R41 to R43, 03 R72, R75), and the
placement and completion of launches (20 R397 to R400). -/

namespace Sys2Proof.Machine

/-- Read the control block of a group that has been admitted (03 R72, R75): a missing page parks it in its berth, any other
failure is a spill image error at its PC. No frame image is concerned, so TRAPADDR, which Table 17-6 gives as the image's address, is
the control-block address that failed (log entry 102). -/
def State.readTop (s : State) (g : Group) : State :=
  match s.readBlock g with
  | .ok (h, s1) => s1.modGroup g.uid fun _ => { h with block := .none }
  | .error (va, .missing lv) => s.parkOnToken g (s.wseRecord g accRefill va (.missing lv))
  | .error (va, _) => s.modGroup g.uid fun h => { h with block := .none, pend := some (spillImageError va) }

/-- ADMISSION (02 R41, R42; 03 R72). -/
def execAdmission (l : Nat) (s : State) : Host.Outcome State Fault Refusal :=
  match s.nextAdmitted l with
  | none => .next s
  | some w =>
    match s.berthFor l w.g with
    | none => .next s
    | some (core, b) =>
      let g := { w.g with core := core, berth := b, block := w.readBlock }
      let s1 := s.modLanding l fun x => { x with wharf := x.wharf.filter fun v => v.g.uid != g.uid }
      let s2 := { s1 with groups := s1.groups ++ [g] }
      .next (if g.block = .none then s2 else s2.readTop g)

/-- Wharf occupancy below which overflow continuations return (R43). -/
def returnBelow : Nat := 0x180000

/-- The oldest overflow continuation at a landing of a context that runs there (R43): the context, its record's address and
fields. -/
def State.oldestOverflow (s : State) (l : Nat) : Option (Nat × Nat × ParkRec) :=
  leastBy (fun x => [x.2.2.ft, x.1, x.2.1]) (s.ctxs.flatMap fun c =>
    if c.runsAt l && c.landMask.getLsbD l then
      ((s.pool c l).filter Link.valid).filterMap fun k =>
        let r := ParkRec.read (s.mem.bytes k.pa 64)
        if r.reason = 2 then some (c.id, k.pa, r) else none
    else [])

/-- OVERFLOW_RETURN (R43): its image is released from the pool, and an image that waits for room may take its place. -/
def execOverflowReturn (l : Nat) (s : State) : Host.Outcome State Fault Refusal :=
  if returnBelow ≤ (s.landing l).occupied then .next s
  else
    match s.oldestOverflow l with
    | none => .next s
    | some (id, pa, r) =>
      let bs := s.poolImage (pa + 64)
      .next (((s.releaseRecords (s.ctx id) l [pa]).resumeRecord l pa r bs).retryPool l none)

/-- WHARF_PROMOTION (R41). -/
def execWharfPromotion (l uid : Nat) (s : State) : Host.Outcome State Fault Refusal :=
  .next (s.modLanding l fun x => { x with
    wharf := x.wharf.map fun (w : Waiting) => if w.g.uid = uid ∧ s.promotable l w then { w with promoted := true } else w })

/-- The accesses of placement and completion (R397 to R399): ACCESS 4, with the context's translations. -/
def accAfter : Access := ⟨4, .atomic, true, false, false, false, false, false, 1⟩
/-- The argument block's writes. -/
def accArgs : Access := ⟨4, .atomic, false, true, false, true, false, false, 1⟩
/-- The completion counter's add. -/
def accDone : Access := ⟨4, .atomic, true, true, false, true, false, false, 1⟩

/-- Replace a record of a landing's pending list. -/
def State.setPending (s : State) (l : Nat) (x : Launch) : State :=
  s.modLanding l fun z => { z with pending := z.pending.map fun p => if p.uid = x.uid then x else p }

/-- Take a record out of a landing's pending list. -/
def State.dropPending (s : State) (l : Nat) (x : Launch) : State :=
  s.modLanding l fun z => { z with pending := z.pending.filter fun p => p.uid != x.uid }

/-- Placement meets a fault (R397): a missing page holds it under a token, any other rejects the rest of the launch. -/
def State.placeFault (s : State) (l : Nat) (x : Launch) (va : Nat) (f : TFault) : State :=
  match f with
  | .missing lv =>
    match s.takeToken l (s.netRecord l x.ctx (missingKind lv) lv va 0) with
    | some (t, s1) => s1.setPending l { x with token := some t }
    | none => s
  | _ =>
    let s1 := (s.dropPending l x).rejectLaunch l 6
    if x.next = 0 then s1 else { s1 with launches := s1.launches ++ [{ x with placed := true, rejected := true }] }

/-- Tags that live launches of a context hold (R398). -/
def State.liveTags (s : State) (id : Nat) : List Nat :=
  ((s.landings.flatMap Landing.pending ++ s.launches).filter fun x => x.ctx == id).filterMap Launch.tag

/-- The launch tag a record takes, skipping those that live launches hold (R398). -/
def State.nextTag (s : State) (id : Nat) : Nat :=
  let used := s.liveTags id
  let n := (s.ctx id).launchCount
  ((List.range (used.length + 1)).map fun k => (n + k) % 65536).find? (fun t => !used.contains t) |>.getD n

/-- A record takes its tag and is the one being placed (R397, R398). -/
def State.tagLaunch (s : State) (l : Nat) (x : Launch) : State :=
  let t := s.nextTag x.ctx
  (s.modCtx x.ctx fun (c : Ctx) => { c with launchCount := (t + 1) % 65536 }).setPending l { x with tag := some t, started := true }

/-- A 64 KiB scratch unit of a landing that no live team holds, nor one whose placement has taken it (R398). -/
def State.unitFree (s : State) (l u : Nat) : Bool :=
  decide ((s.landing l).sysscr ≤ u) && decide (u < 480) &&
    !(s.teams.any fun t => t.anchor == l && decide (t.scrBase ≤ u) && decide (u < t.scrBase + t.scrUnits)) &&
    !(s.landings.flatMap Landing.pending).any fun x =>
      match x.taken with | some (a, b) => a == l && decide (b ≤ u) && decide (u < b + x.scr) | none => false

/-- The lowest run of free units at a landing (R398). -/
def State.scratchRun (s : State) (l n : Nat) : Option Nat :=
  if n = 0 then some 0
  else (List.range 480).find? fun u => (List.range n).all fun k => s.unitFree l (u + k)

/-- Free eligible berths of a landing for a launch (R397, R42). -/
def State.eligible (s : State) (l : Nat) (x : Launch) : Nat :=
  let bs := (s.tiersNow l (s.ctx x.ctx).pl x.cls).flatten
  ((List.range 32).map fun c => (bs.filter (s.berthFree l c)).length).sum

/-- The anchor of a launch's next team and the first unit of its scratch, once it can be placed (R397, R398): those it has taken
already, when a missing page has held it. -/
def State.anchorFor (s : State) (x : Launch) : Option (Nat × Nat) :=
  let c := s.candidates x
  let room (l : Nat) : Option (Nat × Nat) := (s.scratchRun l x.scr).map fun u => (l, u)
  match x.taken with
  | some t => some t
  | none =>
    if x.fill then (c.find? fun l => (room l).isSome && decide (x.groups ≤ s.eligible l x)).bind room
    else ((c.drop (x.next % max c.length 1)).head?).bind room

/-- The group of a rank as its image is submitted (R398, 03 R62). -/
def Launch.group (x : Launch) (uid anchor rank block ft : Nat) : Group :=
  let v : List (Option VReg) :=
    ([block % 2 ^ 32, block / 2 ^ 32, x.teams, x.groups, 0, 0, 0, 0].map fun n => uReg (BitVec.ofNat 32 n)) ++ List.replicate 56 none
  { imageGroup uid x.ctx anchor [] [] with
    pc := x.entry, active := -1, exited := 0, urgent := x.cls == 3, orig := rank, team := x.next, rank := rank, anchor := anchor
    affL := anchor, affC := rank % 32, cls := x.cls, tag := x.tag.getD 0, horizon := 0, lastFT := ft
    frame := { Frame.fresh with v := v } }

/-- An image is submitted to its anchor's wharf, or to the pool while its context is parking (R398, 17 R363). -/
def State.submitImage (s : State) (anchor : Nat) (x : Launch) (block rank : Nat) : State :=
  let g := x.group s.nextUid anchor rank block (s.ftAt anchor)
  let c := s.ctx x.ctx
  let base := c.gspill x.next rank
  let stale (y : Seg) : Bool := y.ctx == x.ctx && (List.range 32).any fun k => y.base == (base + k * 2 ^ c.segBits) % 2 ^ 64
  let s1 := { s with nextUid := s.nextUid + 1, segs := s.segs.filter fun y => !stale y }
  if c.runsAt anchor then s1.enterWharf anchor g .none else s1.parkArriving anchor g false false

/-- Place a launch's next team at an anchor, with scratch from unit `u` on (R398). -/
def State.placeTeam (s : State) (l : Nat) (x : Launch) (anchor u : Nat) : State :=
  let a := (x.argBase.toNat + x.next * x.argStride) % 2 ^ 64
  let scr := if x.scr = 0 then 0 else (x.scrVA.toNat + anchor * 0x2000000 + u * 65536) % 2 ^ 64
  let bytes := toBytes 8 scr ++ toBytes 4 (x.scr * 65536) ++ toBytes 4 anchor
  match s.translateRange l x.ctx accArgs a 16 with
  | .error (va, f) => s.placeFault l { x with taken := some (anchor, u) } va f
  | .ok (pages, s1) =>
    let pl := (s.ctx x.ctx).pl
    let s2 := (cutLines a 16 2).foldl (fun (t : State) c => t.writeLoc (locOf pages c.1) pl ((bytes.drop (c.1 - a)).take c.2) false) s1
    let team : Team :=
      { ctx := x.ctx, tag := x.tag.getD 0, team := x.next, anchor := anchor, scrBase := u, scrUnits := x.scr, cls := x.cls
        groups := x.groups, exited := List.replicate x.groups 0, live := BitVec.ofNat 128 (2 ^ x.groups - 1), objects := [], away := [], lost := [] }
    let s3 := (List.range x.groups).foldl (fun (t : State) r => t.submitImage anchor x a r) { s2 with teams := s2.teams ++ [team] }
    let y := { x with next := x.next + 1, taken := none }
    if y.next = x.teams then { s3.dropPending l x with launches := s3.launches ++ [{ y with placed := true }] }
    else s3.setPending l y

/-- Evaluate the start condition of a record for the first time (R397; 05 R131): from then on the counter is watched. -/
def State.watchStart (s : State) (l : Nat) (x : Launch) : State :=
  if x.afterCtr = 0 then s.setPending l { x with started := true }
  else if x.afterCtr.toNat % 8 ≠ 0 then s.placeFault l x x.afterCtr.toNat .access
  else
    match s.translate l x.ctx x.afterCtr.toNat accAfter with
    | .error f => s.placeFault l x x.afterCtr.toNat f
    | .ok (loc, s1) =>
      let (v, _, s2) := s1.readLoc loc 8
      s2.setPending l { x with watch := some loc, started := decide (x.afterVal ≤ v) }

/-- TEAM_PLACEMENT (R397, R398, R400): one turn of a landing's placement: a record whose start condition has not been looked at,
else the record being placed, else the first whose condition holds. -/
def execTeamPlacement (l : Nat) (s : State) : Host.Outcome State Fault Refusal :=
  let x := s.landing l
  if x.hold then .next s
  else
    match x.pending.find? fun p => !p.started && p.watch.isNone && p.token.isNone with
    | some p => .next (s.watchStart l p)
    | none =>
      match x.pending.find? fun p => p.tag.isSome with
      | some p =>
        if p.token.isSome then .next s
        else
          match s.anchorFor p with
          | some (a, u) => .next (s.placeTeam l p a u)
          | none => .next s
      | none =>
        match x.pending.find? fun p => p.started && p.token.isNone with
        | some p => .next (s.tagLaunch l p)
        | none => .next s

/-- Something of a launch is still to come: a group that has not ceased, or a posted operation not applied (R399). -/
def State.launchBusy (s : State) (x : Launch) : Bool :=
  let t := x.tag.getD 0
  (s.teams.any fun y => y.ctx == x.ctx && y.tag == t) ||
    (s.pairs.any fun p => p.2.any fun i => match i with | .post q => q.ctx == x.ctx && q.tag == t | _ => false) ||
    (s.landings.any fun y => y.side.any fun q => q.ctx == x.ctx && q.tag == t) ||
    s.links.outs.any fun o => o.unacked.any fun i => isPosted i.item.body && i.note.ctx == x.ctx && i.note.tag == t

/-- A launch can complete (R399). -/
def State.launchEnds (s : State) (x : Launch) : Bool := x.placed && x.token.isNone && !s.launchBusy x

/-- LAUNCH_COMPLETION (R399). -/
def execLaunchCompletion (ctxid tag : Nat) (s : State) : Host.Outcome State Fault Refusal :=
  match s.launches.find? fun x => x.ctx == ctxid && x.tag == some tag with
  | none => .next s
  | some x =>
    let gone (t : State) : State := { t with launches := t.launches.filter fun y => y.uid != x.uid }
    let record (kind lv : Nat) : FaultRec := s.netRecord x.l x.ctx kind lv x.doneCtr.toNat 0
    if !s.launchEnds x then .next s
    else if x.rejected ∨ x.doneCtr = 0 then .next (gone s)
    else if x.doneCtr.toNat % 8 ≠ 0 then .next ((gone s).post x.l (record 9 0))
    else
      match s.translate x.l x.ctx x.doneCtr.toNat accDone with
      | .ok (loc, s1) => .next (gone ((s1.beatTwice [loc] 8).combineAt (s1.mem.backing loc false) (s.ctx x.ctx).pl 0 8 1 false).2.2.2)
      | .error (.missing lv) =>
        match s.takeToken x.l (record (missingKind lv) lv) with
        | some (t, s1) => .next { s1 with launches := s1.launches.map fun y => if y.uid = x.uid then { x with token := some t } else y }
        | none => .next s
      | .error _ => .next ((gone s).post x.l (record 9 0))

/-- LAUNCH_RECORD (20 R395, R396). -/
def execLaunchRecord (w : LaunchWrite) (s : State) : Host.Outcome State Fault Refusal := .next (s.submitLaunch w.l w.bytes)

end Sys2Proof.Machine
end

