-- ==== Sys2Proof/Machine/Parking.lean ====
section
/-! DEFINITION. The parking of a context (17 R363, R367; 10 R270; 11 R295): what a landing does on the park command, the
drain markers and the reports. -/

namespace Sys2Proof.Machine

/-- The token a stopped group carries into its record (R363): the one its instruction waits on, or the one it waited on
before its frames were spilled. -/
def Group.parkToken (g : Group) : Option Nat :=
  match g.wait with
  | .token t => if g.wse = .spillAll then g.ftoken else some t
  | _ => g.ftoken

/-- A group that is being stopped asks for its older frames to be spilled; the token it waits on is kept (R363). -/
def Group.stopSpill (g : Group) : Group :=
  { g with ftoken := g.parkToken, wait := match g.wait with | .token _ => .none | w => w, wse := .spillAll }

/-- A stopped group can be worked on (R363): a WSE fault on its way out holds it. -/
def Group.stoppable (g : Group) : Bool :=
  !g.busy && match g.wait with | .token _ => g.wse != .spillAll | _ => g.wse != .spillAll || g.older.isEmpty

/-- One piece of work on a group of a context that is parking (R363, R367): a pending trap is taken first; older frames are
spilled; then the group is sealed and written to the pool with REASON 0. -/
def State.stopGroup (s : State) (g : Group) : State :=
  match g.pend with
  | some t => s.takeTrap g t
  | none =>
    if !g.older.isEmpty then s.modGroup g.uid Group.stopSpill
    else
      let r : ParkRec := ⟨g.ctx, 0, false, g.parkToken.isSome, false, g.wait == .matrixReply, g.progIdx, 0, g.parkToken.getD 0, 0, 0, s.ftAt g.l⟩
      if g.block != .none then (s.leaveBerth g).parkImage g.l g true r none
      else
        match s.writeBlock g with
        | .error (va, e) =>
          (s.parkOnToken g (s.wseRecord g accSpill va e)).modGroup g.uid fun h => { h with ftoken := g.parkToken, wse := .spillAll }
        | .ok s1 => (s1.leaveBerth g).parkImage g.l g true r none

/-- A unit holds a queued command that will write registers of a group (11 R295): narrowing saves it. -/
def State.unitReply (s : State) (uid : Nat) : Bool := { s with saved := [] }.replyQueued uid

/-- A group of a context at a landing that can be worked on next: one that waits for a matrix reply only when its claim has
been narrowed (11 R295). -/
def State.nextStopped (s : State) (id l : Nat) : Option Group :=
  s.groups.find? fun g => g.ctx == id && g.l == l && g.stoppable && !(g.wait == .matrixReply && s.unitReply g.uid)

/-- A waiting image of a context at a landing that can be written out next (11 R295). -/
def State.nextWaiting (s : State) (id l : Nat) : Option Waiting :=
  (s.landing l).wharf.find? fun w => w.g.ctx == id && !(w.g.wait == .matrixReply && s.unitReply w.g.uid)

/-- A context still has something at a landing that the park command must write (R363). -/
def State.stoppingWork (s : State) (id l : Nat) : Bool :=
  (s.groups.any fun g => g.ctx == id && g.l == l) || ((s.landing l).wharf.any fun w => w.g.ctx == id) ||
    ((s.landing l).arrivals.any fun a => a.g.ctx == id) ||
    s.units.any fun u => u.l == l && (u.holder.map fun h => h.1 == id).getD false

/-- One turn of a landing that has taken the park command (R363): a wharf image, an arrival, a group, or, when nothing is left,
its markers. -/
def State.parkTurn (s : State) (id l : Nat) : State :=
  let x := s.landing l
  match s.nextWaiting id l with
  | some w =>
    (s.modLanding l fun y => { y with wharf := y.wharf.filter fun v => v.g.uid != w.g.uid }).parkArriving l w.g (w.readBlock != .none) false
  | none =>
    match x.arrivals.find? fun a => a.g.ctx == id with
    | some a =>
      (s.modLanding l fun y => { y with arrivals := y.arrivals.filter fun b => b.g.uid != a.g.uid }).parkArriving l a.g true true
    | none =>
      match s.nextStopped id l with
      | some g => s.stopGroup g
      | none =>
        if s.stoppingWork id l then s
        else
          (List.range 64).foldl (fun (t : State) k => t.send l k (.marker id))
            (s.modCtx id fun (c : Ctx) => { c with stopping := c.stopping.filter (· != l) })

/-- PARK_COMMAND (R363): the command reaches a landing, or the landing goes on with it. -/
def execParkCommand (ctxid l : Nat) (s : State) : Host.Outcome State Fault Refusal :=
  let c := s.ctx ctxid
  if c.state ≠ 3 then .next s
  else if c.toCommand.contains l then
    .next (s.modCtx ctxid fun (k : Ctx) => { k with toCommand := k.toCommand.filter (· != l), stopping := k.stopping ++ [l] })
  else if c.stopping.contains l then .next (s.parkTurn ctxid l)
  else .next s

/-- A turn of PARK_COMMAND would do something. -/
def State.parkReady (s : State) (c : Ctx) (l : Nat) : Bool :=
  c.toCommand.contains l ||
    (c.stopping.contains l && ((s.nextWaiting c.id l).isSome || ((s.landing l).arrivals.any fun a => a.g.ctx == c.id) ||
      (s.nextStopped c.id l).isSome || !s.stoppingWork c.id l))

/-- DRAIN_MARKER (R363). -/
def execDrainMarker (src dst : Nat) (s : State) : Host.Outcome State Fault Refusal :=
  s.deliver src dst fun i t => match i with
    | .marker id => some (t.modCtx id fun (c : Ctx) => { c with markers := c.markers.filter (· != (src, dst)) })
    | _ => none

/-- A landing can report done (R363). -/
def State.reportReady (s : State) (c : Ctx) (l : Nat) : Bool :=
  c.state == 3 && c.landMask.getLsbD l && !c.toCommand.contains l && !c.stopping.contains l && !c.reported.contains l &&
    !(c.markers.any fun m => m.2 == l) && !((s.landing l).poolWait.any fun h => h.ctx == c.id)

/-- PARK_REPORT (R363): when every landing has reported, the context is PARKED. -/
def execParkReport (ctxid l : Nat) (s : State) : Host.Outcome State Fault Refusal :=
  let c := s.ctx ctxid
  if !s.reportReady c l then .next s
  else
    let c' := { c with reported := c.reported ++ [l] }
    .next (s.setCtx (if c.lands.all c'.reported.contains then { c' with state := 4, parker := none, reported := [] } else c'))

end Sys2Proof.Machine
end

