-- ==== Sys2Proof/Machine/Move.lean ====
section
/-! DEFINITION. The page move engine (19 R388) and the fault queue's head (R387). -/

namespace Sys2Proof.Machine

/-- log2 of the size of the page a move names; SIZE 0 names none. -/
def PageMove.size (p : PageMove) : Nat := bits p.ctl.toNat 2 1
/-- CTXID of a move. -/
def PageMove.ctx (p : PageMove) : Nat := bits p.ctl.toNat 31 16
/-- Bytes of the page. -/
def PageMove.len (p : PageMove) : Nat := 2 ^ pageBits p.size

/-- An entry is a well-formed leaf of the move's size whose PA is given (R376, R388). -/
def State.moveLeaf (s : State) (l : Nat) (p : PageMove) (e pa : Nat) : Bool :=
  e % 2 == 1 && p.size != 0 && bits e 2 1 == p.size && s.leafOk l e p.size && leafPA e == pa

/-- The CAUSE of a command that fails its check (R388, step 1). -/
def State.moveCause (s : State) (l : Nat) (p : PageMove) : Option Nat :=
  let e := s.mem.num p.pte.toNat 8
  let dst := p.dst.toNat
  if !(s.target l p.pte.toNat).isMemory || s.mem.unreadable p.pte.toNat 8 then some 1
  else if !s.moveLeaf l p e p.src.toNat || leafPV e then some 2
  else if !(s.target l dst).isMemory || dst % p.len != 0 || dst == p.src.toNat then some 3
  else if !s.moveLeaf l p p.new.toNat dst then some 4
  else none

/-- Change a landing's move. -/
def State.setMove (s : State) (l : Nat) (p : PageMove) : State := s.modLanding l fun x => { x with pm := p }

/-- A move ends with a RESULT and a CAUSE (Table 19-6). -/
def PageMove.finish (p : PageMove) (result cause : Nat) : PageMove :=
  { p with step := 0, stat := (p.stat &&& 0xFFFF0000#32) ||| BitVec.ofNat 32 (2 * result + 16 * cause) }

/-- Write eight bytes of an entry at its home. -/
def State.putEntry (s : State) (pa e : Nat) : State := s.store pa (toBytes 8 e) false

/-- The cached translations and fetched lines of the page a move names (R388, step 3): those that came from its entry. -/
def State.moveDiscard (s : State) (l : Nat) (p : PageMove) : State :=
  let pte := p.pte.toNat
  let mine (h : IcHalf) : Bool := h.ctx == p.ctx && match s.walk l p.ctx h.va with | .ok f => f.pte == pte | .error _ => false
  let s1 := s.discard (fun t => t.ctx == p.ctx && t.pte == pte) mine
  { s1 with mem := s1.mem.forget p.src.toNat p.len }

/-- Live tokens of the move's context on the page (R388, step 6): those whose address the entry now maps. -/
def State.moveTokens (s : State) (p : PageMove) : List (Nat × Nat) :=
  (List.range 64).flatMap fun k =>
    ((s.landing k).tokens.filter fun t => t.ctx == p.ctx && [0, 1, 2, 3, 4, 6, 7].contains t.kind &&
      match s.walk k p.ctx t.va with | .ok f => f.pte == p.pte.toNat | .error _ => false).map fun t => (k, t.token)

/-- Act as `replay.page` and end (R388, step 6). -/
def State.moveEnd (s : State) (l : Nat) (p : PageMove) (result cause : Nat) : State :=
  match s.replayAll (s.moveTokens p) with
  | some t => t.setMove l (p.finish result cause)
  | none => s

/-- Abort with CAUSE 5: the old entry returns (R388). -/
def State.moveAbort (s : State) (l : Nat) (p : PageMove) : State :=
  (s.putEntry p.pte.toNat p.old.toNat).moveEnd l p 2 5

/-- Copy one line of the page (R388, step 4): a line with an uncorrectable error is written poisoned, counted and logged. -/
def State.moveLine (s : State) (l : Nat) (p : PageMove) (k : Nat) : State :=
  let src := p.src.toNat + 64 * k
  let dst := p.dst.toNat + 64 * k
  let ws := wordsOf src 64
  let lost := ws.any fun w => s.mem.bad.contains w || s.mem.failR.contains w
  let bs := (List.range 64).map fun i => (s.mem.byte (src + i), lost || s.mem.poisoned (src + i) 1)
  let s1 := (s.beats [(src, 64)]).findErrors src 64 1
  let s2 := { s1 with mem := { s1.mem with failR := s1.mem.failR.filter fun w => !ws.contains w } }
  let n := p.stat.toNat / 65536
  let stat := if lost ∧ n < 65535 then p.stat + 65536 else p.stat
  (s2.putFlagged dst bs).setMove l { p with step := p.step + 1, stat := stat }

/-- Accesses that took their translation from the old entry are not yet accepted (R386, R388). -/
def State.moveWaits (s : State) (p : PageMove) : Bool := s.flushing 0 (some p.ctx) ⟨false, [(none, p.src.toNat, p.len)]⟩

/-- The read of the entry that a command names (R388 step 1, 21 R409). -/
def State.readEntry (s : State) (l : Nat) (p : PageMove) : State :=
  if (s.target l p.pte.toNat).isMemory then s.touch p.pte.toNat 8 else s

/-- PAGE_MOVE (R388): a turn of the move under way. Step 0 checks the command and clears V; step 1 waits for the
invalidation; the lines follow, and then the new entry. -/
def execPageMove (l : Nat) (s : State) : Host.Outcome State Fault Refusal :=
  let p := (s.landing l).pm
  let lines := p.len / 64
  if !p.stat.getLsbD 0 then .next s
  else if p.step = 0 then
    match s.moveCause l p with
    | some c => .next ((s.readEntry l p).setMove l (p.finish 2 c))
    | none =>
      let e := s.mem.num p.pte.toNat 8
      .next ((((s.readEntry l p).moveDiscard l p).putEntry p.pte.toNat (e - 1)).setMove l { p with step := 1, old := BitVec.ofNat 64 e })
  else if p.step = 1 then .next (if s.moveWaits p then s else s.setMove l { p with step := 2 })
  else if p.step < 2 + lines then
    let k := p.step - 2
    if (s.target l (p.src.toNat + 64 * k)).isMemory && (s.target l (p.dst.toNat + 64 * k)).isMemory then .next (s.moveLine l p k)
    else .next (s.moveAbort l p)
  else if (s.target l p.pte.toNat).isMemory then .next (({ s with mem := s.mem.forget p.dst.toNat p.len }.putEntry p.pte.toNat p.new.toNat).moveEnd l p 1 0)
  else .next (s.moveEnd l p 2 5)

/-- FQHEAD_WRITE (R387): held records are written as there is room. -/
def execFqheadWrite (l : Nat) (value : BitVec 32) (s : State) : Host.Outcome State Fault Refusal :=
  .next ((s.modLanding l fun x => { x with fq := { x.fq with head := value } }).drainHeld l (s.landing l).fq.held.length)

end Sys2Proof.Machine
end

