-- ==== Sys2Proof/Machine/HostPort.lean ====
section
/-! DEFINITION. The host port and the crossing links (23 R421 to R431, 05 R143, R144, 20 R393): host accesses to memory and to
control space, items that arrive from peer modules, and changes of ports. -/

namespace Sys2Proof.Machine

/-- The device address of an HDM offset (R422). -/
def hdmAddr (x : Nat) : Nat := x / 0xC00000000 * 0x1000000000 + x % 0xC00000000

/-- An HDM offset that the device exposes, within one line (R422, 05 R143). -/
def hdmOk (x n : Nat) : Bool := decide (x < 0x30000000000) && decide (1 ≤ n) && decide (x % 64 + n ≤ 64)

/-- The offset is absent (R422). -/
def State.hdmAbsent (s : State) (x : Nat) : Bool := s.target 0 (hdmAddr x) == .absent

/-- Answer the host. -/
def State.answer (s : State) (r : HostReply) : State := { s with links := { s.links with hostReply := r } }

/-- Count an access to an absent offset (Table 23-3). -/
def State.countHerr (s : State) : State := { s with links := { s.links with herr := sat16 s.links.herr } }

/-- HOST_CXL_MEM_READ (R422 to R424; 20 R393). -/
def execHostCxlMemRead (r : HostRead) (s : State) : Host.Outcome State Fault Refusal :=
  let pa := hdmAddr r.hdm
  if !s.hostUp || !hdmOk r.hdm r.n then .next s
  else if !s.cxlMemUp then .next (s.answer .error)
  else if s.hdmAbsent r.hdm then .next (s.countHerr.answer (.data (List.replicate r.n 0) true))
  else
    match s.windowAt pa with
    | some q => .next (s.answer (.data ((q.window.drop (pa % 64)).take r.n) false))
    | none => .next ((s.touch pa r.n).answer (.data (s.mem.bytes pa r.n) (s.mem.unreadable pa r.n)))

/-- A host write once it is served (R422 to R424). -/
def State.hostWrite (s : State) (pa : Nat) (w : HostWrite) : State :=
  match s.windowAt pa with
  | some q => s.hostAppend pa q w.bytes w.poison
  | none => (s.mapFlip pa 1 w.bytes).store pa w.bytes w.poison

/-- HOST_CXL_MEM_WRITE (R422 to R424; 05 R143): received and applied in one step. -/
def execHostCxlMemWrite (w : HostWrite) (s : State) : Host.Outcome State Fault Refusal :=
  if !s.hostUp || !hdmOk w.hdm w.bytes.length then .next s
  else if !s.cxlMemUp then .next (s.answer .error)
  else if s.hdmAbsent w.hdm then .next (s.countHerr.answer .complete)
  else .next ((s.hostWrite (hdmAddr w.hdm) w).answer .complete)

/-- APPEND (20 R393): a host write to the append window of an enabled queue. -/
def execAppend (w : HostWrite) (s : State) : Host.Outcome State Fault Refusal :=
  let pa := hdmAddr w.hdm
  if !s.hostUp || !hdmOk w.hdm w.bytes.length || !s.cxlMemUp || s.hdmAbsent w.hdm then .next s
  else
    match s.windowAt pa with
    | some q => .next ((s.hostAppend pa q w.bytes w.poison).answer .complete)
    | none => .next s

/-- BAR0 in minimal mode reaches BOOTSTATUS, RECCTL and an alias of landing 0's scratch (24 R438). -/
def minimalScratch (off : Nat) : Option Nat :=
  if 0x10000000 ≤ off ∧ off < 0x12000000 then some (0x080000000000 + (off - 0x10000000)) else none

/-- CXL_IO_ACCESS (R421, R423; 24 R438, R440): at PL1 rights. -/
def execCxlIoAccess (x : IoAccess) (s : State) : Host.Outcome State Fault Refusal :=
  let pa := 0x0C0000000000 + x.off
  let min := s.boot.phase == 6
  let boot := decide (0x60000 ≤ x.off) && decide (x.off + x.n ≤ 0x60010)
  if !s.hostUp || x.n = 0 || decide (64 < x.off % 64 + x.n) || decide (0x1000000000 ≤ x.off) then .next s
  else
    match x.value with
    | none =>
      if min && !boot then
        match minimalScratch x.off with
        | some a => .next ((s.touch a x.n).answer (.data (s.mem.bytes a x.n) (s.mem.unreadable a x.n)))
        | none => .next (s.answer (.data (List.replicate x.n 0) false))
      else .next (s.answer (.data (toBytes x.n (s.ctlRead pa x.n)) false))
    | some v =>
      if min && !boot then
        match minimalScratch x.off with
        | some a => .next ((s.store a (toBytes x.n v) false).answer .complete)
        | none => .next (s.answer .complete)
      else .next ((s.ctlWrite pa 1 (toBytes x.n v)).answer .complete)

/-- HOST_PORT_TRAINING (R421, Table 23-3): widths of 0, 1, 2, 4, 8 and 16 lanes and rates to 7. A link that goes down carries no
IDE stream. -/
def execHostPortTraining (width rate : Nat) (s : State) : Host.Outcome State Fault Refusal :=
  if [0, 1, 2, 4, 8, 16].contains width ∧ rate ≤ 7 then
    .next { s with links := { s.links with width := width, rate := rate, ide := s.links.ide && rate != 0 } }
  else .next s

/-- A place of a link item, at its home. -/
def placeLoc (x : LinkPlace) : Loc := ⟨x.pa, x.kind, none, false, x.pageBits⟩

/-- A posted lane that a link item carries. -/
def postLane (x : LinkLane) : PostLane :=
  ⟨x.lane, (placeLoc x.place), x.value, x.poison, x.ctr.map placeLoc, BitVec.ofNat 32 x.key⟩

/-- A posted operation that a link item carries (R426). -/
def linkPost (op : PostOp) (ctx pl ft : Nat) (xs : List LinkLane) : Item :=
  .post ⟨op, ctx, pl, [], 0, (xs.head?.map LinkLane.n).getD 1, ft, xs.map postLane, none, false, false⟩

/-- A lane of a request executes at its home (19 R377; 05 R117, R140): value, poison, flags, state. What a copy finds absent reads
zero, poisoned, and takes no write. Operations: 0 and 4 reads, 1 to 3 writes, 16 up the atomics, 32 compare-and-swap. -/
def State.serveLane (s : State) (l pl op : Nat) (x : LinkLane) : Nat × Bool × Flags × State :=
  let pa := s.mem.backing (placeLoc x.place) (op == 2)
  match s.target l pa with
  | .absent => (0, true, 0, s)
  | .host => (0, true, 0, s)
  | _ =>
    if op = 0 ∨ op = 4 then
      let (v, p, s1) := s.readAt pa x.n
      (v, p, 0, s1)
    else if op < 16 then (0, false, 0, s.writeAt pa pl (toBytes x.n x.value) x.poison)
    else if op = 32 then
      let (old, p, s1) := s.readAt pa x.n
      (old, p, 0, if old = x.cmp then s1.writeAt pa pl (toBytes x.n x.value) x.poison else s1)
    else ((s.beats [(pa, x.n)]).beats [(pa, x.n)] true).combineAt pa pl (op - 16) x.n x.value x.poison

/-- The lanes of a request execute together, in order (05 R122): each lane's value and poison, and FADD's flags. -/
def State.serveLanes (s : State) (l pl op : Nat) : List LinkLane → List (Nat × Nat × Bool) × Flags × State
  | [] => ([], 0, s)
  | x :: rest =>
    let (v, p, fl, s1) := s.serveLane l pl op x
    let (rs, fl2, s2) := s1.serveLanes l pl op rest
    ((x.lane, v, p) :: rs, fl ||| fl2, s2)

/-- The access of a lane reaches memory or a register there (01 R20). -/
def State.reaches (s : State) (l : Nat) (x : LinkLane) : Bool :=
  match s.target l (s.mem.backing (placeLoc x.place) false) with
  | .absent => false
  | .host => false
  | _ => true

/-- A request executes at a landing (19 R377): a plain store as the stores of one instruction (20 R395), anything else lane by
lane. Of an instruction's request, one absent lane leaves all of it without effect, and the reply leaves out the absent lanes
(01 R20). -/
def State.serve (s : State) (l pl op : Nat) (xs : List LinkLane) : List (Nat × Nat × Bool) × Flags × State :=
  let ys := xs.filter (s.reaches l)
  if !(decide (2 ≤ op) && decide (op ≤ 4)) && decide (ys.length < xs.length) then (ys.map fun x => (x.lane, 0, false), 0, s)
  else if op = 1 then
    let of_ (i : Nat) : Option LinkLane := xs.find? fun x => x.lane == i
    (xs.map fun x => (x.lane, 0, false), 0,
      s.writeLanes pl ((xs.head?.map LinkLane.n).getD 1) (fun i => ((of_ i).map LinkLane.value).getD 0)
        (fun i => ((of_ i).map LinkLane.poison).getD false) (ys.map fun x => (x.lane, (placeLoc x.place))))
  else s.serveLanes l pl op xs

/-- Execute the request that is next on a pair from a peer module, and send its reply: so it follows the pair's earlier posted
operations (05 R129). -/
def State.serveHead (s : State) (src dst : Nat) : State :=
  match s.head src dst with
  | some (.request peer from_ id pl op xs, s1) =>
    let (rs, fl, s2) := s1.serve dst pl op xs
    s2.sendPeer peer dst from_ (s2.ftAt dst) (.reply id rs fl)
  | _ => s

/-- Requests of peer modules that are next on their pairs execute (19 R377; log entry 78). -/
def State.serveRequests (s : State) : State := s.pairs.foldl (fun (t : State) p => t.serveHead p.1.1 p.1.2) s

/-- A reply reaches the group or the copy that waits for it (19 R377; 05 R138). -/
def State.takeReply (s : State) (r : PeerReply) : State :=
  match s.copies.find? fun c => c.unacked.any fun u => u.1 == r.id with
  | some c => s.endCopy { c with unacked := c.unacked.filter fun u => u.1 != r.id }
  | none =>
    if (s.groups.any fun g => g.asked.contains r.id) || s.copies.any fun c => c.pieces.any fun p => p.asked == some r.id then
      { s with links := { s.links with replies := s.links.replies ++ [r] } }
    else s

/-- A context that registers a barrier object from a peer module (09 R245): the object's home is told the live ranks. -/
def State.registerFrom (s : State) (peer anchor ctx tag team obj : Nat) : State :=
  match s.team? ctx tag team with
  | none => s
  | some tm => (s.setTeam { tm with away := if tm.away.contains (peer, obj) then tm.away else tm.away ++ [(peer, obj)] }).sendPeer
      peer anchor (home obj) (s.ftAt anchor) (.live ctx team obj tm.live)

/-- Apply an item that is next in its pair's order (R426, R429): what R128 orders goes on a pair of its own at the
destination. -/
def State.applyLink (s : State) (x : LinkItem) : State :=
  let put (t : State) (i : Item) : State := t.send (linkSrc x.peer x.src) x.dst i
  let next : State := { s with nextUid := s.nextUid + 1 }
  match x.body with
  | .crossing id img anchor =>
    put next (.crossing { imageGroup s.nextUid id x.dst [] img with origin := if anchor = s.links.myPeer then none else some anchor })
  | .arrival id img j addr implicit => put next (.arrival ⟨imageGroup s.nextUid id x.dst [] img, ⟨j, BitVec.ofNat 64 addr, implicit⟩⟩)
  | .store id pl xs => put s (linkPost .store id pl x.ft xs)
  | .reduction id pl op xs => put s (linkPost (.reduce op) id pl x.ft xs)
  | .keyed id op xs => put s (linkPost (.keyed op) id 0 x.ft xs)
  | .flip pa => put s (linkPost .flip 0 0 x.ft [⟨0, ⟨pa, 2, 17⟩, 1, 0, 0, false, none, 0⟩])
  | .exitNotice id tag team rank m => put s (.exit id tag team rank m)
  | .register id tag team obj => s.registerFrom x.peer x.dst id tag team obj
  | .live id team obj m => put s (.live id team obj m)
  | .request id pl op xs => put s (.request x.peer x.src id pl op xs)
  | .reply id rs fl => s.takeReply ⟨id, rs, fl⟩
  | .tide t o => { s with links := { s.links with
      peerTide := (x.peer, t, o) :: s.links.peerTide.filter fun y => !(y.1 == x.peer && (y.2.1 == t || decide (y.2.1 + s.boot.plag + 2048 < t))) } }

/-- The receiving side of a pair from a peer module. -/
def State.inPair (s : State) (peer src dst : Nat) : InPair :=
  (s.links.ins.find? fun p => p.peer == peer && p.src == src && p.dst == dst).getD ⟨peer, src, dst, 0, []⟩

/-- Replace the receiving side of a pair. -/
def State.setIn (s : State) (p : InPair) : State :=
  { s with links := { s.links with ins := p :: s.links.ins.filter fun q => !(q.peer == p.peer && q.src == p.src && q.dst == p.dst) } }

/-- Apply the early items of a pair whose turn has come (R429). The fuel is the number that came early. -/
def State.applyEarly (s : State) (peer src dst : Nat) : Nat → State
  | 0 => s
  | n + 1 =>
    let p := s.inPair peer src dst
    match p.early.find? fun y => y.seq == p.expect with
    | none => s
    | some y => ((s.setIn { p with expect := (p.expect + 1) % 2 ^ 32, early := p.early.filter fun z => z.seq != y.seq }).applyLink y).applyEarly
        peer src dst n

/-- LINK_ITEM_ARRIVAL (R429): in sequence order, duplicates discarded. -/
def execLinkItemArrival (x : LinkItem) (s : State) : Host.Outcome State Fault Refusal :=
  let p := s.inPair x.peer x.src x.dst
  let ahead := (x.seq + 2 ^ 32 - p.expect) % 2 ^ 32
  if 1024 ≤ x.peer ∨ 64 ≤ x.src ∨ 64 ≤ x.dst ∨ 2 ^ 31 ≤ ahead ∨ (p.early.any fun y => y.seq == x.seq) then .next s
  else if ahead ≠ 0 then .next (s.setIn { p with early := p.early ++ [x] })
  else .next (((s.setIn { p with expect := (p.expect + 1) % 2 ^ 32 }).applyLink x).applyEarly x.peer x.src x.dst p.early.length)

/-- ROUTE_CHANGE (R429, Table 23-3): the ports that are up. An item that is not acknowledged stays with its pair, which sends it
again on its new port. -/
def execRouteChange (up : BitVec 16) (s : State) : Host.Outcome State Fault Refusal :=
  .next { s with links := { s.links with portUp := up } }

/-- A port of a peer's route is up (R429). -/
def State.routeUp (s : State) (peer : Nat) : Bool :=
  match s.links.routes.find? fun (r : Nat × DWord) => r.1 == peer with
  | some r => (s.portOf r.2.toNat).isSome
  | none => false

/-- The link partner of the host port acknowledges the oldest write toward host memory, at a time that is free, while the host
link is up (R425; log entry 25): it counts as applied (05 R138). -/
def State.ackHost (s : State) : State :=
  match s.links.hostOut with
  | [] => s
  | x :: rest =>
    if s.hostUp && Config.coin s.steps s.links.outs.length then
      ({ s with links := { s.links with hostOut := rest } }).takeReply ⟨x.id, [], 0⟩
    else s

/-- The destination of a pair acknowledges its oldest item, at a time that is free, while a port of its route is up (R429; log
entry 25). -/
def State.acknowledge (s : State) : State :=
  let ack (k : Nat) (o : OutPair) : OutPair :=
    if s.routeOk o.peer && s.routeUp o.peer && Config.coin s.steps k then { o with unacked := o.unacked.drop 1 } else o
  let s1 : State := { s with links := { s.links with outs := s.links.outs.mapIdx ack } }
  s1.ackHost

end Sys2Proof.Machine
end

