-- ==== Sys2Proof/Machine/Lane.lean ====
section
/-! DEFINITION. Lane operations, reductions across lanes and queries (07 R183 to R187). -/

namespace Sys2Proof.Machine

/-- XLANE (R183): `j` gives the lane read for lane L and count n, none writing zero. -/
def xlane (i : Instr) (d a b : Nat) (u : Bool) (j : Nat → Word → Option Nat) (s : State) (e : Env) : R :=
  let f := e.g.frame
  writeLanes i s e d ⟨if u then f.formOther [a, b] else .g,
    fun l => match j l (f.lane b l) with | some k => f.lane a k | none => 0,
    fun l => match j l (f.lane b l) with | some k => f.bad a k || f.bad b l | none => f.bad b l⟩

/-- XLANE.GET (R183). -/
def execXlaneGet (o : A32) (s : State) := issue (.xlaneGet o) s
  (xlane (.xlaneGet o) o.d.toNat o.a.toNat o.b.toNat true fun _ n => some (n.toNat % 32))
/-- XLANE.ROT (R183). -/
def execXlaneRot (o : A32) (s : State) := issue (.xlaneRot o) s
  (xlane (.xlaneRot o) o.d.toNat o.a.toNat o.b.toNat true fun l n => some ((l + n.toNat) % 32))
/-- XLANE.FLIP (R183). -/
def execXlaneFlip (o : A32) (s : State) := issue (.xlaneFlip o) s
  (xlane (.xlaneFlip o) o.d.toNat o.a.toNat o.b.toNat true fun l n => some (l ^^^ (n.toNat % 32)))
/-- XLANE.SHIFT (R183). -/
def execXlaneShift (o : A32) (s : State) := issue (.xlaneShift o) s
  (xlane (.xlaneShift o) o.d.toNat o.a.toNat o.b.toNat false fun l n => if n.toNat ≤ l then some (l - n.toNat) else none)

/-- The lanes of ACTIVE where a predicate holds. -/
def Env.held (e : Env) (p : Nat) : Mask := e.act &&& e.g.frame.pred p

/-- PCOUNT (R184). -/
def execPcount (o : A32) (s : State) := issue (.pcount o) s fun s e =>
  laneConst (.pcount o) o.d.toNat (popcWord (e.held o.a.toNat)) s e
/-- PMASK (R184). -/
def execPmask (o : A32) (s : State) := issue (.pmask o) s fun s e =>
  laneConst (.pmask o) o.d.toNat (e.held o.a.toNat) s e
/-- PFIRST (R184). -/
def execPfirst (o : A32) (s : State) := issue (.pfirst o) s fun s e =>
  laneConst (.pfirst o) o.d.toNat (ctzWord (e.held o.a.toNat)) s e
/-- VRANK (R184): form G. -/
def execVrank (o : A32) (s : State) := issue (.vrank o) s fun s e =>
  let f := e.g.frame
  let a := o.a.toNat
  let act := lanesOf e.act
  writeLanes (.vrank o) s e o.d.toNat ⟨.g,
    fun l => BitVec.ofNat 32 (act.filter fun j => decide (j < l) && f.lane a j == f.lane a l).length,
    fun l => act.any fun j => decide (j ≤ l) && f.bad a j⟩

/-- The combining operation of REDUX (R185). -/
def reduxOp (fn : Nat) : Word → Word → Word :=
  match fn with
  | 0 => (· + ·)
  | 1 => minS
  | 2 => maxS
  | 3 => minZ
  | 4 => maxZ
  | 5 => (· &&& ·)
  | 6 => (· ||| ·)
  | _ => (· ^^^ ·)

/-- A value combined over lanes, lowest first; 0 over none. -/
def foldLanes (op : Word → Word → Word) : List Word → Word
  | [] => 0
  | x :: xs => xs.foldl op x

/-- REDUX (R185). -/
def execRedux (o : A32) (s : State) := issue (.redux o) s fun s e =>
  let f := e.g.frame
  let act := lanesOf e.act
  let bad := act.any fun l => f.bad o.a.toNat l
  writeLanes (.redux o) s e o.d.toNat
    ⟨.u, fun _ => foldLanes (reduxOp o.fn.toNat) (act.map fun l => f.lane o.a.toNat l), fun _ => bad⟩

/-- LANEID (R186): form A, base 0, stride 1. -/
def execLaneid (o : A32) (s : State) := issue (.laneid o) s fun s e =>
  writeLanes (.laneid o) s e o.d.toNat ⟨.a 0 1, fun l => BitVec.ofNat 32 l, fun _ => false⟩
/-- GRPRANK (R186). -/
def execGrprank (o : A32) (s : State) := issue (.grprank o) s fun s e =>
  laneConst (.grprank o) o.d.toNat (BitVec.ofNat 32 e.g.rank) s e
/-- TEAMID (R186). -/
def execTeamid (o : A32) (s : State) := issue (.teamid o) s fun s e =>
  laneConst (.teamid o) o.d.toNat (BitVec.ofNat 32 e.g.team) s e
/-- FTIME (R186): FT of the issuing landing. -/
def execFtime (o : A32) (s : State) := issue (.ftime o) s fun s e =>
  let t : DWord := BitVec.ofNat 64 (s.ftAt e.g.l)
  done s (.ftime o) { e.g with
    frame := pairFrame e.g.frame e.g.active e.act o.d.toNat .u (fun _ => t) (fun _ => false) }
/-- POISONQ (R186): over all 32 positions. -/
def execPoisonq (o : A32) (s : State) := issue (.poisonq o) s fun s e =>
  laneConst (.poisonq o) o.d.toNat (((e.g.frame.reg? o.a.toNat).map VReg.poison).getD 0) s e
/-- FORMQ (R186). -/
def execFormq (o : A32) (s : State) := issue (.formq o) s fun s e =>
  laneConst (.formq o) o.d.toNat (BitVec.ofNat 32 (formCode (e.g.frame.reg? o.a.toNat))) s e
/-- NOP (R186). -/
def execNop (o : A32) (s : State) := issue (.nop o) s fun s e => done s (.nop o) e.g
/-- YIELD (R187): the other ready groups of its class on the core issue first. -/
def execYield (o : A32) (s : State) := issue (.yield o) s fun s e =>
  let others := s.groups.filter fun g =>
    g.uid != e.g.uid && g.l == e.g.l && g.core == e.g.core && g.cls == e.g.cls && g.ready
  done s (.yield o) { e.g with hold := others.map Group.uid }

end Sys2Proof.Machine
end

