-- ==== Sys2Proof/Machine/Service.lean ====
section
/-! DEFINITION. Writes to control registers as rows of their own (00 R9, 20 R390), memory RAS (21 R405 to R412), bring-up and
attestation (24 R432 to R440), and the trap of an encoding that is no instruction (06 R159). -/

namespace Sys2Proof.Machine

/-- A write lies within one line of control space. -/
def CtlOk (w : CtlWrite) : Bool := isControl w.pa && decide (1 ≤ w.n) && decide (w.pa % 64 + w.n ≤ 64)

/-- QUEUE_REGISTER_WRITE (20 R390). -/
def execQueueRegisterWrite (w : CtlWrite) (s : State) : Host.Outcome State Fault Refusal :=
  let off := w.pa % 0x40000000
  if CtlOk w && decide (0x30000 ≤ off) && decide (off < 0x32000) && decide (1 ≤ w.pl) then
    .next (s.ctlWrite w.pa w.pl (toBytes w.n w.value))
  else .next s

/-- REGISTER_WRITE (00 R9; 17 R344): PL0 reaches no control space, and a register that only PL2 writes keeps its value. -/
def execRegisterWrite (w : CtlWrite) (s : State) : Host.Outcome State Fault Refusal :=
  if CtlOk w && decide (1 ≤ w.pl) then .next (s.ctlWrite w.pa w.pl (toBytes w.n w.value)) else .next s

/-- Change the RAS registers of a landing. -/
def State.modRas (s : State) (l : Nat) (f : Ras → Ras) : State := s.modLanding l fun x => { x with ras := f x.ras }

/-- Change a bus of a landing. -/
def State.modBus (s : State) (l bus : Nat) (f : Bus → Bus) : State :=
  s.modRas l fun (r : Ras) => { r with buses := r.buses.modify bus f }

/-- An error of an SRAM structure of landing `l` is logged: one corrected is counted only (21 R413, Table 21-2). -/
def State.logSram (s : State) (l : Nat) (src : Option Nat) : State :=
  s.modRas l fun (r : Ras) => { r with arrayLog := match src with
    | none => { r.arrayLog with cntA := min 65535 (r.arrayLog.cntA + 1) }
    | some k => r.arrayLog.record (arrayEntry (s.ftAt l) 0 1 k 0x1FF) 0 1 }

/-- The 16-byte words of a 128-byte block of a landing's scratch. -/
def scratchWords (x : ParityFailure) : List Nat :=
  if x.block < 0x40000 then
    (x.groups.filter (· < 8)).foldl (fun a p => natInsert a ((0x080000000000 + 0x2000000 * x.l + 128 * x.block) / 16 + p)) []
  else []

/-- An uncorrectable error in words of an image that waits in the wharf: in its header or form vector, trap park with cause 34;
elsewhere it poisons the lanes of the lines (21 R413, 03 R76). -/
def State.wharfError (s : State) (l n : Nat) (words : List Nat) : State :=
  match ((s.landing l).wharf.filter fun w => w.g.waitToken.isNone)[n]? with
  | none => s
  | some w =>
    let t := s.logSram l (some 3)
    if words = [] ∨ !s.canPost l then s
    else if words.any (· < 5) then
      let r : ParkRec := ⟨w.g.ctx, 1, false, false, false, w.g.wait == .matrixReply, w.g.progIdx, 34, 0, 0, 0, s.ftAt l⟩
      (t.modLanding l fun y => { y with wharf := y.wharf.filter fun v => v.g.uid != w.g.uid }).parkImage l w.g (w.readBlock != .none) r
        (some (w.g.faultRec (s.ftAt l) 5 (freeAccess s.steps) 0 w.g.pc.toNat 0 0))
    else
      let hit (k : Nat) : Bool := words.any fun q => q / 4 == k / 64
      t.modLanding l fun y => { y with wharf := y.wharf.map fun v =>
        if v.g.uid = w.g.uid then { v with g := { v.g with frame := { v.g.frame with v := poisonRegs hit 80 v.g.frame.v } } } else v }

/-- The lanes of a register that a slot of the window store holds (03 R59, Table 3-5). -/
def VReg.slotLost (r : VReg) (slot : Nat) : VReg :=
  { r with poison := r.poison ||| match r.val with
      | .u _ => if slot = 0 then -1 else 0
      | .a _ _ => if slot < 2 then -1 else 0
      | .g _ => if slot < 32 then BitVec.twoPow 32 slot else 0 }

/-- An uncorrectable error in a slot of the window store of the group in a berth: of a register it poisons the lanes held there; of
a frame record it comes as a spill image error, at once for the current frame and at the RET for an older one (21 R413, 03 R76;
log entry 81). -/
def State.windowError (s : State) (l : Nat) (x : ParityFailure) : State :=
  let f := x.conns.headD 0
  let hit (y : Frame) : Frame :=
    match x.groups with
    | [r, slot] => { y with v := y.v.modify r fun (o : Option VReg) => o.map fun q => q.slotLost slot }
    | _ => { y with fsz := 0 }
  match s.groups.find? fun g => g.l == l && 32 * g.core + g.berth == x.block with
  | none => s
  | some g =>
    let t := s.logSram l (some 4)
    if f = 0 then t.setGroup (if x.groups.length = 2 then { g with frame := hit g.frame } else { g with pend := g.pend.or (some (spillImageError 0)) })
    else if f ≤ g.older.length then t.setGroup { g with older := g.older.modify (f - 1) hit }
    else s

/-- Uncorrectable errors in tuples of a merge network (21 R413): each is poisoned (12 R312, R322). -/
def State.mergeError (s : State) (l slot : Nat) (ns : List Nat) : State :=
  let t := s.logSram l (some 5)
  t.modMN l fun (m : MergeNet) =>
    if slot = 8 then { m with keyed := m.keyed.mapIdx fun k (y : KeyedEntry) => if ns.contains k then { y with poison := true } else y }
    else { m with slots := m.slots.modify slot fun o => o.map fun (y : Session) =>
      { y with held := y.held.mapIdx fun k (z : Tuple) => if ns.contains k then { z with poison := true } else z } }

/-- PARITY_FAILURE (21 R405 to R407, R409, R413). -/
def execParityFailure (x : ParityFailure) (s : State) : Host.Outcome State Fault Refusal :=
  .next (match x.array with
    | 3 => { s with mem := { s.mem with weak := (scratchWords x).foldl natInsert s.mem.weak } }
    | 4 => { s with mem := { s.mem with bad := (scratchWords x).foldl natInsert s.mem.bad } }
    | 5 => s.logSram x.l none
    | 6 => s.wharfError x.l x.block x.groups
    | 7 => s.windowError x.l x
    | 8 => s.mergeError x.l x.block x.groups
    | _ => s.parityFails x)

/-- REPAIR_SWAP (21 R407). -/
def execRepairSwap (l bus group : Nat) (s : State) : Host.Outcome State Fault Refusal :=
  .next (s.modBus l bus fun b => b.swap group)

/-- INIT (21 R408). -/
def execInit (l : Nat) (s : State) : Host.Outcome State Fault Refusal := .next (s.modRas l Ras.init)

/-- INIT_COMPLETE (21 R408). -/
def execInitComplete (l : Nat) (s : State) : Host.Outcome State Fault Refusal := .next (s.initDone l)

/-- TEST_MODE (21 R411). -/
def execTestMode (l bus : Nat) (s : State) : Host.Outcome State Fault Refusal :=
  .next (s.modBus l bus fun b => b.test (s.landing l).ras.ready)

/-- GO (21 R412): on a physical connection, 0 to 1,087. -/
def execGo (l bus phys : Nat) (s : State) : Host.Outcome State Fault Refusal :=
  .next (s.modBus l bus fun (b : Bus) => if 1088 ≤ phys then b else { b with phys := phys }.go)

/-- TEST_COMPLETE (21 R412, 22 R418). -/
def execTestComplete (l bus : Nat) (ones : List Nat) (s : State) : Host.Outcome State Fault Refusal :=
  .next (s.modBus l bus fun b => b.testDone ones)

/-- LOGCLR (21 R410). -/
def execLogclr (l : Nat) (link : Bool) (s : State) : Host.Outcome State Fault Refusal :=
  .next (s.modRas l fun (r : Ras) => if link then { r with linkLog := r.linkLog.clear } else { r with arrayLog := r.arrayLog.clear })

/-- MODULE_RESET (24 R432, R437): a reset that arrives before RUN is a failed start, whose cause stays as it was recorded. -/
def execModuleReset (s : State) : Host.Outcome State Fault Refusal := .next (s.resetModule s.boot.lastCause)

/-- WATCHDOG (24 R437): the module is reset and cause 11 recorded. -/
def execWatchdog (s : State) : Host.Outcome State Fault Refusal := if s.boot.starting then .next (s.resetModule 11) else .next s

/-- RECOVERY (24 R439). -/
def execRecovery (len : Nat) (s : State) : Host.Outcome State Fault Refusal := .next (s.recover len)

/-- GET_VERSION (24 R436): the SPDM exchange starts anew. -/
def execGetVersion (q : SpdmRequest) (s : State) : Host.Outcome State Fault Refusal :=
  .next (s.spdmAnswer 1 q.arg true fun _ => ⟨true, false, false, false, false, []⟩)

/-- GET_CAPABILITIES (24 R436), after GET_VERSION (log entry 26). -/
def execGetCapabilities (q : SpdmRequest) (s : State) : Host.Outcome State Fault Refusal :=
  .next (s.spdmAnswer 2 q.arg s.boot.spdm.version fun x => { x with caps := true })

/-- NEGOTIATE_ALGORITHMS (24 R436): the one set that the device offers, which `arg` 1 names (log entry 26). -/
def execNegotiateAlgorithms (q : SpdmRequest) (s : State) : Host.Outcome State Fault Refusal :=
  .next (s.spdmAnswer 3 q.arg (s.boot.spdm.caps && q.arg == 1) fun x => { x with algs := true })

/-- GET_DIGESTS (24 R436). -/
def execGetDigests (q : SpdmRequest) (s : State) : Host.Outcome State Fault Refusal := .next (s.spdmAnswer 4 q.arg s.boot.spdm.algs id)

/-- GET_CERTIFICATE (24 R433, R436). -/
def execGetCertificate (q : SpdmRequest) (s : State) : Host.Outcome State Fault Refusal := .next (s.spdmAnswer 5 q.arg s.boot.spdm.algs id)

/-- CHALLENGE (24 R433, R436). -/
def execChallenge (q : SpdmRequest) (s : State) : Host.Outcome State Fault Refusal := .next (s.spdmAnswer 6 q.arg s.boot.spdm.algs id)

/-- GET_MEASUREMENTS (24 R436): indices 1 to 5. -/
def execGetMeasurements (q : SpdmRequest) (s : State) : Host.Outcome State Fault Refusal :=
  let s1 := s.spdmAnswer 7 q.arg (s.boot.spdm.algs && decide (1 ≤ q.arg) && decide (q.arg ≤ 5)) id
  if s1.boot.spdm.response.head? = some 7 ∧ s.boot.spdmUp then
    .next { s1 with boot := { s1.boot with spdm := { s1.boot.spdm with response := [7, s.measurement q.arg] } } }
  else .next s1

/-- KEY_EXCHANGE (24 R436). -/
def execKeyExchange (q : SpdmRequest) (s : State) : Host.Outcome State Fault Refusal :=
  .next (s.spdmAnswer 8 q.arg s.boot.spdm.algs fun x => { x with session := true, keyed := false })

/-- FINISH (24 R436): within the session IDE keys may be programmed, and with `arg` 1 the host programs them and the streams
become active (R421; log entry 26). -/
def execFinish (q : SpdmRequest) (s : State) : Host.Outcome State Fault Refusal :=
  let ok := s.boot.spdm.session
  let s1 := s.spdmAnswer 9 q.arg ok fun x => { x with keyed := true }
  .next (if ok && s.boot.spdmUp && q.arg == 1 && s.hostUp then { s1 with links := { s1.links with ide := true } } else s1)

/-- ILLEGAL_INSTRUCTION (06 R159): the current group takes the trap. -/
def execIllegalInstruction (x : BadEncoding) (s : State) : Host.Outcome State Fault Refusal :=
  match s.curGroup with
  | none => .next s
  | some g => .next (s.takeTrap g (mkTrap 0 (x.sub + 256 * x.maj + 65536 * x.len)))

end Sys2Proof.Machine
end

