-- ==== Sys2Proof/Machine/Tensor.lean ====
section
/-! DEFINITION. Tensor handles and access to stored tensors (12 R296 to R304). -/

namespace Sys2Proof.Machine

/-- A handle's fields (Table 12-1). -/
structure Tensor where
  etype : Nat
  nlev : Nat
  fmt : List Nat
  pw : Nat
  d : List Nat
  vals : Nat
  lvt : Nat
  rsv : Bool
  deriving DecidableEq, Repr

/-- Read a handle (Table 12-1). -/
def Tensor.of (h : BitVec 256) : Tensor :=
  let x := h.toNat
  ⟨bits x 3 0, bits x 5 4, [bits x 7 6, bits x 9 8, bits x 11 10], bits x 12 12, [bits x 47 16, bits x 79 48, bits x 111 80],
    bits x 167 112, bits x 223 168, bits x 15 13 != 0 || bits x 255 224 != 0⟩

/-- Bytes of an element. -/
def Tensor.width (t : Tensor) : Nat := if t.etype ≤ 2 then 4 else if t.etype ≤ 4 then 2 else 1
/-- Format of a level. -/
def Tensor.f (t : Tensor) (l : Nat) : Nat := t.fmt.getD l 0
/-- Size of a level. -/
def Tensor.size (t : Tensor) (l : Nat) : Nat := t.d.getD l 0

/-- The first failing reason of Table 12-3. -/
def Tensor.bad (t : Tensor) : Option Nat :=
  let lv := List.range t.nlev
  let off := (List.range 3).filter fun l => decide (t.nlev ≤ l)
  if t.nlev = 0 then some 1
  else if 8 ≤ t.etype then some 2
  else if t.rsv || off.any fun l => t.f l != 0 || t.size l != 0 then some 3
  else if lv.any fun l => t.size l == 0 then some 4
  else if t.f 0 = 2 || lv.any fun l => t.f l == 3 && t.size l % 32 != 0 then some 5
  else if t.lvt % 16 ≠ 0 ∨ t.vals % t.width ≠ 0 then some 6
  else none

/-- Why an index read gives no value (R301, R304). -/
inductive IErr where
  | refused (va : Nat) (f : TFault)
  | missing (va lv : Nat)
  | poison (va : Nat)
  deriving DecidableEq, Repr

/-- A reader of a context's index words: the value read, or why not. -/
abbrev Reader := Nat → Nat → Except IErr Nat

/-- Read `n` bytes of an index array for a group (R304). -/
def State.index (s : State) (g : Group) : Reader := fun va n =>
  match s.translate g.l g.ctx va accIndex with
  | .error (.missing lv) => .error (.missing va lv)
  | .error f => .error (.refused va f)
  | .ok (x, _) =>
    let pa := s.mem.backing x false
    if isControl pa then .ok (s.ctlRead pa n)
    else if s.mem.unreadable pa n then .error (.poison va)
    else .ok (s.mem.num pa n)

/-- What is computed from index words: the result with the reads made, as address and length, or why there is none. -/
abbrev Idx (α : Type) := Except IErr (α × List (Nat × Nat))

/-- A result without a read. -/
def pureE (a : α) : Idx α := .ok (a, [])

/-- Two computations in sequence. -/
def bindE (x : Idx α) (f : α → Idx β) : Idx β :=
  match x with
  | .ok (a, rs) =>
    match f a with
    | .ok (b, qs) => .ok (b, rs ++ qs)
    | .error e => .error e
  | .error e => .error e

/-- One read. -/
def readE (rd : Reader) (va n : Nat) : Idx Nat :=
  match rd va n with
  | .ok x => .ok (x, [(va, n)])
  | .error e => .error e

/-- POS_l or CRD_l of the level table (R296). -/
def Tensor.array (t : Tensor) (rd : Reader) (l : Nat) (crd : Bool) : Idx Nat :=
  readE rd (t.lvt + 16 * l + (if crd then 8 else 0)) 8

/-- Entry `q` of a level's position array (R297). -/
def Tensor.pos (t : Tensor) (rd : Reader) (l q : Nat) : Idx Nat :=
  let w := if t.pw = 1 then 8 else 4
  bindE (t.array rd l false) fun a => readE rd (a + w * q) w

/-- Entry `p` of a level's coordinate array (R297). -/
def Tensor.crd (t : Tensor) (rd : Reader) (l p : Nat) : Idx Nat :=
  bindE (t.array rd l true) fun a => readE rd (a + 4 * p) 4

/-- The index of position `p` in a block-2:4 level's groups (R297). -/
def Tensor.block (t : Tensor) (rd : Reader) (l p : Nat) : Idx Nat :=
  bindE (t.array rd l true) fun a => bindE (readE rd (a + 4 * (p / 16)) 4) fun w => pureE (bits w (2 * (p % 16) + 1) (2 * (p % 16)))

/-- Count over the first levels (R298). -/
def Tensor.countFrom (t : Tensor) (rd : Reader) : List Nat → Nat → Idx Nat
  | [], n => pureE n
  | l :: ls, n =>
    match t.f l with
    | 0 => t.countFrom rd ls (n * t.size l)
    | 1 => bindE (t.pos rd l n) fun m => t.countFrom rd ls m
    | 2 => t.countFrom rd ls n
    | _ => t.countFrom rd ls (n * t.size l / 2)

/-- Positions of the levels before `l`. -/
def Tensor.countTo (t : Tensor) (rd : Reader) (l : Nat) : Idx Nat := t.countFrom rd (List.range l) 1

/-- Count(h) (R298). -/
def Tensor.count (t : Tensor) (rd : Reader) : Idx Nat := t.countTo rd t.nlev

/-- Bisect for a parent `q` with POS_l[q] ≤ p < POS_l[q+1], given that it holds of the ends (R298). -/
def Tensor.bisect (t : Tensor) (rd : Reader) (l p : Nat) : Nat → Nat → Nat → Idx Nat
  | 0, lo, _ => pureE lo
  | k + 1, lo, hi =>
    if hi ≤ lo + 1 then pureE lo
    else
      let mid := (lo + hi) / 2
      bindE (t.pos rd l mid) fun x => if x ≤ p then t.bisect rd l p k mid hi else t.bisect rd l p k lo mid

/-- Whether the entries of a position array that can be read from `q` on do not decrease. -/
def Tensor.rises (t : Tensor) (rd : Reader) (l : Nat) : Nat → Nat → Nat → Bool
  | 0, _, _ => true
  | k + 1, q, last =>
    match t.pos rd l q with
    | .ok (x, _) => decide (last ≤ x) && t.rises rd l k (q + 1) x
    | .error _ => t.rises rd l k (q + 1) last

/-- The parent of a position of a compressed level (R298); where it is not unique, any (R299; log entry 17). -/
def Tensor.parent (t : Tensor) (rd : Reader) (steps l p : Nat) : Idx Nat :=
  bindE (t.countTo rd l) fun n => bindE (t.bisect rd l p 64 0 n) fun q =>
    if t.rises rd l (n + 1) 0 0 then pureE q
    else
      let k := Config.locate steps p % max n 1
      match t.pos rd l k, t.pos rd l (k + 1) with
      | .ok (a, _), .ok (b, _) => pureE (if a ≤ p ∧ p < b then k else q)
      | _, _ => pureE q

/-- Coords(h, p) over levels from the last inward (R298). -/
def Tensor.coordsFrom (t : Tensor) (rd : Reader) (steps : Nat) : Nat → Nat → Idx (List Nat)
  | 0, _ => pureE []
  | l + 1, p =>
    let put (q c : Nat) : Idx (List Nat) := bindE (t.coordsFrom rd steps l q) fun cs => pureE (cs ++ [c])
    match t.f l with
    | 0 => put (p / t.size l) (p % t.size l)
    | 1 => bindE (t.crd rd l p) fun c => bindE (t.parent rd steps l p) fun q => put q c
    | 2 => bindE (t.crd rd l p) fun c => put p c
    | _ =>
      let h := t.size l / 2
      bindE (t.block rd l p) fun x => put (p / h) (4 * (p % h / 2) + x)

/-- Coords(h, p) (R298). -/
def Tensor.coords (t : Tensor) (rd : Reader) (steps p : Nat) : Idx (List Nat) := t.coordsFrom rd steps t.nlev p

/-- What a level's part of a search finds: the positions, and whether the arrays on the way are well-formed. -/
structure Found where
  ps : List Nat
  ok : Bool

/-- Positions of `n` entries from `p` whose coordinate is `i`, and whether the coordinates ascend below D (strictly,
unless `rep`) (R297). -/
def Tensor.scan (t : Tensor) (rd : Reader) (l i : Nat) (rep : Bool) : Nat → Nat → Option Nat → Idx Found
  | 0, _, _ => pureE ⟨[], true⟩
  | n + 1, p, last =>
    bindE (t.crd rd l p) fun c => bindE (t.scan rd l i rep n (p + 1) (some c)) fun r =>
      let up := match last with | none => true | some b => decide (b < c) || (rep && b == c)
      pureE ⟨if c = i then p :: r.ps else r.ps, r.ok && up && decide (c < t.size l)⟩

/-- The coordinates that position `p` of level `l` and of the singleton levels after it hold, as far as they can be read. -/
def Tensor.tuple (t : Tensor) (rd : Reader) (l p : Nat) : List (Option Nat) :=
  ((l :: (List.range t.nlev).filter fun k => decide (l < k)).takeWhile fun k => k == l || t.f k == 2).map fun k =>
    match t.crd rd k p with
    | .ok (c, _) => some c
    | .error _ => none

/-- Whether the tuples of coordinates of `n` positions from `p` ascend, as far as they can be read (R297). -/
def Tensor.tuplesRise (t : Tensor) (rd : Reader) (l p n : Nat) : Bool :=
  (List.range (n - 1)).all fun k =>
    let a := t.tuple rd l (p + k)
    let b := t.tuple rd l (p + k + 1)
    a.contains none || b.contains none || !lexLt (b.filterMap id) (a.filterMap id)

/-- The children at coordinate `i` of one parent position at a level (R297, R298). -/
def Tensor.child (t : Tensor) (rd : Reader) (l i q : Nat) : Idx Found :=
  if t.size l ≤ i then pureE ⟨[], true⟩
  else
    match t.f l with
    | 0 => pureE ⟨[q * t.size l + i], true⟩
    | 1 =>
      let rep := t.f (l + 1) == 2 && decide (l + 1 < t.nlev)
      bindE (t.pos rd l q) fun lo => bindE (t.pos rd l (q + 1)) fun hi =>
        if hi < lo ∨ (rep = false ∧ t.size l < hi - lo) then pureE ⟨[], false⟩
        else bindE (t.scan rd l i rep (hi - lo) lo none) fun r => pureE { r with ok := r.ok && (!rep || t.tuplesRise rd l lo (hi - lo)) }
    | 2 => bindE (t.crd rd l q) fun c => pureE ⟨if c = i then [q] else [], decide (c < t.size l)⟩
    | _ =>
      let p := q * (t.size l / 2) + 2 * (i / 4)
      bindE (t.block rd l p) fun a => bindE (t.block rd l (p + 1)) fun b =>
        pureE ⟨if a = i % 4 then [p] else if b = i % 4 then [p + 1] else [], decide (a < b)⟩

/-- The children of several parents. -/
def Tensor.children (t : Tensor) (rd : Reader) (l i : Nat) : List Nat → Idx Found
  | [] => pureE ⟨[], true⟩
  | q :: qs => bindE (t.child rd l i q) fun x => bindE (t.children rd l i qs) fun y => pureE ⟨x.ps ++ y.ps, x.ok && y.ok⟩

/-- Search level by level for coordinates (R298). -/
def Tensor.search (t : Tensor) (rd : Reader) : Nat → List Nat → Found → Idx Found
  | _, [], r => pureE r
  | l, i :: is, r => bindE (t.children rd l i r.ps) fun x => t.search rd (l + 1) is ⟨x.ps, r.ok && x.ok⟩

/-- Locate(h, i) (R298): a position at or above Count is none. Where the arrays on the way are not well-formed it is NONE or any
position whose Coords are `i` (R299; log entry 17). -/
def Tensor.locate (t : Tensor) (rd : Reader) (steps lane : Nat) (is : List Nat) : Idx (Option Nat) :=
  bindE (t.search rd 0 is ⟨[0], true⟩) fun r =>
    let below := match r.ps.head?, t.count rd with
      | some p, .ok (n, _) => decide (p < n)
      | _, _ => true
    if r.ok && below then pureE r.ps.head?
    else
      let p := Config.locate steps lane
      match t.count rd, t.coords rd steps p with
      | .ok (n, _), .ok (cs, _) => pureE (if p < n ∧ cs = is then some p else none)
      | _, _ => pureE none

/-- The bad-handle trap (Table 12-7). -/
def handleTrap (reason num : Nat) : Trap := mkTrap 31 (reason + 16 * num)

/-- The poison-use trap of a poisoned word (R303, R304). -/
def wordPoison (va : Nat) : Trap := ⟨13, 0, BitVec.ofNat 64 va⟩

/-- Lanes' index results: those that have one, and those that do not (R301). -/
structure Indexed (α : Type) where
  ok : List (Nat × α)
  bad : List (Nat × IErr)
  reads : List (Nat × Nat)

/-- Make each lane's index reads. -/
def indexLanes (ls : List Nat) (f : Nat → Idx α) : Indexed α :=
  ls.foldr (fun l r => match f l with
    | .ok (x, rs) => { r with ok := (l, x) :: r.ok, reads := rs ++ r.reads }
    | .error e => { r with bad := (l, e) :: r.bad }) ⟨[], [], []⟩

/-- What index reads leave (R304): the translations they took, which set A (19 R378), and what reading the words does at their
home. -/
def State.indexed (s : State) (g : Group) (reads : List (Nat × Nat)) : State :=
  reads.foldl (fun (t : State) r =>
    match t.translate g.l g.ctx r.1 accIndex with
    | .ok (x, t1) => let pa := t1.mem.backing x false; if isControl pa then t1 else t1.touch pa r.2
    | .error _ => t) s

/-- What failing index reads come to (R301, R304): the access fault first, then the poison trap; a missing page parks
the group. -/
def indexFails (s : State) (e : Env) (bad : List (Nat × IErr)) : Option R :=
  let refused := bad.filterMap fun b => match b.2 with | .refused va f => some (b.1, va, f) | _ => none
  let poison := bad.filterMap fun b => match b.2 with | .poison va => some va | _ => none
  let missing := bad.filterMap fun b => match b.2 with | .missing va lv => some (b.1, va, lv) | _ => none
  match refused, poison, missing with
  | (l, va, f) :: rest, _, _ => some (.trap s (laneTrap f.cause 0 (failMask (l :: rest.map Prod.fst)) va))
  | [], va :: _, _ => some (.trap s (wordPoison va))
  | [], [], [] => none
  | [], [], ms => some (.wait (s.parkMissing e.g 0 (ms.map fun m => (m.1, m.2.2)) (ms.map fun m => (m.1, m.2.1))))

/-- Checks 1 and 4 of R301 for TLD, TST, TPOS and TNEXT: poison of the lane operands, the handle, the frame range of
the registers that NLEV makes it name. -/
def tensorChecks (e : Env) (hn : Nat) (t : Tensor) (poisoned named : List Nat) : Option Trap :=
  match e.g.poisonUse e.act poisoned with
  | some x => some x
  | none =>
    match t.bad with
    | some r => some (handleTrap r hn)
    | none => e.g.rangeTrap named

/-- The registers a coordinate base names. -/
def coordRegs (t : Tensor) (a : Nat) : List Nat := (List.range t.nlev).map (a + ·)

/-- The coordinates of a lane. -/
def laneCoords (f : Frame) (t : Tensor) (a l : Nat) : List Nat := (coordRegs t a).map fun r => (f.lane r l).toNat

/-- The position a lane names (R304): by coordinates, or by position below Count. -/
def lanePos (s : State) (e : Env) (t : Tensor) (byPos : Bool) (a l : Nat) : Idx (Option Nat) :=
  let rd := s.index e.g
  if byPos then
    let p := (e.g.frame.pair a l).toNat
    bindE (t.count rd) fun n => pureE (if p < n then some p else none)
  else t.locate rd s.steps l (laneCoords e.g.frame t a l)

/-- The address of the element a lane names (R304). -/
def elemVa (s : State) (e : Env) (o : T64) (l : Nat) : Nat :=
  let t := Tensor.of (e.g.frame.handle o.b.toNat)
  match lanePos s e t (o.ctl.getLsbD 4) o.a.toNat l with
  | .ok (some p, _) => t.vals + p * t.width
  | _ => 0

/-- An access for a tensor element, once its index reads are done: each found lane's location (R304). -/
def resolveElems (s : State) (e : Env) (o : T64) (acc : Access) : Except R (List (Nat × Loc) × State) :=
  match e.g.carried with
  | some xs => .ok (xs, s)
  | none =>
    let byPos := o.ctl.getLsbD 4
    let hn := o.b.toNat
    let a := o.a.toNat
    let t := Tensor.of (e.g.frame.handle hn)
    let regs := if byPos then [a, a + 1] else coordRegs t a
    if s.sideBusy e.g.uid || s.ownPosts e.g then .error (.wait s)
    else
      match tensorChecks e hn t regs (if byPos then [] else coordRegs t a) with
      | some x => .error (.trap s x)
      | none =>
        let r := indexLanes (lanesOf e.act) (lanePos s e t byPos a)
        match indexFails s e r.bad with
        | some x => .error x
        | none =>
          let found := r.ok.filterMap fun x => x.2.map fun p => (x.1, t.vals + p * t.width)
          let va (l : Nat) : Nat := ((found.find? fun x => x.1 == l).map Prod.snd).getD 0
          match resolveLanes (s.indexed e.g r.reads) e (acc.wide t.width) true (failMask (found.map Prod.fst)) va fun _ => none with
          | .out x => .error x
          | .go xs s1 => .ok (xs, s1)

/-- TLD (R304). -/
def execTld (o : T64) (s : State) := issue (.tld o) s fun s e =>
  let i : Instr := .tld o
  match resolveElems s e o accTld with
  | .error r => r
  | .ok (xs, s1) => partitioned s1 i e true xs (e.stay xs)
    (if s1.ownPosts e.g then .wait s1
     else
      let n := (Tensor.of (e.g.frame.handle o.b.toNat)).width
      match askPeers s1 e xs 0 (elemVa s1 e o) 0 n (fun _ => 0) (fun _ => 0) (fun _ => false) with
      | .error r => r
      | .ok (far, _, s2) =>
        let (got, s3) := s2.readLanes n (xs.filter fun x => x.2.peer.isNone)
        let res := got ++ far
        let f := e.g.frame.write e.g.active e.act o.d.toNat
          ⟨.g, fun l => BitVec.ofNat 32 (laneVal res l), laneBad res⟩
        plainDone s3 i { e.g with frame := f.writePred e.act o.c.toNat (failMask (xs.map Prod.fst)) } (xs.map fun x => x.2.pa))

/-- TST (R304). -/
def execTst (o : T64) (s : State) := issue (.tst o) s fun s e =>
  let i : Instr := .tst o
  match resolveElems s e o accTst with
  | .error r => r
  | .ok (xs, s1) => partitioned s1 i e true xs (e.stay xs)
    (if s1.ownPosts e.g then .wait s1
     else
      let n := (Tensor.of (e.g.frame.handle o.b.toNat)).width
      let f := e.g.frame
      let val (l : Nat) : Nat := (f.lane o.d.toNat l).toNat % 2 ^ (8 * n)
      let bad (l : Nat) : Bool := f.bad o.d.toNat l
      match askPeers s1 e xs 1 (elemVa s1 e o) 1 n val (fun _ => 0) bad with
      | .error r => r
      | .ok (_, _, s2) =>
        let s3 := s2.writeLanes (s.ctx e.g.ctx).pl n val bad (xs.filter fun x => x.2.peer.isNone)
        let g := e.g.pstore (failMask (xs.map Prod.fst)) bad
        plainDone s3 i { g with frame := f.writePred e.act o.c.toNat (failMask (xs.map Prod.fst)) } (xs.map fun x => x.2.pa))

/-- TNEXT (R304). -/
def execTnext (o : T64) (s : State) := issue (.tnext o) s fun s e =>
  let hn := o.b.toNat
  let t := Tensor.of (e.g.frame.handle hn)
  let a := o.a.toNat
  let rd := s.index e.g
  if s.sideBusy e.g.uid || s.ownPosts e.g then .wait s
  else
    match tensorChecks e hn t [a, a + 1] (coordRegs t o.d.toNat) with
    | some x => .trap s x
    | none =>
      let r := indexLanes (lanesOf e.act) fun l =>
        let p := (e.g.frame.pair a l).toNat
        bindE (t.count rd) fun n =>
          if p < n then bindE (t.coords rd s.steps p) fun cs => pureE (some cs) else pureE none
      match indexFails s e r.bad with
      | some x => x
      | none =>
        let hit (l : Nat) : Option (List Nat) := ((r.ok.find? fun x => x.1 == l).map Prod.snd).getD none
        let f := (List.range t.nlev).foldl (fun (f : Frame) j =>
          f.write e.g.active e.act (o.d.toNat + j)
            ⟨.g, fun l => match hit l with | some cs => BitVec.ofNat 32 (cs.getD j 0) | none => -1, fun _ => false⟩) e.g.frame
        memDone (s.indexed e.g r.reads) (.tnext o) { e.g with frame := f.writePred e.act o.c.toNat (maskOf fun l => (hit l).isSome) } []

/-- TPOS (R304). -/
def execTpos (o : T64) (s : State) := issue (.tpos o) s fun s e =>
  let hn := o.b.toNat
  let t := Tensor.of (e.g.frame.handle hn)
  let a := o.a.toNat
  if s.sideBusy e.g.uid || s.ownPosts e.g then .wait s
  else
    match tensorChecks e hn t (coordRegs t a) (coordRegs t a) with
    | some x => .trap s x
    | none =>
      let r := indexLanes (lanesOf e.act) (lanePos s e t false a)
      match indexFails s e r.bad with
      | some x => x
      | none =>
        let hit (l : Nat) : Option Nat := ((r.ok.find? fun x => x.1 == l).map Prod.snd).getD none
        let res := (lanesOf e.act).map fun l => (l, (hit l).getD (2 ^ 64 - 1), false)
        let f := e.g.frame.writeLoad e.g.active e.act o.d.toNat 3 .g (laneVal res) (laneBad res)
        memDone (s.indexed e.g r.reads) (.tpos o) { e.g with frame := f.writePred e.act o.c.toNat (maskOf fun l => (hit l).isSome) } []

/-- Replace bits `hi:lo` of a handle. -/
def setField (h : BitVec 256) (hi lo x : Nat) : BitVec 256 :=
  let m : BitVec 256 := BitVec.ofNat 256 (2 ^ (hi - lo + 1) - 1)
  (h &&& ~~~(m <<< lo)) ||| ((BitVec.ofNat 256 x &&& m) <<< lo)

/-- A handle with field `k` replaced by a word or by a pair's value (R302, Table 12-1). -/
def fieldSet (h : BitVec 256) (k x p : Nat) : BitVec 256 :=
  match k with
  | 0 => setField h 15 0 x
  | 1 => setField h 47 16 x
  | 2 => setField h 79 48 x
  | 3 => setField h 111 80 x
  | 4 => setField h 167 112 p
  | 5 => setField h 223 168 p
  | _ => 0

/-- Field `k` of a handle (R302, Table 12-1). -/
def fieldOf (h k : Nat) : Nat :=
  match k with
  | 0 => bits h 15 0
  | 1 => bits h 47 16
  | 2 => bits h 79 48
  | 3 => bits h 111 80
  | 4 => bits h 167 112
  | _ => bits h 223 168

/-- HSET (R302). -/
def execHset (o : T64) (s : State) := issue (.hset o) s fun s e =>
  let f := e.g.frame
  let k := (o.ctl.extractLsb' 0 4).toNat
  let l := lowLane e.act
  let a := o.a.toNat
  let x := (f.lane a l).toNat
  let p := (f.pair a l).toNat
  let h := f.handle o.d.toNat
  let wide := k == 4 || k == 5
  match e.g.poisonUse e.low (if k = 6 then [] else if wide then [a, a + 1] else [a]) with
  | some t => .trap s t
  | none =>
    if wide && decide (2 ^ 56 ≤ p) then .trap s (laneTrap 6 0 e.low p)
    else
      done s (.hset o) { e.g with frame := f.setHandle o.d.toNat (fieldSet h k x p) }

/-- HGET (R302). -/
def execHget (o : T64) (s : State) := issue (.hget o) s fun s e =>
  let k := (o.ctl.extractLsb' 0 4).toNat
  let x := fieldOf (e.g.frame.handle o.a.toNat).toNat k
  done s (.hget o) { e.g with
    frame := e.g.frame.writeLoad e.g.active e.act o.d.toNat (if k = 4 ∨ k = 5 then 3 else 2) .u (fun _ => x) fun _ => false }

/-- HLOAD (R303). -/
def execHload (o : T64) (s : State) := issue (.hload o) s fun s e =>
  let a := o.a.toNat
  let op : AddrOp := ⟨[a, a + 1], 32, fun l => (e.g.frame.pair a l).toNat⟩
  let va := op.va (lowLane e.act)
  if s.ownPosts e.g then .wait s
  else
    match resolveOne s e accHload true false op none with
    | .error r => r
    | .ok (x, s1) =>
      match askPeers s1 e [x] 0 op.va 0 32 (fun _ => 0) (fun _ => 0) (fun _ => false) with
      | .error r => r
      | .ok (far, _, s2) =>
        let (v, p, s3) := match far with
          | (_, v, p) :: _ => (v, p, s2)
          | [] => s2.readLoc x.2 32
        if p then .trap s3 (wordPoison va)
        else plainDone s3 (.hload o) { e.g with frame := e.g.frame.setHandle o.d.toNat (BitVec.ofNat 256 v) } [x.2.pa]

end Sys2Proof.Machine
end

