-- ==== Sys2Proof/Machine/Dispatch.lean ====
section
/-! DEFINITION. The meaning of each instruction and event, one arm for each. -/

namespace Sys2Proof.Machine

/-- Execute an instruction for the current group, or take an event. -/
def exec (i : Instr) (s : State) : Host.Outcome State Fault Refusal :=
  match i with
  | .c16Mov o => Sys2Proof.Machine.execC16Mov o s
  | .c16Add o => Sys2Proof.Machine.execC16Add o s
  | .c16Sub o => Sys2Proof.Machine.execC16Sub o s
  | .c16And o => Sys2Proof.Machine.execC16And o s
  | .c16Or o => Sys2Proof.Machine.execC16Or o s
  | .c16Xor o => Sys2Proof.Machine.execC16Xor o s
  | .c16Shli o => Sys2Proof.Machine.execC16Shli o s
  | .c16Shri o => Sys2Proof.Machine.execC16Shri o s
  | .c16Addi o => Sys2Proof.Machine.execC16Addi o s
  | .c16Movi o => Sys2Proof.Machine.execC16Movi o s
  | .c16Mul o => Sys2Proof.Machine.execC16Mul o s
  | .c16Fadd o => Sys2Proof.Machine.execC16Fadd o s
  | .c16Fsub o => Sys2Proof.Machine.execC16Fsub o s
  | .c16Fmul o => Sys2Proof.Machine.execC16Fmul o s
  | .c16Fmax o => Sys2Proof.Machine.execC16Fmax o s
  | .c16Fmin o => Sys2Proof.Machine.execC16Fmin o s
  | .add o => Sys2Proof.Machine.execAdd o s
  | .sub o => Sys2Proof.Machine.execSub o s
  | .mul o => Sys2Proof.Machine.execMul o s
  | .mulhi o => Sys2Proof.Machine.execMulhi o s
  | .mulhiz o => Sys2Proof.Machine.execMulhiz o s
  | .abs o => Sys2Proof.Machine.execAbs o s
  | .min o => Sys2Proof.Machine.execMin o s
  | .max o => Sys2Proof.Machine.execMax o s
  | .minz o => Sys2Proof.Machine.execMinz o s
  | .maxz o => Sys2Proof.Machine.execMaxz o s
  | .and o => Sys2Proof.Machine.execAnd o s
  | .or o => Sys2Proof.Machine.execOr o s
  | .xor o => Sys2Proof.Machine.execXor o s
  | .andn o => Sys2Proof.Machine.execAndn o s
  | .orn o => Sys2Proof.Machine.execOrn o s
  | .rotl o => Sys2Proof.Machine.execRotl o s
  | .shl o => Sys2Proof.Machine.execShl o s
  | .shr o => Sys2Proof.Machine.execShr o s
  | .sar o => Sys2Proof.Machine.execSar o s
  | .clz o => Sys2Proof.Machine.execClz o s
  | .ctz o => Sys2Proof.Machine.execCtz o s
  | .popc o => Sys2Proof.Machine.execPopc o s
  | .brev o => Sys2Proof.Machine.execBrev o s
  | .bpick o => Sys2Proof.Machine.execBpick o s
  | .bfx o => Sys2Proof.Machine.execBfx o s
  | .bfxs o => Sys2Proof.Machine.execBfxs o s
  | .bfi o => Sys2Proof.Machine.execBfi o s
  | .sel o => Sys2Proof.Machine.execSel o s
  | .add64 o => Sys2Proof.Machine.execAdd64 o s
  | .sub64 o => Sys2Proof.Machine.execSub64 o s
  | .mov o => Sys2Proof.Machine.execMov o s
  | .actmask o => Sys2Proof.Machine.execActmask o s
  | .cmp o => Sys2Proof.Machine.execCmp o s
  | .fadd o => Sys2Proof.Machine.execFadd o s
  | .fsub o => Sys2Proof.Machine.execFsub o s
  | .fmul o => Sys2Proof.Machine.execFmul o s
  | .fmin o => Sys2Proof.Machine.execFmin o s
  | .fmax o => Sys2Proof.Machine.execFmax o s
  | .fsat o => Sys2Proof.Machine.execFsat o s
  | .fscale o => Sys2Proof.Machine.execFscale o s
  | .fgetexp o => Sys2Proof.Machine.execFgetexp o s
  | .fcmp o => Sys2Proof.Machine.execFcmp o s
  | .pand o => Sys2Proof.Machine.execPand o s
  | .por o => Sys2Proof.Machine.execPor o s
  | .pxor o => Sys2Proof.Machine.execPxor o s
  | .pandn o => Sys2Proof.Machine.execPandn o s
  | .pnot o => Sys2Proof.Machine.execPnot o s
  | .pmov o => Sys2Proof.Machine.execPmov o s
  | .ptov o => Sys2Proof.Machine.execPtov o s
  | .vtop o => Sys2Proof.Machine.execVtop o s
  | .xlaneGet o => Sys2Proof.Machine.execXlaneGet o s
  | .xlaneRot o => Sys2Proof.Machine.execXlaneRot o s
  | .xlaneFlip o => Sys2Proof.Machine.execXlaneFlip o s
  | .xlaneShift o => Sys2Proof.Machine.execXlaneShift o s
  | .pcount o => Sys2Proof.Machine.execPcount o s
  | .pmask o => Sys2Proof.Machine.execPmask o s
  | .pfirst o => Sys2Proof.Machine.execPfirst o s
  | .vrank o => Sys2Proof.Machine.execVrank o s
  | .pkadd o => Sys2Proof.Machine.execPkadd o s
  | .pkmul o => Sys2Proof.Machine.execPkmul o s
  | .pkmax o => Sys2Proof.Machine.execPkmax o s
  | .pkmin o => Sys2Proof.Machine.execPkmin o s
  | .addi o => Sys2Proof.Machine.execAddi o s
  | .andi o => Sys2Proof.Machine.execAndi o s
  | .ori o => Sys2Proof.Machine.execOri o s
  | .xori o => Sys2Proof.Machine.execXori o s
  | .shli o => Sys2Proof.Machine.execShli o s
  | .shri o => Sys2Proof.Machine.execShri o s
  | .sari o => Sys2Proof.Machine.execSari o s
  | .rotli o => Sys2Proof.Machine.execRotli o s
  | .muli o => Sys2Proof.Machine.execMuli o s
  | .cmpi o => Sys2Proof.Machine.execCmpi o s
  | .movi o => Sys2Proof.Machine.execMovi o s
  | .bra o => Sys2Proof.Machine.execBra o s
  | .laneid o => Sys2Proof.Machine.execLaneid o s
  | .grprank o => Sys2Proof.Machine.execGrprank o s
  | .teamid o => Sys2Proof.Machine.execTeamid o s
  | .ftime o => Sys2Proof.Machine.execFtime o s
  | .poisonq o => Sys2Proof.Machine.execPoisonq o s
  | .formq o => Sys2Proof.Machine.execFormq o s
  | .nop o => Sys2Proof.Machine.execNop o s
  | .yield o => Sys2Proof.Machine.execYield o s
  | .ret o => Sys2Proof.Machine.execRet o s
  | .exit o => Sys2Proof.Machine.execExit o s
  | .brx o => Sys2Proof.Machine.execBrx o s
  | .callx o => Sys2Proof.Machine.execCallx o s
  | .join o => Sys2Proof.Machine.execJoin o s
  | .wsync o => Sys2Proof.Machine.execWsync o s
  | .pin o => Sys2Proof.Machine.execPin o s
  | .unpin o => Sys2Proof.Machine.execUnpin o s
  | .trap o => Sys2Proof.Machine.execTrap o s
  | .syscall o => Sys2Proof.Machine.execSyscall o s
  | .redux o => Sys2Proof.Machine.execRedux o s
  | .ffma o => Sys2Proof.Machine.execFfma o s
  | .dfma o => Sys2Proof.Machine.execDfma o s
  | .pkfmaF16 o => Sys2Proof.Machine.execPkfmaF16 o s
  | .pkfmaBf16 o => Sys2Proof.Machine.execPkfmaBf16 o s
  | .mad o => Sys2Proof.Machine.execMad o s
  | .madw o => Sys2Proof.Machine.execMadw o s
  | .dot4 o => Sys2Proof.Machine.execDot4 o s
  | .dot4z o => Sys2Proof.Machine.execDot4z o s
  | .dot2bf o => Sys2Proof.Machine.execDot2bf o s
  | .fdiv o => Sys2Proof.Machine.execFdiv o s
  | .fsqrt o => Sys2Proof.Machine.execFsqrt o s
  | .frcp o => Sys2Proof.Machine.execFrcp o s
  | .frsq o => Sys2Proof.Machine.execFrsq o s
  | .fexp2 o => Sys2Proof.Machine.execFexp2 o s
  | .flog2 o => Sys2Proof.Machine.execFlog2 o s
  | .fsin o => Sys2Proof.Machine.execFsin o s
  | .fcos o => Sys2Proof.Machine.execFcos o s
  | .frnd o => Sys2Proof.Machine.execFrnd o s
  | .fclass o => Sys2Proof.Machine.execFclass o s
  | .ddiv o => Sys2Proof.Machine.execDdiv o s
  | .dsqrt o => Sys2Proof.Machine.execDsqrt o s
  | .dadd o => Sys2Proof.Machine.execDadd o s
  | .dsub o => Sys2Proof.Machine.execDsub o s
  | .dmul o => Sys2Proof.Machine.execDmul o s
  | .dmin o => Sys2Proof.Machine.execDmin o s
  | .dmax o => Sys2Proof.Machine.execDmax o s
  | .dcmp o => Sys2Proof.Machine.execDcmp o s
  | .div o => Sys2Proof.Machine.execDiv o s
  | .divz o => Sys2Proof.Machine.execDivz o s
  | .rem o => Sys2Proof.Machine.execRem o s
  | .remz o => Sys2Proof.Machine.execRemz o s
  | .cvtF2f o => Sys2Proof.Machine.execCvtF2f o s
  | .cvtF2i o => Sys2Proof.Machine.execCvtF2i o s
  | .cvtI2f o => Sys2Proof.Machine.execCvtI2f o s
  | .cvtNarrow o => Sys2Proof.Machine.execCvtNarrow o s
  | .cvtWiden o => Sys2Proof.Machine.execCvtWiden o s
  | .packmx o => Sys2Proof.Machine.execPackmx o s
  | .planeSplit o => Sys2Proof.Machine.execPlaneSplit o s
  | .planeJoin o => Sys2Proof.Machine.execPlaneJoin o s
  | .rngCb o => Sys2Proof.Machine.execRngCb o s
  | .movi32 o => Sys2Proof.Machine.execMovi32 o s
  | .addi32 o => Sys2Proof.Machine.execAddi32 o s
  | .call o => Sys2Proof.Machine.execCall o s
  | .brl o => Sys2Proof.Machine.execBrl o s
  | .enter o => Sys2Proof.Machine.execEnter o s
  | .ld o => Sys2Proof.Machine.execLd o s
  | .ldL o => Sys2Proof.Machine.execLdL o s
  | .st o => Sys2Proof.Machine.execSt o s
  | .stP o => Sys2Proof.Machine.execStP o s
  | .atom o => Sys2Proof.Machine.execAtom o s
  | .atomCas o => Sys2Proof.Machine.execAtomCas o s
  | .redP o => Sys2Proof.Machine.execRedP o s
  | .redK o => Sys2Proof.Machine.execRedK o s
  | .redclose o => Sys2Proof.Machine.execRedclose o s
  | .fence o => Sys2Proof.Machine.execFence o s
  | .barInit o => Sys2Proof.Machine.execBarInit o s
  | .barArrive o => Sys2Proof.Machine.execBarArrive o s
  | .barWait o => Sys2Proof.Machine.execBarWait o s
  | .barSync o => Sys2Proof.Machine.execBarSync o s
  | .cwait o => Sys2Proof.Machine.execCwait o s
  | .migrate o => Sys2Proof.Machine.execMigrate o s
  | .park o => Sys2Proof.Machine.execPark o s
  | .wake o => Sys2Proof.Machine.execWake o s
  | .qpush o => Sys2Proof.Machine.execQpush o s
  | .qpop o => Sys2Proof.Machine.execQpop o s
  | .copy o => Sys2Proof.Machine.execCopy o s
  | .copyS o => Sys2Proof.Machine.execCopyS o s
  | .twait o => Sys2Proof.Machine.execTwait o s
  | .tpoll o => Sys2Proof.Machine.execTpoll o s
  | .cfill o => Sys2Proof.Machine.execCfill o s
  | .publish o => Sys2Proof.Machine.execPublish o s
  | .hset o => Sys2Proof.Machine.execHset o s
  | .hget o => Sys2Proof.Machine.execHget o s
  | .hload o => Sys2Proof.Machine.execHload o s
  | .tld o => Sys2Proof.Machine.execTld o s
  | .tst o => Sys2Proof.Machine.execTst o s
  | .tnext o => Sys2Proof.Machine.execTnext o s
  | .tpos o => Sys2Proof.Machine.execTpos o s
  | .mgopen o => Sys2Proof.Machine.execMgopen o s
  | .mgpush o => Sys2Proof.Machine.execMgpush o s
  | .mgseal o => Sys2Proof.Machine.execMgseal o s
  | .mgwait o => Sys2Proof.Machine.execMgwait o s
  | .mgstat o => Sys2Proof.Machine.execMgstat o s
  | .mgstatK o => Sys2Proof.Machine.execMgstatK o s
  | .mgresume o => Sys2Proof.Machine.execMgresume o s
  | .mgclose o => Sys2Proof.Machine.execMgclose o s
  | .mclaim o => Sys2Proof.Machine.execMclaim o s
  | .mrelease o => Sys2Proof.Machine.execMrelease o s
  | .mloadb o => Sys2Proof.Machine.execMloadb o s
  | .mloads o => Sys2Proof.Machine.execMloads o s
  | .mzero o => Sys2Proof.Machine.execMzero o s
  | .mma o => Sys2Proof.Machine.execMma o s
  | .mloop o => Sys2Proof.Machine.execMloop o s
  | .mbatch o => Sys2Proof.Machine.execMbatch o s
  | .msparse o => Sys2Proof.Machine.execMsparse o s
  | .mwait o => Sys2Proof.Machine.execMwait o s
  | .mread o => Sys2Proof.Machine.execMread o s
  | .mstore o => Sys2Proof.Machine.execMstore o s
  | .mstat o => Sys2Proof.Machine.execMstat o s
  | .mprog o => Sys2Proof.Machine.execMprog o s
  | .mfs o => Sys2Proof.Machine.execMfs o s
  | .mts o => Sys2Proof.Machine.execMts o s
  | .rte o => Sys2Proof.Machine.execRte o s
  | .rdprev o => Sys2Proof.Machine.execRdprev o s
  | .rdprevP o => Sys2Proof.Machine.execRdprevP o s
  | .wrprev o => Sys2Proof.Machine.execWrprev o s
  | .wrprevP o => Sys2Proof.Machine.execWrprevP o s
  | .replay o => Sys2Proof.Machine.execReplay o s
  | .replayPage o => Sys2Proof.Machine.execReplayPage o s
  | .tlbinvPage o => Sys2Proof.Machine.execTlbinvPage o s
  | .tlbinvCtx o => Sys2Proof.Machine.execTlbinvCtx o s
  | .tlbinvAll o => Sys2Proof.Machine.execTlbinvAll o s
  | .parkctx o => Sys2Proof.Machine.execParkctx o s
  | .wakectx o => Sys2Proof.Machine.execWakectx o s
  | .wakectxGrp o => Sys2Proof.Machine.execWakectxGrp o s
  | .idle o => Sys2Proof.Machine.execIdle o s
  | .fsinx o => Sys2Proof.Machine.execFsinx o s
  | .fcosx o => Sys2Proof.Machine.execFcosx o s
  | .crossingArrival src dst => Sys2Proof.Machine.execCrossingArrival src dst s
  | .berthRelease l core berth => Sys2Proof.Machine.execBerthRelease l core berth s
  | .admission l => Sys2Proof.Machine.execAdmission l s
  | .overflowReturn l => Sys2Proof.Machine.execOverflowReturn l s
  | .wharfPromotion l uid => Sys2Proof.Machine.execWharfPromotion l uid s
  | .arrival src dst => Sys2Proof.Machine.execArrival src dst s
  | .exitNotice src dst => Sys2Proof.Machine.execExitNotice src dst s
  | .liveRankChange src dst => Sys2Proof.Machine.execLiveRankChange src dst s
  | .postedStoreApply src dst => Sys2Proof.Machine.execPostedStoreApply src dst s
  | .reductionApply src dst => Sys2Proof.Machine.execReductionApply src dst s
  | .keyedBufferEntry src dst => Sys2Proof.Machine.execKeyedBufferEntry src dst s
  | .flip src dst => Sys2Proof.Machine.execFlip src dst s
  | .closeCommand l => Sys2Proof.Machine.execCloseCommand l s
  | .tideSample scope l => Sys2Proof.Machine.execTideSample scope l s
  | .tideAdoption scope l => Sys2Proof.Machine.execTideAdoption scope l s
  | .copyLine id k => Sys2Proof.Machine.execCopyLine id k s
  | .windowSpill uid => Sys2Proof.Machine.execWindowSpill uid s
  | .refill uid => Sys2Proof.Machine.execRefill uid s
  | .parkCommand ctxid l => Sys2Proof.Machine.execParkCommand ctxid l s
  | .drainMarker src dst => Sys2Proof.Machine.execDrainMarker src dst s
  | .parkReport ctxid l => Sys2Proof.Machine.execParkReport ctxid l s
  | .claimNarrowing l core => Sys2Proof.Machine.execClaimNarrowing l core s
  | .claimRestore ctxid l core => Sys2Proof.Machine.execClaimRestore ctxid l core s
  | .claimEnd l core => Sys2Proof.Machine.execClaimEnd l core s
  | .matrixCommandExecution l core => Sys2Proof.Machine.execMatrixCommandExecution l core s
  | .mergeSpill l => Sys2Proof.Machine.execMergeSpill l s
  | .rowCommit l slot => Sys2Proof.Machine.execRowCommit l slot s
  | .launchRecord w => Sys2Proof.Machine.execLaunchRecord w s
  | .teamPlacement l => Sys2Proof.Machine.execTeamPlacement l s
  | .launchCompletion ctxid tag => Sys2Proof.Machine.execLaunchCompletion ctxid tag s
  | .queueRegisterWrite w => Sys2Proof.Machine.execQueueRegisterWrite w s
  | .append w => Sys2Proof.Machine.execAppend w s
  | .hostCxlMemRead r => Sys2Proof.Machine.execHostCxlMemRead r s
  | .hostCxlMemWrite w => Sys2Proof.Machine.execHostCxlMemWrite w s
  | .cxlIoAccess x => Sys2Proof.Machine.execCxlIoAccess x s
  | .linkItemArrival x => Sys2Proof.Machine.execLinkItemArrival x s
  | .routeChange up => Sys2Proof.Machine.execRouteChange up s
  | .pageMove l => Sys2Proof.Machine.execPageMove l s
  | .fqheadWrite l value => Sys2Proof.Machine.execFqheadWrite l value s
  | .parityFailure x => Sys2Proof.Machine.execParityFailure x s
  | .repairSwap l bus group => Sys2Proof.Machine.execRepairSwap l bus group s
  | .init l => Sys2Proof.Machine.execInit l s
  | .initComplete l => Sys2Proof.Machine.execInitComplete l s
  | .testMode l bus => Sys2Proof.Machine.execTestMode l bus s
  | .go l bus phys => Sys2Proof.Machine.execGo l bus phys s
  | .testComplete l bus ones => Sys2Proof.Machine.execTestComplete l bus ones s
  | .logclr l link => Sys2Proof.Machine.execLogclr l link s
  | .moduleReset => Sys2Proof.Machine.execModuleReset s
  | .watchdog => Sys2Proof.Machine.execWatchdog s
  | .recovery len => Sys2Proof.Machine.execRecovery len s
  | .getVersion q => Sys2Proof.Machine.execGetVersion q s
  | .getCapabilities q => Sys2Proof.Machine.execGetCapabilities q s
  | .negotiateAlgorithms q => Sys2Proof.Machine.execNegotiateAlgorithms q s
  | .getDigests q => Sys2Proof.Machine.execGetDigests q s
  | .getCertificate q => Sys2Proof.Machine.execGetCertificate q s
  | .challenge q => Sys2Proof.Machine.execChallenge q s
  | .getMeasurements q => Sys2Proof.Machine.execGetMeasurements q s
  | .keyExchange q => Sys2Proof.Machine.execKeyExchange q s
  | .finish q => Sys2Proof.Machine.execFinish q s
  | .idleCompletion uid => Sys2Proof.Machine.execIdleCompletion uid s
  | .registerWrite w => Sys2Proof.Machine.execRegisterWrite w s
  | .illegalInstruction x => Sys2Proof.Machine.execIllegalInstruction x s
  | .hostPortTraining width rate => Sys2Proof.Machine.execHostPortTraining width rate s

end Sys2Proof.Machine
end

