-- ==== Sys2Proof/Machine/Turns.lean ====
section
/-! DEFINITION. Turns: which group or event may go next and the choice among them, the fetch of the current group's
instruction, the passing of FT, and how code comes to be placed (log entries 1, 4, 5). -/

namespace Sys2Proof.Machine

/-- What the current group's turn comes to before its instruction executes. -/
inductive Turn where
  /-- No group is current, or it waits. -/
  | idle
  /-- A pending trap was taken, its control block was read, or the fetch faulted. -/
  | settled (s : State)
  | instr (i : Instr) (s : State)
  /-- The encoding is no instruction. -/
  | bad (b : BadEncoding) (s : State)

/-- The lowest sub-code that applies to an ENTER whose reserved bits 25:14 are not zero (06 R159): 2 when the manifest table it
names is not aligned as well. -/
def Group.enterFirst (g : Group) (n w : Nat) (b : BadEncoding) : BadEncoding :=
  match b.sub, decodeWord n (BitVec.ofNat 64 (w - w / 2 ^ 14 % 2 ^ 12 * 2 ^ 14)) with
  | 3, .ok (.enter o) => if o.off != 0 && (directTarget g (o.off.signExtend 64) &&& 0xF) != 0 then { b with sub := 2 } else b
  | _, _ => b

/-- Fetch and decode the instruction at a group's pc (06 R145, R146, R159, R162). -/
def State.fetchInstr (s : State) (g : Group) : Turn :=
  match s.fetch g 1 g.pc.toNat with
  | .error (va, e) => .settled (s.fetchFault g va e)
  | .ok (h, s1) =>
    let n := lengthOf (BitVec.ofNat 16 h)
    match s1.fetch g (n / 2 - 1) ((g.pc.toNat + 2) % 2 ^ 64) with
    | .error (va, e) => .settled (s.fetchFault g va e)
    | .ok (x, s2) =>
      match decodeWord n (BitVec.ofNat 64 (h + 65536 * x)) with
      | .error b => .bad (g.enterFirst n (h + 65536 * x) b) s2
      | .ok i =>
        if i.major ≥ 56 && n == 8 && !s.boot.mapped.contains i.major then .bad ⟨5, i.major, 3⟩ s2 else .instr i s2

/-- A group may take a turn: it waits on nothing, and its context runs at its landing, or its instruction has begun and a
context park waits for it (17 R363). -/
def State.canIssue (s : State) (g : Group) : Bool := g.ready && ((s.ctx g.ctx).runsAt g.l || g.busy)

/-- The current group's turn. -/
def State.fetchTurn (s : State) : Turn :=
  match s.curGroup with
  | none => .idle
  | some g =>
    if s.canIssue g then
      if g.block != .none then .settled (s.readTop g)
      else
        match g.pend with
        | some t => .settled (s.takeTrap g t)
        | none => s.fetchInstr g
    else .idle

/-- What an event does: the meaning of its row. -/
def Event.run (e : Event) (s : State) : Host.Outcome State Fault Refusal :=
  match e with
  | .outside i => exec i s
  | .crossingArrival src dst => execCrossingArrival src dst s
  | .berthRelease l core berth => execBerthRelease l core berth s
  | .admission l => execAdmission l s
  | .overflowReturn l => execOverflowReturn l s
  | .wharfPromotion l uid => execWharfPromotion l uid s
  | .arrival src dst => execArrival src dst s
  | .exitNotice src dst => execExitNotice src dst s
  | .liveRankChange src dst => execLiveRankChange src dst s
  | .postedStoreApply src dst => execPostedStoreApply src dst s
  | .reductionApply src dst => execReductionApply src dst s
  | .keyedBufferEntry src dst => execKeyedBufferEntry src dst s
  | .flip src dst => execFlip src dst s
  | .closeCommand l => execCloseCommand l s
  | .tideSample scope l => execTideSample scope l s
  | .tideAdoption scope l => execTideAdoption scope l s
  | .copyLine id k => execCopyLine id k s
  | .windowSpill uid => execWindowSpill uid s
  | .refill uid => execRefill uid s
  | .parkCommand ctxid l => execParkCommand ctxid l s
  | .drainMarker src dst => execDrainMarker src dst s
  | .parkReport ctxid l => execParkReport ctxid l s
  | .claimNarrowing l core => execClaimNarrowing l core s
  | .claimRestore ctxid l core => execClaimRestore ctxid l core s
  | .claimEnd l core => execClaimEnd l core s
  | .matrixCommandExecution l core => execMatrixCommandExecution l core s
  | .mergeSpill l => execMergeSpill l s
  | .rowCommit l slot => execRowCommit l slot s
  | .teamPlacement l => execTeamPlacement l s
  | .launchCompletion ctxid tag => execLaunchCompletion ctxid tag s
  | .pageMove l => execPageMove l s
  | .repairSwap l bus group => execRepairSwap l bus group s
  | .initComplete l => execInitComplete l s
  | .testComplete l bus ones => execTestComplete l bus ones s
  | .idleCompletion uid => execIdleCompletion uid s
  | .watchdog => execWatchdog s
  | .moduleReset => execModuleReset s

/-- The rows that come from outside the module, or that only something outside it brings about. -/
def fromOutside (i : Instr) : Bool :=
  match i with
  | .launchRecord _ => true
  | .queueRegisterWrite _ => true
  | .append _ => true
  | .hostCxlMemRead _ => true
  | .hostCxlMemWrite _ => true
  | .cxlIoAccess _ => true
  | .linkItemArrival _ => true
  | .routeChange _ => true
  | .fqheadWrite _ _ => true
  | .parityFailure _ => true
  | .init _ => true
  | .testMode _ _ => true
  | .go _ _ _ => true
  | .logclr _ _ => true
  | .moduleReset => true
  | .recovery _ => true
  | .getVersion _ => true
  | .getCapabilities _ => true
  | .negotiateAlgorithms _ => true
  | .getDigests _ => true
  | .getCertificate _ => true
  | .challenge _ => true
  | .getMeasurements _ => true
  | .keyExchange _ => true
  | .finish _ => true
  | .registerWrite _ => true
  | .hostPortTraining _ _ => true
  | _ => false

/-- A list of an event when it is due. -/
def due (b : Bool) (e : Event) : List Event := if b then [e] else []

/-- What a pair can deliver (05 R128): a joining context once FT has passed that of its crossing (01 R17). A request of a peer
module is served without an event of its own (log entry 78). -/
def State.pairEvents (s : State) (p : (Nat × Nat) × List Item) : List Event :=
  let (src, dst) := p.1
  match p.2 with
  | [] => []
  | .crossing _ :: _ => [.crossingArrival src dst]
  | .arrival a :: _ => due (decide (a.g.lastFT < s.ftAt dst)) (.arrival src dst)
  | .request .. :: _ => []
  | .exit .. :: _ => [.exitNotice src dst]
  | .live .. :: _ => [.liveRankChange src dst]
  | .marker _ :: _ => [.drainMarker src dst]
  | .post q :: _ =>
    match q.op with
    | .store => [.postedStoreApply src dst]
    | .reduce _ => [.reductionApply src dst]
    | .keyed _ => due q.token.isNone (.keyedBufferEntry src dst)
    | .flip => [.flip src dst]

/-- What a merge network can do. -/
def mergeEvents (l : Nat) (m : MergeNet) : List Event :=
  due m.full (.mergeSpill l) ++ due ((m.closes.head?.map fun c => c.token.isNone).getD false) (.closeCommand l) ++
    (List.range 8).flatMap fun k =>
      match m.slots.getD k none with
      | none => []
      | some x => due (x.token.isNone && (x.ending != 0 || x.state == 2 || x.finishes)) (.rowCommit l k)

/-- The swaps that are due on a bus (21 R407). -/
def busSwaps (l b : Nat) (x : Bus) : List Event :=
  (List.range 16).flatMap fun g => due ((x.groups.getD g RepairGroup.reset).trk.cnt == 3) (.repairSwap l b g)

/-- What a landing's memory RAS can do; what a test drives at the receiving ends is free (21 R412; log entry 27). -/
def rasEvents (steps l : Nat) (r : Ras) : List Event :=
  due r.busy (.initComplete l) ++ (List.range 16).flatMap fun b =>
    let x := r.buses.getD b Bus.reset
    due x.busy (.testComplete l b ((List.range 2176).filter (Config.coin (steps + b)))) ++ busSwaps l b x

/-- The tide samples and adoptions that are due at a landing (05 R133). -/
def State.tideEvents (s : State) (l : Nat) : List Event :=
  [TideScope.landing, .module, .system].flatMap fun sc =>
    due (s.sampleDue sc l) (.tideSample sc l) ++ due (s.adoption sc l).isSome (.tideAdoption sc l)

/-- What a landing can do. -/
def State.landingEvents (s : State) (l : Nat) : List Event :=
  let x := s.landing l
  due (s.nextAdmitted l).isSome (.admission l) ++
    due (decide (x.occupied < returnBelow) && (s.oldestOverflow l).isSome) (.overflowReturn l) ++
    (x.wharf.filter fun w => !w.promoted && s.promotable l w).map (fun w => .wharfPromotion l w.g.uid) ++
    mergeEvents l x.mn ++ s.tideEvents l ++ due (!x.hold && !x.pending.isEmpty) (.teamPlacement l) ++
    due (x.pm.stat.getLsbD 0) (.pageMove l) ++ rasEvents s.steps l x.ras ++
    s.ctxs.flatMap fun c => if c.state = 3 then due (s.parkReady c l) (.parkCommand c.id l) ++ due (s.reportReady c l) (.parkReport c.id l) else []

/-- What the WSE and the end of an IDLE can do for a group. -/
def State.groupEvents (s : State) (g : Group) : List Event :=
  due g.spills (.windowSpill g.uid) ++
    due (g.wait == .none && g.wse == .refill) (.refill g.uid) ++ due (s.idleOver g) (.idleCompletion g.uid)

/-- What a matrix unit can do (10 R265, R266, R270). -/
def State.unitEvents (s : State) (u : MUnit) : List Event :=
  due (s.claimEnds u) (.claimEnd u.l u.core) ++ due (s.narrowable u) (.claimNarrowing u.l u.core) ++
    due ((u.queue.head?.map fun c => !c.op.isRelease).getD false) (.matrixCommandExecution u.l u.core)

/-- Every event of the machine that can happen now. -/
def State.enabled (s : State) : List Event :=
  s.pairs.flatMap s.pairEvents ++ s.ghosts.map (fun k => .berthRelease k.1 k.2.1 k.2.2) ++
    (List.range 64).flatMap s.landingEvents ++ s.groups.flatMap s.groupEvents ++ s.units.flatMap s.unitEvents ++
    (s.saved.filter fun c => (s.ctx c.ctx).state == 2).map (fun c => .claimRestore c.ctx c.l c.core) ++
    (s.copies.flatMap fun c => ((List.range c.pieces.length).filter (s.pieceReady c)).map fun k => .copyLine c.id k) ++
    (s.launches.filter s.launchEnds).map (fun x => .launchCompletion x.ctx (x.tag.getD 0)) ++
    due s.boot.starting .watchdog

/-- Groups that may issue: one that yielded lets those it waits for go first, unless it has waited 48 cycles (02 R44, 07 R187). -/
def State.issuers (s : State) : List Nat :=
  (s.groups.filter fun g => s.canIssue g && (Config.coin s.steps g.uid || !g.hold.any fun u =>
    s.groups.any fun h => h.uid == u && s.canIssue h)).map Group.uid

/-- A group takes the turn: no group waits for it any more, and it for none. -/
def State.giveTurn (s : State) (uid : Nat) : State :=
  { s with cur := uid, groups := s.groups.map fun g => if g.uid = uid then { g with hold := [] } else { g with hold := g.hold.filter (· != uid) } }

/-- The tide samples and adoptions that are due. -/
def State.tidesDue (s : State) : List Event := (List.range 64).flatMap s.tideEvents

/-- The swaps that are due (21 R407). -/
def State.swapsDue (s : State) : List Event :=
  (List.range 64).flatMap fun l => (List.range 16).flatMap fun b =>
    busSwaps l b ((s.landing l).ras.buses.getD b Bus.reset)

/-- What goes before everything else: a swap that is due, which takes effect before another transfer issues (21 R407), and a tide
sample or adoption that is due. -/
def State.firstDue (s : State) : List Event := s.swapsDue ++ s.tidesDue

/-- Choose the next turn (log entry 4): a swap, or a tide sample or adoption that is due, so that no landing issues at an FT whose
tide it has not adopted (05 R134); else an input from outside, an event that can happen, or a group that may issue. -/
def State.choose (s : State) : State :=
  let ts := s.firstDue
  let es := if ts.isEmpty then s.enabled else ts
  let gs := if ts.isEmpty then s.issuers else []
  let k := Config.schedule s.steps % (es.length + gs.length + (if ts.isEmpty then 1 else 0))
  match es[k]? with
  | some e => { s with event := some e }
  | none =>
    match gs[k - es.length]? with
    | some u => { s.giveTurn u with event := none }
    | none =>
      match s.inputs with
      | i :: rest => { s with inputs := rest, event := if fromOutside i then some (.outside i) else none }
      | [] => { s with event := none }

/-- A sample or an adoption is due somewhere: FT does not pass it. -/
def State.tideDue (s : State) : Bool := !s.tidesDue.isEmpty

/-- FT passes (01 R16; log entry 5): each landing's FT goes on by at most one tick, and none stands more than two ahead of the
base. -/
def State.passTime (s : State) : State :=
  if s.tideDue then { s with landings := s.landings.map fun (x : Landing) => { x with skew := min 2 x.skew } }
  else
    let ft := s.ft + Config.tick s.steps % 2
    { s with
      ft := ft
      landings := s.landings.mapIdx fun l (x : Landing) =>
        { x with skew := min (ft + 2) (max ft (s.ft + x.skew + Config.skew s.steps l % 2)) - ft } }

/-- Waits on memory see what it holds now (05 R131; 09 R240; 20 R397): CWAITs and start conditions. -/
def State.observe (s : State) : State :=
  { s with
    groups := s.groups.map fun g => if g.watch.isEmpty then g else { g with satisfied := g.satisfied ||| s.reached g.watch }
    landings := s.landings.map fun (x : Landing) => { x with
      pending := x.pending.map fun (p : Launch) => match p.watch with
        | some x => if p.afterVal ≤ (s.seen 8 x).1 then { p with started := true } else p
        | none => p } }

/-- The landings that hold images for a pool post what they can of them (17 R361). -/
def State.postAll (s : State) : State :=
  (List.range 64).foldl (fun (t : State) l => if (t.landing l).poolWait.isEmpty then t else t.postHeld l) s

/-- The uncorrectable transfers of the step are over (21 R406): the words a write transferred are marked poisoned, and no later
transfer of the blocks meets the failure. -/
def State.settleTransfers (s : State) : State :=
  let sp := s.landings.flatMap fun (x : Landing) => x.ras.spent
  if sp.isEmpty then s
  else
    let blocks (w : Bool) : List Nat := (sp.filter fun x => x.2 == w).map fun x => x.1 / 8
    { s with
      mem := { s.mem with
        poison := ((sp.filter Prod.snd).map Prod.fst).foldl natInsert s.mem.poison
        failR := s.mem.failR.filter fun x => !(blocks false).contains (x / 8)
        failW := s.mem.failW.filter fun x => !(blocks true).contains (x / 8) }
      landings := s.landings.map fun (x : Landing) => { x with ras := { x.ras with spent := [] } } }

/-- What a step leaves to be done: failed transfers, the model's counter, requests of peer modules, images held for a pool. -/
def State.windUp (s : State) : State := ({ s.settleTransfers with steps := s.steps + 1 }).serveRequests.postAll

/-- What follows every step: what it leaves to be done, waits on memory, acknowledgements, time, and the next turn. -/
def finish (s : State) : State := s.windUp.observe.acknowledge.passTime.choose

/-- The physical address of the page that code is placed in, in landing 0's scratch, after its page tables (log entry 1). -/
def codePage : Nat := 0x080000020000

/-- The page table that maps virtual page 0 to the code page: R, W and X, kind normal. -/
def placeTables (m : Mem) : Mem :=
  let t (n : Nat) : Nat := 0x080000000000 + 0x1000 * n
  let put (m : Mem) (n e : Nat) : Mem := m.put (t n) (toBytes 8 e) false
  put (put (put (put (put m 0 (t 1 + 1)) 1 (t 2 + 1)) 2 (t 3 + 1)) 3 (t 4 + 1)) 4 (codePage + 0x63B)

/-- The context that placed code runs in: a system context, RUNNING at landing 0. -/
def placeCtx : Ctx := { Ctx.free 1 with pl := 1, state := 2, landMask := 1, ptRoot := 0x080000000000 }

/-- The group that placed code runs in: after an ENTER of 64 registers, every register present and zero. -/
def placeGroup : Group :=
  { imageGroup 1 1 0 [] [] with
    berth := 31, active := -1, cls := 3, urgent := true
    frame := { Frame.fresh with fsz := 64, entered := true, v := List.replicate 64 (uReg 0) } }

/-- Code placed where the next step fetches, and everything else that takes (log entry 1): the module in RUN, a system context
with its page table, its team, and one group of it in berth 31 of core 0 of landing 0, current. -/
def State.placeCode (s : State) (bs : List Byte) : State :=
  { s with
    cur := 1, event := none, nextUid := max s.nextUid 2, mem := { (placeTables s.mem).put codePage bs false with past := [], clean := [] }
    boot := { s.boot with phase := 5, mapped := [56], locked := true }
    ctxs := placeCtx :: s.ctxs.filter fun c => c.id != 1
    teams := ⟨1, 0, 0, 0, 0, 0, 3, 1, [0], 1, [], [], []⟩ :: s.teams
    groups := placeGroup :: s.groups.filter fun g => g.uid != 1 && !(g.l == 0 && g.core == 0 && g.berth == 31) }

end Sys2Proof.Machine
end

