-- ==== Sys2Proof/Machine/Step.lean ====
section
/-! DEFINITION. One step of the module: the event whose turn it is, or the current group's next instruction; then
the passing of time and the choice of the next turn (log entries 4, 5, 6). -/

namespace Sys2Proof.Machine

/-- What follows an outcome that is a next state. -/
def andThen (r : Host.Outcome State Fault Refusal) (f : State → State) : Host.Outcome State Fault Refusal :=
  match r with
  | .next s => .next (f s)
  | .fault e => .fault e
  | .refused e => .refused e

/-- One step. -/
def step (s : State) : Host.Outcome State Fault Refusal :=
  match s.event with
  | some e => andThen (e.run { s with event := none }) finish
  | none =>
    match s.fetchTurn with
    | .idle => .next (finish s)
    | .settled s' => .next (finish s')
    | .instr i s' => andThen (exec i s') finish
    | .bad b s' => andThen (execIllegalInstruction b s') finish

/-- The state with an instruction stored where the next step fetches, and everything else that takes (log entry 1):
the module in RUN, context 1 a system context with its page table, and one group of it on landing 0. -/
def State.withFetchWord (s : State) (nbits w : Nat) : State := s.placeCode (toBytes 8 (tableBits nbits w).toNat)

end Sys2Proof.Machine
end

