-- ==== Sys2Proof/Safety.lean ====
section
/-! DEFINITION. What counts as a safe run, and the vocabulary of the statements: when an instruction issues, when its
berth has room for what it writes, and what a write leaves in a frame. -/

namespace Sys2Proof

open Sys2Proof.Machine

/-- A step that gives a next state. -/
def Safe (s : State) : Prop := ∃ t, step s = .next t

/-- Instruction `i` of the current group `g` reaches its own meaning in state `s` (06 R160, R151; 02 R37, R45; 03 R50,
R65): it is no privileged use at PL0, it names no register at or above F, its manifest entry is `e.m`, its guard leaves
the lanes `e.act`, and no absent register it reads traps. `s1` is `s` with what reading the manifest entry translated;
`e.g` is the group with DEADRD, LAVIOL and the LA windows as the instruction issues. -/
structure Issues (i : Instr) (s s1 : State) (g : Group) (e : Env) : Prop where
  current : s.curGroup = some g
  allowed : i.privTrap (s.ctx g.ctx).pl = none
  inFrame : g.rangeTrap i.shape.named = none
  manifest : s.manifest g i.ls = .ok e.m s1
  guard : e.act = g.guard i.g4
  active : e.act ≠ 0
  reads : ∃ g1, s1.deadRead g (g.absentReads i) = .ok g1 ∧ e.g = g1.laStep i true

/-- A group whose frames fit its berth's window store, or that has no older frame resident (03 R59, R70). -/
def Room (g : Group) : Prop := (g.fits || g.older.isEmpty) = true

/-- The group with v registers `ds` present in form G, and predicates `ps` and handles `hs` present: the most that an
instruction that writes them can cost the window store (Table 3-5). -/
def filled (g : Group) (ds ps hs : List Nat) : Group :=
  let f := ds.foldl (fun (f : Frame) d => f.setReg d (some ⟨.g (List.replicate 32 0), 0⟩)) g.frame
  let f := ps.foldl (fun (f : Frame) p => f.writePred 0 p 0) f
  { g with frame := hs.foldl (fun (f : Frame) h => f.setHandle h 0) f }

/-- The berth has room for the registers an instruction writes (03 R70). -/
def RoomFor (g : Group) (ds ps hs : List Nat) : Prop := Room (filled g ds ps hs)

/-- A register is in the form a full write asks for (03 R51, Table 3-4). -/
def HasForm (r : Option VReg) (form : DForm) : Prop :=
  match form with
  | .u => ∃ x p, r = some ⟨.u x, p⟩
  | .a b st => ∃ p, r = some ⟨.a b st, p⟩
  | .g => ∃ xs p, r = some ⟨.g xs, p⟩

/-- What an instruction writes to v registers: their numbers, the form of a full write, and the value and the poison of
each register in each lane. -/
structure Effect where
  regs : List Nat
  form : DForm
  val : Nat → Nat → Word
  bad : Nat → Nat → Bool

/-- `f'` is the frame `f` after v registers are written in the lanes `act` of a context whose active mask is `amask`
(03 R56 to R58, 07 R170): the written lanes hold the values and the poison of the effect, whatever the forms; a partial
write leaves form G; a full write leaves the form of Table 3-4; lanes not written keep what they held (zero in a
register that was absent); every other register, predicate, handle, token and field of the frame is as it was. -/
structure Wrote (f f' : Frame) (amask act : Mask) (x : Effect) : Prop where
  value : ∀ d ∈ x.regs, ∀ l, act.getLsbD l = true → f'.lane d l = x.val d l
  poison : ∀ d ∈ x.regs, ∀ l, act.getLsbD l = true → f'.bad d l = x.bad d l
  partly : act ≠ amask → ∀ d ∈ x.regs, HasForm (f'.reg? d) .g
  full : act = amask → ∀ d ∈ x.regs, HasForm (f'.reg? d) x.form
  all : act = amask → x.form ≠ .g → ∀ d ∈ x.regs, ∀ l < 32, f'.lane d l = x.val d l ∧ f'.bad d l = x.bad d l
  kept : (act ≠ amask ∨ x.form = .g) → ∀ d ∈ x.regs, ∀ l < 32, act.getLsbD l = false →
    f'.lane d l = f.lane d l ∧ f'.bad d l = f.bad d l
  others : ∀ r < 64, r ∉ x.regs → f'.reg? r = f.reg? r
  rest : { f' with v := f.v } = f

/-- The state after an instruction of group `g` whose own effect leaves the frame `f'` and the sticky bits `st`, with the
pc past it; nothing else of `s1` changes. -/
def after (i : Instr) (s1 : State) (g : Group) (st : Word) (f' : Frame) : State :=
  s1.setGroup (({ g with frame := f', gstatus := g.gstatus ||| st } : Group).advance i)

/-- Where it issues and has room, an instruction completes with the effect on v registers that `eff` gives, and with
nothing else (07 R170). -/
def Writes (i : Instr) (eff : State → Env → Effect) : Prop :=
  ∀ s s1 g e, Issues i s s1 g e → RoomFor e.g (eff s1 e).regs [] [] →
    ∃ f', Wrote e.g.frame f' e.g.active e.act (eff s1 e) ∧ exec i s = .next (after i s1 e.g 0 f')

/-- The state in which group `g` takes trap `t` at its instruction, which leaves nothing behind but the sticky bits `st` and
what reading its manifest entry translated (17 R354). -/
def trapped (s1 : State) (g : Group) (st : Word) (t : Trap) : State :=
  let h : Group := { g with gstatus := g.gstatus ||| st }
  (s1.setGroup h).takeTrap h t

/-- Where it issues and has room, a floating-point instruction whose lanes raise the flags `fl` completes with its effect
and those flags in GSTATUS when none is enabled, and else traps with its destination unwritten and those flags set (08 R199,
R200; 03 R53). -/
def WritesFp (i : Instr) (eff : State → Env → Effect) (fl : Env → Nat → Flags) : Prop :=
  ∀ s s1 g e, Issues i s s1 g e → RoomFor e.g (eff s1 e).regs [] [] →
    ((orFlags e.act (fl e) &&& e.g.fxe = 0 → ∃ f', Wrote e.g.frame f' e.g.active e.act (eff s1 e) ∧
        exec i s = .next (after i s1 e.g ((orFlags e.act (fl e)).setWidth 32) f')) ∧
      (orFlags e.act (fl e) &&& e.g.fxe ≠ 0 →
        exec i s = .next (trapped s1 g ((orFlags e.act (fl e)).setWidth 32) (fpTrap e.g e.act (fl e)))))

/-- `f'` is the frame `f` after predicate `d` is written in the lanes `act`: p0 discards the write (07 R181), and nothing
else changes. -/
structure WrotePred (f f' : Frame) (act : Mask) (d : Nat) (val : Nat → Bool) : Prop where
  lanes : d ≠ 0 → ∀ l < 32, (f'.pred d).getLsbD l = if act.getLsbD l then val l else (f.pred d).getLsbD l
  present : d ≠ 0 → (f'.p.getD d none).isSome = true
  others : ∀ n < 8, n ≠ d ∨ d = 0 → f'.p.getD n none = f.p.getD n none
  rest : { f' with p := f.p } = f

/-- `r` is the lowest register of `srcs` that is poisoned in a lane of `act`, and `l` the lowest such lane of it (07 R171). -/
def FirstPoison (f : Frame) (act : Mask) (srcs : List Nat) (r l : Nat) : Prop :=
  r ∈ srcs ∧ act.getLsbD l = true ∧ f.bad r l = true ∧
    (∀ k < l, act.getLsbD k = true → f.bad r k = false) ∧
    ∀ q ∈ srcs, q < r → ∀ k, act.getLsbD k = true → f.bad q k = false

/-- Where it issues and has room, an instruction writes predicate `d` from the lanes of ACTIVE of `srcs` and does nothing
else; a poisoned lane of a source makes it take the poison-use trap (07 R171, R181). -/
def WritesPred (i : Instr) (d : Nat) (srcs : List Nat) (val : Frame → Nat → Bool) : Prop :=
  ∀ s s1 g e, Issues i s s1 g e → RoomFor e.g [] [d] [] →
    ((∀ r ∈ srcs, ∀ l, e.act.getLsbD l = true → e.g.frame.bad r l = false) →
      ∃ f', WrotePred e.g.frame f' e.act d (val e.g.frame) ∧ exec i s = .next (after i s1 e.g 0 f')) ∧
    ∀ r l, FirstPoison e.g.frame e.act srcs r l → exec i s = .next (trapped s1 g 0 (mkTrap 13 (r + 256 * l)))

/-- The same for a floating-point comparison, whose flags come after the check for poison (08 R206). -/
def WritesFpPred (i : Instr) (d : Nat) (srcs : List Nat) (val : Frame → Nat → Bool) (fl : Frame → Nat → Flags) : Prop :=
  ∀ s s1 g e, Issues i s s1 g e → RoomFor e.g [] [d] [] →
    ((∀ r ∈ srcs, ∀ l, e.act.getLsbD l = true → e.g.frame.bad r l = false) →
      (orFlags e.act (fl e.g.frame) &&& e.g.fxe = 0 → ∃ f', WrotePred e.g.frame f' e.act d (val e.g.frame) ∧
        exec i s = .next (after i s1 e.g ((orFlags e.act (fl e.g.frame)).setWidth 32) f')) ∧
      (orFlags e.act (fl e.g.frame) &&& e.g.fxe ≠ 0 → exec i s =
        .next (trapped s1 g ((orFlags e.act (fl e.g.frame)).setWidth 32) (fpTrap e.g e.act (fl e.g.frame))))) ∧
    ∀ r l, FirstPoison e.g.frame e.act srcs r l → exec i s = .next (trapped s1 g 0 (mkTrap 13 (r + 256 * l)))

/-- The two words of a pair's value: the low word in the register `d` (00 R3). -/
def pairWords (d : Nat) (v : Nat → DWord) : Nat → Nat → Word :=
  fun r l => if r = d then (v l).setWidth 32 else (v l >>> 32).setWidth 32

/-- The effect of an instruction that writes one register from sources `srcs`, poisoned where a source is, under the
"all other" row of Table 3-4 (07 R170). -/
def oneReg (d : Nat) (srcs : List Nat) (val : Frame → Nat → Word) (e : Env) : Effect :=
  ⟨[d], e.g.frame.formOther srcs, fun _ l => val e.g.frame l, fun _ l => e.g.frame.badAny srcs l⟩

/-- The same under another row of Table 3-4. -/
def formed (d : Nat) (form : Frame → DForm) (srcs : List Nat) (val : Frame → Nat → Word) (e : Env) : Effect :=
  ⟨[d], form e.g.frame, fun _ l => val e.g.frame l, fun _ l => e.g.frame.badAny srcs l⟩

/-- The effect of an instruction that writes an aligned pair in the same way. -/
def pairRegs (d : Nat) (srcs : List Nat) (val : Frame → Nat → DWord) (e : Env) : Effect :=
  ⟨[d, d + 1], e.g.frame.formOther srcs, pairWords d (val e.g.frame), fun _ l => e.g.frame.badAny srcs l⟩

/-- The effect of an instruction that writes one U value and clears poison (Table 3-4). -/
def oneValue (d : Nat) (x : Word) : Effect := ⟨[d], .u, fun _ _ => x, fun _ _ => false⟩

/-- The ADD row of Table 3-4 (`sub` for SUB). -/
def addRow (sub : Bool) (a b : Nat) (f : Frame) : DForm := formAdd sub (f.affine a) (f.affine b) (f.isU a) (f.isU b)
/-- The ADD row where the second source is an immediate, a U source. -/
def addImmRow (a : Nat) (x : Word) (f : Frame) : DForm := formAdd false (f.affine a) (some (x, 0)) (f.isU a) true
/-- The MUL row. -/
def mulRow (a b : Nat) (f : Frame) : DForm := formMul (f.affine a) (f.affine b) (f.isU a) (f.isU b)
/-- The MUL row with an immediate. -/
def mulImmRow (a : Nat) (x : Word) (f : Frame) : DForm := formMul (f.affine a) (some (x, 0)) (f.isU a) true
/-- The SHL row. -/
def shlRow (a b : Nat) (f : Frame) : DForm := formShl (f.affine a) (f.isU a) (f.isU b) (f.lane b 0)
/-- The SHL row with an immediate amount. -/
def shlImmRow (a n : Nat) (f : Frame) : DForm := formShl (f.affine a) (f.isU a) true (BitVec.ofNat 32 n)
/-- The MOV row. -/
def movRow (a : Nat) (f : Frame) : DForm := f.formMov a

/-- The conditions of CMP and CMPI (07 R181). -/
def holdsFor (cc : Nat) (x y : Word) : Bool :=
  match cc with
  | 0 => x == y
  | 1 => x != y
  | 2 => x.slt y
  | 3 => x.sle y
  | 4 => x.ult y
  | 5 => x.ule y
  | 6 => (x &&& y) != 0
  | _ => (x &&& y) == 0

/-- The operations of REDUX (07 R185, 04 R107). -/
def reduceBy (fn : Nat) (x y : Word) : Word :=
  match fn with
  | 0 => x + y
  | 1 => if y.slt x then y else x
  | 2 => if x.slt y then y else x
  | 3 => if y < x then y else x
  | 4 => if x < y then y else x
  | 5 => x &&& y
  | 6 => x ||| y
  | _ => x ^^^ y

/-- Where it issues and has room, an instruction writes the f32 result (or other word) `r` in each lane of ACTIVE, under
the "all other" row, and raises its flags (08 R199, R200). -/
def WritesF32 (i : Instr) (d : Nat) (srcs : List Nat) (r : Env → Nat → FpR) : Prop :=
  WritesFp i (fun _ e => ⟨[d], e.g.frame.formOther srcs, fun _ l => BitVec.ofNat 32 (r e l).bits,
    fun _ => e.g.frame.badAny srcs⟩) fun e l => (r e l).fl

/-- The same for a result in an aligned pair. -/
def WritesF64 (i : Instr) (d : Nat) (srcs : List Nat) (r : Env → Nat → FpR) : Prop :=
  WritesFp i (fun _ e => ⟨[d, d + 1], e.g.frame.formOther srcs, pairWords d fun l => BitVec.ofNat 64 (r e l).bits,
    fun _ => e.g.frame.badAny srcs⟩) fun e l => (r e l).fl

/-- GMODE.RM as a mode (Table 3-2). -/
def Machine.Env.gmodeRm (e : Env) : Rm := Rm.ofCode e.g.rm

/-- Two 16-bit results, element 0 in the low half, with the flags of both (08 R207). -/
def bothHalves (op : Nat → FpR) : FpR := ⟨(op 0).bits + 2 ^ 16 * (op 1).bits, (op 0).fl ||| (op 1).fl⟩

/-- Element `k` of two 16-bit elements (04 R88). -/
def elem16 (x k : Nat) : Nat := x / 2 ^ (16 * k) % 2 ^ 16

/-- The addresses `va` of the lanes of ACTIVE, read from the registers `regs` and aligned to `n`, pass the checks of Table 9-2
and translate to `xs` for an access of kind `a`; the walks leave the state `t` (09 R227). -/
structure Checked (a : Access) (n : Nat) (regs : List Nat) (va : Nat → Nat) (s1 : State) (e : Env) (xs : List (Nat × Loc))
    (t : State) : Prop where
  idle : (s1.setGroup e.g).sideBusy e.g.uid = false
  clean : ∀ r ∈ regs, ∀ l, e.act.getLsbD l = true → e.g.frame.bad r l = false
  range : ∀ l, e.act.getLsbD l = true → va l < 2 ^ 56
  aligned : ∀ l, e.act.getLsbD l = true → va l % n = 0
  walked : (s1.setGroup e.g).translateLanes e.g.l e.g.ctx a ((lanesOf e.act).map fun l => (l, va l)) = ⟨xs, [], [], t⟩

/-- Every lane's location is at the landing `l` of the group, where none of the group's own posts stands in its way (02
R28, 05 R128). -/
def Local (l : Nat) (t : State) (g : Group) (xs : List (Nat × Loc)) : Prop :=
  (∀ x ∈ xs, x.2.peer = none ∧ home x.2.pa = l) ∧ t.ownPosts g = false

/-- A memory instruction executes where it is: its lanes are checked and translated now, or a move brought it here with the
translations it carries (02 R28, 09 R226). -/
structure Here (a : Access) (n : Nat) (regs : List Nat) (va : Nat → Nat) (s1 : State) (e : Env) (xs : List (Nat × Loc))
    (t : State) : Prop where
  way : e.g.carried = some xs ∧ xs.map Prod.fst = lanesOf e.act ∧ t = s1.setGroup e.g ∨
    e.g.carried = none ∧ Checked a n regs va s1 e xs t
  here : Local e.g.l t e.g xs

/-- The registers that a memory result of a size code goes to (Table 6-5). -/
def loadRegs (size : BitVec 4) (d : Nat) : List Nat := (List.range (sizeRegs size)).map (d + ·)

/-- The effect of a memory result `got` (a value and its poison by lane) on the registers from `d` (09 R230). -/
def loaded (size : BitVec 4) (d : Nat) (form : DForm) (got : Nat → Nat × Bool) : Effect :=
  ⟨loadRegs size d, form, fun r l => loadWord size (got l).1 (r - d), fun _ l => (got l).2⟩

/-- The bytes of memory that `n` bytes at each of some locations cover, as a write through `t` reaches them. -/
def Covers (t : State) (n : Nat) (xs : List (Nat × Loc)) (b : Nat) : Prop :=
  ∃ x ∈ xs, t.mem.backing x.2 false ≤ b ∧ b < t.mem.backing x.2 false + n

/-- Every location is memory, not control space. -/
def InMemory (t : State) (xs : List (Nat × Loc)) : Prop :=
  ∀ x ∈ xs, isControl (t.mem.backing x.2 false) = false ∧ isControl x.2.pa = false

/-- `m` is the set of lanes of ACTIVE in which some address operand fails a check, and is not empty; `addr` is the first
address that fails it in the lowest of them (09 R227). -/
def Fails (act : Mask) (ops : List AddrOp) (bad : AddrOp → Nat → Prop) (m : Mask) (addr : Nat) : Prop :=
  (∀ l, m.getLsbD l = true ↔ act.getLsbD l = true ∧ ∃ o ∈ ops, bad o (o.va l)) ∧
    ∃ l, m.getLsbD l = true ∧ (∀ k < l, m.getLsbD k = false) ∧
      ∃ pre o post, ops = pre ++ o :: post ∧ bad o (o.va l) ∧ addr = o.va l ∧ ∀ x ∈ pre, ¬bad x (x.va l)

/-- The one address of an instruction is the location `x`: it is checked in the lowest lane of ACTIVE and translated now, or a
move brought the instruction here with it; `t` is what the walk leaves (09 R225, R227). -/
def OneAddr (waits : Bool) (a : Access) (op : AddrOp) (s1 : State) (e : Env) (x : Loc) (t : State) : Prop :=
  (∃ k rest, e.g.carried = some ((k, x) :: rest) ∧ t = s1.setGroup e.g) ∨
    e.g.carried = none ∧ (waits = true → (s1.setGroup e.g).sideBusy e.g.uid = false) ∧
      (∀ r ∈ op.regs, e.g.frame.bad r (lowLane e.act) = false) ∧ op.va (lowLane e.act) < 2 ^ 56 ∧
      op.va (lowLane e.act) % op.align = 0 ∧
      (s1.setGroup e.g).translate e.g.l e.g.ctx (op.va (lowLane e.act)) a = .ok (x, t)

/-- An instruction that executes at the home of its address is there, and none of its group's posts stands in its way (09
R225, 05 R128). -/
structure OneHere (a : Access) (op : AddrOp) (s1 : State) (e : Env) (x : Loc) (t : State) : Prop where
  way : OneAddr true a op s1 e x t
  here : x.peer = none ∧ home x.pa = e.g.l
  ours : t.ownPosts e.g = false

/-- A value written to a register in every lane of ACTIVE, in form G (Table 3-4). -/
def allLanes (d : Nat) (x : Word) : Effect := ⟨[d], .g, fun _ _ => x, fun _ _ => false⟩

/-- The address at which a group waits on a phase of the object at `pa`, if it does (09 R247). -/
def Machine.Group.onPhase (h : Group) (pa : Nat) (phase : Word) : Option Nat :=
  match h.wait with
  | .bar q va k _ => if q = pa ∧ k = phase then some va else none
  | _ => none

/-- Memory but for `n` bytes from an address is as it was, in canonical form. -/
def OnlyAt (t u : State) (pa n : Nat) : Prop :=
  t.mem.wf = true → u.mem.wf = true ∧ ∀ a, ¬(pa ≤ a ∧ a < pa + n) → u.mem.byte a = t.mem.byte a

/-- What a register of a frame reads as in a lane (03 R57; 02 R37). -/
def laneOf (r : Option VReg) (l : Nat) : Word := (r.map fun x => x.val.lane l).getD 0

/-- Its poison in a lane. -/
def badOf (r : Option VReg) (l : Nat) : Bool := (r.map fun x => x.bad l).getD false

/-- The operand registers `regs` are not poisoned in the lowest lane of ACTIVE. -/
def CleanLow (e : Env) (regs : List Nat) : Prop := ∀ r ∈ regs, e.g.frame.bad r (lowLane e.act) = false

/-- `r` is the lowest of the operand registers that is poisoned in the lowest lane of ACTIVE. -/
def PoisonLow (e : Env) (regs : List Nat) (r : Nat) : Prop :=
  r ∈ regs ∧ e.g.frame.bad r (lowLane e.act) = true ∧ ∀ q ∈ regs, q < r → e.g.frame.bad q (lowLane e.act) = false

/-- The system registers by number and what each reads as (17 R347, Tables 17-3 and 17-4). -/
def sysTable (s : State) (g : Group) (c : Ctx) : List (Nat × Nat) :=
  [(0x000, g.gmode.toNat), (0x001, g.gstatus.toNat), (0x002, s.spillBase g), (0x003, s.spillLim g), (0x004, s.spillTop g),
   (0x005, c.id), (0x100, c.pl + 4 * c.state + 65536 * s.liveCount c.id), (0x101, c.landMask.toNat), (0x102, c.utrapVec.toNat),
   (0x103, c.trapDeleg.toNat), (0x104, c.spillArea.toNat), (0x105, c.spillSeg.toNat), (0x106, c.parkOff.toNat),
   (0x107, c.parkSz.toNat), (0x108, c.kspillBase.toNat), (0x109, c.kspillSize.toNat), (0x10A, c.ptRoot.toNat),
   (0x10B, c.heapBase.toNat), (0x10C, c.heapLim.toNat), (0x10D, c.heapOff.toNat), (0x10E, c.heapGeom.toNat)]

/-- One value written to a register, or low word first to a pair, in form U (17 R351). -/
def oneU (d run x : Nat) : Effect :=
  ⟨(List.range run).map (d + ·), .u, fun r _ => BitVec.ofNat 32 (x / 2 ^ (32 * (r - d))), fun _ _ => false⟩

/-- The handle is valid, the registers it makes the instruction name exist, and those in `clean` are not poisoned in a lane of
ACTIVE (12 R301); nothing of the context's own is on its way to where it would read. -/
structure TensorReady (s1 : State) (e : Env) (tn : Tensor) (clean named : List Nat) : Prop where
  idle : (s1.setGroup e.g).sideBusy e.g.uid = false
  ours : (s1.setGroup e.g).ownPosts e.g = false
  clean : ∀ r ∈ clean, ∀ l, e.act.getLsbD l = true → e.g.frame.bad r l = false
  valid : tn.bad = none
  named : e.g.rangeTrap named = none

/-- TLD and TST have found their elements and are where they lie (12 R304): lane after lane the position `pos` that the
coordinates or the position operand name, the elements translated now to `xs`; or a move brought the instruction here with
the translations it carries. -/
structure Elems (acc : Access) (o : T64) (tn : Tensor) (s1 : State) (e : Env) (xs : List (Nat × Loc)) (t : State) : Prop where
  way : (e.g.carried = some xs ∧ t = s1.setGroup e.g) ∨
    ∃ (a : Nat) (byPos : Bool) (pos : Nat → Option Nat) (reads : Nat → List (Nat × Nat)) (found : List Nat), a = o.a.toNat ∧ byPos = o.ctl.getLsbD 4 ∧ e.g.carried = none ∧
      TensorReady s1 e tn (if byPos then [a, a + 1] else coordRegs tn a) (if byPos then [] else coordRegs tn a) ∧
      (∀ l, e.act.getLsbD l = true → lanePos (s1.setGroup e.g) e tn byPos a l = .ok (pos l, reads l)) ∧
      found = (lanesOf e.act).filter (fun l => (pos l).isSome) ∧
      ((s1.setGroup e.g).indexed e.g ((lanesOf e.act).flatMap reads)).translateLanes e.g.l e.g.ctx (acc.wide tn.width)
          (found.map fun l => (l, tn.vals + ((pos l).getD 0) * tn.width)) = ⟨xs, [], [], t⟩
  here : Local e.g.l t e.g xs

/-- The merge descriptor at pair `a` has been read: operands clean in the lowest lane of ACTIVE, the address translated now
to plain memory of a landing whose words are sound, and the descriptor of its 64 bytes legal (12 R307, R310). `t` is the machine after
the read. -/
structure DescRead (s1 : State) (e : Env) (a : Nat) (low : List Nat) (desc : MergeDesc) (x : Loc) (t0 t : State) : Prop where
  clean : CleanLow e (a :: (a + 1) :: low)
  way : OneAddr true accEngR ⟨[a, a + 1], 64, fun l => (e.g.frame.pair a l).toNat⟩ s1 e x t0
  memory : isControl (t0.mem.backing x false) = false
  landing : home x.pa < 64
  sound : t0.mem.unreadable (t0.mem.backing x false) 64 = false
  read : desc = MergeDesc.ofBytes (toBytes 64 (t0.mem.num (t0.mem.backing x false) 64))
  good : desc.bad = none
  after : t = (t0.beats [(t0.mem.backing x false, 64)]).sense (t0.mem.backing x false) 64

/-- The session that register `b` names in the lowest lane of ACTIVE is open to the context and in one of the states that
admit the command; a stream it names exists and is not sealed (12 R306, R310). -/
structure SessionReady (s1 : State) (e : Env) (b : Nat) (stream : Option Nat) (states : List Nat) (sid : Nat) (x : Session) : Prop where
  named : sid = (e.g.frame.lane b (lowLane e.act)).toNat
  clean : CleanLow e (b :: stream.toList)
  idle : (s1.setGroup e.g).plainBusy e.g.uid = false
  session : (s1.setGroup e.g).session? e.g.ctx sid = some x
  stream : ∀ c ∈ stream, (e.g.frame.lane c (lowLane e.act)).toNat < x.desc.streams ∧
    x.sealed.getD (e.g.frame.lane c (lowLane e.act)).toNat false = false
  state : x.state ∈ states

/-- Why a merge command finds no session that admits it: the REASON of Table 12-7 (12 R310 check 6). -/
def SessionFails (s1 : State) (e : Env) (sid : Nat) (stream : Option Nat) (states : List Nat) (r : Nat) : Prop :=
  let k (c : Nat) : Nat := (e.g.frame.lane c (lowLane e.act)).toNat
  ((s1.setGroup e.g).session? e.g.ctx sid = none ∧ r = 1) ∨ ∃ x, (s1.setGroup e.g).session? e.g.ctx sid = some x ∧
    ((∃ c ∈ stream, x.desc.streams ≤ k c) ∧ r = 2 ∨
      (∀ c ∈ stream, k c < x.desc.streams) ∧ ((∃ c ∈ stream, x.sealed.getD (k c) false = true) ∧ r = 3 ∨
        (∀ c ∈ stream, x.sealed.getD (k c) false = false) ∧ x.state ∉ states ∧ r = 4))

/-- Four words written to a quad in every lane of ACTIVE, in form G (12 R319). -/
def quad (d : Nat) (ws : List Nat) : Effect :=
  ⟨(List.range 4).map (d + ·), .g, fun r _ => BitVec.ofNat 32 (ws.getD (r - d) 0), fun _ _ => false⟩

/-- Checks 1 and 2 of 11 R275 pass: the team holds its core's unit, whose release is not queued, its state has not been lost,
and the operand registers are clean in the lowest lane of ACTIVE. -/
structure MatrixReady (s1 : State) (e : Env) (regs : List Nat) : Prop where
  idle : (s1.setGroup e.g).plainBusy e.g.uid = false
  kept : (s1.setGroup e.g).lostClaim e.g = false
  held : (s1.unit e.g.l e.g.core).holder = some e.g.teamKey
  standing : ∀ c ∈ (s1.unit e.g.l e.g.core).queue, c.op.isRelease = false
  clean : CleanLow e regs

/-- The command joins the queue of its group's unit, behind those there (10 R266). -/
def queued (s : State) (e : Env) (op : MOp) (pages : List (Nat × Loc)) : State :=
  let u := s.unit e.g.l e.g.core
  s.setUnit { u with queue := u.queue ++ [⟨op, e.g.ctx, u.accepted, pages⟩], accepted := u.accepted + 1 }

/-- Checks 8 to 10 of 11 R275 pass: every page a command touches translates, to `pages`, and the metadata words it names, read
when no store is queued, put their two places in ascending order (10 R261); `ms` are those words and their poison. -/
def MatrixReach (s0 : State) (e : Env) (a : Access) (runs : List (Nat × Nat)) (metas : List Nat) (pages : List (Nat × Loc))
    (ms : List (List (Nat × Bool))) (t : State) : Prop :=
  ∃ t0 bs, s0.translateTouched e.g.l e.g.ctx a (pagesTouched (runs ++ metas.map fun m => (m, 16384))) = .ok (pages, t0) ∧
    (metas ≠ [] → (s0.unit e.g.l e.g.core).storing = false) ∧ t0.readVas pages 16384 metas = (bs, t) ∧
    ms = bs.map (fun b => (List.range 4096).map fun k => (leBytes (((b.drop (4 * k)).take 4).map Prod.fst), ((b.drop (4 * k)).take 4).any Prod.snd)) ∧
    ∀ ws ∈ ms, ∀ w ∈ ws, ∀ q < 8, w.1 / 2 ^ (4 * q) % 4 < w.1 / 2 ^ (4 * q + 2) % 4

/-- A descriptor has been read: 64 bytes at `va`, translated now to `x` (11 R275 checks 4 and 5); `t` is the machine after it. -/
def LoopRead (s1 : State) (e : Env) (va : Nat) (d : LoopDesc) (x : Loc) (t : State) : Prop :=
  va < 2 ^ 56 ∧ va % 64 = 0 ∧ (s1.unit e.g.l e.g.core).storing = false ∧
    ∃ t0 v p, (s1.setGroup e.g).translate e.g.l e.g.ctx va accEngR = .ok (x, t0) ∧ t0.readLoc x 64 = (v, p, t) ∧
      d = LoopDesc.ofBytes (toBytes 64 v)

/-- Instruction `i`, issued by the group `g` in state `s`, completes: it answers a next state in which the group stands past it, as
neither a trap, nor a wait, nor a stop leaves it. -/
def Completes (i : Instr) (s : State) (g : Group) : Prop :=
  ∃ (u : State) (h : Group), exec i s = .next (u.setGroup (h.advance i)) ∧ h.uid = g.uid ∧ h.pc = g.pc

/-- Nothing is left to be done but the passing of time: no request of a peer module is next on a pair, no landing holds an image for
a pool, and no transfer of the step failed (19 R377; 17 R361; 21 R406). -/
structure Quiet (s : State) : Prop where
  requests : ∀ p ∈ s.pairs, ∀ x ∈ p.2.head?, ∀ peer src id pl op xs, x ≠ .request peer src id pl op xs
  images : ∀ x ∈ s.landings, x.poolWait = []
  transfers : ∀ x ∈ s.landings, x.ras.spent = []

/-- What holds between steps (01 R16, R17; 05 R128, R133; log entries 4, 5): no landing's FT is more than two ticks from another's, and
the event whose turn it is can happen, comes from outside, or is the module reset that a machine starts with. -/
structure Inv (s : State) : Prop where
  skew : ∀ x ∈ s.landings, x.skew ≤ 2
  turn : ∀ e, s.event = some e → e ∈ s.enabled ∨ (∃ i, e = .outside i ∧ fromOutside i = true) ∨ e = .moduleReset

end Sys2Proof
end

