-- ==== Sys2Proof/Certificates/Slice0/Obligations.lean ====
section
/-! DEFINITION. The statements about the model, for the provers. -/

open Sys2Proof Sys2Proof.Machine

/-- 07 R170, R173 (Table 7-1): the arithmetic of majors 0 and 1. The logic, the shifts and the counts of majors 1 and 2. -/
def Obligations.IntegerAndLogic : Prop :=
 (∀ (o : A32) (d a b : Nat), d = o.d.toNat → a = o.a.toNat → b = o.b.toNat →
    Writes (.add o) (fun _ => formed d (addRow false a b) [a, b] fun f l => f.lane a l + f.lane b l) ∧
    Writes (.sub o) (fun _ => formed d (addRow true a b) [a, b] fun f l => f.lane a l - f.lane b l) ∧
    Writes (.mul o) (fun _ => formed d (mulRow a b) [a, b]
      fun f l => f.lane a l * f.lane b l) ∧
    Writes (.mulhi o) (fun _ => oneReg d [a, b] fun f l =>
      (((f.lane a l).signExtend 64 * (f.lane b l).signExtend 64) >>> 32).setWidth 32) ∧
    Writes (.mulhiz o) (fun _ => oneReg d [a, b] fun f l =>
      (((f.lane a l).setWidth 64 * (f.lane b l).setWidth 64) >>> 32).setWidth 32) ∧
    Writes (.abs o) (fun _ => oneReg d [a] fun f l =>
      if (f.lane a l).getLsbD 31 then 0 - f.lane a l else f.lane a l) ∧
    Writes (.min o) (fun _ => oneReg d [a, b] fun f l =>
      if (f.lane b l).slt (f.lane a l) then f.lane b l else f.lane a l) ∧
    Writes (.max o) (fun _ => oneReg d [a, b] fun f l =>
      if (f.lane a l).slt (f.lane b l) then f.lane b l else f.lane a l) ∧
    Writes (.minz o) (fun _ => oneReg d [a, b] fun f l =>
      if f.lane b l < f.lane a l then f.lane b l else f.lane a l) ∧
    Writes (.maxz o) (fun _ => oneReg d [a, b] fun f l =>
      if f.lane a l < f.lane b l then f.lane b l else f.lane a l)) ∧
 (∀ (o : A32) (d a b : Nat), d = o.d.toNat → a = o.a.toNat → b = o.b.toNat →
    Writes (.and o) (fun _ => oneReg d [a, b] fun f l => f.lane a l &&& f.lane b l) ∧
    Writes (.or o) (fun _ => oneReg d [a, b] fun f l => f.lane a l ||| f.lane b l) ∧
    Writes (.xor o) (fun _ => oneReg d [a, b] fun f l => f.lane a l ^^^ f.lane b l) ∧
    Writes (.andn o) (fun _ => oneReg d [a, b] fun f l => f.lane a l &&& ~~~f.lane b l) ∧
    Writes (.orn o) (fun _ => oneReg d [a, b] fun f l => f.lane a l ||| ~~~f.lane b l) ∧
    Writes (.rotl o) (fun _ => oneReg d [a, b] fun f l =>
      let n := (f.lane b l).toNat % 32
      (f.lane a l <<< n) ||| (f.lane a l >>> (32 - n))) ∧
    Writes (.shl o) (fun _ => formed d (shlRow a b) [a, b] fun f l =>
      if (f.lane b l).toNat < 32 then f.lane a l <<< (f.lane b l).toNat else 0) ∧
    Writes (.shr o) (fun _ => oneReg d [a, b] fun f l =>
      if (f.lane b l).toNat < 32 then f.lane a l >>> (f.lane b l).toNat else 0) ∧
    Writes (.sar o) (fun _ => oneReg d [a, b] fun f l =>
      if (f.lane b l).toNat < 32 then (f.lane a l).sshiftRight (f.lane b l).toNat
      else if (f.lane a l).getLsbD 31 then 0xFFFFFFFF else 0) ∧
    Writes (.clz o) (fun _ => oneReg d [a] fun f l => clzWord (f.lane a l)) ∧
    Writes (.ctz o) (fun _ => oneReg d [a] fun f l => ctzWord (f.lane a l)) ∧
    Writes (.popc o) (fun _ => oneReg d [a] fun f l => popcWord (f.lane a l)) ∧
    Writes (.brev o) (fun _ => oneReg d [a] fun f l => brevWord (f.lane a l)))

/-- 07 R173 (Table 7-1); 07 R174, R175: what the counts of CLZ, CTZ and POPC and the word of BREV are. The byte and bit-field
instructions. Bit by bit, what the words of BPICK, BFX, BFXS and BFI are, for a selector `s` or a control word `c` with
position `pos` and length `w`. -/
def Obligations.BitFields : Prop :=
 (∀ a : Word,
    (a = 0 → clzWord a = 32 ∧ ctzWord a = 32) ∧
    (a ≠ 0 → (clzWord a).toNat < 32 ∧ a.getLsbD (31 - (clzWord a).toNat) = true ∧
      ∀ j < (clzWord a).toNat, a.getLsbD (31 - j) = false) ∧
    (a ≠ 0 → (ctzWord a).toNat < 32 ∧ a.getLsbD (ctzWord a).toNat = true ∧
      ∀ j < (ctzWord a).toNat, a.getLsbD j = false) ∧
    (popcWord a).toNat = ((List.range 32).map fun j => (a.getLsbD j).toNat).sum ∧
    ∀ i < 32, (brevWord a).getLsbD i = a.getLsbD (31 - i)) ∧
 (∀ (o : A32) (d a b : Nat), d = o.d.toNat → a = o.a.toNat → b = o.b.toNat →
    Writes (.bpick o) (fun _ => oneReg d [a, b, d] fun f l => bpickWord (f.lane a l) (f.lane b l) (f.lane d l)) ∧
    Writes (.bfx o) (fun _ => oneReg d [a, b] fun f l => bfxWord (f.lane a l) (f.lane b l)) ∧
    Writes (.bfxs o) (fun _ => oneReg d [a, b] fun f l => bfxsWord (f.lane a l) (f.lane b l)) ∧
    Writes (.bfi o) (fun _ => oneReg d [a, b, d] fun f l => bfiWord (f.lane d l) (f.lane a l) (f.lane b l))) ∧
 ((∀ (x s o : Word) (i k : Nat), i < 4 → k < 8 →
    (bpickWord x s o).getLsbD (8 * i + k) =
      if s.getLsbD (4 * i + 3) then s.getLsbD (4 * i + 2)
      else if s.getLsbD (4 * i + 2) then o.getLsbD (8 * i + k)
      else x.getLsbD (8 * (s.toNat / 2 ^ (4 * i) % 4) + k)) ∧
  ∀ (a d c : Word) (pos w : Nat), pos = c.toNat % 32 → w = min (min (c.toNat / 2 ^ 8 % 64) 32) (32 - pos) →
    ∀ i < 32,
      (bfxWord a c).getLsbD i = (decide (i < w) && a.getLsbD (pos + i)) ∧
      (bfxsWord a c).getLsbD i = (decide (0 < w) && a.getLsbD (pos + min i (w - 1))) ∧
      (bfiWord d a c).getLsbD i = if pos ≤ i ∧ i < pos + w then a.getLsbD (i - pos) else d.getLsbD i)

/-- 07 R177, R178 (Table 7-3): the instructions with an immediate, of majors 5, 10 to 15 and 17; `n` is the amount of
major 14. -/
def Obligations.Immediates : Prop :=
  (∀ (o : I32) (d a n : Nat) (x : Word), d = o.d.toNat → a = o.a.toNat → n = o.imm.toNat % 64 → x = o.imm.signExtend 32 →
    Writes (.addi o) (fun _ => formed d (addImmRow a x) [a] fun f l => f.lane a l + x) ∧
    Writes (.andi o) (fun _ => oneReg d [a] fun f l => f.lane a l &&& x) ∧
    Writes (.ori o) (fun _ => oneReg d [a] fun f l => f.lane a l ||| x) ∧
    Writes (.xori o) (fun _ => oneReg d [a] fun f l => f.lane a l ^^^ x) ∧
    (n < 32 →
      Writes (.shli o) (fun _ => formed d (shlImmRow a n) [a] fun f l => f.lane a l <<< n) ∧
      Writes (.shri o) (fun _ => oneReg d [a] fun f l => f.lane a l >>> n) ∧
      Writes (.sari o) (fun _ => oneReg d [a] fun f l => (f.lane a l).sshiftRight n) ∧
      Writes (.rotli o) (fun _ => oneReg d [a] fun f l => (f.lane a l <<< n) ||| (f.lane a l >>> (32 - n)))) ∧
    Writes (.muli o) (fun _ => formed d (mulImmRow a x) [a] fun f l => f.lane a l * x)) ∧
  (∀ o : I15, Writes (.movi o) (fun _ _ => oneValue o.d.toNat (o.imm.signExtend 32))) ∧
  ∀ (o : L64) (d a : Nat), d = o.d.toNat → a = o.a.toNat →
    Writes (.movi32 o) (fun _ _ => oneValue d o.imm) ∧
    Writes (.addi32 o) (fun _ => formed d (addImmRow a o.imm) [a] fun f l => f.lane a l + o.imm)

/-- 06 R154, R155, R150: the integer C16 instructions read and write one register, with a register, a signed immediate
or an unsigned amount beside it. -/
def Obligations.ShortIntegers : Prop :=
  ∀ (o : C16) (d b : Nat), d = o.d.toNat → b = o.s.toNat →
    Writes (.c16Mov o) (fun _ => formed d (movRow b) [b] fun f l => f.lane b l) ∧
    Writes (.c16Add o) (fun _ => formed d (addRow false d b) [d, b] fun f l => f.lane d l + f.lane b l) ∧
    Writes (.c16Sub o) (fun _ => formed d (addRow true d b) [d, b] fun f l => f.lane d l - f.lane b l) ∧
    Writes (.c16And o) (fun _ => oneReg d [d, b] fun f l => f.lane d l &&& f.lane b l) ∧
    Writes (.c16Or o) (fun _ => oneReg d [d, b] fun f l => f.lane d l ||| f.lane b l) ∧
    Writes (.c16Xor o) (fun _ => oneReg d [d, b] fun f l => f.lane d l ^^^ f.lane b l) ∧
    Writes (.c16Mul o) (fun _ => formed d (mulRow d b) [d, b] fun f l => f.lane d l * f.lane b l) ∧
    Writes (.c16Shli o) (fun _ => formed d (shlImmRow d b) [d] fun f l => f.lane d l <<< b) ∧
    Writes (.c16Shri o) (fun _ => oneReg d [d] fun f l => f.lane d l >>> b) ∧
    Writes (.c16Addi o) (fun _ => formed d (addImmRow d (o.s.signExtend 32)) [d] fun f l => f.lane d l + o.s.signExtend 32) ∧
    Writes (.c16Movi o) (fun _ _ => oneValue d (o.s.signExtend 32))

/-- 07 R175, R179 (Tables 7-2, 7-4): sums of pairs, and multiply-add. -/
def Obligations.PairsAndProducts : Prop :=
  (∀ (o : A32) (d a b : Nat), d = o.d.toNat → a = o.a.toNat → b = o.b.toNat → d % 2 = 0 →
    Writes (.add64 o) (fun _ => pairRegs d [a, a + 1, b, b + 1] fun f l => f.pair a l + f.pair b l) ∧
    Writes (.sub64 o) (fun _ => pairRegs d [a, a + 1, b, b + 1] fun f l => f.pair a l - f.pair b l)) ∧
  ∀ (o : T64) (d a b c : Nat), d = o.d.toNat → a = o.a.toNat → b = o.b.toNat → c = o.c.toNat →
    Writes (.mad o) (fun _ => oneReg d [a, b, c] fun f l => f.lane a l * f.lane b l + f.lane c l) ∧
    (d % 2 = 0 → Writes (.madw o) (fun _ => pairRegs d [a, b, c, c + 1] fun f l =>
      (if o.ctl.getLsbD 0 then (f.lane a l).setWidth 64 * (f.lane b l).setWidth 64
        else (f.lane a l).signExtend 64 * (f.lane b l).signExtend 64) + f.pair c l)) ∧
    Writes (.dot4 o) (fun _ => oneReg d [a, b, c] fun f l =>
      let p (i : Nat) := ((f.lane a l).extractLsb' (8 * i) 8).signExtend 32 * ((f.lane b l).extractLsb' (8 * i) 8).signExtend 32
      f.lane c l + (p 0 + p 1 + p 2 + p 3)) ∧
    Writes (.dot4z o) (fun _ => oneReg d [a, b, c] fun f l =>
      let p (i : Nat) := ((f.lane a l).extractLsb' (8 * i) 8).setWidth 32 * ((f.lane b l).extractLsb' (8 * i) 8).setWidth 32
      f.lane c l + (p 0 + p 1 + p 2 + p 3))

/-- 07 R180: DIV, DIVZ, REM and REMZ, with the cases of its table. -/
def Obligations.Division : Prop :=
  ∀ (o : T64) (d a b : Nat), d = o.d.toNat → a = o.a.toNat → b = o.b.toNat →
    Writes (.div o) (fun _ => oneReg d [a, b] fun f l =>
      let x := f.lane a l; let y := f.lane b l
      if y = 0 then 0xFFFFFFFF else if x = 0x80000000 ∧ y = 0xFFFFFFFF then 0x80000000 else x.sdiv y) ∧
    Writes (.divz o) (fun _ => oneReg d [a, b] fun f l =>
      if f.lane b l = 0 then 0xFFFFFFFF else f.lane a l / f.lane b l) ∧
    Writes (.rem o) (fun _ => oneReg d [a, b] fun f l =>
      let x := f.lane a l; let y := f.lane b l
      if y = 0 then x else if x = 0x80000000 ∧ y = 0xFFFFFFFF then 0 else x - y * x.sdiv y) ∧
    Writes (.remz o) (fun _ => oneReg d [a, b] fun f l =>
      if f.lane b l = 0 then f.lane a l else f.lane a l % f.lane b l)

/-- 07 R175, R176, R182, R186 (Table 7-6): moves, selection and queries. SEL's predicate, turned over by N, selects; a
query clears poison. -/
def Obligations.MovesAndQueries : Prop :=
  ∀ (o : A32) (d a b : Nat), d = o.d.toNat → a = o.a.toNat → b = o.b.toNat →
    Writes (.mov o) (fun _ => formed d (movRow a) [a] fun f l => f.lane a l) ∧
    Writes (.sel o) (fun _ e =>
      let f := e.g.frame
      let p : Mask := if o.g.getLsbD 3 then ~~~f.pred (o.g.toNat % 8) else f.pred (o.g.toNat % 8)
      ⟨[d], if p = BitVec.allOnes 32 then movRow a f else if p = 0 then movRow b f else .g,
        fun _ l => if p.getLsbD l then f.lane a l else f.lane b l, fun _ l => if p.getLsbD l then f.bad a l else f.bad b l⟩) ∧
    Writes (.actmask o) (fun _ e => oneValue d e.act) ∧
    Writes (.laneid o) (fun _ _ => ⟨[d], .a 0 1, fun _ l => BitVec.ofNat 32 l, fun _ _ => false⟩) ∧
    Writes (.grprank o) (fun _ e => oneValue d (BitVec.ofNat 32 e.g.rank)) ∧
    Writes (.teamid o) (fun _ e => oneValue d (BitVec.ofNat 32 e.g.team)) ∧
    (d % 2 = 0 → Writes (.ftime o) (fun s e =>
      ⟨[d, d + 1], .u, pairWords d fun _ => BitVec.ofNat 64 (s.ftAt e.g.l), fun _ _ => false⟩)) ∧
    Writes (.poisonq o) (fun _ e => oneValue d (maskOf fun l => e.g.frame.bad a l)) ∧
    Writes (.formq o) (fun _ e => oneValue d (BitVec.ofNat 32 (formCode (e.g.frame.reg? a)))) ∧
    Writes (.ptov o) (fun _ e =>
      ⟨[d], .g, fun _ l => if (e.g.frame.pred a).getLsbD l then 1 else 0, fun _ _ => false⟩)

/-- 07 R183; 07 R184, R185: XLANE reads lane `j` of its source, whatever that lane's place in the masks. What is counted or
combined over the lanes of ACTIVE. -/
def Obligations.LanesAcross : Prop :=
 (∀ (o : A32) (d a b : Nat), d = o.d.toNat → a = o.a.toNat → b = o.b.toNat →
    let from_ (form : Frame → DForm) (j : Nat → Nat → Nat) (e : Env) : Effect :=
      let f := e.g.frame
      ⟨[d], form f, fun _ l => f.lane a (j l (f.lane b l).toNat), fun _ l => f.bad a (j l (f.lane b l).toNat) || f.bad b l⟩
    Writes (.xlaneGet o) (fun _ => from_ (fun f => f.formOther [a, b]) fun _ n => n % 32) ∧
    Writes (.xlaneRot o) (fun _ => from_ (fun f => f.formOther [a, b]) fun l n => (l + n) % 32) ∧
    Writes (.xlaneFlip o) (fun _ => from_ (fun f => f.formOther [a, b]) fun l n => l ^^^ (n % 32)) ∧
    Writes (.xlaneShift o) (fun _ e =>
      let f := e.g.frame
      ⟨[d], .g, fun _ l => if (f.lane b l).toNat ≤ l then f.lane a (l - (f.lane b l).toNat) else 0,
        fun _ l => (decide ((f.lane b l).toNat ≤ l) && f.bad a (l - (f.lane b l).toNat)) || f.bad b l⟩)) ∧
 (∀ (o : A32) (d a : Nat), d = o.d.toNat → a = o.a.toNat →
    let held (e : Env) : List Nat := (List.range 32).filter fun l => e.act.getLsbD l && (e.g.frame.pred a).getLsbD l
    Writes (.pcount o) (fun _ e => oneValue d (BitVec.ofNat 32 (held e).length)) ∧
    Writes (.pmask o) (fun _ e => oneValue d (e.act &&& e.g.frame.pred a)) ∧
    Writes (.pfirst o) (fun _ e => oneValue d (BitVec.ofNat 32 ((held e).headD 32))) ∧
    Writes (.vrank o) (fun _ e =>
      let f := e.g.frame
      ⟨[d], .g,
        fun _ l => BitVec.ofNat 32 ((lanesOf e.act).filter fun j => decide (j < l) && f.lane a j == f.lane a l).length,
        fun _ l => (lanesOf e.act).any fun j => decide (j ≤ l) && f.bad a j⟩) ∧
    Writes (.redux o) (fun _ e =>
      let f := e.g.frame
      let xs := (lanesOf e.act).map fun l => f.lane a l
      ⟨[d], .u, fun _ _ => xs.tail.foldl (reduceBy o.fn.toNat) (xs.headD 0), fun _ _ => (lanesOf e.act).any fun l => f.bad a l⟩))

/-- 07 R171, R181, R182; 07 R182: the predicates written from registers; a poisoned source lane of ACTIVE traps. The predicates
written from predicates. -/
def Obligations.ComparisonsAndPredicates : Prop :=
 ((∀ (o : A32) (d a b : Nat), d = o.d.toNat → a = o.a.toNat → b = o.b.toNat → d < 8 →
    WritesPred (.cmp o) d [a, b] (fun f l => holdsFor o.fn.toNat (f.lane a l) (f.lane b l)) ∧
    WritesPred (.vtop o) d [a] (fun f l => f.lane a l != 0)) ∧
  ∀ (o : I32) (d a : Nat), d = o.d.toNat → a = o.a.toNat → d < 8 →
    WritesPred (.cmpi o) d [a] (fun f l => holdsFor (o.imm.toNat / 64) (f.lane a l) ((o.imm.setWidth 6).signExtend 32))) ∧
 (∀ (o : A32) (d a b : Nat), d = o.d.toNat → a = o.a.toNat → b = o.b.toNat → d < 8 →
    WritesPred (.pand o) d [] (fun f l => (f.pred a).getLsbD l && (f.pred b).getLsbD l) ∧
    WritesPred (.por o) d [] (fun f l => (f.pred a).getLsbD l || (f.pred b).getLsbD l) ∧
    WritesPred (.pxor o) d [] (fun f l => (f.pred a).getLsbD l != (f.pred b).getLsbD l) ∧
    WritesPred (.pandn o) d [] (fun f l => (f.pred a).getLsbD l && !(f.pred b).getLsbD l) ∧
    WritesPred (.pnot o) d [] (fun f l => !(f.pred a).getLsbD l) ∧
    WritesPred (.pmov o) d [] (fun f l => (f.pred a).getLsbD l))

/-- 08 R199, R203 to R205; 06 R154: f32 arithmetic under GMODE.RM, and its 16-bit forms. -/
def Obligations.SingleArithmetic : Prop :=
  (∀ (o : A32) (d a b : Nat), d = o.d.toNat → a = o.a.toNat → b = o.b.toNat →
    let two (op : Rm → Nat → Nat → FpR) (e : Env) (l : Nat) := op e.gmodeRm (e.g.frame.f32 a l) (e.g.frame.f32 b l)
    WritesF32 (.fadd o) d [a, b] (two F32.add) ∧
    WritesF32 (.fsub o) d [a, b] (two F32.sub) ∧
    WritesF32 (.fmul o) d [a, b] (two F32.mul) ∧
    WritesF32 (.fmin o) d [a, b] (two fun _ => F32.minmax false) ∧
    WritesF32 (.fmax o) d [a, b] (two fun _ => F32.minmax true) ∧
    WritesF32 (.fsat o) d [a] (fun e l => fsatR (e.g.frame.f32 a l)) ∧
    WritesF32 (.fscale o) d [a, b] (fun e l => fscaleR e.gmodeRm (e.g.frame.f32 a l) (e.g.frame.lane b l).toInt) ∧
    WritesF32 (.fgetexp o) d [a] (fun e l => fgetexpR (e.g.frame.f32 a l))) ∧
  ∀ (o : C16) (d b : Nat), d = o.d.toNat → b = o.s.toNat →
    let two (op : Rm → Nat → Nat → FpR) (e : Env) (l : Nat) := op e.gmodeRm (e.g.frame.f32 d l) (e.g.frame.f32 b l)
    WritesF32 (.c16Fadd o) d [d, b] (two F32.add) ∧
    WritesF32 (.c16Fsub o) d [d, b] (two F32.sub) ∧
    WritesF32 (.c16Fmul o) d [d, b] (two F32.mul) ∧
    WritesF32 (.c16Fmax o) d [d, b] (two fun _ => F32.minmax true) ∧
    WritesF32 (.c16Fmin o) d [d, b] (two fun _ => F32.minmax false)

/-- 08 R207, R208; 08 R209, R210: packed halves, f16 or bf16 by func3, and the fused forms, each rounded once. F64 arithmetic on
pairs. -/
def Obligations.PackedAndDouble : Prop :=
 ((∀ (o : A32) (d a b : Nat) (fmt : FpFmt), d = o.d.toNat → a = o.a.toNat → b = o.b.toNat →
    fmt = (if 4 ≤ o.fn.toNat then BF16 else F16) →
    let each (op : Rm → Nat → Nat → FpR) (e : Env) (l : Nat) :=
      bothHalves fun k => op e.gmodeRm (elem16 (e.g.frame.f32 a l) k) (elem16 (e.g.frame.f32 b l) k)
    WritesF32 (.pkadd o) d [a, b] (each fmt.add) ∧
    WritesF32 (.pkmul o) d [a, b] (each fmt.mul) ∧
    WritesF32 (.pkmax o) d [a, b] (each fun _ => fmt.minmax true) ∧
    WritesF32 (.pkmin o) d [a, b] (each fun _ => fmt.minmax false)) ∧
  ∀ (o : T64) (d a b c : Nat), d = o.d.toNat → a = o.a.toNat → b = o.b.toNat → c = o.c.toNat →
    let each (fmt : FpFmt) (e : Env) (l : Nat) := bothHalves fun k => fmt.fma (e.mode o)
      (elem16 (e.g.frame.f32 a l) k) (elem16 (e.g.frame.f32 b l) k) (elem16 (e.g.frame.f32 c l) k)
    WritesF32 (.ffma o) d [a, b, c] (fun e l =>
      F32.fma (e.mode o) (e.g.frame.f32 a l) (e.g.frame.f32 b l) (e.g.frame.f32 c l)) ∧
    WritesF32 (.pkfmaF16 o) d [a, b, c] (each F16) ∧
    WritesF32 (.pkfmaBf16 o) d [a, b, c] (each BF16) ∧
    WritesF32 (.dot2bf o) d [a, b, c] (fun e l =>
      dot2R (e.mode o) (e.g.frame.f32 a l) (e.g.frame.f32 b l) (e.g.frame.f32 c l)) ∧
    (d % 2 = 0 → WritesF64 (.dfma o) d [a, a + 1, b, b + 1, c, c + 1] fun e l =>
      F64.fma (e.mode o) (e.g.frame.f64 a l) (e.g.frame.f64 b l) (e.g.frame.f64 c l))) ∧
 (∀ (o : T64) (d a b : Nat), d = o.d.toNat → a = o.a.toNat → b = o.b.toNat → d % 2 = 0 →
    let two (op : Rm → Nat → Nat → FpR) (e : Env) (l : Nat) := op (e.mode o) (e.g.frame.f64 a l) (e.g.frame.f64 b l)
    WritesF64 (.dadd o) d [a, a + 1, b, b + 1] (two F64.add) ∧
    WritesF64 (.dsub o) d [a, a + 1, b, b + 1] (two F64.sub) ∧
    WritesF64 (.dmul o) d [a, a + 1, b, b + 1] (two F64.mul) ∧
    WritesF64 (.dmin o) d [a, a + 1, b, b + 1] (two fun _ => F64.minmax false) ∧
    WritesF64 (.dmax o) d [a, a + 1, b, b + 1] (two fun _ => F64.minmax true) ∧
    WritesF64 (.ddiv o) d [a, a + 1, b, b + 1] (two F64.div) ∧
    WritesF64 (.dsqrt o) d [a, a + 1] (fun e l => F64.sqrt (e.mode o) (e.g.frame.f64 a l)))

/-- 08 R209 to R211; 04 R98 to R104; 24 R442; 08 R206, R209, R212: f32 quotients, roots and functions under the mode of the
instruction. Comparisons of floats write a predicate and raise flags after the check for poison; FCLASS writes a class and
raises nothing. -/
def Obligations.FloatFunctionsAndComparisons : Prop :=
 (∀ (o : T64) (d a b : Nat), d = o.d.toNat → a = o.a.toNat → b = o.b.toNat →
    let one (op : Rm → Nat → FpR) (e : Env) (l : Nat) := op (e.mode o) (e.g.frame.f32 a l)
    WritesF32 (.fdiv o) d [a, b] (fun e l => F32.div (e.mode o) (e.g.frame.f32 a l) (e.g.frame.f32 b l)) ∧
    WritesF32 (.fsqrt o) d [a] (one F32.sqrt) ∧
    WritesF32 (.frcp o) d [a] (one fun r x => F32.div r 0x3F800000 x) ∧
    WritesF32 (.frsq o) d [a] (one rsqR) ∧
    WritesF32 (.fexp2 o) d [a] (one exp2R) ∧
    WritesF32 (.flog2 o) d [a] (one log2R) ∧
    WritesF32 (.fsin o) d [a] (one (trigB0R false)) ∧
    WritesF32 (.fcos o) d [a] (one (trigB0R true)) ∧
    WritesF32 (.frnd o) d [a] (one frndR) ∧
    WritesF32 (.fsinx o) d [a] (one (trigXR false)) ∧
    WritesF32 (.fcosx o) d [a] (one (trigXR true))) ∧
 ((∀ (o : A32) (d a b : Nat), d = o.d.toNat → a = o.a.toNat → b = o.b.toNat → d < 8 →
    WritesFpPred (.fcmp o) d [a, b] (fun f l => (F32.compare o.fn.toNat (f.f32 a l) (f.f32 b l)).1)
      fun f l => (F32.compare o.fn.toNat (f.f32 a l) (f.f32 b l)).2) ∧
  ∀ (o : T64) (d a b cc : Nat), d = o.d.toNat → a = o.a.toNat → b = o.b.toNat → cc = o.ctl.toNat % 8 →
    (d < 8 → a + 1 < 64 → b + 1 < 64 → WritesFpPred (.dcmp o) d [a, a + 1, b, b + 1]
      (fun f l => (F64.compare cc (f.f64 a l) (f.f64 b l)).1) fun f l => (F64.compare cc (f.f64 a l) (f.f64 b l)).2) ∧
    (o.ctl.getLsbD 4 = false → Writes (.fclass o) fun _ => oneReg d [a] fun f l => F32.cls (f.f32 a l)) ∧
    (o.ctl.getLsbD 4 = true → Writes (.fclass o) fun _ => oneReg d [a, a + 1] fun f l => F64.cls (f.f64 a l)))

/-- 08 R213 to R219 (Tables 8-10, 8-11): the conversions, by the float code FMT and the code SUB8 of the control field. -/
def Obligations.Conversions : Prop :=
  ∀ (o : T64) (d a b fmt sub : Nat), d = o.d.toNat → a = o.a.toNat → b = o.b.toNat → fmt = o.ctl.toNat / 16 % 16 →
    sub = o.ctl.toNat / 256 % 16 →
    (fmt = 0 → d % 2 = 0 → WritesF64 (.cvtF2f o) d [a] fun e l => F64.ofNum (e.mode o) (F32.num (e.g.frame.f32 a l))) ∧
    (fmt = 1 → WritesF32 (.cvtF2f o) d [a, a + 1] fun e l => F32.ofNum (e.mode o) (F64.num (e.g.frame.f64 a l))) ∧
    (sub < 8 → ∀ srcs, ∀ val : Env → Nat → Machine.Num,
      (fmt = 0 ∧ srcs = [a, a + 1] ∧ val = fun e l => F64.num (e.g.frame.f64 a l)) ∨
        (fmt = 1 ∧ srcs = [a] ∧ val = fun e l => F32.num (e.g.frame.f32 a l)) →
      (sub % 4 ≠ 3 → WritesF32 (.cvtF2i o) d srcs fun e l => toIntR sub (e.mode o) (val e l)) ∧
      (sub % 4 = 3 → d % 2 = 0 → WritesF64 (.cvtF2i o) d srcs fun e l => toIntR sub (e.mode o) (val e l))) ∧
    (sub < 8 → ∀ srcs, ∀ val : Env → Nat → Int,
      (sub % 4 = 3 ∧ srcs = [a, a + 1] ∧ val = fun e l => intOf sub (e.g.frame.f64 a l)) ∨
        (sub % 4 ≠ 3 ∧ srcs = [a] ∧ val = fun e l => intOf sub (e.g.frame.f32 a l)) →
      (fmt = 1 → WritesF32 (.cvtI2f o) d srcs fun e l => F32.ofInt (e.mode o) (val e l)) ∧
      (fmt = 0 → d % 2 = 0 → WritesF64 (.cvtI2f o) d srcs fun e l => F64.ofInt (e.mode o) (val e l))) ∧
    (fmt = 2 ∨ fmt = 3 → sub = 0 → WritesF32 (.cvtNarrow o) d [a, b] fun e l =>
      narrowWord fmt (e.mode o) (o.ctl.getLsbD 3) 0 0 (e.g.frame.f32 a l) (e.g.frame.f32 b l)) ∧
    (4 ≤ fmt ∧ fmt ≤ 8 → sub < 4 → WritesF32 (.cvtNarrow o) d [a, b, d] fun e l =>
      narrowWord fmt (e.mode o) (o.ctl.getLsbD 3) sub (e.g.frame.f32 d l) (e.g.frame.f32 a l) (e.g.frame.f32 b l)) ∧
    (2 ≤ fmt → fmt ≤ 9 → sub < 8 → WritesF32 (.cvtWiden o) d [a] fun e l =>
      widenR fmt (e.g.frame.f32 a l / 2 ^ (elemBits fmt * sub) % 2 ^ (if fmt = 6 ∨ fmt = 7 then 6 else elemBits fmt)))

/-- 08 R219: PACKMX takes the lanes of ACTIVE as one block, writes each lane's element beside the block's scale, and
poisons every lane where one is poisoned. -/
def Obligations.BlockPacking : Prop :=
  ∀ (o : T64) (d a fmt : Nat), d = o.d.toNat → a = o.a.toNat → fmt = o.ctl.toNat / 16 % 16 →
    let num (e : Env) (l : Nat) := F32.num (e.g.frame.f32 a l)
    let odd (e : Env) (l : Nat) := (num e l).isNan || (num e l).isInf
    let scale (e : Env) : Nat := packScale fmt ((lanesOf e.act).map (num e))
    let elem (e : Env) (l : Nat) : FpR := (fpCode fmt).narrow (e.mode o) false ((num e l).scale (127 - (scale e : Nat)))
    let r (e : Env) (l : Nat) : FpR :=
      if (lanesOf e.act).any (odd e) then ⟨0xFF00, if odd e l then fNV else 0⟩
      else ⟨scale e * 256 + (elem e l).bits, (elem e l).fl⟩
    WritesFp (.packmx o) (fun _ e => ⟨[d], e.g.frame.formOther [a], fun _ l => BitVec.ofNat 32 (r e l).bits,
      fun _ _ => (lanesOf e.act).any fun j => e.g.frame.bad a j⟩) fun e l => (r e l).fl

/-- 08 R220 to R222: the planes of FP6 elements, and random words. -/
def Obligations.PlanesAndRandom : Prop :=
  ∀ (o : T64) (d a b : Nat), d = o.d.toNat → a = o.a.toNat → b = o.b.toNat →
    let elem (f : Frame) (l j : Nat) : Nat := (if j < 4 then f.f32 a l else f.f32 b l) / 2 ^ (8 * (j % 4)) % 64
    (o.ctl.getLsbD 4 = false → Writes (.planeSplit o) fun _ => oneReg d [a, b] fun f l =>
      BitVec.ofNat 32 ((List.range 8).map fun j => elem f l j / 4 * 2 ^ (4 * j)).sum) ∧
    (o.ctl.getLsbD 4 = true → Writes (.planeSplit o) fun _ => oneReg d [a, b, d] fun f l =>
      BitVec.ofNat 32 (putBits (f.f32 d l) (if o.ctl.getLsbD 5 then 16 else 0) 16
        ((List.range 8).map fun j => elem f l j % 4 * 2 ^ (2 * j)).sum)) ∧
    (∀ t, t = o.ctl.toNat / 16 % 4 → Writes (.planeJoin o) fun _ => oneReg d [a, b] fun f l =>
      BitVec.ofNat 32 ((List.range 4).map fun j =>
        (f.f32 a l / 2 ^ (4 * (4 * (t % 2) + j)) % 16 * 4 + f.f32 b l / 2 ^ (2 * (4 * t + j)) % 4) * 2 ^ (8 * j)).sum) ∧
    Writes (.rngCb o) fun _ => oneReg d [a, a + 1, b, b + 1] fun f l => rngWord (f.pair a l) (f.pair b l) o.fn.toNat

/-- 07 R188, R189: a direct branch jumps, traps where its target is out of range, or splits off the lanes that fall
through, which come first. -/
def Obligations.Branches : Prop :=
  ∀ (i : Instr) (off : DWord), (∃ o : B32, i = .bra o ∧ off = o.off.signExtend 64) ∨
      (∃ o : J64, i = .brl o ∧ off = o.off.signExtend 64) →
    ∀ s s1 g e t, Issues i s s1 g e → t = e.g.pc + 2 * off →
      (2 ^ 56 ≤ t.toNat → exec i s = .next (trapped s1 g 0 (laneTrap 6 5 e.act t.toNat))) ∧
      (t.toNat < 2 ^ 56 → e.act = e.g.active → Room e.g →
        exec i s = .next (s1.setGroup { e.g.advance i with pc := t })) ∧
      (t.toNat < 2 ^ 56 → e.act ≠ e.g.active → e.g.older = [] →
        ∀ parts, parts = [(e.g.active &&& ~~~e.act, fun h => h.advance i), (e.act, fun h => { h.advance i with pc := t })] →
          (s1.setGroup e.g).splitFault e.g parts = none → exec i s = .next ((s1.setGroup e.g).split e.g parts))

/-- 07 R190, R171, R188; 03 R60: BRX and CALLX check poison, then range, then alignment over ACTIVE; with one target for
the whole context they jump, or open a frame that returns past them. -/
def Obligations.IndirectTransfers : Prop :=
  ∀ (o : A32) (a : Nat) (i : Instr), a = o.a.toNat → a + 1 < 64 → i = .brx o ∨ i = .callx o →
    ∀ s s1 g e, Issues i s s1 g e →
      let t (l : Nat) : Nat := (e.g.frame.pair a l).toNat
      let clean := ∀ l, e.act.getLsbD l = true → e.g.frame.bad a l = false ∧ e.g.frame.bad (a + 1) l = false
      let far : Mask := maskOf fun l => e.act.getLsbD l && decide (2 ^ 56 ≤ t l)
      let odd : Mask := maskOf fun l => e.act.getLsbD l && t l % 2 == 1
      (∀ r l, FirstPoison e.g.frame e.act [a, a + 1] r l → exec i s = .next (trapped s1 g 0 (mkTrap 13 (r + 256 * l)))) ∧
      (clean → far ≠ 0 → exec i s = .next (trapped s1 g 0 (laneTrap 6 5 far (t (lowLane far))))) ∧
      (clean → far = 0 → odd ≠ 0 → exec i s = .next (trapped s1 g 0 (laneTrap 5 0 odd (t (lowLane odd))))) ∧
      (clean → far = 0 → odd = 0 → e.act = e.g.active → ∀ x : DWord, (∀ l, e.act.getLsbD l = true → t l = x.toNat) →
        (i = .brx o → Room e.g → exec i s = .next (s1.setGroup { e.g.advance i with pc := x })) ∧
        (i = .callx o → e.g.depth < e.g.depthLimit → Room ((e.g.advance i).call (e.g.pc + 4) x) →
          exec i s = .next (s1.setGroup ((e.g.advance i).call (e.g.pc + 4) x))) ∧
        (i = .callx o → e.g.depthLimit ≤ e.g.depth → exec i s = .next (trapped s1 g 0 (mkTrap 16 0))))

/-- 03 R60: what opening a frame does: the last eight v registers of the caller, with their forms and poison, are the first
eight of the callee; predicates and handles are copied; tokens are complete; the new frame is not entered. -/
def Obligations.FrameOpening : Prop :=
  ∀ (g : Group) (ret t : DWord) (h : Group), h = g.call ret t → 8 ≤ g.frame.fsz → g.frame.fsz ≤ 64 →
    h = { g with frame := h.frame, older := h.older, depth := g.depth + 1, pc := t } ∧
    (∀ k < 8, h.frame.reg? k = g.frame.reg? (g.frame.fsz - 8 + k)) ∧
    (∀ k, 8 ≤ k → h.frame.reg? k = none) ∧
    h.frame.p = g.frame.p ∧ h.frame.h = g.frame.h ∧ (∀ k < 8, h.frame.k.getD k Token.complete = Token.complete) ∧
    h.frame.fsz = 8 ∧ h.frame.table = none ∧ h.frame.entered = false ∧
    ∃ c, h.older = c :: g.older ∧ c = { g.frame with v := c.v, resumePC := ret } ∧
      ∀ k < g.frame.fsz - 8, c.reg? k = g.frame.reg? k

/-- 07 R188, R191, R193; 03 R60, R62: CALL opens a frame; RET gives its first eight registers back to the caller,
waits for a caller that is not resident, and traps at a frame that trap entry made previous, resident or not, and at one whose record
was lost. A call and its return leave every
register of the frame as it was, and the frame's own fields. -/
def Obligations.CallsAndReturnsNested : Prop :=
 ((∀ (o : J64) (i : Instr), i = .call o → ∀ s s1 g e t, Issues i s s1 g e → t = e.g.pc + 2 * o.off.signExtend 64 →
    (2 ^ 56 ≤ t.toNat → exec i s = .next (trapped s1 g 0 (laneTrap 6 5 e.act t.toNat))) ∧
    (t.toNat < 2 ^ 56 → e.act = e.g.active → e.g.depthLimit ≤ e.g.depth → exec i s = .next (trapped s1 g 0 (mkTrap 16 0))) ∧
    (t.toNat < 2 ^ 56 → e.act = e.g.active → e.g.depth < e.g.depthLimit → Room ((e.g.advance i).call (e.g.pc + 8) t) →
      exec i s = .next (s1.setGroup ((e.g.advance i).call (e.g.pc + 8) t)))) ∧
  ∀ (o : A32) (i : Instr), i = .ret o → ∀ s s1 g e, Issues i s s1 g e → e.act = e.g.active → 0 < e.g.depth →
    (e.g.sibling = false ∨ e.g.sb ≠ some e.g.depth) →
    (e.g.older = [] → exec i s = .next (if (s1.setGroup e.g).callerTP e.g then trapped s1 g 0 (mkTrap 17 5)
      else s1.setGroup { g with wse := .refill })) ∧
    (∀ c rest, e.g.older = c :: rest → c.lost = true → exec i s = .next (trapped s1 g 0 (spillImageError 0))) ∧
    (∀ c rest, e.g.older = c :: rest → c.lost = false → c.tp = true → exec i s = .next (trapped s1 g 0 (mkTrap 17 5))) ∧
    ∀ c rest, e.g.older = c :: rest → c.lost = false → c.tp = false → ∀ h, h = (e.g.advance i).return_ c rest → Room h →
      exec i s = .next (s1.setGroup h) ∧
      h = { e.g.advance i with frame := { c with v := h.frame.v }, older := rest, depth := e.g.depth - 1, pc := c.resumePC } ∧
      ∀ k < 64, h.frame.reg? k =
        if c.fsz - 8 ≤ k ∧ k < c.fsz then e.g.frame.reg? (k - (c.fsz - 8)) else c.reg? k) ∧
 (∀ (g h : Group) (ret t : DWord) (c : Frame), 8 ≤ g.frame.fsz → g.frame.fsz ≤ 64 →
    (g.call ret t).older = c :: g.older → h = (g.call ret t).return_ c g.older →
    h.depth = g.depth ∧ h.pc = ret ∧ h.older = g.older ∧ (∀ k < 64, h.frame.reg? k = g.frame.reg? k) ∧
      h.frame = { g.frame with v := h.frame.v, resumePC := ret })

/-- 03 R61, R63; 07 R192: ENTER gives its frame its size and manifest table and makes the registers above v7 absent; it
traps in a frame that is entered, at a table that is not aligned, and where spill room is short. -/
def Obligations.FrameEntry : Prop :=
  ∀ (o : J64) (i : Instr), i = .enter o → ∀ s s1 g e, Issues i s s1 g e →
    let t := e.g.pc + 2 * o.off.signExtend 64
    let aligned := o.off = 0 ∨ t.toNat % 16 = 0
    let top := (s1.setGroup e.g).spillTop e.g + e.g.olderBytes
    let lim := (s1.setGroup e.g).spillLim e.g
    (¬aligned → exec i s = .next (trapped s1 g 0 (mkTrap 0 (2 + 256 * 7 + 65536 * lenCode 8)))) ∧
    (aligned → e.g.frame.entered = true → exec i s = .next (trapped s1 g 0 (mkTrap 17 1))) ∧
    (aligned → e.g.frame.entered = false → e.g.inTrap = false → lim < top + 16384 →
      exec i s = .next (trapped s1 g 0 (mkTrap 16 1))) ∧
    (aligned → e.g.frame.entered = false → (if e.g.inTrap then top ≤ lim else top + 16384 ≤ lim) →
      ∀ f, f = { e.g.frame with
        fsz := 8 * o.d.toNat, table := if o.off = 0 then none else some t, entered := true
        v := (List.range 64).map fun k => if k < 8 then e.g.frame.reg? k else none } →
      Room { e.g with frame := f } → exec i s = .next (after i s1 e.g 0 f))

/-- 07 R186, R187, R194, R196, R197: what has no effect on data: NOP, YIELD, JOIN in a context that never split (it
waits for its side-log parts), WSYNC with no spill outstanding, PIN and UNPIN. -/
def Obligations.SimpleControl : Prop :=
  ∀ (o : A32) (s s1 : State) (g : Group) (e : Env),
    (Issues (.nop o) s s1 g e → Room e.g → exec (.nop o) s = .next (s1.setGroup (e.g.advance (.nop o)))) ∧
    (Issues (.wsync o) s s1 g e → Room e.g → exec (.wsync o) s = .next (s1.setGroup (e.g.advance (.wsync o)))) ∧
    (Issues (.join o) s s1 g e → Room e.g → e.g.sibling = false → (s1.setGroup e.g).sideBusy e.g.uid = false →
      exec (.join o) s = .next (s1.setGroup (e.g.advance (.join o)))) ∧
    (Issues (.join o) s s1 g e → (s1.setGroup e.g).sideBusy e.g.uid = true → exec (.join o) s = .next (s1.setGroup g)) ∧
    (Issues (.pin o) s s1 g e → Room e.g → exec (.pin o) s = .next (s1.setGroup
      ({ e.g with pinned := true, affL := e.g.l, affC := e.g.core }.advance (.pin o)))) ∧
    (Issues (.unpin o) s s1 g e → Room e.g →
      exec (.unpin o) s = .next (s1.setGroup ({ e.g with pinned := false }.advance (.unpin o)))) ∧
    (Issues (.yield o) s s1 g e → Room e.g → ∃ hold, (∀ u ∈ hold, ∃ h ∈ (s1.setGroup e.g).groups, h.uid = u ∧ u ≠ e.g.uid ∧
        h.l = e.g.l ∧ h.core = e.g.core ∧ h.cls = e.g.cls ∧ h.ready = true) ∧
      exec (.yield o) s = .next (s1.setGroup ({ e.g with hold := hold }.advance (.yield o))))

/-- 07 R198: TRAP and SYSCALL trap at themselves with their code and ACTIVE. -/
def Obligations.SoftwareTraps : Prop :=
  ∀ (o : I32) (s s1 : State) (g : Group) (e : Env),
    (Issues (.trap o) s s1 g e → exec (.trap o) s =
      .next (trapped s1 g 0 ⟨35, BitVec.ofNat 64 (o.imm.toNat + 2 ^ 32 * e.act.toNat), 0⟩)) ∧
    (Issues (.syscall o) s s1 g e → exec (.syscall o) s =
      .next (trapped s1 g 0 ⟨36, BitVec.ofNat 64 (o.imm.toNat + 2 ^ 32 * e.act.toNat), 0⟩))

/-- 17 R353 to R355: trap entry, where it is delivered and has room: the trapping frame becomes previous with TP and
resumes at the instruction; the new frame holds the trap record in U registers; FXE and DEADTRAP are cleared; LA windows, and
what the instruction kept while it waited, are gone; nothing else of the context changes. -/
def Obligations.TrapEntry : Prop :=
  ∀ (s : State) (g : Group) (t : Trap) (c : Ctx), c = s.ctx g.ctx → c.utrapVec ≠ 0 →
    (1 ≤ c.pl ∧ t.cause ≠ 37 ∨ c.pl = 0 ∧ c.trapDeleg.getLsbD t.cause = true) → g.depth ≠ 65535 →
    s.spillTop g + g.olderBytes + (g.frame.image 0).length ≤ s.spillLim g →
    ∀ h, h = g.enterTrap t c.utrapVec → Room h →
      s.takeTrap g t = s.setGroup h ∧
      h = { g with
        frame := h.frame, older := { g.frame with resumePC := g.pc, tp := true } :: g.older
        gmode := g.gmode &&& ~~~0xFC, inTrap := true, depth := g.depth + 1, pc := c.utrapVec, pend := none
        la := [], carried := none, asked := [], mark := none, satisfied := 0, watch := [], busy := false, flush := none
        progIdx := 0, progress := h.progress } ∧
      h.frame.fsz = 8 ∧ h.frame.entered = false ∧ h.frame.table = none ∧
      (∀ k < 8, h.frame.p.getD k none = none ∧ h.frame.h.getD k none = none ∧
        h.frame.k.getD k Token.complete = Token.complete) ∧
      (∀ k, 8 ≤ k → h.frame.reg? k = none) ∧
      ∀ k (x : Word), (k, x) ∈ [(0, g.pc.setWidth 32), (1, (g.pc >>> 32).setWidth 32),
          (2, BitVec.ofNat 32 (t.cause + if g.inTrap then 256 else 0)), (3, g.gmode), (4, t.info.setWidth 32),
          (5, (t.info >>> 32).setWidth 32), (6, t.addr.setWidth 32), (7, (t.addr >>> 32).setWidth 32)] →
        h.frame.reg? k = some ⟨.u x, 0⟩

/-- 17 R356: where trap entry cannot open a frame, the context is parked with cause 37, and the cause that failed to enter
in TRAPINFO[5:0]. -/
def Obligations.TrapEntryFails : Prop :=
  ∀ (s : State) (g : Group) (t : Trap), (s.ctx g.ctx).entersTrap t.cause = true → g.depth = 65535 → t.cause < 64 →
    ∃ u : Trap, s.takeTrap g t = s.trapPark g u t 3 ∧ u.cause = 37 ∧ u.info.toNat % 64 = t.cause

/-- 17 R359, R355: RTE traps, in order, outside a trap, at depth 0, where v0 to v3 are absent or hold what no trap saved,
are poisoned, or name no instruction; else, with ADV clear, the previous frame is current again at the saved pc, with the
saved GMODE and in-trap flag. -/
def Obligations.TrapReturn : Prop :=
  ∀ (o : T64) (i : Instr), i = .rte o → o.ctl.getLsbD 0 = false → ∀ s s1 g e, Issues i s s1 g e →
    let l0 := lowLane e.g.active
    let w (n : Nat) : Word := e.g.frame.lane n l0
    let pc : DWord := w 1 ++ w 0
    let here := ∀ n < 4, ∃ r, e.g.frame.reg? n = some r
    let legal := (w 2).toNat < 512 ∧ (w 2).toNat / 64 % 4 = 0 ∧ (w 3).toNat < 256
    (e.g.inTrap = false → exec i s = .next (trapped s1 g 0 (mkTrap 17 2))) ∧
    (e.g.inTrap = true → e.g.depth = 0 → exec i s = .next (trapped s1 g 0 (mkTrap 17 3))) ∧
    (e.g.inTrap = true → 0 < e.g.depth → ¬(here ∧ legal) → exec i s = .next (trapped s1 g 0 (mkTrap 17 4))) ∧
    (e.g.inTrap = true → 0 < e.g.depth → here → legal →
      (∀ n < 4, e.g.frame.bad n l0 = true → (∀ k < n, e.g.frame.bad k l0 = false) →
        exec i s = .next (trapped s1 g 0 (mkTrap 13 (n + 256 * l0)))) ∧
      ((∀ n < 4, e.g.frame.bad n l0 = false) →
        (2 ^ 56 ≤ pc.toNat → exec i s = .next (trapped s1 g 0 (laneTrap 6 5 e.g.active pc.toNat))) ∧
        (pc.toNat < 2 ^ 56 → pc.toNat % 2 = 1 → exec i s = .next (trapped s1 g 0 (laneTrap 5 0 e.g.active pc.toNat))) ∧
        (pc.toNat < 2 ^ 56 → pc.toNat % 2 = 0 → e.g.older = [] → exec i s = .next (s1.setGroup { g with wse := .refill })) ∧
        (pc.toNat < 2 ^ 56 → pc.toNat % 2 = 0 → ∀ c rest, e.g.older = c :: rest → c.lost = true →
          exec i s = .next (trapped s1 g 0 (spillImageError 0))) ∧
        (pc.toNat < 2 ^ 56 → pc.toNat % 2 = 0 → ∀ c rest, e.g.older = c :: rest → c.lost = false →
          ∀ h, h = (e.g.advance i).returnTrap (e.g.resumed c) pc (w 2) (w 3) → Room h →
            exec i s = .next (s1.setGroup h) ∧
            h = { e.g.advance i with
              frame := { c with tp := false, v := h.frame.v }, older := rest, depth := e.g.depth - 1, gmode := w 3
              inTrap := (w 2).getLsbD 8, pc := pc, progIdx := h.progIdx, progress := h.progress } ∧
            ∀ k < 64, h.frame.reg? k =
              if c.tp = false ∧ c.fsz - 8 ≤ k ∧ k < c.fsz then e.g.frame.reg? (k - (c.fsz - 8)) else c.reg? k)))

/-- 09 R230, R231; 05 R120: LD and LD.L, where every lane is here, take the lanes of one batch of 16 lines (all of them when
they touch no more): each lane's registers take the value and the poison its bytes read as, one read for all where every
address register is in form U; the last batch completes the instruction; no byte of memory changes. -/
def Obligations.Loads : Prop :=
  ∀ (o : M64) (i : Instr) (n d : Nat) (regs : List Nat), n = sizeBytes o.size → d = o.d.toNat → d + sizeRegs o.size ≤ 64 →
    regs = addrRegs (o.af == 1) o.a.toNat →
    ∀ s s1 g e va xs t, Issues i s s1 g e → va = memAddr (s1.ctx e.g.ctx) e.g o →
      (i = .ld o ∧ Here accLoad n regs va s1 e xs t ∨ i = .ldL o ∧ Here accLoadL n regs va s1 e xs t) →
      RoomFor e.g (loadRegs o.size d) [] [] →
      ∀ uni near batch count, uni = regs.all e.g.frame.isU → near = (if uni then xs.take 1 else xs) →
        count = ((lineOrder near).length + 15) / 16 → batch = batchOf near e.g.progIdx →
        e.g.progIdx < count →
        ∀ got : Nat → Nat × Bool, (∀ x ∈ batch, ∀ l, uni = true ∨ l = x.1 → got l = t.seen n x.2) →
          ∃ u f', u = (t.readLanes n batch).2 ∧ (∀ b, u.mem.byte b = t.mem.byte b) ∧
            Wrote e.g.frame f' e.g.active (if count ≤ 1 then e.act else failMask (batch.map Prod.fst))
              (loaded o.size d (if uni then .u else .g) got) ∧
            exec i s = .next (if e.g.progIdx + 1 < count
              then u.setGroup { e.g with frame := f', progIdx := e.g.progIdx + 1, carried := some xs, busy := regs.any (loadRegs o.size d).contains }
              else u.setGroup (({ ({ e.g with frame := f' }.laLines i (near.map fun (x : Nat × Loc) => x.2.pa)) with lastCopy := none } : Group).advance i))

/-- 09 R232, R229; 05 R120, R122: ST, where every lane is here, writes its lanes in ascending order and completes: a byte
that no lane covers keeps its value, and a byte that lanes cover takes the byte of the highest of them; PSTORE is set where
the data of a lane is poisoned; registers do not change. -/
def Obligations.Stores : Prop :=
  ∀ (o : M64) (i : Instr) (n : Nat), i = .st o → n = sizeBytes o.size →
    ∀ s s1 g e va xs t, Issues i s s1 g e → va = memAddr (s1.ctx e.g.ctx) e.g o →
      Here (accStore.wide n) n (addrRegs (o.af == 1) o.a.toNat) va s1 e xs t → Room e.g →
      ∀ (val : Nat → Nat) (bad : Nat → Bool) (u : State),
        (∀ l, val l = dataLane e.g.frame o.b.toNat (sizeRegs o.size) n l) →
        (∀ l, bad l = e.g.frame.badRun o.b.toNat (sizeRegs o.size) l) →
        u = t.writeLanes (t.ctx e.g.ctx).pl n val bad xs →
        exec i s = .next (u.setGroup (({ ((e.g.pstore e.act bad).laLines i (xs.map fun (x : Nat × Loc) => x.2.pa)) with
          lastCopy := none } : Group).advance i)) ∧
        (InMemory t xs → t.mem.wf = true → u.mem.wf = true ∧ ∀ b, (¬Covers t n xs b → u.mem.byte b = t.mem.byte b) ∧
          ∀ pre x post, xs = pre ++ x :: post → Covers t n [x] b → ¬Covers t n post b →
            u.mem.byte b = BitVec.ofNat 8 (val x.1 / 2 ^ (8 * (b - t.mem.backing x.2 false))))

/-- 09 R234, R235, R229; 05 R122: ATOM and ATOM.CAS, where every lane is here: the destination takes what each lane's bytes
read as before it; ATOM writes the combination of Table 9-3, ATOM.CAS the new value where the bytes compare equal, lane
after lane in ascending order; no other byte of memory changes. -/
def Obligations.Atomics : Prop :=
  ∀ (o : M64) (n d b k : Nat), n = sizeBytes o.size → d = o.d.toNat → b = o.b.toNat → k = sizeRegs o.size → d + k ≤ 64 →
    ∀ s s1 g e va xs t, va = memAddr (s1.ctx e.g.ctx) e.g o →
      Here (accAtom.wide n) n (addrRegs (o.af == 1) o.a.toNat) va s1 e xs t → RoomFor e.g (loadRegs o.size d) [] [] →
      ∀ (out : Nat → Nat × Bool) (pas : List Nat), pas = xs.map (fun (x : Nat × Loc) => x.2.pa) →
        let f := e.g.frame
        let val (l : Nat) : Nat := dataLane f b k n l
        let bad (l : Nat) : Bool := f.badRun b k l
        (∀ i got fl u, i = .atom o → Issues i s s1 g e → (∀ r ∈ got, out r.1 = r.2) →
          (t.beatTwice (xs.map Prod.snd) n).atomLanes (s1.ctx e.g.ctx).pl o.fn.toNat n val bad xs = (got, fl, u) →
          (∃ f', Wrote f f' e.g.active e.act (loaded o.size d .g out) ∧
            exec i s = .next (u.setGroup (({ (({ (e.g.pstore e.act bad).sticky (fl.setWidth 32) with frame := f' } : Group).laLines i
              pas) with lastCopy := none } : Group).advance i))) ∧
          (InMemory t xs → t.mem.wf = true → u.mem.wf = true ∧ (∀ a, ¬Covers t n xs a → u.mem.byte a = t.mem.byte a) ∧
            ∀ x pa, xs = [x] → pa = t.mem.backing x.2 false →
              got = [(x.1, t.mem.num pa n, t.mem.unreadable pa n)] ∧
              ∀ a, pa ≤ a → a < pa + n → u.mem.byte a =
                BitVec.ofNat 8 ((combine o.fn.toNat n (t.mem.num pa n) (val x.1)).1 / 2 ^ (8 * (a - pa))))) ∧
        let new (l : Nat) : Nat := dataLane f (b + k) k n l
        let newBad (l : Nat) : Bool := f.badRun (b + k) k l
        ∀ i got hits u, i = .atomCas o → Issues i s s1 g e → (∀ r ∈ got, out r.1 = (r.2.1, r.2.2 || bad r.1)) →
          (t.beatLocs (xs.map Prod.snd) n).casLanes (s1.ctx e.g.ctx).pl n val new newBad xs = (got, hits, u) →
          (∃ f', Wrote f f' e.g.active e.act (loaded o.size d .g out) ∧
            exec i s = .next ((u.beatLocs ((xs.filter fun x => hits.contains x.1).map Prod.snd) n true).setGroup
              (({ (({ e.g.pstore e.act (fun l => hits.contains l && newBad l) with frame := f' } : Group).laLines i pas) with
                lastCopy := none } : Group).advance i))) ∧
          (InMemory t xs → t.mem.wf = true → u.mem.wf = true ∧ (∀ a, ¬Covers t n xs a → u.mem.byte a = t.mem.byte a) ∧
            ∀ x pa, xs = [x] → pa = t.mem.backing x.2 false →
              got = [(x.1, t.mem.num pa n, t.mem.unreadable pa n)] ∧
              ∀ a, pa ≤ a → a < pa + n → u.mem.byte a = if t.mem.num pa n = val x.1
                then BitVec.ofNat 8 (new x.1 / 2 ^ (8 * (a - pa))) else t.mem.byte a)

/-- 09 R233, R236, R237, R229; 05 R127, R128: ST.P, RED.P and RED.K, where no lane fails a check and no side-log part holds
them back, put one part for each home on the pair of landings toward it, behind what the pair carries, and complete: the
lanes carry their data, counters and keys; the horizon takes the issue time; no byte of memory and no register changes. -/
def Obligations.PostedOperations : Prop :=
  ∀ (o : M64) (i : Instr) (op : PostOp) (a : Access) (ctr : Bool) (extra : List Nat) (n : Nat), n = sizeBytes o.size →
    (i = .stP o ∧ op = .store ∧ a = accPost ∧ ctr = (o.d != 0) ∧ extra = [] ∨
      i = .redP o ∧ op = .reduce (redCode o.fn.toNat) ∧ a = accPost ∧ ctr = false ∧ extra = [] ∨
      i = .redK o ∧ op = .keyed (redCode o.fn.toNat) ∧ a = accKeyed ∧ ctr = false ∧ extra = [o.d.toNat]) →
    ∀ s s1 g e va cva xs cs t u, Issues i s s1 g e → Room e.g → va = memAddr (s1.ctx e.g.ctx) e.g o →
      cva = ctrAddr (s1.ctx e.g.ctx) e.g o → Checked (a.wide n) n (addrRegs (o.af == 1) o.a.toNat ++ extra) va s1 e xs t →
      (if ctr then (∀ r ∈ addrRegs (o.af == 1) o.d.toNat, ∀ l, e.act.getLsbD l = true → e.g.frame.bad r l = false) ∧
          (∀ l, e.act.getLsbD l = true → cva l < 2 ^ 56 ∧ cva l % 8 = 0) ∧
          t.translateLanes e.g.l e.g.ctx (accPost.wide 8) ((lanesOf e.act).map fun l => (l, cva l)) = ⟨cs, [], [], u⟩ ∧
          ∀ x ∈ xs, ∀ c ∈ cs, x.1 = c.1 → x.2.site = c.2.site
        else cs = [] ∧ u = t) →
      ∀ (bad : Nat → Bool) (posts : List PostLane) (v : State),
        (∀ l, bad l = e.g.frame.badRun o.b.toNat (sizeRegs o.size) l) →
        posts = xs.map (fun (x : Nat × Loc) => (⟨x.1, x.2, dataLane e.g.frame o.b.toNat (sizeRegs o.size) n x.1, bad x.1,
          (cs.find? fun c => c.1 == x.1).map Prod.snd, e.g.frame.lane o.d.toNat x.1⟩ : PostLane)) →
        v = u.sendPosts e.g op n posts →
        exec i s = .next (v.setGroup ((({ e.g.pstore e.act bad with horizon := max e.g.horizon (s1.ftAt e.g.l) } : Group).laLines i
          (xs.map fun (x : Nat × Loc) => x.2.pa)).advance i)) ∧ v.mem = u.mem ∧
        ((∀ x ∈ xs, x.2.peer = none) → ∀ src dst lanes, lanes = posts.filter (fun p => home p.loc.pa == dst) →
          v.pair src dst = if src = e.g.l ∧ lanes ≠ []
            then u.pair src dst ++ [.post ⟨op, e.g.ctx, (u.ctx e.g.ctx).pl, [e.g.uid], e.g.tag, n, u.ftAt e.g.l, lanes, none, false, false⟩]
            else u.pair src dst)

/-- 06 R158, 09 R224, R225: the address of a lane is its pair, or the heap window's base plus its register, plus the signed
offset in units of the access size. 09 R227, Table 9-2: poison of an address register is trapped first, then an address at or
above 2^56, then one that is not aligned, each over the lanes that fail and with the address of the lowest. -/
def Obligations.AddressChecks : Prop :=
  (∀ (c : Ctx) (g : Group) (o : M64) (l : Nat), BitVec.ofNat 64 (memAddr c g o l) =
    (if o.af = 1 then c.heapBase + (g.frame.lane o.a.toNat l).setWidth 64 else g.frame.pair o.a.toNat l) +
      o.off.signExtend 64 * BitVec.ofNat 64 (sizeBytes o.size)) ∧
  ∀ (o : M64) (i : Instr) (code n : Nat) (s s1 : State) (g : Group) (e : Env) (ops : List AddrOp) (mem ctr key : AddrOp),
    mem = memOp (s1.ctx e.g.ctx) e.g o n →
    ctr = ⟨addrRegs (o.af == 1) o.d.toNat, 8, ctrAddr (s1.ctx e.g.ctx) e.g o⟩ → key = { mem with regs := mem.regs ++ [o.d.toNat] } →
    ((n = sizeBytes o.size ∧ (i = .ld o ∧ code = 0 ∨ i = .ldL o ∧ code = 0 ∨ i = .st o ∧ code = 1 ∨ i = .atom o ∧ code = 2 ∨
        i = .atomCas o ∧ code = 2) ∧ ops = [mem]) ∨
      n = sizeBytes o.size ∧ i = .stP o ∧ code = 3 ∧ ops = mem :: (if o.d = 0 then [] else [ctr]) ∨
      n = sizeBytes o.size ∧ i = .redP o ∧ code = 3 ∧ ops = [mem] ∨ n = sizeBytes o.size ∧ i = .redK o ∧ code = 3 ∧ ops = [key] ∨
      n = 8 ∧ i = .cwait o ∧ code = 2 ∧ ops = [mem] ∨ n = 1 ∧ i = .migrate o ∧ code = 0 ∧ ops = [mem]) →
    Issues i s s1 g e → e.g.carried = none → (s1.setGroup e.g).sideBusy e.g.uid = false →
      (∀ r l, r < 64 → FirstPoison e.g.frame e.act (ops.flatMap AddrOp.regs) r l → exec i s = .next (trapped s1 g 0 (mkTrap 13 (r + 256 * l)))) ∧
      ((∀ r ∈ ops.flatMap AddrOp.regs, ∀ l, e.act.getLsbD l = true → e.g.frame.bad r l = false) →
        (∀ m addr, Fails e.act ops (fun _ v => 2 ^ 56 ≤ v) m addr → exec i s = .next (trapped s1 g 0 (laneTrap 6 code m addr))) ∧
        ((∀ l, e.act.getLsbD l = true → ∀ x ∈ ops, x.va l < 2 ^ 56) → ∀ m addr, Fails e.act ops (fun x v => v % x.align ≠ 0) m addr →
          exec i s = .next (trapped s1 g 0 (laneTrap 7 code m addr))))

/-- 09 R239 to R241, R238; 05 R131, R135: FENCE completes at an adoption after its issue at which its tide has passed the
horizon, CWAIT once every lane's counter has reached its value, MIGRATE where its address is home; REDCLOSE gives each home
its pages to close, and completes when no home holds them. Until then each waits, and changes no register. -/
def Obligations.OrderingAndWaits : Prop :=
  ∀ (o : M64) (s s1 : State) (g : Group) (e : Env), Room e.g →
    (∀ i, i = .fence o → Issues i s s1 g e →
      (o.scope = 0 → exec i s = .next (s1.setGroup (e.g.advance i))) ∧
      (o.scope ≠ 0 → (s1.setGroup e.g).sideBusy e.g.uid = false →
        ∀ tide ad, (tide, ad) = (s1.landing e.g.l).tide o.scope.toNat →
          (e.g.mark = none → exec i s = .next (s1.setGroup { g with mark := some ad })) ∧
          ∀ m, e.g.mark = some m →
            (m < ad → e.g.horizon < tide → exec i s = .next (s1.setGroup (e.g.advance i))) ∧
            (¬(m < ad ∧ e.g.horizon < tide) → exec i s = .next (s1.setGroup g)))) ∧
    (∀ i, i = .cwait o → Issues i s s1 g e → ∀ va xs t, va = memAddr (s1.ctx e.g.ctx) e.g o →
      Here accCwait 8 (addrRegs (o.af == 1) o.a.toNat) va s1 e xs t →
        ∃ u : State, (∀ b, u.mem.byte b = t.mem.byte b) ∧ u.groups = t.groups ∧
          ((∀ l, e.act.getLsbD l = true → e.g.satisfied.getLsbD l = true ∨ ∃ x ∈ xs, x.1 = l ∧
              (e.g.frame.pair o.b.toNat l).toNat ≤ (t.seen 8 x.2).1) →
            exec i s = .next (u.setGroup ((e.g.laLines i (xs.map fun (x : Nat × Loc) => x.2.pa)).advance i))) ∧
          ((∃ l, e.act.getLsbD l = true ∧ e.g.satisfied.getLsbD l = false ∧ ∀ x ∈ xs, x.1 = l →
              (t.seen 8 x.2).1 < (e.g.frame.pair o.b.toNat l).toNat) →
            ∃ sat watch, exec i s = .next (u.setGroup { g with satisfied := sat, watch := watch, carried := some xs }) ∧
              ∀ l < 32, sat.getLsbD l = true ↔ e.g.satisfied.getLsbD l = true ∨ ∃ x ∈ xs, x.1 = l ∧
                (e.g.frame.pair o.b.toNat l).toNat ≤ (t.seen 8 x.2).1)) ∧
    (∀ i, i = .migrate o → Issues i s s1 g e → ∀ va xs t, va = memAddr (s1.ctx e.g.ctx) e.g o →
      Here accMigrate 1 (addrRegs (o.af == 1) o.a.toNat) va s1 e xs t → exec i s = .next (t.setGroup (e.g.advance i))) ∧
    ∀ i, i = .redclose o → Issues i s s1 g e → ∀ n va, n = (e.g.frame.lane o.b.toNat (lowLane e.act)).toNat →
      va = memAddr (s1.ctx e.g.ctx) e.g o (lowLane e.act) →
        (∀ id, e.g.mark = some id → (∀ x ∈ s1.landings, ∀ c ∈ x.mn.closes, c.id ≠ id) →
          exec i s = .next (s1.setGroup (e.g.advance i))) ∧
        (∀ id, e.g.mark = some id → (∃ x ∈ s1.landings, ∃ c ∈ x.mn.closes, c.id = id) → exec i s = .next (s1.setGroup g)) ∧
        (e.g.mark = none → (s1.setGroup e.g).plainBusy e.g.uid = false → (∀ r ∈ addrRegs (o.af == 1) o.a.toNat, e.g.frame.bad r (lowLane e.act) = false) →
          va < 2 ^ 56 → va % 0x20000 = 0 →
          (n = 0 ∨ 65536 < n → exec i s = .next (trapped s1 g 0 (illegalTrap 2 11 8))) ∧
          (0 < n → n ≤ 65536 → ∀ xs t, (s1.setGroup e.g).translatePages e.g.l e.g.ctx accClose va n = .ok (xs, t) →
            ∃ u : State, exec i s = .next (u.setGroup { g with mark := some t.nextReq, busy := true }) ∧ u.mem = t.mem ∧ u.groups = t.groups ∧
              u.nextReq = t.nextReq + 1 ∧ ∀ l < t.landings.length, (u.landing l).mn.closes = (t.landing l).mn.closes ++
                if xs.any (fun x => home x.pa == l)
                  then [⟨t.nextReq, e.g.ctx, (xs.filter fun x => home x.pa == l).map Loc.pa, none⟩] else []))

/-- 09 R245 to R249; 09 R247, R248: BAR.INIT makes an object of the team with no arrivals and registers it with the team's record (on a peer module by a link item); BAR.ARRIVE and
BAR.SYNC record the rank and return the phase, which the last arrival advances, releasing the waiters on it; BAR.WAIT and
BAR.SYNC complete when the phase is not the token's, and else wait on it; the checks of R246 trap, and a broken object traps
its waiters. An arrival that is not the last sets its rank's bit; the last clears the arrivals, advances the phase and lets
those waiting on the old phase pass; and where the live ranks that have not arrived are too few to complete the phase, the
object breaks and those waiting on it trap. No other byte of memory changes. -/
def Obligations.BarrierObjects : Prop :=
 (∀ (o : M64) (s s1 : State) (g : Group) (e : Env) (x : Loc) (t v : State) (b : BarObj) (va : Nat) (w : Nat → Word) (a : Access),
    va = memAddr (s1.ctx e.g.ctx) e.g o (lowLane e.act) → b = t.mem.bar x.pa → v = t.touch x.pa 64 →
    (∀ r, w r = e.g.frame.lane r (lowLane e.act)) →
    OneHere a (memOp (s1.ctx e.g.ctx) e.g o 64) s1 e x t → e.g.sibling = false →
    let d := o.d.toNat
    let broken := b.unreachable (t.liveAt x.pa) va
    (∀ (i : Instr) (init arriving : Bool),
      (i = .barInit o ∧ a = accBar ∧ init = true ∧ arriving = false ∧ 0 < (w o.b.toNat).toNat ∧ (w o.b.toNat).toNat ≤ 128 ∨
        i = .barArrive o ∧ a = accBar ∧ init = false ∧ arriving = true ∨ i = .barWait o ∧ a = accBarWait ∧ init = false ∧ arriving = false ∨
        i = .barSync o ∧ a = accBar ∧ init = false ∧ arriving = (e.g.progIdx != 1)) → Issues i s s1 g e →
      ∀ k, barCheck t e.g x.pa b init arriving = some k → exec i s = .next (trapped t g 0 (barTrap k va))) ∧
    (∀ i n, i = .barInit o → a = accBar → Issues i s s1 g e → Room e.g → n = (w o.b.toNat).toNat → 0 < n → n ≤ 128 → e.g.team < 65536 →
      barCheck t e.g x.pa b true false = none →
      ∃ u, exec i s = .next (u.setGroup (e.g.advance i)) ∧ u.groups = t.groups ∧ OnlyAt t u x.pa 24 ∧
        (t.mem.wf = true → u.mem.bar x.pa = ⟨e.g.team, 1, n, 0, 0, false⟩) ∧
        (e.g.origin = none → ∀ tm, t.team? e.g.ctx e.g.tag e.g.team = some tm → u.liveAt x.pa = tm.live ∧
          ∃ tm', u.team? e.g.ctx e.g.tag e.g.team = some tm' ∧ x.pa ∈ tm'.objects) ∧
        ∀ p y, e.g.origin = some p → y = v.putBar x.pa ⟨e.g.team, 1, n, 0, 0, false⟩ →
          u = y.sendPeer p e.g.l e.g.anchor (y.ftAt e.g.l) (.register e.g.ctx e.g.tag e.g.team x.pa)) ∧
    (∀ i, i = .barArrive o → a = accBar → Issues i s s1 g e → d < 64 → RoomFor e.g [d] [] [] → barCheck t e.g x.pa b false true = none →
      (b.st = 2 → exec i s = .next (trapped v g 0 broken)) ∧
      (b.st ≠ 2 → ∃ f', Wrote e.g.frame f' e.g.active e.act (allLanes d b.phase) ∧
        exec i s = .next ((v.arriveBar e.g x.pa b).2.setGroup ({ e.g with frame := f' }.advance i)))) ∧
    (∀ i tok sync, (i = .barWait o ∧ a = accBarWait ∧ tok = w o.b.toNat ∧ sync = false ∨
        i = .barSync o ∧ a = accBar ∧ e.g.progIdx = 1 ∧ tok = w o.d.toNat ∧ sync = true) →
      Issues i s s1 g e → Room e.g → barCheck t e.g x.pa b false false = none →
      (b.st = 2 → exec i s = .next (trapped v { g with progIdx := 0 } 0 broken)) ∧
      (b.st ≠ 2 → b.phase ≠ tok → exec i s = .next (v.setGroup (e.g.advance i))) ∧
      (b.st ≠ 2 → b.phase = tok →
        exec i s = .next (v.setGroup { g with wait := .bar x.pa va tok sync, progIdx := if sync then 1 else 0 }))) ∧
    (∀ i, i = .barSync o → a = accBar → Issues i s s1 g e → d < 64 → RoomFor e.g [d] [] [] → e.g.progIdx ≠ 1 →
      barCheck t e.g x.pa b false true = none →
      (b.st = 2 → exec i s = .next (trapped v g 0 broken)) ∧
      (b.st ≠ 2 → ∃ f' h, Wrote e.g.frame f' e.g.active e.act (allLanes d b.phase) ∧ h = { e.g with frame := f' } ∧
        ∀ full u, v.arriveBar e.g x.pa b = (full, u) →
          (full = true → exec i s = .next (u.setGroup (h.advance i))) ∧
          (full = false → (u.mem.bar x.pa).st ≠ 2 →
            exec i s = .next (u.setGroup { h with wait := .bar x.pa va b.phase true, progIdx := 1 })) ∧
          (full = false → (u.mem.bar x.pa).st = 2 →
            exec i s = .next (u.setGroup { h with pend := some ((u.mem.bar x.pa).unreachable (u.liveAt x.pa) va) }))))) ∧
 (∀ (t u : State) (g : Group) (pa : Nat) (b b' : BarObj) (full : Bool) (gs : List Group) (arr live : BitVec 128),
    t.mem.wf = true → b = t.mem.bar pa → t.arriveBar g pa b = (full, u) → arr = b.arrived ||| (1 : BitVec 128) <<< g.rank →
    live = t.liveAt pa →
    (full = true ↔ count128 arr = b.e) →
    b' = (if full then { b with arrived := 0, phase := b.phase + 1 } else { b with arrived := arr }) →
    gs = (if full then t.groups.map fun h => if (h.onPhase pa b.phase).isSome then h.pass else h else t.groups) →
    OnlyAt t u pa 24 ∧
      (b.st ≠ 1 ∨ b.e ≤ count128 (live &&& ~~~b'.arrived) + count128 b'.arrived → u.mem.bar pa = b' ∧ u.groups = gs) ∧
      (b.st = 1 → count128 (live &&& ~~~b'.arrived) + count128 b'.arrived < b.e → u.mem.bar pa = { b' with st := 2 } ∧
        u.groups = gs.map fun h => ((h.onPhase pa b'.phase).map fun va =>
          ({ h with wait := .none, progIdx := 0, pend := some (b'.unreachable live va) } : Group)).getD h))

/-- 09 R242, R243; 02 R46: PARK writes the context's image at its address, armed last, and the context leaves its berth; an
extent too small for the image traps. WAKE of an image that is not armed returns 0; of an armed one, checks it, disarms and
submits it, and returns 1. -/
def Obligations.Continuations : Prop :=
  ∀ (o : M64) (s s1 : State) (g : Group) (e : Env) (op : AddrOp), op = memOp (s1.ctx e.g.ctx) e.g o 64 →
    (∀ i ext x t h xs t1 t2 t3 x0, i = .park o → Issues i s s1 g e → ext = (e.g.frame.lane o.b.toNat (lowLane e.act)).toNat →
      ext % 64 = 0 → 128 ≤ ext → ext ≤ 2 ^ 20 → OneAddr true accPark op s1 e x t → e.act = e.g.active →
      (s1.setGroup e.g).ownPosts e.g = false → e.g.older = [] →
      h = { (s1.setGroup e.g).ship (e.g.advance i) e.m (srcsOf e.g i).v (srcsOf e.g i).p (srcsOf e.g i).h with armed := false, la := [] } →
      (ext < imageRoom h → exec i s = .next (trapped s1 g 0 (mkTrap 20 ((s1.setGroup e.g).image h).length))) ∧
      (imageRoom h ≤ ext → t.translateLines e.g.l e.g.ctx accPark (op.va (lowLane e.act)) (imageRoom h / 64) = .ok (x0 :: xs, t1) →
        t1.writeBlock h = .ok t2 → t3 = t2.putLines e.g.l (s1.ctx e.g.ctx).pl (x0 :: xs) (pad64 ((s1.setGroup e.g).image h)) →
        ∀ flag : Byte, flag = ((((s1.setGroup e.g).image h).getD 27 (0, false)).1 ||| 16) →
        (x0.peer = none → ∃ u, exec i s = .next u ∧ u.groups = t3.groups.filter (fun k => k.uid != e.g.uid) ∧
          (t3.mem.wf = true → ∀ a, u.mem.byte a = if a = x0.pa + 27 then flag else t3.mem.byte a)) ∧
        (∀ p, x0.peer = some p → exec i s = .next ((t3.putLine e.g.l (s1.ctx e.g.ctx).pl { x0 with pa := x0.pa + 27 } [(flag, false)]).leaveBerth e.g)))) ∧
    ∀ i x t (armed : Bool), i = .wake o → Issues i s s1 g e → OneAddr true accWake op s1 e x t → o.d.toNat < 64 →
      RoomFor e.g [o.d.toNat] [] [] → (t.ownPosts e.g = false ∨ home x.pa ≠ e.g.l) →
      armed = (t.mem.byte (x.pa + 27)).getLsbD 4 →
      (armed = false → ∃ f', Wrote e.g.frame f' e.g.active e.act (allLanes o.d.toNat 0) ∧
        exec i s = .next ((t.touch x.pa 64).setGroup (({ e.g with frame := f' }.laLines i [x.pa]).advance i))) ∧
      (armed = true → ∀ bs runs u, t.imageAt e.g.l e.g.ctx (op.va (lowLane e.act)) x = .ok (bs, runs, u) →
        (∀ k, u.imageCheck e.g.ctx false bs = some k →
          exec i s = .next (trapped u g 0 ⟨19, BitVec.ofNat 64 k, BitVec.ofNat 64 (op.va (lowLane e.act))⟩)) ∧
        (u.imageCheck e.g.ctx false bs = none → ∃ f', Wrote e.g.frame f' e.g.active e.act (allLanes o.d.toNat 1) ∧
          exec i s = .next (((runs.foldl (fun (z : State) r => z.sense r.1 r.2) (u.beats runs)).claimImage e.g.ctx x.pa bs).setGroup
            (({ e.g with frame := f' }.laLines i [x.pa]).advance i))))

/-- 09 R250; 20 R391, R392, R394: at a queue whose entry size is the access size, QPUSH appends the data of as many lanes of
ACTIVE, lowest first, as there is room for, and QPOP takes the oldest entries, one for each lane, lowest first; the other
lanes receive 0; the predicate says which lanes were served; a stopped queue takes and gives none. Where the page is no
queue's, or the sizes differ, they trap. -/
def Obligations.Queues : Prop :=
  ∀ (o : M64) (s s1 : State) (g : Group) (e : Env) (n va : Nat) (op : AddrOp) (x : Loc) (t : State) (ls : List Nat) (a : Access),
    n = sizeBytes o.size → op = memOp (s1.ctx e.g.ctx) e.g o n → va = op.va (lowLane e.act) → OneHere a op s1 e x t →
    (∀ i, i = .qpush o ∧ a = accQueue ∨ i = .qpop o ∧ a = accQpop → Issues i s s1 g e →
      (x.pageBits ≠ 17 ∨ t.queueAt e.g.ctx (x.pa / 0x20000 * 0x20000) = none →
        exec i s = .next (trapped s1 g 0 (laneTrap 8 2 e.act va))) ∧
      ∀ q, x.pageBits = 17 → t.queueAt e.g.ctx (x.pa / 0x20000 * 0x20000) = some q → q.esb ≠ n →
        exec i s = .next (trapped s1 g 0 ⟨25, BitVec.ofNat 64 n, BitVec.ofNat 64 va⟩)) ∧
    ∀ q, x.pageBits = 17 → t.queueAt e.g.ctx (x.pa / 0x20000 * 0x20000) = some q → q.esb = n →
      (∀ i p (bad : Nat → Bool), i = .qpush o → a = accQueue → Issues i s s1 g e → p = o.d.toNat → p < 8 → RoomFor e.g [] [p] [] →
        ls = (lanesOf e.act).take (if q.stop then 0 else 2 ^ q.qsize - (q.tail - q.head).toNat) →
        (∀ l, bad l = e.g.frame.badRun o.b.toNat (sizeRegs o.size) l) →
        ∃ (f' : Frame) (u : State), WrotePred e.g.frame f' e.act p (fun l => ls.contains l) ∧
          exec i s = .next ((u.setQueue (home x.pa) { q with tail := q.tail + BitVec.ofNat 32 ls.length }).setGroup
            (({ e.g.pstore (failMask ls) bad with frame := f' }.laLines i [x.pa]).advance i)) ∧
          u.groups = t.groups ∧ (t.mem.wf = true → u.mem.wf = true ∧
            (∀ a, (∀ k < ls.length, ¬(q.slot (q.tail.toNat + k) ≤ a ∧ a < q.slot (q.tail.toNat + k) + n)) → u.mem.byte a = t.mem.byte a) ∧
            ∀ k l, ls[k]? = some l → u.mem.num (q.slot (q.tail.toNat + k)) n = dataLane e.g.frame o.b.toNat (sizeRegs o.size) n l)) ∧
      ∀ i p, i = .qpop o → a = accQpop → Issues i s s1 g e → p = o.b.toNat → p < 8 → o.d.toNat + sizeRegs o.size ≤ 64 →
        RoomFor e.g (loadRegs o.size o.d.toNat) [p] [] →
        ls = (lanesOf e.act).take (if q.stop then 0 else (q.tail - q.head).toNat) →
        ∀ got : Nat → Nat × Bool, (∀ k l, ls[k]? = some l → got l = t.mem.entry q k) →
          (∀ l, l ∉ ls → got l = (0, false)) →
          ∃ (f1 f' : Frame) (u : State), Wrote e.g.frame f1 e.g.active e.act (loaded o.size o.d.toNat .g got) ∧
            WrotePred f1 f' e.act p (fun l => ls.contains l) ∧
            exec i s = .next ((u.setQueue (home x.pa) { q with head := q.head + BitVec.ofNat 32 ls.length }).setGroup
              (({ e.g with frame := f' }.laLines i [x.pa]).advance i)) ∧
            u.groups = t.groups ∧ ∀ a, u.mem.byte a = t.mem.byte a

/-- 17 R358: RDPREV, RDPREV.P, WRPREV and WRPREV.P outside a trap, at depth 0, or with an index out of the previous frame
trap; where the frame is not resident the group waits for a refill; else the reads take each lane from the register or
predicate it names, an absent register reading 0 with DEADRD, and the writes put each lane where it names and nowhere else. -/
def Obligations.PreviousFrame : Prop :=
  ∀ (o : T64) (i : Instr) (p : Bool), (p = false ∧ (i = .rdprev o ∨ i = .wrprev o)) ∨ (p = true ∧ (i = .rdprevP o ∨ i = .wrprevP o)) →
    ∀ s s1 g e, Issues i s s1 g e → ∀ (idx : Nat → Nat), (∀ l, idx l = (e.g.frame.lane o.a.toNat l).toNat) →
    (e.g.inTrap = false → exec i s = .next (trapped s1 g 0 (mkTrap 17 2))) ∧
    (e.g.inTrap = true → e.g.depth = 0 → exec i s = .next (trapped s1 g 0 (mkTrap 17 3))) ∧
    (e.g.inTrap = true → 0 < e.g.depth → e.g.older = [] → exec i s = .next (s1.setGroup { g with wse := .refill })) ∧
    ∀ c rest lim, e.g.inTrap = true → 0 < e.g.depth → e.g.older = c :: rest → c.fsz ≤ 64 → lim = (if p then 8 else c.fsz) →
      (∀ l, FirstPoison e.g.frame e.act [o.a.toNat] o.a.toNat l → exec i s = .next (trapped s1 g 0 (mkTrap 13 (o.a.toNat + 256 * l)))) ∧
      ((∀ l, e.act.getLsbD l = true → e.g.frame.bad o.a.toNat l = false) →
        (∀ l, e.act.getLsbD l = true → lim ≤ idx l → (∀ k < l, e.act.getLsbD k = true → idx k < lim) →
          exec i s = .next (trapped s1 g 0 (mkTrap 3 (idx l % 64 + 256 * l)))) ∧
        ((∀ l, e.act.getLsbD l = true → idx l < lim) →
          (i = .rdprev o → e.g.deadTrap = true → (∃ l, e.act.getLsbD l = true ∧ e.g.prevReg c (idx l) = none) →
            ∃ l, e.act.getLsbD l = true ∧ e.g.prevReg c (idx l) = none ∧ exec i s = .next (trapped s1 g 0 (mkTrap 14 (idx l)))) ∧
          (i = .rdprevP o → e.g.deadTrap = true → (∃ l, e.act.getLsbD l = true ∧ idx l ≠ 0 ∧ c.p.getD (idx l) none = none) →
            ∃ l, e.act.getLsbD l = true ∧ idx l ≠ 0 ∧ c.p.getD (idx l) none = none ∧
              exec i s = .next (trapped s1 g 0 (mkTrap 14 (idx l + 64)))) ∧
          (∀ st, i = .rdprev o → RoomFor e.g [o.d.toNat] [] [] → e.g.deadTrap = false ∨ st = 0 →
            ((∃ l, e.act.getLsbD l = true ∧ e.g.prevReg c (idx l) = none) → st = DEADRD) →
            ((∀ l, e.act.getLsbD l = true → e.g.prevReg c (idx l) ≠ none) → st = 0) →
            ∃ f', Wrote e.g.frame f' e.g.active e.act ⟨[o.d.toNat], .g, fun _ l => laneOf (e.g.prevReg c (idx l)) l,
                fun _ l => badOf (e.g.prevReg c (idx l)) l⟩ ∧ exec i s = .next (after i s1 e.g st f')) ∧
          (∀ st, i = .rdprevP o → RoomFor e.g [o.d.toNat] [] [] → e.g.deadTrap = false ∨ st = 0 →
            ((∃ l, e.act.getLsbD l = true ∧ idx l ≠ 0 ∧ c.p.getD (idx l) none = none) → st = DEADRD) →
            ((∀ l, e.act.getLsbD l = true → idx l ≠ 0 → c.p.getD (idx l) none ≠ none) → st = 0) →
            ∃ f', Wrote e.g.frame f' e.g.active e.act ⟨[o.d.toNat], .g, fun _ l => if (c.pred (idx l)).getLsbD l then 1 else 0,
                fun _ _ => false⟩ ∧ exec i s = .next (after i s1 e.g st f')) ∧
          (∀ h, i = .wrprev o → h = e.wrotePrev o.a.toNat o.b.toNat → Room h → exec i s = .next (s1.setGroup (h.advance i)) ∧
            ∃ c' f', h = { e.g with frame := f', older := c' :: rest } ∧ { f' with v := e.g.frame.v } = e.g.frame ∧
              { c' with v := c.v } = c ∧ ∀ n < 64, ∀ l < 32,
                laneOf (h.prevReg c' n) l = (if e.act.getLsbD l ∧ idx l = n then e.g.frame.lane o.b.toNat l else laneOf (e.g.prevReg c n) l) ∧
                badOf (h.prevReg c' n) l = (if e.act.getLsbD l ∧ idx l = n then e.g.frame.bad o.b.toNat l else badOf (e.g.prevReg c n) l)) ∧
          (i = .wrprevP o →
            (∀ l, FirstPoison e.g.frame e.act [o.b.toNat] o.b.toNat l → exec i s = .next (trapped s1 g 0 (mkTrap 13 (o.b.toNat + 256 * l)))) ∧
            ∀ h, (∀ l, e.act.getLsbD l = true → e.g.frame.bad o.b.toNat l = false) → h = e.wrotePrevP o.a.toNat o.b.toNat → Room h →
              exec i s = .next (s1.setGroup (h.advance i)) ∧
              ∃ c', h = { e.g with older := c' :: rest } ∧ { c' with p := c.p } = c ∧ ∀ n < 8, ∀ l < 32,
                (c'.pred n).getLsbD l = if n ≠ 0 ∧ e.act.getLsbD l ∧ idx l = n then (e.g.frame.lane o.b.toNat l).getLsbD 0 else (c.pred n).getLsbD l)))

/-- 02 R31, R35; 07 R194, R195; 03 R78: EXIT takes the lanes of ACTIVE out of its context, which leaves its berth when none is
left; the team's record at the anchor counts them, at once for a context that is no sibling, by an item on its pair for one
that is. JOIN in a sibling, and a RET in the frame it split in, seals the context and sends it to its anchor as an arrival. -/
def Obligations.Exits : Prop :=
  ∀ (o : A32) (s s1 : State) (g : Group) (e : Env),
    (∀ i g', i = .exit o → Issues i s s1 g e → Room e.g →
      g' = { e.g.advance i with exited := e.g.exited ||| e.act, active := e.g.active &&& ~~~e.act } →
      ∃ t, exec i s = .next t ∧
        t.groups = (if e.act = e.g.active then (s1.setGroup e.g).groups.filter (fun k => k.uid != e.g.uid) else (s1.setGroup g').groups) ∧
        (∀ p, e.g.origin = some p → t.teams = s1.teams ∧
          t.links = (s1.sendPeer p e.g.l e.g.anchor (s1.ftAt e.g.l) (.exitNotice e.g.ctx e.g.tag e.g.team e.g.rank e.act)).links) ∧
        (e.g.origin = none → e.g.sibling = true → t.teams = s1.teams ∧
          t.pair e.g.l e.g.anchor = s1.pair e.g.l e.g.anchor ++ [.exit e.g.ctx e.g.tag e.g.team e.g.rank e.act]) ∧
        (e.g.origin = none → e.g.sibling = false → ∀ tm tm', s1.team? e.g.ctx e.g.tag e.g.team = some tm →
          tm' = { tm with exited := tm.exited.set e.g.rank (tm.exited.getD e.g.rank 0 ||| e.act) } → tm'.rankLive e.g.rank = true →
          t.team? e.g.ctx e.g.tag e.g.team = some tm')) ∧
    ∀ i j implicit u, (i = .join o ∧ j = o.b.toNat ∧ implicit = false) ∨
        (i = .ret o ∧ j = 15 ∧ implicit = true ∧ e.act = e.g.active ∧ e.g.sb = some e.g.depth) →
      Issues i s s1 g e → e.g.sibling = true → (s1.setGroup e.g).sideBusy e.g.uid = false →
      (e.g.origin.isSome = true ∨ e.g.anchor = e.g.l ∨ (s1.ctx e.g.ctx).landMask.getLsbD e.g.anchor = true) →
      (e.g.older ≠ [] → exec i s = .next (s1.setGroup { g with wse := .spillAll })) ∧
      (e.g.older = [] → (s1.setGroup e.g).writeBlock e.g = .ok u → ∃ t h, exec i s = .next t ∧
        t.groups = (s1.setGroup e.g).groups.filter (fun k => k.uid != e.g.uid) ∧ t.mem = u.mem ∧
        h = { e.g with la := [], lastFT := if e.g.anchor = e.g.l ∧ e.g.origin = none then e.g.lastFT else s1.ftAt e.g.l } ∧
        (e.g.origin = none → t.pair e.g.l e.g.anchor = u.pair e.g.l e.g.anchor ++ [.arrival ⟨h, ⟨j, e.g.pc, implicit⟩⟩]) ∧
        ∀ p, e.g.origin = some p → t.links = (u.sendPeer p e.g.l e.g.anchor (s1.ftAt e.g.l)
          (.arrival e.g.ctx ((u.image h).map Prod.fst) j e.g.pc.toNat implicit)).links)

/-- 17 R345, R347 to R349, R351: MFS writes a system register's value in form U; MTS takes its value from the lowest lane of
ACTIVE and writes GMODE, clears bits of GSTATUS, moves CTXCTL.STATE along Table 17-2, or writes a context register, where a
value that breaks a constraint is ignored; the registers that only read ignore it. A context that does not exist, a
transition that Table 17-2 lacks, and a write that R349 forbids trap. -/
def Obligations.SystemRegisters : Prop :=
  ∀ (o : T64) (s s1 : State) (g : Group) (e : Env) (n r x : Nat) (c : Ctx) (s0 : State), s0 = s1.setGroup e.g → r = o.regNum →
    n = (if o.x then e.lowWord o.b.toNat else e.g.ctx) → c = s1.ctx n →
    (∀ i regs, i = .mfs o → Issues i s s1 g e → regs = (if o.x then [o.b.toNat] else []) →
      (∀ q, PoisonLow e regs q → exec i s = .next (trapped s1 g 0 (mkTrap 13 (q + 256 * lowLane e.act)))) ∧
      (CleanLow e regs → o.x = true → s1.liveCtx n = false → exec i s = .next (trapped s1 g 0 (mkTrap 38 (n % 65536)))) ∧
      (CleanLow e regs → o.x = false ∨ s1.liveCtx n = true → (r, x) ∈ sysTable s1 e.g c → o.d.toNat + sysRegRun o ≤ 64 →
        RoomFor e.g (oneU o.d.toNat (sysRegRun o) x).regs [] [] →
        ∃ f', Wrote e.g.frame f' e.g.active e.act (oneU o.d.toNat (sysRegRun o) x) ∧ exec i s = .next (after i s1 e.g 0 f'))) ∧
    ∀ i regs keep, i = .mts o → Issues i s s1 g e → Room e.g →
      regs = (List.range (sysRegRun o)).map (o.a.toNat + ·) ++ (if o.x then [o.b.toNat] else []) →
      x = (if sysRegRun o = 2 then e.lowPair o.a.toNat else e.lowWord o.a.toNat) →
      keep = .next (s1.setGroup (e.g.advance i)) →
      (∀ q, PoisonLow e regs q → q < 64 → exec i s = .next (trapped s1 g 0 (mkTrap 13 (q + 256 * lowLane e.act)))) ∧
      (CleanLow e regs →
        (o.x = true → s1.liveCtx n = false → ¬(r = 0x100 ∧ x = 4 ∧ n < 0xFFFF) → exec i s = .next (trapped s1 g 0 (mkTrap 38 (n % 65536)))) ∧
        (o.x = false ∨ s1.liveCtx n = true →
          (r = 0 → exec i s = if x < 256 then .next (s1.setGroup ({ e.g with gmode := BitVec.ofNat 32 x }.advance i)) else keep) ∧
          (r = 1 → exec i s = if x < 256 then .next (s1.setGroup ({ e.g with gstatus := e.g.gstatus &&& ~~~(BitVec.ofNat 32 x) }.advance i)) else keep) ∧
          (2 ≤ r → r ≤ 5 → exec i s = keep) ∧
          (r = 0x100 → c.state ≠ 0 →
            (x / 32 % 2048 ≠ 0 ∨ x % 4 = 3 → exec i s = keep) ∧
            (x / 32 % 2048 = 0 → x % 4 ≠ 3 → ∀ c', c' = (if c.state = 1 then { c with pl := x % 4 } else c) →
              (x / 4 % 8 = c.state → exec i s = .next ((if c.state = 1 then s0.setCtx c' else s0).setGroup (e.g.advance i))) ∧
              (x / 4 % 8 = 0 → c.state = 1 → exec i s = .next (((s0.setCtx c').kill n).setGroup (e.g.advance i))) ∧
              (x / 4 % 8 = 0 → c.state = 4 → exec i s = .next ((s0.kill n).setGroup (e.g.advance i))) ∧
              (x / 4 % 8 ≠ c.state → ¬(x / 4 % 8 = 0 ∧ (c.state = 1 ∨ c.state = 4)) →
                exec i s = .next (trapped s1 g 0 (mkTrap 38 (n % 65536)))))) ∧
          (0x101 ≤ r →
            (c.state = 2 ∨ c.state = 3 → r ≠ 0x102 → r ≠ 0x103 → exec i s = .next (trapped s1 g 0 (mkTrap 38 (n % 65536)))) ∧
            (¬(c.state = 2 ∨ c.state = 3) ∨ r = 0x102 ∨ r = 0x103 →
              exec i s = if c.allows r x then .next ((s0.setCtx (c.setReg r x)).setGroup (e.g.advance i)) else keep))) ∧
        (o.x = true → c.state = 0 → n < 0xFFFF → r = 0x100 → x = 4 →
          exec i s = if s1.busyCtxs < 4096 then .next ((s0.setCtx { c with state := 1 }).setGroup (e.g.advance i))
            else .next (trapped s1 g 0 (mkTrap 38 (n % 65536)))))

/-- 19 R385, R386; 17 R366: REPLAY wakes the work parked under a live token and returns 1, or 0 where the token is not live,
and traps on a value no token has; its page form replays each live token of the page and returns their number; each waits while a
part that faults again finds no token or no room for its record. TLBINV
discards the cached translations and instruction-cache lines it names and completes once nothing translated before is on its
way; until then it waits. IDLE puts the group to wait for its event. -/
def Obligations.Maintenance : Prop :=
  ∀ (o : T64) (s s1 : State) (g : Group) (e : Env) (a b : Nat) (s0 : State), a = o.a.toNat → b = o.b.toNat → s0 = s1.setGroup e.g →
    (∀ i t (hit : Bool), i = .replay o → Issues i s s1 g e → CleanLow e [a] → RoomFor e.g [o.d.toNat] [] [] → t = e.lowWord a →
      hit = s0.tokenLive (t / 262144) t →
      (2 ^ 24 ≤ t → exec i s = .next (trapped s1 g 0 (illegalTrap 2 18 8))) ∧
      (t < 2 ^ 24 → s0.plainBusy e.g.uid = false → ∀ u, (if hit then s0.replayToken (t / 262144) t else some s0) = some u →
        ∃ f', Wrote e.g.frame f' e.g.active e.act (oneU o.d.toNat 1 (if hit then 1 else 0)) ∧
          exec i s = .next (u.setGroup ({ e.g with frame := f' }.advance i))) ∧
      (t < 2 ^ 24 → s0.plainBusy e.g.uid = false → hit = true → s0.replayToken (t / 262144) t = none → exec i s = .next (s1.setGroup g))) ∧
    (∀ i ts, i = .replayPage o → Issues i s s1 g e → CleanLow e [a, a + 1, b] → RoomFor e.g [o.d.toNat] [] [] →
      s0.plainBusy e.g.uid = false → ts = s0.pageTokens (e.lowWord b) (e.lowPair a) →
      (∀ t, t ∈ ts ↔ ∃ k ∈ (s0.landing t.1).tokens, t.1 < 64 ∧ k.token = t.2 ∧ k.ctx = e.lowWord b ∧
        k.va / 0x20000 = e.lowPair a / 0x20000 ∧ k.kind ∈ [0, 1, 2, 3, 4, 6, 7]) ∧
      (s0.replayAll ts = none → exec i s = .next (s1.setGroup g)) ∧
      ∀ u, s0.replayAll ts = some u → ∃ f', Wrote e.g.frame f' e.g.active e.act (oneU o.d.toNat 1 ts.length) ∧
        exec i s = .next (u.setGroup ({ e.g with frame := f' }.advance i))) ∧
    (∀ i who rs go (t : State), Issues i s s1 g e → Room e.g → s0.plainBusy e.g.uid = false →
      ((i = .tlbinvPage o ∧ CleanLow e [a, a + 1, b] ∧ who = some (e.lowWord b) ∧
          rs = s0.discarded (covers (e.lowWord b) (e.lowPair a)) ∧ go = fun z : State => z.invalidatePage (e.lowWord b) (e.lowPair a)) ∨
        (i = .tlbinvCtx o ∧ CleanLow e [b] ∧ who = some (e.lowWord b) ∧ rs = Flush.everything ∧
          go = fun z : State => (z.discard (fun x => x.ctx == e.lowWord b) fun _ => true).cleanCode) ∨
        (i = .tlbinvAll o ∧ who = none ∧ rs = Flush.everything ∧ go = fun z : State => (z.discard (fun _ => true) fun _ => true).cleanCode)) →
      (∀ n, who = some n → s0.liveCtx n = false → e.g.flush = none → exec i s = .next (s1.setGroup (e.g.advance i))) ∧
      ((∀ n, who = some n → s0.liveCtx n = true) → e.g.flush = none → t = go s0 →
        (∀ x ∈ t.landings, ∀ y ∈ x.tlb, (i = .tlbinvPage o → ¬(y.ctx = e.lowWord b ∧ y.page = leafPage y.size (e.lowPair a))) ∧
          (i = .tlbinvCtx o → y.ctx ≠ e.lowWord b) ∧ i ≠ .tlbinvAll o) ∧
        (t.flushing e.g.uid who rs = false → exec i s = .next (t.setGroup (e.g.advance i))) ∧
        (t.flushing e.g.uid who rs = true → exec i s = .next (t.setGroup { g with flush := some rs, busy := true }))) ∧
      (∀ q, e.g.flush = some q →
        (s0.flushing e.g.uid who q = false → exec i s = .next (s1.setGroup (e.g.advance i))) ∧
        (s0.flushing e.g.uid who q = true → exec i s = .next (s1.setGroup { g with flush := some q, busy := true })))) ∧
    ∀ i, i = .idle o → Issues i s s1 g e → Room e.g → CleanLow e [a, a + 1] →
      exec i s = .next (s1.setGroup { e.g with wait := .idle (e.lowPair a) (s1.landing e.g.l).fq.posted })

/-- 17 R363, R365: PARKCTX of a context that is not another one that runs returns 1; else the park command goes to the
landings of its LANDMASK, the group waits, and it completes with 0 when the context is parked. WAKECTX of a context that is
not parked returns 1; of a parked one, the context runs, its records that were not parked by a trap are resumed at every
landing, and it returns 0. WAKECTX.GRP resumes one record and returns why it does not. -/
def Obligations.ContextControl : Prop :=
  ∀ (o : T64) (s s1 : State) (g : Group) (e : Env) (n : Nat) (c : Ctx) (s0 : State), n = e.lowWord o.a.toNat → c = s1.ctx n →
    s0 = s1.setGroup e.g →
    (∀ i, i = .parkctx o → Issues i s s1 g e → RoomFor e.g [o.d.toNat] [] [] →
      (e.g.mark = none → CleanLow e [o.a.toNat] →
        (n = e.g.ctx ∨ s1.liveCtx n = false ∨ c.state ≠ 2 → ∃ f', Wrote e.g.frame f' e.g.active e.act (allLanes o.d.toNat 1) ∧
          exec i s = .next (s1.setGroup ({ e.g with frame := f' }.advance i))) ∧
        (n ≠ e.g.ctx → s1.liveCtx n = true → c.state = 2 → c.landMask = 0 → ∃ f', Wrote e.g.frame f' e.g.active e.act (allLanes o.d.toNat 0) ∧
          exec i s = .next ((s1.setCtx { c with state := 4 }).setGroup ({ e.g with frame := f' }.advance i))) ∧
        (n ≠ e.g.ctx → s1.liveCtx n = true → c.state = 2 → c.landMask ≠ 0 → ∃ (t : State) (c' : Ctx), exec i s = .next (t.setGroup { g with mark := some n, busy := true }) ∧
          c' = { c with state := 3, toCommand := c.lands, stopping := [], reported := [], parker := some e.g.uid,
                        markers := c.lands.flatMap fun x => c.lands.map fun y => (x, y) } ∧ t = s1.setCtx c')) ∧
      ∀ m, e.g.mark = some m →
        ((s1.ctx m).parker = some e.g.uid → exec i s = .next (s1.setGroup g)) ∧
        ((s1.ctx m).parker ≠ some e.g.uid → ∃ f', Wrote e.g.frame f' e.g.active e.act (allLanes o.d.toNat 0) ∧
          exec i s = .next (s1.setGroup ({ e.g with frame := f' }.advance i)))) ∧
    (∀ i (t : State), i = .wakectx o → Issues i s s1 g e → RoomFor e.g [o.d.toNat] [] [] → CleanLow e [o.a.toNat] →
      (s1.liveCtx n = false ∨ c.state ≠ 4 → ∃ f', Wrote e.g.frame f' e.g.active e.act (allLanes o.d.toNat 1) ∧
        exec i s = .next (s1.setGroup ({ e.g with frame := f' }.advance i))) ∧
      (s1.liveCtx n = true → c.state = 4 →
        t = s0.setCtx { c with state := 2, reported := [], markers := [], toCommand := [], stopping := [] } →
        ∃ f', Wrote e.g.frame f' e.g.active e.act (allLanes o.d.toNat 0) ∧
          exec i s = .next ((c.lands.foldl (fun (z : State) l => z.resumeLanding c l) t).setGroup ({ e.g with frame := f' }.advance i)))) ∧
    ∀ i pa r k bs (ok : Prop), i = .wakectxGrp o → Issues i s s1 g e → RoomFor e.g [o.d.toNat] [] [] →
      CleanLow e [o.a.toNat, o.a.toNat + 1] → pa = e.lowPair o.a.toNat → r = ParkRec.read (s1.mem.bytes pa 64) → k = s1.ctx r.ctx →
      bs = s0.poolImage (pa + 64) →
      (ok ↔ (s1.target (home pa) pa).isMemory = true ∧ (s1.mem.byte (pa + 3)).getLsbD 0 = true ∧ r.reason ≠ 0 ∧ r.reason ≠ 2) →
      ∀ x (t : State), ((¬ok ∧ x = 2 ∧ t = s0) ∨ (ok ∧ k.state ≠ 2 ∧ k.state ≠ 4 ∧ x = 1 ∧ t = s0) ∨
          (ok ∧ (k.state = 2 ∨ k.state = 4) ∧ (∃ j, s0.imageCheck r.ctx true bs = some j ∧ x = 16 + j) ∧ t = s0) ∨
          (ok ∧ k.state = 4 ∧ s0.imageCheck r.ctx true bs = none ∧ x = 0 ∧ t = s0.store (pa + 2) [0] false) ∨
          (ok ∧ k.state = 2 ∧ s0.imageCheck r.ctx true bs = none ∧ x = 0 ∧
            t = ((s0.releaseRecords k (home pa) [pa]).resumeRecord (home pa) pa r bs).retryPool (home pa) none)) →
        ∃ f', Wrote e.g.frame f' e.g.active e.act (allLanes o.d.toNat (BitVec.ofNat 32 x)) ∧
          exec i s = .next (t.setGroup ({ e.g with frame := f' }.advance i))

/-- 09 R251 to R254; 09 R253, R255; 05 R117, R139: COPY and COPY.S whose ranges pass the checks hand the bytes of every lane to
the copy engine, cut at lines, and add the copy to the token; one whose lengths are all zero does nothing; ranges that overlap
trap. TWAIT waits while a copy of its token is outstanding; TPOLL says whether none is. CFILL returns, for each lane, how far
past its address the oldest live copy that covers it has filled, and all ones where none does. PUBLISH posts a flip of the
page of its address in the lowest lane. -/
def Obligations.CopiesAndPages : Prop :=
 (∀ (o : T64) (s s1 : State) (g : Group) (e : Env) (s0 : State), s0 = s1.setGroup e.g →
    (∀ i shadow da sa rs, (i = .copy o ∧ shadow = false ∨ i = .copyS o ∧ shadow = true) → Issues i s s1 g e → Room e.g →
      da = kOp (s1.ctx e.g.ctx) e.g (o.ctl.getLsbD 0) o.a.toNat → sa = kOp (s1.ctx e.g.ctx) e.g (o.ctl.getLsbD 1) o.b.toNat →
      rs = ((lanesOf e.act).filter fun l => e.g.frame.lane o.c.toNat l != 0).map (fun l =>
        (l, sa.va l, da.va l, (e.g.frame.lane o.c.toNat l).toNat)) →
      s0.sideBusy e.g.uid = false →
      (∀ r ∈ da.regs ++ sa.regs ++ [o.c.toNat], ∀ l, e.act.getLsbD l = true → e.g.frame.bad r l = false) →
      (∀ r ∈ rs, r.2.1 + r.2.2.2 ≤ 2 ^ 56 ∧ r.2.2.1 + r.2.2.2 ≤ 2 ^ 56) →
      (∀ m : Mask, m ≠ 0 → (∀ l, m.getLsbD l = true ↔ ∃ r ∈ rs, r.1 = l ∧ r.2.1 < r.2.2.1 + r.2.2.2 ∧ r.2.2.1 < r.2.1 + r.2.2.2) →
        exec i s = .next (trapped s1 g 0 (laneTrap 21 0 m 0))) ∧
      ((∀ r ∈ rs, r.2.2.1 + r.2.2.2 ≤ r.2.1 ∨ r.2.1 + r.2.2.2 ≤ r.2.2.1) →
        (rs = [] → exec i s = .next (s1.setGroup ((e.g.laLines i []).advance i))) ∧
        ∀ xs (t : State) ps fills, rs ≠ [] → s0.copyPages e (if shadow then accCopyS else accCopyDst) rs = (xs, [], t) →
          ps = copyPieces s1.steps rs xs → ps ≠ [] → fills = (if shadow then [] else fillRanges ps) →
          (∀ k ∈ fills, (s1.landing k.1).fills.length < 256) →
          (ps.map Piece.size).sum = (rs.map fun r => r.2.2.2).sum ∧ ∃ (u : State) (g' : Group),
            exec i s = .next (u.setGroup ((g'.laLines i (ps.flatMap fun p => p.dst.pa :: p.src.map fun r => r.1.pa)).advance i)) ∧
            u.copies = t.copies ++ [⟨s1.nextCopy, e.g.ctx, e.g.uid, e.g.l, shadow, ps, [], if shadow then [] else peerRanges ps⟩] ∧ u.nextCopy = s1.nextCopy + 1 ∧
            u.mem = t.mem ∧ u.groups = t.groups ∧
            g' = { e.g with lastCopy := some s1.nextCopy
                            frame := { e.g.frame with k := e.g.frame.k.modify (o.d.toNat % 8) fun t => t.join s1.nextCopy } })) ∧
    ∀ i tok st (out : Bool), tok = e.g.frame.k.getD (o.d.toNat % 8) Token.complete → st = (if tok.dropped then DEADRD else 0) →
      (out = true ↔ tok.dropped = false ∧ ∃ c ∈ tok.copies, c ∈ s1.copies.map Copy.id) → Issues i s s1 g e →
      (i = .twait o → Room e.g →
        (out = true → exec i s = .next (s1.setGroup g)) ∧
        (out = false → exec i s = .next (after i s1 e.g st e.g.frame))) ∧
      (i = .tpoll o → RoomFor e.g [o.c.toNat] [] [] →
        ∃ f', Wrote e.g.frame f' e.g.active e.act (allLanes o.c.toNat (if out then 0 else 1)) ∧ exec i s = .next (after i s1 e.g st f'))) ∧
 (∀ (o : T64) (s s1 : State) (g : Group) (e : Env) (op : AddrOp), op = kOp (s1.ctx e.g.ctx) e.g (o.ctl.getLsbD 0) o.a.toNat →
    (∀ i xs (t : State) (fill : Nat → Nat × Bool), i = .cfill o → Issues i s s1 g e → o.c.toNat + 2 ≤ 64 → RoomFor e.g [o.c.toNat, o.c.toNat + 1] [] [] →
      Checked accCfill 1 op.regs op.va s1 e xs t →
      (∀ x ∈ xs, fill x.1 = ((s1.setGroup e.g).fillAt e.g x.2, false)) → (∀ l, e.act.getLsbD l = false → fill l = (0, false)) →
      (∀ x ∈ xs, x.2.peer = none → ((s1.landing (home x.2.pa)).fills.all fun f => !(f.ranges.any fun r => decide (r.1 ≤ x.2.pa) && decide (x.2.pa < r.1 + r.2))) = true →
        (s1.setGroup e.g).fillAt e.g x.2 = 2 ^ 64 - 1) ∧
      ∃ f', Wrote e.g.frame f' e.g.active e.act (loaded 3 o.c.toNat .g fill) ∧
        exec i s = .next (t.setGroup (({ e.g with frame := f' } : Group).laLines i [] |>.advance i))) ∧
    ∀ i (x : Loc) (t : State) page va, i = .publish o → Issues i s s1 g e → Room e.g → va = op.va (lowLane e.act) →
      (s1.setGroup e.g).sideBusy e.g.uid = false → (∀ r ∈ op.regs, e.g.frame.bad r (lowLane e.act) = false) → va < 2 ^ 56 →
      (s1.setGroup e.g).translate e.g.l e.g.ctx va accPublish = .ok (x, t) → x.peer = none →
      page = { x with pa := x.pa / 2 ^ x.pageBits * 2 ^ x.pageBits } →
      ∃ u : State, exec i s = .next (u.setGroup (({ e.g with horizon := max e.g.horizon (s1.ftAt e.g.l) } : Group).laLines i [] |>.advance i)) ∧
        u.mem = t.mem ∧ ∀ src dst, u.pair src dst = if src = e.g.l ∧ dst = home page.pa
          then t.pair src dst ++ [.post ⟨.flip, e.g.ctx, (t.ctx e.g.ctx).pl, [e.g.uid], e.g.tag, 1, t.ftAt e.g.l, [⟨lowLane e.act, page, 0, false, none, 0⟩], none, false, false⟩]
          else t.pair src dst)

/-- 12 R302, R303; 12 R298, R301, R304: HSET replaces one field of a handle with the value of the lowest lane of ACTIVE, or clears
it whole, and makes it present; HGET writes a field, zero-extended, in form U; HLOAD takes the 32 bytes at its address as the
handle, and traps where one of them is poisoned. TLD takes, for each lane, the element its coordinates or its position names,
zero-extended, or 0 where there is none; TST writes it; TPOS returns its position and TNEXT its coordinates, or all ones; the
predicate says which lanes were found. A handle that is not valid traps with the reason. -/
def Obligations.TensorsAndHandles : Prop :=
 (∀ (o : T64) (s s1 : State) (g : Group) (e : Env) (k a : Nat) (x : DWord), k = (o.ctl.extractLsb' 0 4).toNat → a = o.a.toNat →
    (∀ i lo hi regs, i = .hset o → Issues i s s1 g e → RoomFor e.g [] [] [o.d.toNat] → o.d.toNat < 8 →
      (k, lo, hi) ∈ [(0, 0, 16), (1, 16, 48), (2, 48, 80), (3, 80, 112), (4, 112, 168), (5, 168, 224), (6, 0, 256)] →
      regs = (if k = 6 then [] else if k = 4 ∨ k = 5 then [a, a + 1] else [a]) → CleanLow e regs →
      x = (if k = 6 then 0 else if k = 4 ∨ k = 5 then e.g.frame.pair a (lowLane e.act) else (e.g.frame.lane a (lowLane e.act)).setWidth 64) →
      (k = 4 ∨ k = 5 → 2 ^ 56 ≤ x.toNat → exec i s = .next (trapped s1 g 0 (laneTrap 6 0 e.low x.toNat))) ∧
      ((k = 4 ∨ k = 5 → x.toNat < 2 ^ 56) →
        ∃ f', exec i s = .next (s1.setGroup ({ e.g with frame := f' }.advance i)) ∧ { f' with h := e.g.frame.h } = e.g.frame ∧
          (f'.h.getD o.d.toNat none).isSome = true ∧ (∀ n < 8, n ≠ o.d.toNat → f'.h.getD n none = e.g.frame.h.getD n none) ∧
          ∀ j < 256, (f'.handle o.d.toNat).getLsbD j =
            if lo ≤ j ∧ j < hi then x.getLsbD (j - lo) else (e.g.frame.handle o.d.toNat).getLsbD j)) ∧
    (∀ i lo hi, i = .hget o → Issues i s s1 g e →
      (k, lo, hi) ∈ [(0, 0, 16), (1, 16, 48), (2, 48, 80), (3, 80, 112), (4, 112, 168), (5, 168, 224)] →
      ∀ run, run = (if k = 4 ∨ k = 5 then 2 else 1) → o.d.toNat + run ≤ 64 →
        RoomFor e.g (oneU o.d.toNat run 0).regs [] [] →
        ∃ f', Wrote e.g.frame f' e.g.active e.act (oneU o.d.toNat run (((e.g.frame.handle a).extractLsb' lo (hi - lo)).toNat)) ∧
          exec i s = .next (after i s1 e.g 0 f')) ∧
    ∀ i op y (t : State) pa, i = .hload o → Issues i s s1 g e → RoomFor e.g [] [] [o.d.toNat] → o.d.toNat < 8 →
      op = ⟨[a, a + 1], 32, fun l => (e.g.frame.pair a l).toNat⟩ → (s1.setGroup e.g).ownPosts e.g = false →
      OneAddr true accHload op s1 e y t → y.peer = none → pa = t.mem.backing y false → isControl pa = false →
      (t.mem.unreadable pa 32 = true → ∃ u, exec i s = .next (trapped u g 0 ⟨13, 0, BitVec.ofNat 64 (op.va (lowLane e.act))⟩) ∧
        ∀ b, u.mem.byte b = t.mem.byte b) ∧
      (t.mem.unreadable pa 32 = false → ∃ (u : State) (f' : Frame), exec i s = .next (u.setGroup (({ (({ e.g with frame := f' } : Group).laLines i [y.pa]) with
          lastCopy := none } : Group).advance i)) ∧ (∀ b, u.mem.byte b = t.mem.byte b) ∧ { f' with h := e.g.frame.h } = e.g.frame ∧
        (∀ n < 8, n ≠ o.d.toNat → f'.h.getD n none = e.g.frame.h.getD n none) ∧
        f'.handle o.d.toNat = BitVec.ofNat 256 (t.mem.num pa 32))) ∧
 (∀ (o : T64) (s s1 : State) (g : Group) (e : Env) (tn : Tensor) (a d c : Nat) (s0 : State), tn = Tensor.of (e.g.frame.handle o.b.toNat) →
    a = o.a.toNat → d = o.d.toNat → c = o.c.toNat → c < 8 → s0 = s1.setGroup e.g →
    (∀ i, (i = .tpos o ∧ (∀ r ∈ coordRegs tn a, ∀ l, e.act.getLsbD l = true → e.g.frame.bad r l = false) ∨
        i = .tnext o ∧ (∀ r ∈ [a, a + 1], ∀ l, e.act.getLsbD l = true → e.g.frame.bad r l = false)) → Issues i s s1 g e →
      s0.sideBusy e.g.uid = false → s0.ownPosts e.g = false →
      ∀ r, tn.bad = some r → exec i s = .next (trapped s1 g 0 (mkTrap 31 (r + 16 * o.b.toNat)))) ∧
    (∀ i xs t, i = .tld o → Issues i s s1 g e → RoomFor e.g [d] [c] [] → Elems accTld o tn s1 e xs t →
      ∀ got : Nat → Nat × Bool, (∀ x ∈ xs, got x.1 = t.seen tn.width x.2) → (∀ l, l ∉ xs.map Prod.fst → got l = (0, false)) →
        ∃ (f1 f' : Frame) (u : State), Wrote e.g.frame f1 e.g.active e.act ⟨[d], .g, fun _ l => BitVec.ofNat 32 (got l).1, fun _ l => (got l).2⟩ ∧
          WrotePred f1 f' e.act c (fun l => (xs.map Prod.fst).contains l) ∧ (∀ b, u.mem.byte b = t.mem.byte b) ∧
          exec i s = .next (u.setGroup (({ (({ e.g with frame := f' } : Group).laLines i (xs.map fun (x : Nat × Loc) => x.2.pa)) with
            lastCopy := none } : Group).advance i))) ∧
    (∀ i xs t, i = .tst o → Issues i s s1 g e → RoomFor e.g [] [c] [] → Elems accTst o tn s1 e xs t →
      ∀ (val : Nat → Nat) (bad : Nat → Bool) (u : State), (∀ l, val l = (e.g.frame.lane d l).toNat % 2 ^ (8 * tn.width)) →
        (∀ l, bad l = e.g.frame.bad d l) → u = t.writeLanes (s1.ctx e.g.ctx).pl tn.width val bad xs →
        (InMemory t xs → t.mem.wf = true → u.mem.wf = true ∧ ∀ b, ¬Covers t tn.width xs b → u.mem.byte b = t.mem.byte b) ∧
        ∃ f', WrotePred e.g.frame f' e.act c (fun l => (xs.map Prod.fst).contains l) ∧
          exec i s = .next (u.setGroup (({ (({ (e.g.pstore (failMask (xs.map Prod.fst)) bad) with frame := f' } : Group).laLines i (xs.map fun (x : Nat × Loc) => x.2.pa)) with
            lastCopy := none } : Group).advance i))) ∧
    (∀ i (pos : Nat → Option Nat) (rd : Nat → List (Nat × Nat)), i = .tpos o → Issues i s s1 g e → RoomFor e.g [d, d + 1] [c] [] → d + 2 ≤ 64 →
      TensorReady s1 e tn (coordRegs tn a) (coordRegs tn a) →
      (∀ l, e.act.getLsbD l = true → tn.locate (s0.index e.g) s1.steps l (laneCoords e.g.frame tn a l) = .ok (pos l, rd l)) →
      ∃ f1 f', Wrote e.g.frame f1 e.g.active e.act (loaded 3 d .g fun l => ((pos l).getD (2 ^ 64 - 1), false)) ∧
        WrotePred f1 f' e.act c (fun l => (pos l).isSome) ∧
        exec i s = .next ((s0.indexed e.g ((lanesOf e.act).flatMap rd)).setGroup ((({ e.g with frame := f' } : Group).laLines i []).advance i))) ∧
    ∀ i n (rn : List (Nat × Nat)) (cs : Nat → Option (List Nat)) (rd : Nat → List (Nat × Nat)), i = .tnext o → Issues i s s1 g e → RoomFor e.g ((List.range tn.nlev).map (d + ·)) [c] [] →
      d + tn.nlev ≤ 64 → TensorReady s1 e tn [a, a + 1] (coordRegs tn d) → tn.count (s0.index e.g) = .ok (n, rn) →
      (∀ l p, e.act.getLsbD l = true → p = (e.g.frame.pair a l).toNat →
        if p < n then ∃ xs q, tn.coords (s0.index e.g) s1.steps p = .ok (xs, q) ∧ cs l = some xs ∧ rd l = rn ++ q else cs l = none ∧ rd l = rn) →
      ∃ f1 f', Wrote e.g.frame f1 e.g.active e.act ⟨(List.range tn.nlev).map (d + ·), .g,
          fun r l => ((cs l).map fun xs => BitVec.ofNat 32 (xs.getD (r - d) 0)).getD (-1), fun _ _ => false⟩ ∧
        WrotePred f1 f' e.act c (fun l => (cs l).isSome) ∧
        exec i s = .next ((s0.indexed e.g ((lanesOf e.act).flatMap rd)).setGroup ((({ e.g with frame := f' } : Group).laLines i []).advance i)))

/-- 12 R307, R311, R318: MGOPEN takes the lowest free slot at the home of its descriptor for a session that is OPEN with no
stream sealed, and writes its id, after ROWPTR[0] has been written where the output is CSR; where no slot is free it writes
all ones. MGRESUME of a stopped session puts it in MERGING with its new descriptor; a descriptor that differs where it may
not, and a session that is not stopped, trap. -/
def Obligations.MergeSessions : Prop :=
  ∀ (o : T64) (s s1 : State) (g : Group) (e : Env) (a b d : Nat) (desc : MergeDesc) (x : Loc) (t0 t : State), a = o.a.toNat → b = o.b.toNat →
    d = o.d.toNat →
    (∀ i (l : Nat) (m : MergeNet), i = .mgopen o → Issues i s s1 g e → e.g.mark = none → RoomFor e.g [d] [] [] → DescRead s1 e a [] desc x t0 t →
      l = home x.pa → m = (t.landing l).mn → (∀ b, t.mem.byte b = t0.mem.byte b) ∧
      ((∀ k < 8, (m.slots.getD k none).isSome = true) → ∃ f', Wrote e.g.frame f' e.g.active e.act (allLanes d (-1)) ∧
        exec i s = .next (t.setGroup ({ e.g with frame := f' }.advance i))) ∧
      ∀ k gen y sid t1, k < 8 → m.slots.getD k none = none → (∀ j < k, (m.slots.getD j none).isSome = true) →
        gen = (m.gens.getD k 0 + 1) % 65536 → sid = k + 256 * l + 65536 * gen →
        y = ({ ctx := e.g.ctx, gen := gen, desc := desc, sealed := List.replicate 16 false, held := [], runs := [], state := 1
               cause := 0, flags := 0, drop := false, poison := false, nextRow := 0, e := 0, need := 0, faultVA := 0
               rowDone := false, token := none, opening := !desc.coo, ending := 0, closing := false } : Session) →
        t1 = t.modMN l (fun (m : MergeNet) => { m with slots := m.slots.set k (some y), gens := m.gens.set k gen }) →
        t1.slotOf sid = some y →
        ∃ f', Wrote e.g.frame f' e.g.active e.act (allLanes d (BitVec.ofNat 32 sid)) ∧
          (desc.coo = true → exec i s = .next (t1.setGroup ({ e.g with frame := f' }.advance i))) ∧
          ∀ u, desc.coo = false → t1.emit l e.g.ctx [(desc.rowPtr.toNat, toBytes desc.pw 0, false)] = .ok u →
            exec i s = .next ((u.setSlot l k (some { y with opening := false })).setGroup ({ e.g with frame := f' }.advance i))) ∧
    ∀ i sid, i = .mgresume o → Issues i s s1 g e → Room e.g → DescRead s1 e a [b] desc x t0 t →
      sid = (e.g.frame.lane b (lowLane e.act)).toNat → (∀ b, t.mem.byte b = t0.mem.byte b) ∧
      (t.session? e.g.ctx sid = none → exec i s = .next (trapped t g 0 (mkTrap 33 1))) ∧
      ∀ y, t.session? e.g.ctx sid = some y →
        (y.desc.resumes desc = false → exec i s = .next (trapped t g 0 ⟨32, 5, BitVec.ofNat 64 (e.g.frame.pair a (lowLane e.act)).toNat⟩)) ∧
        (y.desc.resumes desc = true → y.state ≠ 4 → exec i s = .next (trapped t g 0 (mkTrap 33 4))) ∧
        (y.desc.resumes desc = true → y.state = 4 → exec i s = .next ((t.setSlot (sidLanding sid) (sidSlot sid)
          (some { y with desc := desc, state := 2, cause := 0, need := 0 })).setGroup (e.g.advance i)))

/-- 12 R310, R312: MGPUSH hands the tuples of its lanes over in batches of eight lane positions, one at each turn: the
session keeps those within its rows and columns, and DROP says that one was not; a batch waits for room in the run store; a
batch that finds no session that admits it traps with the number of batches taken before. -/
def Obligations.MergePush : Prop :=
  ∀ (o : T64) (i : Instr) (s s1 : State) (g : Group) (e : Env) (a b c sid : Nat) (b0 : List Nat) (rest : List (List Nat)), i = .mgpush o →
    a = o.a.toNat → b = o.b.toNat → c = o.c.toNat → Issues i s s1 g e → Room e.g → sid = (e.g.frame.lane b (lowLane e.act)).toNat →
    CleanLow e [b, c] → (∀ r ∈ [a, a + 1, a + 3], ∀ l, e.act.getLsbD l = true → e.g.frame.bad r l = false) →
    (s1.setGroup e.g).plainBusy e.g.uid = false →
    (((List.range 4).map fun j => (lanesOf e.act).filter fun l => l / 8 == j).filter fun ls => !ls.isEmpty).drop e.g.progIdx = b0 :: rest →
    (∀ r, SessionFails s1 e sid (some c) [1] r → exec i s = .next (trapped s1 g 0 (mkTrap 33 (r + 256 * e.g.progIdx)))) ∧
    ∀ x n, SessionReady s1 e b (some c) [1] sid x → n = ((s1.landing (sidLanding sid)).mn.held + b0.length) →
      (458752 < n → exec i s = .next (s1.setGroup g)) ∧
      ∀ ts keep u, n ≤ 458752 →
        ts = b0.map (fun l => (⟨e.g.frame.lane a l, e.g.frame.lane (a + 1) l, e.g.frame.lane (a + 2) l, e.g.frame.lane (a + 3) l, e.g.frame.bad (a + 2) l⟩ : Tuple)) →
        keep = ts.filter (fun y => decide (y.row < x.desc.nrows) && decide (y.col < x.desc.ncols)) →
        u = s1.setSlot (sidLanding sid) (sidSlot sid) (some { x with held := x.held ++ keep, drop := x.drop || decide (keep.length < ts.length) }) →
        (rest = [] → exec i s = .next (u.setGroup (e.g.advance i))) ∧
        (rest ≠ [] → exec i s = .next (u.setGroup { e.g with progIdx := e.g.progIdx + 1 }))

/-- 12 R313, R319 to R322: MGSEAL seals its stream, and the last one sealed puts the session in MERGING; MGWAIT writes status
word 0 once the session rests, or 0 when it has been closed; MGSTAT writes the four status words, and clears the flags where
asked; MGCLOSE frees the slot, or waits for the writes that the session has begun; MGSTAT.K writes the keyed status of a home. A
session that does not admit a command traps. -/
def Obligations.MergeCommands : Prop :=
  ∀ (o : T64) (s s1 : State) (g : Group) (e : Env) (a b c d sid : Nat) (x : Session), a = o.a.toNat → b = o.b.toNat → c = o.c.toNat → d = o.d.toNat →
    let any := [1, 2, 3, 4, 5]
    let put (y : Option Session) : State := s1.setSlot (sidLanding sid) (sidSlot sid) y
    (∀ i stream states, (i, stream, states) ∈ [(.mgseal o, some c, [1]), (.mgwait o, none, any), (.mgstat o, none, any), (.mgclose o, none, any)] →
      Issues i s s1 g e → e.g.mark = none → CleanLow e (b :: stream.toList) → (s1.setGroup e.g).plainBusy e.g.uid = false →
      sid = (e.g.frame.lane b (lowLane e.act)).toNat → ∀ r, SessionFails s1 e sid stream states r →
        exec i s = .next (trapped s1 g 0 (mkTrap 33 r))) ∧
    (∀ i k y, i = .mgseal o → Issues i s s1 g e → Room e.g → SessionReady s1 e b (some c) [1] sid x → k = (e.g.frame.lane c (lowLane e.act)).toNat →
      y = { x with sealed := x.sealed.set k true } →
      ((∀ j < x.desc.streams, y.sealed.getD j false = true) → exec i s = .next ((put (some { y with state := 2 })).setGroup (e.g.advance i))) ∧
      ((∃ j < x.desc.streams, y.sealed.getD j false = false) → exec i s = .next ((put (some { y with state := 1 })).setGroup (e.g.advance i)))) ∧
    (∀ i, i = .mgwait o → Issues i s s1 g e → RoomFor e.g [d] [] [] →
      (e.g.mark = none ∧ SessionReady s1 e b none any sid x ∨ e.g.mark = some sid ∧ (s1.setGroup e.g).session? e.g.ctx sid = some x →
        (x.state < 3 → exec i s = .next (s1.setGroup { g with mark := some sid })) ∧
        (3 ≤ x.state → ∃ f', Wrote e.g.frame f' e.g.active e.act (allLanes d (BitVec.ofNat 32 (x.word0 x.state))) ∧
          exec i s = .next (s1.setGroup ({ e.g with frame := f' }.advance i)))) ∧
      (e.g.mark = some sid → (s1.setGroup e.g).session? e.g.ctx sid = none → ∃ f', Wrote e.g.frame f' e.g.active e.act (allLanes d 0) ∧
        exec i s = .next (s1.setGroup ({ e.g with frame := f' }.advance i)))) ∧
    (∀ i, i = .mgstat o → Issues i s s1 g e → RoomFor e.g ((List.range 4).map (d + ·)) [] [] → d + 4 ≤ 64 → SessionReady s1 e b none any sid x →
      ∃ f', Wrote e.g.frame f' e.g.active e.act (quad d [x.word0 x.state, x.nextRow, x.e % 2 ^ 32, x.e / 2 ^ 32 % 2 ^ 32]) ∧
        exec i s = .next ((if o.ctl.getLsbD 1 then put (some { x with flags := 0, drop := false, poison := false }) else s1).setGroup
          ({ e.g with frame := f' }.advance i))) ∧
    (∀ i, i = .mgclose o → Issues i s s1 g e → Room e.g →
      (e.g.mark = none → SessionReady s1 e b none any sid x →
        (x.rowDone = false → x.token = none → x.opening = false → (put none).slotOf sid = none → exec i s = .next ((put none).setGroup (e.g.advance i))) ∧
        ∀ y, (x.rowDone = true ∨ x.token.isSome = true ∨ x.opening = true) →
          y = { x with closing := true, held := if x.rowDone then [] else x.held } → (put (some y)).slotOf sid = some y →
          exec i s = .next ((put (some y)).setGroup { g with mark := some sid, busy := true })) ∧
      (e.g.mark = some sid → (s1.slotOf sid = none → exec i s = .next (s1.setGroup (e.g.advance i))) ∧
        (s1.slotOf sid = some x → exec i s = .next (s1.setGroup g)))) ∧
    ∀ i y t (l : Nat) (m : MergeNet), i = .mgstatK o → Issues i s s1 g e → RoomFor e.g ((List.range 4).map (d + ·)) [] [] → d + 4 ≤ 64 →
      OneAddr true accEngR ⟨[a, a + 1], 1, fun l => (e.g.frame.pair a l).toNat⟩ s1 e y t → l = home y.pa → m = (t.landing l).mn →
      ∃ f', Wrote e.g.frame f' e.g.active e.act (quad d [256 * m.kflags.toNat + (if m.kpoison then 16384 else 0), m.keyed.length, m.kruns, 0]) ∧
        exec i s = .next ((if o.ctl.getLsbD 1 then t.modMN l (fun (m : MergeNet) => { m with kflags := 0, kpoison := false }) else t).setGroup
          ({ e.g with frame := f' }.advance i))

/-- 10 R264, R265; 11 R264, R275, R280, R281, R291, R293: MCLAIM gives an unclaimed unit to the team, with everything in it
cleared, and says in a predicate whether the team holds it, also where the claim stands in a save area that the unit is to take
back; MRELEASE joins the queue, and its group waits there until the claim ends;
MWAIT completes once every command accepted before it has; MPROG writes its word at once. A unit the team does not hold traps. -/
def Obligations.MatrixClaims : Prop :=
  ∀ (o : T64) (s s1 : State) (g : Group) (e : Env) (u : MUnit) (d : Nat) (held : Option (Nat × Nat × Nat)), u = s1.unit e.g.l e.g.core → d = o.d.toNat →
    held = u.holder.or ((s1.setGroup e.g).setAside u.l u.core) →
    (∀ i, i ∈ ([.mrelease o, .mzero o, .mwait o, .mread o, .mstat o, .mprog o] : List Instr) → Issues i s s1 g e → e.g.mark = none →
      (s1.setGroup e.g).plainBusy e.g.uid = false → (s1.setGroup e.g).lostClaim e.g = false →
      (held = none → exec i s = .next (trapped s1 g 0 (mkTrap 26 (1 + 2 ^ 32 * 0xFFFF)))) ∧
      (∀ h, held = some h → h ≠ e.g.teamKey → exec i s = .next (trapped s1 g 0 (mkTrap 26 (2 + 2 ^ 32 * h.2.2)))) ∧
      ((∃ c ∈ u.queue, c.op.isRelease = true) → held = some e.g.teamKey →
        exec i s = .next (trapped s1 g 0 (mkTrap 26 (3 + 2 ^ 32 * e.g.team))))) ∧
    (∀ i, i = .mclaim o → Issues i s s1 g e → RoomFor e.g [] [d] [] → d < 8 → (s1.setGroup e.g).plainBusy e.g.uid = false →
      (s1.setGroup e.g).lostClaim e.g = false →
      (held = none → ∃ f', WrotePred e.g.frame f' e.act d (fun _ => true) ∧
        exec i s = .next ((s1.setUnit { MUnit.clear u.l u.core with holder := some e.g.teamKey, accepted := u.accepted, done := u.done }).setGroup
          ({ e.g with frame := f', pinned := true, affL := e.g.l, affC := e.g.core }.advance i))) ∧
      (held = some e.g.teamKey → (∀ c ∈ u.queue, c.op.isRelease = false) → ∃ f', WrotePred e.g.frame f' e.act d (fun _ => true) ∧
        exec i s = .next (s1.setGroup ({ e.g with frame := f', pinned := true, affL := e.g.l, affC := e.g.core }.advance i))) ∧
      ((∃ h, held = some h ∧ (h ≠ e.g.teamKey ∨ ∃ c ∈ u.queue, c.op.isRelease = true)) → ∃ f', WrotePred e.g.frame f' e.act d (fun _ => false) ∧
        exec i s = .next (s1.setGroup ({ e.g with frame := f' }.advance i)))) ∧
    (∀ i, i = .mrelease o → Issues i s s1 g e → Room e.g → MatrixReady s1 e [] →
      (u.queue.length < 16 → exec i s = .next ((queued s1 e (.release e.g.uid) []).setGroup
        ((({ e.g with wait := .matrixReply } : Group).laLines i []).advance i))) ∧
      (16 ≤ u.queue.length → exec i s = .next (s1.setGroup g))) ∧
    (∀ i, i = .mwait o → Issues i s s1 g e → Room e.g →
      (e.g.mark = none → MatrixReady s1 e [] → u.accepted ≤ u.done → exec i s = .next (s1.setGroup (e.g.advance i))) ∧
      (e.g.mark = none → MatrixReady s1 e [] → u.done < u.accepted → exec i s = .next (s1.setGroup { g with mark := some u.accepted })) ∧
      ∀ n, e.g.mark = some n → (n ≤ u.done → exec i s = .next (s1.setGroup (e.g.advance i))) ∧ (u.done < n → exec i s = .next (s1.setGroup g))) ∧
    ∀ i, i = .mprog o → Issues i s s1 g e → RoomFor e.g [d] [] [] → MatrixReady s1 e [] →
      ∃ f', Wrote e.g.frame f' e.g.active e.act
          (allLanes d (BitVec.ofNat 32 (u.progIdx + 2 ^ 16 * u.queue.length + if u.queue = [] then 2 ^ 31 else 0))) ∧
        exec i s = .next (s1.setGroup ({ e.g with frame := f' }.advance i))

/-- 11 R275 to R279, R283, R284, R286 to R290, R292: the commands that join the unit's queue and complete: MZERO, MREAD and MSTAT,
after which the context waits for its registers, MMA and MSPARSE with the A rows read at issue, MLOADB, MLOADS and MSTORE with
their pages translated, and MLOOP and MBATCH with their descriptor read. While the queue is full they wait. -/
def Obligations.MatrixCommands : Prop :=
  ∀ (o : T64) (s s1 : State) (g : Group) (e : Env) (a b d : Nat), a = o.a.toNat → b = o.b.toNat → d = o.d.toNat →
    let base := (e.g.frame.pair a (lowLane e.act)).toNat
    let word (r : Nat) : Nat := (e.g.frame.lane r (lowLane e.act)).toNat
    let fmt := (o.ctl.extractLsb' 4 4).toNat
    let free (t : State) : Prop := (t.unit e.g.l e.g.core).queue.length < 16
    (∀ i op, (i = .mzero o ∧ op = .zero d) → Issues i s s1 g e → Room e.g → MatrixReady s1 e [] →
      (free s1 → exec i s = .next ((queued s1 e op []).setGroup ((e.g.laLines i []).advance i))) ∧ (¬free s1 → exec i s = .next (s1.setGroup g))) ∧
    (∀ i n op, (i, n, op) ∈ [(.mread o, 8, MOp.read a b d e.g.uid e.act), (.mstat o, 2, MOp.stat (o.ctl.getLsbD 0) d e.g.uid e.act)] →
      Issues i s s1 g e → RoomFor e.g ((List.range n).map (d + ·)) [] [] → d + n ≤ 64 → MatrixReady s1 e [] →
      (free s1 → ∃ f' : Frame, (∀ r < 64, ∀ l < 32, f'.lane r l = e.g.frame.lane r l ∧ f'.bad r l = e.g.frame.bad r l) ∧
        exec i s = .next ((queued s1 e op []).setGroup ((({ e.g with frame := f', wait := .matrixReply } : Group).laLines i []).advance i))) ∧
      (¬free s1 → exec i s = .next (s1.setGroup g))) ∧
    (∀ i sp rows (g' : Group) scales absent, (i = .mma o ∧ sp = false ∨ i = .msparse o ∧ sp = true) → Issues i s s1 g e → Room e.g → MatrixReady s1 e [] →
      absent = ((List.range (if sp = false ∧ fmtClass fmt = 2 then 6 else 8)).map (a + ·)).filter (fun n => (e.g.frame.reg? n).isNone) →
      (absent ≠ [] → e.g.deadTrap = false) → g' = (if absent = [] then e.g else e.g.sticky DEADRD) →
      formatReason fmt (o.ctl.getLsbD 8) sp false sp (s1.unit e.g.l e.g.core).recordAfter none = none →
      rows = regRows e.g.frame a fmt sp → b + rows.length ≤ 64 →
      scales = (List.range rows.length).map (fun r => if o.ctl.getLsbD 8 then scaleBytes (e.g.frame.regBytes o.c.toNat) ((if sp then 16 else 8) * r) (if sp then 16 else 8)
        else List.replicate (if sp then 16 else 8) 127) → free s1 →
      exec i s = .next ((queued s1 e (.step d b fmt sp rows scales) []).setGroup ((g'.laLines i []).advance i))) ∧
    (∀ i sp mbase pitch rows pages ms t, i = .mloadb o → Issues i s s1 g e → Room e.g → sp = o.ctl.getLsbD 8 →
      MatrixReady s1 e ([a, a + 1, b] ++ if sp then [o.c.toNat, o.c.toNat + 1] else []) →
      mbase = (e.g.frame.pair o.c.toNat (lowLane e.act)).toNat → pitch = word b → 3 ≤ fmt → fmt ≤ 8 → (sp = true → fmt = 4 ∨ fmt = 5) →
      rowBytes fmt ≤ pitch → base < 2 ^ 56 → (sp = true → mbase < 2 ^ 56) → rows = (List.range 256).map (fun k => (base + k * pitch) % 2 ^ 64) →
      (∀ r ∈ rows, r < 2 ^ 56) → MatrixReach (s1.setGroup e.g) e accEngR (rows.map fun r => (r, rowBytes fmt)) (if sp then [mbase] else []) pages ms t → free t →
      exec i s = .next ((queued t e (.loadB fmt sp base pitch (ms.headD [])) pages).setGroup
        ((e.g.laLines i (runLines pages (rows.map (fun r => (r, rowBytes fmt)) ++ (if sp then [mbase] else []).map fun m => (m, 16384)))).advance i))) ∧
    (∀ i pages ms t, i = .mloads o → Issues i s s1 g e → Room e.g → MatrixReady s1 e [a, a + 1] → base < 2 ^ 56 →
      MatrixReach (s1.setGroup e.g) e accEngR [(base, 4096)] [] pages ms t → free t →
      exec i s = .next ((queued t e (.loadS base) pages).setGroup ((e.g.laLines i (runLines pages [(base, 4096)])).advance i))) ∧
    (∀ i pitch n rows rm pages ms t, i = .mstore o → Issues i s s1 g e → Room e.g → MatrixReady s1 e [a, a + 1, b, b + 1] →
      pitch = word b → n = word (b + 1) → base < 2 ^ 56 → 1 ≤ fmt → fmt ≤ 5 → 1 ≤ n → n ≤ 64 → d + n ≤ 64 → 256 * storeBytes fmt ≤ pitch →
      rows = (List.range n).map (fun k => (base + k * pitch) % 2 ^ 64) → (∀ r ∈ rows, r < 2 ^ 56) →
      rm = (if (o.ctl.extractLsb' 0 3).toNat = 0 then e.g.rm else (o.ctl.extractLsb' 0 3).toNat - 1) →
      MatrixReach (s1.setGroup e.g) e accEngW (rows.map fun r => (r, 256 * storeBytes fmt)) [] pages ms t → free t →
      exec i s = .next ((queued t e (.store rm (o.ctl.getLsbD 3) fmt d n o.c.toNat base pitch) pages).setGroup
        ((e.g.laLines i (runLines pages (rows.map fun r => (r, 256 * storeBytes fmt)))).advance i))) ∧
    ∀ i batch desc x t0 runs metas pages ms t, (i = .mloop o ∧ batch = false ∨ i = .mbatch o ∧ batch = true) → Issues i s s1 g e → Room e.g →
      MatrixReady s1 e [a, a + 1] → LoopRead s1 e base desc x t0 →
      formatReason desc.aFmt desc.amx desc.sparse batch false (s1.unit e.g.l e.g.core).recordAfter (if desc.reload then some desc.bFmt else none) = none →
      desc.rangeReason batch = none → metas = (List.range desc.steps).flatMap desc.metaRows →
      runs = (List.range desc.steps).flatMap (fun k => (desc.aRows k).map (fun r => (r, desc.aRowBytes batch)) ++
        (desc.xaRows k).map (fun r => (r, desc.blocks batch)) ++ (desc.bRows k).map (fun r => (r, rowBytes desc.bFmt)) ++ (desc.xbRows k).map fun r => (r, 4096)) →
      (∀ r ∈ runs, r.1 < 2 ^ 56) → (∀ m ∈ metas, m < 2 ^ 56) → MatrixReach t0 e accEngR runs metas pages ms t → free t →
      exec i s = .next ((queued t e (.loop batch desc ms) pages).setGroup
        ((e.g.laLines i (x.pa :: runLines pages (runs ++ metas.map fun m => (m, 16384)))).advance i))

/-- 11 R285: the command of MZERO, when the unit executes it at the head of its queue, leaves every element of tile zN at +0 and
every other element of the tiles as it was, and completes. -/
def Obligations.TileZero : Prop :=
  ∀ (s : State) (u : MUnit) (c : MCmd) (rest : List MCmd) (z : Nat), u = s.unit u.l u.core → u.queue = c :: rest → c.op = .zero z →
    ∃ u', exec (.matrixCommandExecution u.l u.core) s = .next (s.setUnit u') ∧ u'.queue = rest ∧ u'.done = u.done + 1 ∧
      ∀ k, look u'.tiles 0 k = if 16384 * z ≤ k ∧ k < 16384 * (z + 1) then 0 else look u.tiles 0 k

/-- 02 R28, R31, R32, R35, R43; 05 R127, R128, R130, R140; 09 R236, R245, R248; 12 R322; 17 R363: what the oldest item of a pair of
landings does when it is delivered, the pair being left without it: a crossing enters the wharf, or the pool of a context that
is parking; an arrival reaches its join; an exit and a live-rank change are counted; posted stores and reductions are applied
lane after lane, a store in a launch window being rejected; a keyed contribution is entered where there is room; a flip turns its
page; a marker is seen. An arrival waits until the landing's FT has passed that of its crossing. -/
def Obligations.Deliveries : Prop :=
  ∀ (src dst : Nat) (s t : State) (item : Item) (rest : List Item), s.pair src dst = item :: rest → t = s.setPair src dst rest →
    (∀ g, item = .crossing g → ∃ u, exec (.crossingArrival src dst) s = .next u ∧
      ((t.ctx g.ctx).runsAt dst = true → u = t.enterWharf dst g .frame) ∧
      ((t.ctx g.ctx).runsAt dst = false → (t.ctx g.ctx).state = 0 → u = t) ∧
      ((t.ctx g.ctx).runsAt dst = false → (t.ctx g.ctx).state ≠ 0 → u = t.parkArriving dst g true false)) ∧
    (∀ a, item = .arrival a → ∃ u, exec (.arrival src dst) s = .next u ∧
      (s.ftAt dst ≤ a.g.lastFT → u = s) ∧
      (a.g.lastFT < s.ftAt dst →
        ((t.ctx a.g.ctx).runsAt dst = true → src < 64 → u = t.joinArrives dst a) ∧
        ((t.ctx a.g.ctx).runsAt dst = true → 64 ≤ src → u = t.rejoin dst a .frame) ∧
        ((t.ctx a.g.ctx).runsAt dst = false → (t.ctx a.g.ctx).state = 0 → u = t) ∧
        ((t.ctx a.g.ctx).runsAt dst = false → (t.ctx a.g.ctx).state ≠ 0 → u = t.parkArriving dst a.g true true))) ∧
    (∀ ctx tag team rank m, item = .exit ctx tag team rank m →
      exec (.exitNotice src dst) s = .next ((t.countExited ctx tag team rank m).evalJoins dst ctx tag team rank)) ∧
    (∀ ctx tag o m, item = .live ctx tag o m → exec (.liveRankChange src dst) s = .next ((t.setLive o m).evalBar o)) ∧
    (∀ p, item = .post p →
      (p.op = .store → ∃ u, exec (.postedStoreApply src dst) s = .next u ∧
        u = (p.lanes.foldl (fun (z : State) x => z.applyStore p.pl p.size x)
          ((t.beatLocs (p.lanes.map PostLane.loc) p.size true).beatTwice (p.lanes.filterMap PostLane.ctr) 8)).rejectPost p.lanes ∧
        ∀ x, p.lanes = [x] → x.ctr = none → (x.loc.lwin = true → ∀ b, u.mem.byte b = t.mem.byte b) ∧
          (x.loc.lwin = false → x.loc.peer = none → isControl (t.mem.backing x.loc false) = false → t.mem.wf = true → ∀ b, u.mem.byte b = if t.mem.backing x.loc false ≤ b ∧ b < t.mem.backing x.loc false + p.size then
            (toBytes p.size x.value).getD (b - t.mem.backing x.loc false) 0 else t.mem.byte b)) ∧
      (∀ f, p.op = .reduce f → exec (.reductionApply src dst) s = .next (p.lanes.foldl (fun (z : State) x =>
        (z.combineAt (z.mem.backing x.loc false) p.pl f p.size x.value x.poison).2.2.2) (t.beatTwice (p.lanes.map PostLane.loc) p.size))) ∧
      (∀ f, p.op = .keyed f → p.token = none → (t.landing dst).mn.keyed.length + p.lanes.length ≤ keyedRoom →
        exec (.keyedBufferEntry src dst) s = .next (t.modMN dst fun (m : MergeNet) =>
          { m with keyed := m.keyed ++ p.lanes.map fun x => ⟨p.ctx, x.loc.pa, f, x.poison, x.key, BitVec.ofNat 32 x.value⟩ })) ∧
      (p.op = .flip → ∀ x, p.lanes = [x] → exec (.flip src dst) s = .next { t with mem := t.mem.setFlip x.loc.pa !(t.mem.flip x.loc.pa) })) ∧
    ∀ id, item = .marker id →
      exec (.drainMarker src dst) s = .next (t.modCtx id fun (c : Ctx) => { c with markers := c.markers.filter (· != (src, dst)) })

/-- 02 R40 to R43; 03 R70 to R72, R75; 17 R366; 05 R133: what a landing's dispatcher, the WSE and the tides do in a turn: a berth
is free again; the waiting context of least rank that can be admitted enters its berth, its control block read where one was written;
an overflow continuation returns; a context of class 0 or 1 that has waited 65,536 ticks is promoted; the oldest frame is
spilled, or the group parks under a token where its segment or a page does not allow it; a caller is refilled; an IDLE ends at its
time or at a fault record; a due sample is taken and adopted. -/
def Obligations.DispatcherTurns : Prop :=
  ∀ (s : State) (l uid : Nat) (g : Group),
    (∀ core berth, ∃ t, exec (.berthRelease l core berth) s = .next t ∧ t = { s with ghosts := t.ghosts } ∧
      ∀ k, k ∈ t.ghosts ↔ k ∈ s.ghosts ∧ k ≠ (l, core, berth)) ∧
    (∀ w core b h s1, s.nextAdmitted l = some w → s.berthFor l w.g = some (core, b) →
      h = { w.g with core := core, berth := b, block := w.readBlock } →
      s1 = s.modLanding l (fun x => { x with wharf := x.wharf.filter fun v => v.g.uid != w.g.uid }) →
      exec (.admission l) s = .next (if w.readBlock = .none then { s1 with groups := s1.groups ++ [h] }
        else State.readTop { s1 with groups := s1.groups ++ [h] } h) ∧
      w ∈ (s.landing l).wharf ∧ s.admissible l w = true ∧ ∀ v ∈ (s.landing l).wharf, s.admissible l v = true →
        lexLt (s.admissionKey v.g (s.promotedNow l v)) (s.admissionKey w.g (s.promotedNow l w)) = false) ∧
    (∀ id pa r, s.oldestOverflow l = some (id, pa, r) → exec (.overflowReturn l) s = .next
      (if 0x180000 ≤ (s.landing l).occupied then s
      else ((s.releaseRecords (s.ctx id) l [pa]).resumeRecord l pa r (s.poolImage (pa + 64))).retryPool l none)) ∧
    exec (.wharfPromotion l uid) s = .next (s.modLanding l fun x => { x with wharf := x.wharf.map fun (w : Waiting) =>
      { w with promoted := w.promoted || (w.g.uid == uid && decide (w.g.cls ≤ 1) && (s.ctx w.g.ctx).pl == 0 && decide (w.since + 65536 ≤ s.ftAt l)) } }) ∧
    (s.group? uid = some g →
      (g.waitToken = none → g.wse = .spillAll ∨ (g.wait = .none ∧ g.wse = .spillOne) → ∀ f, g.older.getLast? = some f →
        ∃ t, exec (.windowSpill uid) s = .next (t.modGroup uid fun h =>
            if h.waitToken = none ∧ (h.older = [] ∨ (h.wse = .spillOne ∧ h.older.length < g.older.length)) then { h with wse := .none } else h) ∧
          ∀ x img, x = s.seg g.ctx (s.spillBase g) → img = f.image (s.kmask f) →
            (s.spillLim g < x.cursor + img.length → t = s.parkOnToken g (s.roomRecord g)) ∧
            (x.cursor + img.length ≤ s.spillLim g →
              (∀ va e, s.pagesOf g.l g.ctx accSpill x.cursor img.length = .error (va, e) → t = s.parkOnToken g (s.wseRecord g accSpill va e)) ∧
              ∀ loc cb s1 s2, s.pagesOf g.l g.ctx accSpill x.cursor img.length = .ok (loc, s1) →
                s1.pagesOf g.l g.ctx accSpill (s.spillBase g) 64 = .ok (cb, s2) →
                t = (((((s2.putWords loc (img.length / 16) x.cursor img).putWords cb 1 (s.spillBase g)
                    (Seg.bytes { x with cursor := x.cursor + img.length })).setSeg { x with cursor := x.cursor + img.length }).keepToks
                      g.ctx (frameKey x.cursor) 0 none f true).setGroup
                  (if g.older.dropLast = [] then { g with older := [], frame := { g.frame with cp := true, cseg := g.sib, coff := (x.cursor - s.spillBase g) / 64 } }
                  else { g with older := linkOldest g.sib ((x.cursor - s.spillBase g) / 64) g.older.dropLast })))) ∧
      (g.wait = .none → g.wse = .refill → g.older = [] → ∃ t, exec (.refill uid) s = .next t ∧
        (∀ va e, s.pagesOf g.l g.ctx accRefill (s.callerVA g) 64 = .error (va, e) → t = s.parkOnToken g (s.wseRecord g accRefill va e)) ∧
        ∀ loc s1, s.pagesOf g.l g.ctx accRefill (s.callerVA g) 64 = .ok (loc, s1) →
          frameDamaged ((List.range 64).map fun i => s1.mem.byte (loc (s.callerVA g + i))) = true →
          t = (s1.touch (loc (s.callerVA g)) 64).modGroup g.uid fun x => { x with pend := some (spillImageError (s.callerVA g)), wse := .none }) ∧
      ∀ at_ n, g.wait = .idle at_ n → at_ ≤ s.ftAt l ∨ n < (s.landing l).fq.posted → g.l = l →
        exec (.idleCompletion uid) s = .next (s.setGroup { g with wait := .none, pc := g.pc + 8 })) ∧
    (∀ sc, s.sampleDue sc l = true → sc ≠ .system ∨ l ≠ 0 → exec (.tideSample sc l) s = .next (s.modLanding l fun x => { x with
      samples := ⟨sc, s.ftAt l, s.report sc l (s.ftAt l)⟩ :: x.samples.filter fun y => y.scope != sc || decide (s.ftAt l ≤ y.at_ + s.tideLag sc + 8) })) ∧
    ∀ sc v, s.adoption sc l = some v → ∃ t x, exec (.tideAdoption sc l) s = .next t ∧ t = s.modLanding l (fun _ => x) ∧
      (sc = .landing → x = { s.landing l with tideL := v, adL := s.ftAt l + 1 }) ∧
      (sc = .module → x = { s.landing l with tideM := v, adM := s.ftAt l + 1 }) ∧
      (sc = .system → x = { s.landing l with tideS := v, adS := s.ftAt l + 1 })

/-- 05 R138, R139; 10 R265, R266, R270, R271; 11 R275 to R290; 12 R314, R315, R322; 17 R363; 19 R387, R388: what the copy engine, a
merge network, a matrix unit, a parking landing, the page move engine and the fault queue do in a turn. A copy reads its next run
or writes a piece; a network spills its fullest session, commits a row, or closes a region; a claim ends, is narrowed into its save
area, or is restored; the head of a unit's queue executes; a park command is taken, acted on and reported; a move checks, clears V,
copies line after line and writes the new entry; FQHEAD takes a value. -/
def Obligations.EngineTurns : Prop :=
  ∀ (s : State) (l core : Nat) (u : MUnit) (m : MergeNet), u = s.unit l core → m = (s.landing l).mn →
    (∀ id k c p, s.copies.find? (fun c => c.id == id) = some c → c.pieces[k]? = some p →
      (∀ x n, p.src[p.data.length]? = some (x, n) → x.peer = none → p.asked = none → (home x.pa = 64 → s.hostUp = true) → exec (.copyLine id k) s =
        .next ((s.readRun x n).2.endCopy { c with pieces := c.pieces.set k { p with data := p.data ++ [(s.readRun x n).1] } })) ∧
      (p.src.length ≤ p.data.length → (∀ q ∈ c.pieces.take k, q.dst.peer ≠ p.dst.peer ∨ home q.dst.pa ≠ home p.dst.pa) → exec (.copyLine id k) s =
        .next ((s.writePiece c p).1.endCopy { c with pieces := c.pieces.eraseIdx k, unacked := c.unacked ++ (s.writePiece c p).2 }))) ∧
    (∀ c rest, m.closes = c :: rest → c.token = none → (s.ctx c.ctx).keyedRuns l = [] →
      let inside (k : KeyedEntry) : Bool := c.pages.contains (k.pa / 0x20000 * 0x20000)
      exec (.closeCommand l) s = .next (((s.setRuns c.ctx l []).modMN l fun (m : MergeNet) =>
        { m with keyed := m.keyed.filter fun k => !inside k, closes := rest }).applyKeyed l (s.ctx c.ctx).pl (m.keyed.filter inside))) ∧
    (∀ x a n, m.slots.getD m.fullest none = some x → 458752 < m.held + 8 → x.token = none → x.ending = 0 →
      a = runsEnd x.desc.spill.toNat x.runs → n = x.held.length →
      (64 ≤ x.runs.length ∨ x.desc.spill.toNat + 65536 * x.desc.spillCap.toNat < a + runBytes n →
        exec (.mergeSpill l) s = .next (s.failSession l m.fullest x 3 0)) ∧
      (x.runs.length < 64 → a + runBytes n ≤ x.desc.spill.toNat + 65536 * x.desc.spillCap.toNat → ∀ s1,
        s.writeRun l x.ctx a ((sortBy Tuple.order x.held).map fun t => (t.bytes, t.poison)) = .ok s1 →
        exec (.mergeSpill l) s = .next (s1.settleSlot l m.fullest { x with held := [], runs := x.runs ++ [(a, n)] }))) ∧
    (∀ slot x, m.slots.getD slot none = some x → x.token = none →
      (x.ending ≠ 0 → exec (.rowCommit l slot) s = .next (s.rest l slot x)) ∧
      (x.ending = 0 → x.state = 1 → x.closing = true → x.opening = false → exec (.rowCommit l slot) s = .next (s.spillSession l slot x)) ∧
      (x.ending = 0 → x.state = 2 → x.rowDone = false → exec (.rowCommit l slot) s = .next (s.mergeRow l slot x)) ∧
      (x.ending = 0 → x.state = 2 → x.rowDone = true → ∀ s1,
        s.emit l x.ctx [(x.desc.rowPtr.toNat + x.desc.pw * (x.nextRow + 1), toBytes x.desc.pw (x.e + x.need), false)] = .ok s1 →
        exec (.rowCommit l slot) s = .next (s1.commitRow l slot x))) ∧
    (∀ h, u.holder = some h →
      ((∃ c rest, u.queue = c :: rest ∧ c.op.isRelease = true) ∨ (u.queue = [] ∧ s.teamGone h = true) → exec (.claimEnd l core) s =
        .next ((s.letGo u.queue).setUnit { MUnit.clear l core with accepted := u.accepted, done := u.accepted })) ∧
      (s.narrowable u = true → ∃ t q r, exec (.claimNarrowing l core) s =
          .next { t.setUnit { MUnit.clear l core with accepted := u.accepted, done := u.accepted } with saved := t.saved ++ [⟨h.1, l, core, u, q, r⟩] } ∧
        t = ((((s.store ((s.ctx h.1).slice l + 0x80000 * core) u.saveBytes false).store ((s.ctx h.1).slice l + 0x80000 * core + 0x65000)
          u.scaleBytes false).store ((s.ctx h.1).slice l + 0x80000 * core + 0x65800) (u.statusBytes s.steps) false).store
          ((s.ctx h.1).slice l + 0x80000 * core + 0x66000) q false).store ((s.ctx h.1).slice l + 0x80000 * core + 0x68000) r false)) ∧
    (∀ ctxid c k a, s.saved.find? (fun c => c.ctx == ctxid && c.l == l && c.core == core && (s.ctx ctxid).state == 2) = some c →
      a = (s.ctx ctxid).saveArea l core → s.mem.bytes (a + 0x66000) 1024 = c.queueBytes → s.mem.bytes (a + 0x68000) 32768 = c.rowBytes →
      s.restoreCore c = some k → exec (.claimRestore ctxid l core) s =
        .next ((State.setUnit { s with saved := s.saved.filter fun d => !(d.ctx == ctxid && d.l == l && d.core == core) }
          { c.restore s.mem a with l := l, core := k, accepted := (s.unit l k).accepted + c.unit.queue.length, done := (s.unit l k).accepted }).moveAffinity
            (c.unit.holder.getD (ctxid, 0, 0)) l core k)) ∧
    (∀ c rest, u.queue = c :: rest →
      (∀ fmt sp base pitch metas b, c.op = .loadB fmt sp base pitch metas →
        b = s.readVas c.pages (rowBytes fmt) ((List.range 256).map fun k => (base + k * pitch) % 2 ^ 64) →
        exec (.matrixCommandExecution l core) s =
          .next (b.2.setUnit (u.loadB fmt sp (b.1.map fun r => elements (fmtClass fmt) r 0 128 256) metas).complete)) ∧
      (∀ base b, c.op = .loadS base → b = (s.beats (s.wordRuns c.pages base 4096)).readVa c.pages base 4096 258 →
        exec (.matrixCommandExecution l core) s = .next (b.2.setUnit (u.loadScales b.1).complete)) ∧
      (∀ z row fmt sparse a xs, c.op = .step z row fmt sparse a xs → exec (.matrixCommandExecution l core) s =
          .next (s.setUnit (u.step (arrayErrors s.steps) (s.ftAt l) z row fmt sparse ((a.zip xs).map fun r => ⟨r.1, r.2⟩)).complete)) ∧
      (∀ z row d uid mask, c.op = .read z row d uid mask → d + 8 ≤ 64 → ∃ f, exec (.matrixCommandExecution l core) s =
          .next ((s.matrixReply uid f).setUnit u.complete) ∧
        ∀ h : Frame, Wrote h (f h) mask mask ⟨(List.range 8).map (d + ·), .g,
          fun r i => BitVec.ofNat 32 (look u.tiles 0 (16384 * z + 256 * row + 32 * (r - d) + i)), fun _ _ => false⟩) ∧
      (∀ rm nosat fmt row n z base pitch w, c.op = .store rm nosat fmt row n z base pitch →
        w = s.storeRows u c.pages (s.ctx c.ctx).pl rm nosat fmt row n z base pitch → exec (.matrixCommandExecution l core) s =
          .next (w.1.setUnit { u with status := u.status ||| w.2.setWidth 32 }.complete)) ∧
      (∀ batch d metas k rows t v, c.op = .loop batch d metas → d.reload = false → k = u.progIdx →
        s.readA c.pages d batch (if batch then k / 4 else k) = (rows, t) →
        v = (if batch then u.pass (arrayErrors s.steps) (s.ftAt l) (k % 4) d.row0 d.aFmt rows
          else u.step (arrayErrors s.steps) (s.ftAt l) d.tile d.row0 d.aFmt d.sparse rows) →
        exec (.matrixCommandExecution l core) s = .next (t.setUnit (if k + 1 = (if batch then 4 * d.steps else d.steps) then v.complete else { v with progIdx := k + 1 }))) ∧
      ∀ clr d uid mask, c.op = .stat clr d uid mask → d + 2 ≤ 64 → ∃ f, exec (.matrixCommandExecution l core) s =
          .next ((s.matrixReply uid f).setUnit (if clr then { u with status := 0, log := [] } else u).complete) ∧
        ∀ h : Frame, Wrote h (f h) mask mask ⟨[d, d + 1], .g, fun r i => BitVec.ofNat 32 (if r ≤ d then (u.status ||| BitVec.ofNat 32 (256 * u.log.length)).toNat
          else (u.log.getD (i / 4) 0).toNat / 2 ^ (32 * (i % 4))), fun _ _ => false⟩) ∧
    (∀ id c, c = s.ctx id → c.state = 3 →
      (c.toCommand.contains l = true → exec (.parkCommand id l) s =
        .next (s.modCtx id fun k => { k with toCommand := k.toCommand.filter (· != l), stopping := k.stopping ++ [l] })) ∧
      (c.toCommand.contains l = false → c.stopping.contains l = true → exec (.parkCommand id l) s = .next (s.parkTurn id l)) ∧
      (s.reportReady c l = true → exec (.parkReport id l) s = .next (s.setCtx
        (if ∀ k ∈ c.lands, k ∈ c.reported ∨ k = l then { c with state := 4, parker := none, reported := [] } else { c with reported := c.reported ++ [l] })))) ∧
    (∀ p, p = (s.landing l).pm → p.stat.getLsbD 0 = true →
      (∀ c, p.step = 0 → s.moveCause l p = some c → exec (.pageMove l) s = .next ((s.readEntry l p).setMove l (p.finish 2 c))) ∧
      (p.step = 0 → s.moveCause l p = none → exec (.pageMove l) s =
        .next ((((s.readEntry l p).moveDiscard l p).putEntry p.pte.toNat (s.mem.num p.pte.toNat 8 - 1)).setMove l
          { p with step := 1, old := BitVec.ofNat 64 (s.mem.num p.pte.toNat 8) })) ∧
      (p.step = 1 → exec (.pageMove l) s = .next (if s.moveWaits p then s else s.setMove l { p with step := 2 })) ∧
      (∀ k, p.step = 2 + k → k < p.len / 64 → (s.target l (p.src.toNat + 64 * k)).isMemory = true →
        (s.target l (p.dst.toNat + 64 * k)).isMemory = true → exec (.pageMove l) s = .next (s.moveLine l p k)) ∧
      (p.step = 2 + p.len / 64 → (s.target l p.pte.toNat).isMemory = true → exec (.pageMove l) s =
        .next ((State.putEntry { s with mem := s.mem.forget p.dst.toNat p.len } p.pte.toNat p.new.toNat).moveEnd l p 1 0))) ∧
    ∀ v, (s.landing l).fq.held = [] → exec (.fqheadWrite l v) s = .next (s.modLanding l fun x => { x with fq := { x.fq with head := v } })

/-- 00 R9; 05 R143; 20 R390, R393, R395 to R400; 23 R421 to R424, R429; 24 R438, R440: what comes from outside the module: a launch record is
accepted or rejected with its cause; a placement turn looks at a start condition, places a team or tags a record; a launch
completes; registers are written; the host reads and writes device memory, appends to a queue and reaches control space; an item
of a link is applied in its order; ports and the host link change. -/
def Obligations.HostTurns : Prop :=
  ∀ (s : State) (l : Nat),
    (∀ w x c, w.l = l → x = Launch.ofBytes s.nextUid l w.bytes → c = s.ctx x.ctx →
      let reject (k : Nat) : State := s.modLanding l fun y => { y with launchCause := k, rejected := sat16 y.rejected }
      let bad : Bool := x.malformed (bits (num w.bytes 24 4) 31 26) c.pl
      (w.bytes.length ≠ 64 → exec (.launchRecord w) s = .next (reject 5)) ∧
      (w.bytes.length = 64 → bad = true → exec (.launchRecord w) s = .next (reject 1)) ∧
      (w.bytes.length = 64 → bad = false → c.state ≠ 1 → c.state ≠ 2 → exec (.launchRecord w) s = .next (reject 2)) ∧
      (w.bytes.length = 64 → bad = false → c.state = 1 ∨ c.state = 2 →
        ((∀ k < 64, (x.placeMask &&& c.landMask).getLsbD k = false) → exec (.launchRecord w) s = .next (reject 3)) ∧
        ∀ k < 64, (x.placeMask &&& c.landMask).getLsbD k = true →
          (16 ≤ (s.landing l).pending.length → exec (.launchRecord w) s = .next (reject 4)) ∧
          ((s.landing l).pending.length < 16 → exec (.launchRecord w) s =
            .next ((State.modCtx { s with nextUid := s.nextUid + 1 } x.ctx fun k => { k with state := 2 }).modLanding l fun y => { y with pending := y.pending ++ [x] })))) ∧
    ((s.landing l).hold = true → exec (.teamPlacement l) s = .next s) ∧
    ((s.landing l).hold = false →
      (∀ p, (s.landing l).pending.find? (fun p => !p.started && p.watch.isNone && p.token.isNone) = some p →
        exec (.teamPlacement l) s = .next (s.watchStart l p)) ∧
      ((∀ p ∈ (s.landing l).pending, p.started = true ∨ p.watch.isSome = true ∨ p.token.isSome = true) →
        (∀ p a n, (s.landing l).pending.find? (fun p => p.tag.isSome) = some p → p.token = none → s.anchorFor p = some (a, n) →
          exec (.teamPlacement l) s = .next (s.placeTeam l p a n)) ∧
        ((∀ p ∈ (s.landing l).pending, p.tag = none) → ∀ p, (s.landing l).pending.find? (fun p => p.started && p.token.isNone) = some p →
          exec (.teamPlacement l) s = .next (s.tagLaunch l p)))) ∧
    (∀ id tag x, s.launches.find? (fun x => x.ctx == id && x.tag == some tag) = some x → s.launchEnds x = true →
      (x.rejected = true ∨ x.doneCtr = 0 → exec (.launchCompletion id tag) s = .next { s with launches := s.launches.filter fun y => y.uid != x.uid }) ∧
      ∀ loc t u, x.rejected = false → x.doneCtr ≠ 0 → x.doneCtr.toNat % 8 = 0 → s.translate x.l x.ctx x.doneCtr.toNat accDone = .ok (loc, t) →
        u = ((t.beatTwice [loc] 8).combineAt (t.mem.backing loc false) (s.ctx x.ctx).pl 0 8 1 false).2.2.2 →
        exec (.launchCompletion id tag) s = .next { u with launches := u.launches.filter fun y => y.uid != x.uid }) ∧
    (∀ w, CtlOk w = true →
      exec (.registerWrite w) s = .next (if 1 ≤ w.pl then s.ctlWrite w.pa w.pl (toBytes w.n w.value) else s) ∧
      (0x30000 ≤ w.pa % 0x40000000 → w.pa % 0x40000000 < 0x32000 →
        exec (.queueRegisterWrite w) s = .next (if 1 ≤ w.pl then s.ctlWrite w.pa w.pl (toBytes w.n w.value) else s))) ∧
    (s.hostUp = true → s.cxlMemUp = true →
      (∀ r, hdmOk r.hdm r.n = true →
        (s.hdmAbsent r.hdm = true → exec (.hostCxlMemRead r) s = .next (s.countHerr.answer (.data (List.replicate r.n 0) true))) ∧
        (s.hdmAbsent r.hdm = false → s.windowAt (hdmAddr r.hdm) = none → exec (.hostCxlMemRead r) s =
          .next ((s.touch (hdmAddr r.hdm) r.n).answer (.data (s.mem.bytes (hdmAddr r.hdm) r.n) (s.mem.unreadable (hdmAddr r.hdm) r.n))))) ∧
      ∀ w, hdmOk w.hdm w.bytes.length = true →
        (s.hdmAbsent w.hdm = true → exec (.hostCxlMemWrite w) s = .next (s.countHerr.answer .complete)) ∧
        (s.hdmAbsent w.hdm = false → s.windowAt (hdmAddr w.hdm) = none → s.mem.wf = true → ∃ t, exec (.hostCxlMemWrite w) s = .next t ∧
          t.links.hostReply = .complete ∧ ∀ b, t.mem.byte b = if hdmAddr w.hdm ≤ b ∧ b < hdmAddr w.hdm + w.bytes.length then
            w.bytes.getD (b - hdmAddr w.hdm) 0 else s.mem.byte b) ∧
        ∀ q, s.hdmAbsent w.hdm = false → s.windowAt (hdmAddr w.hdm) = some q → exec (.append w) s =
          .next ((s.hostAppend (hdmAddr w.hdm) q w.bytes w.poison).answer .complete)) ∧
    (s.hostUp = true → s.boot.phase ≠ 6 → ∀ x, 1 ≤ x.n → x.off % 64 + x.n ≤ 64 → x.off < 0x1000000000 →
      (x.value = none → exec (.cxlIoAccess x) s = .next (s.answer (.data (toBytes x.n (s.ctlRead (0x0C0000000000 + x.off) x.n)) false))) ∧
      ∀ v, x.value = some v → exec (.cxlIoAccess x) s = .next ((s.ctlWrite (0x0C0000000000 + x.off) 1 (toBytes x.n v)).answer .complete)) ∧
    (∀ x p, p = s.inPair x.peer x.src x.dst → x.peer < 1024 → x.src < 64 → x.dst < 64 → (∀ y ∈ p.early, y.seq ≠ x.seq) →
      (x.seq = p.expect → x.seq < 2 ^ 32 → exec (.linkItemArrival x) s =
        .next (((s.setIn { p with expect := (p.expect + 1) % 2 ^ 32 }).applyLink x).applyEarly x.peer x.src x.dst p.early.length)) ∧
      (1 ≤ (x.seq + 2 ^ 32 - p.expect) % 2 ^ 32 → (x.seq + 2 ^ 32 - p.expect) % 2 ^ 32 < 2 ^ 31 →
        exec (.linkItemArrival x) s = .next (s.setIn { p with early := p.early ++ [x] })) ∧
      (2 ^ 31 ≤ (x.seq + 2 ^ 32 - p.expect) % 2 ^ 32 → exec (.linkItemArrival x) s = .next s)) ∧
    (∀ up, exec (.routeChange up) s = .next { s with links := { s.links with portUp := up } }) ∧
    ∀ width rate, width ∈ [0, 1, 2, 4, 8, 16] → rate ≤ 7 → exec (.hostPortTraining width rate) s =
      .next { s with links := { s.links with width := width, rate := rate, ide := s.links.ide && rate != 0 } }

/-- 06 R159; 21 R405 to R412; 24 R432, R436, R437, R439: a failing transfer of a landing that is READY loses the words of its parity
groups; a third attributed failure swaps its
connection onto a spare, or exhausts its group; INIT retires buses and sets the capacity, and when it completes every byte of the
landing reads zero; bus tests and logs; module reset, which keeps the repair maps,
the watchdog and recovery; the SPDM exchange, each request answered
from what the requests before it reached; an encoding that is no instruction traps. -/
def Obligations.RasAndBoot : Prop :=
  ∀ (s : State) (l bus : Nat) (b : Bus) (r : Ras) (kept : List Landing), r = (s.landing l).ras → b = r.buses.getD bus Bus.reset →
    kept = State.reset.landings.mapIdx (fun l (x : Landing) => { x with ras := { x.ras with buses := (s.landing l).ras.buses.map Bus.kept } }) →
    (∀ x ws ls, x.l = l → ws = failedWords l x.block x.groups → ls = failedWords l x.block (groupsOut x) →
      ∃ t, exec (.parityFailure x) s = .next t ∧ (x.array ≤ 2 → t.mem.cells = s.mem.cells) ∧
        (x.array = 5 → t.mem = s.mem ∧ t.groups = s.groups) ∧
        (x.array = 1 → t = { s with mem := { s.mem with weak := ws.foldl natInsert s.mem.weak } }) ∧
        (x.array = 2 → t = { s with mem := { s.mem with bad := ws.foldl natInsert s.mem.bad } }) ∧
        (x.array = 0 → parityReal x = false ∨ r.ready = false ∨ busBytes * r.capU < 128 * x.block + 128 → t = s) ∧
        (x.array = 0 → parityReal x = true → r.ready = true → 128 * x.block + 128 ≤ busBytes * r.capU →
          t.landings = (s.modLanding l fun y => { y with ras := { y.ras with armed := y.ras.armed ++ [x] } }).landings ∧
          (x.fails ≤ 3 → t.mem = s.mem) ∧
          (x.fails = 4 → x.write = false → t.mem = { s.mem with failR := ls.foldl natInsert s.mem.failR }) ∧
          (x.fails = 4 → x.write = true → t.mem = { s.mem with failW := ls.foldl natInsert s.mem.failW }))) ∧
    (∀ g y, y = b.groups.getD g RepairGroup.reset → bus < r.buses.length → l < s.landings.length → ∃ t, exec (.repairSwap l bus g) s = .next t ∧
      let b' := (t.landing l).ras.buses.getD bus Bus.reset
      (y.trk.cnt ≠ 3 → b' = b) ∧
      (y.trk.cnt = 3 → y.f0 = 0x7F → b' = { b with groups := b.groups.set g { y with f0 := y.trk.phys, trk := { y.trk with phys := 0x7F, cnt := 0 } } }) ∧
      (y.trk.cnt = 3 → y.f0 ≠ 0x7F → y.f1 = 0x7F →
        b' = { b with groups := b.groups.set g { y with f1 := y.trk.phys, trk := { y.trk with phys := 0x7F, cnt := 0 } } }) ∧
      (y.trk.cnt = 3 → y.f0 ≠ 0x7F → y.f1 ≠ 0x7F → b' = { b with
        state := if b.state = 0 then 1 else b.state, groups := b.groups.set g { y with exh := true, trk := { y.trk with phys := 0x7F, cnt := 0 } } })) ∧
    (l < s.landings.length →
      (∃ t, exec (.init l) s = .next t ∧
        (r.ready = true ∨ r.busy = true → (t.landing l).ras = r) ∧
        (r.ready = false → r.busy = false → (t.landing l).ras.busy = true ∧ (t.landing l).ras.capU = (t.landing l).ras.act.length ∧
          ∀ k, k ∈ (t.landing l).ras.act ↔ k < 16 ∧ (r.buses.getD k Bus.reset).retire = false ∧ ∀ y ∈ (r.buses.getD k Bus.reset).groups, y.exh = false)) ∧
      ∃ t, exec (.initComplete l) s = .next t ∧ (r.busy = false → t = s) ∧
        (r.busy = true → (t.landing l).ras.busy = false ∧ (t.landing l).ras.ready = true ∧ ∀ pa, pa / 0x1000000000 = l → t.mem.byte pa = 0)) ∧
    (bus < r.buses.length → l < s.landings.length →
      (∃ t, exec (.testMode l bus) s = .next t ∧ (t.landing l).ras.buses.getD bus Bus.reset = if r.ready then b else { b with state := 3 }) ∧
      (∀ phys, ∃ t, exec (.go l bus phys) s = .next t ∧ (t.landing l).ras.buses.getD bus Bus.reset =
        if 1088 ≤ phys then b else if b.state = 3 ∧ b.busy = false then { b with phys := phys, busy := true, driven := phys }
          else { b with phys := phys }) ∧
      ∀ ones zero others, zero = decide (b.driven ∉ ones ∨ 1088 + b.driven ∉ ones) → others = (ones.map (· % 1088)).filter (· != b.driven) →
        ∃ t, exec (.testComplete l bus ones) s = .next t ∧ (t.landing l).ras.buses.getD bus Bus.reset =
          if b.busy then { b with busy := false, pass := !zero && others.isEmpty
                                  failk := if zero then b.driven else if others = [] then 0 else others.foldl min 2047 }
          else b) ∧
    (∀ link, exec (.logclr l link) s = .next (s.modLanding l fun x => { x with
      ras := if link then { x.ras with linkLog := RasLog.empty } else { x.ras with arrayLog := RasLog.empty } })) ∧
    (∃ t, exec .moduleReset s = .next t ∧ (s.boot.attempts = 3 → t = { State.reset with
      event := none, inputs := s.inputs, steps := s.steps, landings := kept, boot := { Boot.reset with attempts := 3, lastCause := s.boot.lastCause, phase := 6 } })) ∧
    (∃ t, exec .watchdog s = .next t ∧ (s.boot.starting = false → t = s) ∧ (s.boot.starting = true → s.boot.attempts = 3 → t = { State.reset with
      event := none, inputs := s.inputs, steps := s.steps, landings := kept, boot := { Boot.reset with attempts := 3, lastCause := 11, phase := 6 } })) ∧
    (∀ n, ∃ t, exec (.recovery n) s = .next t ∧ (s.boot.phase ≠ 6 → t = s) ∧
      (s.boot.phase = 6 → 1 ≤ n → n ≤ 2 ^ 25 → bootFault s.steps ≠ none → t = { s with boot := { s.boot with recLen := n, cause := 12, lastCause := 12 } }) ∧
      (s.boot.phase = 6 → 1 ≤ n → n ≤ 2 ^ 25 → bootFault s.steps = none → firmwareFault s.steps = none → Config.bootCheck s.steps 11 = true →
        t.boot.phase = 5 ∧ t.boot.attempts = 0 ∧ t.boot.locked = true)) ∧
    (∀ q : SpdmRequest,
      let asks (i : Instr) (k : Nat) (ok : Bool) (y : Spdm) (ans : Nat) : Prop := ∃ t, exec i s = .next t ∧
        (s.boot.spdmUp = false → t = s) ∧ (s.boot.spdmUp = true → t.boot.spdm = if ok then { y with response := [k, ans] } else { s.boot.spdm with response := [0x7F, k] })
      let z := s.boot.spdm
      let free (k : Nat) : Nat := Config.spdm s.steps (16 * q.arg + k)
      asks (.getVersion q) 1 true ⟨true, false, false, false, false, []⟩ (free 1) ∧
      asks (.getCapabilities q) 2 z.version { z with caps := true } (free 2) ∧
      asks (.negotiateAlgorithms q) 3 (z.caps && q.arg == 1) { z with algs := true } (free 3) ∧
      asks (.getDigests q) 4 z.algs z (free 4) ∧ asks (.getCertificate q) 5 z.algs z (free 5) ∧ asks (.challenge q) 6 z.algs z (free 6) ∧
      asks (.getMeasurements q) 7 (z.algs && decide (1 ≤ q.arg) && decide (q.arg ≤ 5)) z (s.measurement q.arg) ∧
      asks (.keyExchange q) 8 z.algs { z with session := true, keyed := false } (free 8) ∧
      asks (.finish q) 9 z.session { z with keyed := true } (free 9)) ∧
    ∀ x g, s.curGroup = some g → exec (.illegalInstruction x) s = .next (s.takeTrap g (mkTrap 0 (x.sub + 256 * x.maj + 65536 * x.len)))

/-- 06 R145, R148, R160 (Tables 6-1 to 6-4): every well-formed instruction is read back from the bytes that encode it, whatever
follows them, with every operand at every value its format admits. -/
def Obligations.DecodeEncode : Prop :=
  ∀ (i : Instr) (rest : List Byte), WellFormed i → i.fmt ≠ .event → decodeBytes (encodeBytes i ++ rest) = some (.ok i, rest)

/-- 06 R145, R148, R159, R160: what the decoder reads is a well-formed instruction, and the bytes it read are that instruction's
encoding: no bit of a word is dropped, and no two words decode to one instruction. -/
def Obligations.DecodingLosesNothing : Prop :=
  ∀ (bs rest : List Byte) (i : Instr), decodeBytes bs = some (.ok i, rest) →
    WellFormed i ∧ i.fmt ≠ .event ∧ bs = encodeBytes i ++ rest

/-- 06 R145, R148, R169, R223; Tables 6-8, 7-7, 8-12, 11-8, 13-1, 14-2, 15-2, 16-2, 18-1, 22-2: words written out from the encoding tables decode to the instructions
they stand for. -/
def Obligations.DecodeWords : Prop :=
  decodeTableWord 16 0x8102 = some (.c16Add ⟨1, 0, 8⟩) ∧
  decodeTableWord 16 0x0532 = some (.c16Movi ⟨0, 1, 9⟩) ∧
  decodeTableWord 32 0x00308381 = some (.add ⟨0, 0, 6, 4, 7⟩) ∧
  decodeTableWord 32 0x04288321 = some (.xlaneFlip ⟨0, 2, 5, 4, 6⟩) ∧
  decodeTableWord 32 0x200001C9 = some (.bra ⟨2, 3⟩) ∧
  decodeTableWord 32 0x0F04F62D = some (.andi ⟨0, 0x1E0, 39, 44⟩) ∧
  decodeTableWord 32 0x2714200D = some (.sel ⟨2, 3, 34, 33, 0⟩) ∧
  decodeTableWord 32 0x24DB2715 = some (.fmul ⟨2, 2, 27, 25, 14⟩) ∧
  decodeTableWord 32 0x0E02A11D = some (.vtop ⟨0, 7, 0, 21, 2⟩) ∧
  decodeTableWord 64 0x000000100000021F = some (.enter ⟨0x10, 0, 0, 0, 2⟩) ∧
  decodeTableWord 64 0x0010010008008823 = some (.ld ⟨1, 0, 0, 1, 0, 0, 0, 2, 0, 2, 8⟩) ∧
  decodeTableWord 64 0x0000400008400227 = some (.stP ⟨0, 0, 1, 0, 0, 0, 0, 2, 4, 0, 2⟩) ∧
  decodeTableWord 64 0x0000000080000033 = some (.fence ⟨0, 0, 0, 0, 0, 0, 2, 0, 0, 0, 0⟩) ∧
  decodeTableWord 64 0x0001000000019C33 = some (.barSync ⟨0, 0, 4, 0, 0, 0, 0, 0, 0, 6, 28⟩) ∧
  decodeTableWord 64 0x000040000183D00B = some (.divz ⟨0, 1, 0, 0, 0, 0, 24, 15, 16⟩) ∧
  decodeTableWord 64 0x1400C0000030890F = some (.cvtNarrow ⟨0x140, 3, 0, 0, 0, 0, 3, 2, 9⟩) ∧
  decodeTableWord 64 0x4040404028000C17 = some (.movi32 ⟨0x40404040, 0, 10, 0, 0, 12⟩) ∧
  decodeTableWord 64 0x0000C0000C210A3F = some (.tld ⟨0, 3, 0, 0, 0, 3, 2, 4, 10⟩) ∧
  decodeTableWord 64 0x0000400241430043 = some (.mgpush ⟨0, 1, 0, 0, 2, 16, 20, 12, 0⟩) ∧
  decodeTableWord 64 0x0501400000A20147 = some (.mma ⟨0x050, 5, 0, 0, 0, 0, 10, 8, 1⟩) ∧
  decodeTableWord 64 0x0010C0000004154B = some (.rdprevP ⟨1, 3, 0, 0, 0, 0, 0, 16, 21⟩) ∧
  decodeTableWord 16 0x0000 = none

/-- 06 R145, R146, R160; 01 R16: the instruction whose halfwords the current group fetches at its pc and decodes is executed, and then
the step ends; so does an event whose turn it is. An encoding that is no instruction traps, and a fetch that faults has its
outcome. What ends every step serves what the step has left to be done, which is nothing while no peer's request, image for a pool or
failed transfer stands; then it leaves memory, contexts, teams and units as they are, gives each group at most a satisfied wait and
a turn, and lets FT go on by at most one. -/
def Obligations.StepRunsDecoded : Prop :=
  ∀ s : State,
    (∀ e, s.event = some e → step s = andThen (e.run { s with event := none }) finish) ∧
    (∀ i, (Event.outside i).run s = exec i s) ∧
    (∀ (g : Group) (h x n : Nat) (s1 s2 : State), s.event = none → s.curGroup = some g → s.canIssue g = true → g.block = .none → g.pend = none →
      s.fetch g 1 g.pc.toNat = .ok (h, s1) → n = lengthOf (BitVec.ofNat 16 h) →
      s1.fetch g (n / 2 - 1) ((g.pc.toNat + 2) % 2 ^ 64) = .ok (x, s2) →
      (∀ i rest, decodeBytes (toBytes n (h + 65536 * x)) = some (.ok i, rest) → (i.major < 56 ∨ n ≠ 8 ∨ i.major ∈ s.boot.mapped) →
        step s = andThen (exec i s2) finish) ∧
      (∀ i rest, decodeBytes (toBytes n (h + 65536 * x)) = some (.ok i, rest) → ¬(i.major < 56 ∨ n ≠ 8 ∨ i.major ∈ s.boot.mapped) →
        step s = andThen (execIllegalInstruction ⟨5, i.major, 3⟩ s2) finish) ∧
      ∀ b rest, decodeBytes (toBytes n (h + 65536 * x)) = some (.error b, rest) →
        step s = andThen (execIllegalInstruction (g.enterFirst n (h + 65536 * x) b) s2) finish) ∧
    (∀ (g : Group) va e, s.event = none → s.curGroup = some g → s.canIssue g = true → g.block = .none → g.pend = none →
      s.fetch g 1 g.pc.toNat = .error (va, e) → step s = .next (finish (s.fetchFault g va e))) ∧
    (Quiet s → s.windUp = { s with steps := s.steps + 1 }) ∧
    ∀ t u, t = finish s → u = s.windUp → t.mem = u.mem ∧ t.ctxs = u.ctxs ∧ t.teams = u.teams ∧ t.units = u.units ∧ t.boot = u.boot ∧ t.pairs = u.pairs ∧
      t.steps = u.steps ∧ u.ft ≤ t.ft ∧ t.ft ≤ u.ft + 1 ∧
      t.groups.map (fun g => (g.uid, g.frame, g.pc, g.gstatus, g.wait)) = u.groups.map fun g => (g.uid, g.frame, g.pc, g.gstatus, g.wait)

/-- 03 R50; 06 R151, R157, R160; 02 R37; 17 R350: the checks before an instruction's own effect, in their order: a privileged use at PL0
traps, a register at or above F traps, the manifest entry it names is read, an instruction that no lane takes only moves the pc,
and a read of an absent register traps where DEADTRAP asks. -/
def Obligations.IssueChecks : Prop :=
  ∀ (i : Instr) (s : State) (g : Group), i.fmt ≠ .event → s.curGroup = some g →
    (∀ t, i.privTrap (s.ctx g.ctx).pl = some t → exec i s = .next (s.takeTrap g t)) ∧
    (i.privTrap (s.ctx g.ctx).pl = none →
      (∀ r, (∀ k < r, g.frame.fsz ≤ k → k ∉ i.shape.named) → r < 72 → g.frame.fsz ≤ r → r ∈ i.shape.named →
        exec i s = .next (s.takeTrap g (mkTrap 3 r))) ∧
      ((∀ r < 72, g.frame.fsz ≤ r → r ∉ i.shape.named) →
        (∀ t, s.manifest g i.ls = .trap t → exec i s = .next (s.takeTrap g t)) ∧
        (∀ va e, s.manifest g i.ls = .fault va e → exec i s = .next (s.fetchFault g va e)) ∧
        ∀ m s1, s.manifest g i.ls = .ok m s1 →
          (g.guard i.g4 = 0 → exec i s = .next (s1.setGroup ((g.laStep i false).advance i))) ∧
          (g.guard i.g4 ≠ 0 → ∀ t, s1.deadRead g (g.absentReads i) = .error t → exec i s = .next (s.takeTrap g t))))

/-- 01 R16; 05 R128, R133: every step leaves the FTs of any two landings within two ticks of each other, and gives the next turn to an
event that can happen or that comes from outside; and what ends a step takes no landing's FT back, and moves it by at most one
tick. -/
def Obligations.StepsKeepTime : Prop :=
  ∀ s : State, Inv s → (∀ t, step s = .next t → Inv t ∧ ∀ l k, l < t.landings.length → k < t.landings.length → t.ftAt l ≤ t.ftAt k + 2) ∧
    (Quiet s → ∀ l < s.landings.length, s.ftAt l ≤ (finish s).ftAt l ∧ (finish s).ftAt l ≤ s.ftAt l + 1) ∧
    ∀ u, u = s.windUp → (∀ x ∈ u.landings, x.skew ≤ 2) → ∀ l < u.landings.length, u.ftAt l ≤ (finish s).ftAt l ∧ (finish s).ftAt l ≤ u.ftAt l + 1

/-- 01 R16, R17; 17 R344; 24 R432: the machine after reset: the invariant holds, memory is in its canonical form and reads zero, every
landing is there, no group is in a berth, and no context is in use. -/
def Obligations.ResetState : Prop :=
  Inv State.reset ∧ State.reset.mem.wf = true ∧ (∀ a, State.reset.mem.byte a = 0) ∧ State.reset.landings.length = 64 ∧
    State.reset.groups = [] ∧ State.reset.ctxs = [] ∧ State.reset.ft = 0 ∧ ∀ l < 64, State.reset.ftAt l = 0

/-- 06 R160; 09 R234, R235, R251 to R255; 10 R265; 11 R279 to R292; 17 R363 to R368; 19 R385, R386; 00 R9: no form ends a run: executed
for a group on turn, or as an event, every instruction answers a next state. And each form named here completes, under conditions on
the state and its operands alone. Of the group's instructions, the group stands past ATOM, ATOM.CAS, COPY, COPY.S, TWAIT, TPOLL, CFILL,
PUBLISH, MRELEASE, MZERO, MREAD, MSTAT, MWAIT, MPROG, MMA, MSPARSE, MLOADB, MLOADS, MSTORE, MLOOP, MBATCH, REPLAY, REPLAY.PAGE, the three
TLBINV, PARKCTX, WAKECTX and WAKECTX.GRP; IDLE waits, and its completion event takes the group past it. Of the events, each of the 63
has the effect its clause says. -/
def Obligations.FormsComplete : Prop :=
  (∀ (i : Instr) (s : State), i.fmt = .event ∨ s.curGroup.isSome = true → ∃ t, exec i s = .next t) ∧
  (∀ (i : Instr) (s s1 : State) (g : Group) (e : Env), Issues i s s1 g e →
    (∀ (o : M64) xs (t : State), i = .atom o ∨ i = .atomCas o → o.d.toNat + sizeRegs o.size ≤ 64 → RoomFor e.g (loadRegs o.size o.d.toNat) [] [] →
      Here (accAtom.wide (sizeBytes o.size)) (sizeBytes o.size) (addrRegs (o.af == 1) o.a.toNat) (memAddr (s1.ctx e.g.ctx) e.g o) s1 e xs t →
      Completes i s g) ∧
    (∀ (o : T64) (da sa : AddrOp) rs (w : Access), i = .copy o ∧ w = accCopyDst ∨ i = .copyS o ∧ w = accCopyS → Room e.g → (s1.setGroup e.g).sideBusy e.g.uid = false →
      da = kOp (s1.ctx e.g.ctx) e.g (o.ctl.getLsbD 0) o.a.toNat → sa = kOp (s1.ctx e.g.ctx) e.g (o.ctl.getLsbD 1) o.b.toNat →
      rs = ((lanesOf e.act).filter fun l => e.g.frame.lane o.c.toNat l != 0).map (fun l =>
        (l, sa.va l, da.va l, (e.g.frame.lane o.c.toNat l).toNat)) →
      (∀ r ∈ da.regs ++ sa.regs ++ [o.c.toNat], ∀ l, e.act.getLsbD l = true → e.g.frame.bad r l = false) →
      (∀ r ∈ rs, r.2.1 + r.2.2.2 ≤ 2 ^ 56 ∧ r.2.2.1 + r.2.2.2 ≤ 2 ^ 56 ∧ (r.2.2.1 + r.2.2.2 ≤ r.2.1 ∨ r.2.1 + r.2.2.2 ≤ r.2.2.1)) →
      (rs = [] ∨ ∃ xs t, (s1.setGroup e.g).copyPages e w rs = (xs, [], t) ∧
        copyPieces s1.steps rs xs ≠ [] ∧ ∀ k ∈ fillRanges (copyPieces s1.steps rs xs), (s1.landing k.1).fills.length < 256) →
      Completes i s g) ∧
    (∀ (o : T64), i = .twait o → Room e.g → (∀ c ∈ (e.g.frame.k.getD (o.d.toNat % 8) Token.complete).copies, c ∉ s1.copies.map Copy.id) →
      Completes i s g) ∧
    (∀ (o : T64), i = .tpoll o → RoomFor e.g [o.c.toNat] [] [] → Completes i s g) ∧
    (∀ (o : T64) (op : AddrOp) xs (t : State), i = .cfill o → op = kOp (s1.ctx e.g.ctx) e.g (o.ctl.getLsbD 0) o.a.toNat →
      o.c.toNat + 2 ≤ 64 → RoomFor e.g [o.c.toNat, o.c.toNat + 1] [] [] → Checked accCfill 1 op.regs op.va s1 e xs t → Completes i s g) ∧
    (∀ (o : T64) (op : AddrOp) (x : Loc) (t : State), i = .publish o → op = kOp (s1.ctx e.g.ctx) e.g (o.ctl.getLsbD 0) o.a.toNat → Room e.g →
      (s1.setGroup e.g).sideBusy e.g.uid = false → (∀ r ∈ op.regs, e.g.frame.bad r (lowLane e.act) = false) → op.va (lowLane e.act) < 2 ^ 56 →
      (s1.setGroup e.g).translate e.g.l e.g.ctx (op.va (lowLane e.act)) accPublish = .ok (x, t) → x.peer = none → Completes i s g) ∧
    (∀ (o : T64), let free (t : State) : Prop := (t.unit e.g.l e.g.core).queue.length < 16
      let base := (e.g.frame.pair o.a.toNat (lowLane e.act)).toNat
      let word (r : Nat) : Nat := (e.g.frame.lane r (lowLane e.act)).toNat
      let fmt := (o.ctl.extractLsb' 4 4).toNat
      (i = .mzero o ∨ i = .mrelease o → Room e.g → MatrixReady s1 e [] → free s1 → Completes i s g) ∧
      (∀ n, i = .mread o ∧ n = 8 ∨ i = .mstat o ∧ n = 2 → RoomFor e.g ((List.range n).map (o.d.toNat + ·)) [] [] → o.d.toNat + n ≤ 64 →
        MatrixReady s1 e [] → free s1 → Completes i s g) ∧
      (i = .mwait o → Room e.g → e.g.mark = none → MatrixReady s1 e [] → (s1.unit e.g.l e.g.core).accepted ≤ (s1.unit e.g.l e.g.core).done → Completes i s g) ∧
      (i = .mprog o → RoomFor e.g [o.d.toNat] [] [] → MatrixReady s1 e [] → Completes i s g) ∧
      (∀ sp, i = .mma o ∧ sp = false ∨ i = .msparse o ∧ sp = true → Room e.g → MatrixReady s1 e [] →
        (e.g.deadTrap = false ∨ ∀ n < (if sp = false ∧ fmtClass fmt = 2 then 6 else 8), (e.g.frame.reg? (o.a.toNat + n)).isSome = true) → o.b.toNat + (regRows e.g.frame o.a.toNat fmt sp).length ≤ 64 →
        formatReason fmt (o.ctl.getLsbD 8) sp false sp (s1.unit e.g.l e.g.core).recordAfter none = none → free s1 → Completes i s g) ∧
      (∀ sp mbase rows pages ms t, i = .mloadb o → sp = o.ctl.getLsbD 8 → Room e.g →
        MatrixReady s1 e ([o.a.toNat, o.a.toNat + 1, o.b.toNat] ++ if sp then [o.c.toNat, o.c.toNat + 1] else []) →
        mbase = (e.g.frame.pair o.c.toNat (lowLane e.act)).toNat → 3 ≤ fmt → fmt ≤ 8 → (sp = true → fmt = 4 ∨ fmt = 5) →
        rowBytes fmt ≤ word o.b.toNat → base < 2 ^ 56 → (sp = true → mbase < 2 ^ 56) →
        rows = (List.range 256).map (fun k => (base + k * word o.b.toNat) % 2 ^ 64) → (∀ r ∈ rows, r < 2 ^ 56) →
        MatrixReach (s1.setGroup e.g) e accEngR (rows.map fun r => (r, rowBytes fmt)) (if sp then [mbase] else []) pages ms t → free t →
        Completes i s g) ∧
      (∀ pages ms t, i = .mloads o → Room e.g → MatrixReady s1 e [o.a.toNat, o.a.toNat + 1] → base < 2 ^ 56 →
        MatrixReach (s1.setGroup e.g) e accEngR [(base, 4096)] [] pages ms t → free t → Completes i s g) ∧
      (∀ rows pages ms t, i = .mstore o → Room e.g → MatrixReady s1 e [o.a.toNat, o.a.toNat + 1, o.b.toNat, o.b.toNat + 1] → base < 2 ^ 56 →
        1 ≤ fmt → fmt ≤ 5 → 1 ≤ word (o.b.toNat + 1) → word (o.b.toNat + 1) ≤ 64 → o.d.toNat + word (o.b.toNat + 1) ≤ 64 →
        256 * storeBytes fmt ≤ word o.b.toNat → rows = (List.range (word (o.b.toNat + 1))).map (fun k => (base + k * word o.b.toNat) % 2 ^ 64) →
        (∀ r ∈ rows, r < 2 ^ 56) → MatrixReach (s1.setGroup e.g) e accEngW (rows.map fun r => (r, 256 * storeBytes fmt)) [] pages ms t → free t →
        Completes i s g) ∧
      ∀ batch desc x t0 runs metas pages ms t, i = .mloop o ∧ batch = false ∨ i = .mbatch o ∧ batch = true → Room e.g →
        MatrixReady s1 e [o.a.toNat, o.a.toNat + 1] → LoopRead s1 e base desc x t0 →
        formatReason desc.aFmt desc.amx desc.sparse batch false (s1.unit e.g.l e.g.core).recordAfter (if desc.reload then some desc.bFmt else none) = none →
        desc.rangeReason batch = none → metas = (List.range desc.steps).flatMap desc.metaRows →
        runs = (List.range desc.steps).flatMap (fun k => (desc.aRows k).map (fun r => (r, desc.aRowBytes batch)) ++
          (desc.xaRows k).map (fun r => (r, desc.blocks batch)) ++ (desc.bRows k).map (fun r => (r, rowBytes desc.bFmt)) ++ (desc.xbRows k).map fun r => (r, 4096)) →
        (∀ r ∈ runs, r.1 < 2 ^ 56) → (∀ m ∈ metas, m < 2 ^ 56) → MatrixReach t0 e accEngR runs metas pages ms t → free t → Completes i s g) ∧
    (∀ (o : T64) (u : State), (s1.setGroup e.g).plainBusy e.g.uid = false →
      (i = .replay o → RoomFor e.g [o.d.toNat] [] [] → CleanLow e [o.a.toNat] → e.lowWord o.a.toNat < 2 ^ 24 →
        (s1.setGroup e.g).tokenLive (e.lowWord o.a.toNat / 262144) (e.lowWord o.a.toNat) = false ∨
          (s1.setGroup e.g).replayToken (e.lowWord o.a.toNat / 262144) (e.lowWord o.a.toNat) = some u → Completes i s g) ∧
      (i = .replayPage o → RoomFor e.g [o.d.toNat] [] [] → CleanLow e [o.a.toNat, o.a.toNat + 1, o.b.toNat] →
        (s1.setGroup e.g).replayAll ((s1.setGroup e.g).pageTokens (e.lowWord o.b.toNat) (e.lowPair o.a.toNat)) = some u → Completes i s g) ∧
      (∀ who q, Room e.g → e.g.flush = some q → (s1.setGroup e.g).flushing e.g.uid who q = false →
        (i = .tlbinvPage o ∧ CleanLow e [o.a.toNat, o.a.toNat + 1, o.b.toNat] ∧ who = some (e.lowWord o.b.toNat)) ∨
          (i = .tlbinvCtx o ∧ CleanLow e [o.b.toNat] ∧ who = some (e.lowWord o.b.toNat)) ∨ (i = .tlbinvAll o ∧ who = none) → Completes i s g)) ∧
    (∀ (o : T64), (e.g.mark = none → RoomFor e.g [o.d.toNat] [] [] → CleanLow e [o.a.toNat] → i = .parkctx o → s1.liveCtx (e.lowWord o.a.toNat) = true →
        e.lowWord o.a.toNat ≠ e.g.ctx → (s1.ctx (e.lowWord o.a.toNat)).state = 2 → (s1.ctx (e.lowWord o.a.toNat)).landMask = 0 → Completes i s g) ∧
      (∀ m, e.g.mark = some m → i = .parkctx o → RoomFor e.g [o.d.toNat] [] [] → (s1.ctx m).parker ≠ some e.g.uid → Completes i s g) ∧
      (i = .wakectx o → RoomFor e.g [o.d.toNat] [] [] → CleanLow e [o.a.toNat] → Completes i s g) ∧
      (i = .wakectxGrp o → RoomFor e.g [o.d.toNat] [] [] → CleanLow e [o.a.toNat, o.a.toNat + 1] → Completes i s g) ∧
      (i = .idle o → Room e.g → CleanLow e [o.a.toNat, o.a.toNat + 1] → ∃ h, h.pc = g.pc ∧ h.uid = g.uid ∧ exec i s = .next (s1.setGroup h) ∧
        h.wait = .idle (e.lowPair o.a.toNat) (s1.landing e.g.l).fq.posted))) ∧
  (∀ (s t : State) (src dst : Nat) (item : Item) (rest : List Item), s.pair src dst = item :: rest → t = s.setPair src dst rest →
    (∀ g, item = .crossing g → (t.ctx g.ctx).runsAt dst = true → exec (.crossingArrival src dst) s = .next (t.enterWharf dst g .frame)) ∧
    (∀ a, item = .arrival a → (t.ctx a.g.ctx).runsAt dst = true → src < 64 → a.g.lastFT < s.ftAt dst → exec (.arrival src dst) s = .next (t.joinArrives dst a)) ∧
    (∀ c tag team rank m, item = .exit c tag team rank m →
      exec (.exitNotice src dst) s = .next ((t.countExited c tag team rank m).evalJoins dst c tag team rank)) ∧
    (∀ c tag o m, item = .live c tag o m → exec (.liveRankChange src dst) s = .next ((t.setLive o m).evalBar o)) ∧
    (∀ p, item = .post p → p.op = .store → exec (.postedStoreApply src dst) s = .next (t.applyStores p)) ∧
    (∀ p f, item = .post p → p.op = .reduce f → exec (.reductionApply src dst) s = .next (t.applyReduce p f)) ∧
    (∀ p f, item = .post p → p.op = .keyed f → p.token = none → (t.landing dst).mn.keyed.length + p.lanes.length ≤ keyedRoom →
      exec (.keyedBufferEntry src dst) s = .next (t.modMN dst fun (m : MergeNet) => { m with keyed := m.keyed ++ p.lanes.map fun x => x.entry p.ctx f })) ∧
    (∀ p x, item = .post p → p.op = .flip → p.lanes = [x] →
      exec (.flip src dst) s = .next { t with mem := t.mem.setFlip x.loc.pa !(t.mem.flip x.loc.pa) }) ∧
    ∀ id, item = .marker id → exec (.drainMarker src dst) s = .next (t.modCtx id fun (c : Ctx) => { c with markers := c.markers.filter (· != (src, dst)) })) ∧
  (∀ (s : State) (l core : Nat) (u : MUnit) (m : MergeNet), u = s.unit l core → m = (s.landing l).mn →
    (∀ c rest, m.closes = c :: rest → c.token = none → (s.ctx c.ctx).keyedRuns l = [] →
      let inside (k : KeyedEntry) : Bool := c.pages.contains (k.pa / 0x20000 * 0x20000)
      exec (.closeCommand l) s = .next (((s.setRuns c.ctx l []).modMN l fun (m : MergeNet) =>
        { m with keyed := m.keyed.filter fun k => !inside k, closes := rest }).applyKeyed l (s.ctx c.ctx).pl (m.keyed.filter inside))) ∧
    (∀ id k c p, s.copies.find? (fun c => c.id == id) = some c → c.pieces[k]? = some p → s.pieceReady c k = true →
      exec (.copyLine id k) s = .next (s.copyStep c k p)) ∧
    (∀ id, (s.ctx id).state = 3 → (s.ctx id).toCommand.contains l = true → exec (.parkCommand id l) s =
      .next (s.modCtx id fun k => { k with toCommand := k.toCommand.filter (· != l), stopping := k.stopping ++ [l] })) ∧
    (∀ id, s.reportReady (s.ctx id) l = true → (∃ k ∈ (s.ctx id).lands, k ∉ (s.ctx id).reported ∧ k ≠ l) →
      exec (.parkReport id l) s = .next (s.setCtx { s.ctx id with reported := (s.ctx id).reported ++ [l] })) ∧
    (s.narrowable u = true → ∃ t h, u.holder = some h ∧ exec (.claimNarrowing l core) s = .next t ∧
      ∃ q r, ⟨h.1, l, core, u, q, r⟩ ∈ t.saved ∧ (t.unit l core).holder = none) ∧
    (∀ id c k a, s.saved.find? (fun c => c.ctx == id && c.l == l && c.core == core && (s.ctx id).state == 2) = some c → s.restoreCore c = some k →
      a = (s.ctx id).saveArea l core → s.mem.bytes (a + 0x66000) 1024 = c.queueBytes → s.mem.bytes (a + 0x68000) 32768 = c.rowBytes →
      exec (.claimRestore id l core) s = .next
        ((State.setUnit { s with saved := s.saved.filter fun d => !(d.ctx == id && d.l == l && d.core == core) }
          { c.restore s.mem a with l := l, core := k, accepted := (s.unit l k).accepted + c.unit.queue.length, done := (s.unit l k).accepted }).moveAffinity
            (c.unit.holder.getD (id, 0, 0)) l core k)) ∧
    (s.claimEnds u = true → exec (.claimEnd l core) s =
      .next ((s.letGo u.queue).setUnit { MUnit.clear l core with accepted := u.accepted, done := u.accepted })) ∧
    (∀ c rest, u.queue = c :: rest → (∀ k, c.op ≠ .release k) → (∀ b d metas, c.op ≠ .loop b d metas) →
      ∃ t, exec (.matrixCommandExecution l core) s = .next t ∧ (t.unit l core).queue = rest ∧ (t.unit l core).done = u.done + 1) ∧
    (∀ x, m.slots.getD m.fullest none = some x → m.full = true → x.token = none → x.ending = 0 →
      exec (.mergeSpill l) s = .next (s.spillSession l m.fullest x)) ∧
    (∀ slot x, m.slots.getD slot none = some x → x.token = none → x.ending = 0 → x.state = 2 → x.rowDone = false →
      exec (.rowCommit l slot) s = .next (s.mergeRow l slot x)) ∧
    (∀ k, (s.landing l).pm.stat.getLsbD 0 = true → (s.landing l).pm.step = 2 + k → k < (s.landing l).pm.len / 64 →
      (s.target l ((s.landing l).pm.src.toNat + 64 * k)).isMemory = true → (s.target l ((s.landing l).pm.dst.toNat + 64 * k)).isMemory = true →
      exec (.pageMove l) s = .next (s.moveLine l (s.landing l).pm k)) ∧
    (∀ v, (s.landing l).fq.held = [] → exec (.fqheadWrite l v) s = .next (s.modLanding l fun x => { x with fq := { x.fq with head := v } }))) ∧
  (∀ (s : State) (l uid : Nat),
    (∀ core berth, exec (.berthRelease l core berth) s = .next { s with ghosts := s.ghosts.filter fun k => k != (l, core, berth) }) ∧
    (∀ w core b, s.nextAdmitted l = some w → s.berthFor l w.g = some (core, b) → w.readBlock = .none → exec (.admission l) s = .next
      { s.modLanding l (fun x => { x with wharf := x.wharf.filter fun v => v.g.uid != w.g.uid }) with
        groups := s.groups ++ [{ w.g with core := core, berth := b, block := .none }] }) ∧
    (∀ id pa r, s.oldestOverflow l = some (id, pa, r) → (s.landing l).occupied < 0x180000 → exec (.overflowReturn l) s = .next
      (((s.releaseRecords (s.ctx id) l [pa]).resumeRecord l pa r (s.poolImage (pa + 64))).retryPool l none)) ∧
    exec (.wharfPromotion l uid) s = .next (s.modLanding l fun x => { x with
      wharf := x.wharf.map fun (w : Waiting) => if w.g.uid = uid ∧ s.promotable l w then { w with promoted := true } else w }) ∧
    (∀ sc, s.sampleDue sc l = true → sc ≠ .system ∨ l ≠ 0 → exec (.tideSample sc l) s = .next (s.modLanding l fun x => { x with
      samples := ⟨sc, s.ftAt l, s.report sc l (s.ftAt l)⟩ :: x.samples.filter fun y => y.scope != sc || decide (s.ftAt l ≤ y.at_ + s.tideLag sc + 8) })) ∧
    (∀ sc v, s.adoption sc l = some v → exec (.tideAdoption sc l) s = .next (s.modLanding l fun x => match sc with
      | .landing => { x with tideL := v, adL := s.ftAt l + 1 }
      | .module => { x with tideM := v, adM := s.ftAt l + 1 }
      | .system => { x with tideS := v, adS := s.ftAt l + 1 })) ∧
    (∀ g, s.group? uid = some g →
      (g.spills = true → exec (.windowSpill uid) s = .next ((s.spillOldest g).modGroup uid fun h =>
        if h.waitToken.isNone = true ∧ (h.older.isEmpty = true ∨ (h.wse = .spillOne ∧ h.older.length < g.older.length)) then { h with wse := .none } else h)) ∧
      (g.wait = .none → g.wse = .refill → g.older = [] → exec (.refill uid) s = .next (s.refill g)) ∧
      (s.idleOver g = true → exec (.idleCompletion uid) s = .next (s.setGroup { g with wait := .none, pc := g.pc + 8 }))) ∧
    (∀ w, exec (.launchRecord w) s = .next (s.submitLaunch w.l w.bytes)) ∧
    ((s.landing l).hold = false → (∀ p ∈ (s.landing l).pending, p.started = true ∨ p.watch.isSome = true ∨ p.token.isSome = true) →
      ∀ p a n, (s.landing l).pending.find? (fun p => p.tag.isSome) = some p → p.token = none → s.anchorFor p = some (a, n) →
        exec (.teamPlacement l) s = .next (s.placeTeam l p a n)) ∧
    (∀ id tag x, s.launches.find? (fun x => x.ctx == id && x.tag == some tag) = some x → s.launchEnds x = true → x.rejected = true ∨ x.doneCtr = 0 →
      exec (.launchCompletion id tag) s = .next { s with launches := s.launches.filter fun y => y.uid != x.uid }) ∧
    (∀ w, CtlOk w = true → 1 ≤ w.pl → exec (.registerWrite w) s = .next (s.ctlWrite w.pa w.pl (toBytes w.n w.value)) ∧
      (0x30000 ≤ w.pa % 0x40000000 → w.pa % 0x40000000 < 0x32000 →
        exec (.queueRegisterWrite w) s = .next (s.ctlWrite w.pa w.pl (toBytes w.n w.value)))) ∧
    (s.hostUp = true → s.cxlMemUp = true →
      (∀ r, hdmOk r.hdm r.n = true → s.hdmAbsent r.hdm = false → s.windowAt (hdmAddr r.hdm) = none → exec (.hostCxlMemRead r) s =
        .next ((s.touch (hdmAddr r.hdm) r.n).answer (.data (s.mem.bytes (hdmAddr r.hdm) r.n) (s.mem.unreadable (hdmAddr r.hdm) r.n)))) ∧
      ∀ w, hdmOk w.hdm w.bytes.length = true → s.hdmAbsent w.hdm = false →
        exec (.hostCxlMemWrite w) s = .next ((s.hostWrite (hdmAddr w.hdm) w).answer .complete) ∧
        ∀ q, s.windowAt (hdmAddr w.hdm) = some q →
          exec (.append w) s = .next ((s.hostAppend (hdmAddr w.hdm) q w.bytes w.poison).answer .complete)) ∧
    (s.hostUp = true → s.boot.phase ≠ 6 → ∀ x, 1 ≤ x.n → x.off % 64 + x.n ≤ 64 → x.off < 0x1000000000 →
      (x.value = none → exec (.cxlIoAccess x) s = .next (s.answer (.data (toBytes x.n (s.ctlRead (0x0C0000000000 + x.off) x.n)) false))) ∧
      ∀ v, x.value = some v → exec (.cxlIoAccess x) s = .next ((s.ctlWrite (0x0C0000000000 + x.off) 1 (toBytes x.n v)).answer .complete)) ∧
    (∀ x p, p = s.inPair x.peer x.src x.dst → x.peer < 1024 → x.src < 64 → x.dst < 64 → x.seq = p.expect → x.seq < 2 ^ 32 → p.early = [] →
      ∃ t, exec (.linkItemArrival x) s = .next (t.applyEarly x.peer x.src x.dst 0) ∧
        t = (s.setIn { p with expect := (p.expect + 1) % 2 ^ 32 }).applyLink x) ∧
    (∀ up, exec (.routeChange up) s = .next { s with links := { s.links with portUp := up } }) ∧
    ∀ width rate, width ∈ [0, 1, 2, 4, 8, 16] → rate ≤ 7 → exec (.hostPortTraining width rate) s =
      .next { s with links := { s.links with width := width, rate := rate, ide := s.links.ide && rate != 0 } }) ∧
  ∀ (s : State) (l bus : Nat),
    (∀ x, exec (.parityFailure x) s = .next (s.parityFails x)) ∧
    (∀ g, exec (.repairSwap l bus g) s = .next (s.modBus l bus fun b => b.swap g)) ∧
    exec (.init l) s = .next (s.modRas l Ras.init) ∧ exec (.initComplete l) s = .next (s.initDone l) ∧
    exec (.testMode l bus) s = .next (s.modBus l bus fun b => b.test (s.landing l).ras.ready) ∧
    (∀ phys < 1088, exec (.go l bus phys) s = .next (s.modBus l bus fun b => Bus.go { b with phys := phys })) ∧
    (∀ ones, exec (.testComplete l bus ones) s = .next (s.modBus l bus fun b => b.testDone ones)) ∧
    (∀ link, exec (.logclr l link) s = .next (s.modRas l fun r => if link then { r with linkLog := r.linkLog.clear } else { r with arrayLog := r.arrayLog.clear })) ∧
    exec .moduleReset s = .next (s.resetModule s.boot.lastCause) ∧
    (s.boot.starting = true → exec .watchdog s = .next (s.resetModule 11)) ∧
    (∀ n, exec (.recovery n) s = .next (s.recover n)) ∧
    (∀ x g, s.curGroup = some g → exec (.illegalInstruction x) s = .next (s.takeTrap g (mkTrap 0 (x.sub + 256 * x.maj + 65536 * x.len)))) ∧
    ∀ (q : SpdmRequest) (i : Instr) (k : Nat),
      (i, k) ∈ [(.getVersion q, 1), (.getCapabilities q, 2), (.negotiateAlgorithms q, 3), (.getDigests q, 4), (.getCertificate q, 5),
        (.challenge q, 6), (.getMeasurements q, 7), (.keyExchange q, 8), (.finish q, 9)] →
      ∃ t, exec i s = .next t ∧ (s.boot.spdmUp = true → t.boot.spdm.response.head? = some k ∨ t.boot.spdm.response = [0x7F, k])
end

