-- ==== Sys2Proof/Laws/State.lean ====
section
/-! SUPPORT. One lemma for each field of State under each of the plain updates: all hold by rfl. -/

namespace Sys2Proof.Machine

variable (s : State)


/-! setLanding -/

@[simp] theorem State.setLanding_cur (l : Nat) (x : Landing) : (s.setLanding l x).cur = s.cur := rfl
@[simp] theorem State.setLanding_event (l : Nat) (x : Landing) : (s.setLanding l x).event = s.event := rfl
@[simp] theorem State.setLanding_inputs (l : Nat) (x : Landing) : (s.setLanding l x).inputs = s.inputs := rfl
@[simp] theorem State.setLanding_steps (l : Nat) (x : Landing) : (s.setLanding l x).steps = s.steps := rfl
@[simp] theorem State.setLanding_nextUid (l : Nat) (x : Landing) : (s.setLanding l x).nextUid = s.nextUid := rfl
@[simp] theorem State.setLanding_nextCopy (l : Nat) (x : Landing) : (s.setLanding l x).nextCopy = s.nextCopy := rfl
@[simp] theorem State.setLanding_nextReq (l : Nat) (x : Landing) : (s.setLanding l x).nextReq = s.nextReq := rfl
@[simp] theorem State.setLanding_ft (l : Nat) (x : Landing) : (s.setLanding l x).ft = s.ft := rfl
@[simp] theorem State.setLanding_mem (l : Nat) (x : Landing) : (s.setLanding l x).mem = s.mem := rfl
@[simp] theorem State.setLanding_groups (l : Nat) (x : Landing) : (s.setLanding l x).groups = s.groups := rfl
@[simp] theorem State.setLanding_ghosts (l : Nat) (x : Landing) : (s.setLanding l x).ghosts = s.ghosts := rfl
@[simp] theorem State.setLanding_landings (l : Nat) (x : Landing) : (s.setLanding l x).landings = s.landings.set l x := rfl
@[simp] theorem State.setLanding_ctxs (l : Nat) (x : Landing) : (s.setLanding l x).ctxs = s.ctxs := rfl
@[simp] theorem State.setLanding_teams (l : Nat) (x : Landing) : (s.setLanding l x).teams = s.teams := rfl
@[simp] theorem State.setLanding_barLive (l : Nat) (x : Landing) : (s.setLanding l x).barLive = s.barLive := rfl
@[simp] theorem State.setLanding_launches (l : Nat) (x : Landing) : (s.setLanding l x).launches = s.launches := rfl
@[simp] theorem State.setLanding_pairs (l : Nat) (x : Landing) : (s.setLanding l x).pairs = s.pairs := rfl
@[simp] theorem State.setLanding_copies (l : Nat) (x : Landing) : (s.setLanding l x).copies = s.copies := rfl
@[simp] theorem State.setLanding_units (l : Nat) (x : Landing) : (s.setLanding l x).units = s.units := rfl
@[simp] theorem State.setLanding_saved (l : Nat) (x : Landing) : (s.setLanding l x).saved = s.saved := rfl
@[simp] theorem State.setLanding_segs (l : Nat) (x : Landing) : (s.setLanding l x).segs = s.segs := rfl
@[simp] theorem State.setLanding_tokSides (l : Nat) (x : Landing) : (s.setLanding l x).tokSides = s.tokSides := rfl
@[simp] theorem State.setLanding_links (l : Nat) (x : Landing) : (s.setLanding l x).links = s.links := rfl
@[simp] theorem State.setLanding_boot (l : Nat) (x : Landing) : (s.setLanding l x).boot = s.boot := rfl

/-! modLanding -/

@[simp] theorem State.modLanding_cur (l : Nat) (f : Landing → Landing) : (s.modLanding l f).cur = s.cur := rfl
@[simp] theorem State.modLanding_event (l : Nat) (f : Landing → Landing) : (s.modLanding l f).event = s.event := rfl
@[simp] theorem State.modLanding_inputs (l : Nat) (f : Landing → Landing) : (s.modLanding l f).inputs = s.inputs := rfl
@[simp] theorem State.modLanding_steps (l : Nat) (f : Landing → Landing) : (s.modLanding l f).steps = s.steps := rfl
@[simp] theorem State.modLanding_nextUid (l : Nat) (f : Landing → Landing) : (s.modLanding l f).nextUid = s.nextUid := rfl
@[simp] theorem State.modLanding_nextCopy (l : Nat) (f : Landing → Landing) : (s.modLanding l f).nextCopy = s.nextCopy := rfl
@[simp] theorem State.modLanding_nextReq (l : Nat) (f : Landing → Landing) : (s.modLanding l f).nextReq = s.nextReq := rfl
@[simp] theorem State.modLanding_ft (l : Nat) (f : Landing → Landing) : (s.modLanding l f).ft = s.ft := rfl
@[simp] theorem State.modLanding_mem (l : Nat) (f : Landing → Landing) : (s.modLanding l f).mem = s.mem := rfl
@[simp] theorem State.modLanding_groups (l : Nat) (f : Landing → Landing) : (s.modLanding l f).groups = s.groups := rfl
@[simp] theorem State.modLanding_ghosts (l : Nat) (f : Landing → Landing) : (s.modLanding l f).ghosts = s.ghosts := rfl
@[simp] theorem State.modLanding_landings (l : Nat) (f : Landing → Landing) : (s.modLanding l f).landings = s.landings.set l (f (s.landing l)) := rfl
@[simp] theorem State.modLanding_ctxs (l : Nat) (f : Landing → Landing) : (s.modLanding l f).ctxs = s.ctxs := rfl
@[simp] theorem State.modLanding_teams (l : Nat) (f : Landing → Landing) : (s.modLanding l f).teams = s.teams := rfl
@[simp] theorem State.modLanding_barLive (l : Nat) (f : Landing → Landing) : (s.modLanding l f).barLive = s.barLive := rfl
@[simp] theorem State.modLanding_launches (l : Nat) (f : Landing → Landing) : (s.modLanding l f).launches = s.launches := rfl
@[simp] theorem State.modLanding_pairs (l : Nat) (f : Landing → Landing) : (s.modLanding l f).pairs = s.pairs := rfl
@[simp] theorem State.modLanding_copies (l : Nat) (f : Landing → Landing) : (s.modLanding l f).copies = s.copies := rfl
@[simp] theorem State.modLanding_units (l : Nat) (f : Landing → Landing) : (s.modLanding l f).units = s.units := rfl
@[simp] theorem State.modLanding_saved (l : Nat) (f : Landing → Landing) : (s.modLanding l f).saved = s.saved := rfl
@[simp] theorem State.modLanding_segs (l : Nat) (f : Landing → Landing) : (s.modLanding l f).segs = s.segs := rfl
@[simp] theorem State.modLanding_tokSides (l : Nat) (f : Landing → Landing) : (s.modLanding l f).tokSides = s.tokSides := rfl
@[simp] theorem State.modLanding_links (l : Nat) (f : Landing → Landing) : (s.modLanding l f).links = s.links := rfl
@[simp] theorem State.modLanding_boot (l : Nat) (f : Landing → Landing) : (s.modLanding l f).boot = s.boot := rfl

/-! lay -/

@[simp] theorem State.lay_cur (pa : Nat) (bs : List Byte) (dirty : Bool) : (s.lay pa bs dirty).cur = s.cur := rfl
@[simp] theorem State.lay_event (pa : Nat) (bs : List Byte) (dirty : Bool) : (s.lay pa bs dirty).event = s.event := rfl
@[simp] theorem State.lay_inputs (pa : Nat) (bs : List Byte) (dirty : Bool) : (s.lay pa bs dirty).inputs = s.inputs := rfl
@[simp] theorem State.lay_steps (pa : Nat) (bs : List Byte) (dirty : Bool) : (s.lay pa bs dirty).steps = s.steps := rfl
@[simp] theorem State.lay_nextUid (pa : Nat) (bs : List Byte) (dirty : Bool) : (s.lay pa bs dirty).nextUid = s.nextUid := rfl
@[simp] theorem State.lay_nextCopy (pa : Nat) (bs : List Byte) (dirty : Bool) : (s.lay pa bs dirty).nextCopy = s.nextCopy := rfl
@[simp] theorem State.lay_nextReq (pa : Nat) (bs : List Byte) (dirty : Bool) : (s.lay pa bs dirty).nextReq = s.nextReq := rfl
@[simp] theorem State.lay_ft (pa : Nat) (bs : List Byte) (dirty : Bool) : (s.lay pa bs dirty).ft = s.ft := rfl
@[simp] theorem State.lay_mem (pa : Nat) (bs : List Byte) (dirty : Bool) : (s.lay pa bs dirty).mem = s.mem.put pa bs dirty := rfl
@[simp] theorem State.lay_groups (pa : Nat) (bs : List Byte) (dirty : Bool) : (s.lay pa bs dirty).groups = s.groups := rfl
@[simp] theorem State.lay_ghosts (pa : Nat) (bs : List Byte) (dirty : Bool) : (s.lay pa bs dirty).ghosts = s.ghosts := rfl
@[simp] theorem State.lay_landings (pa : Nat) (bs : List Byte) (dirty : Bool) : (s.lay pa bs dirty).landings = s.landings := rfl
@[simp] theorem State.lay_ctxs (pa : Nat) (bs : List Byte) (dirty : Bool) : (s.lay pa bs dirty).ctxs = s.ctxs := rfl
@[simp] theorem State.lay_teams (pa : Nat) (bs : List Byte) (dirty : Bool) : (s.lay pa bs dirty).teams = s.teams := rfl
@[simp] theorem State.lay_barLive (pa : Nat) (bs : List Byte) (dirty : Bool) : (s.lay pa bs dirty).barLive = s.barLive := rfl
@[simp] theorem State.lay_launches (pa : Nat) (bs : List Byte) (dirty : Bool) : (s.lay pa bs dirty).launches = s.launches := rfl
@[simp] theorem State.lay_pairs (pa : Nat) (bs : List Byte) (dirty : Bool) : (s.lay pa bs dirty).pairs = s.pairs := rfl
@[simp] theorem State.lay_copies (pa : Nat) (bs : List Byte) (dirty : Bool) : (s.lay pa bs dirty).copies = s.copies := rfl
@[simp] theorem State.lay_units (pa : Nat) (bs : List Byte) (dirty : Bool) : (s.lay pa bs dirty).units = s.units := rfl
@[simp] theorem State.lay_saved (pa : Nat) (bs : List Byte) (dirty : Bool) : (s.lay pa bs dirty).saved = s.saved := rfl
@[simp] theorem State.lay_segs (pa : Nat) (bs : List Byte) (dirty : Bool) : (s.lay pa bs dirty).segs = s.segs := rfl
@[simp] theorem State.lay_tokSides (pa : Nat) (bs : List Byte) (dirty : Bool) : (s.lay pa bs dirty).tokSides = s.tokSides := rfl
@[simp] theorem State.lay_links (pa : Nat) (bs : List Byte) (dirty : Bool) : (s.lay pa bs dirty).links = s.links := rfl
@[simp] theorem State.lay_boot (pa : Nat) (bs : List Byte) (dirty : Bool) : (s.lay pa bs dirty).boot = s.boot := rfl

/-! setGroup -/

@[simp] theorem State.setGroup_cur (g : Group) : (s.setGroup g).cur = s.cur := rfl
@[simp] theorem State.setGroup_event (g : Group) : (s.setGroup g).event = s.event := rfl
@[simp] theorem State.setGroup_inputs (g : Group) : (s.setGroup g).inputs = s.inputs := rfl
@[simp] theorem State.setGroup_steps (g : Group) : (s.setGroup g).steps = s.steps := rfl
@[simp] theorem State.setGroup_nextUid (g : Group) : (s.setGroup g).nextUid = s.nextUid := rfl
@[simp] theorem State.setGroup_nextCopy (g : Group) : (s.setGroup g).nextCopy = s.nextCopy := rfl
@[simp] theorem State.setGroup_nextReq (g : Group) : (s.setGroup g).nextReq = s.nextReq := rfl
@[simp] theorem State.setGroup_ft (g : Group) : (s.setGroup g).ft = s.ft := rfl
@[simp] theorem State.setGroup_mem (g : Group) : (s.setGroup g).mem = s.mem := rfl
@[simp] theorem State.setGroup_groups (g : Group) : (s.setGroup g).groups = s.groups.map fun x => if x.uid = g.uid then g else x := rfl
@[simp] theorem State.setGroup_ghosts (g : Group) : (s.setGroup g).ghosts = s.ghosts := rfl
@[simp] theorem State.setGroup_landings (g : Group) : (s.setGroup g).landings = s.landings := rfl
@[simp] theorem State.setGroup_ctxs (g : Group) : (s.setGroup g).ctxs = s.ctxs := rfl
@[simp] theorem State.setGroup_teams (g : Group) : (s.setGroup g).teams = s.teams := rfl
@[simp] theorem State.setGroup_barLive (g : Group) : (s.setGroup g).barLive = s.barLive := rfl
@[simp] theorem State.setGroup_launches (g : Group) : (s.setGroup g).launches = s.launches := rfl
@[simp] theorem State.setGroup_pairs (g : Group) : (s.setGroup g).pairs = s.pairs := rfl
@[simp] theorem State.setGroup_copies (g : Group) : (s.setGroup g).copies = s.copies := rfl
@[simp] theorem State.setGroup_units (g : Group) : (s.setGroup g).units = s.units := rfl
@[simp] theorem State.setGroup_saved (g : Group) : (s.setGroup g).saved = s.saved := rfl
@[simp] theorem State.setGroup_segs (g : Group) : (s.setGroup g).segs = s.segs := rfl
@[simp] theorem State.setGroup_tokSides (g : Group) : (s.setGroup g).tokSides = s.tokSides := rfl
@[simp] theorem State.setGroup_links (g : Group) : (s.setGroup g).links = s.links := rfl
@[simp] theorem State.setGroup_boot (g : Group) : (s.setGroup g).boot = s.boot := rfl

/-! modGroup -/

@[simp] theorem State.modGroup_cur (uid : Nat) (f : Group → Group) : (s.modGroup uid f).cur = s.cur := rfl
@[simp] theorem State.modGroup_event (uid : Nat) (f : Group → Group) : (s.modGroup uid f).event = s.event := rfl
@[simp] theorem State.modGroup_inputs (uid : Nat) (f : Group → Group) : (s.modGroup uid f).inputs = s.inputs := rfl
@[simp] theorem State.modGroup_steps (uid : Nat) (f : Group → Group) : (s.modGroup uid f).steps = s.steps := rfl
@[simp] theorem State.modGroup_nextUid (uid : Nat) (f : Group → Group) : (s.modGroup uid f).nextUid = s.nextUid := rfl
@[simp] theorem State.modGroup_nextCopy (uid : Nat) (f : Group → Group) : (s.modGroup uid f).nextCopy = s.nextCopy := rfl
@[simp] theorem State.modGroup_nextReq (uid : Nat) (f : Group → Group) : (s.modGroup uid f).nextReq = s.nextReq := rfl
@[simp] theorem State.modGroup_ft (uid : Nat) (f : Group → Group) : (s.modGroup uid f).ft = s.ft := rfl
@[simp] theorem State.modGroup_mem (uid : Nat) (f : Group → Group) : (s.modGroup uid f).mem = s.mem := rfl
@[simp] theorem State.modGroup_groups (uid : Nat) (f : Group → Group) : (s.modGroup uid f).groups = s.groups.map fun x => if x.uid = uid then f x else x := rfl
@[simp] theorem State.modGroup_ghosts (uid : Nat) (f : Group → Group) : (s.modGroup uid f).ghosts = s.ghosts := rfl
@[simp] theorem State.modGroup_landings (uid : Nat) (f : Group → Group) : (s.modGroup uid f).landings = s.landings := rfl
@[simp] theorem State.modGroup_ctxs (uid : Nat) (f : Group → Group) : (s.modGroup uid f).ctxs = s.ctxs := rfl
@[simp] theorem State.modGroup_teams (uid : Nat) (f : Group → Group) : (s.modGroup uid f).teams = s.teams := rfl
@[simp] theorem State.modGroup_barLive (uid : Nat) (f : Group → Group) : (s.modGroup uid f).barLive = s.barLive := rfl
@[simp] theorem State.modGroup_launches (uid : Nat) (f : Group → Group) : (s.modGroup uid f).launches = s.launches := rfl
@[simp] theorem State.modGroup_pairs (uid : Nat) (f : Group → Group) : (s.modGroup uid f).pairs = s.pairs := rfl
@[simp] theorem State.modGroup_copies (uid : Nat) (f : Group → Group) : (s.modGroup uid f).copies = s.copies := rfl
@[simp] theorem State.modGroup_units (uid : Nat) (f : Group → Group) : (s.modGroup uid f).units = s.units := rfl
@[simp] theorem State.modGroup_saved (uid : Nat) (f : Group → Group) : (s.modGroup uid f).saved = s.saved := rfl
@[simp] theorem State.modGroup_segs (uid : Nat) (f : Group → Group) : (s.modGroup uid f).segs = s.segs := rfl
@[simp] theorem State.modGroup_tokSides (uid : Nat) (f : Group → Group) : (s.modGroup uid f).tokSides = s.tokSides := rfl
@[simp] theorem State.modGroup_links (uid : Nat) (f : Group → Group) : (s.modGroup uid f).links = s.links := rfl
@[simp] theorem State.modGroup_boot (uid : Nat) (f : Group → Group) : (s.modGroup uid f).boot = s.boot := rfl

/-! dropGroup -/

@[simp] theorem State.dropGroup_cur (uid : Nat) : (s.dropGroup uid).cur = s.cur := rfl
@[simp] theorem State.dropGroup_event (uid : Nat) : (s.dropGroup uid).event = s.event := rfl
@[simp] theorem State.dropGroup_inputs (uid : Nat) : (s.dropGroup uid).inputs = s.inputs := rfl
@[simp] theorem State.dropGroup_steps (uid : Nat) : (s.dropGroup uid).steps = s.steps := rfl
@[simp] theorem State.dropGroup_nextUid (uid : Nat) : (s.dropGroup uid).nextUid = s.nextUid := rfl
@[simp] theorem State.dropGroup_nextCopy (uid : Nat) : (s.dropGroup uid).nextCopy = s.nextCopy := rfl
@[simp] theorem State.dropGroup_nextReq (uid : Nat) : (s.dropGroup uid).nextReq = s.nextReq := rfl
@[simp] theorem State.dropGroup_ft (uid : Nat) : (s.dropGroup uid).ft = s.ft := rfl
@[simp] theorem State.dropGroup_mem (uid : Nat) : (s.dropGroup uid).mem = s.mem := rfl
@[simp] theorem State.dropGroup_groups (uid : Nat) : (s.dropGroup uid).groups = s.groups.filter fun x => x.uid != uid := rfl
@[simp] theorem State.dropGroup_ghosts (uid : Nat) : (s.dropGroup uid).ghosts = s.ghosts := rfl
@[simp] theorem State.dropGroup_landings (uid : Nat) : (s.dropGroup uid).landings = s.landings := rfl
@[simp] theorem State.dropGroup_ctxs (uid : Nat) : (s.dropGroup uid).ctxs = s.ctxs := rfl
@[simp] theorem State.dropGroup_teams (uid : Nat) : (s.dropGroup uid).teams = s.teams := rfl
@[simp] theorem State.dropGroup_barLive (uid : Nat) : (s.dropGroup uid).barLive = s.barLive := rfl
@[simp] theorem State.dropGroup_launches (uid : Nat) : (s.dropGroup uid).launches = s.launches := rfl
@[simp] theorem State.dropGroup_pairs (uid : Nat) : (s.dropGroup uid).pairs = s.pairs := rfl
@[simp] theorem State.dropGroup_copies (uid : Nat) : (s.dropGroup uid).copies = s.copies := rfl
@[simp] theorem State.dropGroup_units (uid : Nat) : (s.dropGroup uid).units = s.units := rfl
@[simp] theorem State.dropGroup_saved (uid : Nat) : (s.dropGroup uid).saved = s.saved := rfl
@[simp] theorem State.dropGroup_segs (uid : Nat) : (s.dropGroup uid).segs = s.segs := rfl
@[simp] theorem State.dropGroup_tokSides (uid : Nat) : (s.dropGroup uid).tokSides = s.tokSides := rfl
@[simp] theorem State.dropGroup_links (uid : Nat) : (s.dropGroup uid).links = s.links := rfl
@[simp] theorem State.dropGroup_boot (uid : Nat) : (s.dropGroup uid).boot = s.boot := rfl

/-! setCtx -/

@[simp] theorem State.setCtx_cur (c : Ctx) : (s.setCtx c).cur = s.cur := rfl
@[simp] theorem State.setCtx_event (c : Ctx) : (s.setCtx c).event = s.event := rfl
@[simp] theorem State.setCtx_inputs (c : Ctx) : (s.setCtx c).inputs = s.inputs := rfl
@[simp] theorem State.setCtx_steps (c : Ctx) : (s.setCtx c).steps = s.steps := rfl
@[simp] theorem State.setCtx_nextUid (c : Ctx) : (s.setCtx c).nextUid = s.nextUid := rfl
@[simp] theorem State.setCtx_nextCopy (c : Ctx) : (s.setCtx c).nextCopy = s.nextCopy := rfl
@[simp] theorem State.setCtx_nextReq (c : Ctx) : (s.setCtx c).nextReq = s.nextReq := rfl
@[simp] theorem State.setCtx_ft (c : Ctx) : (s.setCtx c).ft = s.ft := rfl
@[simp] theorem State.setCtx_mem (c : Ctx) : (s.setCtx c).mem = s.mem := rfl
@[simp] theorem State.setCtx_groups (c : Ctx) : (s.setCtx c).groups = s.groups := rfl
@[simp] theorem State.setCtx_ghosts (c : Ctx) : (s.setCtx c).ghosts = s.ghosts := rfl
@[simp] theorem State.setCtx_landings (c : Ctx) : (s.setCtx c).landings = s.landings := rfl
@[simp] theorem State.setCtx_teams (c : Ctx) : (s.setCtx c).teams = s.teams := rfl
@[simp] theorem State.setCtx_barLive (c : Ctx) : (s.setCtx c).barLive = s.barLive := rfl
@[simp] theorem State.setCtx_launches (c : Ctx) : (s.setCtx c).launches = s.launches := rfl
@[simp] theorem State.setCtx_pairs (c : Ctx) : (s.setCtx c).pairs = s.pairs := rfl
@[simp] theorem State.setCtx_copies (c : Ctx) : (s.setCtx c).copies = s.copies := rfl
@[simp] theorem State.setCtx_units (c : Ctx) : (s.setCtx c).units = s.units := rfl
@[simp] theorem State.setCtx_saved (c : Ctx) : (s.setCtx c).saved = s.saved := rfl
@[simp] theorem State.setCtx_segs (c : Ctx) : (s.setCtx c).segs = s.segs := rfl
@[simp] theorem State.setCtx_tokSides (c : Ctx) : (s.setCtx c).tokSides = s.tokSides := rfl
@[simp] theorem State.setCtx_links (c : Ctx) : (s.setCtx c).links = s.links := rfl
@[simp] theorem State.setCtx_boot (c : Ctx) : (s.setCtx c).boot = s.boot := rfl

/-! modCtx -/

@[simp] theorem State.modCtx_cur (id : Nat) (f : Ctx → Ctx) : (s.modCtx id f).cur = s.cur := rfl
@[simp] theorem State.modCtx_event (id : Nat) (f : Ctx → Ctx) : (s.modCtx id f).event = s.event := rfl
@[simp] theorem State.modCtx_inputs (id : Nat) (f : Ctx → Ctx) : (s.modCtx id f).inputs = s.inputs := rfl
@[simp] theorem State.modCtx_steps (id : Nat) (f : Ctx → Ctx) : (s.modCtx id f).steps = s.steps := rfl
@[simp] theorem State.modCtx_nextUid (id : Nat) (f : Ctx → Ctx) : (s.modCtx id f).nextUid = s.nextUid := rfl
@[simp] theorem State.modCtx_nextCopy (id : Nat) (f : Ctx → Ctx) : (s.modCtx id f).nextCopy = s.nextCopy := rfl
@[simp] theorem State.modCtx_nextReq (id : Nat) (f : Ctx → Ctx) : (s.modCtx id f).nextReq = s.nextReq := rfl
@[simp] theorem State.modCtx_ft (id : Nat) (f : Ctx → Ctx) : (s.modCtx id f).ft = s.ft := rfl
@[simp] theorem State.modCtx_mem (id : Nat) (f : Ctx → Ctx) : (s.modCtx id f).mem = s.mem := rfl
@[simp] theorem State.modCtx_groups (id : Nat) (f : Ctx → Ctx) : (s.modCtx id f).groups = s.groups := rfl
@[simp] theorem State.modCtx_ghosts (id : Nat) (f : Ctx → Ctx) : (s.modCtx id f).ghosts = s.ghosts := rfl
@[simp] theorem State.modCtx_landings (id : Nat) (f : Ctx → Ctx) : (s.modCtx id f).landings = s.landings := rfl
@[simp] theorem State.modCtx_teams (id : Nat) (f : Ctx → Ctx) : (s.modCtx id f).teams = s.teams := rfl
@[simp] theorem State.modCtx_barLive (id : Nat) (f : Ctx → Ctx) : (s.modCtx id f).barLive = s.barLive := rfl
@[simp] theorem State.modCtx_launches (id : Nat) (f : Ctx → Ctx) : (s.modCtx id f).launches = s.launches := rfl
@[simp] theorem State.modCtx_pairs (id : Nat) (f : Ctx → Ctx) : (s.modCtx id f).pairs = s.pairs := rfl
@[simp] theorem State.modCtx_copies (id : Nat) (f : Ctx → Ctx) : (s.modCtx id f).copies = s.copies := rfl
@[simp] theorem State.modCtx_units (id : Nat) (f : Ctx → Ctx) : (s.modCtx id f).units = s.units := rfl
@[simp] theorem State.modCtx_saved (id : Nat) (f : Ctx → Ctx) : (s.modCtx id f).saved = s.saved := rfl
@[simp] theorem State.modCtx_segs (id : Nat) (f : Ctx → Ctx) : (s.modCtx id f).segs = s.segs := rfl
@[simp] theorem State.modCtx_tokSides (id : Nat) (f : Ctx → Ctx) : (s.modCtx id f).tokSides = s.tokSides := rfl
@[simp] theorem State.modCtx_links (id : Nat) (f : Ctx → Ctx) : (s.modCtx id f).links = s.links := rfl
@[simp] theorem State.modCtx_boot (id : Nat) (f : Ctx → Ctx) : (s.modCtx id f).boot = s.boot := rfl

/-! setPair -/

@[simp] theorem State.setPair_cur (src dst : Nat) (xs : List Item) : (s.setPair src dst xs).cur = s.cur := rfl
@[simp] theorem State.setPair_event (src dst : Nat) (xs : List Item) : (s.setPair src dst xs).event = s.event := rfl
@[simp] theorem State.setPair_inputs (src dst : Nat) (xs : List Item) : (s.setPair src dst xs).inputs = s.inputs := rfl
@[simp] theorem State.setPair_steps (src dst : Nat) (xs : List Item) : (s.setPair src dst xs).steps = s.steps := rfl
@[simp] theorem State.setPair_nextUid (src dst : Nat) (xs : List Item) : (s.setPair src dst xs).nextUid = s.nextUid := rfl
@[simp] theorem State.setPair_nextCopy (src dst : Nat) (xs : List Item) : (s.setPair src dst xs).nextCopy = s.nextCopy := rfl
@[simp] theorem State.setPair_nextReq (src dst : Nat) (xs : List Item) : (s.setPair src dst xs).nextReq = s.nextReq := rfl
@[simp] theorem State.setPair_ft (src dst : Nat) (xs : List Item) : (s.setPair src dst xs).ft = s.ft := rfl
@[simp] theorem State.setPair_mem (src dst : Nat) (xs : List Item) : (s.setPair src dst xs).mem = s.mem := rfl
@[simp] theorem State.setPair_groups (src dst : Nat) (xs : List Item) : (s.setPair src dst xs).groups = s.groups := rfl
@[simp] theorem State.setPair_ghosts (src dst : Nat) (xs : List Item) : (s.setPair src dst xs).ghosts = s.ghosts := rfl
@[simp] theorem State.setPair_landings (src dst : Nat) (xs : List Item) : (s.setPair src dst xs).landings = s.landings := rfl
@[simp] theorem State.setPair_ctxs (src dst : Nat) (xs : List Item) : (s.setPair src dst xs).ctxs = s.ctxs := rfl
@[simp] theorem State.setPair_teams (src dst : Nat) (xs : List Item) : (s.setPair src dst xs).teams = s.teams := rfl
@[simp] theorem State.setPair_barLive (src dst : Nat) (xs : List Item) : (s.setPair src dst xs).barLive = s.barLive := rfl
@[simp] theorem State.setPair_launches (src dst : Nat) (xs : List Item) : (s.setPair src dst xs).launches = s.launches := rfl
@[simp] theorem State.setPair_copies (src dst : Nat) (xs : List Item) : (s.setPair src dst xs).copies = s.copies := rfl
@[simp] theorem State.setPair_units (src dst : Nat) (xs : List Item) : (s.setPair src dst xs).units = s.units := rfl
@[simp] theorem State.setPair_saved (src dst : Nat) (xs : List Item) : (s.setPair src dst xs).saved = s.saved := rfl
@[simp] theorem State.setPair_segs (src dst : Nat) (xs : List Item) : (s.setPair src dst xs).segs = s.segs := rfl
@[simp] theorem State.setPair_tokSides (src dst : Nat) (xs : List Item) : (s.setPair src dst xs).tokSides = s.tokSides := rfl
@[simp] theorem State.setPair_links (src dst : Nat) (xs : List Item) : (s.setPair src dst xs).links = s.links := rfl
@[simp] theorem State.setPair_boot (src dst : Nat) (xs : List Item) : (s.setPair src dst xs).boot = s.boot := rfl

/-! send -/

@[simp] theorem State.send_cur (src dst : Nat) (x : Item) : (s.send src dst x).cur = s.cur := rfl
@[simp] theorem State.send_event (src dst : Nat) (x : Item) : (s.send src dst x).event = s.event := rfl
@[simp] theorem State.send_inputs (src dst : Nat) (x : Item) : (s.send src dst x).inputs = s.inputs := rfl
@[simp] theorem State.send_steps (src dst : Nat) (x : Item) : (s.send src dst x).steps = s.steps := rfl
@[simp] theorem State.send_nextUid (src dst : Nat) (x : Item) : (s.send src dst x).nextUid = s.nextUid := rfl
@[simp] theorem State.send_nextCopy (src dst : Nat) (x : Item) : (s.send src dst x).nextCopy = s.nextCopy := rfl
@[simp] theorem State.send_nextReq (src dst : Nat) (x : Item) : (s.send src dst x).nextReq = s.nextReq := rfl
@[simp] theorem State.send_ft (src dst : Nat) (x : Item) : (s.send src dst x).ft = s.ft := rfl
@[simp] theorem State.send_mem (src dst : Nat) (x : Item) : (s.send src dst x).mem = s.mem := rfl
@[simp] theorem State.send_groups (src dst : Nat) (x : Item) : (s.send src dst x).groups = s.groups := rfl
@[simp] theorem State.send_ghosts (src dst : Nat) (x : Item) : (s.send src dst x).ghosts = s.ghosts := rfl
@[simp] theorem State.send_landings (src dst : Nat) (x : Item) : (s.send src dst x).landings = s.landings := rfl
@[simp] theorem State.send_ctxs (src dst : Nat) (x : Item) : (s.send src dst x).ctxs = s.ctxs := rfl
@[simp] theorem State.send_teams (src dst : Nat) (x : Item) : (s.send src dst x).teams = s.teams := rfl
@[simp] theorem State.send_barLive (src dst : Nat) (x : Item) : (s.send src dst x).barLive = s.barLive := rfl
@[simp] theorem State.send_launches (src dst : Nat) (x : Item) : (s.send src dst x).launches = s.launches := rfl
@[simp] theorem State.send_copies (src dst : Nat) (x : Item) : (s.send src dst x).copies = s.copies := rfl
@[simp] theorem State.send_units (src dst : Nat) (x : Item) : (s.send src dst x).units = s.units := rfl
@[simp] theorem State.send_saved (src dst : Nat) (x : Item) : (s.send src dst x).saved = s.saved := rfl
@[simp] theorem State.send_segs (src dst : Nat) (x : Item) : (s.send src dst x).segs = s.segs := rfl
@[simp] theorem State.send_tokSides (src dst : Nat) (x : Item) : (s.send src dst x).tokSides = s.tokSides := rfl
@[simp] theorem State.send_links (src dst : Nat) (x : Item) : (s.send src dst x).links = s.links := rfl
@[simp] theorem State.send_boot (src dst : Nat) (x : Item) : (s.send src dst x).boot = s.boot := rfl

/-! sendPeer -/

@[simp] theorem State.sendPeer_cur (peer src dst ft : Nat) (b : LinkBody) : (s.sendPeer peer src dst ft b).cur = s.cur := rfl
@[simp] theorem State.sendPeer_event (peer src dst ft : Nat) (b : LinkBody) : (s.sendPeer peer src dst ft b).event = s.event := rfl
@[simp] theorem State.sendPeer_inputs (peer src dst ft : Nat) (b : LinkBody) : (s.sendPeer peer src dst ft b).inputs = s.inputs := rfl
@[simp] theorem State.sendPeer_steps (peer src dst ft : Nat) (b : LinkBody) : (s.sendPeer peer src dst ft b).steps = s.steps := rfl
@[simp] theorem State.sendPeer_nextUid (peer src dst ft : Nat) (b : LinkBody) : (s.sendPeer peer src dst ft b).nextUid = s.nextUid := rfl
@[simp] theorem State.sendPeer_nextCopy (peer src dst ft : Nat) (b : LinkBody) : (s.sendPeer peer src dst ft b).nextCopy = s.nextCopy := rfl
@[simp] theorem State.sendPeer_nextReq (peer src dst ft : Nat) (b : LinkBody) : (s.sendPeer peer src dst ft b).nextReq = s.nextReq := rfl
@[simp] theorem State.sendPeer_ft (peer src dst ft : Nat) (b : LinkBody) : (s.sendPeer peer src dst ft b).ft = s.ft := rfl
@[simp] theorem State.sendPeer_mem (peer src dst ft : Nat) (b : LinkBody) : (s.sendPeer peer src dst ft b).mem = s.mem := rfl
@[simp] theorem State.sendPeer_groups (peer src dst ft : Nat) (b : LinkBody) : (s.sendPeer peer src dst ft b).groups = s.groups := rfl
@[simp] theorem State.sendPeer_ghosts (peer src dst ft : Nat) (b : LinkBody) : (s.sendPeer peer src dst ft b).ghosts = s.ghosts := rfl
@[simp] theorem State.sendPeer_landings (peer src dst ft : Nat) (b : LinkBody) : (s.sendPeer peer src dst ft b).landings = s.landings := rfl
@[simp] theorem State.sendPeer_ctxs (peer src dst ft : Nat) (b : LinkBody) : (s.sendPeer peer src dst ft b).ctxs = s.ctxs := rfl
@[simp] theorem State.sendPeer_teams (peer src dst ft : Nat) (b : LinkBody) : (s.sendPeer peer src dst ft b).teams = s.teams := rfl
@[simp] theorem State.sendPeer_barLive (peer src dst ft : Nat) (b : LinkBody) : (s.sendPeer peer src dst ft b).barLive = s.barLive := rfl
@[simp] theorem State.sendPeer_launches (peer src dst ft : Nat) (b : LinkBody) : (s.sendPeer peer src dst ft b).launches = s.launches := rfl
@[simp] theorem State.sendPeer_pairs (peer src dst ft : Nat) (b : LinkBody) : (s.sendPeer peer src dst ft b).pairs = s.pairs := rfl
@[simp] theorem State.sendPeer_copies (peer src dst ft : Nat) (b : LinkBody) : (s.sendPeer peer src dst ft b).copies = s.copies := rfl
@[simp] theorem State.sendPeer_units (peer src dst ft : Nat) (b : LinkBody) : (s.sendPeer peer src dst ft b).units = s.units := rfl
@[simp] theorem State.sendPeer_saved (peer src dst ft : Nat) (b : LinkBody) : (s.sendPeer peer src dst ft b).saved = s.saved := rfl
@[simp] theorem State.sendPeer_segs (peer src dst ft : Nat) (b : LinkBody) : (s.sendPeer peer src dst ft b).segs = s.segs := rfl
@[simp] theorem State.sendPeer_tokSides (peer src dst ft : Nat) (b : LinkBody) : (s.sendPeer peer src dst ft b).tokSides = s.tokSides := rfl
@[simp] theorem State.sendPeer_boot (peer src dst ft : Nat) (b : LinkBody) : (s.sendPeer peer src dst ft b).boot = s.boot := rfl

/-! setTeam -/

@[simp] theorem State.setTeam_cur (t : Team) : (s.setTeam t).cur = s.cur := rfl
@[simp] theorem State.setTeam_event (t : Team) : (s.setTeam t).event = s.event := rfl
@[simp] theorem State.setTeam_inputs (t : Team) : (s.setTeam t).inputs = s.inputs := rfl
@[simp] theorem State.setTeam_steps (t : Team) : (s.setTeam t).steps = s.steps := rfl
@[simp] theorem State.setTeam_nextUid (t : Team) : (s.setTeam t).nextUid = s.nextUid := rfl
@[simp] theorem State.setTeam_nextCopy (t : Team) : (s.setTeam t).nextCopy = s.nextCopy := rfl
@[simp] theorem State.setTeam_nextReq (t : Team) : (s.setTeam t).nextReq = s.nextReq := rfl
@[simp] theorem State.setTeam_ft (t : Team) : (s.setTeam t).ft = s.ft := rfl
@[simp] theorem State.setTeam_mem (t : Team) : (s.setTeam t).mem = s.mem := rfl
@[simp] theorem State.setTeam_groups (t : Team) : (s.setTeam t).groups = s.groups := rfl
@[simp] theorem State.setTeam_ghosts (t : Team) : (s.setTeam t).ghosts = s.ghosts := rfl
@[simp] theorem State.setTeam_landings (t : Team) : (s.setTeam t).landings = s.landings := rfl
@[simp] theorem State.setTeam_ctxs (t : Team) : (s.setTeam t).ctxs = s.ctxs := rfl
@[simp] theorem State.setTeam_barLive (t : Team) : (s.setTeam t).barLive = s.barLive := rfl
@[simp] theorem State.setTeam_launches (t : Team) : (s.setTeam t).launches = s.launches := rfl
@[simp] theorem State.setTeam_pairs (t : Team) : (s.setTeam t).pairs = s.pairs := rfl
@[simp] theorem State.setTeam_copies (t : Team) : (s.setTeam t).copies = s.copies := rfl
@[simp] theorem State.setTeam_units (t : Team) : (s.setTeam t).units = s.units := rfl
@[simp] theorem State.setTeam_saved (t : Team) : (s.setTeam t).saved = s.saved := rfl
@[simp] theorem State.setTeam_segs (t : Team) : (s.setTeam t).segs = s.segs := rfl
@[simp] theorem State.setTeam_tokSides (t : Team) : (s.setTeam t).tokSides = s.tokSides := rfl
@[simp] theorem State.setTeam_links (t : Team) : (s.setTeam t).links = s.links := rfl
@[simp] theorem State.setTeam_boot (t : Team) : (s.setTeam t).boot = s.boot := rfl

/-! dropTeam -/

@[simp] theorem State.dropTeam_cur (t : Team) : (s.dropTeam t).cur = s.cur := rfl
@[simp] theorem State.dropTeam_event (t : Team) : (s.dropTeam t).event = s.event := rfl
@[simp] theorem State.dropTeam_inputs (t : Team) : (s.dropTeam t).inputs = s.inputs := rfl
@[simp] theorem State.dropTeam_steps (t : Team) : (s.dropTeam t).steps = s.steps := rfl
@[simp] theorem State.dropTeam_nextUid (t : Team) : (s.dropTeam t).nextUid = s.nextUid := rfl
@[simp] theorem State.dropTeam_nextCopy (t : Team) : (s.dropTeam t).nextCopy = s.nextCopy := rfl
@[simp] theorem State.dropTeam_nextReq (t : Team) : (s.dropTeam t).nextReq = s.nextReq := rfl
@[simp] theorem State.dropTeam_ft (t : Team) : (s.dropTeam t).ft = s.ft := rfl
@[simp] theorem State.dropTeam_mem (t : Team) : (s.dropTeam t).mem = s.mem := rfl
@[simp] theorem State.dropTeam_groups (t : Team) : (s.dropTeam t).groups = s.groups := rfl
@[simp] theorem State.dropTeam_ghosts (t : Team) : (s.dropTeam t).ghosts = s.ghosts := rfl
@[simp] theorem State.dropTeam_landings (t : Team) : (s.dropTeam t).landings = s.landings := rfl
@[simp] theorem State.dropTeam_ctxs (t : Team) : (s.dropTeam t).ctxs = s.ctxs := rfl
@[simp] theorem State.dropTeam_barLive (t : Team) : (s.dropTeam t).barLive = s.barLive := rfl
@[simp] theorem State.dropTeam_launches (t : Team) : (s.dropTeam t).launches = s.launches := rfl
@[simp] theorem State.dropTeam_pairs (t : Team) : (s.dropTeam t).pairs = s.pairs := rfl
@[simp] theorem State.dropTeam_copies (t : Team) : (s.dropTeam t).copies = s.copies := rfl
@[simp] theorem State.dropTeam_units (t : Team) : (s.dropTeam t).units = s.units := rfl
@[simp] theorem State.dropTeam_saved (t : Team) : (s.dropTeam t).saved = s.saved := rfl
@[simp] theorem State.dropTeam_segs (t : Team) : (s.dropTeam t).segs = s.segs := rfl
@[simp] theorem State.dropTeam_tokSides (t : Team) : (s.dropTeam t).tokSides = s.tokSides := rfl
@[simp] theorem State.dropTeam_links (t : Team) : (s.dropTeam t).links = s.links := rfl
@[simp] theorem State.dropTeam_boot (t : Team) : (s.dropTeam t).boot = s.boot := rfl

/-! setUnit -/

@[simp] theorem State.setUnit_cur (u : MUnit) : (s.setUnit u).cur = s.cur := rfl
@[simp] theorem State.setUnit_event (u : MUnit) : (s.setUnit u).event = s.event := rfl
@[simp] theorem State.setUnit_inputs (u : MUnit) : (s.setUnit u).inputs = s.inputs := rfl
@[simp] theorem State.setUnit_steps (u : MUnit) : (s.setUnit u).steps = s.steps := rfl
@[simp] theorem State.setUnit_nextUid (u : MUnit) : (s.setUnit u).nextUid = s.nextUid := rfl
@[simp] theorem State.setUnit_nextCopy (u : MUnit) : (s.setUnit u).nextCopy = s.nextCopy := rfl
@[simp] theorem State.setUnit_nextReq (u : MUnit) : (s.setUnit u).nextReq = s.nextReq := rfl
@[simp] theorem State.setUnit_ft (u : MUnit) : (s.setUnit u).ft = s.ft := rfl
@[simp] theorem State.setUnit_mem (u : MUnit) : (s.setUnit u).mem = s.mem := rfl
@[simp] theorem State.setUnit_groups (u : MUnit) : (s.setUnit u).groups = s.groups := rfl
@[simp] theorem State.setUnit_ghosts (u : MUnit) : (s.setUnit u).ghosts = s.ghosts := rfl
@[simp] theorem State.setUnit_landings (u : MUnit) : (s.setUnit u).landings = s.landings := rfl
@[simp] theorem State.setUnit_ctxs (u : MUnit) : (s.setUnit u).ctxs = s.ctxs := rfl
@[simp] theorem State.setUnit_teams (u : MUnit) : (s.setUnit u).teams = s.teams := rfl
@[simp] theorem State.setUnit_barLive (u : MUnit) : (s.setUnit u).barLive = s.barLive := rfl
@[simp] theorem State.setUnit_launches (u : MUnit) : (s.setUnit u).launches = s.launches := rfl
@[simp] theorem State.setUnit_pairs (u : MUnit) : (s.setUnit u).pairs = s.pairs := rfl
@[simp] theorem State.setUnit_copies (u : MUnit) : (s.setUnit u).copies = s.copies := rfl
@[simp] theorem State.setUnit_saved (u : MUnit) : (s.setUnit u).saved = s.saved := rfl
@[simp] theorem State.setUnit_segs (u : MUnit) : (s.setUnit u).segs = s.segs := rfl
@[simp] theorem State.setUnit_tokSides (u : MUnit) : (s.setUnit u).tokSides = s.tokSides := rfl
@[simp] theorem State.setUnit_links (u : MUnit) : (s.setUnit u).links = s.links := rfl
@[simp] theorem State.setUnit_boot (u : MUnit) : (s.setUnit u).boot = s.boot := rfl

/-! setSeg -/

@[simp] theorem State.setSeg_cur (x : Seg) : (s.setSeg x).cur = s.cur := rfl
@[simp] theorem State.setSeg_event (x : Seg) : (s.setSeg x).event = s.event := rfl
@[simp] theorem State.setSeg_inputs (x : Seg) : (s.setSeg x).inputs = s.inputs := rfl
@[simp] theorem State.setSeg_steps (x : Seg) : (s.setSeg x).steps = s.steps := rfl
@[simp] theorem State.setSeg_nextUid (x : Seg) : (s.setSeg x).nextUid = s.nextUid := rfl
@[simp] theorem State.setSeg_nextCopy (x : Seg) : (s.setSeg x).nextCopy = s.nextCopy := rfl
@[simp] theorem State.setSeg_nextReq (x : Seg) : (s.setSeg x).nextReq = s.nextReq := rfl
@[simp] theorem State.setSeg_ft (x : Seg) : (s.setSeg x).ft = s.ft := rfl
@[simp] theorem State.setSeg_mem (x : Seg) : (s.setSeg x).mem = s.mem := rfl
@[simp] theorem State.setSeg_groups (x : Seg) : (s.setSeg x).groups = s.groups := rfl
@[simp] theorem State.setSeg_ghosts (x : Seg) : (s.setSeg x).ghosts = s.ghosts := rfl
@[simp] theorem State.setSeg_landings (x : Seg) : (s.setSeg x).landings = s.landings := rfl
@[simp] theorem State.setSeg_ctxs (x : Seg) : (s.setSeg x).ctxs = s.ctxs := rfl
@[simp] theorem State.setSeg_teams (x : Seg) : (s.setSeg x).teams = s.teams := rfl
@[simp] theorem State.setSeg_barLive (x : Seg) : (s.setSeg x).barLive = s.barLive := rfl
@[simp] theorem State.setSeg_launches (x : Seg) : (s.setSeg x).launches = s.launches := rfl
@[simp] theorem State.setSeg_pairs (x : Seg) : (s.setSeg x).pairs = s.pairs := rfl
@[simp] theorem State.setSeg_copies (x : Seg) : (s.setSeg x).copies = s.copies := rfl
@[simp] theorem State.setSeg_units (x : Seg) : (s.setSeg x).units = s.units := rfl
@[simp] theorem State.setSeg_saved (x : Seg) : (s.setSeg x).saved = s.saved := rfl
@[simp] theorem State.setSeg_tokSides (x : Seg) : (s.setSeg x).tokSides = s.tokSides := rfl
@[simp] theorem State.setSeg_links (x : Seg) : (s.setSeg x).links = s.links := rfl
@[simp] theorem State.setSeg_boot (x : Seg) : (s.setSeg x).boot = s.boot := rfl

/-! setSlot -/

@[simp] theorem State.setSlot_cur (l slot : Nat) (x : Option Session) : (s.setSlot l slot x).cur = s.cur := rfl
@[simp] theorem State.setSlot_event (l slot : Nat) (x : Option Session) : (s.setSlot l slot x).event = s.event := rfl
@[simp] theorem State.setSlot_inputs (l slot : Nat) (x : Option Session) : (s.setSlot l slot x).inputs = s.inputs := rfl
@[simp] theorem State.setSlot_steps (l slot : Nat) (x : Option Session) : (s.setSlot l slot x).steps = s.steps := rfl
@[simp] theorem State.setSlot_nextUid (l slot : Nat) (x : Option Session) : (s.setSlot l slot x).nextUid = s.nextUid := rfl
@[simp] theorem State.setSlot_nextCopy (l slot : Nat) (x : Option Session) : (s.setSlot l slot x).nextCopy = s.nextCopy := rfl
@[simp] theorem State.setSlot_nextReq (l slot : Nat) (x : Option Session) : (s.setSlot l slot x).nextReq = s.nextReq := rfl
@[simp] theorem State.setSlot_ft (l slot : Nat) (x : Option Session) : (s.setSlot l slot x).ft = s.ft := rfl
@[simp] theorem State.setSlot_mem (l slot : Nat) (x : Option Session) : (s.setSlot l slot x).mem = s.mem := rfl
@[simp] theorem State.setSlot_groups (l slot : Nat) (x : Option Session) : (s.setSlot l slot x).groups = s.groups := rfl
@[simp] theorem State.setSlot_ghosts (l slot : Nat) (x : Option Session) : (s.setSlot l slot x).ghosts = s.ghosts := rfl
@[simp] theorem State.setSlot_ctxs (l slot : Nat) (x : Option Session) : (s.setSlot l slot x).ctxs = s.ctxs := rfl
@[simp] theorem State.setSlot_teams (l slot : Nat) (x : Option Session) : (s.setSlot l slot x).teams = s.teams := rfl
@[simp] theorem State.setSlot_barLive (l slot : Nat) (x : Option Session) : (s.setSlot l slot x).barLive = s.barLive := rfl
@[simp] theorem State.setSlot_launches (l slot : Nat) (x : Option Session) : (s.setSlot l slot x).launches = s.launches := rfl
@[simp] theorem State.setSlot_pairs (l slot : Nat) (x : Option Session) : (s.setSlot l slot x).pairs = s.pairs := rfl
@[simp] theorem State.setSlot_copies (l slot : Nat) (x : Option Session) : (s.setSlot l slot x).copies = s.copies := rfl
@[simp] theorem State.setSlot_units (l slot : Nat) (x : Option Session) : (s.setSlot l slot x).units = s.units := rfl
@[simp] theorem State.setSlot_saved (l slot : Nat) (x : Option Session) : (s.setSlot l slot x).saved = s.saved := rfl
@[simp] theorem State.setSlot_segs (l slot : Nat) (x : Option Session) : (s.setSlot l slot x).segs = s.segs := rfl
@[simp] theorem State.setSlot_tokSides (l slot : Nat) (x : Option Session) : (s.setSlot l slot x).tokSides = s.tokSides := rfl
@[simp] theorem State.setSlot_links (l slot : Nat) (x : Option Session) : (s.setSlot l slot x).links = s.links := rfl
@[simp] theorem State.setSlot_boot (l slot : Nat) (x : Option Session) : (s.setSlot l slot x).boot = s.boot := rfl

/-! setQueue -/

@[simp] theorem State.setQueue_cur (l : Nat) (q : Queue) : (s.setQueue l q).cur = s.cur := rfl
@[simp] theorem State.setQueue_event (l : Nat) (q : Queue) : (s.setQueue l q).event = s.event := rfl
@[simp] theorem State.setQueue_inputs (l : Nat) (q : Queue) : (s.setQueue l q).inputs = s.inputs := rfl
@[simp] theorem State.setQueue_steps (l : Nat) (q : Queue) : (s.setQueue l q).steps = s.steps := rfl
@[simp] theorem State.setQueue_nextUid (l : Nat) (q : Queue) : (s.setQueue l q).nextUid = s.nextUid := rfl
@[simp] theorem State.setQueue_nextCopy (l : Nat) (q : Queue) : (s.setQueue l q).nextCopy = s.nextCopy := rfl
@[simp] theorem State.setQueue_nextReq (l : Nat) (q : Queue) : (s.setQueue l q).nextReq = s.nextReq := rfl
@[simp] theorem State.setQueue_ft (l : Nat) (q : Queue) : (s.setQueue l q).ft = s.ft := rfl
@[simp] theorem State.setQueue_mem (l : Nat) (q : Queue) : (s.setQueue l q).mem = s.mem := rfl
@[simp] theorem State.setQueue_groups (l : Nat) (q : Queue) : (s.setQueue l q).groups = s.groups := rfl
@[simp] theorem State.setQueue_ghosts (l : Nat) (q : Queue) : (s.setQueue l q).ghosts = s.ghosts := rfl
@[simp] theorem State.setQueue_ctxs (l : Nat) (q : Queue) : (s.setQueue l q).ctxs = s.ctxs := rfl
@[simp] theorem State.setQueue_teams (l : Nat) (q : Queue) : (s.setQueue l q).teams = s.teams := rfl
@[simp] theorem State.setQueue_barLive (l : Nat) (q : Queue) : (s.setQueue l q).barLive = s.barLive := rfl
@[simp] theorem State.setQueue_launches (l : Nat) (q : Queue) : (s.setQueue l q).launches = s.launches := rfl
@[simp] theorem State.setQueue_pairs (l : Nat) (q : Queue) : (s.setQueue l q).pairs = s.pairs := rfl
@[simp] theorem State.setQueue_copies (l : Nat) (q : Queue) : (s.setQueue l q).copies = s.copies := rfl
@[simp] theorem State.setQueue_units (l : Nat) (q : Queue) : (s.setQueue l q).units = s.units := rfl
@[simp] theorem State.setQueue_saved (l : Nat) (q : Queue) : (s.setQueue l q).saved = s.saved := rfl
@[simp] theorem State.setQueue_segs (l : Nat) (q : Queue) : (s.setQueue l q).segs = s.segs := rfl
@[simp] theorem State.setQueue_tokSides (l : Nat) (q : Queue) : (s.setQueue l q).tokSides = s.tokSides := rfl
@[simp] theorem State.setQueue_links (l : Nat) (q : Queue) : (s.setQueue l q).links = s.links := rfl
@[simp] theorem State.setQueue_boot (l : Nat) (q : Queue) : (s.setQueue l q).boot = s.boot := rfl

end Sys2Proof.Machine
end

