-- ==== Sys2Proof/Laws/Memory.lean ====
section
/-! SUPPORT. Memory: every operation on it keeps the canonical form, and a read after a write. -/

namespace Sys2Proof.Machine

/-- Every address listed is above `k`, addresses rise, and no entry is zero. -/
theorem cellsWf_cons {k : Nat} {v : Byte} {cs : List Host.Cell} :
    cellsWf ((k, v) :: cs) = true ↔ v ≠ 0 ∧ cellsWf cs = true ∧ ∀ c ∈ cs.head?, k < c.1 := by
  cases cs with
  | nil => simp [cellsWf]
  | cons c cs => obtain ⟨k', v'⟩ := c; simp [cellsWf]; tauto

theorem cellWrite_head {cs : List Host.Cell} {a k : Nat} {b : Byte} (hk : k < a) (h : ∀ c ∈ cs.head?, k < c.1)
    (hw : cellsWf cs = true) : ∀ c ∈ (cellWrite cs a b).head?, k < c.1 := by
  cases cs with
  | nil => unfold cellWrite; split <;> simp_all
  | cons c cs =>
    obtain ⟨k', v'⟩ := c
    simp only [List.head?_cons, Option.mem_def, Option.some.injEq, forall_eq'] at h
    have hw' := (cellsWf_cons.1 hw).2.2
    unfold cellWrite
    split
    · split <;> simp_all
    · split
      · split
        · intro c hc; have := hw' c hc; omega
        · simp_all
      · simpa using h

/-- Writing a byte keeps the canonical form. -/
theorem cellWrite_wf {cs : List Host.Cell} (a : Nat) (b : Byte) (h : cellsWf cs = true) : cellsWf (cellWrite cs a b) = true := by
  induction cs with
  | nil => unfold cellWrite; split <;> simp_all [cellsWf]
  | cons c cs ih =>
    obtain ⟨k, v⟩ := c
    obtain ⟨hv, hw, hh⟩ := cellsWf_cons.1 h
    unfold cellWrite
    split
    · split
      · exact h
      · exact cellsWf_cons.2 ⟨‹_›, h, by simpa⟩
    · split
      · split
        · exact hw
        · rename_i _ hka _; subst hka; exact cellsWf_cons.2 ⟨‹_›, hw, hh⟩
      · exact cellsWf_cons.2 ⟨hv, ih hw, cellWrite_head (by omega) hh hw⟩

/-- A byte listed below every address reads zero. -/
theorem cellRead_below {cs : List Host.Cell} {a : Nat} (hw : cellsWf cs = true) (h : ∀ c ∈ cs.head?, a < c.1) : cellRead cs a = 0 := by
  cases cs with
  | nil => rfl
  | cons c cs => obtain ⟨k, v⟩ := c; simp at h; rw [cellRead, if_neg (by omega), if_pos h]

/-- A read after a write: the byte written at its address, and what was there at every other. -/
theorem cellRead_cellWrite {cs : List Host.Cell} (a x : Nat) (b : Byte) (hw : cellsWf cs = true) :
    cellRead (cellWrite cs a b) x = if x = a then b else cellRead cs x := by
  induction cs with
  | nil => unfold cellWrite; split <;> simp_all [cellRead]
  | cons c cs ih =>
    obtain ⟨k, v⟩ := c
    obtain ⟨hv, hcs, hh⟩ := cellsWf_cons.1 hw
    unfold cellWrite
    split
    · split
      · split
        · rename_i hb hx; subst hx hb; rw [cellRead, if_neg (by omega), if_pos (by omega)]
        · rfl
      · simp only [cellRead]; split
        · rfl
        · split
          · rw [if_neg (by omega), if_pos (by omega)]
          · rfl
    · split
      · rename_i _ hak
        subst hak
        split
        · rename_i hb
          subst hb
          by_cases hx : x = a
          · subst hx; simpa using cellRead_below hcs hh
          · rw [if_neg hx]
            simp only [cellRead, if_neg hx]
            split
            · exact cellRead_below hcs fun c hc => by have := hh c hc; omega
            · rfl
        · simp only [cellRead]; split <;> rfl
      · simp only [cellRead, ih hcs]
        split
        · rw [if_neg (by omega)]
        · split
          · rw [if_neg (by omega)]
          · rfl

/-- Writing several bytes keeps the canonical form. -/
theorem cellsPut_wf {cs : List Host.Cell} (a : Nat) (bs : List Byte) (h : cellsWf cs = true) : cellsWf (cellsPut cs a bs) = true := by
  induction bs generalizing cs a with
  | nil => exact h
  | cons b bs ih => exact ih _ (cellWrite_wf a b h)

/-- A read after a write of several bytes. -/
theorem cellRead_cellsPut {cs : List Host.Cell} (a x : Nat) (bs : List Byte) (h : cellsWf cs = true) :
    cellRead (cellsPut cs a bs) x = if a ≤ x ∧ x < a + bs.length then bs.getD (x - a) 0 else cellRead cs x := by
  induction bs generalizing cs a with
  | nil => simp [cellsPut]
  | cons b bs ih =>
    simp only [cellsPut, ih (a + 1) (cellWrite_wf a b h), cellRead_cellWrite a x b h, List.length_cons]
    by_cases hx : x = a
    · subst hx; simp
    · by_cases hr : a + 1 ≤ x ∧ x < a + 1 + bs.length
      · rw [if_pos hr, if_pos (by omega)]
        obtain ⟨d, rfl⟩ : ∃ d, x = a + 1 + d := ⟨x - (a + 1), by omega⟩
        simp [show a + 1 + d - a = d + 1 from by omega]
      · simp only [if_neg hr, if_neg hx]; rw [if_neg (by omega)]

/-- A filter keeps the canonical form. -/
theorem cellsWf_filter {cs : List Host.Cell} (p : Host.Cell → Bool) (h : cellsWf cs = true) : cellsWf (cs.filter p) = true := by
  induction cs with
  | nil => exact h
  | cons c cs ih =>
    obtain ⟨k, v⟩ := c
    obtain ⟨hv, hcs, hh⟩ := cellsWf_cons.1 h
    rw [List.filter_cons]
    split
    · refine cellsWf_cons.2 ⟨hv, ih hcs, ?_⟩
      clear ih h hv
      induction cs with
      | nil => simp
      | cons d ds ihd =>
        obtain ⟨k', v'⟩ := d
        obtain ⟨_, hds, hh'⟩ := cellsWf_cons.1 hcs
        have hk : k < k' := by simpa using hh
        rw [List.filter_cons]
        split
        · simpa using hk
        · exact ihd hds fun c hc => by have := hh' c hc; omega
    · exact ih hcs

/-- A write of bytes keeps the canonical form. -/
theorem Mem.put_wf {m : Mem} (pa : Nat) (bs : List Byte) (d : Bool) (h : m.wf = true) : (m.put pa bs d).wf = true :=
  cellsPut_wf pa bs h

/-- A read of a byte after a write of bytes. -/
theorem Mem.byte_put {m : Mem} (pa x : Nat) (bs : List Byte) (d : Bool) (h : m.wf = true) :
    (m.put pa bs d).byte x = if pa ≤ x ∧ x < pa + bs.length then bs.getD (x - pa) 0 else m.byte x :=
  cellRead_cellsPut pa x bs h

/-- Counting transfers leaves memory alone. -/
@[simp] theorem State.beats_mem (s : State) (xs : List (Nat × Nat)) {w : Bool} : (s.beats xs w).mem = s.mem := by
  unfold State.beats
  generalize blocksOf xs = bs
  induction bs generalizing s with
  | nil => rfl
  | cons b bs ih => simp [List.foldl_cons, ih]

/-- Finding errors leaves the bytes alone. -/
@[simp] theorem State.findErrors_cells (s : State) (pa n src : Nat) : (s.findErrors pa n src).mem.cells = s.mem.cells := by
  unfold State.findErrors; split <;> rfl

/-- A read leaves the bytes alone. -/
@[simp] theorem State.sense_cells (s : State) (pa n : Nat) : (s.sense pa n).mem.cells = s.mem.cells := by
  simp [State.sense]

/-- A read in one access leaves the bytes alone. -/
@[simp] theorem State.touch_cells (s : State) (pa n : Nat) : (s.touch pa n).mem.cells = s.mem.cells := by
  simp [State.touch]

theorem State.sense_wf {s : State} (pa n : Nat) (h : s.mem.wf = true) : (s.sense pa n).mem.wf = true := by
  simpa [Mem.wf] using h

theorem State.touch_wf {s : State} (pa n : Nat) (h : s.mem.wf = true) : (s.touch pa n).mem.wf = true := by
  simpa [Mem.wf] using h

theorem State.lay_wf {s : State} (pa : Nat) (bs : List Byte) (d : Bool) (h : s.mem.wf = true) : (s.lay pa bs d).mem.wf = true :=
  Mem.put_wf pa bs d h

theorem State.store_wf {s : State} (pa : Nat) (bs : List Byte) (d : Bool) (h : s.mem.wf = true) : (s.store pa bs d).mem.wf = true :=
  Mem.put_wf pa bs d (by simpa using h)

/-- A flip of a publish page leaves the bytes alone. -/
theorem Mem.setFlip_wf {m : Mem} (b : Nat) (v : Bool) (h : m.wf = true) : (m.setFlip b v).wf = true := h

/-- INIT_COMPLETE keeps the canonical form. -/
theorem State.initDone_wf {s : State} (l : Nat) (h : s.mem.wf = true) : (s.initDone l).mem.wf = true := by
  unfold State.initDone
  cases hb : (s.landing l).ras.busy
  · simpa [hb] using h
  · simp only [hb, Bool.not_true, Bool.false_eq_true, if_false, State.modLanding_mem]
    exact cellsWf_filter _ h

end Sys2Proof.Machine
end

