-- ==== Sys2Proof/Laws/Issue.lean ====
section
/-! SUPPORT. What `issue` comes to, once for every instruction: where an instruction issues, its own meaning settled;
and how a completed instruction settles. -/

namespace Sys2Proof.Laws

open Sys2Proof.Machine

theorem setGroup_setGroup (s : State) (g h : Group) (hu : h.uid = g.uid) :
    (s.setGroup g).setGroup h = s.setGroup h := by
  simp only [State.setGroup, List.map_map]
  congr 1
  apply List.map_congr_left
  intro x _
  by_cases hx : x.uid = g.uid <;> simp [hx, hu]

theorem group?_uid {s : State} {u : Nat} {g : Group} (h : s.group? u = some g) : g.uid = u := by
  simpa using List.find?_some h

/-- A group put back is the one then found, if any is. -/
theorem group?_setGroup {s : State} {g h : Group} (hf : (s.setGroup g).group? g.uid = some h) : h = g := by
  have hu := group?_uid hf
  have hm := List.mem_of_find?_eq_some hf
  simp only [State.setGroup, List.mem_map] at hm
  obtain ⟨x, _, hx⟩ := hm
  split at hx
  · exact hx.symm
  · next hne => subst hx; exact absurd hu hne

@[simp] theorem advance_uid (g : Group) (i : Instr) : (g.advance i).uid = g.uid := rfl
@[simp] theorem advance_older (g : Group) (i : Instr) : (g.advance i).older = g.older := rfl
@[simp] theorem advance_frame (g : Group) (i : Instr) : (g.advance i).frame = g.frame := rfl
@[simp] theorem advance_fits (g : Group) (i : Instr) : (g.advance i).fits = g.fits := rfl
@[simp] theorem sticky_uid (g : Group) (x : Word) : (g.sticky x).uid = g.uid := rfl

theorem laStep_sticky (g : Group) (i : Instr) (b : Bool) : ∃ la x, g.laStep i b = { g with la := la, gstatus := x } := by
  unfold Group.laStep
  split
  · exact ⟨g.la, g.gstatus, rfl⟩
  · dsimp only
    split
    · exact ⟨_, _, rfl⟩
    · exact ⟨_, _, rfl⟩

theorem deadRead_sticky {s : State} {g g1 : Group} {xs : List (Nat × Nat)} (h : s.deadRead g xs = .ok g1) :
    ∃ x, g1 = { g with gstatus := x } := by
  cases xs with
  | nil => simp [State.deadRead] at h; exact ⟨g.gstatus, h.symm ▸ rfl⟩
  | cons a rest =>
    simp only [State.deadRead] at h
    split at h
    · cases h
    · simp only [Except.ok.injEq] at h; subst h; exact ⟨_, rfl⟩

/-- Issue changes only GSTATUS and the LA windows of its group. -/
theorem issues_group {i : Instr} {s s1 : State} {g : Group} {e : Env} (h : Issues i s s1 g e) :
    ∃ la x, e.g = { g with la := la, gstatus := x } := by
  obtain ⟨g1, h1, h2⟩ := h.reads
  obtain ⟨x, rfl⟩ := deadRead_sticky h1
  obtain ⟨la, y, hy⟩ := laStep_sticky { g with gstatus := x } i true
  exact ⟨la, y, h2.trans hy⟩

theorem issues_uid {i : Instr} {s s1 : State} {g : Group} {e : Env} (h : Issues i s s1 g e) : e.g.uid = g.uid := by
  obtain ⟨la, x, hx⟩ := (issues_group h); rw [hx]

theorem issues_frame {i : Instr} {s s1 : State} {g : Group} {e : Env} (h : Issues i s s1 g e) : e.g.frame = g.frame := by
  obtain ⟨la, x, hx⟩ := (issues_group h); rw [hx]

/-- Where an instruction issues, its own meaning is settled. -/
theorem issue_eq {i : Instr} {s s1 : State} {g : Group} {e : Env} (h : Issues i s s1 g e) (body : State → Env → R) :
    issue i s body = .next (settle s g e.g (body (s1.setGroup e.g) e)) := by
  obtain ⟨g1, h1, h2⟩ := h.reads
  have hact : g.guard i.g4 ≠ 0 := h.guard ▸ h.active
  obtain ⟨eg, ea, em⟩ := e
  simp only at h1 h2
  have hg : ea = g.guard i.g4 := h.guard
  subst h2
  simp only [issue, h.current, h.allowed, h.inFrame, h.manifest, if_neg hact, h1, hg]

/-- A completed instruction settles as it is when its group has room. -/
theorem settle_done {i : Instr} {s s1 : State} {g : Group} {e : Env} (h : Issues i s s1 g e) (g' : Group)
    (hu : g'.uid = g.uid) (hr : Room g') :
    settle s g e.g (done (s1.setGroup e.g) i g') = s1.setGroup (g'.advance i) := by
  have h1 : (s1.setGroup e.g).setGroup (g'.advance i) = s1.setGroup (g'.advance i) :=
    setGroup_setGroup _ _ _ (by rw [advance_uid, hu, issues_uid h])
  unfold settle done
  rw [h1]
  dsimp only
  split
  · next x hx =>
    have hx' : x = g'.advance i := group?_setGroup (by rw [advance_uid, hu]; exact hx)
    subst hx'
    have : ((g'.advance i).fits || (g'.advance i).older.isEmpty) = true := hr
    rw [if_pos this]
  · rfl

/-- Where an instruction issues and its effect is complete with room for it, `exec` gives the completed state. -/
theorem issue_done {i : Instr} {s s1 : State} {g : Group} {e : Env} (h : Issues i s s1 g e) (body : State → Env → R)
    (g' : Group) (hb : body (s1.setGroup e.g) e = done (s1.setGroup e.g) i g') (hu : g'.uid = g.uid) (hr : Room g') :
    issue i s body = .next (s1.setGroup (g'.advance i)) := by
  rw [issue_eq h, hb, settle_done h g' hu hr]

end Sys2Proof.Laws
end

