-- ==== Sys2Proof/Laws/Regs.lean ====
section
/-! SUPPORT. Registers: masks, the register file, what a write of a v register leaves (03 R57), what it costs the window
store (03 R59), and from them the completion of an instruction that writes registers. -/

namespace Sys2Proof.Laws

open Sys2Proof.Machine

theorem foldl_bits_lt (f : Nat → Bool) (n : Nat) :
    (List.range n).foldl (fun a i => if f i then a + 2 ^ i else a) 0 < 2 ^ n := by
  induction n with
  | zero => simp
  | succ n ih => rw [List.range_succ, List.foldl_append]; simp only [List.foldl]; split <;> rw [pow_succ] <;> omega

theorem foldl_bits_testBit (f : Nat → Bool) (n j : Nat) :
    ((List.range n).foldl (fun a i => if f i then a + 2 ^ i else a) 0).testBit j = (decide (j < n) && f j) := by
  induction n with
  | zero => simp
  | succ n ih =>
    rw [List.range_succ, List.foldl_append]
    simp only [List.foldl]
    have hlt := foldl_bits_lt f n
    rcases Nat.lt_trichotomy j n with hj | rfl | hj
    · have : (if f n = true then (List.range n).foldl (fun a i => if f i then a + 2 ^ i else a) 0 + 2 ^ n
          else (List.range n).foldl (fun a i => if f i then a + 2 ^ i else a) 0).testBit j =
          ((List.range n).foldl (fun a i => if f i then a + 2 ^ i else a) 0).testBit j := by
        split
        · rw [Nat.add_comm, Nat.testBit_two_pow_add_gt hj]
        · rfl
      rw [this, ih]; simp [hj, Nat.lt_succ_of_lt hj]
    · split
      · next h => rw [Nat.add_comm, Nat.testBit_two_pow_add_eq, ih]; simp [h]
      · next h => rw [ih]; simp [h]
    · rw [Nat.testBit_lt_two_pow]
      · simp; omega
      · calc _ < 2 ^ (n + 1) := by split <;> rw [pow_succ] <;> omega
          _ ≤ 2 ^ j := Nat.pow_le_pow_right (by omega) hj

/-- A mask of a test holds where the test does. -/
@[simp] theorem maskOf_getLsbD (f : Nat → Bool) (i : Nat) : (maskOf f).getLsbD i = (decide (i < 32) && f i) := by
  rw [maskOf, BitVec.getLsbD_ofNat, foldl_bits_testBit]; by_cases h : i < 32 <;> simp [h]

theorem getLsbD_lt {m : Mask} {i : Nat} (h : m.getLsbD i = true) : i < 32 := by
  by_contra hc; rw [BitVec.getLsbD_of_ge _ _ (by omega)] at h; cases h

theorem mem_lanesOf {m : Mask} {i : Nat} : i ∈ lanesOf m ↔ m.getLsbD i = true := by
  simp only [lanesOf, List.mem_filter, List.mem_range]
  exact ⟨fun h => h.2, fun h => ⟨getLsbD_lt h, h⟩⟩

theorem fileSet_get {α : Type} (k : Nat) (xs : List (Option α)) (n m : Nat) (r : Option α) (hn : n < k) (hm : m < k) :
    (fileSet k xs n r).getD m none = if m = n then r else xs.getD m none := by
  simp only [fileSet, List.getD_eq_getElem?_getD, List.getElem?_set, List.getElem?_take, List.length_take,
    List.length_append, List.length_replicate]
  split
  · next h => subst h; rw [if_pos rfl, if_pos (by omega)]; rfl
  · next h =>
    rw [if_neg (fun h' => h h'.symm)]
    rw [List.getElem?_append]
    split
    · rfl
    · next hx =>
      rw [List.getElem?_eq_none (by omega : xs.length ≤ m), List.getElem?_replicate]
      split <;> rfl

theorem reg?_setReg (f : Frame) (n m : Nat) (r : Option VReg) (hn : n < 64) (hm : m < 64) :
    (f.setReg n r).reg? m = if m = n then r else f.reg? m := fileSet_get 64 f.v n m r hn hm

/-- A written register, lane by lane (03 R57). -/
structure WroteReg (old : Option VReg) (r : VReg) (amask act : Mask) (w : LaneWrite) : Prop where
  value : ∀ l, act.getLsbD l = true → r.val.lane l = w.val l
  poison : ∀ l, act.getLsbD l = true → r.bad l = w.bad l
  partly : act ≠ amask → HasForm (some r) .g
  full : act = amask → HasForm (some r) w.form
  all : act = amask → w.form ≠ .g → ∀ l < 32, r.val.lane l = w.val l ∧ r.bad l = w.bad l
  kept : (act ≠ amask ∨ w.form = .g) → ∀ l < 32, act.getLsbD l = false →
    r.val.lane l = ((old.map fun r => r.val.lane l).getD 0) ∧ r.bad l = ((old.map fun r => r.bad l).getD false)

/-- The lanes of a write agree with the form it asks for. -/
def FormOk (w : LaneWrite) : Prop :=
  match w.form with
  | .u => ∀ l < 32, w.val l = w.val 0
  | .a b st => ∀ l < 32, w.val l = b + BitVec.ofNat 32 l * st
  | .g => True

theorem writeReg_spec (old : Option VReg) (amask act : Mask) (w : LaneWrite) (hw : FormOk w) :
    WroteReg old (writeReg old amask act w) amask act w := by
  have merged : WroteReg old
      ⟨.g ((List.range 32).map fun i => if act.getLsbD i then w.val i else (old.map fun r => r.val.lane i).getD 0),
      maskOf fun i => if act.getLsbD i then w.bad i else (old.map fun r => r.bad i).getD false⟩ amask act
      ⟨.g, w.val, w.bad⟩ := by
    constructor
    · intro l hl; have := getLsbD_lt hl; simp [Val.lane, this, hl]
    · intro l hl; have := getLsbD_lt hl
      simp only [VReg.bad, maskOf_getLsbD, hl, if_true, decide_eq_true this, Bool.true_and]
    · intro _; exact ⟨_, _, rfl⟩
    · intro _; exact ⟨_, _, rfl⟩
    · intro _ h; exact absurd rfl h
    · intro _ l hl hn
      refine ⟨?_, ?_⟩
      · show ((List.range 32).map _).getD l 0 = _
        rw [List.getD_eq_getElem?_getD, List.getElem?_map, List.getElem?_range hl]
        simp only [Option.map_some, Option.getD_some, hn, Bool.false_eq_true, if_false]
      · simp only [VReg.bad, maskOf_getLsbD, hn, Bool.false_eq_true, if_false, decide_eq_true hl, Bool.true_and]
  obtain ⟨form, val, bad⟩ := w
  unfold writeReg
  by_cases ha : act = amask
  · cases form with
    | g => simpa [ha] using merged
    | u =>
      simp only [ha, if_pos]
      have hv : ∀ l < 32, val l = val 0 := hw
      refine ⟨fun l hl => (hv l (getLsbD_lt hl)).symm, fun l hl => ?_, fun h => absurd rfl h, fun _ => ⟨_, _, rfl⟩,
        fun _ _ l hl => ⟨(hv l hl).symm, by rw [VReg.bad, maskOf_getLsbD, decide_eq_true hl, Bool.true_and]⟩, fun h => ?_⟩
      · rw [VReg.bad, maskOf_getLsbD, decide_eq_true (getLsbD_lt hl), Bool.true_and]
      · rcases h with h | h
        · exact absurd rfl h
        · cases h
    | a b st =>
      simp only [ha, if_pos]
      have hv : ∀ l < 32, val l = b + BitVec.ofNat 32 l * st := hw
      refine ⟨fun l hl => (hv l (getLsbD_lt hl)).symm, fun l hl => ?_, fun h => absurd rfl h, fun _ => ⟨_, rfl⟩,
        fun _ _ l hl => ⟨(hv l hl).symm, by rw [VReg.bad, maskOf_getLsbD, decide_eq_true hl, Bool.true_and]⟩, fun h => ?_⟩
      · rw [VReg.bad, maskOf_getLsbD, decide_eq_true (getLsbD_lt hl), Bool.true_and]
      · rcases h with h | h
        · exact absurd rfl h
        · cases h
  · simp only [if_neg ha]
    exact ⟨merged.value, merged.poison, merged.partly, fun h => absurd h ha, fun h => absurd h ha,
      fun _ => merged.kept (.inl ha)⟩

/-- One register written is what `Wrote` says of it. -/
theorem wrote_one {f : Frame} {amask act : Mask} {d : Nat} (hd : d < 64) {form : DForm} {val : Nat → Nat → Word}
    {bad : Nat → Nat → Bool} (hw : FormOk ⟨form, val d, bad d⟩) :
    Wrote f (f.write amask act d ⟨form, val d, bad d⟩) amask act ⟨[d], form, val, bad⟩ := by
  have h := writeReg_spec (f.reg? d) amask act ⟨form, val d, bad d⟩ hw
  have hr : (f.write amask act d ⟨form, val d, bad d⟩).reg? d = some (writeReg (f.reg? d) amask act ⟨form, val d, bad d⟩) := by
    rw [Frame.write, reg?_setReg _ _ _ _ hd hd, if_pos rfl]
  constructor
  all_goals try simp only [List.mem_singleton, forall_eq, Frame.lane, Frame.bad, hr]
  · exact h.value
  · exact h.poison
  · exact h.partly
  · exact h.full
  · exact h.all
  · exact h.kept
  · intro r hr hne; rw [Frame.write, reg?_setReg _ _ _ _ hd hr, if_neg hne]
  · rfl

/-- A second register written after the first. -/
theorem wrote_snoc {f f1 : Frame} {amask act : Mask} {ds : List Nat} {d : Nat} (hd : d < 64) (hds : ∀ x ∈ ds, x < 64)
    (hne : d ∉ ds) {form : DForm} {val : Nat → Nat → Word} {bad : Nat → Nat → Bool}
    (h1 : Wrote f f1 amask act ⟨ds, form, val, bad⟩) (hw : FormOk ⟨form, val d, bad d⟩) :
    Wrote f (f1.write amask act d ⟨form, val d, bad d⟩) amask act ⟨ds ++ [d], form, val, bad⟩ := by
  have h2 := wrote_one (f := f1) (amask := amask) (act := act) hd hw
  have keep : ∀ x ∈ ds, (f1.write amask act d ⟨form, val d, bad d⟩).reg? x = f1.reg? x := fun x hx =>
    h2.others x (hds x hx) (by simp; rintro rfl; exact hne hx)
  have same : f1.reg? d = f.reg? d := h1.others d hd hne
  have split (P : Nat → Prop) (ha : ∀ x ∈ ds, P x) (hb : P d) : ∀ x ∈ ds ++ [d], P x := by
    intro x hx; rcases List.mem_append.1 hx with h | h
    · exact ha x h
    · rw [List.mem_singleton.1 h]; exact hb
  have mem : d ∈ [d] := List.mem_singleton.2 rfl
  constructor
  · refine split _ (fun x hx l hl => ?_) (h2.value d mem)
    simp only [Frame.lane, keep x hx]; exact h1.value x hx l hl
  · refine split _ (fun x hx l hl => ?_) (h2.poison d mem)
    simp only [Frame.bad, keep x hx]; exact h1.poison x hx l hl
  · exact fun h => split _ (fun x hx => by rw [keep x hx]; exact h1.partly h x hx) (h2.partly h d mem)
  · exact fun h => split _ (fun x hx => by rw [keep x hx]; exact h1.full h x hx) (h2.full h d mem)
  · refine fun h h' => split _ (fun x hx => ?_) (h2.all h h' d mem)
    simp only [Frame.lane, Frame.bad, keep x hx]; exact h1.all h h' x hx
  · refine fun h => split _ (fun x hx => ?_) ?_
    · simp only [Frame.lane, Frame.bad, keep x hx]; exact h1.kept h x hx
    · have := h2.kept h d mem
      simp only [Frame.lane, Frame.bad, same] at this ⊢; exact this
  · intro r hr hn
    simp only [List.mem_append, List.mem_singleton, not_or] at hn
    rw [h2.others r hr (by simpa using hn.2), h1.others r hr hn.1]
  · have := h1.rest
    simp only [Frame.write, Frame.setReg]
    exact this

/-- An aligned pair written is what `Wrote` says of it. -/
theorem wrote_pair {f : Frame} {amask act : Mask} {d : Nat} (hd : d + 1 < 64) {form : DForm} {val : Nat → DWord}
    {bad : Nat → Bool} (hlo : FormOk ⟨form, fun l => (val l).setWidth 32, bad⟩)
    (hhi : FormOk ⟨form, fun l => (val l >>> 32).setWidth 32, bad⟩) :
    Wrote f (pairFrame f amask act d form val bad) amask act ⟨[d, d + 1], form, pairWords d val, fun _ => bad⟩ := by
  have e0 : pairWords d val d = fun l => (val l).setWidth 32 := by funext l; simp [pairWords]
  have e1 : pairWords d val (d + 1) = fun l => (val l >>> 32).setWidth 32 := by funext l; simp [pairWords]
  have h1 := wrote_one (f := f) (amask := amask) (act := act) (d := d) (form := form) (val := pairWords d val)
    (bad := fun _ => bad) (by omega) (by rw [e0]; exact hlo)
  have h2 := wrote_snoc (d := d + 1) hd (by simp; omega) (by simp) h1 (by rw [e1]; exact hhi)
  rw [e0, e1] at h2
  exact h2

/-- A U source reads the same in every lane (03 R51). -/
theorem lane_isU {f : Frame} {r : Nat} (h : f.isU r = true) (l : Nat) : f.lane r l = f.lane r 0 := by
  unfold Frame.isU at h
  unfold Frame.lane
  split at h
  · next hn => simp [hn]
  · next x hx =>
    rw [hx]; split at h
    · next w hw => simp [hw, Val.lane]
    · cases h

/-- Under the "all other" row, a result that is a function of the sources' lanes has the form it asks for. -/
theorem formOk_other {f : Frame} {srcs : List Nat} {val : Nat → Word} {bad : Nat → Bool}
    (h : (∀ r ∈ srcs, ∀ l, f.lane r l = f.lane r 0) → ∀ l, val l = val 0) : FormOk ⟨f.formOther srcs, val, bad⟩ := by
  unfold FormOk Frame.formOther
  by_cases hu : srcs.all f.isU = true
  · simp only [if_pos hu]
    exact fun l _ => h (fun r hr => lane_isU (List.all_eq_true.1 hu r hr)) l
  · simp only [if_neg hu]

/-- A register costs the window store no more than another. -/
def RegLe (x y : Option VReg) : Prop :=
  (x.map VReg.slots).getD 0 ≤ (y.map VReg.slots).getD 0 ∧ (x.isSome → y.isSome)

/-- A register that is present where another is. -/
def SomeLe {α : Type} (x y : Option α) : Prop := x.isSome → y.isSome

theorem regLe_filled (x : Option VReg) : RegLe x (some ⟨.g (List.replicate 32 0), 0⟩) := by
  refine ⟨?_, fun _ => rfl⟩
  cases x with
  | none => simp
  | some r => simp only [Option.map_some, Option.getD_some, VReg.slots]; split <;> omega

theorem forall₂_fileSet {α : Type} {R : Option α → Option α → Prop} (h0 : R none none) {xs ys : List (Option α)}
    (h : List.Forall₂ R xs ys) (k n : Nat) {r r' : Option α} (hr : R r r') :
    List.Forall₂ R (fileSet k xs n r) (fileSet k ys n r') := by
  have hl : List.Forall₂ R (xs ++ List.replicate k none) (ys ++ List.replicate k none) :=
    List.rel_append h (by induction k with
      | zero => exact .nil
      | succ k ih => rw [List.replicate_succ]; exact .cons h0 ih)
  have ht := List.forall₂_take k hl
  unfold fileSet
  generalize List.take k (xs ++ List.replicate k none) = a at ht ⊢
  generalize List.take k (ys ++ List.replicate k none) = b at ht ⊢
  induction ht generalizing n with
  | nil => exact .nil
  | cons hx _ ih =>
    cases n with
    | zero => exact .cons hr ‹_›
    | succ n => exact .cons hx (ih n)

/-- A frame costs the window store no more than another. -/
structure Cheaper (f f' : Frame) : Prop where
  v : List.Forall₂ RegLe f.v f'.v
  p : List.Forall₂ SomeLe f.p f'.p
  h : List.Forall₂ SomeLe f.h f'.h

theorem forall₂_self {α : Type} {R : α → α → Prop} (h : ∀ x, R x x) (xs : List α) : List.Forall₂ R xs xs := by
  induction xs with
  | nil => exact .nil
  | cons x xs ih => exact .cons (h x) ih

theorem Cheaper.refl (f : Frame) : Cheaper f f :=
  ⟨forall₂_self (fun _ => ⟨le_rfl, id⟩) _, forall₂_self (fun _ => id) _, forall₂_self (fun _ => id) _⟩

theorem filter_isSome_le {α : Type} {xs ys : List (Option α)} (h : List.Forall₂ SomeLe xs ys) :
    (xs.filter Option.isSome).length ≤ (ys.filter Option.isSome).length := by
  induction h with
  | nil => simp
  | @cons a b _ _ hx _ ih =>
    cases a <;> cases b <;> simp_all [SomeLe]; omega

theorem sum_slots_le {xs ys : List (Option VReg)} (h : List.Forall₂ RegLe xs ys) :
    (xs.map fun r => (r.map VReg.slots).getD 0).sum ≤ (ys.map fun r => (r.map VReg.slots).getD 0).sum := by
  induction h with
  | nil => simp
  | cons hx _ ih => simp only [List.map_cons, List.sum_cons]; exact Nat.add_le_add hx.1 ih

theorem forall₂_someLe {xs ys : List (Option VReg)} (h : List.Forall₂ RegLe xs ys) : List.Forall₂ SomeLe xs ys :=
  h.imp fun _ _ h => h.2

theorem entries_le {f f' : Frame} (h : Cheaper f f') : f.entries ≤ f'.entries := by
  have := filter_isSome_le (forall₂_someLe h.v); have := filter_isSome_le h.p; have := filter_isSome_le h.h
  unfold Frame.entries; omega

theorem slots_le {f f' : Frame} (h : Cheaper f f') : f.slots ≤ f'.slots := by
  have := sum_slots_le h.v; have := filter_isSome_le h.p; have := filter_isSome_le h.h
  unfold Frame.slots; omega

/-- A group whose frame costs no more than one that has room has room. -/
theorem room_cheaper {g g' : Group} (h : Cheaper g'.frame g.frame) (ho : g'.older = g.older) (hr : Room g) : Room g' := by
  have he := entries_le h
  have hs := slots_le h
  simp only [Room, Group.fits, Bool.or_eq_true, Bool.and_eq_true, decide_eq_true_eq, ho, List.map_cons,
    List.sum_cons] at hr ⊢
  rcases hr with ⟨h1, h2⟩ | h
  · exact .inl ⟨by omega, by omega⟩
  · exact .inr h

theorem cheaper_setReg {f f' : Frame} (h : Cheaper f f') (d : Nat) (r : Option VReg) :
    Cheaper (f.setReg d r) (f'.setReg d (some ⟨.g (List.replicate 32 0), 0⟩)) :=
  ⟨forall₂_fileSet ⟨le_rfl, id⟩ h.v 64 d (regLe_filled r), h.p, h.h⟩

theorem cheaper_writePred {f f' : Frame} (h : Cheaper f f') (act : Mask) (d : Nat) (x : Mask) :
    Cheaper (f.writePred act d x) (f'.writePred 0 d 0) := by
  unfold Frame.writePred
  split
  · exact h
  · exact ⟨h.v, forall₂_fileSet (R := SomeLe) id h.p 8 d (fun _ => rfl), h.h⟩

theorem cheaper_setHandle {f f' : Frame} (h : Cheaper f f') (d : Nat) (x : BitVec 256) :
    Cheaper (f.setHandle d x) (f'.setHandle d 0) :=
  ⟨h.v, h.p, forall₂_fileSet (R := SomeLe) id h.h 8 d (fun _ => rfl)⟩

/-- An instruction whose meaning completes with a frame that `Wrote` describes does what `Writes` says. -/
theorem writes_of {i : Instr} {body : State → Env → R} {eff : State → Env → Effect} (hx : exec i = fun s => issue i s body)
    (frame : State → Env → Frame)
    (hb : ∀ s e, body s e = done s i { e.g with frame := frame s e })
    (hf : ∀ s e, frame (s.setGroup e.g) e = frame s e)
    (hw : ∀ s e, Wrote e.g.frame (frame s e) e.g.active e.act (eff s e))
    (hc : ∀ s e, Cheaper (frame s e) (filled e.g (eff s e).regs [] []).frame) : Writes i eff := by
  intro s s1 g e h hr
  refine ⟨frame s1 e, hw s1 e, ?_⟩
  rw [hx]
  have hb' : body (s1.setGroup e.g) e = done (s1.setGroup e.g) i { e.g with frame := frame s1 e } := by rw [hb, hf]
  have h0 : e.g.gstatus ||| (0 : Word) = e.g.gstatus := by simp
  unfold after
  rw [h0]
  exact issue_done h body { e.g with frame := frame s1 e } hb' (issues_uid h)
    (room_cheaper (g := filled e.g (eff s1 e).regs [] []) (hc s1 e) rfl hr)

end Sys2Proof.Laws
end

