-- ==== Sys2Proof/Laws/Translate.lean ====
section
/-! SUPPORT. What a translation, an instruction fetch and a manifest read change: memory and the landings alone; and from
it, how an instruction that traps settles. -/

namespace Sys2Proof.Laws

open Sys2Proof.Machine

/-- `t` is `s` but for its memory and its landings. -/
def Walked (s t : State) : Prop := ∃ m ls, t = { s with mem := m, landings := ls }

theorem Walked.refl (s : State) : Walked s s := ⟨s.mem, s.landings, rfl⟩

theorem Walked.trans {s t u : State} (h : Walked s t) (k : Walked t u) : Walked s u := by
  obtain ⟨m, ls, rfl⟩ := h
  obtain ⟨m', ls', rfl⟩ := k
  exact ⟨m', ls', rfl⟩

theorem Walked.groups {s t : State} (h : Walked s t) : t.groups = s.groups := by obtain ⟨m, ls, rfl⟩ := h; rfl
theorem Walked.ctx {s t : State} (h : Walked s t) (n : Nat) : t.ctx n = s.ctx n := by obtain ⟨m, ls, rfl⟩ := h; rfl
theorem Walked.group? {s t : State} (h : Walked s t) (n : Nat) : t.group? n = s.group? n := by
  obtain ⟨m, ls, rfl⟩ := h; rfl

theorem walked_modLanding (s : State) (l : Nat) (f : Landing → Landing) : Walked s (s.modLanding l f) :=
  ⟨s.mem, _, rfl⟩

theorem walked_foldl {α : Type} (f : State → α → State) (hf : ∀ s x, Walked s (f s x)) (xs : List α) (s : State) :
    Walked s (xs.foldl f s) := by
  induction xs generalizing s with
  | nil => exact Walked.refl s
  | cons x xs ih => exact (hf s x).trans (ih _)

theorem walked_beats (s : State) (xs : List (Nat × Nat)) (w : Bool) : Walked s (s.beats xs w) :=
  walked_foldl _ (fun s _ => walked_modLanding s _ _) _ _

theorem walked_mem (s : State) (m : Mem) : Walked s { s with mem := m } := ⟨m, s.landings, rfl⟩

theorem walked_findErrors (s : State) (pa n src : Nat) : Walked s (s.findErrors pa n src) := by
  unfold State.findErrors
  split
  · exact Walked.refl s
  · exact (walked_modLanding s _ _).trans (walked_mem _ _)

/-- An access that reads changes memory (the errors it finds) and the landings (the transfers) alone. -/
theorem walked_touch (s : State) (pa n : Nat) : Walked s (s.touch pa n) :=
  (walked_beats s _ _).trans ((walked_findErrors _ _ _ _).trans (walked_mem _ _))

theorem walked_store (s : State) (pa : Nat) (bs : List Byte) (d : Bool) : Walked s (s.store pa bs d) :=
  (walked_beats s _ _).trans (walked_mem _ _)

theorem walked_walkSense (s : State) (l ctx va : Nat) : Walked s (s.walkSense l ctx va) :=
  walked_foldl _ (fun s a => walked_touch s a 8) _ _

theorem walked_setAD (s : State) (f : Leaf) (w : Bool) : Walked s (s.setAD f w) := by
  simp only [State.setAD]
  by_cases h : (s.mem.num f.pte 8 ||| 0x600) = (f.e ||| 0x600) ∧
      s.mem.num f.pte 8 ≠ (s.mem.num f.pte 8 ||| if w = true then 0x600 else 0x200)
  · rw [if_pos h]; exact (walked_beats s _ _).trans (walked_store _ _ _ _)
  · rw [if_neg h]; exact Walked.refl s

theorem walked_markDirty (s : State) (f : Leaf) (w : Bool) : Walked s (s.markDirty f w) := by
  unfold State.markDirty
  split
  · exact walked_setAD s f w
  · exact Walked.refl s

theorem walked_cacheLeaf (s : State) (l ctx va : Nat) (core : Option Nat) (f : Leaf) : Walked s (s.cacheLeaf l ctx va core f) :=
  walked_modLanding s l _

theorem walked_fillTlb (s : State) (l ctx va : Nat) (f : Leaf) : Walked s (s.fillTlb l ctx va f) := by
  unfold State.fillTlb
  split
  · exact Walked.refl s
  · exact walked_cacheLeaf _ _ _ _ _ _

theorem walked_walkLeaf {s t : State} {l ctx va : Nat} {w : Bool} {r : Except TFault Leaf} {f : Leaf}
    (h : s.walkLeaf l ctx va w r = .ok (f, t)) : Walked s t := by
  unfold State.walkLeaf at h
  split at h
  · cases h
  · simp only [Except.ok.injEq, Prod.mk.injEq] at h
    obtain ⟨_, rfl⟩ := h
    exact (((walked_walkSense s _ _ _).trans (walked_setAD _ _ w)).trans (walked_cacheLeaf _ _ _ _ _ _)).trans (walked_fillTlb _ _ _ _ _)

theorem walked_leafFor {s t : State} {l ctx va : Nat} {w : Bool} {f : Leaf} (h : s.leafFor l ctx va w = .ok (f, t)) :
    Walked s t := by
  unfold State.leafFor at h
  dsimp only at h
  split at h
  · simp only [Except.ok.injEq, Prod.mk.injEq] at h; obtain ⟨_, rfl⟩ := h; exact walked_markDirty s _ w
  · split at h
    · simp only [Except.ok.injEq, Prod.mk.injEq] at h; obtain ⟨_, rfl⟩ := h
      exact (walked_markDirty s _ w).trans (walked_fillTlb _ _ _ _ _)
    · exact walked_walkLeaf h

/-- A translation changes memory (A and D bits) and the landings (cached leaves) alone (19 R378, R380). -/
theorem walked_translate {s t : State} {l ctx va : Nat} {a : Access} {x : Loc} (h : s.translate l ctx va a = .ok (x, t)) :
    Walked s t := by
  unfold State.translate at h
  dsimp only at h
  split at h
  · cases h
  · split at h
    · split at h
      · simp only [Except.ok.injEq, Prod.mk.injEq] at h; obtain ⟨_, rfl⟩ := h; exact Walked.refl s
      · cases h
    · split at h
      · cases h
      · next f s' hf =>
        split at h
        · simp only [Except.ok.injEq, Prod.mk.injEq] at h; obtain ⟨_, rfl⟩ := h; exact walked_leafFor hf
        · cases h

theorem walked_fetchHalf {s t : State} {g : Group} {va : Nat} {x : BitVec 16} (h : s.fetchHalf g va = .ok (x, t)) :
    Walked s t := by
  unfold State.fetchHalf at h
  split at h
  · cases h
  · next loc s1 hs =>
    simp only [Except.ok.injEq, Prod.mk.injEq] at h
    obtain ⟨_, rfl⟩ := h
    refine (walked_translate hs).trans (Walked.trans ?_ (walked_modLanding _ _ _))
    split
    · exact Walked.refl _
    · exact walked_touch _ _ _

theorem walked_fetch {s t : State} {g : Group} {n va x : Nat} (h : s.fetch g n va = .ok (x, t)) : Walked s t := by
  induction n generalizing s va x t with
  | zero => simp only [State.fetch, Except.ok.injEq, Prod.mk.injEq] at h; obtain ⟨_, rfl⟩ := h; exact Walked.refl s
  | succ n ih =>
    simp only [State.fetch] at h
    split at h
    · cases h
    · next w s1 h1 =>
      split at h
      · cases h
      · next y s2 h2 =>
        simp only [Except.ok.injEq, Prod.mk.injEq] at h; obtain ⟨_, rfl⟩ := h
        exact (walked_fetchHalf h1).trans (ih h2)

theorem walked_manifest {s t : State} {g : Group} {ls : Nat} {m : Manifest} (h : s.manifest g ls = .ok m t) :
    Walked s t := by
  unfold State.manifest at h
  split at h
  · simp only [ManifestRead.ok.injEq] at h; obtain ⟨_, rfl⟩ := h; exact Walked.refl s
  · split at h
    · cases h
    · split at h
      · cases h
      · next x s1 h1 =>
        split at h
        · cases h
        · simp only [ManifestRead.ok.injEq] at h; obtain ⟨_, rfl⟩ := h; exact walked_fetch h1

/-- The translation of lanes changes memory and the landings alone. -/
theorem walked_lanes (s : State) (l ctx : Nat) (a : Access) (xs : List (Nat × Nat)) :
    Walked s (s.translateLanes l ctx a xs).s := by
  induction xs generalizing s with
  | nil => exact Walked.refl s
  | cons p rest ih =>
    obtain ⟨i, va⟩ := p
    simp only [State.translateLanes]
    split
    · next x s' h => exact (walked_translate h).trans (ih s')
    · exact ih s
    · exact ih s

/-- The issuing group stands in the state after its manifest read. -/
theorem issues_found {i : Instr} {s s1 : State} {g : Group} {e : Env} (h : Issues i s s1 g e) :
    s1.group? g.uid = some g := by
  have hg := h.current
  have hu : g.uid = s.cur := group?_uid hg
  rw [(walked_manifest h.manifest).group?, hu]
  exact hg

theorem group?_setGroup_self {s : State} {g h : Group} (hf : s.group? g.uid = some h) : (s.setGroup g).group? g.uid = some g := by
  unfold State.group? State.setGroup at *
  simp only [List.find?_map]
  have : ((fun x : Group => x.uid == g.uid) ∘ fun x : Group => if x.uid = g.uid then g else x) = fun x => x.uid == g.uid := by
    funext x; simp only [Function.comp]; split <;> simp_all
  rw [this, hf]
  have hu : h.uid = g.uid := by simpa using List.find?_some hf
  simp [hu]

/-- A group put back is found. -/
theorem issues_put {i : Instr} {s s1 : State} {g g' : Group} {e : Env} (h : Issues i s s1 g e) (hu : g'.uid = g.uid) :
    (s1.setGroup g').group? g.uid = some g' := by
  have := issues_found h
  rw [← hu] at this ⊢
  exact group?_setGroup_self this

theorem setGroup_modGroup (s : State) (g : Group) (f : Group → Group) (hf : (f g).uid = g.uid) :
    (s.setGroup g).modGroup g.uid f = s.setGroup (f g) := by
  unfold State.setGroup State.modGroup
  simp only [List.map_map]
  congr 1
  apply List.map_congr_left
  intro x _
  simp only [Function.comp]
  by_cases hx : x.uid = g.uid
  · simp [hx, hf]
  · simp [hx, hf]

theorem undo_word (a b x : Word) (hx : x &&& 0x60 = 0) (hb : ∃ y, b = a ||| y ∧ y &&& ~~~(0x60 : Word) = 0) :
    (b ||| x) &&& ~~~(b &&& ~~~a) = a ||| x := by
  obtain ⟨y, rfl, hy⟩ := hb
  apply BitVec.eq_of_getLsbD_eq
  intro k hk
  have h1 := congrArg (fun w : Word => w.getLsbD k) hx
  have h2 := congrArg (fun w : Word => w.getLsbD k) hy
  simp only [BitVec.getLsbD_and, BitVec.getLsbD_not, BitVec.getLsbD_or, hk, decide_true,
    Bool.true_and] at h1 h2 ⊢
  revert h1 h2
  generalize a.getLsbD k = p; generalize x.getLsbD k = q; generalize y.getLsbD k = r
  generalize BitVec.getLsbD (0x60 : Word) k = c
  cases p <;> cases q <;> cases r <;> cases c <;> simp

theorem laStep_bits (g : Group) (i : Instr) (b : Bool) :
    ∃ la y, g.laStep i b = { g with la := la, gstatus := g.gstatus ||| y } ∧ y &&& ~~~(0x60 : Word) = 0 := by
  unfold Group.laStep
  split
  · exact ⟨g.la, 0, by simp, by decide⟩
  · dsimp only
    split
    · exact ⟨_, LAVIOL, rfl, by decide⟩
    · have key (la : List LaWindow) : ({ g with la := la } : Group) = { g with la := la, gstatus := g.gstatus ||| (0 : Word) } := by simp
      exact ⟨_, 0, key _, by decide⟩

/-- Issue sets no bit of GSTATUS but DEADRD and LAVIOL. -/
theorem issues_bits {i : Instr} {s s1 : State} {g : Group} {e : Env} (h : Issues i s s1 g e) :
    ∃ la y, e.g = { g with la := la, gstatus := g.gstatus ||| y } ∧ y &&& ~~~(0x60 : Word) = 0 := by
  obtain ⟨g1, h1, h2⟩ := h.reads
  have hd : ∃ y, g1 = { g with gstatus := g.gstatus ||| y } ∧ y &&& ~~~(0x60 : Word) = 0 := by
    revert h1
    cases g.absentReads i with
    | nil => intro h1; simp only [State.deadRead, Except.ok.injEq] at h1; exact ⟨0, by simp [h1], by decide⟩
    | cons a rest =>
      intro h1
      simp only [State.deadRead] at h1
      split at h1
      · cases h1
      · simp only [Except.ok.injEq] at h1; exact ⟨DEADRD, h1.symm, by decide⟩
  obtain ⟨y, rfl, hy⟩ := hd
  obtain ⟨la, z, hz, hz'⟩ := laStep_bits { g with gstatus := g.gstatus ||| y } i true
  refine ⟨la, y ||| z, ?_, ?_⟩
  · rw [h2, hz, BitVec.or_assoc]
  · rw [BitVec.and_comm, BitVec.and_or_distrib_left, BitVec.and_comm _ y, BitVec.and_comm _ z, hy, hz']; rfl

/-- A trap with sticky bits of its own settles as `trapped` says. -/
theorem settle_trap {i : Instr} {s s1 : State} {g : Group} {e : Env} (h : Issues i s s1 g e) (st : Word) (hst : st &&& 0x60 = 0)
    (t : Trap) : settle s g e.g (.trap ((s1.setGroup e.g).setGroup { e.g with gstatus := e.g.gstatus ||| st }) t) =
      trapped s1 g st t := by
  obtain ⟨la, y, he, hy⟩ := issues_bits h
  have hu : e.g.uid = g.uid := issues_uid h
  have e1 : (s1.setGroup e.g).setGroup { e.g with gstatus := e.g.gstatus ||| st } =
      s1.setGroup { e.g with gstatus := e.g.gstatus ||| st } := setGroup_setGroup _ _ _ rfl
  have e2 : g.undo e.g { e.g with gstatus := e.g.gstatus ||| st } = { g with gstatus := g.gstatus ||| st } := by
    unfold Group.undo
    have := undo_word g.gstatus e.g.gstatus st hst ⟨y, by rw [he], hy⟩
    rw [show (({ e.g with gstatus := e.g.gstatus ||| st } : Group).gstatus) = e.g.gstatus ||| st from rfl, this, he]
  unfold settle
  dsimp only
  rw [e1]
  have e3 : (s1.setGroup { e.g with gstatus := e.g.gstatus ||| st }).modGroup g.uid (g.undo e.g) =
      s1.setGroup { g with gstatus := g.gstatus ||| st } := by
    have := setGroup_modGroup s1 { e.g with gstatus := e.g.gstatus ||| st } (g.undo e.g) (by rw [e2]; exact hu.symm)
    rw [show (({ e.g with gstatus := e.g.gstatus ||| st } : Group).uid) = g.uid from hu] at this
    rw [this, e2]
  rw [e3, issues_put h (g' := { g with gstatus := g.gstatus ||| st }) rfl]
  rfl

/-- A plain trap settles as `trapped` says. -/
theorem settle_trap0 {i : Instr} {s s1 : State} {g : Group} {e : Env} (h : Issues i s s1 g e) (t : Trap) :
    settle s g e.g (.trap (s1.setGroup e.g) t) = trapped s1 g 0 t := by
  have := settle_trap h 0 (by decide) t
  have hz : ({ e.g with gstatus := e.g.gstatus ||| (0 : Word) } : Group) = e.g := by simp
  rw [hz, setGroup_setGroup _ _ _ rfl] at this
  exact this

end Sys2Proof.Laws
end

