-- ==== Sys2Proof/Laws/Lanes.lean ====
section
/-! SUPPORT. What the shared lane operations come to: a register, a pair, a floating-point result or a predicate written in
the lanes of ACTIVE, each once for every instruction that uses it; and that the forms of Table 3-4 keep every lane. -/

namespace Sys2Proof.Laws

open Sys2Proof.Machine

/-- A U or A source's lanes (03 R51). -/
theorem lane_affine {f : Frame} {n : Nat} {b st : Word} (h : f.affine n = some (b, st)) (l : Nat) :
    f.lane n l = b + BitVec.ofNat 32 l * st := by
  unfold Frame.affine at h
  unfold Frame.lane
  split at h
  · next hn =>
    simp only [Option.some.injEq, Prod.mk.injEq] at h
    obtain ⟨rfl, rfl⟩ := h
    simp [hn]
  · next x hx =>
    rw [hx]
    split at h <;> simp only [Option.some.injEq, Prod.mk.injEq, reduceCtorEq] at h
    · next w hw => obtain ⟨rfl, rfl⟩ := h; simp [hw, Val.lane]
    · next w v hw => obtain ⟨rfl, rfl⟩ := h; simp [hw, Val.lane]

/-- A U source has stride 0. -/
theorem affine_isU {f : Frame} {n : Nat} (h : f.isU n = true) : f.affine n = some (f.lane n 0, 0) := by
  unfold Frame.isU at h
  unfold Frame.affine Frame.lane
  split at h
  · next hn => simp [hn]
  · next x hx =>
    split at h
    · next w hw => simp [hx, hw, Val.lane]
    · cases h

/-- The form of a constant. -/
theorem formOk_const (x : Word) (bad : Nat → Bool) : FormOk ⟨.u, fun _ => x, bad⟩ := fun _ _ => rfl

/-- The form of a value whose two operands are affine: U if both are, else what the row says. -/
def affineForm (ux uy : Bool) (x y : Option (Word × Word)) (form : Word → Word → Word → Word → DForm) : DForm :=
  match x, y with
  | some (b, st), some (b', st') => if ux && uy then .u else form b st b' st'
  | _, _ => .g

/-- A form of a value whose lanes are those of an affine value. -/
theorem formOk_affine {ux uy : Bool} {x y : Option (Word × Word)} {form : Word → Word → Word → Word → DForm}
    {v : Nat → Word} {bad : Nat → Bool}
    (hu : ux = true → uy = true → ∀ l, v l = v 0)
    (ha : ∀ b st b' st', x = some (b, st) → y = some (b', st') → FormOk ⟨form b st b' st', v, bad⟩) :
    FormOk ⟨affineForm ux uy x y form, v, bad⟩ := by
  unfold affineForm
  split
  · next b st b' st' =>
    by_cases h : (ux && uy) = true
    · rw [if_pos h]
      simp only [Bool.and_eq_true] at h
      exact fun l _ => hu h.1 h.2 l
    · rw [if_neg h]
      exact ha b st b' st' rfl rfl
  · trivial

/-- The lanes of a source in an affine form, or of an immediate. -/
def LanesOf (x : Option (Word × Word)) (u : Bool) (v : Nat → Word) : Prop :=
  (∀ b st, x = some (b, st) → ∀ l, v l = b + BitVec.ofNat 32 l * st) ∧ (u = true → ∀ l, v l = v 0) ∧
    (u = true → x = some (v 0, 0))

theorem lanesOf_reg (f : Frame) (n : Nat) : LanesOf (f.affine n) (f.isU n) (f.lane n) :=
  ⟨fun _ _ h l => lane_affine h l, fun h l => lane_isU h l, fun h => affine_isU h⟩

theorem lanesOf_imm (x : Word) : LanesOf (some (x, 0)) true fun _ => x :=
  ⟨fun _ _ h _ => by simp only [Option.some.injEq, Prod.mk.injEq] at h; obtain ⟨rfl, rfl⟩ := h; simp,
    fun _ _ => rfl, fun _ => rfl⟩

/-- The ADD row keeps every lane (R58). -/
theorem formOk_add {x y : Option (Word × Word)} {ux uy : Bool} {v w : Nat → Word} {bad : Nat → Bool}
    (hx : LanesOf x ux v) (hy : LanesOf y uy w) : FormOk ⟨formAdd false x y ux uy, fun l => v l + w l, bad⟩ := by
  refine formOk_affine (ux := ux) (uy := uy) (x := x) (y := y) (v := fun l => v l + w l) (form := fun b st b' st' => .a (b + b') (st + st'))
    (fun h1 h2 l => by rw [hx.2.1 h1 l, hy.2.1 h2 l]) fun b st b' st' h1 h2 l _ => ?_
  dsimp only
  rw [hx.1 _ _ h1 l, hy.1 _ _ h2 l]; ring

/-- The SUB row keeps every lane (R58). -/
theorem formOk_sub {x y : Option (Word × Word)} {ux uy : Bool} {v w : Nat → Word} {bad : Nat → Bool}
    (hx : LanesOf x ux v) (hy : LanesOf y uy w) : FormOk ⟨formAdd true x y ux uy, fun l => v l - w l, bad⟩ := by
  refine formOk_affine (ux := ux) (uy := uy) (x := x) (y := y) (v := fun l => v l - w l) (form := fun b st b' st' => .a (b - b') (st - st'))
    (fun h1 h2 l => by rw [hx.2.1 h1 l, hy.2.1 h2 l]) fun b st b' st' h1 h2 l _ => ?_
  dsimp only
  rw [hx.1 _ _ h1 l, hy.1 _ _ h2 l]; ring

/-- The MUL row keeps every lane (R58). -/
theorem formOk_mul {x y : Option (Word × Word)} {ux uy : Bool} {v w : Nat → Word} {bad : Nat → Bool}
    (hx : LanesOf x ux v) (hy : LanesOf y uy w) : FormOk ⟨formMul x y ux uy, fun l => v l * w l, bad⟩ := by
  refine formOk_affine (ux := ux) (uy := uy) (x := x) (y := y) (v := fun l => v l * w l) (form := fun b st b' st' => if ux then .a (b * b') (b * st') else if uy then .a (b * b') (st * b') else .g)
    (fun h1 h2 l => by rw [hx.2.1 h1 l, hy.2.1 h2 l]) fun b st b' st' h1 h2 => ?_
  by_cases hu : ux = true
  · have e := hx.2.2 hu
    rw [h1] at e
    simp only [Option.some.injEq, Prod.mk.injEq] at e
    rw [if_pos hu]
    intro l _
    dsimp only
    rw [hx.1 _ _ h1 l, hy.1 _ _ h2 l, e.2]; ring
  · rw [if_neg hu]
    by_cases hv : uy = true
    · have e := hy.2.2 hv
      rw [h2] at e
      simp only [Option.some.injEq, Prod.mk.injEq] at e
      rw [if_pos hv]
      intro l _
      dsimp only
      rw [hx.1 _ _ h1 l, hy.1 _ _ h2 l, e.2]; ring
    · rw [if_neg hv]; trivial

theorem shlWord_mul (a n : Word) : shlWord a n = a * shlWord 1 n := by
  unfold shlWord
  split
  · rw [BitVec.shiftLeft_eq_mul_twoPow, BitVec.shiftLeft_eq_mul_twoPow, show (1 : Word) * _ = _ from BitVec.one_mul _]
  · simp

/-- The SHL row keeps every lane (R58). -/
theorem formOk_shl {x : Option (Word × Word)} {ux uy : Bool} {v w : Nat → Word} {bad : Nat → Bool}
    (hx : LanesOf x ux v) (hw : uy = true → ∀ l, w l = w 0) :
    FormOk ⟨formShl x ux uy (w 0), fun l => shlWord (v l) (w l), bad⟩ := by
  unfold formShl
  cases h : x with
  | none => simp [FormOk]
  | some p =>
    obtain ⟨b, st⟩ := p
    dsimp only
    by_cases h1 : (ux && uy) = true
    · rw [if_pos h1]
      simp only [Bool.and_eq_true] at h1
      intro l _
      dsimp only
      rw [hx.2.1 h1.1 l, hw h1.2 l]
    · rw [if_neg h1]
      by_cases h2 : uy = true
      · rw [if_pos h2]
        intro l _
        dsimp only
        rw [hx.1 _ _ h l, hw h2 l, shlWord_mul, shlWord_mul b, shlWord_mul st]; ring
      · rw [if_neg h2]; trivial

/-- The MOV row keeps every lane (R58). -/
theorem formOk_mov {f : Frame} {n : Nat} {bad : Nat → Bool} : FormOk ⟨f.formMov n, f.lane n, bad⟩ := by
  unfold Frame.formMov
  cases h : f.affine n with
  | none => simp [FormOk]
  | some p =>
    obtain ⟨b, st⟩ := p
    dsimp only
    by_cases hu : f.isU n = true
    · rw [if_pos hu]; exact fun l _ => lane_isU hu l
    · rw [if_neg hu]; exact fun l _ => lane_affine h l

theorem badAny_eq (f : Frame) (srcs : List Nat) (l : Nat) : f.badAny srcs l = srcs.any fun r => f.bad r l := rfl

/-- One register written in the lanes of ACTIVE. -/
theorem writes_lanes {i : Instr} {body : State → Env → R} {d : Nat} {w : State → Env → LaneWrite} {eff : State → Env → Effect}
    (hx : exec i = fun s => issue i s body) (hd : d < 64)
    (hb : ∀ s e, body s e = writeLanes i s e d (w s e))
    (hs : ∀ s e, w (s.setGroup e.g) e = w s e)
    (he : ∀ s e, eff s e = ⟨[d], (w s e).form, fun _ => (w s e).val, fun _ => (w s e).bad⟩)
    (hf : ∀ s e, FormOk (w s e)) : Writes i eff := by
  refine writes_of hx (fun s e => e.g.frame.write e.g.active e.act d (w s e)) hb (fun s e => by rw [hs]) (fun s e => ?_)
    fun s e => ?_
  · rw [he]; exact wrote_one hd (val := fun _ => (w s e).val) (bad := fun _ => (w s e).bad) (hf s e)
  · rw [he]; exact cheaper_setReg (Cheaper.refl _) _ _

/-- An aligned pair written in the lanes of ACTIVE. -/
theorem writes_pair {i : Instr} {body : State → Env → R} {d : Nat} {form : State → Env → DForm} {v : State → Env → Nat → DWord}
    {bad : State → Env → Nat → Bool} {eff : State → Env → Effect}
    (hx : exec i = fun s => issue i s body) (hd : d + 1 < 64)
    (hb : ∀ s e, body s e = done s i { e.g with frame := pairFrame e.g.frame e.g.active e.act d (form s e) (v s e) (bad s e) })
    (hs : ∀ s e, v (s.setGroup e.g) e = v s e ∧ form (s.setGroup e.g) e = form s e ∧ bad (s.setGroup e.g) e = bad s e)
    (he : ∀ s e, eff s e = ⟨[d, d + 1], form s e, pairWords d (v s e), fun _ => bad s e⟩)
    (hf : ∀ s e (k : DWord → Word), FormOk ⟨form s e, fun l => k (v s e l), bad s e⟩) : Writes i eff := by
  refine writes_of hx (fun s e => pairFrame e.g.frame e.g.active e.act d (form s e) (v s e) (bad s e)) hb
    (fun s e => by rw [(hs s e).1, (hs s e).2.1, (hs s e).2.2]) (fun s e => ?_) fun s e => ?_
  · rw [he]; exact wrote_pair hd (hf s e fun x => x.setWidth 32) (hf s e fun x => (x >>> 32).setWidth 32)
  · rw [he]; exact cheaper_setReg (cheaper_setReg (Cheaper.refl _) _ _) _ _

/-- A lane result of sources, in a form. -/
theorem writes_formed {i : Instr} {d : Nat} {form : Frame → DForm} {srcs : List Nat} {val : Frame → Nat → Word}
    (hx : ∀ s, exec i s = issue i s fun s e => writeLanes i s e d ⟨form e.g.frame, val e.g.frame, e.g.frame.badAny srcs⟩)
    (hd : d < 64) (hf : ∀ f, FormOk ⟨form f, val f, f.badAny srcs⟩) : Writes i (fun _ => formed d form srcs val) :=
  writes_lanes (funext hx) hd (fun _ _ => rfl) (fun _ _ => rfl) (fun _ _ => rfl) fun _ e => hf e.g.frame

/-- A lane result of sources under the "all other" row. -/
theorem writes_oneReg {i : Instr} {d : Nat} {srcs : List Nat} {val : Frame → Nat → Word}
    (hx : ∀ s, exec i s = issue i s fun s e =>
      writeLanes i s e d ⟨e.g.frame.formOther srcs, val e.g.frame, e.g.frame.badAny srcs⟩)
    (hd : d < 64) (hf : ∀ f : Frame, (∀ r ∈ srcs, ∀ l, f.lane r l = f.lane r 0) → ∀ l, val f l = val f 0) :
    Writes i (fun _ => oneReg d srcs val) :=
  writes_formed (form := fun f => f.formOther srcs) hx hd fun f => formOk_other (hf f)

/-- The values of an effect may be written another way. -/
theorem Writes.congr_val {i : Instr} {d : Nat} {srcs : List Nat} {val val' : Frame → Nat → Word}
    (h : Writes i (fun _ => oneReg d srcs val)) (hv : ∀ f l, val' f l = val f l) : Writes i (fun _ => oneReg d srcs val') := by
  have : val' = val := funext fun f => funext (hv f)
  rwa [this]

/-- The same in another form. -/
theorem Writes.congr_formed {i : Instr} {d : Nat} {form : Frame → DForm} {srcs : List Nat} {val val' : Frame → Nat → Word}
    (h : Writes i (fun _ => formed d form srcs val)) (hv : ∀ f l, val' f l = val f l) :
    Writes i (fun _ => formed d form srcs val') := by
  have : val' = val := funext fun f => funext (hv f)
  rwa [this]

/-- One value in every lane, with poison cleared. -/
theorem writes_oneValue {i : Instr} {d : Nat} {x : Env → Word}
    (hx : ∀ s, exec i s = issue i s fun s e => laneConst i d (x e) s e) (hd : d < 64) :
    Writes i (fun _ e => oneValue d (x e)) :=
  writes_lanes (funext hx) hd (fun _ _ => rfl) (fun _ _ => rfl) (fun _ _ => rfl) fun _ e => formOk_const (x e) _

/-- A pair result of sources under the "all other" row. -/
theorem writes_pairRegs {i : Instr} {d : Nat} {srcs : List Nat} {val : Frame → Nat → DWord}
    (hx : ∀ s, exec i s = issue i s fun s e =>
      done s i { e.g with frame := pairFrame e.g.frame e.g.active e.act d (e.g.frame.formOther srcs) (val e.g.frame) (e.g.frame.badAny srcs) })
    (hd : d + 1 < 64) (hf : ∀ f : Frame, (∀ r ∈ srcs, ∀ l, f.lane r l = f.lane r 0) → ∀ l, val f l = val f 0) :
    Writes i (fun _ => pairRegs d srcs val) :=
  writes_pair (form := fun _ e => e.g.frame.formOther srcs) (v := fun _ e => val e.g.frame)
    (bad := fun _ e => e.g.frame.badAny srcs) (funext hx) hd (fun _ _ => rfl) (fun _ _ => ⟨rfl, rfl, rfl⟩) (fun _ _ => rfl)
    fun _ e k => formOk_other fun h l => congrArg k (hf e.g.frame h l)

theorem mask_bits (x : Flags) : (x.setWidth 32 : Word) &&& 0x60 = 0 := by revert x; decide

/-- A floating-point instruction that completes through `fpDone`. -/
theorem fpDone_spec {i : Instr} {s s1 : State} {g : Group} {e : Env} {body : State → Env → R} {fl : Nat → Flags} {f' : Frame}
    (h : Issues i s s1 g e) (hx : exec i = fun s => issue i s body)
    (hb : body (s1.setGroup e.g) e = fpDone (s1.setGroup e.g) i e fl f')
    (hr : Room { e.g with frame := f' }) :
    (orFlags e.act fl &&& e.g.fxe = 0 → exec i s = .next (after i s1 e.g ((orFlags e.act fl).setWidth 32) f')) ∧
      (orFlags e.act fl &&& e.g.fxe ≠ 0 →
        exec i s = .next (trapped s1 g ((orFlags e.act fl).setWidth 32) (fpTrap e.g e.act fl))) := by
  constructor
  · intro h0
    rw [hx]
    refine issue_done h body { e.g with frame := f', gstatus := e.g.gstatus ||| (orFlags e.act fl).setWidth 32 } ?_
      (issues_uid h) hr
    rw [hb, fpDone]
    simp only [h0, bne_self_eq_false, Bool.false_eq_true, if_false]
    rfl
  · intro h0
    rw [hx]
    show issue i s body = _
    rw [issue_eq h, hb, fpDone]
    have : (orFlags e.act fl &&& e.g.fxe != 0) = true := by simpa using h0
    simp only [this, if_true]
    rw [← settle_trap h _ (mask_bits _) _]
    rfl

/-- One register written by a floating-point instruction. -/
theorem writesFp_lanes {i : Instr} {body : State → Env → R} {d : Nat} {w : Env → LaneWrite} {fl : Env → Nat → Flags}
    {eff : State → Env → Effect} (hx : exec i = fun s => issue i s body) (hd : d < 64)
    (hb : ∀ s e, body s e = fpDone s i e (fl e) (e.g.frame.write e.g.active e.act d (w e)))
    (he : ∀ s e, eff s e = ⟨[d], (w e).form, fun _ => (w e).val, fun _ => (w e).bad⟩)
    (hf : ∀ e, FormOk (w e)) : WritesFp i eff fl := by
  intro s s1 g e h hr
  rw [he] at hr ⊢
  have hroom : Room { e.g with frame := e.g.frame.write e.g.active e.act d (w e) } :=
    room_cheaper (g := filled e.g [d] [] []) (cheaper_setReg (Cheaper.refl _) _ _) rfl hr
  have hw : Wrote e.g.frame (e.g.frame.write e.g.active e.act d (w e)) e.g.active e.act
      ⟨[d], (w e).form, fun _ => (w e).val, fun _ => (w e).bad⟩ :=
    wrote_one hd (val := fun _ => (w e).val) (bad := fun _ => (w e).bad) (hf e)
  have := fpDone_spec h hx (hb _ e) hroom
  exact ⟨fun h0 => ⟨_, hw, this.1 h0⟩, this.2⟩

/-- A pair written by a floating-point instruction. -/
theorem writesFp_pair {i : Instr} {body : State → Env → R} {d : Nat} {form : Env → DForm} {v : Env → Nat → DWord}
    {bad : Env → Nat → Bool} {fl : Env → Nat → Flags} {eff : State → Env → Effect}
    (hx : exec i = fun s => issue i s body) (hd : d + 1 < 64)
    (hb : ∀ s e, body s e = fpDone s i e (fl e) (pairFrame e.g.frame e.g.active e.act d (form e) (v e) (bad e)))
    (he : ∀ s e, eff s e = ⟨[d, d + 1], form e, pairWords d (v e), fun _ => bad e⟩)
    (hf : ∀ e (k : DWord → Word), FormOk ⟨form e, fun l => k (v e l), bad e⟩) : WritesFp i eff fl := by
  intro s s1 g e h hr
  rw [he] at hr ⊢
  have hroom : Room { e.g with frame := pairFrame e.g.frame e.g.active e.act d (form e) (v e) (bad e) } :=
    room_cheaper (g := filled e.g [d, d + 1] [] []) (cheaper_setReg (cheaper_setReg (Cheaper.refl _) _ _) _ _) rfl hr
  have hw := wrote_pair (f := e.g.frame) (amask := e.g.active) (act := e.act) hd
    (hf e fun x => x.setWidth 32) (hf e fun x => (x >>> 32).setWidth 32)
  have := fpDone_spec h hx (hb _ e) hroom
  exact ⟨fun h0 => ⟨_, hw, this.1 h0⟩, this.2⟩

/-- A predicate written in the lanes of ACTIVE is what `WrotePred` says of it. -/
theorem wrotePred (f : Frame) (act : Mask) {d : Nat} (hd : d < 8) (x : Mask) :
    WrotePred f (f.writePred act d x) act d fun l => x.getLsbD l := by
  unfold Frame.writePred
  by_cases h0 : d = 0
  · subst h0
    exact ⟨fun h => absurd rfl h, fun h => absurd rfl h, fun _ _ _ => rfl, rfl⟩
  · rw [if_neg h0]
    refine ⟨fun _ l hl => ?_, fun _ => ?_, fun n hn h => ?_, rfl⟩
    · simp only [Frame.pred, if_neg h0, fileSet_get 8 f.p d d _ hd hd, if_true, Option.getD_some]
      simp only [BitVec.getLsbD_or, BitVec.getLsbD_and, BitVec.getLsbD_not, hl, decide_true, Bool.true_and]
      cases act.getLsbD l <;> simp
    · simp only [fileSet_get 8 f.p d d _ hd hd, if_true, Option.isSome_some]
    · rcases h with h | h
      · simp only [fileSet_get 8 f.p d n _ hd hn, if_neg h]
      · exact absurd h h0

theorem room_pred {g : Group} {d : Nat} {act x : Mask} (hr : RoomFor g [] [d] []) :
    Room { g with frame := g.frame.writePred act d x } :=
  room_cheaper (g := filled g [] [d] []) (cheaper_writePred (Cheaper.refl _) _ _ _) rfl hr

/-- A predicate instruction that completes. -/
theorem pred_done {i : Instr} {s s1 : State} {g : Group} {e : Env} {body : State → Env → R} {d : Nat} (hd : d < 8) {x : Mask}
    (h : Issues i s s1 g e) (hx : exec i = fun s => issue i s body) (hr : RoomFor e.g [] [d] [])
    (hb : body (s1.setGroup e.g) e = done (s1.setGroup e.g) i { e.g with frame := e.g.frame.writePred e.act d x }) :
    ∃ f', WrotePred e.g.frame f' e.act d (fun l => x.getLsbD l) ∧ exec i s = .next (after i s1 e.g 0 f') := by
  refine ⟨_, wrotePred e.g.frame e.act hd x, ?_⟩
  have h0 : e.g.gstatus ||| (0 : Word) = e.g.gstatus := by simp
  rw [hx]
  unfold after
  rw [h0]
  exact issue_done h body _ hb (issues_uid h) (room_pred hr)

/-- No poisoned lane of a source: nothing to trap for. -/
theorem poisonUse_none {g : Group} {act : Mask} {srcs : List Nat}
    (h : ∀ r ∈ srcs, ∀ l, act.getLsbD l = true → g.frame.bad r l = false) : g.poisonUse act srcs = none := by
  unfold Group.poisonUse
  have : (List.range 64).filter (fun r => srcs.contains r && (lanesOf act).any fun i => g.frame.bad r i) = [] := by
    rw [List.filter_eq_nil_iff]
    intro r _ hc
    simp only [Bool.and_eq_true, List.contains_iff_mem, List.any_eq_true] at hc
    obtain ⟨hr, l, hl, hb⟩ := hc
    rw [h r hr l (mem_lanesOf.1 hl)] at hb
    cases hb
  rw [this]; rfl

theorem head?_filter_range {p : Nat → Bool} {n r : Nat} (hr : r < n) (hp : p r = true) (hm : ∀ q < r, p q = false) :
    ((List.range n).filter p).head? = some r := by
  rw [List.head?_filter]
  exact List.find?_range_eq_some.2 ⟨hp, by simpa using hr, fun j hj => by simp [hm j hj]⟩

/-- The poison-use trap names the lowest poisoned source, and its lowest poisoned lane (R171). -/
theorem poisonUse_first {g : Group} {act : Mask} {srcs : List Nat} {r l : Nat} (hr : r < 64)
    (h : FirstPoison g.frame act srcs r l) : g.poisonUse act srcs = some (mkTrap 13 (r + 256 * l)) := by
  obtain ⟨hm, hl, hb, hlow, hmin⟩ := h
  unfold Group.poisonUse
  have h1 : ((List.range 64).filter fun r => srcs.contains r && (lanesOf act).any fun i => g.frame.bad r i).head? = some r := by
    refine head?_filter_range hr ?_ fun q hq => ?_
    · simp only [Bool.and_eq_true, List.contains_iff_mem, List.any_eq_true]
      exact ⟨hm, l, mem_lanesOf.2 hl, hb⟩
    · by_contra hc
      simp only [Bool.not_eq_false, Bool.and_eq_true, List.contains_iff_mem, List.any_eq_true] at hc
      obtain ⟨h1, k, hk, h2⟩ := hc
      rw [hmin q h1 hq k (mem_lanesOf.1 hk)] at h2
      cases h2
  have h2 : ((lanesOf act).filter fun i => g.frame.bad r i).headD 0 = l := by
    have : ((lanesOf act).filter fun i => g.frame.bad r i).head? = some l := by
      rw [lanesOf, List.filter_filter]
      refine head?_filter_range (getLsbD_lt hl) (by simp [hb, hl]) fun q hq => ?_
      by_contra hc
      simp only [Bool.not_eq_false, Bool.and_eq_true] at hc
      rw [hlow q hq hc.2] at hc
      exact Bool.noConfusion hc.1
    rw [List.headD_eq_head?_getD, this]; rfl
  simp only [h1, h2]

/-- A predicate written from lanes of v registers. -/
theorem writesPred_from {i : Instr} {d : Nat} {srcs : List Nat} {val : Frame → Nat → Bool} (hd : d < 8) (hs : ∀ r ∈ srcs, r < 64)
    (hx : exec i = fun s => issue i s (predFrom i d srcs val)) : WritesPred i d srcs val := by
  intro s s1 g e h hr
  refine ⟨fun hp => ?_, fun r l hp => ?_⟩
  · obtain ⟨f', hw, he⟩ := pred_done (x := maskOf (val e.g.frame)) hd h hx hr (by
      unfold predFrom; rw [poisonUse_none hp])
    refine ⟨f', ⟨fun h0 l hl => ?_, hw.present, hw.others, hw.rest⟩, he⟩
    rw [hw.lanes h0 l hl, maskOf_getLsbD, decide_eq_true hl, Bool.true_and]
  · rw [hx]
    show issue i s _ = _
    rw [issue_eq h]
    unfold predFrom
    rw [poisonUse_first (hs r hp.1) hp]
    exact congrArg _ (settle_trap0 h _)

/-- A predicate written by a floating-point comparison. -/
theorem writesFpPred_from {i : Instr} {d : Nat} {srcs : List Nat} {f : Frame → Nat → Bool × Flags} (hd : d < 8)
    (hs : ∀ r ∈ srcs, r < 64) (hx : exec i = fun s => issue i s (fpPred i d srcs f)) :
    WritesFpPred i d srcs (fun fr l => (f fr l).1) fun fr l => (f fr l).2 := by
  intro s s1 g e h hr
  refine ⟨fun hp => ?_, fun r l hp => ?_⟩
  · have hw := wrotePred e.g.frame e.act hd (maskOf fun l => (f e.g.frame l).1)
    have := fpDone_spec (fl := fun l => (f e.g.frame l).2) h hx
      (f' := e.g.frame.writePred e.act d (maskOf fun l => (f e.g.frame l).1))
      (by unfold fpPred; rw [poisonUse_none hp]) (room_pred hr)
    refine ⟨fun h0 => ⟨_, ⟨fun hn l hl => ?_, hw.present, hw.others, hw.rest⟩, this.1 h0⟩, this.2⟩
    rw [hw.lanes hn l hl, maskOf_getLsbD, decide_eq_true hl, Bool.true_and]
  · rw [hx]
    show issue i s _ = _
    rw [issue_eq h]
    unfold fpPred
    rw [poisonUse_first (hs r hp.1) hp]
    exact congrArg _ (settle_trap0 h _)

end Sys2Proof.Laws
end

