-- ==== Sys2Proof/Laws/Settle.lean ====
section
/-! SUPPORT. How the outcomes of a meaning settle: a completed effect, a transfer of control, a trap, a wait. -/

namespace Sys2Proof.Laws

open Sys2Proof.Machine

/-- An effect that leaves its group with room settles as it is. -/
theorem settle_ok {s0 : State} {g g1 : Group} {t : State} (hr : ∀ h, t.group? g.uid = some h → Room h) :
    settle s0 g g1 (.ok t) = t := by
  unfold settle
  dsimp only
  split
  · next h hh =>
    have : (h.fits || h.older.isEmpty) = true := hr h hh
    rw [if_pos this]
  · rfl

/-- A group put back last, with room, settles as it is. -/
theorem settle_put {s0 : State} {g g1 g' : Group} {t : State} (hu : g'.uid = g.uid) (hr : Room g') :
    settle s0 g g1 (.ok (t.setGroup g')) = t.setGroup g' :=
  settle_ok fun h hh => by
    have : h = g' := group?_setGroup (by rw [hu]; exact hh)
    rw [this]; exact hr

variable {i : Instr} {s s1 : State} {g : Group} {e : Env} {body : State → Env → R}

/-- An instruction whose effect is complete. -/
theorem exec_ok (h : Issues i s s1 g e) (hx : exec i s = issue i s body) {t : State}
    (hb : body (s1.setGroup e.g) e = .ok t) (hr : ∀ k, t.group? g.uid = some k → Room k) : exec i s = .next t := by
  rw [hx, issue_eq h, hb, settle_ok hr]

/-- An instruction whose effect is to change its group. -/
theorem exec_put (h : Issues i s s1 g e) (hx : exec i s = issue i s body) {t : State} {g' : Group}
    (hb : body (s1.setGroup e.g) e = .ok (t.setGroup g')) (hu : g'.uid = e.g.uid) (hr : Room g') :
    exec i s = .next (t.setGroup g') := by
  rw [hx, issue_eq h, hb, settle_put (hu.trans (issues_uid h)) hr]

/-- An instruction that completes after it changed the machine into `t`. -/
theorem exec_done (h : Issues i s s1 g e) (hx : exec i s = issue i s body) {t : State} {g' : Group}
    (hb : body (s1.setGroup e.g) e = done t i g') (hu : g'.uid = e.g.uid) (hr : Room g') :
    exec i s = .next (t.setGroup (g'.advance i)) :=
  exec_put h hx hb hu hr

/-- An instruction that changes only its group. -/
theorem exec_self (h : Issues i s s1 g e) (hx : exec i s = issue i s body) {g' : Group}
    (hb : body (s1.setGroup e.g) e = .ok ((s1.setGroup e.g).setGroup g')) (hu : g'.uid = e.g.uid) (hr : Room g') :
    exec i s = .next (s1.setGroup g') := by
  rw [exec_put h hx hb hu hr, setGroup_setGroup _ _ _ hu]

/-- An instruction that completes with a change to its group alone. -/
theorem exec_self_done (h : Issues i s s1 g e) (hx : exec i s = issue i s body) {g' : Group}
    (hb : body (s1.setGroup e.g) e = done (s1.setGroup e.g) i g') (hu : g'.uid = e.g.uid) (hr : Room g') :
    exec i s = .next (s1.setGroup (g'.advance i)) :=
  exec_self h hx hb hu hr

/-- An instruction that traps. -/
theorem exec_trap (h : Issues i s s1 g e) (hx : exec i s = issue i s body) {t : Trap}
    (hb : body (s1.setGroup e.g) e = .trap (s1.setGroup e.g) t) : exec i s = .next (trapped s1 g 0 t) := by
  rw [hx, issue_eq h, hb, settle_trap0 h]

/-- An instruction that waits. -/
theorem exec_wait (h : Issues i s s1 g e) (hx : exec i s = issue i s body) {t : State}
    (hb : body (s1.setGroup e.g) e = .wait t) : exec i s = .next (t.modGroup g.uid (g.undo e.g)) := by
  rw [hx, issue_eq h, hb]; rfl

/-- What issue did to a group is taken back whole. -/
theorem undo_self (h : Issues i s s1 g e) : g.undo e.g e.g = g := by
  obtain ⟨la, y, he, hy⟩ := issues_bits h
  have := undo_word g.gstatus e.g.gstatus 0 (by decide) ⟨y, by rw [he], hy⟩
  have h0 (z : Word) : z ||| 0 = z := by simp
  rw [h0, h0] at this
  unfold Group.undo
  rw [this, he]

/-- An instruction that waits, with a change to its group alone. -/
theorem exec_wait_self (h : Issues i s s1 g e) (hx : exec i s = issue i s body) {F : Group → Group}
    (hb : body (s1.setGroup e.g) e = .wait ((s1.setGroup e.g).modGroup e.g.uid F)) (hu : ∀ k, (F k).uid = k.uid)
    (hF : g.undo e.g (F e.g) = F (g.undo e.g e.g)) : exec i s = .next (s1.setGroup (F g)) := by
  rw [exec_wait h hx hb, setGroup_modGroup _ _ _ (hu _), ← issues_uid h]
  have : (F e.g).uid = e.g.uid := hu _
  rw [← this, setGroup_modGroup _ _ _ (by rw [hF, undo_self h, hu, hu, issues_uid h]), hF, undo_self h]

/-- An instruction that waits with nothing changed. -/
theorem exec_wait_same (h : Issues i s s1 g e) (hx : exec i s = issue i s body)
    (hb : body (s1.setGroup e.g) e = .wait (s1.setGroup e.g)) : exec i s = .next (s1.setGroup g) := by
  rw [exec_wait h hx hb, ← issues_uid h, setGroup_modGroup _ _ _ (by rw [undo_self h, issues_uid h]), undo_self h]

/-- A group with the frames of one that has room. -/
theorem Room.same {g h : Group} (hr : Room g) (hf : h.frame = g.frame) (ho : h.older = g.older) : Room h := by
  unfold Room Group.fits at *; rw [hf, ho]; exact hr

end Sys2Proof.Laws
end

