-- ==== Sys2Proof/Laws/Transfer.lean ====
section
/-! SUPPORT. What writing memory, sealing and splitting leave alone: the groups a state holds; and which lanes a transfer of
control moves. -/

namespace Sys2Proof.Laws

open Sys2Proof.Machine

@[simp] theorem modLanding_groups (s : State) (l : Nat) (f : Landing → Landing) : (s.modLanding l f).groups = s.groups := rfl
@[simp] theorem setSeg_groups (s : State) (x : Seg) : (s.setSeg x).groups = s.groups := rfl
@[simp] theorem lay_groups (s : State) (pa : Nat) (bs : List Byte) (d : Bool) : (s.lay pa bs d).groups = s.groups := rfl

/-- A fold of steps that keep the groups keeps them. -/
theorem foldl_groups {α : Type} (f : State → α → State) (hf : ∀ s x, (f s x).groups = s.groups) (xs : List α) (s : State) :
    (xs.foldl f s).groups = s.groups := by
  induction xs generalizing s with
  | nil => rfl
  | cons x xs ih => rw [List.foldl_cons, ih, hf]

@[simp] theorem beats_groups (s : State) (xs : List (Nat × Nat)) {w : Bool} : (s.beats xs w).groups = s.groups := by
  unfold State.beats
  exact foldl_groups _ (fun s x => modLanding_groups s _ _) _ _

@[simp] theorem layWords_groups (loc : Nat → Nat) (k va : Nat) (bs : List FByte) (s : State) :
    (s.layWords loc k va bs).groups = s.groups := by
  induction k generalizing s va bs with
  | zero => rfl
  | succ k ih =>
    unfold State.layWords
    split
    · rfl
    · dsimp only; rw [ih, lay_groups]

@[simp] theorem putWords_groups (s : State) (loc : Nat → Nat) (k va : Nat) (bs : List FByte) :
    (s.putWords loc k va bs).groups = s.groups := by
  unfold State.putWords; rw [layWords_groups, beats_groups]

/-- Translating a run of bytes changes memory and the landings alone. -/
theorem walked_pagesOf {s t : State} {l ctx va n : Nat} {a : Access} {f : Nat → Nat}
    (h : s.pagesOf l ctx a va n = .ok (f, t)) : Walked s t := by
  unfold State.pagesOf at h
  split at h
  · cases h
  · next x s1 h1 =>
    dsimp only at h
    split at h
    · simp only [Except.ok.injEq, Prod.mk.injEq] at h; obtain ⟨_, rfl⟩ := h; exact walked_translate h1
    · split at h
      · cases h
      · next y s2 h2 =>
        simp only [Except.ok.injEq, Prod.mk.injEq] at h; obtain ⟨_, rfl⟩ := h
        exact (walked_translate h1).trans (walked_translate h2)

/-- Sealing writes a control block and leaves every group as it was. -/
theorem writeBlock_groups {s t : State} {g : Group} (h : s.writeBlock g = .ok t) : t.groups = s.groups := by
  unfold State.writeBlock at h
  dsimp only at h
  split at h
  · cases h
  · next loc s1 h1 =>
    simp only [Except.ok.injEq] at h
    subst h
    rw [putWords_groups, (walked_pagesOf h1).groups]

@[simp] theorem store_groups (s : State) (pa : Nat) (bs : List Byte) (d : Bool) : (s.store pa bs d).groups = s.groups := by
  unfold State.store; rw [lay_groups, beats_groups]

@[simp] theorem writeRecord_groups (s : State) (l : Nat) (r : FaultRec) : (s.writeRecord l r).groups = s.groups := by
  unfold State.writeRecord
  dsimp only
  rw [modLanding_groups]
  split <;> simp

@[simp] theorem post_groups (s : State) (l : Nat) (r : FaultRec) : (s.post l r).groups = s.groups := by
  unfold State.post
  dsimp only
  split <;> simp

/-- Taking a token writes to the landing and to the fault queue's memory alone. -/
theorem takeToken_groups {s t : State} {l k : Nat} {r : FaultRec} (h : s.takeToken l r = some (k, t)) : t.groups = s.groups := by
  unfold State.takeToken at h
  split at h
  · simp only [Option.some.injEq, Prod.mk.injEq] at h; rw [h.2]
  · split at h
    · simp only [Option.some.injEq, Prod.mk.injEq] at h; rw [← h.2, post_groups, modLanding_groups]
    · cases h

@[simp] theorem postHeld_groups (s : State) (l : Nat) : (s.postHeld l).groups = s.groups := by
  unfold State.postHeld
  refine foldl_groups _ (fun t h => ?_) _ _
  split
  · rfl
  · dsimp only
    split
    · rfl
    · next hk => rw [modLanding_groups, takeToken_groups hk]

@[simp] theorem poolHeader_groups (s : State) (c : Ctx) (l : Nat) : (s.poolHeader c l).groups = s.groups := by
  unfold State.poolHeader; rw [store_groups]

@[simp] theorem freeRecord_groups (s : State) (a len : Nat) : (s.freeRecord a len).groups = s.groups :=
  (store_groups _ _ _ _).trans (store_groups _ _ _ _)

/-- Placing an image in a pool writes memory alone. -/
theorem placeImage_groups {s t : State} {c : Ctx} {l pa : Nat} {rec : Nat → List Byte} {img : List FByte}
    (h : s.placeImage c l rec img = some (pa, t)) : t.groups = s.groups := by
  unfold State.placeImage at h
  dsimp only at h
  split at h
  · cases h
  · simp only [Option.some.injEq, Prod.mk.injEq] at h
    obtain ⟨_, rfl⟩ := h
    rw [poolHeader_groups]
    split
    · rw [freeRecord_groups, putWords_groups, store_groups]
    · rw [putWords_groups, store_groups]

@[simp] theorem parkImage_groups (s : State) (l : Nat) (g : Group) (block : Bool) (r : ParkRec) (n : Option FaultRec) :
    (s.parkImage l g block r n).groups = s.groups := by
  unfold State.parkImage
  dsimp only
  generalize hq : s.placeImage _ _ _ _ = q
  cases q with
  | some q =>
    obtain ⟨pa, t⟩ := q
    have hp := placeImage_groups hq
    have hk (t : State) (a b c : Nat) (o : Option Nat) (f : Frame) (d : Bool) : (t.keepToks a b c o f d).groups = t.groups := rfl
    cases n with
    | some n => exact (post_groups _ _ _).trans ((hk _ _ _ _ _ _ _).trans hp)
    | none => exact (hk _ _ _ _ _ _ _).trans hp
  | none => exact (postHeld_groups _ _).trans (modLanding_groups _ _ _)

@[simp] theorem overflowOne_groups (s : State) (l : Nat) : (s.overflowOne l).groups = s.groups := by
  unfold State.overflowOne
  dsimp only
  split
  · rw [parkImage_groups]; rfl
  · split
    · rw [parkImage_groups]; rfl
    · split
      · rw [parkImage_groups]; rfl
      · split
        · rw [parkImage_groups]; rfl
        · rfl

@[simp] theorem makeRoom_groups (s : State) (l room n : Nat) : (s.makeRoom l room n).groups = s.groups := by
  induction n generalizing s with
  | zero => rfl
  | succ n ih =>
    unfold State.makeRoom
    split
    · rw [ih, overflowOne_groups]
    · rfl

@[simp] theorem enterWharf_groups (s : State) (l : Nat) (g : Group) (b : BlockRead) : (s.enterWharf l g b).groups = s.groups := by
  unfold State.enterWharf
  rw [modLanding_groups]
  split
  · rfl
  · exact makeRoom_groups _ _ _ _

/-- A new sibling joins the groups in berths, or leaves them as they are. -/
theorem placeSibling_groups (s : State) (h : Group) : ∃ ys, (s.placeSibling h).groups = s.groups ++ ys := by
  unfold State.placeSibling
  split
  · exact ⟨_, rfl⟩
  · split
    · next h1 => exact ⟨[], by rw [enterWharf_groups, writeBlock_groups h1, List.append_nil]⟩
    · exact ⟨[], by rw [enterWharf_groups, List.append_nil]⟩

/-- A group found stays found when others are put behind it. -/
theorem find_append {xs ys : List Group} {u : Nat} {g : Group} (h : (xs.find? fun x => x.uid == u) = some g) :
    ((xs ++ ys).find? fun x => x.uid == u) = some g := by
  rw [List.find?_append, h]; rfl

/-- After a split, what stays under the group's identity is its first part. -/
theorem split_found {s : State} {g g0 : Group} {m0 : Mask} {f0 : Group → Group} {rest : List (Mask × (Group → Group))}
    (hg : s.group? g.uid = some g0) (hf : ∀ h, (f0 h).uid = h.uid) :
    (s.split g ((m0, f0) :: rest)).group? g.uid = some (f0 { g with
      active := m0, sib := lowLane m0, sdepth := min 2047 (g.sdepth + 1), sibling := true
      sb := if g.sibling then g.sb else some g.depth, la := [] }) := by
  unfold State.split
  dsimp only
  generalize hp : f0 { g with
      active := m0, sib := lowLane m0, sdepth := min 2047 (g.sdepth + 1), sibling := true
      sb := if g.sibling then g.sb else some g.depth, la := [] } = p
  have hpu : p.uid = g.uid := by rw [← hp, hf]
  have key : ∀ (xs : List (Mask × (Group → Group))) (F : State → Mask × (Group → Group) → State) (t : State),
      (∀ t x, ∃ ys, (F t x).groups = t.groups ++ ys) → t.group? g.uid = some p → (xs.foldl F t).group? g.uid = some p := by
    intro xs F t hF
    induction xs generalizing t with
    | nil => exact id
    | cons x xs ih =>
      intro ht
      refine ih _ ?_
      obtain ⟨ys, hy⟩ := hF t x
      unfold State.group? at ht ⊢
      rw [hy]; exact find_append ht
  refine key _ _ _ (fun t x => ?_) ?_
  · exact placeSibling_groups _ _
  · rw [← hpu]
    refine group?_setGroup_self (h := g0) ?_
    rw [hpu]
    unfold State.group? at hg ⊢
    split
    · next h1 => rw [putWords_groups, (walked_pagesOf h1).groups]; exact hg
    · exact hg

variable {i : Instr} {s s1 : State} {g : Group} {e : Env}

/-- ACTIVE lies in the active mask. -/
theorem act_sub (h : Issues i s s1 g e) (l : Nat) (hl : e.act.getLsbD l = true) : e.g.active.getLsbD l = true := by
  have ha : e.g.active = g.active := by obtain ⟨la, x, hx⟩ := issues_group h; rw [hx]
  rw [h.guard, Group.guard, BitVec.getLsbD_and] at hl
  rw [ha]; simp only [Bool.and_eq_true] at hl; exact hl.1

/-- No lane falls through exactly when ACTIVE is the active mask. -/
theorem rest_zero (h : Issues i s s1 g e) : e.g.active &&& ~~~e.act = 0 ↔ e.act = e.g.active := by
  constructor
  · intro h0
    apply BitVec.eq_of_getLsbD_eq
    intro l hl
    have h1 := congrArg (fun w : Mask => w.getLsbD l) h0
    simp only [BitVec.getLsbD_and, BitVec.getLsbD_not, hl, decide_true, Bool.true_and] at h1
    have h2 := act_sub h l
    cases ha : e.act.getLsbD l <;> cases hb : e.g.active.getLsbD l <;> simp_all
  · intro h0; rw [h0]; simp

theorem fall_all (h : Issues i s s1 g e) (ha : e.act = e.g.active) : fallPart i e = [] := by
  unfold fallPart; simp only [(rest_zero h).2 ha, if_true]

theorem fall_some (h : Issues i s s1 g e) (ha : e.act ≠ e.g.active) :
    fallPart i e = [(e.g.active &&& ~~~e.act, fun h => h.advance i)] := by
  unfold fallPart; simp only [mt (rest_zero h).1 ha, if_false]

/-- The lanes named by a list of those where a test holds are the mask of the test. -/
theorem failMask_filter (m : Mask) (p : Nat → Bool) :
    failMask ((lanesOf m).filter p) = maskOf fun l => m.getLsbD l && p l := by
  unfold failMask
  apply BitVec.eq_of_getLsbD_eq
  intro l hl
  rw [maskOf_getLsbD, maskOf_getLsbD]
  congr 1
  rw [Bool.eq_iff_iff]
  simp [mem_lanesOf]

/-- The first of those lanes is the lowest lane of the mask. -/
theorem head_filter (m : Mask) (p : Nat → Bool) :
    ((lanesOf m).filter p).headD 0 = lowLane (maskOf fun l => m.getLsbD l && p l) := by
  unfold lowLane lanesOf
  rw [List.filter_filter]
  congr 1
  apply List.filter_congr
  intro l hl
  rw [maskOf_getLsbD, decide_eq_true (List.mem_range.1 hl), Bool.true_and, Bool.and_comm]

/-- There is such a lane exactly when the mask is not zero. -/
theorem filter_empty (m : Mask) (p : Nat → Bool) :
    (lanesOf m).filter p = [] ↔ (maskOf fun l => m.getLsbD l && p l) = 0 := by
  rw [List.filter_eq_nil_iff]
  constructor
  · intro h
    apply BitVec.eq_of_getLsbD_eq
    intro l hl
    rw [maskOf_getLsbD, decide_eq_true hl, Bool.true_and]
    cases hm : m.getLsbD l with
    | false => simp
    | true => have := h l (mem_lanesOf.2 hm); simpa using this
  · intro h l hl hp
    have := congrArg (fun w : Mask => w.getLsbD l) h
    have hm := mem_lanesOf.1 hl
    simp only [maskOf_getLsbD, hm, hp, decide_eq_true (getLsbD_lt hm)] at this
    simp at this

end Sys2Proof.Laws
end

