-- ==== Sys2Proof/Laws/Access.lean ====
section
/-! SUPPORT. Memory instructions that execute where they are: their checks pass, their lanes stay, and what a run of
registers takes. -/

namespace Sys2Proof.Laws

open Sys2Proof.Machine

/-- No lane fails a check that every operand passes. -/
theorem failing_nil {lanes : List Nat} {ops : List AddrOp} {bad : AddrOp → Nat → Bool}
    (h : ∀ l ∈ lanes, ∀ o ∈ ops, bad o (o.va l) = false) : failing lanes ops bad = [] := by
  unfold failing
  rw [List.filterMap_eq_nil_iff]
  intro l hl
  rw [List.find?_eq_none.2 (fun o ho => by rw [h l hl o ho]; decide)]
  rfl

/-- Operands that are clean, in range and aligned pass checks 1 to 3 (09 R227). -/
theorem checks3_clean {g : Group} {code : Nat} {m : Mask} {ops : List AddrOp}
    (hc : ∀ o ∈ ops, ∀ r ∈ o.regs, ∀ l, m.getLsbD l = true → g.frame.bad r l = false)
    (hr : ∀ o ∈ ops, ∀ l, m.getLsbD l = true → o.va l < 2 ^ 56)
    (ha : ∀ o ∈ ops, ∀ l, m.getLsbD l = true → o.va l % o.align = 0) : checks3 g code m ops = none := by
  unfold checks3
  rw [poisonUse_none (by
    intro r hm l hl
    obtain ⟨o, ho, hr⟩ := List.mem_flatMap.1 hm
    exact hc o ho r hr l hl)]
  have h1 : failing (lanesOf m) ops (fun _ v => decide (2 ^ 56 ≤ v)) = [] :=
    failing_nil fun l hl o ho => by have := hr o ho l (mem_lanesOf.1 hl); simp; omega
  have h2 : failing (lanesOf m) ops (fun o v => v % o.align != 0) = [] :=
    failing_nil fun l hl o ho => by rw [ha o ho l (mem_lanesOf.1 hl)]; decide
  simp only [h1, h2, List.isEmpty_nil, Bool.not_true, Bool.false_eq_true, if_false]

/-- Where every lane translates, the locations are those of the lanes, in order. -/
theorem translateLanes_lanes {s : State} {l ctx : Nat} {a : Access} {vas : List (Nat × Nat)} {xs : List (Nat × Loc)} {t : State}
    (h : s.translateLanes l ctx a vas = ⟨xs, [], [], t⟩) : xs.map Prod.fst = vas.map Prod.fst := by
  induction vas generalizing s xs t with
  | nil => simp only [State.translateLanes, Lanes.mk.injEq] at h; rw [← h.1]; rfl
  | cons p rest ih =>
    obtain ⟨i, va⟩ := p
    simp only [State.translateLanes] at h
    split at h
    · next x s' _ =>
      rcases hr : s'.translateLanes l ctx a rest with ⟨w, r, m, u⟩
      rw [hr] at h
      simp only [Lanes.mk.injEq] at h
      obtain ⟨rfl, rfl, rfl, rfl⟩ := h
      simp only [List.map_cons, ih hr]
    · simp only [Lanes.mk.injEq, reduceCtorEq, false_and, and_false] at h
    · simp only [Lanes.mk.injEq, reduceCtorEq, false_and, and_false] at h

theorem checked_lanes {a : Access} {n : Nat} {regs : List Nat} {va : Nat → Nat} {s1 : State} {e : Env}
    {xs : List (Nat × Loc)} {t : State} (h : Checked a n regs va s1 e xs t) : xs.map Prod.fst = lanesOf e.act := by
  rw [translateLanes_lanes h.walked, List.map_map]; simp [Function.comp_def]

theorem here_lanes {a : Access} {n : Nat} {regs : List Nat} {va : Nat → Nat} {s1 : State} {e : Env}
    {xs : List (Nat × Loc)} {t : State} (h : Here a n regs va s1 e xs t) : xs.map Prod.fst = lanesOf e.act := by
  obtain ⟨_, h, _⟩ | ⟨_, h⟩ := h.way
  · exact h
  · exact checked_lanes h

/-- Lanes that pass every check are resolved. -/
theorem resolveLanes_go {a : Access} {n : Nat} {regs : List Nat} {va : Nat → Nat} {s1 : State} {e : Env} {moves : Bool}
    {xs : List (Nat × Loc)} {t : State} {check4 : List (Nat × Loc) → Option Trap} (h : Checked a n regs va s1 e xs t)
    (hl : Local e.g.l t e.g xs) (h4 : check4 xs = none) : resolveLanes (s1.setGroup e.g) e a moves e.act va check4 = .go xs t := by
  unfold resolveLanes
  simp only [h.walked, h4]
  have ho : (if moves = true then outside ((s1.setGroup e.g).ctx e.g.ctx) e.g xs else []) = [] := by
    split
    · unfold outside
      rw [List.filter_eq_nil_iff.2 (fun x hx => by simp [(hl.1 x hx).2])]; rfl
    · rfl
  rw [ho]
  have : check5 a.code va [] [] = none := by simp [check5]
  simp only [this, List.isEmpty_nil, if_true]

/-- An instruction whose lanes are here is resolved. -/
theorem resolve_go {a : Access} {o : AddrOp} {s1 : State} {e : Env} {xs : List (Nat × Loc)} {t : State}
    (h : Here a o.align o.regs o.va s1 e xs t) : resolve (s1.setGroup e.g) e a e.act o = .go xs t := by
  unfold resolve
  obtain ⟨hc, _, rfl⟩ | ⟨hc, hk⟩ := h.way
  · simp only [hc]
  · simp only [hc, hk.idle, Bool.false_eq_true, if_false]
    rw [checks3_clean (by intro o' ho; simp only [List.mem_singleton] at ho; subst ho; exact hk.clean)
      (by intro o' ho; simp only [List.mem_singleton] at ho; subst ho; exact hk.range)
      (by intro o' ho; simp only [List.mem_singleton] at ho; subst ho; exact hk.aligned)]
    exact resolveLanes_go hk h.here rfl

theorem partInsert_self (k : Nat × Nat × Nat) : partInsert [k] k = [k] := by
  have : partLt k k = false := by
    obtain ⟨a, b, c⟩ := k; simp [partLt, lexLt]
  simp [partInsert, this]

theorem foldl_partInsert (xs : List (Nat × Nat × Nat)) (h : ∀ x ∈ xs, x = (0, 0, 0)) :
    ∀ k ∈ xs.foldl partInsert [], k = (0, 0, 0) := by
  have : ∀ acc : List (Nat × Nat × Nat), acc = [] ∨ acc = [(0, 0, 0)] →
      ∀ k ∈ xs.foldl partInsert acc, k = (0, 0, 0) := by
    induction xs with
    | nil => rintro acc (rfl | rfl) k hk <;> simp at hk; exact hk
    | cons x rest ih =>
      intro acc ha
      rw [List.foldl_cons, h x (by simp)]
      refine ih (fun y hy => h y (by simp [hy])) _ (Or.inr ?_)
      obtain rfl | rfl := ha
      · rfl
      · exact partInsert_self _
  exact this [] (Or.inl rfl)

/-- A part whose lanes are all here executes here. -/
theorem partitioned_here {t : State} {i : Instr} {e : Env} {direct : Bool} {xs : List (Nat × Loc)} {stay : Mask} {here : R}
    (h : ∀ x ∈ xs, x.2.peer = none ∧ home x.2.pa = e.g.l) : partitioned t i e direct xs stay here = here := by
  unfold partitioned
  have hp : ∀ x ∈ xs.map (fun x => x.2.part e.g.l direct), x = (0, 0, 0) := by
    intro k hk
    obtain ⟨x, hx, rfl⟩ := List.mem_map.1 hk
    simp [Loc.part, h x hx]
  have hf : ((xs.map fun x => x.2.part e.g.l direct).foldl partInsert []).filter (fun k => k.1 != 0) = [] := by
    rw [List.filter_eq_nil_iff]
    intro k hk
    rw [foldl_partInsert _ hp k hk]; decide
  simp only [hf]

/-- No lane on a peer's direct page, no request to a peer. -/
theorem askPeers_none {t : State} {e : Env} {xs : List (Nat × Loc)} {code : Nat} {va : Nat → Nat} {op n : Nat}
    {val cmp : Nat → Nat} {bad : Nat → Bool} (h : ∀ x ∈ xs, x.2.peer = none) : askPeers t e xs code va op n val cmp bad = .ok ([], 0, t) := by
  have : farParts Prod.snd xs = [] := by
    unfold farParts
    rw [List.filter_eq_nil_iff.2 (fun x hx => by simp [h x hx])]
    rfl
  unfold askPeers
  rw [this]
  rfl

theorem filter_near {xs : List (Nat × Loc)} (h : ∀ x ∈ xs, x.2.peer = none) : (xs.filter fun x => x.2.peer.isNone) = xs :=
  List.filter_eq_self.2 fun x hx => by simp [h x hx]

/-- A run of registers written in the lanes of ACTIVE with memory results. -/
theorem wrote_load {f : Frame} {amask act : Mask} {d : Nat} {size : BitVec 4} {form : DForm} {got : Nat → Nat × Bool}
    (hd : d + sizeRegs size ≤ 64) (hf : form = .g ∨ form = .u ∧ ∀ l, got l = got 0) :
    Wrote f (f.writeLoad amask act d size form (fun l => (got l).1) (fun l => (got l).2)) amask act (loaded size d form got) := by
  have hok (j : Nat) : FormOk ⟨form, fun l => loadWord size (got l).1 j, fun l => (got l).2⟩ := by
    obtain rfl | ⟨rfl, h⟩ := hf
    · trivial
    · intro l _; dsimp only; rw [h l]
  have : ∀ k, k + d ≤ 64 → 0 < k → Wrote f ((List.range k).foldl (fun (h : Frame) j =>
      h.write amask act (d + j) ⟨form, fun l => loadWord size (got l).1 j, fun l => (got l).2⟩) f) amask act
      ⟨(List.range k).map (d + ·), form, fun r l => loadWord size (got l).1 (r - d), fun _ l => (got l).2⟩ := by
    intro k hk h0
    induction k with
    | zero => omega
    | succ k ih =>
      rw [List.range_succ, List.foldl_append, List.map_append]
      simp only [List.foldl_cons, List.foldl_nil, List.map_cons, List.map_nil]
      by_cases hz : k = 0
      · subst hz
        simp only [List.range_zero, List.foldl_nil, List.map_nil, List.nil_append, Nat.add_zero]
        have := wrote_one (f := f) (amask := amask) (act := act) (d := d) (by omega) (form := form)
          (val := fun r l => loadWord size (got l).1 (r - d)) (bad := fun _ l => (got l).2) (by simpa using hok 0)
        simpa using this
      · have h1 := ih (by omega) (by omega)
        have := wrote_snoc (d := d + k) (by omega) (by
            intro x hx; obtain ⟨j, hj, rfl⟩ := List.mem_map.1 hx; have := List.mem_range.1 hj; omega)
          (by intro hx; obtain ⟨j, hj, h⟩ := List.mem_map.1 hx; have := List.mem_range.1 hj; omega)
          h1 (by simpa using hok k)
        simpa using this
  have h0 : 0 < sizeRegs size := by unfold sizeRegs; split <;> decide
  exact this _ (by omega) h0

theorem cheaper_load {f f' : Frame} (h : Cheaper f f') (amask act : Mask) (d : Nat) (size : BitVec 4) (form : DForm)
    (val : Nat → Nat) (bad : Nat → Bool) : Cheaper (f.writeLoad amask act d size form val bad)
      ((loadRegs size d).foldl (fun (f : Frame) d => f.setReg d (some ⟨.g (List.replicate 32 0), 0⟩)) f') := by
  unfold Frame.writeLoad loadRegs
  rw [List.foldl_map]
  generalize List.range (sizeRegs size) = js
  induction js generalizing f f' with
  | nil => exact h
  | cons j js ih => exact ih (cheaper_setReg h _ _)

/-- There is room for a memory result where there is room for its registers. -/
theorem room_load {g : Group} {size : BitVec 4} {d : Nat} (hr : RoomFor g (loadRegs size d) [] []) (amask act : Mask)
    (form : DForm) (val : Nat → Nat) (bad : Nat → Bool) :
    Room { g with frame := g.frame.writeLoad amask act d size form val bad } :=
  room_cheaper (g := filled g (loadRegs size d) [] []) (cheaper_load (Cheaper.refl _) _ _ _ _ _ _ _) rfl hr

theorem mem_lineOrder {xs : List (Nat × Loc)} {x : Nat × Loc} (h : x ∈ xs) : x.2.pa / 64 ∈ lineOrder xs := by
  have keep : ∀ (ys : List (Nat × Loc)) (acc : List Nat) (k : Nat), k ∈ acc →
      k ∈ ys.foldl (fun a x => if a.contains (x.2.pa / 64) then a else a ++ [x.2.pa / 64]) acc := by
    intro ys
    induction ys with
    | nil => intro acc k hk; exact hk
    | cons y ys ih =>
      intro acc k hk
      rw [List.foldl_cons]
      apply ih
      split
      · exact hk
      · simp [hk]
  have : ∀ (ys : List (Nat × Loc)) (acc : List Nat), x ∈ ys →
      x.2.pa / 64 ∈ ys.foldl (fun a x => if a.contains (x.2.pa / 64) then a else a ++ [x.2.pa / 64]) acc := by
    intro ys
    induction ys with
    | nil => intro acc hx; cases hx
    | cons y ys ih =>
      intro acc hx
      rw [List.foldl_cons]
      obtain rfl | hx := List.mem_cons.1 hx
      · apply keep
        split
        · next hc => exact List.contains_iff_mem.1 hc
        · simp
      · exact ih _ hx
  exact this xs [] h

/-- Lanes that touch at most 16 lines are one batch. -/
theorem batchOf_all {xs : List (Nat × Loc)} (h : (lineOrder xs).length ≤ 16) : batchOf xs 0 = xs := by
  unfold batchOf
  simp only [Nat.mul_zero, List.drop_zero, List.take_of_length_le h]
  exact List.filter_eq_self.2 fun x hx => List.contains_iff_mem.2 (mem_lineOrder hx)

/-- Reads leave every byte of memory as it was. -/
theorem readLanes_byte (t : State) (n : Nat) (xs : List (Nat × Loc)) (b : Nat) :
    (t.readLanes n xs).2.mem.byte b = t.mem.byte b := by
  have : ∀ (ys : List (Nat × Loc)) (u : State), u.mem.cells = t.mem.cells →
      (ys.foldl (fun (t : State) x => (t.readLocPart x.2 n).2.2) u).mem.cells = t.mem.cells := by
    intro ys
    induction ys with
    | nil => intro u hu; exact hu
    | cons y ys ih =>
      intro u hu
      rw [List.foldl_cons]
      apply ih
      simp only [State.readLocPart, State.readPart]
      split
      · exact hu
      · exact (State.sense_cells _ _ _).trans hu
  have h := this xs (t.beatLocs (xs.map Prod.snd) n) (by simp [State.beatLocs])
  unfold Mem.byte State.readLanes
  simp only [h]

/-- The lines a memory instruction touches change only its windows and LAVIOL (02 R45). -/
theorem laLines_sticky (g : Group) (i : Instr) (pas : List Nat) :
    ∃ la x, g.laLines i pas = { g with la := la, gstatus := x } := by
  unfold Group.laLines
  split
  · exact ⟨g.la, g.gstatus, rfl⟩
  · dsimp only
    split <;> split
    · exact ⟨_, _, rfl⟩
    · exact ⟨_, _, rfl⟩
    · exact ⟨_, _, rfl⟩
    · exact ⟨_, _, rfl⟩

/-- A group whose touched lines are counted has room where it had. -/
theorem room_laLines {g : Group} (h : Room g) (i : Instr) (pas : List Nat) (c : Option Nat) :
    Room { g.laLines i pas with lastCopy := c } := by
  obtain ⟨la, x, hx⟩ := laLines_sticky g i pas
  rw [hx]; exact Room.same h rfl rfl

theorem laLines_uid (g : Group) (i : Instr) (pas : List Nat) : (g.laLines i pas).uid = g.uid := by
  obtain ⟨la, x, hx⟩ := laLines_sticky g i pas
  rw [hx]

/-- The result of a lane, found among the results. -/
theorem laneVal_found {ys : List (Nat × Loc)} {r : Loc → Nat × Bool} {got : Nat → Nat × Bool}
    (h : ∀ x ∈ ys, got x.1 = r x.2) {l : Nat} (hl : l ∈ ys.map Prod.fst) :
    laneVal (ys.map fun x => (x.1, r x.2)) l = (got l).1 ∧ laneBad (ys.map fun x => (x.1, r x.2)) l = (got l).2 := by
  obtain ⟨x, hx, rfl⟩ := List.mem_map.1 hl
  unfold laneVal laneBad
  rw [List.find?_map]
  cases hf : ys.find? ((fun (y : Nat × Nat × Bool) => y.1 == x.1) ∘ fun (z : Nat × Loc) => (z.1, r z.2)) with
  | none => exact absurd (List.find?_eq_none.1 hf x hx) (by simp)
  | some z =>
    have hz : z.1 = x.1 := by simpa using List.find?_some hf
    rw [← hz, h z (List.mem_of_find?_eq_some hf)]
    exact ⟨rfl, rfl⟩

/-- The effect of a write may be named by any values that agree in the lanes written. -/
theorem Wrote.congr {f f' : Frame} {amask act : Mask} {ds : List Nat} {form : DForm} {val val' : Nat → Nat → Word}
    {bad bad' : Nat → Nat → Bool} (h : Wrote f f' amask act ⟨ds, form, val, bad⟩)
    (hl : ∀ l, act.getLsbD l = true ∨ form ≠ .g → ∀ d, val d l = val' d l ∧ bad d l = bad' d l) :
    Wrote f f' amask act ⟨ds, form, val', bad'⟩ where
  value d hd l ha := (h.value d hd l ha).trans (hl l (.inl ha) d).1
  poison d hd l ha := (h.poison d hd l ha).trans (hl l (.inl ha) d).2
  partly := h.partly
  full := h.full
  all ha hf d hd l hl32 := by
    have := h.all ha hf d hd l hl32
    exact ⟨this.1.trans (hl l (.inr hf) d).1, this.2.trans (hl l (.inr hf) d).2⟩
  kept := h.kept
  others := h.others
  rest := h.rest

/-- Byte `k` of the first `n` bytes of a number. -/
theorem toBytes_getD (n k x : Nat) (h : k < n) : (toBytes n x).getD k 0 = BitVec.ofNat 8 (x / 2 ^ (8 * k)) := by
  induction n generalizing k x with
  | zero => omega
  | succ n ih =>
    cases k with
    | zero => simp [toBytes]
    | succ k =>
      rw [toBytes, List.getD_cons_succ, ih k _ (by omega), Nat.div_div_eq_div_mul]
      congr 2
      rw [show (256 : Nat) = 2 ^ 8 from rfl, ← pow_add]; congr 1; omega

theorem toBytes_length (n x : Nat) : (toBytes n x).length = n := by
  induction n generalizing x with
  | zero => rfl
  | succ n ih => simp [toBytes, ih]

/-- Mapping a publish page changes a flip bit alone. -/
theorem mapFlip_cells (s : State) (pa pl : Nat) (bs : List Byte) : (s.mapFlip pa pl bs).mem.cells = s.mem.cells := by
  unfold State.mapFlip; dsimp only; split <;> rfl

theorem wf_cells {m m' : Mem} (h : m'.cells = m.cells) : m'.wf = m.wf := by unfold Mem.wf; rw [h]

theorem byte_cells {m m' : Mem} (h : m'.cells = m.cells) (a : Nat) : m'.byte a = m.byte a := by unfold Mem.byte; rw [h]

/-- A write part of memory. -/
theorem writePart_mem {s : State} {pa pl : Nat} {bs : List Byte} {d : Bool} (hm : isControl pa = false) (hw : s.mem.wf = true) :
    (s.writePart pa pl bs d).mem.wf = true ∧ ∀ b,
      (s.writePart pa pl bs d).mem.byte b = if pa ≤ b ∧ b < pa + bs.length then bs.getD (b - pa) 0 else s.mem.byte b := by
  have hc := mapFlip_cells s pa pl bs
  have hw' : (s.mapFlip pa pl bs).mem.wf = true := by rw [wf_cells hc]; exact hw
  unfold State.writePart
  rw [hm, if_neg (by decide)]
  exact ⟨Mem.put_wf _ _ _ hw', fun b => (Mem.byte_put _ _ _ _ hw').trans (by rw [byte_cells hc])⟩

/-- What a store of lanes does to memory that is not control space (05 R120, R122). -/
theorem writeLanes_mem {t : State} {pl n : Nat} {val : Nat → Nat} {bad : Nat → Bool} {xs : List (Nat × Loc)}
    (hm : InMemory t xs) (hw : t.mem.wf = true) :
    (t.writeLanes pl n val bad xs).mem.wf = true ∧ ∀ b,
      (¬Covers t n xs b → (t.writeLanes pl n val bad xs).mem.byte b = t.mem.byte b) ∧
      ∀ pre x post, xs = pre ++ x :: post → Covers t n [x] b → ¬Covers t n post b →
        (t.writeLanes pl n val bad xs).mem.byte b = BitVec.ofNat 8 (val x.1 / 2 ^ (8 * (b - t.mem.backing x.2 false))) := by
  have hl : ∀ x ∈ xs, x.2.lwin = false := fun x hx => by simp [Loc.lwin, (hm x hx).2]
  have hys : (xs.filter fun x => !x.2.lwin) = xs := List.filter_eq_self.2 fun x hx => by simp [hl x hx]
  have hnl : (xs.filter fun x => x.2.lwin) = [] := List.filter_eq_nil_iff.2 fun x hx => by simp [hl x hx]
  have main : ∀ (ys : List (Nat × Loc)) (u : State), (∀ x ∈ ys, isControl (t.mem.backing x.2 false) = false) → u.mem.wf = true →
      let w := (t.reach ys).foldl (fun (t : State) x => t.writePart x.2 pl (toBytes n (val x.1)) (bad x.1)) u
      w.mem.wf = true ∧ ∀ b,
        (¬Covers t n ys b → w.mem.byte b = u.mem.byte b) ∧
        ∀ pre x post, ys = pre ++ x :: post → Covers t n [x] b → ¬Covers t n post b →
          w.mem.byte b = BitVec.ofNat 8 (val x.1 / 2 ^ (8 * (b - t.mem.backing x.2 false))) := by
    intro ys
    induction ys with
    | nil => intro u _ hu; exact ⟨hu, fun b => ⟨fun _ => rfl, fun pre x post h => by simp at h⟩⟩
    | cons y ys ih =>
      intro u hc hu
      obtain ⟨k1, k2⟩ := writePart_mem (pl := pl) (bs := toBytes n (val y.1)) (d := bad y.1) (hc y (by simp)) hu
      obtain ⟨h1, h3⟩ := ih _ (fun x hx => hc x (by simp [hx])) k1
      refine ⟨h1, fun b => ⟨fun hn => ?_, fun pre x post he hcov hpost => ?_⟩⟩
      · have hn1 : ¬Covers t n ys b := fun ⟨x, hx, h⟩ => hn ⟨x, by simp [hx], h⟩
        refine ((h3 b).1 hn1).trans ?_
        rw [k2, if_neg]
        rw [toBytes_length]
        exact fun h => hn ⟨y, by simp, h⟩
      · cases pre with
        | nil =>
          simp only [List.nil_append, List.cons.injEq] at he
          obtain ⟨rfl, rfl⟩ := he
          obtain ⟨z, hz, hb⟩ := hcov
          simp only [List.mem_singleton] at hz
          subst hz
          refine ((h3 b).1 hpost).trans ?_
          rw [k2, if_pos (by rw [toBytes_length]; exact hb), toBytes_getD _ _ _ (by omega)]
        | cons p pre =>
          simp only [List.cons_append, List.cons.injEq] at he
          exact (h3 b).2 pre x post he.2 hcov hpost
  have hb : (t.beatLocs (xs.map Prod.snd) n true).mem = t.mem := State.beats_mem _ _
  have := main xs (t.beatLocs (xs.map Prod.snd) n true) (fun x hx => (hm x hx).1) (by rw [hb]; exact hw)
  rw [hb] at this
  unfold State.writeLanes
  simp only [hys, State.storeLwin, hnl]
  exact this

/-- One access of a home that reads or writes `n` bytes at each of some addresses: the canonical form and every other byte are
kept. -/
def Keeps (t u : State) (n : Nat) (xs : List (Nat × Nat)) : Prop :=
  t.mem.wf = true → u.mem.wf = true ∧ ∀ a, (∀ x ∈ xs, ¬(x.2 ≤ a ∧ a < x.2 + n)) → u.mem.byte a = t.mem.byte a

theorem Keeps.refl (t : State) (n : Nat) (xs : List (Nat × Nat)) : Keeps t t n xs := fun h => ⟨h, fun _ _ => rfl⟩

theorem Keeps.cons {t u v : State} {n : Nat} {x : Nat × Nat} {xs : List (Nat × Nat)} (h : Keeps t u n [x]) (k : Keeps u v n xs) :
    Keeps t v n (x :: xs) := by
  intro hw
  have h1 := h hw
  have h2 := k h1.1
  refine ⟨h2.1, fun a ha => ?_⟩
  rw [h2.2 a fun y hy => ha y (by simp [hy]), h1.2 a fun y hy => ha y (by simp at hy; simp [hy])]

/-- The addresses that locations reach cover the bytes that the locations cover. -/
theorem Keeps.covers {t u : State} {n : Nat} {xs : List (Nat × Loc)} (h : Keeps t u n (t.reach xs)) (hw : t.mem.wf = true) :
    u.mem.wf = true ∧ ∀ a, ¬Covers t n xs a → u.mem.byte a = t.mem.byte a := by
  refine ⟨(h hw).1, fun a ha => (h hw).2 a fun x hx hb => ?_⟩
  obtain ⟨y, hy, rfl⟩ := List.mem_map.1 hx
  exact ha ⟨y, hy, hb⟩

/-- A read part keeps every byte. -/
theorem readPart_cells (s : State) (pa n : Nat) : (s.readPart pa n).2.2.mem.cells = s.mem.cells := by
  unfold State.readPart; split
  · rfl
  · exact State.sense_cells _ _ _

/-- A read part of memory, then a write of it or not. -/
theorem keeps_part {t : State} {n pl : Nat} {x : Nat × Nat} {bs : List Byte} {d : Bool} (hb : bs.length = n)
    (hm : isControl x.2 = false) :
    Keeps t ((t.readPart x.2 n).2.2.writePart x.2 pl bs d) n [x] ∧ Keeps t (t.readPart x.2 n).2.2 n [x] := by
  have hc := readPart_cells t x.2 n
  refine ⟨fun hw => ?_, fun hw => ⟨by rw [wf_cells hc]; exact hw, fun a _ => byte_cells hc a⟩⟩
  obtain ⟨k1, k2⟩ := writePart_mem (pl := pl) (bs := bs) (d := d) hm (s := (t.readPart x.2 n).2.2) (by rw [wf_cells hc]; exact hw)
  refine ⟨k1, fun a ha => ?_⟩
  rw [k2, if_neg, byte_cells hc]
  rw [hb]; exact ha x (by simp)

/-- What an atomic combination of lanes does to memory (09 R234). -/
theorem atomRuns_keeps {t : State} {pl op n : Nat} {val : Nat → Nat} {bad : Nat → Bool} {xs : List (Nat × Nat)}
    (hm : ∀ x ∈ xs, isControl x.2 = false) : Keeps t (t.atomRuns pl op n val bad xs).2.2 n xs := by
  induction xs generalizing t with
  | nil => exact Keeps.refl _ _ _
  | cons x xs ih =>
    exact Keeps.cons (keeps_part (t := t) (n := n) (pl := pl) (x := x) (d := bad x.1)
      (bs := toBytes n (combine op n (t.readPart x.2 n).1 (val x.1)).1) (toBytes_length _ _) (hm x (by simp))).1
      (ih fun y hy => hm y (by simp [hy]))

theorem reach_memory {t : State} {xs : List (Nat × Loc)} (hm : InMemory t xs) : ∀ x ∈ t.reach xs, isControl x.2 = false := by
  intro x hx
  obtain ⟨y, hy, rfl⟩ := List.mem_map.1 hx
  exact (hm y hy).1

theorem atomLanes_keeps {t : State} {pl op n : Nat} {val : Nat → Nat} {bad : Nat → Bool} {xs : List (Nat × Loc)}
    (hm : InMemory t xs) : Keeps t (t.atomLanes pl op n val bad xs).2.2 n (t.reach xs) :=
  atomRuns_keeps (reach_memory hm)

/-- What a compare-and-swap of lanes does to memory (09 R235). -/
theorem casRuns_keeps {t : State} {pl n : Nat} {cmp new : Nat → Nat} {bad : Nat → Bool} {xs : List (Nat × Nat)}
    (hm : ∀ x ∈ xs, isControl x.2 = false) : Keeps t (t.casRuns pl n cmp new bad xs).2.2 n xs := by
  induction xs generalizing t with
  | nil => exact Keeps.refl _ _ _
  | cons x xs ih =>
    have h1 : Keeps t (if (t.readPart x.2 n).1 == cmp x.1
        then (t.readPart x.2 n).2.2.writePart x.2 pl (toBytes n (new x.1)) (bad x.1)
        else (t.readPart x.2 n).2.2) n [x] := by
      have h := keeps_part (t := t) (n := n) (pl := pl) (x := x) (d := bad x.1)
        (bs := toBytes n (new x.1)) (toBytes_length _ _) (hm x (by simp))
      split
      · exact h.1
      · exact h.2
    exact Keeps.cons h1 (ih fun y hy => hm y (by simp [hy]))

theorem casLanes_keeps {t : State} {pl n : Nat} {cmp new : Nat → Nat} {bad : Nat → Bool} {xs : List (Nat × Loc)}
    (hm : InMemory t xs) : Keeps t (t.casLanes pl n cmp new bad xs).2.2 n (t.reach xs) :=
  casRuns_keeps (reach_memory hm)

/-- The failing lanes of a check, their mask and the address reported. -/
theorem failing_spec {act : Mask} {ops : List AddrOp} {p : AddrOp → Nat → Prop} {b : AddrOp → Nat → Bool} {m : Mask} {addr : Nat}
    (hb : ∀ o v, b o v = true ↔ p o v) (h : Fails act ops p m addr) :
    failing (lanesOf act) ops b ≠ [] ∧ failMask ((failing (lanesOf act) ops b).map Prod.fst) = m ∧
      ((failing (lanesOf act) ops b).map Prod.snd).headD 0 = addr := by
  obtain ⟨hm, l, hl, hlow, pre, o, post, rfl, hbo, rfl, hpre⟩ := h
  have hmem (k : Nat) : k ∈ (failing (lanesOf act) (pre ++ o :: post) b).map Prod.fst ↔ m.getLsbD k = true := by
    unfold failing
    rw [hm]
    simp only [List.mem_map, List.mem_filterMap, Option.map_eq_some_iff, mem_lanesOf]
    constructor
    · rintro ⟨x, ⟨j, hj, q, hq, rfl⟩, rfl⟩
      exact ⟨hj, q, List.mem_of_find?_eq_some hq, (hb _ _).1 (List.find?_some (p := fun o => b o (o.va j)) hq)⟩
    · rintro ⟨hk, q, hq, hbq⟩
      cases hf : (pre ++ o :: post).find? (fun o => b o (o.va k)) with
      | none => exact absurd ((hb _ _).2 hbq) (List.find?_eq_none.1 hf q hq)
      | some q' => exact ⟨_, ⟨k, hk, q', hf, rfl⟩, rfl⟩
  have hfind : (pre ++ o :: post).find? (fun o => b o (o.va l)) = some o := by
    rw [List.find?_append, List.find?_eq_none.2 (fun x hx hc => hpre x hx ((hb _ _).1 hc)), Option.none_or, List.find?_cons,
      (hb _ _).2 hbo]
  have hhead : (failing (lanesOf act) (pre ++ o :: post) b).head? = some (l, o.va l) := by
    unfold failing
    have hla : act.getLsbD l = true := ((hm l).1 hl).1
    have hl32 := getLsbD_lt hla
    obtain ⟨as, bs, hab, has⟩ : ∃ as bs, lanesOf act = as ++ l :: bs ∧ ∀ k ∈ as, k < l := by
      obtain ⟨as, bs, h⟩ := List.append_of_mem (mem_lanesOf.2 hla)
      refine ⟨as, bs, h, fun k hk => ?_⟩
      have hp : (lanesOf act).Pairwise (· < ·) := List.Pairwise.filter _ List.pairwise_lt_range
      rw [h, List.pairwise_append] at hp
      exact hp.2.2 k hk l (by simp)
    rw [hab, List.filterMap_append, List.filterMap_cons]
    have : as.filterMap (fun l => ((pre ++ o :: post).find? fun o => b o (o.va l)).map fun o => (l, o.va l)) = [] := by
      rw [List.filterMap_eq_nil_iff]
      intro k hk
      cases hf : (pre ++ o :: post).find? (fun o => b o (o.va k)) with
      | none => rfl
      | some q =>
        have h1 : m.getLsbD k = true := (hm k).2 ⟨mem_lanesOf.1 (by rw [hab]; simp [hk]), q, List.mem_of_find?_eq_some hf, (hb _ _).1 (List.find?_some (p := fun o => b o (o.va k)) hf)⟩
        rw [hlow k (has k hk)] at h1; cases h1
    rw [this, hfind]; rfl
  refine ⟨fun hn => (by rw [hn] at hhead; cases hhead), ?_, ?_⟩
  · apply BitVec.eq_of_getLsbD_eq
    intro k hk
    rw [failMask, maskOf_getLsbD, decide_eq_true hk, Bool.true_and, Bool.eq_iff_iff, List.contains_iff_mem, hmem]
  · cases hx : failing (lanesOf act) (pre ++ o :: post) b with
    | nil => rw [hx] at hhead; cases hhead
    | cons y ys => rw [hx] at hhead; cases hhead; rfl

/-- An address out of range is trapped. -/
theorem checks3_far {g : Group} {code : Nat} {act : Mask} {ops : List AddrOp} {m : Mask} {addr : Nat}
   (hc : ∀ r ∈ ops.flatMap AddrOp.regs, ∀ l, act.getLsbD l = true → g.frame.bad r l = false)
   (h : Fails act ops (fun _ v => 2 ^ 56 ≤ v) m addr) : checks3 g code act ops = some (laneTrap 6 code m addr) := by
  obtain ⟨h1, h2, h3⟩ := failing_spec (b := fun _ v => decide (2 ^ 56 ≤ v)) (fun _ _ => decide_eq_true_iff) h
  unfold checks3
  rw [poisonUse_none hc]
  dsimp only
  rw [if_pos (by simpa using h1)]
  unfold lanesTrap
  rw [h2, h3]

/-- A misaligned address is trapped. -/
theorem checks3_odd {g : Group} {code : Nat} {act : Mask} {ops : List AddrOp} {m : Mask} {addr : Nat}
   (hc : ∀ r ∈ ops.flatMap AddrOp.regs, ∀ l, act.getLsbD l = true → g.frame.bad r l = false)
   (hr : ∀ l, act.getLsbD l = true → ∀ x ∈ ops, x.va l < 2 ^ 56)
   (h : Fails act ops (fun x v => v % x.align ≠ 0) m addr) : checks3 g code act ops = some (laneTrap 7 code m addr) := by
  obtain ⟨h1, h2, h3⟩ := failing_spec (b := fun x v => v % x.align != 0) (fun _ _ => bne_iff_ne) h
  unfold checks3
  rw [poisonUse_none hc]
  dsimp only
  rw [if_neg, if_pos (by simpa using h1)]
  · unfold lanesTrap
    rw [h2, h3]
  · have : failing (lanesOf act) ops (fun _ v => decide (2 ^ 56 ≤ v)) = [] :=
      failing_nil fun l hl o ho => by have := hr l (mem_lanesOf.1 hl) o ho; simp; omega
    rw [this]; simp

/-- Poison of an address register is trapped first. -/
theorem checks3_poison {g : Group} {code : Nat} {act : Mask} {ops : List AddrOp} {r l : Nat} (hr : r < 64)
   (h : FirstPoison g.frame act (ops.flatMap AddrOp.regs) r l) : checks3 g code act ops = some (mkTrap 13 (r + 256 * l)) := by
  unfold checks3; rw [poisonUse_first hr h]

/-- A failed check ends the instruction. -/
theorem resolve_trap {s : State} {e : Env} {a : Access} {o : AddrOp} {t : Trap} (hc : e.g.carried = none) (hb : s.sideBusy e.g.uid = false)
   (h : checks3 e.g a.code e.act [o] = some t) : resolve s e a e.act o = .out (.trap s t) := by
  unfold resolve; simp only [hc, hb, h, Bool.false_eq_true, if_false]

theorem beatTwice_mem (t : State) (xs : List Loc) (n : Nat) : (t.beatTwice xs n).mem = t.mem := by
  unfold State.beatTwice State.beatLocs; simp

theorem beatLocs_mem (t : State) (xs : List Loc) (n : Nat) {w : Bool} : (t.beatLocs xs n w).mem = t.mem := by
  unfold State.beatLocs; simp

theorem inMemory_mem {t u : State} (h : u.mem = t.mem) {xs} (hm : InMemory t xs) : InMemory u xs := by
  unfold InMemory at *; rw [h]; exact hm

theorem pstore_room {g : Group} (h : Room g) (m : Mask) (b : Nat → Bool) (st : Word) : Room ((g.pstore m b).sticky st) := by
  unfold Group.pstore; split <;> exact Room.same h rfl rfl

/-- The result found for a lane. -/
theorem lane_found {got : List (Nat × Nat × Bool)} {out : Nat → Nat × Bool} (h : ∀ r ∈ got, out r.1 = r.2) {l : Nat}
    (hl : l ∈ got.map Prod.fst) : (laneVal got l, laneBad got l) = out l := by
  obtain ⟨x, hx, rfl⟩ := List.mem_map.1 hl
  unfold laneVal laneBad
  cases hf : got.find? (fun r => r.1 == x.1) with
  | none => exact absurd (List.find?_eq_none.1 hf x hx) (by simp)
  | some z =>
    have hz : z.1 = x.1 := by simpa using List.find?_some hf
    rw [← hz, h z (List.mem_of_find?_eq_some hf)]; rfl

/-- Each lane has its result. -/
theorem atomRuns_lanes (t : State) (pl op n : Nat) (val bad) (xs) : (t.atomRuns pl op n val bad xs).1.map Prod.fst = xs.map Prod.fst := by
  induction xs generalizing t with
  | nil => rfl
  | cons x xs ih => exact congrArg (x.1 :: ·) (ih _)

theorem atomLanes_lanes (t : State) (pl op n : Nat) (val bad) (xs) : (t.atomLanes pl op n val bad xs).1.map Prod.fst = xs.map Prod.fst := by
  unfold State.atomLanes State.reach
  rw [atomRuns_lanes, List.map_map]; rfl

theorem casRuns_lanes (t : State) (pl n : Nat) (cmp new bad) (xs) : (t.casRuns pl n cmp new bad xs).1.map Prod.fst = xs.map Prod.fst := by
  induction xs generalizing t with
  | nil => rfl
  | cons x xs ih => exact congrArg (x.1 :: ·) (ih _)

theorem casLanes_lanes (t : State) (pl n : Nat) (cmp new bad) (xs) : (t.casLanes pl n cmp new bad xs).1.map Prod.fst = xs.map Prod.fst := by
  unfold State.casLanes State.reach
  rw [casRuns_lanes, List.map_map]; rfl

end Sys2Proof.Laws
end

