-- ==== Sys2Proof/Laws/PerInstr.lean ====
section
/-! SUPPORT. Statements about each instruction as syntax: the family `Major`, that an instruction's format and major are
ones the decoder reads under that format (06 R148, Tables 6-2 to 6-4). The round trip of the encoding rests on it. -/

namespace Sys2Proof.Laws

/-- Whether a format's major is one the decoder reads under that format. -/
def Major.legal : Fmt → Bool
  | .c16 op _ => decide (op < 16)
  | .a32 maj _ => decide (maj ≤ 9) || maj == 19 || maj == 20 || maj == 23
  | .i32 maj _ => decide (10 ≤ maj) && decide (maj ≤ 16) || maj == 21 || maj == 22
  | .i15 maj _ => maj == 17
  | .b32 maj _ => maj == 18
  | .t64 maj _ => decide (maj ≤ 4) || decide (14 ≤ maj) && decide (maj ≤ 18) || maj == 56
  | .m64 maj _ => decide (8 ≤ maj) && decide (maj ≤ 13)
  | .l64 maj _ => maj == 5
  | .j64 maj _ => maj == 6 || maj == 7
  | .event => true

/-- The format and major of instruction `i` are a pair the decoder maps to that format. -/
def Major.Statement (i : Instr) : Prop := Major.legal i.fmt = true

theorem Major.c16Mov (o : C16) : Major.Statement (.c16Mov o) := rfl
theorem Major.c16Add (o : C16) : Major.Statement (.c16Add o) := rfl
theorem Major.c16Sub (o : C16) : Major.Statement (.c16Sub o) := rfl
theorem Major.c16And (o : C16) : Major.Statement (.c16And o) := rfl
theorem Major.c16Or (o : C16) : Major.Statement (.c16Or o) := rfl
theorem Major.c16Xor (o : C16) : Major.Statement (.c16Xor o) := rfl
theorem Major.c16Shli (o : C16) : Major.Statement (.c16Shli o) := rfl
theorem Major.c16Shri (o : C16) : Major.Statement (.c16Shri o) := rfl
theorem Major.c16Addi (o : C16) : Major.Statement (.c16Addi o) := rfl
theorem Major.c16Movi (o : C16) : Major.Statement (.c16Movi o) := rfl
theorem Major.c16Mul (o : C16) : Major.Statement (.c16Mul o) := rfl
theorem Major.c16Fadd (o : C16) : Major.Statement (.c16Fadd o) := rfl
theorem Major.c16Fsub (o : C16) : Major.Statement (.c16Fsub o) := rfl
theorem Major.c16Fmul (o : C16) : Major.Statement (.c16Fmul o) := rfl
theorem Major.c16Fmax (o : C16) : Major.Statement (.c16Fmax o) := rfl
theorem Major.c16Fmin (o : C16) : Major.Statement (.c16Fmin o) := rfl
theorem Major.add (o : A32) : Major.Statement (.add o) := rfl
theorem Major.sub (o : A32) : Major.Statement (.sub o) := rfl
theorem Major.mul (o : A32) : Major.Statement (.mul o) := rfl
theorem Major.mulhi (o : A32) : Major.Statement (.mulhi o) := rfl
theorem Major.mulhiz (o : A32) : Major.Statement (.mulhiz o) := rfl
theorem Major.abs (o : A32) : Major.Statement (.abs o) := rfl
theorem Major.min (o : A32) : Major.Statement (.min o) := rfl
theorem Major.max (o : A32) : Major.Statement (.max o) := rfl
theorem Major.minz (o : A32) : Major.Statement (.minz o) := rfl
theorem Major.maxz (o : A32) : Major.Statement (.maxz o) := rfl
theorem Major.and (o : A32) : Major.Statement (.and o) := rfl
theorem Major.or (o : A32) : Major.Statement (.or o) := rfl
theorem Major.xor (o : A32) : Major.Statement (.xor o) := rfl
theorem Major.andn (o : A32) : Major.Statement (.andn o) := rfl
theorem Major.orn (o : A32) : Major.Statement (.orn o) := rfl
theorem Major.rotl (o : A32) : Major.Statement (.rotl o) := rfl
theorem Major.shl (o : A32) : Major.Statement (.shl o) := rfl
theorem Major.shr (o : A32) : Major.Statement (.shr o) := rfl
theorem Major.sar (o : A32) : Major.Statement (.sar o) := rfl
theorem Major.clz (o : A32) : Major.Statement (.clz o) := rfl
theorem Major.ctz (o : A32) : Major.Statement (.ctz o) := rfl
theorem Major.popc (o : A32) : Major.Statement (.popc o) := rfl
theorem Major.brev (o : A32) : Major.Statement (.brev o) := rfl
theorem Major.bpick (o : A32) : Major.Statement (.bpick o) := rfl
theorem Major.bfx (o : A32) : Major.Statement (.bfx o) := rfl
theorem Major.bfxs (o : A32) : Major.Statement (.bfxs o) := rfl
theorem Major.bfi (o : A32) : Major.Statement (.bfi o) := rfl
theorem Major.sel (o : A32) : Major.Statement (.sel o) := rfl
theorem Major.add64 (o : A32) : Major.Statement (.add64 o) := rfl
theorem Major.sub64 (o : A32) : Major.Statement (.sub64 o) := rfl
theorem Major.mov (o : A32) : Major.Statement (.mov o) := rfl
theorem Major.actmask (o : A32) : Major.Statement (.actmask o) := rfl
theorem Major.cmp (o : A32) : Major.Statement (.cmp o) := rfl
theorem Major.fadd (o : A32) : Major.Statement (.fadd o) := rfl
theorem Major.fsub (o : A32) : Major.Statement (.fsub o) := rfl
theorem Major.fmul (o : A32) : Major.Statement (.fmul o) := rfl
theorem Major.fmin (o : A32) : Major.Statement (.fmin o) := rfl
theorem Major.fmax (o : A32) : Major.Statement (.fmax o) := rfl
theorem Major.fsat (o : A32) : Major.Statement (.fsat o) := rfl
theorem Major.fscale (o : A32) : Major.Statement (.fscale o) := rfl
theorem Major.fgetexp (o : A32) : Major.Statement (.fgetexp o) := rfl
theorem Major.fcmp (o : A32) : Major.Statement (.fcmp o) := rfl
theorem Major.pand (o : A32) : Major.Statement (.pand o) := rfl
theorem Major.por (o : A32) : Major.Statement (.por o) := rfl
theorem Major.pxor (o : A32) : Major.Statement (.pxor o) := rfl
theorem Major.pandn (o : A32) : Major.Statement (.pandn o) := rfl
theorem Major.pnot (o : A32) : Major.Statement (.pnot o) := rfl
theorem Major.pmov (o : A32) : Major.Statement (.pmov o) := rfl
theorem Major.ptov (o : A32) : Major.Statement (.ptov o) := rfl
theorem Major.vtop (o : A32) : Major.Statement (.vtop o) := rfl
theorem Major.xlaneGet (o : A32) : Major.Statement (.xlaneGet o) := rfl
theorem Major.xlaneRot (o : A32) : Major.Statement (.xlaneRot o) := rfl
theorem Major.xlaneFlip (o : A32) : Major.Statement (.xlaneFlip o) := rfl
theorem Major.xlaneShift (o : A32) : Major.Statement (.xlaneShift o) := rfl
theorem Major.pcount (o : A32) : Major.Statement (.pcount o) := rfl
theorem Major.pmask (o : A32) : Major.Statement (.pmask o) := rfl
theorem Major.pfirst (o : A32) : Major.Statement (.pfirst o) := rfl
theorem Major.vrank (o : A32) : Major.Statement (.vrank o) := rfl
theorem Major.pkadd (o : A32) : Major.Statement (.pkadd o) := rfl
theorem Major.pkmul (o : A32) : Major.Statement (.pkmul o) := rfl
theorem Major.pkmax (o : A32) : Major.Statement (.pkmax o) := rfl
theorem Major.pkmin (o : A32) : Major.Statement (.pkmin o) := rfl
theorem Major.addi (o : I32) : Major.Statement (.addi o) := rfl
theorem Major.andi (o : I32) : Major.Statement (.andi o) := rfl
theorem Major.ori (o : I32) : Major.Statement (.ori o) := rfl
theorem Major.xori (o : I32) : Major.Statement (.xori o) := rfl
theorem Major.shli (o : I32) : Major.Statement (.shli o) := rfl
theorem Major.shri (o : I32) : Major.Statement (.shri o) := rfl
theorem Major.sari (o : I32) : Major.Statement (.sari o) := rfl
theorem Major.rotli (o : I32) : Major.Statement (.rotli o) := rfl
theorem Major.muli (o : I32) : Major.Statement (.muli o) := rfl
theorem Major.cmpi (o : I32) : Major.Statement (.cmpi o) := rfl
theorem Major.movi (o : I15) : Major.Statement (.movi o) := rfl
theorem Major.bra (o : B32) : Major.Statement (.bra o) := rfl
theorem Major.laneid (o : A32) : Major.Statement (.laneid o) := rfl
theorem Major.grprank (o : A32) : Major.Statement (.grprank o) := rfl
theorem Major.teamid (o : A32) : Major.Statement (.teamid o) := rfl
theorem Major.ftime (o : A32) : Major.Statement (.ftime o) := rfl
theorem Major.poisonq (o : A32) : Major.Statement (.poisonq o) := rfl
theorem Major.formq (o : A32) : Major.Statement (.formq o) := rfl
theorem Major.nop (o : A32) : Major.Statement (.nop o) := rfl
theorem Major.yield (o : A32) : Major.Statement (.yield o) := rfl
theorem Major.ret (o : A32) : Major.Statement (.ret o) := rfl
theorem Major.exit (o : A32) : Major.Statement (.exit o) := rfl
theorem Major.brx (o : A32) : Major.Statement (.brx o) := rfl
theorem Major.callx (o : A32) : Major.Statement (.callx o) := rfl
theorem Major.join (o : A32) : Major.Statement (.join o) := rfl
theorem Major.wsync (o : A32) : Major.Statement (.wsync o) := rfl
theorem Major.pin (o : A32) : Major.Statement (.pin o) := rfl
theorem Major.unpin (o : A32) : Major.Statement (.unpin o) := rfl
theorem Major.trap (o : I32) : Major.Statement (.trap o) := rfl
theorem Major.syscall (o : I32) : Major.Statement (.syscall o) := rfl
theorem Major.redux (o : A32) : Major.Statement (.redux o) := rfl
theorem Major.ffma (o : T64) : Major.Statement (.ffma o) := rfl
theorem Major.dfma (o : T64) : Major.Statement (.dfma o) := rfl
theorem Major.pkfmaF16 (o : T64) : Major.Statement (.pkfmaF16 o) := rfl
theorem Major.pkfmaBf16 (o : T64) : Major.Statement (.pkfmaBf16 o) := rfl
theorem Major.mad (o : T64) : Major.Statement (.mad o) := rfl
theorem Major.madw (o : T64) : Major.Statement (.madw o) := rfl
theorem Major.dot4 (o : T64) : Major.Statement (.dot4 o) := rfl
theorem Major.dot4z (o : T64) : Major.Statement (.dot4z o) := rfl
theorem Major.dot2bf (o : T64) : Major.Statement (.dot2bf o) := rfl
theorem Major.fdiv (o : T64) : Major.Statement (.fdiv o) := rfl
theorem Major.fsqrt (o : T64) : Major.Statement (.fsqrt o) := rfl
theorem Major.frcp (o : T64) : Major.Statement (.frcp o) := rfl
theorem Major.frsq (o : T64) : Major.Statement (.frsq o) := rfl
theorem Major.fexp2 (o : T64) : Major.Statement (.fexp2 o) := rfl
theorem Major.flog2 (o : T64) : Major.Statement (.flog2 o) := rfl
theorem Major.fsin (o : T64) : Major.Statement (.fsin o) := rfl
theorem Major.fcos (o : T64) : Major.Statement (.fcos o) := rfl
theorem Major.frnd (o : T64) : Major.Statement (.frnd o) := rfl
theorem Major.fclass (o : T64) : Major.Statement (.fclass o) := rfl
theorem Major.ddiv (o : T64) : Major.Statement (.ddiv o) := rfl
theorem Major.dsqrt (o : T64) : Major.Statement (.dsqrt o) := rfl
theorem Major.dadd (o : T64) : Major.Statement (.dadd o) := rfl
theorem Major.dsub (o : T64) : Major.Statement (.dsub o) := rfl
theorem Major.dmul (o : T64) : Major.Statement (.dmul o) := rfl
theorem Major.dmin (o : T64) : Major.Statement (.dmin o) := rfl
theorem Major.dmax (o : T64) : Major.Statement (.dmax o) := rfl
theorem Major.dcmp (o : T64) : Major.Statement (.dcmp o) := rfl
theorem Major.div (o : T64) : Major.Statement (.div o) := rfl
theorem Major.divz (o : T64) : Major.Statement (.divz o) := rfl
theorem Major.rem (o : T64) : Major.Statement (.rem o) := rfl
theorem Major.remz (o : T64) : Major.Statement (.remz o) := rfl
theorem Major.cvtF2f (o : T64) : Major.Statement (.cvtF2f o) := rfl
theorem Major.cvtF2i (o : T64) : Major.Statement (.cvtF2i o) := rfl
theorem Major.cvtI2f (o : T64) : Major.Statement (.cvtI2f o) := rfl
theorem Major.cvtNarrow (o : T64) : Major.Statement (.cvtNarrow o) := rfl
theorem Major.cvtWiden (o : T64) : Major.Statement (.cvtWiden o) := rfl
theorem Major.packmx (o : T64) : Major.Statement (.packmx o) := rfl
theorem Major.planeSplit (o : T64) : Major.Statement (.planeSplit o) := rfl
theorem Major.planeJoin (o : T64) : Major.Statement (.planeJoin o) := rfl
theorem Major.rngCb (o : T64) : Major.Statement (.rngCb o) := rfl
theorem Major.movi32 (o : L64) : Major.Statement (.movi32 o) := rfl
theorem Major.addi32 (o : L64) : Major.Statement (.addi32 o) := rfl
theorem Major.call (o : J64) : Major.Statement (.call o) := rfl
theorem Major.brl (o : J64) : Major.Statement (.brl o) := rfl
theorem Major.enter (o : J64) : Major.Statement (.enter o) := rfl
theorem Major.ld (o : M64) : Major.Statement (.ld o) := rfl
theorem Major.ldL (o : M64) : Major.Statement (.ldL o) := rfl
theorem Major.st (o : M64) : Major.Statement (.st o) := rfl
theorem Major.stP (o : M64) : Major.Statement (.stP o) := rfl
theorem Major.atom (o : M64) : Major.Statement (.atom o) := rfl
theorem Major.atomCas (o : M64) : Major.Statement (.atomCas o) := rfl
theorem Major.redP (o : M64) : Major.Statement (.redP o) := rfl
theorem Major.redK (o : M64) : Major.Statement (.redK o) := rfl
theorem Major.redclose (o : M64) : Major.Statement (.redclose o) := rfl
theorem Major.fence (o : M64) : Major.Statement (.fence o) := rfl
theorem Major.barInit (o : M64) : Major.Statement (.barInit o) := rfl
theorem Major.barArrive (o : M64) : Major.Statement (.barArrive o) := rfl
theorem Major.barWait (o : M64) : Major.Statement (.barWait o) := rfl
theorem Major.barSync (o : M64) : Major.Statement (.barSync o) := rfl
theorem Major.cwait (o : M64) : Major.Statement (.cwait o) := rfl
theorem Major.migrate (o : M64) : Major.Statement (.migrate o) := rfl
theorem Major.park (o : M64) : Major.Statement (.park o) := rfl
theorem Major.wake (o : M64) : Major.Statement (.wake o) := rfl
theorem Major.qpush (o : M64) : Major.Statement (.qpush o) := rfl
theorem Major.qpop (o : M64) : Major.Statement (.qpop o) := rfl
theorem Major.copy (o : T64) : Major.Statement (.copy o) := rfl
theorem Major.copyS (o : T64) : Major.Statement (.copyS o) := rfl
theorem Major.twait (o : T64) : Major.Statement (.twait o) := rfl
theorem Major.tpoll (o : T64) : Major.Statement (.tpoll o) := rfl
theorem Major.cfill (o : T64) : Major.Statement (.cfill o) := rfl
theorem Major.publish (o : T64) : Major.Statement (.publish o) := rfl
theorem Major.hset (o : T64) : Major.Statement (.hset o) := rfl
theorem Major.hget (o : T64) : Major.Statement (.hget o) := rfl
theorem Major.hload (o : T64) : Major.Statement (.hload o) := rfl
theorem Major.tld (o : T64) : Major.Statement (.tld o) := rfl
theorem Major.tst (o : T64) : Major.Statement (.tst o) := rfl
theorem Major.tnext (o : T64) : Major.Statement (.tnext o) := rfl
theorem Major.tpos (o : T64) : Major.Statement (.tpos o) := rfl
theorem Major.mgopen (o : T64) : Major.Statement (.mgopen o) := rfl
theorem Major.mgpush (o : T64) : Major.Statement (.mgpush o) := rfl
theorem Major.mgseal (o : T64) : Major.Statement (.mgseal o) := rfl
theorem Major.mgwait (o : T64) : Major.Statement (.mgwait o) := rfl
theorem Major.mgstat (o : T64) : Major.Statement (.mgstat o) := rfl
theorem Major.mgstatK (o : T64) : Major.Statement (.mgstatK o) := rfl
theorem Major.mgresume (o : T64) : Major.Statement (.mgresume o) := rfl
theorem Major.mgclose (o : T64) : Major.Statement (.mgclose o) := rfl
theorem Major.mclaim (o : T64) : Major.Statement (.mclaim o) := rfl
theorem Major.mrelease (o : T64) : Major.Statement (.mrelease o) := rfl
theorem Major.mloadb (o : T64) : Major.Statement (.mloadb o) := rfl
theorem Major.mloads (o : T64) : Major.Statement (.mloads o) := rfl
theorem Major.mzero (o : T64) : Major.Statement (.mzero o) := rfl
theorem Major.mma (o : T64) : Major.Statement (.mma o) := rfl
theorem Major.mloop (o : T64) : Major.Statement (.mloop o) := rfl
theorem Major.mbatch (o : T64) : Major.Statement (.mbatch o) := rfl
theorem Major.msparse (o : T64) : Major.Statement (.msparse o) := rfl
theorem Major.mwait (o : T64) : Major.Statement (.mwait o) := rfl
theorem Major.mread (o : T64) : Major.Statement (.mread o) := rfl
theorem Major.mstore (o : T64) : Major.Statement (.mstore o) := rfl
theorem Major.mstat (o : T64) : Major.Statement (.mstat o) := rfl
theorem Major.mprog (o : T64) : Major.Statement (.mprog o) := rfl
theorem Major.mfs (o : T64) : Major.Statement (.mfs o) := rfl
theorem Major.mts (o : T64) : Major.Statement (.mts o) := rfl
theorem Major.rte (o : T64) : Major.Statement (.rte o) := rfl
theorem Major.rdprev (o : T64) : Major.Statement (.rdprev o) := rfl
theorem Major.rdprevP (o : T64) : Major.Statement (.rdprevP o) := rfl
theorem Major.wrprev (o : T64) : Major.Statement (.wrprev o) := rfl
theorem Major.wrprevP (o : T64) : Major.Statement (.wrprevP o) := rfl
theorem Major.replay (o : T64) : Major.Statement (.replay o) := rfl
theorem Major.replayPage (o : T64) : Major.Statement (.replayPage o) := rfl
theorem Major.tlbinvPage (o : T64) : Major.Statement (.tlbinvPage o) := rfl
theorem Major.tlbinvCtx (o : T64) : Major.Statement (.tlbinvCtx o) := rfl
theorem Major.tlbinvAll (o : T64) : Major.Statement (.tlbinvAll o) := rfl
theorem Major.parkctx (o : T64) : Major.Statement (.parkctx o) := rfl
theorem Major.wakectx (o : T64) : Major.Statement (.wakectx o) := rfl
theorem Major.wakectxGrp (o : T64) : Major.Statement (.wakectxGrp o) := rfl
theorem Major.idle (o : T64) : Major.Statement (.idle o) := rfl
theorem Major.fsinx (o : T64) : Major.Statement (.fsinx o) := rfl
theorem Major.fcosx (o : T64) : Major.Statement (.fcosx o) := rfl
theorem Major.crossingArrival (src dst : Nat) : Major.Statement (.crossingArrival src dst) := rfl
theorem Major.berthRelease (l core berth : Nat) : Major.Statement (.berthRelease l core berth) := rfl
theorem Major.admission (l : Nat) : Major.Statement (.admission l) := rfl
theorem Major.overflowReturn (l : Nat) : Major.Statement (.overflowReturn l) := rfl
theorem Major.wharfPromotion (l uid : Nat) : Major.Statement (.wharfPromotion l uid) := rfl
theorem Major.arrival (src dst : Nat) : Major.Statement (.arrival src dst) := rfl
theorem Major.exitNotice (src dst : Nat) : Major.Statement (.exitNotice src dst) := rfl
theorem Major.liveRankChange (src dst : Nat) : Major.Statement (.liveRankChange src dst) := rfl
theorem Major.postedStoreApply (src dst : Nat) : Major.Statement (.postedStoreApply src dst) := rfl
theorem Major.reductionApply (src dst : Nat) : Major.Statement (.reductionApply src dst) := rfl
theorem Major.keyedBufferEntry (src dst : Nat) : Major.Statement (.keyedBufferEntry src dst) := rfl
theorem Major.flip (src dst : Nat) : Major.Statement (.flip src dst) := rfl
theorem Major.closeCommand (l : Nat) : Major.Statement (.closeCommand l) := rfl
theorem Major.tideSample (scope : TideScope) (l : Nat) : Major.Statement (.tideSample scope l) := rfl
theorem Major.tideAdoption (scope : TideScope) (l : Nat) : Major.Statement (.tideAdoption scope l) := rfl
theorem Major.copyLine (id k : Nat) : Major.Statement (.copyLine id k) := rfl
theorem Major.windowSpill (uid : Nat) : Major.Statement (.windowSpill uid) := rfl
theorem Major.refill (uid : Nat) : Major.Statement (.refill uid) := rfl
theorem Major.parkCommand (ctxid l : Nat) : Major.Statement (.parkCommand ctxid l) := rfl
theorem Major.drainMarker (src dst : Nat) : Major.Statement (.drainMarker src dst) := rfl
theorem Major.parkReport (ctxid l : Nat) : Major.Statement (.parkReport ctxid l) := rfl
theorem Major.claimNarrowing (l core : Nat) : Major.Statement (.claimNarrowing l core) := rfl
theorem Major.claimRestore (ctxid l core : Nat) : Major.Statement (.claimRestore ctxid l core) := rfl
theorem Major.claimEnd (l core : Nat) : Major.Statement (.claimEnd l core) := rfl
theorem Major.matrixCommandExecution (l core : Nat) : Major.Statement (.matrixCommandExecution l core) := rfl
theorem Major.mergeSpill (l : Nat) : Major.Statement (.mergeSpill l) := rfl
theorem Major.rowCommit (l slot : Nat) : Major.Statement (.rowCommit l slot) := rfl
theorem Major.launchRecord (w : LaunchWrite) : Major.Statement (.launchRecord w) := rfl
theorem Major.teamPlacement (l : Nat) : Major.Statement (.teamPlacement l) := rfl
theorem Major.launchCompletion (ctxid tag : Nat) : Major.Statement (.launchCompletion ctxid tag) := rfl
theorem Major.queueRegisterWrite (w : CtlWrite) : Major.Statement (.queueRegisterWrite w) := rfl
theorem Major.append (w : HostWrite) : Major.Statement (.append w) := rfl
theorem Major.hostCxlMemRead (r : HostRead) : Major.Statement (.hostCxlMemRead r) := rfl
theorem Major.hostCxlMemWrite (w : HostWrite) : Major.Statement (.hostCxlMemWrite w) := rfl
theorem Major.cxlIoAccess (x : IoAccess) : Major.Statement (.cxlIoAccess x) := rfl
theorem Major.linkItemArrival (x : LinkItem) : Major.Statement (.linkItemArrival x) := rfl
theorem Major.routeChange (up : BitVec 16) : Major.Statement (.routeChange up) := rfl
theorem Major.pageMove (l : Nat) : Major.Statement (.pageMove l) := rfl
theorem Major.fqheadWrite (l : Nat) (value : BitVec 32) : Major.Statement (.fqheadWrite l value) := rfl
theorem Major.parityFailure (x : ParityFailure) : Major.Statement (.parityFailure x) := rfl
theorem Major.repairSwap (l bus group : Nat) : Major.Statement (.repairSwap l bus group) := rfl
theorem Major.init (l : Nat) : Major.Statement (.init l) := rfl
theorem Major.initComplete (l : Nat) : Major.Statement (.initComplete l) := rfl
theorem Major.testMode (l bus : Nat) : Major.Statement (.testMode l bus) := rfl
theorem Major.go (l bus phys : Nat) : Major.Statement (.go l bus phys) := rfl
theorem Major.testComplete (l bus : Nat) (ones : List Nat) : Major.Statement (.testComplete l bus ones) := rfl
theorem Major.logclr (l : Nat) (link : Bool) : Major.Statement (.logclr l link) := rfl
theorem Major.moduleReset : Major.Statement .moduleReset := rfl
theorem Major.watchdog : Major.Statement .watchdog := rfl
theorem Major.recovery (len : Nat) : Major.Statement (.recovery len) := rfl
theorem Major.getVersion (q : SpdmRequest) : Major.Statement (.getVersion q) := rfl
theorem Major.getCapabilities (q : SpdmRequest) : Major.Statement (.getCapabilities q) := rfl
theorem Major.negotiateAlgorithms (q : SpdmRequest) : Major.Statement (.negotiateAlgorithms q) := rfl
theorem Major.getDigests (q : SpdmRequest) : Major.Statement (.getDigests q) := rfl
theorem Major.getCertificate (q : SpdmRequest) : Major.Statement (.getCertificate q) := rfl
theorem Major.challenge (q : SpdmRequest) : Major.Statement (.challenge q) := rfl
theorem Major.getMeasurements (q : SpdmRequest) : Major.Statement (.getMeasurements q) := rfl
theorem Major.keyExchange (q : SpdmRequest) : Major.Statement (.keyExchange q) := rfl
theorem Major.finish (q : SpdmRequest) : Major.Statement (.finish q) := rfl
theorem Major.idleCompletion (uid : Nat) : Major.Statement (.idleCompletion uid) := rfl
theorem Major.registerWrite (w : CtlWrite) : Major.Statement (.registerWrite w) := rfl
theorem Major.illegalInstruction (x : BadEncoding) : Major.Statement (.illegalInstruction x) := rfl
theorem Major.hostPortTraining (width rate : Nat) : Major.Statement (.hostPortTraining width rate) := rfl

/-- The family holds of every instruction. -/
theorem Major.all (i : Instr) : Major.Statement i := by
  cases i <;> rfl

end Sys2Proof.Laws
end

