-- ==== Sys2Proof/Laws/Encoding.lean ====
section
/-! SUPPORT. The encoding: the bytes of a word, the fields of a packed word, what the decoder gives for the bytes the encoder
writes of a format, and the format of an instruction that a format names. -/

namespace Sys2Proof.Laws

/-- The little-endian value of the first bytes of a number. -/
theorem leBytes_toBytes (n x : Nat) : leBytes (toBytes n x) = x % 256 ^ n := by
  induction n generalizing x with
  | zero => simp [toBytes, leBytes, Nat.mod_one]
  | succ n ih =>
    rw [toBytes, leBytes, ih, pow_succ, Nat.mul_comm (256 ^ n) 256, Nat.mod_mul]
    simp

theorem length_toBytes (n x : Nat) : (toBytes n x).length = n := by
  induction n generalizing x with
  | zero => rfl
  | succ n ih => simp [toBytes, ih]

theorem toBytes_take (m n x : Nat) (h : m ≤ n) : (toBytes n x).take m = toBytes m x := by
  induction m generalizing n x with
  | zero => rfl
  | succ m ih =>
    obtain ⟨k, rfl⟩ : ∃ k, n = k + 1 := ⟨n - 1, by omega⟩
    rw [toBytes, toBytes, List.take_succ_cons, ih k _ (by omega)]

/-- What the decoder reads at the head of a word's bytes. -/
theorem decodeBytes_toBytes (n : Nat) (w : BitVec 64) (rest : List Byte) (hn : 2 ≤ n) (h8 : n ≤ 8)
    (hl : lengthOf (w.setWidth 16) = n) :
    decodeBytes (toBytes n w.toNat ++ rest) = some (decodeWord n (BitVec.ofNat 64 (w.toNat % 256 ^ n)), rest) := by
  unfold decodeBytes
  have e2 : ((toBytes n w.toNat) ++ rest).take 2 = toBytes 2 w.toNat := by
    rw [List.take_append_of_le_length (by rw [length_toBytes]; exact hn), toBytes_take _ _ _ hn]
  have e3 : BitVec.ofNat 16 (leBytes (toBytes 2 w.toNat)) = w.setWidth 16 := by
    rw [leBytes_toBytes]
    apply BitVec.eq_of_toNat_eq
    simp
  have e4 : ((toBytes n w.toNat) ++ rest).take n = toBytes n w.toNat := by
    rw [List.take_append_of_le_length (by rw [length_toBytes]), toBytes_take _ _ _ (le_refl n)]
  have e5 : ((toBytes n w.toNat) ++ rest).drop n = rest := by
    rw [List.drop_append_of_le_length (by rw [length_toBytes]), List.drop_of_length_le (by rw [length_toBytes])]; rfl
  rw [e2, e3, hl]
  simp only [e4, e5, leBytes_toBytes]
  rw [if_neg (by rw [List.length_append, length_toBytes]; omega), if_neg (by rw [List.length_append, length_toBytes]; omega)]

/-- A field above the low part of a word. -/
theorem extract_high {m n : Nat} (x : BitVec m) (y : BitVec n) (s w : Nat) (h : n ≤ s) : (x ++ y).extractLsb' s w = x.extractLsb' (s - n) w := by
  apply BitVec.eq_of_getLsbD_eq; intro i hi
  simp only [BitVec.getLsbD_extractLsb', BitVec.getLsbD_append, hi, decide_true, Bool.true_and]
  rw [if_neg (by omega)]; congr 1; omega

/-- A field within the low part of a word. -/
theorem extract_low {m n : Nat} (x : BitVec m) (y : BitVec n) (s w : Nat) (h : s + w ≤ n) : (x ++ y).extractLsb' s w = y.extractLsb' s w := by
  apply BitVec.eq_of_getLsbD_eq; intro i hi
  simp only [BitVec.getLsbD_extractLsb', BitVec.getLsbD_append, hi, decide_true, Bool.true_and]
  rw [if_pos (by omega)]

theorem extract_all {n : Nat} (y : BitVec n) : y.extractLsb' 0 n = y := by
  apply BitVec.eq_of_getLsbD_eq; intro i hi
  simp [hi]

theorem setWidth_back32 (x : BitVec 32) : (x.setWidth 64).setWidth 32 = x := by simp

theorem setWidth_back16 (x : BitVec 16) : (x.setWidth 64).setWidth 16 = x := by simp

/-- The fields of a word packed from them. -/
theorem unpackC16_pack (o : C16) (op : BitVec 4) : unpackC16 (o.g ++ o.s ++ o.d ++ op ++ 0#1) = .c16 op.toNat o := by
  obtain ⟨⟩ := o; simp (disch := decide) only [unpackC16, extract_high, extract_low, extract_all, Nat.reduceSub]

theorem unpackA32_pack (o : A32) (m : BitVec 5) : unpackA32 (o.g ++ o.fn ++ o.b ++ o.a ++ o.d ++ m ++ 1#2) = o := by
  obtain ⟨⟩ := o; simp (disch := decide) only [unpackA32, extract_high, extract_low, extract_all, Nat.reduceSub]

theorem unpackI32_pack (o : I32) (m : BitVec 5) : unpackI32 (o.g ++ o.imm ++ o.a ++ o.d ++ m ++ 1#2) = o := by
  obtain ⟨⟩ := o; simp (disch := decide) only [unpackI32, extract_high, extract_low, extract_all, Nat.reduceSub]

theorem unpackI15_pack (o : I15) (m : BitVec 5) : unpackI15 (o.g ++ o.imm ++ o.d ++ m ++ 1#2) = o := by
  obtain ⟨⟩ := o; simp (disch := decide) only [unpackI15, extract_high, extract_low, extract_all, Nat.reduceSub]

theorem unpackB32_pack (o : B32) (m : BitVec 5) : unpackB32 (o.g ++ o.off ++ m ++ 1#2) = o := by
  obtain ⟨⟩ := o; simp (disch := decide) only [unpackB32, extract_high, extract_low, extract_all, Nat.reduceSub]

theorem unpackT64_pack (o : T64) (m : BitVec 6) :
    unpackT64 (o.ctl ++ o.fn ++ o.ls ++ o.la ++ o.g ++ o.c ++ o.b ++ o.a ++ o.d ++ m ++ 3#2) = o := by
  obtain ⟨⟩ := o; simp (disch := decide) only [unpackT64, extract_high, extract_low, extract_all, Nat.reduceSub]

theorem unpackM64_pack (o : M64) (m : BitVec 6) :
    unpackM64 (o.off ++ o.af ++ o.fn ++ o.ls ++ o.la ++ o.g ++ o.scope ++ o.size ++ o.b ++ o.a ++ o.d ++ m ++ 3#2) = o := by
  obtain ⟨⟩ := o; simp (disch := decide) only [unpackM64, extract_high, extract_low, extract_all, Nat.reduceSub]

theorem unpackL64_pack (o : L64) (m : BitVec 6) :
    unpackL64 (o.imm ++ o.rsv ++ o.g ++ o.fn ++ o.a ++ o.d ++ m ++ 3#2) = o := by
  obtain ⟨⟩ := o; simp (disch := decide) only [unpackL64, extract_high, extract_low, extract_all, Nat.reduceSub]

theorem unpackJ64_pack (o : J64) (m : BitVec 6) :
    unpackJ64 (o.off ++ o.fn ++ o.g ++ o.hi ++ o.d ++ m ++ 3#2) = o := by
  obtain ⟨⟩ := o; simp (disch := decide) only [unpackJ64, extract_high, extract_low, extract_all, Nat.reduceSub]

theorem low_bit (w : BitVec 64) (i : Nat) (hi : i < 16) : (w.setWidth 16).getLsbD i = w.getLsbD i := by simp [hi]

/-- Decoding the bytes of a halfword. -/
theorem decodeBytes_c16 (w : BitVec 16) (f : Fmt) (rest : List Byte) (h0 : w.getLsbD 0 = false) (hu : unpackC16 w = f) :
    decodeBytes (toBytes 2 (w.setWidth 64).toNat ++ rest) = some (checkFmt f 0 2, rest) := by
  rw [decodeBytes_toBytes 2 _ rest (by decide) (by decide) (by rw [setWidth_back16, lengthOf, h0]; rfl)]
  have e : (BitVec.ofNat 64 ((w.setWidth 64).toNat % 256 ^ 2)) = w.setWidth 64 := by
    apply BitVec.eq_of_toNat_eq; have := w.isLt; simp; omega
  rw [e]; show some (decode16 ((w.setWidth 64).setWidth 16), rest) = _
  rw [setWidth_back16, decode16, hu]

/-- Decoding the bytes of a 32-bit word. -/
theorem decodeBytes_32 (w : BitVec 32) (f : Fmt) (maj : Nat) (rest : List Byte) (h0 : w.getLsbD 0 = true) (h1 : w.getLsbD 1 = false)
    (hm : (w.extractLsb' 2 5).toNat = maj) (hu : fmt32 maj w = some f) :
    decodeBytes (toBytes 4 (w.setWidth 64).toNat ++ rest) = some (checkFmt f maj 4, rest) := by
  rw [decodeBytes_toBytes 4 _ rest (by decide) (by decide) (by rw [lengthOf, low_bit _ 0 (by decide), low_bit _ 1 (by decide), BitVec.getLsbD_setWidth, BitVec.getLsbD_setWidth, h0, h1]; rfl)]
  have e : (BitVec.ofNat 64 ((w.setWidth 64).toNat % 256 ^ 4)) = w.setWidth 64 := by
    apply BitVec.eq_of_toNat_eq; have := w.isLt; simp; omega
  rw [e]; show some (decode32 ((w.setWidth 64).setWidth 32), rest) = _
  simp only [setWidth_back32, decode32, hm, hu]

/-- Decoding the bytes of a 64-bit word. -/
theorem decodeBytes_64 (w : BitVec 64) (f : Fmt) (maj : Nat) (rest : List Byte) (h0 : w.getLsbD 0 = true) (h1 : w.getLsbD 1 = true)
    (hm : (w.extractLsb' 2 6).toNat = maj) (hu : fmt64 maj w = some f) :
    decodeBytes (toBytes 8 w.toNat ++ rest) = some (checkFmt f maj 8, rest) := by
  rw [decodeBytes_toBytes 8 _ rest (by decide) (by decide) (by rw [lengthOf, low_bit _ 0 (by decide), low_bit _ 1 (by decide), h0, h1]; rfl)]
  have e : (BitVec.ofNat 64 (w.toNat % 256 ^ 8)) = w := by
    apply BitVec.eq_of_toNat_eq; have := w.isLt; simp; omega
  rw [e]; show some (decode64 w, rest) = _
  simp only [decode64, hm, hu]

/-- Decoding what the encoder writes of a format gives the check of that format. -/
theorem decodeBytes_fmt (f : Fmt) (hl : Major.legal f = true) (he : f ≠ .event) (rest : List Byte) :
    ∃ maj len, decodeBytes (toBytes f.encode.1 f.encode.2.toNat ++ rest) = some (checkFmt f maj len, rest) := by
  have lo1 (x : BitVec 30) : (x ++ 1#2).getLsbD 0 = true ∧ (x ++ 1#2).getLsbD 1 = false := by
    constructor <;> rw [BitVec.getLsbD_append] <;> rfl
  have lo3 (x : BitVec 62) : (x ++ 3#2).getLsbD 0 = true ∧ (x ++ 3#2).getLsbD 1 = true := by
    constructor <;> rw [BitVec.getLsbD_append] <;> rfl
  have mj5 (x : BitVec 25) (m : Nat) (hm : m < 32) : ((x ++ BitVec.ofNat 5 m ++ 1#2).extractLsb' 2 5).toNat = m := by
    simp (disch := decide) only [extract_high, extract_low, extract_all, Nat.reduceSub]; simp; omega
  have mj6 (x : BitVec 56) (m : Nat) (hm : m < 64) : ((x ++ BitVec.ofNat 6 m ++ 3#2).extractLsb' 2 6).toNat = m := by
    simp (disch := decide) only [extract_high, extract_low, extract_all, Nat.reduceSub]; simp; omega
  cases f with
  | event => exact absurd rfl he
  | c16 op o =>
    have hop : op < 16 := by simpa [Major.legal] using hl
    refine ⟨_, _, decodeBytes_c16 _ _ rest ?_ ((unpackC16_pack o _).trans ?_)⟩
    · exact (BitVec.getLsbD_append ..).trans rfl
    · congr 1; simp; omega
  | a32 m o =>
    simp [Major.legal] at hl
    refine ⟨_, _, decodeBytes_32 _ _ m rest (lo1 _).1 (lo1 _).2 (mj5 _ _ (by omega)) ?_⟩
    unfold fmt32; rw [if_pos (by omega)]; exact congrArg (fun x => some (Fmt.a32 m x)) (unpackA32_pack o _)
  | i32 m o =>
    simp [Major.legal] at hl
    refine ⟨_, _, decodeBytes_32 _ _ m rest (lo1 _).1 (lo1 _).2 (mj5 _ _ (by omega)) ?_⟩
    unfold fmt32; rw [if_neg (by omega), if_neg (by omega), if_neg (by omega), if_pos (by omega)]
    exact congrArg (fun x => some (Fmt.i32 m x)) (unpackI32_pack o _)
  | i15 m o =>
    simp [Major.legal] at hl
    refine ⟨_, _, decodeBytes_32 _ _ m rest (lo1 _).1 (lo1 _).2 (mj5 _ _ (by omega)) ?_⟩
    unfold fmt32; rw [if_neg (by omega), if_pos (by omega)]; exact congrArg (fun x => some (Fmt.i15 m x)) (unpackI15_pack o _)
  | b32 m o =>
    simp [Major.legal] at hl
    refine ⟨_, _, decodeBytes_32 _ _ m rest (lo1 _).1 (lo1 _).2 (mj5 _ _ (by omega)) ?_⟩
    unfold fmt32; rw [if_neg (by omega), if_neg (by omega), if_pos (by omega)]; exact congrArg (fun x => some (Fmt.b32 m x)) (unpackB32_pack o _)
  | t64 m o =>
    simp [Major.legal] at hl
    refine ⟨_, _, decodeBytes_64 _ _ m rest (lo3 _).1 (lo3 _).2 (mj6 _ _ (by omega)) ?_⟩
    unfold fmt64; rw [if_pos (by omega)]; exact congrArg (fun x => some (Fmt.t64 m x)) (unpackT64_pack o _)
  | m64 m o =>
    simp [Major.legal] at hl
    refine ⟨_, _, decodeBytes_64 _ _ m rest (lo3 _).1 (lo3 _).2 (mj6 _ _ (by omega)) ?_⟩
    unfold fmt64; rw [if_neg (by omega), if_neg (by omega), if_neg (by omega), if_pos (by omega)]
    exact congrArg (fun x => some (Fmt.m64 m x)) (unpackM64_pack o _)
  | l64 m o =>
    simp [Major.legal] at hl
    refine ⟨_, _, decodeBytes_64 _ _ m rest (lo3 _).1 (lo3 _).2 (mj6 _ _ (by omega)) ?_⟩
    unfold fmt64; rw [if_neg (by omega), if_pos (by omega)]; exact congrArg (fun x => some (Fmt.l64 m x)) (unpackL64_pack o _)
  | j64 m o =>
    simp [Major.legal] at hl
    refine ⟨_, _, decodeBytes_64 _ _ m rest (lo3 _).1 (lo3 _).2 (mj6 _ _ (by omega)) ?_⟩
    unfold fmt64; rw [if_neg (by omega), if_neg (by omega), if_pos (by omega)]; exact congrArg (fun x => some (Fmt.j64 m x)) (unpackJ64_pack o _)

theorem fmt_of_c16 (m o i) (h : c16Of m o = some i) : i.fmt = .c16 m o := by
  unfold c16Of at h
  split at h <;> cases h <;> rfl

theorem fmt_of_a32 (m o i) (h : a32Of m o = some i) : i.fmt = .a32 m o := by
  unfold a32Of at h
  split at h <;> (try split at h) <;> cases h <;> rfl

theorem fmt_of_i32 (m o i) (h : i32Of m o = some i) : i.fmt = .i32 m o := by
  unfold i32Of at h
  split at h <;> (try split at h) <;> cases h <;> rfl

theorem fmt_of_t64 (m o i) (h : t64Of m o = some i) : i.fmt = .t64 m o := by
  unfold t64Of at h
  split at h <;> (try split at h) <;> (try split at h) <;> cases h <;> rfl

theorem fmt_of_m64 (m o i) (h : m64Of m o = some i) : i.fmt = .m64 m o := by
  unfold m64Of at h
  split at h <;> (try split at h) <;> cases h <;> rfl

theorem fmt_of_l64 (m o i) (h : l64Of m o = some i) : i.fmt = .l64 m o := by
  unfold l64Of at h
  split at h <;> (try split at h) <;> cases h <;> rfl

theorem fmt_of_j64 (m o i) (h : j64Of m o = some i) : i.fmt = .j64 m o := by
  unfold j64Of at h
  split at h <;> (try split at h) <;> cases h <;> rfl

/-- An instruction that a format names has that format. -/
theorem fmt_of_instr (f i) (h : Fmt.instr? f = some i) : i.fmt = f := by
  cases f with
  | c16 => exact fmt_of_c16 _ _ _ h
  | a32 => exact fmt_of_a32 _ _ _ h
  | i32 => exact fmt_of_i32 _ _ _ h
  | i15 => simp only [Fmt.instr?] at h; split at h <;> cases h; subst_vars; rfl
  | b32 => simp only [Fmt.instr?] at h; split at h <;> cases h; subst_vars; rfl
  | t64 => exact fmt_of_t64 _ _ _ h
  | m64 => exact fmt_of_m64 _ _ _ h
  | l64 => exact fmt_of_l64 _ _ _ h
  | j64 => exact fmt_of_j64 _ _ _ h
  | event => simp [Fmt.instr?] at h


/-- Two neighbouring fields of a word are one field. -/
theorem extract_join {k : Nat} (w : BitVec k) (s n m s' : Nat) (h : s' = s + n) :
    w.extractLsb' s' m ++ w.extractLsb' s n = w.extractLsb' s (m + n) := by
  apply BitVec.eq_of_getLsbD_eq; intro i hi
  simp only [BitVec.getLsbD_append, BitVec.getLsbD_extractLsb']
  split
  · rw [decide_eq_true (by omega), decide_eq_true (by omega)]
  · rw [decide_eq_true (by omega), decide_eq_true (by omega), h]; congr 2; omega

/-- A T64 word is what its fields pack to. -/
theorem pack_unpackT64 (w : BitVec 64) : let o := unpackT64 w
  o.ctl ++ o.fn ++ o.ls ++ o.la ++ o.g ++ o.c ++ o.b ++ o.a ++ o.d ++ w.extractLsb' 2 6 ++ w.extractLsb' 0 2 = w := by
  simp (disch := decide) only [unpackT64, extract_join]
  exact BitVec.extractLsb'_eq_self

end Sys2Proof.Laws
end

