-- ==== Sys2Proof/Laws/Posts.lean ====
section
/-! SUPPORT. Posted operations: what the pairs of landings carry after one, and that one whose lanes pass every check completes. -/

namespace Sys2Proof.Laws

open Sys2Proof.Machine

/-- The items of a pair after one is replaced. -/
theorem pair_setPair (s : State) (a b c d : Nat) (xs : List Item) :
    (s.setPair a b xs).pair c d = if c = a ∧ d = b then xs else s.pair c d := by
  unfold State.pair State.setPair
  by_cases h : c = a ∧ d = b
  · obtain ⟨rfl, rfl⟩ := h
    have hn : (s.pairs.filter fun p => p.1 != (c, d)).find? (fun p => p.1 == (c, d)) = none := by
      rw [List.find?_eq_none]; intro x hx hc; have := (List.mem_filter.1 hx).2; simp_all
    rw [if_pos ⟨rfl, rfl⟩]
    dsimp only
    cases xs with
    | nil => simp only [List.isEmpty_nil, if_true, hn, Option.map_none, Option.getD_none]
    | cons x xs => 
      simp only [List.isEmpty_cons, Bool.false_eq_true, if_false, List.find?_append, hn]
      simp
  · rw [if_neg h]
    have hf : (s.pairs.filter fun p => p.1 != (a, b)).find? (fun p => p.1 == (c, d)) = s.pairs.find? (fun p => p.1 == (c, d)) := by
      rw [List.find?_filter]
      apply congrArg (fun q => s.pairs.find? q)
      funext x
      by_cases hx : x.1 = (c, d)
      · rw [hx]; simp; tauto
      · simp [hx]
    dsimp only
    split
    · rw [hf]
    · rw [List.find?_append, hf]
      have : ([((a, b), xs)] : List ((Nat × Nat) × List Item)).find? (fun p => p.1 == (c, d)) = none := by
        simp; intro h1 h2; exact h ⟨h1.symm, h2.symm⟩
      rw [this]; simp

/-- The items of a pair after one is sent. -/
theorem pair_send (s : State) (a b c d : Nat) (x : Item) :
    (s.send a b x).pair c d = if c = a ∧ d = b then s.pair c d ++ [x] else s.pair c d := by
  unfold State.send
  rw [pair_setPair]
  split
  · next h => rw [h.1, h.2]
  · rfl

theorem natInsert_mem (ks : List Nat) (a k : Nat) : k ∈ natInsert ks a ↔ k = a ∨ k ∈ ks := by
  induction ks with
  | nil => simp [natInsert]
  | cons x xs ih =>
    unfold natInsert
    split
    · simp
    · split
      · next h => subst h; simp
      · simp [ih]; tauto

/-- Inserting keeps a list rising. -/
theorem natInsert_sorted (ks : List Nat) (a : Nat) (h : ks.Pairwise (· < ·)) : (natInsert ks a).Pairwise (· < ·) := by
  induction ks with
  | nil => simp [natInsert]
  | cons x xs ih =>
    unfold natInsert
    rw [List.pairwise_cons] at h
    split
    · next hlt => rw [List.pairwise_cons]; exact ⟨fun y hy => by rcases List.mem_cons.1 hy with rfl | hy; exact hlt; exact lt_trans hlt (h.1 y hy), List.pairwise_cons.2 h⟩
    · split
      · exact List.pairwise_cons.2 h
      · next h1 h2 => exact List.pairwise_cons.2 ⟨fun y hy => by rcases (natInsert_mem _ _ _).1 hy with rfl | hy; omega; exact h.1 y hy, ih h.2⟩

/-- The keys of a list, rising, each once. -/
theorem keys_spec {α : Type} (f : α → Nat) (xs : List α) : 
    (xs.foldl (fun (a : List Nat) x => natInsert a (f x)) []).Pairwise (· < ·) ∧
      ∀ k, k ∈ xs.foldl (fun (a : List Nat) x => natInsert a (f x)) [] ↔ ∃ x ∈ xs, f x = k := by
  have : ∀ (xs : List α) (acc : List Nat), acc.Pairwise (· < ·) → (xs.foldl (fun (a : List Nat) x => natInsert a (f x)) acc).Pairwise (· < ·) ∧
      ∀ k, k ∈ xs.foldl (fun (a : List Nat) x => natInsert a (f x)) acc ↔ (∃ x ∈ xs, f x = k) ∨ k ∈ acc := by
    intro xs
    induction xs with
    | nil => intro acc h; exact ⟨h, by simp⟩
    | cons x xs ih =>
      intro acc h
      have := ih (natInsert acc (f x)) (natInsert_sorted _ _ h)
      refine ⟨this.1, fun k => (this.2 k).trans ?_⟩
      rw [natInsert_mem, eq_comm (a := k)]; simp only [List.mem_cons, exists_eq_or_imp]; exact or_left_comm.trans or_assoc.symm
  have h := this xs [] List.Pairwise.nil
  exact ⟨h.1, fun k => (h.2 k).trans (by simp)⟩

/-- A lane finds its own location. -/
theorem find_self {xs : List (Nat × Loc)} (hn : (xs.map Prod.fst).Nodup) {x : Nat × Loc} (hx : x ∈ xs) :
    xs.find? (fun y => y.1 == x.1) = some x := by
  induction xs with
  | nil => cases hx
  | cons y ys ih =>
    rw [List.map_cons, List.nodup_cons] at hn
    rw [List.find?_cons]
    rcases List.mem_cons.1 hx with rfl | hx
    · simp
    · have : (y.1 == x.1) = false := by
        rw [beq_eq_false_iff_ne]; intro h; exact hn.1 (h ▸ List.mem_map.2 ⟨x, hx, rfl⟩)
      rw [this]; exact ih hn.2 hx

theorem lanes_nodup (m : Mask) : (lanesOf m).Nodup := List.Nodup.filter _ List.nodup_range

/-- Lanes that stay in the module make no link item. -/
theorem farParts_none {α : Type} {f : α → Loc} {xs : List α} (h : ∀ x ∈ xs, (f x).peer = none) : farParts f xs = [] := by
  unfold farParts
  rw [List.filter_eq_nil_iff.2 fun x hx => by simp [h x hx]]
  rfl

/-- What the pairs carry after the parts of a posted operation are sent within the module (05 R128). -/
theorem sendParts_pair (l : Nat) (p : Post) (u : State) (hp : ∀ x ∈ p.lanes, x.loc.peer = none) (src dst : Nat) :
    (u.sendParts l p).pair src dst =
      if src = l ∧ p.lanes.filter (fun x => home x.loc.pa == dst) ≠ []
            then u.pair src dst ++ [.post { p with lanes := p.lanes.filter fun x => home x.loc.pa == dst }]
            else u.pair src dst := by
  unfold State.sendParts
  have e1 : (p.lanes.filter fun x => x.loc.peer.isNone) = p.lanes := List.filter_eq_self.2 fun x hx => by simp [hp x hx]
  rw [farParts_none hp, e1]
  dsimp only
  rw [List.foldl_nil]
  unfold byKey
  rw [List.foldl_map]
  obtain ⟨hs, hm⟩ := keys_spec (fun (x : PostLane) => home x.loc.pa) p.lanes
  generalize p.lanes.foldl (fun (a : List Nat) (x : PostLane) => natInsert a (home x.loc.pa)) [] = ks at hs hm
  have hne : p.lanes.filter (fun x => home x.loc.pa == dst) ≠ [] ↔ dst ∈ ks := by
    rw [hm, ne_eq, List.filter_eq_nil_iff]; simp
  rw [if_congr (and_congr_right fun _ => hne) rfl rfl]
  have main : ∀ (ks : List Nat) (v : State), ks.Pairwise (· < ·) →
     (ks.foldl (fun (t : State) k => t.send l k (.post { p with lanes := p.lanes.filter fun x => home x.loc.pa == k })) v).pair src dst =
       if src = l ∧ dst ∈ ks then v.pair src dst ++ [.post { p with lanes := p.lanes.filter fun x => home x.loc.pa == dst }] else v.pair src dst := by
    intro ks
    induction ks with
    | nil => intro v _; simp
    | cons k ks ih =>
      intro v hks
      rw [List.pairwise_cons] at hks
      rw [List.foldl_cons, ih _ hks.2, pair_send]
      by_cases h1 : src = l
      · by_cases h2 : dst = k
        · have : dst ∉ ks := fun h => by have := hks.1 _ h; omega
          simp [h1, h2]
          exact h2 ▸ this
        · simp [h1, h2]
      · simp [h1]
  exact main ks u hs

theorem sendParts_mem (l : Nat) (p : Post) (u : State) : (u.sendParts l p).mem = u.mem := by
  unfold State.sendParts
  dsimp only
  have h1 : ∀ (ks : List (Nat × List PostLane)) (v : State), v.mem = u.mem → (ks.foldl (fun (t : State) k =>
    t.send l k.1 (.post { p with lanes := k.2 })) v).mem = u.mem := by
    intro ks; induction ks with
    | nil => exact fun _ h => h
    | cons k ks ih => exact fun v h => ih _ h
  have h2 : ∀ (ks : List ((Nat × Nat) × List PostLane)) (v : State), v.mem = u.mem → (ks.foldl (fun (t : State) k =>
    t.sendPeer k.1.1 l k.1.2 p.ft { p with lanes := k.2 }.body ⟨p.ctx, p.tag, if p.side then p.uids else [], p.plain⟩) v).mem = u.mem := by
    intro ks; induction ks with
    | nil => exact fun _ h => h
    | cons k ks ih => exact fun v h => ih _ h
  exact h2 _ _ (h1 _ _ rfl)

/-- What the pairs carry after a posted operation toward the module (05 R128). -/
theorem sendPosts_pair (n : Nat) (g : Group) (op : PostOp) (posts : List PostLane) (u : State) (hp : ∀ p ∈ posts, p.loc.peer = none)
    (src dst : Nat) : (u.sendPosts g op n posts).pair src dst =
      if src = g.l ∧ posts.filter (fun p => home p.loc.pa == dst) ≠ []
            then u.pair src dst ++ [.post ⟨op, g.ctx, (u.ctx g.ctx).pl, [g.uid], g.tag, n, u.ftAt g.l, posts.filter (fun p => home p.loc.pa == dst), none, false, false⟩]
            else u.pair src dst :=
  sendParts_pair g.l (u.newPost g op n posts) u hp src dst

theorem sendPosts_mem (n : Nat) (g : Group) (op : PostOp) (posts : List PostLane) (u : State) :
    (u.sendPosts g op n posts).mem = u.mem := sendParts_mem g.l (u.newPost g op n posts) u

/-- A posted operation whose lanes pass every check completes. -/
theorem postLanes_done {o : M64} {i : Instr} {op : PostOp} {a : Access} {ctr : Bool} {extra : List Nat} {s1 : State} {e : Env} {xs cs : List (Nat × Loc)} {t u : State}
   (hk : Checked (a.wide (sizeBytes o.size)) (sizeBytes o.size) (addrRegs (o.af == 1) o.a.toNat ++ extra) (memAddr (s1.ctx e.g.ctx) e.g o) s1 e xs t)
   (hc : if ctr then (∀ r ∈ addrRegs (o.af == 1) o.d.toNat, ∀ l, e.act.getLsbD l = true → e.g.frame.bad r l = false) ∧
          (∀ l, e.act.getLsbD l = true → ctrAddr (s1.ctx e.g.ctx) e.g o l < 2 ^ 56 ∧ ctrAddr (s1.ctx e.g.ctx) e.g o l % 8 = 0) ∧
          t.translateLanes e.g.l e.g.ctx (accPost.wide 8) ((lanesOf e.act).map fun l => (l, ctrAddr (s1.ctx e.g.ctx) e.g o l)) = ⟨cs, [], [], u⟩ ∧
          ∀ x ∈ xs, ∀ c ∈ cs, x.1 = c.1 → x.2.site = c.2.site
        else cs = [] ∧ u = t) (bad : Nat → Bool) (hbad : ∀ l, bad l = e.g.frame.badRun o.b.toNat (sizeRegs o.size) l)
   (posts : List PostLane)
   (hposts : posts = xs.map (fun (x : Nat × Loc) => (⟨x.1, x.2, dataLane e.g.frame o.b.toNat (sizeRegs o.size) (sizeBytes o.size) x.1, bad x.1,
          (cs.find? fun c => c.1 == x.1).map Prod.snd, e.g.frame.lane o.d.toNat x.1⟩ : PostLane))) :
   postLanes i o op a ctr extra (s1.setGroup e.g) e = done (u.sendPosts e.g op (sizeBytes o.size) posts) i
      (({ e.g.pstore e.act bad with horizon := max e.g.horizon (s1.ftAt e.g.l) } : Group).laLines i
          (xs.map fun (x : Nat × Loc) => x.2.pa)) := by
  obtain rfl : bad = fun l => e.g.frame.badRun o.b.toNat (sizeRegs o.size) l := funext hbad
  have hla := checked_lanes hk
  have hnd : (xs.map Prod.fst).Nodup := by rw [hla]; exact lanes_nodup _
  unfold postLanes
  dsimp only
  rw [checks3_clean (by
      intro o' ho r hr l hl
      rcases List.mem_cons.1 ho with rfl | ho
      · exact hk.clean r hr l hl
      · cases ctr
        · simp at ho
        · simp at ho; subst ho; exact hc.1 r hr l hl)
    (by
      intro o' ho l hl
      rcases List.mem_cons.1 ho with rfl | ho
      · exact hk.range l hl
      · cases ctr
        · simp at ho
        · simp at ho; subst ho; exact (hc.2.1 l hl).1)
    (by
      intro o' ho l hl
      rcases List.mem_cons.1 ho with rfl | ho
      · exact hk.aligned l hl
      · cases ctr
        · simp at ho
        · simp at ho; subst ho; exact (hc.2.1 l hl).2)]
  have hr : (s1.setGroup e.g).translateLanes e.g.l e.g.ctx (a.wide (sizeBytes o.size)) ((lanesOf e.act).map fun l => (l, (memOp ((s1.setGroup e.g).ctx e.g.ctx) e.g o (sizeBytes o.size)).va l)) = ⟨xs, [], [], t⟩ := hk.walked
  have hq : t.translateLanes e.g.l e.g.ctx (accPost.wide 8) (if ctr then (lanesOf e.act).map fun l => (l, ctrAddr ((s1.setGroup e.g).ctx e.g.ctx) e.g o l) else []) = ⟨cs, [], [], u⟩ := by
    cases ctr
    · obtain ⟨rfl, rfl⟩ := hc; rfl
    · exact hc.2.2.1
  have h5 (c va) : check5 c va [] [] = none := by simp [check5]
  have hlocs : (lanesOf e.act).map (fun l => (l, (xs.find? fun x => x.1 == l).map Prod.snd, (cs.find? fun x => x.1 == l).map Prod.snd)) =
     xs.map fun x => (x.1, some x.2, (cs.find? fun c => c.1 == x.1).map Prod.snd) := by
    rw [← hla, List.map_map]
    apply List.map_congr_left
    intro x hx
    simp only [Function.comp, find_self hnd hx, Option.map_some]
  simp only [hr, hq, h5, List.any_nil, Bool.not_false, List.filter_nil, List.append_nil, hlocs]
  rw [if_neg, if_pos]
  · have hfm : (xs.map fun (x : Nat × Loc) => (x.1, some x.2, (cs.find? fun c => c.1 == x.1).map Prod.snd)).filterMap (fun (x : Nat × Option Loc × Option Loc) =>
        if ((lanesOf e.act).filter fun l => (s1.setGroup e.g).sideBusy e.g.uid || (match ([] : List (Nat × Nat)).find? (fun (x : Nat × Nat) => x.1 == l) with
          | some x => some (x.2, (memOp ((s1.setGroup e.g).ctx e.g.ctx) e.g o (sizeBytes o.size)).va l)
          | none => (([] : List (Nat × Nat)).find? (fun (x : Nat × Nat) => x.1 == l)).map fun (x : Nat × Nat) => (x.2, ctrAddr ((s1.setGroup e.g).ctx e.g.ctx) e.g o l)).isSome).contains x.1 = true
        then none else x.2.1.map fun y => ((partLane e.g o (memOp ((s1.setGroup e.g).ctx e.g.ctx) e.g o (sizeBytes o.size)).va
          (if ctr = true then some (ctrAddr ((s1.setGroup e.g).ctx e.g.ctx) e.g o) else none) x.1).post y x.2.2)) = posts := by
      rw [hposts, List.filterMap_map]
      have : ((lanesOf e.act).filter fun l => (s1.setGroup e.g).sideBusy e.g.uid || (match ([] : List (Nat × Nat)).find? (fun (x : Nat × Nat) => x.1 == l) with
          | some x => some (x.2, (memOp ((s1.setGroup e.g).ctx e.g.ctx) e.g o (sizeBytes o.size)).va l)
          | none => (([] : List (Nat × Nat)).find? (fun (x : Nat × Nat) => x.1 == l)).map fun (x : Nat × Nat) => (x.2, ctrAddr ((s1.setGroup e.g).ctx e.g.ctx) e.g o l)).isSome) = [] := by
        rw [List.filter_eq_nil_iff]; intro l _; rw [hk.idle]; simp
      rw [this]
      simp only [Function.comp_def, List.contains_nil, Bool.false_eq_true, if_false, Option.map_some, List.filterMap_eq_map']
      apply List.map_congr_left
      intro x hx
      rfl
    have hh : (e.g.pstore e.act fun l => e.g.frame.badRun o.b.toNat (sizeRegs o.size) l).horizon = e.g.horizon := by
      unfold Group.pstore; split <;> rfl
    refine (congrArg (fun (ps : List PostLane) => memDone (u.sendPosts e.g op (sizeBytes o.size) ps) i
      ({ e.g.pstore e.act (fun l => e.g.frame.badRun o.b.toNat (sizeRegs o.size) l) with horizon := max (e.g.pstore e.act (fun l => e.g.frame.badRun o.b.toNat (sizeRegs o.size) l)).horizon ((s1.setGroup e.g).ftAt e.g.l) } : Group) (ps.map fun (x : PostLane) => x.loc.pa)) hfm).trans ?_
    dsimp only
    rw [hh]
    unfold memDone
    have hpas : posts.map (fun x => x.loc.pa) = xs.map (fun (x : Nat × Loc) => x.2.pa) := by rw [hposts, List.map_map]; rfl
    rw [hpas]
    rfl
  · rw [List.isEmpty_iff, List.filter_eq_nil_iff]; intro l _; rw [hk.idle]; simp
  · rw [Bool.not_eq_true', Bool.not_eq_false, List.isEmpty_iff, List.filter_eq_nil_iff]
    intro y hy
    obtain ⟨x, hx, rfl⟩ := List.mem_map.1 hy
    cases hf : cs.find? fun c => c.1 == x.1 with
    | none => simp
    | some c =>
      have hcm := List.mem_of_find?_eq_some hf
      have hcx : c.1 = x.1 := by simpa using List.find?_some hf
      cases ctr
      · obtain ⟨rfl, _⟩ := hc; cases hcm
      · simp [hc.2.2.2 x hx c hcm hcx.symm]

end Sys2Proof.Laws
end

