-- ==== Sys2Proof/Laws/Sync.lean ====
section
/-! SUPPORT. Instructions that wait, the close of keyed regions, and counter waits. -/

namespace Sys2Proof.Laws

open Sys2Proof.Machine

/-- An instruction that waits after the machine has changed, with a change to its group. -/
theorem exec_wait_at {i : Instr} {s s1 : State} {g : Group} {e : Env} {body : State → Env → R} (h : Issues i s s1 g e)
    (hx : exec i s = issue i s body) {u : State} {F : Group → Group} (hu : u.groups = (s1.setGroup e.g).groups)
    (hb : body (s1.setGroup e.g) e = .wait (u.modGroup e.g.uid F)) (hF : ∀ k, (F k).uid = k.uid)
    (hc : g.undo e.g (F e.g) = F (g.undo e.g e.g)) : exec i s = .next (u.setGroup (F g)) := by
  have h1 := exec_wait_self (F := F) (body := fun _ _ => .wait ((s1.setGroup e.g).modGroup e.g.uid F)) (i := i) (s := s) h
  rw [exec_wait h hx hb]
  congr 1
  unfold State.modGroup State.setGroup
  congr 1
  rw [hu]
  unfold State.setGroup
  simp only [List.map_map]
  apply List.map_congr_left
  intro x _
  simp only [Function.comp]
  have hug := issues_uid h
  by_cases hxu : x.uid = e.g.uid
  · simp only [hxu, if_true, hF, ← hug]
    rw [hc, undo_self h]
  · simp only [if_neg hxu]
    have : ¬ x.uid = g.uid := by rw [← hug]; exact hxu
    have h3 : ¬ x.uid = (F g).uid := by rw [hF]; exact this
    simp [this, h3]

/-- The same with no change to its group. -/
theorem exec_wait_plain {i : Instr} {s s1 : State} {g : Group} {e : Env} {body : State → Env → R} (h : Issues i s s1 g e)
    (hx : exec i s = issue i s body) {u : State} (hu : u.groups = (s1.setGroup e.g).groups)
    (hb : body (s1.setGroup e.g) e = .wait u) : exec i s = .next (u.setGroup g) := by
  have : u.modGroup e.g.uid id = u := by unfold State.modGroup; simp
  exact exec_wait_at (F := id) h hx hu (by rw [this]; exact hb) (fun _ => rfl) rfl

/-- What resolving an instruction here changed. -/
theorem here_walked {a : Access} {n : Nat} {regs : List Nat} {va : Nat → Nat} {s1 : State} {e : Env}
    {xs : List (Nat × Loc)} {t : State} (h : Here a n regs va s1 e xs t) : Walked (s1.setGroup e.g) t := by
  obtain ⟨_, _, rfl⟩ | ⟨_, h⟩ := h.way
  · exact Walked.refl _
  · have := walked_lanes (s1.setGroup e.g) e.g.l e.g.ctx a ((lanesOf e.act).map fun l => (l, va l))
    rw [h.walked] at this; exact this

theorem sense_fold_cells (w : List (Nat × Nat × Nat)) (t : State) : (w.foldl (fun (t : State) x => t.sense x.2.1 8) t).mem.cells = t.mem.cells := by
  induction w generalizing t with
  | nil => rfl
  | cons x w ih => rw [List.foldl_cons, ih, State.sense_cells]

theorem findErrors_groups (s : State) (pa n src : Nat) : (s.findErrors pa n src).groups = s.groups := by
  unfold State.findErrors; split <;> rfl

theorem sense_fold_groups (w : List (Nat × Nat × Nat)) (t : State) : (w.foldl (fun (t : State) x => t.sense x.2.1 8) t).groups = t.groups := by
  induction w generalizing t with
  | nil => rfl
  | cons x w ih => rw [List.foldl_cons, ih]; exact findErrors_groups _ _ _ _

theorem num_cells {m m' : Mem} (h : m'.cells = m.cells) (pa n : Nat) : m'.num pa n = m.num pa n := by
  unfold Mem.num Mem.bytes Mem.byte; rw [h]

/-- A walk of pages changes memory and the landings alone. -/
theorem walked_pages {s t : State} {l ctx va n : Nat} {a : Access} {xs : List Loc} (h : s.translatePages l ctx a va n = .ok (xs, t)) : Walked s t := by
  induction n generalizing s t va xs with
  | zero => simp only [State.translatePages, Except.ok.injEq, Prod.mk.injEq] at h; rw [← h.2]; exact Walked.refl s
  | succ n ih =>
    simp only [State.translatePages] at h
    split at h
    · split at h <;> cases h
    · cases h
    · next x s1 h1 =>
      split at h
      · cases h
      · next ys s2 h2 =>
        simp only [Except.ok.injEq, Prod.mk.injEq] at h
        rw [← h.2]
        exact (walked_translate h1).trans (ih h2)

/-- A landing after one is changed. -/
theorem landing_mod (s : State) (k l : Nat) (f : Landing → Landing) (hl : l < s.landings.length) :
    (s.modLanding k f).landing l = if l = k then f (s.landing k) else s.landing l := by
  unfold State.modLanding State.setLanding State.landing
  simp only [List.getD_eq_getElem?_getD, List.getElem?_set]
  by_cases h : k = l
  · subst h; simp [hl]
  · have : ¬ l = k := fun h' => h h'.symm
    simp [h, this]

/-- Close commands reach the home of every page (09 R238). -/
theorem closes_fold (id ctx : Nat) (xs : List Loc) (t : State) :
    let u := (byKey (fun (x : Loc) => home x.pa) xs).foldl (fun (v : State) k =>
            v.modLanding k.1 fun y =>
              { y with mn := { y.mn with closes := y.mn.closes ++ [⟨id, ctx, k.2.map Loc.pa, none⟩] } }) t
    u.mem = t.mem ∧ u.groups = t.groups ∧ u.nextReq = t.nextReq ∧ ∀ l < t.landings.length, (u.landing l).mn.closes = (t.landing l).mn.closes ++
                if xs.any (fun x => home x.pa == l)
                  then [⟨id, ctx, (xs.filter fun x => home x.pa == l).map Loc.pa, none⟩] else [] := by
  dsimp only
  unfold byKey
  rw [List.foldl_map]
  obtain ⟨hs, hm⟩ := keys_spec (fun (x : Loc) => home x.pa) xs
  generalize xs.foldl (fun (a : List Nat) (x : Loc) => natInsert a (home x.pa)) [] = ks at hs hm
  have main : ∀ (ks : List Nat) (v : State), ks.Pairwise (· < ·) →
      let u := ks.foldl (fun (v : State) k => v.modLanding k fun y =>
              { y with mn := { y.mn with closes := y.mn.closes ++ [⟨id, ctx, (xs.filter fun x => home x.pa == k).map Loc.pa, none⟩] } }) v
      u.mem = v.mem ∧ u.groups = v.groups ∧ u.nextReq = v.nextReq ∧ ∀ l < v.landings.length, (u.landing l).mn.closes = (v.landing l).mn.closes ++
         if l ∈ ks then [⟨id, ctx, (xs.filter fun x => home x.pa == l).map Loc.pa, none⟩] else [] := by
    intro ks
    induction ks with
    | nil => intro v _; exact ⟨rfl, rfl, rfl, fun l _ => by simp⟩
    | cons k ks ih =>
      intro v hks
      rw [List.pairwise_cons] at hks
      have h := ih (v.modLanding k fun y =>
              { y with mn := { y.mn with closes := y.mn.closes ++ [⟨id, ctx, (xs.filter fun x => home x.pa == k).map Loc.pa, none⟩] } }) hks.2
      refine ⟨h.1, h.2.1, h.2.2.1, fun l hl => ?_⟩
      rw [List.foldl_cons, h.2.2.2 l (by simpa [State.modLanding, State.setLanding] using hl), landing_mod _ _ _ _ hl]
      by_cases hk : l = k
      · subst hk
        have : l ∉ ks := fun h => by have := hks.1 _ h; omega
        simp [this]
      · simp [hk]
  have h := main ks t hs
  refine ⟨h.1, h.2.1, h.2.2.1, fun l hl => ?_⟩
  rw [h.2.2.2 l hl]
  have : l ∈ ks ↔ (xs.any fun x => home x.pa == l) = true := by rw [hm]; simp
  rw [if_congr this rfl rfl]

theorem bytes_cells {m m' : Mem} (h : m'.cells = m.cells) (pa n : Nat) : m'.bytes pa n = m.bytes pa n := by
  unfold Mem.bytes Mem.byte; rw [h]

theorem bar_cells {m m' : Mem} (h : m'.cells = m.cells) (pa : Nat) : m'.bar pa = m.bar pa := by
  unfold Mem.bar; simp only [num_cells h, bytes_cells h]

/-- Bytes of a run read back after it is put. -/
theorem bytes_put_in {m : Mem} {pa : Nat} {bs : List Byte} {d : Bool} (hw : m.wf = true) (k n : Nat) (h : k + n ≤ bs.length) :
    (m.put pa bs d).bytes (pa + k) n = (bs.drop k).take n := by
  apply List.ext_getElem
  · simp [Mem.bytes]; omega
  · intro j h1 h2
    simp only [Mem.bytes, List.getElem_map, List.getElem_range, List.getElem_take, List.getElem_drop]
    simp only [Mem.bytes, List.length_map, List.length_range] at h1
    rw [Mem.byte_put _ _ _ _ hw, if_pos (by omega)]
    rw [List.getD_eq_getElem?_getD, show pa + k + j - pa = k + j by omega, List.getElem?_eq_getElem (by omega)]; rfl

theorem bytes_put_out {m : Mem} {pa : Nat} {bs : List Byte} {d : Bool} (hw : m.wf = true) (a n : Nat) (h : pa + bs.length ≤ a) :
    (m.put pa bs d).bytes a n = m.bytes a n := by
  unfold Mem.bytes
  apply List.map_congr_left
  intro j hj
  rw [Mem.byte_put _ _ _ _ hw, if_neg (by omega)]

theorem num_lt (m : Mem) (pa n : Nat) : m.num pa n < 256 ^ n := by
  unfold Mem.num
  have : ∀ bs : List Byte, leBytes bs < 256 ^ bs.length := by
    intro bs; induction bs with
    | nil => simp [leBytes]
    | cons b bs ih => 
      simp only [leBytes, List.length_cons, pow_succ]
      have := b.isLt
      omega
  have := this (m.bytes pa n)
  simpa [Mem.bytes] using this

/-- A barrier object reads back as it was put. -/
theorem bar_put {m : Mem} {pa : Nat} {b : BarObj} {d : Bool} (hw : m.wf = true) (h1 : b.team < 65536) (h2 : b.st < 256) (h3 : b.e < 256) :
    (m.put pa (toBytes 2 b.team ++ toBytes 1 b.st ++ toBytes 1 b.e ++ toBytes 4 b.phase.toNat ++ toBytes 16 b.arrived.toNat) d).bar pa =
      { b with rsv := (m.bar pa).rsv } := by
  have hl : (toBytes 2 b.team ++ toBytes 1 b.st ++ toBytes 1 b.e ++ toBytes 4 b.phase.toNat ++ toBytes 16 b.arrived.toNat).length = 24 := by
    simp [toBytes_length]
  have hn (k n x : Nat) (h : k + n ≤ 24) (hx : ((toBytes 2 b.team ++ toBytes 1 b.st ++ toBytes 1 b.e ++ toBytes 4 b.phase.toNat ++ toBytes 16 b.arrived.toNat).drop k).take n = toBytes n x) :
     (m.put pa (toBytes 2 b.team ++ toBytes 1 b.st ++ toBytes 1 b.e ++ toBytes 4 b.phase.toNat ++ toBytes 16 b.arrived.toNat) d).num (pa + k) n = x % 256 ^ n := by
    unfold Mem.num
    rw [bytes_put_in hw k n (by rw [hl]; exact h), hx, leBytes_toBytes]
  unfold Mem.bar
  rw [bytes_put_out hw _ _ (by rw [hl])]
  have t (n x : Nat) := toBytes_length n x
  have e0 := hn 0 2 b.team (by decide) (by simp [t])
  rw [Nat.add_zero] at e0
  have e1 := hn 2 1 b.st (by decide) (by simp [t])
  have e2 := hn 3 1 b.e (by decide) (by simp [List.drop_append, t, List.drop_of_length_le])
  have e3 := hn 4 4 b.phase.toNat (by decide) (by simp [List.drop_append, t, List.drop_of_length_le])
  have e4 := hn 8 16 b.arrived.toNat (by decide) (by simp [List.drop_append, t, List.take_of_length_le, List.drop_of_length_le])
  rw [e0, e1, e2, e3, e4]
  have hp := b.phase.isLt
  have ha := b.arrived.isLt
  obtain ⟨team, st, e, phase, arrived, rsv⟩ := b
  simp only [BarObj.mk.injEq, and_true]
  refine ⟨Nat.mod_eq_of_lt h1, Nat.mod_eq_of_lt h2, Nat.mod_eq_of_lt h3, ?_, ?_⟩
  · apply BitVec.eq_of_toNat_eq; simp only [BitVec.toNat_ofNat]; rw [Nat.mod_mod_of_dvd _ (by decide)]; exact Nat.mod_eq_of_lt hp
  · apply BitVec.eq_of_toNat_eq; simp only [BitVec.toNat_ofNat]; rw [Nat.mod_mod_of_dvd _ (by decide)]; exact Nat.mod_eq_of_lt ha

theorem putBar_mem (t : State) (pa : Nat) (b : BarObj) : (t.putBar pa b).mem = t.mem.put pa (toBytes 2 b.team ++ toBytes 1 b.st ++ toBytes 1 b.e ++ toBytes 4 b.phase.toNat ++ toBytes 16 b.arrived.toNat) false := by
  unfold State.putBar State.store State.lay
  dsimp only
  rw [State.beats_mem]

theorem putBar_groups (t : State) (pa : Nat) (b : BarObj) : (t.putBar pa b).groups = t.groups := by
  unfold State.putBar State.store
  rw [lay_groups, beats_groups]

theorem beats_barLive (s : State) (xs : List (Nat × Nat)) {w : Bool} : (s.beats xs w).barLive = s.barLive := by
  unfold State.beats
  generalize blocksOf xs = bs
  induction bs generalizing s with
  | nil => rfl
  | cons b bs ih => rw [List.foldl_cons, ih]; rfl

theorem beats_teams (s : State) (xs : List (Nat × Nat)) {w : Bool} : (s.beats xs w).teams = s.teams := by
  unfold State.beats
  generalize blocksOf xs = bs
  induction bs generalizing s with
  | nil => rfl
  | cons b bs ih => rw [List.foldl_cons, ih]; rfl

theorem putBar_barLive (t : State) (pa : Nat) (b : BarObj) : (t.putBar pa b).barLive = t.barLive := by
  unfold State.putBar State.store State.lay
  dsimp only
  exact beats_barLive _ _
theorem putBar_teams (t : State) (pa : Nat) (b : BarObj) : (t.putBar pa b).teams = t.teams := by
  unfold State.putBar State.store State.lay
  dsimp only
  exact beats_teams _ _

/-- A barrier object takes 24 bytes. -/
theorem putBar_only (t : State) (pa : Nat) (b : BarObj) : OnlyAt t (t.putBar pa b) pa 24 := by
  intro hw
  rw [putBar_mem]
  refine ⟨Mem.put_wf _ _ _ hw, fun a ha => ?_⟩
  rw [Mem.byte_put _ _ _ _ hw, if_neg]
  simpa [toBytes_length] using ha

theorem OnlyAt.trans {t u v : State} {pa n : Nat} (h : OnlyAt t u pa n) (k : OnlyAt u v pa n) : OnlyAt t v pa n := by
  intro hw
  obtain ⟨h1, h2⟩ := h hw
  obtain ⟨k1, k2⟩ := k h1
  exact ⟨k1, fun a ha => (k2 a ha).trans (h2 a ha)⟩

theorem OnlyAt.of_mem {t u : State} {pa n : Nat} (h : u.mem.cells = t.mem.cells) : OnlyAt t u pa n := fun hw => ⟨by rw [wf_cells h]; exact hw, fun a _ => byte_cells h a⟩

theorem bar_bounds (m : Mem) (pa : Nat) : (m.bar pa).team < 65536 ∧ (m.bar pa).st < 256 ∧ (m.bar pa).e < 256 :=
  ⟨num_lt m pa 2, num_lt m _ 1, num_lt m _ 1⟩

theorem putBar_bar {t : State} {pa : Nat} {b : BarObj} (hw : t.mem.wf = true) (h1 : b.team < 65536) (h2 : b.st < 256) (h3 : b.e < 256) :
    (t.putBar pa b).mem.bar pa = { b with rsv := (t.mem.bar pa).rsv } := by
  rw [putBar_mem]; exact bar_put hw h1 h2 h3

/-- What R248 does to an object. -/
theorem evalBar_spec {t : State} {pa : Nat} {b : BarObj} {live : BitVec 128} (hw : t.mem.wf = true) (hb : t.mem.bar pa = b) (hl : t.liveAt pa = live) :
    OnlyAt t (t.evalBar pa) pa 24 ∧
      (b.st ≠ 1 ∨ b.e ≤ count128 (live &&& ~~~b.arrived) + count128 b.arrived → t.evalBar pa = t) ∧
      (b.st = 1 → count128 (live &&& ~~~b.arrived) + count128 b.arrived < b.e → (t.evalBar pa).mem.bar pa = { b with st := 2 } ∧
        (t.evalBar pa).groups = t.groups.map fun h => ((h.onPhase pa b.phase).map fun va =>
          ({ h with wait := .none, progIdx := 0, pend := some (b.unreachable live va) } : Group)).getD h) := by
  have hbd := bar_bounds t.mem pa
  unfold State.evalBar
  dsimp only
  rw [hl, hb]
  rw [hb] at hbd
  by_cases hc : b.st = 1 ∧ count128 (live &&& ~~~b.arrived) + count128 b.arrived < b.e
  · rw [if_pos hc]
    refine ⟨OnlyAt.trans (putBar_only t pa { b with st := 2 }) (OnlyAt.of_mem rfl), fun h => by omega, fun _ _ => ⟨?_, ?_⟩⟩
    · refine (bar_cells (m' := _) (m := (t.putBar pa { b with st := 2 }).mem) rfl pa).trans ?_
      rw [putBar_bar (b := { b with st := 2 }) hw hbd.1 (by show 2 < 256; decide) hbd.2.2, hb]
    · refine (congrArg (List.map _) (putBar_groups t pa _)).trans ?_
      apply List.map_congr_left
      intro h _
      unfold Group.onPhase
      cases h.wait <;> simp only [Option.map_none, Option.getD_none]
      split <;> simp
  · rw [if_neg hc]
    exact ⟨OnlyAt.of_mem rfl, fun _ => rfl, fun h1 h2 => absurd ⟨h1, h2⟩ hc⟩

/-- A trap found after the walks. -/
theorem exec_trap_at {i : Instr} {s s1 : State} {g : Group} {e : Env} {body : State → Env → R} (h : Issues i s s1 g e)
    (hx : exec i s = issue i s body) {u : State} {F : Group → Group} (hu : u.groups = (s1.setGroup e.g).groups) {t : Trap}
    (hb : body (s1.setGroup e.g) e = .trap (u.modGroup e.g.uid F) t) (hF : ∀ k, (F k).uid = k.uid)
    (hc : g.undo e.g (F e.g) = F (g.undo e.g e.g)) : exec i s = .next (trapped u (F g) 0 t) := by
  have hz (k : Group) : ({ k with gstatus := k.gstatus ||| (0 : Word) } : Group) = k := by simp
  have key : (u.modGroup e.g.uid F).modGroup g.uid (g.undo e.g) = u.setGroup (F g) := by
    unfold State.modGroup State.setGroup
    congr 1
    rw [hu]
    unfold State.setGroup
    simp only [List.map_map]
    apply List.map_congr_left
    intro x _
    simp only [Function.comp]
    have hug := issues_uid h
    by_cases hxu : x.uid = e.g.uid
    · simp only [hxu, if_true, hF, ← hug]
      rw [hc, undo_self h]
    · simp only [if_neg hxu]
      have : ¬ x.uid = g.uid := by rw [← hug]; exact hxu
      have h3 : ¬ x.uid = (F g).uid := by rw [hF]; exact this
      simp [this, h3]
  have hf : (u.setGroup (F g)).group? g.uid = some (F g) := by
    have h1 : (u.group? g.uid).isSome = true := by
      have h2 := issues_put (g' := e.g) h (issues_uid h)
      have h3 : u.group? g.uid = (s1.setGroup e.g).group? g.uid := by unfold State.group?; rw [hu]
      rw [h3, h2]; rfl
    obtain ⟨k, hk⟩ := Option.isSome_iff_exists.1 h1
    have := group?_setGroup_self (s := u) (g := F g) (h := k) (by rw [hF]; exact hk)
    rw [hF] at this; exact this
  rw [hx, issue_eq h, hb]
  unfold settle
  dsimp only
  rw [key, hf]
  unfold trapped
  rw [hz]

theorem one_walked {a : Access} {op : AddrOp} {s1 : State} {e : Env} {x : Loc} {t : State} (h : OneHere a op s1 e x t) :
    Walked (s1.setGroup e.g) t := by
  obtain ⟨_, _, _, rfl⟩ | ⟨_, _, _, _, _, h⟩ := h.way
  · exact Walked.refl _
  · exact walked_translate h

theorem low_lane {e : Env} {l : Nat} (hl : e.low.getLsbD l = true) : l = lowLane e.act := by
  unfold Env.low failMask at hl
  rw [maskOf_getLsbD] at hl
  exact (by simpa using hl : l < 32 ∧ l = lowLane e.act).2

/-- The one address of an instruction is resolved. -/
theorem resolveOne_addr {waits : Bool} {a : Access} {op : AddrOp} {s1 : State} {e : Env} {x : Loc} {t : State}
    (h : OneAddr waits a op s1 e x t) (moves : Bool) (hm : moves = true → x.peer = none ∧ home x.pa = e.g.l) :
    ∃ k, resolveOne (s1.setGroup e.g) e a waits moves op none = .ok ((k, x), t) := by
  unfold resolveOne
  obtain ⟨k, rest, hc, rfl⟩ | ⟨hc, hb, hcl, hr, ha, ht⟩ := h
  · rw [hc]; exact ⟨k, rfl⟩
  · have hch : checks3 e.g a.code e.low [op] = none := by
      apply checks3_clean
      · intro o' ho r hr' l hl; simp only [List.mem_singleton] at ho; subst ho; rw [low_lane hl]; exact hcl r hr'
      · intro o' ho l hl; simp only [List.mem_singleton] at ho; subst ho; rw [low_lane hl]; exact hr
      · intro o' ho l hl; simp only [List.mem_singleton] at ho; subst ho; rw [low_lane hl]; exact ha
    have ho : (moves && !(outside ((s1.setGroup e.g).ctx e.g.ctx) e.g [(0, x)]).isEmpty) = false := by
      cases moves
      · rfl
      · unfold outside; simp [hm rfl]
    have hw : (waits && (s1.setGroup e.g).sideBusy e.g.uid) = false := by
      cases waits
      · rfl
      · simpa using hb rfl
    refine ⟨lowLane e.act, ?_⟩
    rw [hc, hw]
    dsimp only
    rw [if_neg (by decide), hch]
    dsimp only
    rw [ht]
    dsimp only
    rw [ho, if_neg (by decide)]

/-- An instruction of one address that is here is resolved. -/
theorem resolveOne_go {a : Access} {op : AddrOp} {s1 : State} {e : Env} {x : Loc} {t : State} (h : OneHere a op s1 e x t)
    (moves : Bool) : ∃ k, resolveOne (s1.setGroup e.g) e a true moves op none = .ok ((k, x), t) :=
  resolveOne_addr h.way moves fun _ => h.here

theorem atHome_here {t : State} {i : Instr} {e : Env} {k : Nat} {x : Loc} {here : R} (h : x.peer = none ∧ home x.pa = e.g.l) :
    atHome t i e (k, x) here = here := by
  unfold atHome Loc.part
  simp [h]

theorem touch_cells (t : State) (pa n : Nat) : (t.touch pa n).mem.cells = t.mem.cells := by
  unfold State.touch; rw [State.sense_cells, State.beats_mem]

theorem touch_groups (t : State) (pa n : Nat) : (t.touch pa n).groups = t.groups :=
  (findErrors_groups _ _ _ _).trans (beats_groups _ _)

theorem findErrors_rest (s : State) (pa n src : Nat) : (s.findErrors pa n src).barLive = s.barLive ∧ (s.findErrors pa n src).teams = s.teams := by
  unfold State.findErrors; split <;> exact ⟨rfl, rfl⟩

theorem touch_barLive (t : State) (pa n : Nat) : (t.touch pa n).barLive = t.barLive :=
  (findErrors_rest _ _ _ _).1.trans (beats_barLive _ _)

theorem touch_teams (t : State) (pa n : Nat) : (t.touch pa n).teams = t.teams :=
  (findErrors_rest _ _ _ _).2.trans (beats_teams _ _)

theorem liveAt_eq {t u : State} (h : u.barLive = t.barLive) (pa : Nat) : u.liveAt pa = t.liveAt pa := by
  unfold State.liveAt; rw [h]

theorem barOp_here {i : Instr} {o : M64} {init : Option Nat} {arriving : Bool} {s1 : State} {e : Env} {x : Loc} {t : State}
    {a : Access} {go : State → Nat → Nat → BarObj → R} (h : OneHere a (memOp (s1.ctx e.g.ctx) e.g o 64) s1 e x t)
    (hs : e.g.sibling = false) (hn : ∀ n, init = some n → 0 < n ∧ n ≤ 128) :
    barOp i o a init arriving (s1.setGroup e.g) e go =
      match barCheck t e.g x.pa (t.mem.bar x.pa) init.isSome arriving with
      | some k => .trap t (barTrap k (memAddr (s1.ctx e.g.ctx) e.g o (lowLane e.act)))
      | none => go (t.touch x.pa 64) x.pa (memAddr (s1.ctx e.g.ctx) e.g o (lowLane e.act)) (t.mem.bar x.pa) := by
  unfold barOp
  dsimp only
  rw [hs, if_neg (by decide)]
  obtain ⟨k, hk⟩ := resolveOne_go h true
  have hk' : resolveOne (s1.setGroup e.g) e a true true (memOp ((s1.setGroup e.g).ctx e.g.ctx) e.g o 64) none = .ok ((k, x), t) := hk
  cases init with
  | none =>
    dsimp only
    rw [hk']
    dsimp only
    rw [atHome_here h.here, h.ours, if_neg (by decide)]
    rfl
  | some n =>
    have := hn n rfl
    dsimp only
    rw [if_neg (by omega), hk']
    dsimp only
    rw [atHome_here h.here, h.ours, if_neg (by decide)]
    rfl

theorem modGroup_id (u : State) (k : Nat) : u.modGroup k id = u := by unfold State.modGroup; simp

theorem exec_trap_here {i : Instr} {s s1 : State} {g : Group} {e : Env} {body : State → Env → R} (h : Issues i s s1 g e)
    (hx : exec i s = issue i s body) {u : State} (hu : u.groups = (s1.setGroup e.g).groups) {t : Trap}
    (hb : body (s1.setGroup e.g) e = .trap u t) : exec i s = .next (trapped u g 0 t) :=
  exec_trap_at (F := id) h hx hu (by rw [modGroup_id]; exact hb) (fun _ => rfl) rfl

theorem room_of {g : Group} {d : Nat} (_ : d < 64) {form : DForm} {val : Nat → Word} {bad : Nat → Bool} (hr : RoomFor g [d] [] []) (amask act : Mask) : 
    Room { g with frame := g.frame.write amask act d ⟨form, val, bad⟩ } :=
  room_cheaper (g := filled g [d] [] []) (cheaper_setReg (Cheaper.refl _) _ _) rfl hr

theorem wrote_all {f : Frame} {amask act : Mask} {d : Nat} (hd : d < 64) (x : Word) :
    Wrote f (f.write amask act d ⟨.g, fun _ => x, fun _ => false⟩) amask act (allLanes d x) :=
  wrote_one hd (val := fun _ _ => x) (bad := fun _ _ => false) trivial

end Sys2Proof.Laws
end

