-- ==== Sys2Proof/Laws/Queue.lean ====
section
/-! SUPPORT. What queue instructions do to the entries of their queue, and what a group leaves behind. -/

namespace Sys2Proof.Laws

open Sys2Proof.Machine

theorem queueLay_groups (q : Queue) (k : Nat) (xs : List (Nat × Bool)) (t : State) : (t.queueLay q k xs).groups = t.groups := by
  induction xs generalizing t k with
  | nil => rfl
  | cons x xs ih => exact (ih (k + 1) _).trans rfl

theorem slot_mod (q : Queue) (i j : Nat) (h : i % 2 ^ q.qsize = j % 2 ^ q.qsize) : q.slot i = q.slot j := by
  unfold Queue.slot; rw [h]

/-- Slots of a ring that differ do not overlap (20 R391). -/
theorem slot_apart (q : Queue) (i j : Nat) (h : i % 2 ^ q.qsize ≠ j % 2 ^ q.qsize) :
    q.slot i + q.esb ≤ q.slot j ∨ q.slot j + q.esb ≤ q.slot i := by
  unfold Queue.slot
  generalize i % 2 ^ q.qsize = a at *
  generalize j % 2 ^ q.qsize = b at *
  rcases Nat.lt_or_gt_of_ne h with h | h
  · left; have : q.esb * (a + 1) ≤ q.esb * b := Nat.mul_le_mul_left _ h; rw [Nat.mul_add] at this; omega
  · right; have : q.esb * (b + 1) ≤ q.esb * a := Nat.mul_le_mul_left _ h; rw [Nat.mul_add] at this; omega

theorem num_congr {m m' : Mem} {pa n : Nat} (h : ∀ a, pa ≤ a → a < pa + n → m'.byte a = m.byte a) : m'.num pa n = m.num pa n := by
  unfold Mem.num Mem.bytes
  congr 1
  apply List.map_congr_left
  intro j hj
  have := List.mem_range.1 hj
  exact h _ (by omega) (by omega)

theorem num_put_self {m : Mem} {pa n x : Nat} {d : Bool} (hw : m.wf = true) : (m.put pa (toBytes n x) d).num pa n = x % 256 ^ n := by
  unfold Mem.num
  have := bytes_put_in (m := m) (pa := pa) (bs := toBytes n x) (d := d) hw 0 n (by simp [toBytes_length])
  rw [Nat.add_zero] at this
  rw [this, List.drop_zero, List.take_of_length_le (by simp [toBytes_length]), leBytes_toBytes]

/-- What an append does to memory (20 R391). -/
theorem queueLay_mem (q : Queue) (xs : List (Nat × Bool)) (k : Nat) (t : State) (hw : t.mem.wf = true) (hk : k + xs.length ≤ 2 ^ q.qsize) :
    (t.queueLay q k xs).mem.wf = true ∧
      (∀ a, (∀ j < xs.length, ¬(q.slot (q.tail.toNat + (k + j)) ≤ a ∧ a < q.slot (q.tail.toNat + (k + j)) + q.esb)) → (t.queueLay q k xs).mem.byte a = t.mem.byte a) ∧
      ∀ j x, xs[j]? = some x → (t.queueLay q k xs).mem.num (q.slot (q.tail.toNat + (k + j))) q.esb = x.1 % 256 ^ q.esb := by
  induction xs generalizing t k with
  | nil => exact ⟨hw, fun _ _ => rfl, fun j x h => by simp at h⟩
  | cons x xs ih =>
    have hm : (t.lay (q.slot (q.tail.toNat + k)) (toBytes q.esb x.1) x.2).mem = t.mem.put (q.slot (q.tail.toNat + k)) (toBytes q.esb x.1) x.2 := rfl
    have hl : (x :: xs).length = xs.length + 1 := rfl
    obtain ⟨h1, h2, h3⟩ := ih (k + 1) (t.lay (q.slot (q.tail.toNat + k)) (toBytes q.esb x.1) x.2) (by rw [hm]; exact Mem.put_wf _ _ _ hw) (by omega)
    refine ⟨h1, fun a ha => ?_, fun j y hy => ?_⟩
    · refine (h2 a fun j hj => ?_).trans ?_
      · have := ha (j + 1) (by omega)
        rw [show k + 1 + j = k + (j + 1) by omega]; exact this
      · rw [hm, Mem.byte_put _ _ _ _ hw, if_neg]
        have := ha 0 (by omega)
        rw [toBytes_length]; exact this
    · cases j with
      | zero =>
        simp only [List.getElem?_cons_zero, Option.some.injEq] at hy
        subst hy
        rw [Nat.add_zero]
        rw [← num_put_self (m := t.mem) (pa := q.slot (q.tail.toNat + k)) (d := x.2) hw, ← hm]
        apply num_congr
        intro a ha1 ha2
        refine h2 a fun j hj hc => ?_
        have := slot_apart q (q.tail.toNat + k) (q.tail.toNat + (k + 1 + j)) (by
          intro he
          have h5 := (Nat.modEq_iff_dvd' (n := 2 ^ q.qsize) (a := q.tail.toNat + k) (b := q.tail.toNat + (k + 1 + j)) (by omega)).1 he
          have := Nat.le_of_dvd (by omega) h5
          omega)
        omega
      | succ j =>
        rw [List.getElem?_cons_succ] at hy
        rw [show k + (j + 1) = k + 1 + j by omega]
        exact h3 j y hy

theorem sense_range_cells (f : Nat → Nat) (n : Nat) (ks : List Nat) (t : State) : (ks.foldl (fun (t : State) i => t.sense (f i) n) t).mem.cells = t.mem.cells ∧
    (ks.foldl (fun (t : State) i => t.sense (f i) n) t).groups = t.groups := by
  induction ks generalizing t with
  | nil => exact ⟨rfl, rfl⟩
  | cons k ks ih => rw [List.foldl_cons]; exact ⟨(ih _).1.trans (State.sense_cells _ _ _), (ih _).2.trans (findErrors_groups _ _ _ _)⟩

theorem queueOp_here {a : Access} {i : Instr} {o : M64} {s1 : State} {e : Env} {x : Loc} {t : State} {go : State → Nat → Queue → R}
    (h : OneHere a (memOp (s1.ctx e.g.ctx) e.g o (sizeBytes o.size)) s1 e x t) :
    queueOp i o a (s1.setGroup e.g) e go =
      match (if x.pageBits = 17 then t.queueAt e.g.ctx (x.pa / 0x20000 * 0x20000) else none) with
      | none => .trap (s1.setGroup e.g) (laneTrap 8 2 e.act ((memOp (s1.ctx e.g.ctx) e.g o (sizeBytes o.size)).va (lowLane e.act)))
      | some q => if q.esb ≠ sizeBytes o.size then .trap (s1.setGroup e.g) ⟨25, BitVec.ofNat 64 (sizeBytes o.size), BitVec.ofNat 64 ((memOp (s1.ctx e.g.ctx) e.g o (sizeBytes o.size)).va (lowLane e.act))⟩ else go t x.pa q := by
  unfold queueOp
  dsimp only
  obtain ⟨k, hk⟩ := resolveOne_go h true
  have hk' : resolveOne (s1.setGroup e.g) e a true true (memOp ((s1.setGroup e.g).ctx e.g.ctx) e.g o (sizeBytes o.size)) none = .ok ((k, x), t) := hk
  rw [hk']
  dsimp only
  rw [atHome_here h.here, h.ours, if_neg (by decide)]
  rfl

theorem failMask_list (ls : List Nat) (f : Frame) (act : Mask) {p : Nat} (hp : p < 8) :
    WrotePred f (f.writePred act p (failMask ls)) act p (fun l => ls.contains l) := by
  have h := wrotePred f act hp (failMask ls)
  refine ⟨fun h0 l hl => ?_, h.present, h.others, h.rest⟩
  rw [h.lanes h0 l hl, failMask, maskOf_getLsbD, decide_eq_true hl, Bool.true_and]

theorem zip_find {ls : List Nat} (hn : ls.Nodup) {xs : List (Nat × Bool)} (hl : xs.length = ls.length) {k l : Nat} (hk : ls[k]? = some l) :
    (ls.zip xs).find? (fun r => r.1 == l) = (xs[k]?).map fun x => (l, x) := by
  induction ls generalizing xs k with
  | nil => simp at hk
  | cons a ls ih =>
    obtain ⟨b, xs, rfl⟩ : ∃ b ys, xs = b :: ys := by cases xs with
      | nil => simp at hl
      | cons b ys => exact ⟨b, ys, rfl⟩
    rw [List.nodup_cons] at hn
    rw [List.zip_cons_cons, List.find?_cons]
    cases k with
    | zero => simp at hk; subst hk; simp
    | succ k =>
      rw [List.getElem?_cons_succ] at hk ⊢
      have : (a == l) = false := by
        rw [beq_eq_false_iff_ne]; rintro rfl; exact hn.1 (List.mem_of_getElem? hk)
      dsimp only
      rw [this]
      exact ih hn.2 (by simpa using hl) hk

theorem dataLane_mod (f : Frame) (b k n l : Nat) : dataLane f b k n l % 256 ^ n = dataLane f b k n l := by
  unfold dataLane
  apply Nat.mod_eq_of_lt
  have : (256 : Nat) ^ n = 2 ^ (8 * n) := by rw [show (256 : Nat) = 2 ^ 8 from rfl, ← pow_mul]
  rw [this]; exact Nat.mod_lt _ (by positivity)

theorem room_popped {g : Group} {size : BitVec 4} {d p : Nat} (hr : RoomFor g (loadRegs size d) [p] []) (amask act act' x : Mask) (form : DForm) (val : Nat → Nat) (bad : Nat → Bool) :
   Room { g with frame := (g.frame.writeLoad amask act d size form val bad).writePred act' p x } :=
  room_cheaper (g := filled g (loadRegs size d) [p] []) (cheaper_writePred (cheaper_load (Cheaper.refl _) _ _ _ _ _ _ _) _ _ _) rfl hr

theorem dropGroup_none (s : State) (u : Nat) : (s.dropGroup u).group? u = none := by
  unfold State.dropGroup State.group?
  rw [List.find?_eq_none]
  intro x hx hc
  simp only [List.mem_filter, bne_iff_ne, ne_eq, beq_iff_eq] at hx hc
  exact hx.2 hc

theorem leave_none (s : State) {g : Group} (h : Group) (hu : h.uid = g.uid) (k : Group) : (s.leaveBerth h).group? g.uid = some k → Room k := by
  unfold State.leaveBerth
  rw [hu, dropGroup_none]
  intro hc; cases hc

theorem room_laG {g : Group} {d : Nat} (hd : d < 64) (hr : RoomFor g [d] [] []) (amask act : Mask) (x : Word) (i : Instr)
    (pas : List Nat) : Room (({ g with frame := g.frame.write amask act d ⟨.g, fun _ => x, fun _ => false⟩ } : Group).laLines i pas) := by
  have h := room_of hd hr amask act (form := .g) (val := fun _ => x) (bad := fun _ => false)
  generalize ({ g with frame := g.frame.write amask act d ⟨.g, fun _ => x, fun _ => false⟩ } : Group) = k at *
  obtain ⟨la, y, hy⟩ := laLines_sticky k i pas
  rw [hy]
  exact Room.same h rfl rfl

theorem addr_walked {waits : Bool} {a : Access} {op : AddrOp} {s1 : State} {e : Env} {x : Loc} {t : State} (h : OneAddr waits a op s1 e x t) :
    Walked (s1.setGroup e.g) t := by
  obtain ⟨_, _, _, rfl⟩ | ⟨_, _, _, _, _, h⟩ := h
  · exact Walked.refl _
  · exact walked_translate h

end Sys2Proof.Laws
end

