-- ==== Sys2Proof/Laws/Previous.lean ====
section
/-! SUPPORT. The previous frame as a trap handler reads and writes it, and what an exit or a join leaves. -/

namespace Sys2Proof.Laws

open Sys2Proof.Machine

theorem prevOp_go {s : State} {e : Env} {a : Nat} {p : Bool} {go : Frame → R} {c : Frame} {rest : List Frame}
    (h1 : e.g.inTrap = true) (h2 : 0 < e.g.depth) (h3 : e.g.older = c :: rest)
    (h4 : ∀ l, e.act.getLsbD l = true → e.g.frame.bad a l = false)
    (h5 : ∀ l, e.act.getLsbD l = true → (e.g.frame.lane a l).toNat < if p then 8 else c.fsz) : prevOp s e a p go = go c := by
  unfold prevOp
  dsimp only
  rw [if_neg (by rw [h1]; decide), if_neg (by omega), h3]
  dsimp only
  rw [poisonUse_none (by intro r hr l hl; rw [List.mem_singleton] at hr; subst hr; exact h4 l hl)]
  dsimp only
  have : (lanesOf e.act).find? (fun l => decide ((if p then 8 else c.fsz) ≤ (e.g.frame.lane a l).toNat)) = none := by
    rw [List.find?_eq_none]
    intro l hl hc
    have := h5 l (mem_lanesOf.1 hl)
    simp only [decide_eq_true_eq] at hc
    omega
  rw [this]

theorem deadRead_nil (s : State) (g : Group) : s.deadRead g [] = .ok g := rfl

theorem deadRead_some {s : State} {g : Group} {xs : List (Nat × Nat)} (h : xs ≠ []) (hd : g.deadTrap = false) :
    s.deadRead g xs = .ok (g.sticky DEADRD) := by
  cases xs with
  | nil => exact absurd rfl h
  | cons x xs => unfold State.deadRead; rw [hd]; rfl

theorem deadRead_trap {s : State} {g : Group} {xs : List (Nat × Nat)} (h : xs ≠ []) (hd : g.deadTrap = true) :
    ∃ y ∈ xs, s.deadRead g xs = .error (mkTrap 14 (y.2 + 64 * y.1)) := by
  cases xs with
  | nil => exact absurd rfl h
  | cons x xs =>
    unfold State.deadRead; rw [hd]
    refine ⟨_, ?_, rfl⟩
    split
    · exact List.mem_cons_self
    · rw [List.getD_eq_getElem?_getD]
      cases hq : (x :: xs)[Config.choice s.steps % (xs.length + 1)]? with
      | none => exact List.mem_cons_self
      | some y => exact List.mem_of_getElem? hq

theorem insert_mem {f : Nat → Nat} (xs : List Nat) (k : Nat) :
    k ∈ xs.foldl (fun (a : List Nat) l => natInsert a (f l)) [] ↔ ∃ x ∈ xs, f x = k := (keys_spec f xs).2 k

/-- What one entry of WRPREV does to every register of the previous frame. -/
theorem setPrev_spec {g : Group} {c : Frame} {rest : List Frame} (ho : g.older = c :: rest) (hf : c.fsz ≤ 64) {n : Nat} (hn : n < c.fsz) (r : VReg) :
    ∃ c' f', g.setPrevReg c n r = { g with frame := f', older := c' :: rest } ∧ { f' with v := g.frame.v } = g.frame ∧ { c' with v := c.v } = c ∧
      ∀ m < 64, (g.setPrevReg c n r).prevReg c' m = if m = n then some r else g.prevReg c m := by
  unfold Group.setPrevReg
  by_cases h : (!c.tp && decide (c.fsz - 8 ≤ n)) = true
  · rw [if_pos h]
    refine ⟨c, g.frame.setReg (n - (c.fsz - 8)) (some r), by rw [ho], rfl, rfl, fun m hm => ?_⟩
    simp only [Bool.and_eq_true, Bool.not_eq_true', decide_eq_true_eq] at h
    unfold Group.prevReg
    dsimp only
    simp only [h.1, Bool.not_false, Bool.true_and, decide_eq_true_eq]
    by_cases hmn : m = n
    · subst hmn
      rw [if_pos h.2, if_pos rfl, reg?_setReg _ _ _ _ (by omega) (by omega), if_pos rfl]
    · rw [if_neg hmn]
      by_cases hs : c.fsz - 8 ≤ m
      · rw [if_pos hs, if_pos hs, reg?_setReg _ _ _ _ (by omega) (by omega), if_neg (by omega)]
      · rw [if_neg hs, if_neg hs]
  · rw [if_neg h]
    refine ⟨c.setReg n (some r), g.frame, by rw [ho]; rfl, rfl, rfl, fun m hm => ?_⟩
    have hs : (c.setReg n (some r)).reg? m = if m = n then some r else c.reg? m := reg?_setReg c n m (some r) (by omega) hm
    show (if (!c.tp && decide (c.fsz - 8 ≤ m)) = true then g.frame.reg? (m - (c.fsz - 8)) else (c.setReg n (some r)).reg? m) =
      if m = n then some r else if (!c.tp && decide (c.fsz - 8 ≤ m)) = true then g.frame.reg? (m - (c.fsz - 8)) else c.reg? m
    rw [hs]
    by_cases hmn : m = n
    · subst hmn
      rw [if_neg h, if_pos rfl, if_pos rfl]
    · rw [if_neg hmn, if_neg hmn]

theorem laneOf_write (old : Option VReg) (amask : Mask) (ls : List Nat) (v : Nat → Word) (b : Nat → Bool) (l : Nat) (hl : l < 32) :
    laneOf (some (writeReg old amask (failMask ls) ⟨.g, v, b⟩)) l = (if l ∈ ls then v l else laneOf old l) ∧
    badOf (some (writeReg old amask (failMask ls) ⟨.g, v, b⟩)) l = (if l ∈ ls then b l else badOf old l) := by
  have h := writeReg_spec old amask (failMask ls) ⟨.g, v, b⟩ trivial
  have hm : (failMask ls).getLsbD l = decide (l ∈ ls) := by
    unfold failMask; rw [maskOf_getLsbD]; simp [hl]
  by_cases hx : l ∈ ls
  · rw [if_pos hx, if_pos hx]
    exact ⟨h.value l (by rw [hm]; simpa using hx), h.poison l (by rw [hm]; simpa using hx)⟩
  · rw [if_neg hx, if_neg hx]
    exact h.kept (.inr rfl) l hl (by rw [hm]; simpa using hx)

theorem wrotePrev_fold {v : Nat → Word} {b : Nat → Bool} {sel : Nat → List Nat} : ∀ (ks : List Nat) (g : Group) (c : Frame) (rest : List Frame),
    g.older = c :: rest → c.fsz ≤ 64 → (∀ k ∈ ks, k < c.fsz) → ks.Nodup →
    ∃ c' f', ((ks.map fun k => (k, sel k)).foldl (fun (g : Group) k =>
        let c := g.older.headD Frame.fresh
        g.setPrevReg c k.1 (writeReg (g.prevReg c k.1) g.active (failMask k.2) ⟨.g, v, b⟩)) g) = { g with frame := f', older := c' :: rest } ∧
      { f' with v := g.frame.v } = g.frame ∧ { c' with v := c.v } = c ∧ ∀ n < 64, ∀ l < 32,
        laneOf (({ g with frame := f', older := c' :: rest } : Group).prevReg c' n) l = (if n ∈ ks ∧ l ∈ sel n then v l else laneOf (g.prevReg c n) l) ∧
        badOf (({ g with frame := f', older := c' :: rest } : Group).prevReg c' n) l = (if n ∈ ks ∧ l ∈ sel n then b l else badOf (g.prevReg c n) l) := by
  intro ks
  induction ks with
  | nil => intro g c rest ho _ _ _; exact ⟨c, g.frame, by rw [← ho]; rfl, rfl, rfl, fun n hn l hl => by simp [← ho]⟩
  | cons k ks ih =>
    intro g c rest ho hf hk hnd
    obtain ⟨c1, f1, e1, ef1, ec1, h1⟩ := setPrev_spec ho hf (hk k List.mem_cons_self) (writeReg (g.prevReg c k) g.active (failMask (sel k)) ⟨.g, v, b⟩)
    have hfsz : c1.fsz = c.fsz := by rw [← ec1]
    rw [List.nodup_cons] at hnd
    obtain ⟨c2, f2, e2, ef2, ec2, h2⟩ := ih { g with frame := f1, older := c1 :: rest } c1 rest rfl (by omega)
      (fun x hx => by rw [hfsz]; exact hk x (List.mem_cons_of_mem _ hx)) hnd.2
    refine ⟨c2, f2, ?_, ?_, ?_, fun n hn l hl => ?_⟩
    · rw [List.map_cons, List.foldl_cons]
      have : (g.older.headD Frame.fresh) = c := by rw [ho]; rfl
      dsimp only
      rw [this, e1]
      exact e2
    · exact (congrArg (fun f : Frame => { f with v := g.frame.v }) ef2).trans ef1
    · exact (congrArg (fun f : Frame => { f with v := c.v }) ec2).trans ec1
    · have h2' := h2 n hn l hl
      have hp := h1 n hn
      rw [e1] at hp
      rw [hp] at h2'
      by_cases hnk : n = k
      · subst hnk
        rw [if_pos rfl] at h2'
        have hw := laneOf_write (g.prevReg c n) g.active (sel n) v b l hl
        have hno : ¬(n ∈ ks ∧ l ∈ sel n) := fun hc => hnd.1 hc.1
        rw [if_neg hno, if_neg hno, hw.1, hw.2] at h2'
        refine ⟨h2'.1.trans ?_, h2'.2.trans ?_⟩ <;> simp [List.mem_cons]
      · rw [if_neg hnk] at h2'
        refine ⟨h2'.1.trans ?_, h2'.2.trans ?_⟩ <;> simp [List.mem_cons, hnk]

theorem wrotePrevP_fold {x : Mask} {sel : Nat → List Nat} : ∀ (ks : List Nat) (g : Group) (c : Frame) (rest : List Frame),
    g.older = c :: rest → (∀ k ∈ ks, k < 8) → ks.Nodup →
    ∃ c', ((ks.map fun k => (k, sel k)).foldl (fun (g : Group) k =>
        let c := g.older.headD Frame.fresh
        { g with older := g.older.set 0 (c.writePred (failMask k.2) k.1 x) }) g) = { g with older := c' :: rest } ∧
      { c' with p := c.p } = c ∧ ∀ n < 8, ∀ l < 32,
        (c'.pred n).getLsbD l = if n ≠ 0 ∧ n ∈ ks ∧ l ∈ sel n then x.getLsbD l else (c.pred n).getLsbD l := by
  intro ks
  induction ks with
  | nil => intro g c rest ho _ _; exact ⟨c, by rw [← ho]; rfl, rfl, fun n hn l hl => by simp⟩
  | cons k ks ih =>
    intro g c rest ho hk hnd
    have hk8 := hk k List.mem_cons_self
    have hw := wrotePred c (failMask (sel k)) hk8 x
    rw [List.nodup_cons] at hnd
    obtain ⟨c2, e2, ec2, h2⟩ := ih { g with older := c.writePred (failMask (sel k)) k x :: rest } _ rest rfl
      (fun y hy => hk y (List.mem_cons_of_mem _ hy)) hnd.2
    refine ⟨c2, ?_, ?_, fun n hn l hl => ?_⟩
    · rw [List.map_cons, List.foldl_cons]
      dsimp only
      rw [ho]
      exact e2
    · exact (congrArg (fun f : Frame => { f with p := c.p }) ec2).trans hw.rest
    · rw [h2 n hn l hl]
      have hm : (failMask (sel k)).getLsbD l = decide (l ∈ sel k) := by
        unfold failMask; rw [maskOf_getLsbD]; simp [hl]
      by_cases h0 : n = 0
      · subst h0
        simp [Frame.pred]
      · by_cases hnk : n = k
        · subst hnk
          rw [if_neg (fun hc => hnd.1 hc.2.1), hw.lanes h0 l hl, hm]
          simp [h0]
        · have : (c.writePred (failMask (sel k)) k x).pred n = c.pred n := by
            unfold Frame.pred; rw [if_neg h0, if_neg h0, hw.others n hn (.inl hnk)]
          rw [this]
          simp [hnk]

theorem byIndex_keys (e : Env) (a : Nat) : ∃ ks : List Nat, ks.Nodup ∧ (∀ k, k ∈ ks ↔ ∃ l, e.act.getLsbD l = true ∧ (e.g.frame.lane a l).toNat = k) ∧
    e.byIndex a = ks.map fun k => (k, (lanesOf e.act).filter fun l => e.index a l == k) := by
  have h := keys_spec (e.index a) (lanesOf e.act)
  refine ⟨_, h.1.imp (fun h => Nat.ne_of_lt h), fun k => (h.2 k).trans ?_, rfl⟩
  constructor
  · rintro ⟨l, hl, hk⟩; exact ⟨l, mem_lanesOf.1 hl, hk⟩
  · rintro ⟨l, hl, hk⟩; exact ⟨l, mem_lanesOf.2 hl, hk⟩

theorem find_lane {m : Mask} {l : Nat} {p : Nat → Bool} (hl : m.getLsbD l = true) (hp : p l = true)
    (hlow : ∀ k < l, m.getLsbD k = true → ¬(p k = true)) : (lanesOf m).find? p = some l := by
  have h1 : l ∈ (lanesOf m).filter p := List.mem_filter.2 ⟨mem_lanesOf.2 hl, hp⟩
  have h2 := head?_filter_range (n := 32) (p := fun k => m.getLsbD k && p k) (r := l) (getLsbD_lt hl) (by simp [hl, hp])
    (fun k hk => by
      by_contra hc
      simp only [Bool.not_eq_false, Bool.and_eq_true] at hc
      exact hlow k hk hc.1 hc.2)
  rw [← List.head?_filter]
  unfold lanesOf
  rw [List.filter_filter]
  convert h2 using 3
  funext k
  exact Bool.and_comm _ _

theorem send_groups (s : State) (a b : Nat) (x : Item) : (s.send a b x).groups = s.groups := rfl
theorem send_teams (s : State) (a b : Nat) (x : Item) : (s.send a b x).teams = s.teams := rfl
theorem send_mem (s : State) (a b : Nat) (x : Item) : (s.send a b x).mem = s.mem := rfl

theorem rankCeased_groups (s : State) (t : Team) (r : Nat) : (s.rankCeased t r).groups = s.groups := by
  unfold State.rankCeased
  dsimp only
  have h (xs : List Nat) (f : Nat → Item) (g : Nat → Nat) (a : Nat) (u : State) : (xs.foldl (fun (z : State) o => z.send a (g o) (f o)) u).groups = u.groups := by
    induction xs generalizing u with
    | nil => rfl
    | cons x xs ih => exact (ih _).trans rfl
  have h2 (xs : List (Nat × Nat)) (f : Nat → LinkBody) (v : Nat) (a : Nat) (u : State) :
      (xs.foldl (fun (z : State) o => z.sendPeer o.1 a (home o.2) (z.ftAt v) (f o.2)) u).groups = u.groups := by
    induction xs generalizing u with
    | nil => rfl
    | cons x xs ih => exact (ih _).trans rfl
  split
  · exact (h2 _ (fun o => LinkBody.live t.ctx t.team o (t.live &&& ~~~(1#128 <<< r))) t.anchor _ _).trans (h _ _ home _ _)
  · exact (h2 _ (fun o => LinkBody.live t.ctx t.team o (t.live &&& ~~~(1#128 <<< r))) t.anchor _ _).trans (h _ _ home _ _)

theorem countExited_groups (s : State) (c t tm r : Nat) (m : Mask) : (s.countExited c t tm r m).groups = s.groups := by
  unfold State.countExited
  split
  · rfl
  · dsimp only
    split
    · exact (rankCeased_groups _ _ _).trans rfl
    · rfl

theorem setTeam_find {s : State} {c g t : Nat} {tm tm' : Team} (h : s.team? c g t = some tm) (hc : tm'.ctx = tm.ctx) (hg : tm'.tag = tm.tag)
    (ht : tm'.team = tm.team) : (s.setTeam tm').team? c g t = some tm' := by
  unfold State.team? State.setTeam at *
  dsimp only
  have hk : (tm.ctx == c && tm.tag == g && tm.team == t) = true := (List.find?_some h : _)
  generalize s.teams = ts at *
  induction ts with
  | nil => cases h
  | cons x xs ih =>
    rw [List.map_cons, List.find?_cons]
    rw [List.find?_cons] at h
    simp only [Bool.and_eq_true, beq_iff_eq] at hk
    by_cases hx : (x.ctx == c && x.tag == g && x.team == t) = true
    · rw [hx] at h
      simp only [Bool.and_eq_true, beq_iff_eq] at hx
      rw [if_pos ⟨by rw [hc, hk.1.1]; exact hx.1.1, by rw [hg, hk.1.2]; exact hx.1.2, by rw [ht, hk.2]; exact hx.2⟩]
      have : (tm'.ctx == c && tm'.tag == g && tm'.team == t) = true := by simp [hc, hg, ht, hk]
      rw [this]
    · have hx' : (x.ctx == c && x.tag == g && x.team == t) = false := by simpa using hx
      rw [hx'] at h
      have hne : ¬(x.ctx = tm'.ctx ∧ x.tag = tm'.tag ∧ x.team = tm'.team) := by
        rintro ⟨h1, h2, h3⟩
        rw [hc, hk.1.1] at h1; rw [hg, hk.1.2] at h2; rw [ht, hk.2] at h3
        simp [h1, h2, h3] at hx'
      rw [if_neg hne, hx']
      exact ih h

end Sys2Proof.Laws
end

