-- ==== Sys2Proof/Laws/System.lean ====
section
/-! SUPPORT. Operands in the lowest lane, results in form U, and contexts as system instructions leave them. -/

namespace Sys2Proof.Laws

open Sys2Proof.Machine

theorem mergePoison_none {e : Env} {regs : List Nat} (h : CleanLow e regs) : mergePoison e regs [] = none := by
  unfold mergePoison
  dsimp only
  have : (List.range 64).find? (fun r => !(((lanesOf e.act).filter fun i => e.g.frame.bad r i && (([] : List Nat).contains r || (regs.contains r && i == lowLane e.act))).isEmpty)) = none := by
    rw [List.find?_eq_none]
    intro r _ hc
    simp only [Bool.not_eq_true', List.isEmpty_eq_false_iff_exists_mem] at hc
    obtain ⟨l, hl⟩ := hc
    rw [List.mem_filter] at hl
    simp only [List.contains_nil, Bool.false_or, Bool.and_eq_true, List.contains_iff_mem, beq_iff_eq] at hl
    obtain ⟨_, hb, hr, rfl⟩ := hl
    rw [h r hr] at hb; cases hb
  rw [this]

theorem low_mem {m : Mask} (h : m ≠ 0) : lowLane m ∈ lanesOf m := by
  unfold lowLane
  cases hl : lanesOf m with
  | nil =>
    exfalso; apply h
    apply BitVec.eq_of_getLsbD_eq
    intro i hi
    by_contra hc
    have : m.getLsbD i = true := by
      cases hq : m.getLsbD i with
      | true => rfl
      | false => simp [hq] at hc
    have h2 := mem_lanesOf.2 this
    rw [hl] at h2; cases h2
  | cons a as => exact List.mem_cons_self

theorem mergePoison_some {e : Env} {regs : List Nat} {q : Nat} (ha : e.act ≠ 0) (h : PoisonLow e regs q) (hq : q < 64) :
    mergePoison e regs [] = some (mkTrap 13 (q + 256 * lowLane e.act)) := by
  have hbad (r : Nat) : ((lanesOf e.act).filter fun i => e.g.frame.bad r i && (([] : List Nat).contains r || (regs.contains r && i == lowLane e.act))) =
      if e.g.frame.bad r (lowLane e.act) = true ∧ r ∈ regs then [lowLane e.act] else [] := by
    have hnd := lanes_nodup e.act
    have hm := low_mem ha
    generalize lanesOf e.act = ls at *
    split
    · next hc =>
      have : (fun i => e.g.frame.bad r i && (([] : List Nat).contains r || (regs.contains r && i == lowLane e.act))) = fun i => i == lowLane e.act := by
        funext i
        by_cases hi : i = lowLane e.act
        · subst hi; simp [hc.1, hc.2]
        · have : (i == lowLane e.act) = false := by simpa using hi
          rw [this]; simp
      rw [this]
      rw [List.filter_beq]
      rw [List.count_eq_one_of_mem hnd hm]; rfl
    · next hc =>
      rw [List.filter_eq_nil_iff]
      intro i hi hx
      simp only [List.contains_nil, Bool.false_or, Bool.and_eq_true, List.contains_iff_mem, beq_iff_eq] at hx
      exact hc ⟨by rw [← hx.2.2]; exact hx.1, hx.2.1⟩
  unfold mergePoison
  dsimp only
  have : (List.range 64).find? (fun r => !(((lanesOf e.act).filter fun i => e.g.frame.bad r i && (([] : List Nat).contains r || (regs.contains r && i == lowLane e.act))).isEmpty)) = some q := by
    refine List.find?_range_eq_some.2 ⟨?_, by simpa using hq, fun j hj => ?_⟩
    · rw [hbad, if_pos ⟨h.2.1, h.1⟩]; rfl
    · rw [hbad, if_neg]; rfl
      rintro ⟨h1, h2⟩
      rw [h.2.2 j h2 hj] at h1; cases h1
  rw [this]
  dsimp only
  rw [hbad, if_pos ⟨h.2.1, h.1⟩]; rfl

theorem wrote_u {f : Frame} {amask act : Mask} {d run x : Nat} (hd : d + run ≤ 64) (hr : run = 1 ∨ run = 2) :
    Wrote f ((List.range run).foldl (fun (f : Frame) k => f.write amask act (d + k) ⟨.u, fun _ => BitVec.ofNat 32 (x / 2 ^ (32 * k)), fun _ => false⟩) f) amask act (oneU d run x) := by
  have e0 : (fun (f : Frame) k => f.write amask act (d + k) ⟨.u, fun _ => BitVec.ofNat 32 (x / 2 ^ (32 * k)), fun _ => false⟩) =
      fun (f : Frame) k => f.write amask act (d + k) ⟨.u, fun _ => BitVec.ofNat 32 (x / 2 ^ (32 * (d + k - d))), fun _ => false⟩ := by
    funext f k; rw [Nat.add_sub_cancel_left]
  rw [e0]
  have h1 : FormOk ⟨.u, fun _ => BitVec.ofNat 32 (x / 2 ^ (32 * (d + 0 - d))), fun _ => false⟩ := by intro _ _; rfl
  have h2 : FormOk ⟨.u, fun _ => BitVec.ofNat 32 (x / 2 ^ (32 * (d + 1 - d))), fun _ => false⟩ := by intro _ _; rfl
  rcases hr with rfl | rfl
  · have := wrote_one (f := f) (amask := amask) (act := act) (d := d + 0) (by omega) (form := .u) (val := fun r _ => BitVec.ofNat 32 (x / 2 ^ (32 * (r - d)))) (bad := fun _ _ => false) h1
    exact this
  · have a1 := wrote_one (f := f) (amask := amask) (act := act) (d := d + 0) (by omega) (form := .u) (val := fun r _ => BitVec.ofNat 32 (x / 2 ^ (32 * (r - d)))) (bad := fun _ _ => false) h1
    have a2 := wrote_snoc (d := d + 1) (by omega) (by intro y hy; rw [List.mem_singleton] at hy; omega) (by simp) a1 h2
    exact a2

theorem room_u {g : Group} {amask act : Mask} {d run x : Nat} (hr : run = 1 ∨ run = 2) (h : RoomFor g (oneU d run x).regs [] []) :
    Room { g with frame := (List.range run).foldl (fun (f : Frame) k => f.write amask act (d + k) ⟨.u, fun _ => BitVec.ofNat 32 (x / 2 ^ (32 * k)), fun _ => false⟩) g.frame } := by
  rcases hr with rfl | rfl
  · exact room_cheaper (g := filled g [d + 0] [] []) (cheaper_setReg (Cheaper.refl _) _ _) rfl h
  · exact room_cheaper (g := filled g [d + 0, d + 1] [] []) (cheaper_setReg (cheaper_setReg (Cheaper.refl _) _ _) _ _) rfl h

theorem run_eq (o : T64) : sysRegRun o = 1 ∨ sysRegRun o = 2 := by
  unfold sysRegRun; split <;> simp

/-- A memory-less change of the machine followed by one result in every lane. -/
theorem room_one {g : Group} {amask act : Mask} {d x : Nat} (h : RoomFor g [d] [] []) :
    Room { g with frame := (List.range 1).foldl (fun (f : Frame) k => f.write amask act (d + k) ⟨.u, fun _ => BitVec.ofNat 32 (x / 2 ^ (32 * k)), fun _ => false⟩) g.frame } :=
  room_u (.inl rfl) h

theorem ctx_id (s : State) (n : Nat) : (s.ctx n).id = n := by
  unfold State.ctx
  cases h : s.ctxs.find? fun c => c.id == n with
  | none => rfl
  | some c => simpa using List.find?_some h

theorem ctx_setCtx (s : State) (c : Ctx) : (s.setCtx c).ctx c.id = c := by
  unfold State.setCtx State.ctx
  dsimp only
  split
  · next h =>
    have : (s.ctxs.filter fun x => x.id != c.id).find? (fun x => x.id == c.id) = none := by
      rw [List.find?_eq_none]
      intro x hx hc
      have := (List.mem_filter.1 hx).2
      simp only [bne_iff_ne, ne_eq, beq_iff_eq] at this hc
      exact this hc
    rw [this]; exact h.symm
  · rw [List.find?_cons]; simp

theorem lands_nil (c : Ctx) : c.lands = [] ↔ c.landMask = 0 := by
  unfold Ctx.lands
  rw [List.filter_eq_nil_iff]
  constructor
  · intro h
    apply BitVec.eq_of_getLsbD_eq
    intro i hi
    have := h i (by simpa using hi)
    simpa using this
  · intro h i _; rw [h]; simp

theorem laneG {g : Group} {d : Nat} (hd : d < 64) (hr : RoomFor g [d] [] []) (act : Mask) (x : Word) : Room (g.writeG act d x) :=
  room_of hd hr g.active act (form := .g) (val := fun _ => x) (bad := fun _ => false)

end Sys2Proof.Laws
end

