-- ==== Sys2Proof/Laws/Copy.lean ====
section
/-! SUPPORT. What copies, fill pointers and publications hand on. -/

namespace Sys2Proof.Laws

open Sys2Proof.Machine

theorem copyRanges_eq (c : Ctx) (e : Env) (o : T64) : copyRanges c e o =
    ((lanesOf e.act).filter fun l => e.g.frame.lane o.c.toNat l != 0).map (fun l =>
        (l, (kOp c e.g (o.ctl.getLsbD 1) o.b.toNat).va l, (kOp c e.g (o.ctl.getLsbD 0) o.a.toNat).va l, (e.g.frame.lane o.c.toNat l).toNat)) := by
  unfold copyRanges
  induction lanesOf e.act with
  | nil => rfl
  | cons l ls ih =>
    rw [List.filterMap_cons, List.filter_cons, ih]
    dsimp only
    by_cases h : (e.g.frame.lane o.c.toNat l).toNat = 0
    · have h0 : (e.g.frame.lane o.c.toNat l != 0) = false := by
        have : e.g.frame.lane o.c.toNat l = 0 := BitVec.eq_of_toNat_eq (by simpa using h)
        simp [this]
      rw [if_pos h, h0]; simp
    · have h0 : (e.g.frame.lane o.c.toNat l != 0) = true := by
        have : e.g.frame.lane o.c.toNat l ≠ 0 := fun hc => h (by rw [hc]; rfl)
        exact bne_iff_ne.2 this
      rw [if_neg h, h0]; simp

theorem cutLines_sum : ∀ (k va n : Nat), n = 0 ∨ va % 64 + n ≤ 64 * k → ((cutLines va n k).map Prod.snd).sum = n := by
  intro k
  induction k with
  | zero => intro va n h; simp only [cutLines, List.map_nil, List.sum_nil]; omega
  | succ k ih =>
    intro va n h
    unfold cutLines
    split
    · next h0 => simp [h0]
    · dsimp only
      rw [List.map_cons, List.sum_cons, ih]
      · omega
      · rcases Nat.le_total n (64 - va % 64) with hc | hc
        · rw [Nat.min_eq_left hc]; omega
        · rw [Nat.min_eq_right hc]; omega

theorem cutLines_le : ∀ (k va n : Nat), ∀ d ∈ cutLines va n k, d.2 ≤ 64 := by
  intro k
  induction k with
  | zero => intro va n d hd; cases hd
  | succ k ih =>
    intro va n d hd
    unfold cutLines at hd
    split at hd
    · cases hd
    · rcases List.mem_cons.1 hd with rfl | hd
      · dsimp only; omega
      · exact ih _ _ d hd

theorem lanePieces_sum (src dst : List (Nat × Loc)) (sv dv n : Nat) : ((lanePieces src dst sv dv n).map Piece.size).sum = n := by
  have h1 : (lanePieces src dst sv dv n).map Piece.size = (cutLines dv n (n / 64 + 2)).map Prod.snd := by
    unfold lanePieces
    rw [List.map_map]
    apply List.map_congr_left
    intro d hd
    have := cutLines_le _ _ _ d hd
    show (List.map Prod.snd ((cutLines (sv + (d.1 - dv)) d.2 3).map fun r => (locOf src r.1, r.2))).sum = d.2
    rw [List.map_map]
    exact cutLines_sum 3 _ _ (.inr (by omega))
  rw [h1]
  exact cutLines_sum _ _ _ (.inr (by omega))

theorem pieceInsert_sum (steps : Nat) (p : Piece) (qs : List Piece) : ((pieceInsert steps p qs).map Piece.size).sum = p.size + (qs.map Piece.size).sum := by
  induction qs with
  | nil => rfl
  | cons q qs ih =>
    unfold pieceInsert
    split
    · rfl
    · rw [List.map_cons, List.sum_cons, ih, List.map_cons, List.sum_cons]; omega

theorem pieceFold_sum (steps : Nat) (ps acc : List Piece) :
    ((ps.foldl (fun a p => pieceInsert steps p a) acc).map Piece.size).sum = (ps.map Piece.size).sum + (acc.map Piece.size).sum := by
  induction ps generalizing acc with
  | nil => simp
  | cons p ps ih => rw [List.foldl_cons, ih, pieceInsert_sum, List.map_cons, List.sum_cons]; omega

theorem copyPages_lanes {s : State} {e : Env} {ad : Access} {rs : List (Nat × Nat × Nat × Nat)} : ∀ {xs} {t : State},
    s.copyPages e ad rs = (xs, [], t) → xs.map Prod.fst = rs.map Prod.fst := by
  induction rs generalizing s with
  | nil => intro xs t h; simp only [State.copyPages, Prod.mk.injEq] at h; rw [← h.1]; rfl
  | cons r rs ih =>
    intro xs t h
    obtain ⟨l, sv, dv, n⟩ := r
    unfold State.copyPages at h
    dsimp only at h
    split at h
    · next s2 _ _ =>
      rcases hr : s2.copyPages e ad rs with ⟨a, b, c⟩
      rw [hr] at h
      simp only [Prod.mk.injEq] at h
      obtain ⟨rfl, rfl, rfl⟩ := h
      rw [List.map_cons, List.map_cons, ih hr]
    · next hno =>
      exfalso
      rcases hr : s.copyPages e ad rs with ⟨a, b, c⟩
      rw [hr] at h
      simp only [Prod.mk.injEq, List.append_eq_nil_iff] at h
      obtain ⟨-, ⟨hf, -⟩, -⟩ := h
      revert hf hno
      unfold laneFault
      rcases s.translateRange e.g.l e.g.ctx ad dv n with ⟨v, f⟩ | ⟨ds, t1⟩ <;> dsimp only <;>
        rcases State.translateRange _ e.g.l e.g.ctx accCopySrc sv n with ⟨v', f'⟩ | ⟨ss, s2⟩ <;> dsimp only <;> intro hno hf
      · simp [List.take_eq_nil_iff] at hf
      · simp [List.take_eq_nil_iff] at hf
      · simp [List.take_eq_nil_iff] at hf
      · exact hno _ _ _ _ rfl rfl

theorem copyPieces_sum {steps : Nat} {rs : List (Nat × Nat × Nat × Nat)} {xs : List (Nat × List (Nat × Loc) × List (Nat × Loc))}
    (h : xs.map Prod.fst = rs.map Prod.fst) : ((copyPieces steps rs xs).map Piece.size).sum = (rs.map fun r => r.2.2.2).sum := by
  unfold copyPieces
  rw [pieceFold_sum, List.map_nil, List.sum_nil, Nat.add_zero]
  have key : ∀ rs' : List (Nat × Nat × Nat × Nat), (∀ r ∈ rs', r ∈ rs) → ((rs'.flatMap fun r =>
      match xs.find? fun x => x.1 == r.1 with
      | some x => lanePieces x.2.1 x.2.2 r.2.1 r.2.2.1 r.2.2.2
      | none => []).map Piece.size).sum = (rs'.map fun r => r.2.2.2).sum := by
    intro rs'
    induction rs' with
    | nil => intro _; rfl
    | cons r rs' ih =>
      intro hm
      rw [List.flatMap_cons, List.map_append, List.sum_append, ih (fun r h => hm r (List.mem_cons_of_mem _ h)), List.map_cons, List.sum_cons]
      congr 1
      cases hf : xs.find? fun x => x.1 == r.1 with
      | none =>
        exfalso
        have : r.1 ∈ xs.map Prod.fst := by rw [h]; exact List.mem_map.2 ⟨r, hm r List.mem_cons_self, rfl⟩
        obtain ⟨x, hx, he⟩ := List.mem_map.1 this
        have := List.find?_eq_none.1 hf x hx
        simp [he] at this
      | some x => exact lanePieces_sum _ _ _ _ _
  exact key rs fun _ h => h

theorem room_lines {g : Group} (hr : Room g) (i : Instr) (pas : List Nat) : Room (g.laLines i pas) := by
  obtain ⟨la, y, hy⟩ := laLines_sticky g i pas
  rw [hy]; exact Room.same hr rfl rfl

theorem fills_fold (id : Nat) (ks : List (Nat × List (Nat × Nat))) (u : State) :
    (ks.foldl (fun (t : State) k => t.modLanding k.1 fun x => { x with fills := ⟨id, k.2⟩ :: x.fills }) u).copies = u.copies ∧
    (ks.foldl (fun (t : State) k => t.modLanding k.1 fun x => { x with fills := ⟨id, k.2⟩ :: x.fills }) u).nextCopy = u.nextCopy ∧
    (ks.foldl (fun (t : State) k => t.modLanding k.1 fun x => { x with fills := ⟨id, k.2⟩ :: x.fills }) u).mem = u.mem ∧
    (ks.foldl (fun (t : State) k => t.modLanding k.1 fun x => { x with fills := ⟨id, k.2⟩ :: x.fills }) u).groups = u.groups := by
  induction ks generalizing u with
  | nil => exact ⟨rfl, rfl, rfl, rfl⟩
  | cons k ks ih => exact ih _

theorem out_iff (s : State) (t : Token) : s.outstanding t = true ↔ t.dropped = false ∧ ∃ c ∈ t.copies, c ∈ s.copies.map Copy.id := by
  unfold State.outstanding
  simp only [Bool.and_eq_true, Bool.not_eq_true', List.any_eq_true, beq_iff_eq, List.mem_map]

theorem lane_res {xs : List (Nat × Loc)} {F : Loc → Nat} (hn : (xs.map Prod.fst).Nodup) {fill : Nat → Nat × Bool} {act : Mask}
    (hl : xs.map Prod.fst = lanesOf act) (hf : ∀ x ∈ xs, fill x.1 = (F x.2, false)) (hz : ∀ l, act.getLsbD l = false → fill l = (0, false)) (l : Nat) :
    (laneVal (xs.map fun x => (x.1, F x.2, false)) l, laneBad (xs.map fun x => (x.1, F x.2, false)) l) = fill l := by
  unfold laneVal laneBad
  by_cases ha : act.getLsbD l = true
  · have hm : l ∈ xs.map Prod.fst := by rw [hl]; exact mem_lanesOf.2 ha
    obtain ⟨x, hx, rfl⟩ := List.mem_map.1 hm
    have : (xs.map fun x => (x.1, F x.2, false)).find? (fun r => r.1 == x.1) = some (x.1, F x.2, false) := by
      rw [List.find?_map]
      have := find_self hn hx
      rw [show ((fun r : Nat × Nat × Bool => r.1 == x.1) ∘ fun x : Nat × Loc => (x.1, F x.2, false)) = fun y => y.1 == x.1 from rfl, this]; rfl
    rw [this, hf x hx]; rfl
  · have ha' : act.getLsbD l = false := by simpa using ha
    have : (xs.map fun x => (x.1, F x.2, false)).find? (fun r => r.1 == l) = none := by
      rw [List.find?_eq_none]
      intro r hr hc
      obtain ⟨x, hx, rfl⟩ := List.mem_map.1 hr
      simp only [beq_iff_eq] at hc
      have : l ∈ lanesOf act := by rw [← hl, ← hc]; exact List.mem_map.2 ⟨x, hx, rfl⟩
      rw [mem_lanesOf, ha'] at this; cases this
    rw [this, hz l ha']; rfl

theorem resolveLanes_stay {a : Access} {n : Nat} {regs : List Nat} {va : Nat → Nat} {s1 : State} {e : Env}
    {xs : List (Nat × Loc)} {t : State} (h : Checked a n regs va s1 e xs t) :
    resolveLanes (s1.setGroup e.g) e a false e.act va (fun _ => none) = .go xs t := by
  unfold resolveLanes
  simp only [h.walked]
  have : check5 a.code va [] [] = none := by simp [check5]
  simp [this]

end Sys2Proof.Laws
end

