-- ==== Sys2Proof/Laws/Deliver.lean ====
section
/-! SUPPORT. Deliveries: an item of a pair delivered, and the bytes a posted store leaves. -/

namespace Sys2Proof.Laws

open Sys2Proof.Machine

theorem deliver_some {s t : State} {src dst : Nat} {item : Item} {rest : List Item} {f : Item → State → Option State} {u : State}
    (h : s.pair src dst = item :: rest) (ht : t = s.setPair src dst rest) (hf : f item t = some u) :
    s.deliver src dst f = .next u := by
  subst ht
  simp [State.deliver, State.head, h, hf]

theorem applyStore_byte {t : State} {pl n : Nat} {x : PostLane} (hc : x.ctr = none) (hm : isControl (t.mem.backing x.loc false) = false)
    (hl : x.loc.lwin = false) (hw : t.mem.wf = true) (b : Nat) : (t.applyStore pl n x).mem.byte b =
      if t.mem.backing x.loc false ≤ b ∧ b < t.mem.backing x.loc false + n then
        (toBytes n x.value).getD (b - t.mem.backing x.loc false) 0 else t.mem.byte b := by
  simp only [State.applyStore, hc, hl, Bool.false_eq_true, if_false, State.writeLocPart]
  rw [(writePart_mem hm hw).2, toBytes_length]

end Sys2Proof.Laws
end

