-- ==== Sys2Proof/Laws/Tensor.lean ====
section
/-! SUPPORT. Index walks, handles and their fields, and the lanes of a tensor access. -/

namespace Sys2Proof.Laws

open Sys2Proof.Machine

theorem indexLanes_ok {α : Type} {f : Nat → Idx α} {g : Nat → α} {rd : Nat → List (Nat × Nat)} : ∀ (ls : List Nat),
    (∀ l ∈ ls, f l = .ok (g l, rd l)) → indexLanes ls f = ⟨ls.map fun l => (l, g l), [], ls.flatMap rd⟩ := by
  intro ls
  induction ls with
  | nil => intro _; rfl
  | cons l ls ih =>
    intro h
    have := ih fun k hk => h k (List.mem_cons_of_mem _ hk)
    unfold indexLanes at this ⊢
    rw [List.foldr_cons, this]
    dsimp only
    rw [h l List.mem_cons_self]
    rfl

theorem indexFails_nil (s : State) (e : Env) : indexFails s e [] = none := rfl

theorem tensorChecks_none {s1 : State} {e : Env} {tn : Tensor} {hn : Nat} {clean named : List Nat} (h : TensorReady s1 e tn clean named) :
    tensorChecks e hn tn clean named = none := by
  unfold tensorChecks
  rw [poisonUse_none h.clean, h.valid]
  exact h.named

theorem find_map_lane {α : Type} {ls : List Nat} {g : Nat → α} {l : Nat} (hl : l ∈ ls) :
    (ls.map fun k => (k, g k)).find? (fun x => x.1 == l) = some (l, g l) := by
  induction ls with
  | nil => cases hl
  | cons k ks ih =>
    rw [List.map_cons, List.find?_cons]
    by_cases h : k = l
    · subst h; simp
    · rw [show ((k, g k).1 == l) = false by simpa using h]
      exact ih (by rcases List.mem_cons.1 hl with rfl | h'; exact absurd rfl h; exact h')

theorem find_map_none {α : Type} {ls : List Nat} {g : Nat → α} {l : Nat} (hl : l ∉ ls) :
    (ls.map fun k => (k, g k)).find? (fun x => x.1 == l) = none := by
  rw [List.find?_eq_none]
  intro x hx hc
  obtain ⟨k, hk, rfl⟩ := List.mem_map.1 hx
  simp only [beq_iff_eq] at hc
  exact hl (hc ▸ hk)

theorem lanesOf_failMask {ls : List Nat} {m : Mask} (h : ∃ p : Nat → Bool, ls = (lanesOf m).filter p) : lanesOf (failMask ls) = ls := by
  obtain ⟨p, rfl⟩ := h
  unfold lanesOf
  rw [List.filter_filter]
  apply List.filter_congr
  intro l hl
  rw [List.mem_range] at hl
  unfold failMask
  rw [maskOf_getLsbD, decide_eq_true hl, Bool.true_and, Bool.eq_iff_iff, List.contains_iff_mem, List.mem_filter]
  simp only [List.mem_range, hl, true_and]

theorem resolveElems_ok {s1 : State} {e : Env} {o : T64} {acc : Access} {tn : Tensor} {xs : List (Nat × Loc)} {t : State}
    (htn : tn = Tensor.of (e.g.frame.handle o.b.toNat)) (h : Elems acc o tn s1 e xs t) : resolveElems (s1.setGroup e.g) e o acc = .ok (xs, t) := by
  unfold resolveElems
  obtain ⟨hc, rfl⟩ | ⟨a, byPos, pos, reads, found, rfl, rfl, hc, hr, hp, hf, hw⟩ := h.way
  · rw [hc]
  · rw [hc]
    dsimp only
    rw [← htn, if_neg (by rw [hr.idle, hr.ours]; decide), tensorChecks_none hr]
    dsimp only
    rw [indexLanes_ok (g := pos) (rd := reads) (lanesOf e.act) (fun l hl => hp l (mem_lanesOf.1 hl))]
    dsimp only
    rw [indexFails_nil]
    dsimp only
    have hfd : ((lanesOf e.act).map fun l => (l, pos l)).filterMap (fun x => x.2.map fun p => (x.1, tn.vals + p * tn.width)) =
        found.map fun l => (l, tn.vals + ((pos l).getD 0) * tn.width) := by
      rw [hf]
      induction lanesOf e.act with
      | nil => rfl
      | cons l ls ih =>
        rw [List.map_cons, List.filterMap_cons, List.filter_cons, ih]
        cases hq : pos l with
      | none => simp
      | some v => simp; left; rw [hq]; rfl
    rw [hfd]
    have hms : (found.map fun l => (l, tn.vals + ((pos l).getD 0) * tn.width)).map Prod.fst = found := by
      rw [List.map_map]; exact List.map_id _
    rw [hms]
    unfold resolveLanes
    rw [lanesOf_failMask ⟨_, hf⟩]
    have hv : (found.map fun i => (i, (((found.map fun l => (l, tn.vals + ((pos l).getD 0) * tn.width)).find? fun x => x.1 == i).map Prod.snd).getD 0)) =
        found.map fun l => (l, tn.vals + ((pos l).getD 0) * tn.width) := by
      apply List.map_congr_left
      intro l hl
      rw [find_map_lane hl]; rfl
    dsimp only
    rw [hv, hw]
    dsimp only
    have ho : (if true = true then outside (((s1.setGroup e.g).indexed e.g ((lanesOf e.act).flatMap reads)).ctx e.g.ctx) e.g xs else []) = [] := by
      rw [if_pos rfl]
      unfold outside
      rw [List.filter_eq_nil_iff.2 (fun x hx => by simp [(h.here.1 x hx).2])]; rfl
    rw [ho]
    have h5 (va) : check5 (acc.wide tn.width).code va [] [] = none := by simp [check5]
    rw [h5]
    rfl

theorem wrote_run {f : Frame} {amask act : Mask} {d : Nat} (val : Nat → Nat → Word) : ∀ k, d + k ≤ 64 →
    Wrote f ((List.range k).foldl (fun (f : Frame) j => f.write amask act (d + j) ⟨.g, val j, fun _ => false⟩) f) amask act
      ⟨(List.range k).map (d + ·), .g, fun r l => val (r - d) l, fun _ _ => false⟩ := by
  intro k
  induction k with
  | zero =>
    intro _
    refine ⟨?_, ?_, ?_, ?_, ?_, ?_, fun _ _ _ => rfl, rfl⟩ <;> simp
  | succ k ih =>
    intro hk
    have h := wrote_snoc (d := d + k) (by omega) (by intro x hx; obtain ⟨j, hj, rfl⟩ := List.mem_map.1 hx; have := List.mem_range.1 hj; omega)
      (by intro hx; obtain ⟨j, hj, he⟩ := List.mem_map.1 hx; have := List.mem_range.1 hj; omega) (ih (by omega)) trivial
    rw [List.range_succ, List.foldl_append, List.map_append]
    have e0 : (fun l => val (d + k - d) l) = val k := by rw [Nat.add_sub_cancel_left]
    simp only [e0] at h
    exact h

theorem cheaper_run {f f' : Frame} {amask act : Mask} {d : Nat} (val : Nat → Nat → Word) (h : Cheaper f f') : ∀ k,
    Cheaper ((List.range k).foldl (fun (f : Frame) j => f.write amask act (d + j) ⟨.g, val j, fun _ => false⟩) f)
      (((List.range k).map (d + ·)).foldl (fun (f : Frame) d => f.setReg d (some ⟨.g (List.replicate 32 0), 0⟩)) f') := by
  intro k
  induction k with
  | zero => exact h
  | succ k ih =>
    rw [List.range_succ, List.foldl_append, List.map_append, List.foldl_append]
    exact cheaper_setReg ih _ _

theorem setField_bit (h : BitVec 256) (hi lo x j : Nat) (hl : lo ≤ hi) (hj : j < 256) :
    (setField h hi lo x).getLsbD j = if lo ≤ j ∧ j < hi + 1 then x.testBit (j - lo) else h.getLsbD j := by
  unfold setField
  simp only [BitVec.getLsbD_or, BitVec.getLsbD_and, BitVec.getLsbD_not, BitVec.getLsbD_shiftLeft, BitVec.getLsbD_ofNat,
    Nat.testBit_two_pow_sub_one, hj, decide_true, Bool.true_and]
  by_cases h1 : lo ≤ j
  · by_cases h2 : j < hi + 1
    · have h3 : j - lo < hi - lo + 1 := by omega
      have h4 : j - lo < 256 := by omega
      have h5 : ¬j < lo := by omega
      simp [h1, h2, h3, h4, h5]
    · have h3 : ¬j - lo < hi - lo + 1 := by omega
      simp [h1, h2, h3]
  · have h5 : j < lo := by omega
    simp [h1, h5]

theorem handle_set {f : Frame} {d : Nat} (hd : d < 8) (x : BitVec 256) :
    { (f.setHandle d x) with h := f.h } = f ∧ ((f.setHandle d x).h.getD d none).isSome = true ∧
      (∀ n < 8, n ≠ d → (f.setHandle d x).h.getD n none = f.h.getD n none) ∧ (f.setHandle d x).handle d = x := by
  have h (n : Nat) (hn : n < 8) : (f.setHandle d x).h.getD n none = if n = d then some x else f.h.getD n none := fileSet_get 8 f.h d n _ hd hn
  refine ⟨rfl, ?_, fun n hn hne => ?_, ?_⟩
  · rw [h d hd, if_pos rfl]; rfl
  · rw [h n hn, if_neg hne]
  · unfold Frame.handle; rw [h d hd, if_pos rfl]; rfl

theorem cheaper_handle {f : Frame} (d : Nat) (x : BitVec 256) : Cheaper (f.setHandle d x) (f.setHandle d 0) :=
  ⟨forall₂_self (fun _ => ⟨le_rfl, id⟩) _, forall₂_self (fun _ => id) _, forall₂_fileSet (R := SomeLe) id (forall₂_self (fun _ => id) _) 8 d (fun _ => rfl)⟩

theorem room_handle {g : Group} {d : Nat} (hr : RoomFor g [] [] [d]) (x : BitVec 256) : Room { g with frame := g.frame.setHandle d x } :=
  room_cheaper (g := filled g [] [] [d]) (cheaper_handle d x) rfl hr

theorem unlow {g : Group} {m : Mask} {regs : List Nat} (h : ∀ r ∈ regs, ∀ l, m.getLsbD l = true → g.frame.bad r l = false) : g.poisonUse m regs = none :=
  poisonUse_none h

theorem tensorChecks_bad {e : Env} {tn : Tensor} {hn r : Nat} {clean named : List Nat}
    (hc : ∀ r ∈ clean, ∀ l, e.act.getLsbD l = true → e.g.frame.bad r l = false) (h : tn.bad = some r) :
    tensorChecks e hn tn clean named = some (mkTrap 31 (r + 16 * hn)) := by
  unfold tensorChecks
  rw [poisonUse_none hc, h]; rfl

theorem wrotePred_congr {f f' : Frame} {act : Mask} {d : Nat} {v w : Nat → Bool} (h : WrotePred f f' act d v)
    (he : ∀ l < 32, act.getLsbD l = true → v l = w l) : WrotePred f f' act d w := by
  refine ⟨fun h0 l hl => ?_, h.present, h.others, h.rest⟩
  rw [h.lanes h0 l hl]
  by_cases ha : act.getLsbD l = true
  · rw [if_pos ha, if_pos ha, he l hl ha]
  · rw [if_neg ha, if_neg ha]

theorem room_pred2 {g : Group} {f : Frame} {ds : List Nat} {c : Nat} {act x : Mask} (hr : RoomFor g ds [c] [])
    (hf : Cheaper f (ds.foldl (fun (f : Frame) d => f.setReg d (some ⟨.g (List.replicate 32 0), 0⟩)) g.frame)) :
    Room { g with frame := f.writePred act c x } :=
  room_cheaper (g := filled g ds [c] []) (cheaper_writePred hf _ _ _) rfl hr

theorem bindE_ok {α β : Type} (a : α) (rs : List (Nat × Nat)) (f : α → Idx β) (b : β) (rs' : List (Nat × Nat)) (h : f a = .ok (b, rs')) :
    bindE (.ok (a, rs)) f = .ok (b, rs ++ rs') := by unfold bindE; dsimp only; rw [h]

theorem pstore_only (g : Machine.Group) (m : Mask) (bad : Nat → Bool) : ∃ q, g.pstore m bad = { g with gstatus := q } := by
  unfold Group.pstore
  split
  · exact ⟨_, rfl⟩
  · exact ⟨_, rfl⟩

end Sys2Proof.Laws
end

