-- ==== Sys2Proof/Laws/Merge.lean ====
section
/-! SUPPORT. Merge descriptors, sessions and the commands on them. -/

namespace Sys2Proof.Laws

open Sys2Proof.Machine

theorem mergePoison_all {e : Env} {low all : List Nat} (h : CleanLow e low)
    (ha : ∀ r ∈ all, ∀ l, e.act.getLsbD l = true → e.g.frame.bad r l = false) : mergePoison e low all = none := by
  unfold mergePoison
  dsimp only
  have : (List.range 64).find? (fun r => !(((lanesOf e.act).filter fun i => e.g.frame.bad r i && (all.contains r || (low.contains r && i == lowLane e.act))).isEmpty)) = none := by
    rw [List.find?_eq_none]
    intro r _ hc
    simp only [Bool.not_eq_true', List.isEmpty_eq_false_iff_exists_mem] at hc
    obtain ⟨l, hl⟩ := hc
    rw [List.mem_filter] at hl
    simp only [Bool.and_eq_true, Bool.or_eq_true, List.contains_iff_mem, beq_iff_eq] at hl
    obtain ⟨hm, hb, hr | ⟨hr, rfl⟩⟩ := hl
    · rw [ha r hr l (mem_lanesOf.1 hm)] at hb; cases hb
    · rw [h r hr] at hb; cases hb
  rw [this]

theorem desc_read {s1 : State} {e : Env} {a : Nat} {low : List Nat} {desc : MergeDesc} {x : Loc} {t0 t : State}
    (h : DescRead s1 e a low desc x t0 t) : readDesc (s1.setGroup e.g) e a low = .ok (desc, e.lowPair a, x, t) := by
  unfold readDesc
  rw [mergePoison_none h.clean]
  dsimp only
  obtain ⟨k, hk⟩ := resolveOne_addr h.way false (fun hc => by cases hc)
  rw [hk]
  dsimp only
  have hrd : t0.readAt (t0.mem.backing x false) 64 = (t0.mem.num (t0.mem.backing x false) 64, t0.mem.unreadable (t0.mem.backing x false) 64,
      (t0.beats [(t0.mem.backing x false, 64)]).sense (t0.mem.backing x false) 64) := by
    unfold State.readAt State.readPart
    rw [if_neg (by rw [h.memory]; decide), State.beats_mem]
  rw [hrd, h.sound]
  dsimp only
  rw [← h.read, h.good, ← h.after]
  rfl

theorem desc_mem {s1 : State} {e : Env} {a : Nat} {low : List Nat} {desc : MergeDesc} {x : Loc} {t0 t : State}
    (h : DescRead s1 e a low desc x t0 t) (b : Nat) : t.mem.byte b = t0.mem.byte b := by
  rw [h.after]; exact byte_cells (by rw [State.sense_cells, State.beats_mem]) b

theorem desc_groups {s1 : State} {e : Env} {a : Nat} {low : List Nat} {desc : MergeDesc} {x : Loc} {t0 t : State}
    (h : DescRead s1 e a low desc x t0 t) : t.groups = (s1.setGroup e.g).groups := by
  rw [h.after]; exact (findErrors_groups _ _ _ _).trans ((beats_groups _ _).trans (addr_walked h.way).groups)

theorem check_ready {s1 : State} {e : Env} {b sid : Nat} {stream : Option Nat} {states : List Nat} {x : Session}
    (h : SessionReady s1 e b stream states sid x) : sessionCheck (some x) (stream.map e.lowWord) states = none := by
  unfold sessionCheck
  dsimp only
  rw [if_neg, if_neg, if_pos]
  · exact List.contains_iff_mem.2 h.state
  · cases stream with
    | none => simp
    | some c => simp only [Option.map_some, Option.any_some]; rw [show x.sealed.getD (e.lowWord c) false = false from (h.stream c rfl).2]; decide
  · cases stream with
    | none => simp
    | some c => simp only [Option.map_some, Option.any_some, decide_eq_true_eq, not_le]; exact (h.stream c rfl).1

theorem check_fails {s1 : State} {e : Env} {sid : Nat} {stream : Option Nat} {states : List Nat} {r : Nat}
    (h : SessionFails s1 e sid stream states r) :
    sessionCheck ((s1.setGroup e.g).session? e.g.ctx sid) (stream.map e.lowWord) states = some r := by
  unfold sessionCheck
  obtain ⟨h0, rfl⟩ | ⟨x, h0, h⟩ := h
  · rw [h0]
  · rw [h0]
    dsimp only
    have anyE (p : Nat → Bool) : ((stream.map e.lowWord).any p = true) ↔ ∃ c ∈ stream, p (e.lowWord c) = true := by
      cases stream <;> simp
    rcases h with ⟨⟨c, hc, h1⟩, rfl⟩ | ⟨h1, ⟨⟨c, hc, h2⟩, rfl⟩ | ⟨h2, h3, rfl⟩⟩
    · rw [if_pos ((anyE _).2 ⟨c, hc, decide_eq_true h1⟩)]
    · rw [if_neg, if_pos ((anyE _).2 ⟨c, hc, h2⟩)]
      rw [anyE]; rintro ⟨c, hc, hx⟩
      have : e.lowWord c < x.desc.streams := h1 c hc
      simp only [decide_eq_true_eq] at hx
      omega
    · rw [if_neg, if_neg, if_neg (by rw [List.contains_iff_mem]; exact h3)]
      · rw [anyE]; rintro ⟨c, hc, hx⟩
        exact absurd hx (by unfold Env.lowWord; rw [h2 c hc]; decide)
      · rw [anyE]; rintro ⟨c, hc, hx⟩
        have : e.lowWord c < x.desc.streams := h1 c hc
        simp only [decide_eq_true_eq] at hx
        omega

theorem sessionOp_ready {s1 : State} {e : Env} {b sid : Nat} {stream : Option Nat} {states : List Nat} {x : Session} {go : Nat → Session → R}
    (h : SessionReady s1 e b stream states sid x) : sessionOp (s1.setGroup e.g) e b stream states go = go sid x := by
  unfold sessionOp
  rw [mergePoison_none h.clean]
  dsimp only
  have hs : e.lowWord b = sid := h.named.symm
  rw [if_neg (by rw [h.idle]; decide), hs, h.session, check_ready h]

theorem sessionOp_fails {s1 : State} {e : Env} {b sid r : Nat} {stream : Option Nat} {states : List Nat} {go : Nat → Session → R}
    (hc : CleanLow e (b :: stream.toList)) (hb : (s1.setGroup e.g).plainBusy e.g.uid = false)
    (hs : sid = (e.g.frame.lane b (lowLane e.act)).toNat) (h : SessionFails s1 e sid stream states r) :
    sessionOp (s1.setGroup e.g) e b stream states go = .trap (s1.setGroup e.g) (mkTrap 33 r) := by
  unfold sessionOp
  rw [mergePoison_none hc]
  dsimp only
  have hs : e.lowWord b = sid := hs.symm
  rw [if_neg (by rw [hb]; decide), hs, check_fails h]
  cases (s1.setGroup e.g).session? e.g.ctx sid <;> rfl

theorem writeG_fold (g : Machine.Group) (act : Mask) (d : Nat) (v : Nat → Word) (ks : List Nat) :
    ks.foldl (fun (h : Machine.Group) k => h.writeG act (d + k) (v k)) g =
      { g with frame := ks.foldl (fun (f : Frame) k => f.write g.active act (d + k) ⟨.g, fun _ => v k, fun _ => false⟩) g.frame } := by
  induction ks generalizing g with
  | nil => rfl
  | cons k ks ih => rw [List.foldl_cons, ih]; rfl

theorem writeQuad_wrote {g : Machine.Group} {act : Mask} {d : Nat} (ws : List Nat) (hd : d + 4 ≤ 64) :
    ∃ f', Wrote g.frame f' g.active act (quad d ws) ∧ g.writeQuad act d ws = { g with frame := f' } ∧
      (RoomFor g ((List.range 4).map (d + ·)) [] [] → Room { g with frame := f' }) := by
  refine ⟨_, wrote_run (f := g.frame) (amask := g.active) (act := act) (fun k _ => BitVec.ofNat 32 (ws.getD k 0)) 4 hd, ?_, fun hr => ?_⟩
  · unfold Group.writeQuad; rw [writeG_fold]
  · have hq := cheaper_run (f := g.frame) (f' := g.frame) (amask := g.active) (act := act) (d := d) (fun k _ => BitVec.ofNat 32 (ws.getD k 0)) (Cheaper.refl _) 4
    exact room_cheaper (g := filled g ((List.range 4).map (d + ·)) [] []) hq rfl hr

theorem sid_landing {k l gen : Nat} (hk : k < 8) (hl : l < 64) : sidLanding (k + 256 * l + 65536 * gen) = l ∧ sidSlot (k + 256 * l + 65536 * gen) = k := by
  unfold sidLanding sidSlot bits
  constructor <;> omega

theorem find_free {m : MergeNet} {k : Nat} (hk : k < 8) (h0 : m.slots.getD k none = none) (hj : ∀ j < k, (m.slots.getD j none).isSome = true) :
    (List.range 8).find? (fun k => (m.slots.getD k none).isNone) = some k := by
  refine List.find?_range_eq_some.2 ⟨by rw [h0]; rfl, by simpa using hk, fun j hjk => ?_⟩
  have := hj j hjk
  cases h : m.slots.getD j none with
  | none => rw [h] at this; cases this
  | some _ => rfl

theorem find_full {m : MergeNet} (hj : ∀ j < 8, (m.slots.getD j none).isSome = true) :
    (List.range 8).find? (fun k => (m.slots.getD k none).isNone) = none := by
  rw [List.find?_eq_none]
  intro j hjk
  have := hj j (List.mem_range.1 hjk)
  cases h : m.slots.getD j none with
  | none => rw [h] at this; cases this
  | some _ => exact fun hc => by cases hc

end Sys2Proof.Laws
end

