-- ==== Sys2Proof/Laws/Matrix.lean ====
section
/-! SUPPORT. The checks of matrix commands, their queue, and the registers a reply waits on. -/

namespace Sys2Proof.Laws

open Sys2Proof.Machine

theorem claim_none {u : MUnit} {key : Nat × Nat × Nat} (h : u.holder = some key) (hq : ∀ c ∈ u.queue, c.op.isRelease = false) : claimTrap u key = none := by
  unfold claimTrap
  rw [h]
  dsimp only
  rw [if_neg (by simp), if_neg]
  simp only [List.any_eq_true, not_exists, not_and]
  exact fun c hc hr => by rw [hq c hc] at hr; cases hr

theorem matrix_ready {s1 : State} {e : Env} {regs : List Nat} (h : MatrixReady s1 e regs) : matrixChecks (s1.setGroup e.g) e regs = none := by
  unfold matrixChecks
  rw [if_neg (by rw [h.idle]; decide), if_neg (by rw [h.kept]; decide)]
  have hu : (s1.setGroup e.g).unit e.g.l e.g.core = s1.unit e.g.l e.g.core := rfl
  have hc := claim_none (u := { s1.unit e.g.l e.g.core with holder := (s1.unit e.g.l e.g.core).holder.or ((s1.setGroup e.g).setAside (s1.unit e.g.l e.g.core).l (s1.unit e.g.l e.g.core).core) })
    (key := e.g.teamKey) (by dsimp only; rw [h.held]; rfl) h.standing
  rw [hu]
  dsimp only
  rw [hc]
  dsimp only
  rw [poisonUse_none (g := e.g) (act := e.low)]
  · rfl
  · intro r hr l hl; rw [low_lane hl]; exact h.clean r hr

theorem enqueue_free {t : State} {i : Instr} {e : Env} {op : MOp} {pages : List (Nat × Loc)} {pas : List Nat} {k : Machine.Group}
    (hf : (t.unit e.g.l e.g.core).queue.length < 16) : enqueue t i e op pages pas k = done (queued t e op pages) i (k.laLines i pas) := by
  unfold enqueue
  dsimp only
  rw [if_neg (by omega)]
  rfl

theorem enqueue_full {t : State} {i : Instr} {e : Env} {op : MOp} {pages : List (Nat × Loc)} {pas : List Nat} {k : Machine.Group}
    (hf : ¬(t.unit e.g.l e.g.core).queue.length < 16) : enqueue t i e op pages pas k = .wait t := by
  unfold enqueue
  dsimp only
  rw [if_pos (by omega)]

theorem zip_mem {α : Type} {xs : List α} {p : Nat × α} {n : Nat} (h : p ∈ (List.range n).zip xs) : p.2 ∈ xs := (List.of_mem_zip h).2

theorem matrix_reach {s0 : State} {i : Instr} {e : Env} {a : Access} {own : List Nat} {runs : List (Nat × Nat)} {metas : List Nat} {pages : List (Nat × Loc)}
    {ms : List (List (Nat × Bool))} {t : State} {op : List (List (Nat × Bool)) → MOp} (h : MatrixReach s0 e a runs metas pages ms t) :
    matrixGo s0 i e a own runs metas op = enqueue t i e (op ms) pages (own ++ runLines pages (runs ++ metas.map fun m => (m, 16384))) e.g := by
  obtain ⟨t0, bs, h1, h2, h3, h4, h5⟩ := h
  unfold matrixGo
  rw [h1]
  dsimp only
  rw [if_neg]
  · rw [h3]
    dsimp only
    rw [← h4]
    have : (List.filterMap (fun (x : Nat × List (Nat × Bool)) => match x with
        | (st, ws) => List.findSome? (fun (y : Nat × Nat × Bool) => match y with
          | (k, w) => Option.map (fun g => (st, k, g)) ((List.range 8).find? fun g => decide (w.1 / 2 ^ (4 * g + 2) % 4 ≤ w.1 / 2 ^ (4 * g) % 4))) ((List.range 4096).zip ws))
        ((List.range ms.length).zip ms)) = [] := by
      rw [List.filterMap_eq_nil_iff]
      rintro ⟨st, ws⟩ hm
      have hws := zip_mem hm
      dsimp only at hws ⊢
      rw [List.findSome?_eq_none_iff]
      rintro ⟨k, w⟩ hk
      have hw := zip_mem hk
      dsimp only at hw ⊢
      rw [Option.map_eq_none_iff, List.find?_eq_none]
      intro q hq
      have := h5 ws hws w hw q (List.mem_range.1 hq)
      simpa using this
    rw [this]
    rfl
  · simp only [Bool.and_eq_true, Bool.not_eq_true', not_and, Bool.not_eq_true]
    intro hm
    exact h2 (by intro hc; rw [hc] at hm; cases hm)

theorem put_group {t : State} {k : Machine.Group} {i : Instr} {s s1 : State} {g : Machine.Group} {e : Env} {body : State → Env → R} (h : Issues i s s1 g e)
    (hx : exec i s = issue i s body) (hb : body (s1.setGroup e.g) e = done (t.setGroup e.g) i k) (hu : k.uid = e.g.uid) (hr : Room k) :
    exec i s = .next (t.setGroup (k.advance i)) := by
  have h1 := exec_done h hx hb hu hr
  rw [setGroup_setGroup _ _ _ (show (k.advance i).uid = e.g.uid from hu)] at h1
  exact h1

theorem queued_group (s1 : State) (e : Env) (k : Machine.Group) (op : MOp) (pages : List (Nat × Loc)) :
    queued (s1.setGroup k) e op pages = (queued s1 e op pages).setGroup k := rfl

theorem hold_lanes (f : Frame) (d : Nat) : ∀ n, d + n ≤ 64 → ∀ r < 64, ∀ l < 32,
    (f.hold d n).lane r l = f.lane r l ∧ (f.hold d n).bad r l = f.bad r l := by
  have key (ks : List Nat) (hk : ∀ k ∈ ks, d + k < 64) : ∀ (h : Frame), (∀ r < 64, ∀ l < 32, h.lane r l = f.lane r l ∧ h.bad r l = f.bad r l) →
      ∀ r < 64, ∀ l < 32, (ks.foldl (fun (h : Frame) k =>
        h.setReg (d + k) (some ⟨.g ((List.range 32).map (f.lane (d + k))), maskOf fun l => f.bad (d + k) l⟩)) h).lane r l = f.lane r l ∧
      (ks.foldl (fun (h : Frame) k =>
        h.setReg (d + k) (some ⟨.g ((List.range 32).map (f.lane (d + k))), maskOf fun l => f.bad (d + k) l⟩)) h).bad r l = f.bad r l := by
    induction ks with
    | nil => exact fun h hh => hh
    | cons k ks ih =>
      intro h hh
      refine ih (fun j hj => hk j (List.mem_cons_of_mem _ hj)) _ fun r hr l hl => ?_
      have hd := hk k List.mem_cons_self
      unfold Frame.lane Frame.bad
      rw [reg?_setReg h (d + k) r _ hd hr]
      by_cases he : r = d + k
      · rw [if_pos he, he]
        refine ⟨?_, ?_⟩
        · show ((List.range 32).map (f.lane (d + k))).getD l 0 = f.lane (d + k) l
          rw [List.getD_eq_getElem?_getD, List.getElem?_map, List.getElem?_range hl]; rfl
        · show (maskOf fun l => f.bad (d + k) l).getLsbD l = f.bad (d + k) l
          rw [maskOf_getLsbD, decide_eq_true hl, Bool.true_and]
      · rw [if_neg he]; exact hh r hr l hl
  intro n hn
  exact key (List.range n) (fun k hk => by have := List.mem_range.1 hk; omega) f fun _ _ _ _ => ⟨rfl, rfl⟩

theorem cheaper_hold {d : Nat} (v : Nat → Option VReg) (ks : List Nat) : ∀ (h h' : Frame), Cheaper h h' →
    Cheaper (ks.foldl (fun (h : Frame) k => h.setReg (d + k) (v k)) h)
      ((ks.map (d + ·)).foldl (fun (f : Frame) d => f.setReg d (some ⟨.g (List.replicate 32 0), 0⟩)) h') := by
  induction ks with
  | nil => exact fun _ _ h => h
  | cons k ks ih => exact fun h h' hh => ih _ _ (cheaper_setReg hh _ _)

theorem room_hold {g : Machine.Group} {d n : Nat} (h : RoomFor g ((List.range n).map (d + ·)) [] []) :
    Room { g with frame := g.frame.hold d n } :=
  room_cheaper (g := filled g ((List.range n).map (d + ·)) [] [])
    (cheaper_hold (d := d) (fun k => some ⟨.g ((List.range 32).map (g.frame.lane (d + k))), maskOf fun l => g.frame.bad (d + k) l⟩) (List.range n) g.frame g.frame (Cheaper.refl _)) rfl h

theorem rangeAt_none {e : Env} {vs : List Nat} (h : ∀ v ∈ vs, v < 2 ^ 56) : rangeAt e vs = none := by
  unfold rangeAt
  rw [List.find?_eq_none.2 (fun v hv => by have := h v hv; simp only [decide_eq_true_eq, not_le]; exact this)]
  rfl

end Sys2Proof.Laws
end

