-- ==== Sys2Proof/Laws/Packing.lean ====
section
/-! SUPPORT. Words are the packing of their fields, and what a word decodes to encodes to that word. -/

namespace Sys2Proof.Laws

theorem leBytes_lt (l : List Byte) : leBytes l < 256 ^ l.length := by
  induction l with
  | nil => simp [leBytes]
  | cons b l ih =>
    simp only [leBytes, List.length_cons, pow_succ]
    have := b.isLt
    omega

theorem toBytes_leBytes (l : List Byte) : toBytes l.length (leBytes l) = l := by
  induction l with
  | nil => rfl
  | cons b l ih =>
    have hb := b.isLt
    simp only [List.length_cons, toBytes, leBytes]
    have e1 : (b.toNat + 256 * leBytes l) / 256 = leBytes l := by omega
    have e2 : BitVec.ofNat 8 (b.toNat + 256 * leBytes l) = b := by
      apply BitVec.eq_of_toNat_eq
      rw [BitVec.toNat_ofNat]
      omega
    rw [e1, e2, ih]

theorem leBytes_take2 : ∀ l : List Byte, leBytes (l.take 2) = leBytes l % 65536
  | [] => rfl
  | [a] => by have := a.isLt; simp [leBytes]; omega
  | a :: b :: l => by
    have := a.isLt
    have := b.isLt
    simp only [List.take_succ_cons, List.take_zero, leBytes]
    omega

/-- The packings of a word's fields. -/
theorem pack_unpackC16 (w : BitVec 16) : let o : C16 := ⟨w.extractLsb' 15 1, w.extractLsb' 10 5, w.extractLsb' 5 5⟩
    o.g ++ o.s ++ o.d ++ w.extractLsb' 1 4 ++ w.extractLsb' 0 1 = w := by
  simp (disch := decide) only [extract_join]
  exact BitVec.extractLsb'_eq_self
theorem pack_unpackA32 (w : BitVec 32) : let o := unpackA32 w
    o.g ++ o.fn ++ o.b ++ o.a ++ o.d ++ w.extractLsb' 2 5 ++ w.extractLsb' 0 2 = w := by
  simp (disch := decide) only [unpackA32, extract_join]
  exact BitVec.extractLsb'_eq_self
theorem pack_unpackI32 (w : BitVec 32) : let o := unpackI32 w
    o.g ++ o.imm ++ o.a ++ o.d ++ w.extractLsb' 2 5 ++ w.extractLsb' 0 2 = w := by
  simp (disch := decide) only [unpackI32, extract_join]
  exact BitVec.extractLsb'_eq_self
theorem pack_unpackI15 (w : BitVec 32) : let o := unpackI15 w
    o.g ++ o.imm ++ o.d ++ w.extractLsb' 2 5 ++ w.extractLsb' 0 2 = w := by
  simp (disch := decide) only [unpackI15, extract_join]
  exact BitVec.extractLsb'_eq_self
theorem pack_unpackB32 (w : BitVec 32) : let o := unpackB32 w
    o.g ++ o.off ++ w.extractLsb' 2 5 ++ w.extractLsb' 0 2 = w := by
  simp (disch := decide) only [unpackB32, extract_join]
  exact BitVec.extractLsb'_eq_self
theorem pack_unpackM64 (w : BitVec 64) : let o := unpackM64 w
    o.off ++ o.af ++ o.fn ++ o.ls ++ o.la ++ o.g ++ o.scope ++ o.size ++ o.b ++ o.a ++ o.d ++ w.extractLsb' 2 6 ++ w.extractLsb' 0 2 = w := by
  simp (disch := decide) only [unpackM64, extract_join]
  exact BitVec.extractLsb'_eq_self
theorem pack_unpackL64 (w : BitVec 64) : let o := unpackL64 w
    o.imm ++ o.rsv ++ o.g ++ o.fn ++ o.a ++ o.d ++ w.extractLsb' 2 6 ++ w.extractLsb' 0 2 = w := by
  simp (disch := decide) only [unpackL64, extract_join]
  exact BitVec.extractLsb'_eq_self
theorem pack_unpackJ64 (w : BitVec 64) : let o := unpackJ64 w
    o.off ++ o.fn ++ o.g ++ o.hi ++ o.d ++ w.extractLsb' 2 6 ++ w.extractLsb' 0 2 = w := by
  simp (disch := decide) only [unpackJ64, extract_join]
  exact BitVec.extractLsb'_eq_self

theorem encode_c16 {w : BitVec 16} (h : w.extractLsb' 0 1 = 0#1) : (unpackC16 w).encode = (2, w.setWidth 64) := by
  have := pack_unpackC16 w
  rw [h] at this
  simp only [unpackC16, Fmt.encode]
  rw [BitVec.ofNat_toNat, BitVec.setWidth_eq]
  exact congrArg (fun x : BitVec 16 => (2, x.setWidth 64)) this

theorem encode_fmt32 {w : BitVec 32} {f : Fmt} (h : w.extractLsb' 0 2 = 1#2) (hf : fmt32 (w.extractLsb' 2 5).toNat w = some f) :
    f.encode = (4, w.setWidth 64) := by
  unfold fmt32 at hf
  have e : BitVec.ofNat 5 (w.extractLsb' 2 5).toNat = w.extractLsb' 2 5 := by rw [BitVec.ofNat_toNat, BitVec.setWidth_eq]
  repeat' split at hf
  all_goals cases hf
  all_goals simp only [Fmt.encode, e]
  · have := pack_unpackA32 w; rw [h] at this; exact congrArg (fun x : BitVec 32 => (4, x.setWidth 64)) this
  · have := pack_unpackI15 w; rw [h] at this; exact congrArg (fun x : BitVec 32 => (4, x.setWidth 64)) this
  · have := pack_unpackB32 w; rw [h] at this; exact congrArg (fun x : BitVec 32 => (4, x.setWidth 64)) this
  · have := pack_unpackI32 w; rw [h] at this; exact congrArg (fun x : BitVec 32 => (4, x.setWidth 64)) this

theorem encode_fmt64 {w : BitVec 64} {f : Fmt} (h : w.extractLsb' 0 2 = 3#2) (hf : fmt64 (w.extractLsb' 2 6).toNat w = some f) :
    f.encode = (8, w) := by
  unfold fmt64 at hf
  have e : BitVec.ofNat 6 (w.extractLsb' 2 6).toNat = w.extractLsb' 2 6 := by rw [BitVec.ofNat_toNat, BitVec.setWidth_eq]
  repeat' split at hf
  all_goals cases hf
  all_goals simp only [Fmt.encode, e]
  · have := pack_unpackT64 w; rw [h] at this; exact congrArg (fun x : BitVec 64 => (8, x)) this
  · have := pack_unpackL64 w; rw [h] at this; exact congrArg (fun x : BitVec 64 => (8, x)) this
  · have := pack_unpackJ64 w; rw [h] at this; exact congrArg (fun x : BitVec 64 => (8, x)) this
  · have := pack_unpackM64 w; rw [h] at this; exact congrArg (fun x : BitVec 64 => (8, x)) this

theorem checkFmt_ok {f : Fmt} {maj len : Nat} {i : Instr} (h : checkFmt f maj len = .ok i) : i.fmt = f ∧ WellFormed i := by
  unfold checkFmt at h
  split at h
  · cases h
  · next j hj =>
    split at h
    · next hi =>
      cases h
      have := fmt_of_instr _ _ hj
      exact ⟨this, by rw [WellFormed, this]; exact ⟨hj, hi⟩⟩
    · cases h

theorem instr_event {f : Fmt} {i : Instr} (h : f.instr? = some i) : f ≠ .event := by
  rintro rfl
  simp [Fmt.instr?] at h

/-- What a word decodes to encodes to that word. -/
theorem decodeWord_ok {w : BitVec 64} {i : Instr} (h : decodeWord (lengthOf (w.setWidth 16)) w = .ok i) :
    WellFormed i ∧ (encode i).1 = lengthOf (w.setWidth 16) ∧ (encode i).2.toNat = w.toNat % 256 ^ lengthOf (w.setWidth 16) := by
  have b0 : (w.setWidth 16).getLsbD 0 = w.getLsbD 0 := by simp
  have b1 : (w.setWidth 16).getLsbD 1 = w.getLsbD 1 := by simp
  unfold lengthOf at h ⊢
  rw [b0, b1] at h ⊢
  cases h0 : w.getLsbD 0
  · rw [h0] at h
    simp only [Bool.false_eq_true, if_false, decodeWord, if_true, decode16] at h ⊢
    obtain ⟨hf, hw⟩ := checkFmt_ok h
    have hl : (w.setWidth 16).extractLsb' 0 1 = 0#1 := by
      apply BitVec.eq_of_getLsbD_eq
      intro k hk
      obtain rfl : k = 0 := by omega
      simpa using h0
    have he := encode_c16 hl
    rw [← hf] at he
    refine ⟨hw, by rw [encode, he], ?_⟩
    rw [encode, he]
    simp only [BitVec.toNat_setWidth]
    omega
  · cases h1 : w.getLsbD 1
    · rw [h0, h1] at h
      simp only [Bool.false_eq_true, if_false, decodeWord, if_true, decode32] at h ⊢
      rw [if_neg (by decide)] at h
      split at h
      · next f hf =>
        obtain ⟨hf2, hw⟩ := checkFmt_ok h
        have hl : (w.setWidth 32).extractLsb' 0 2 = 1#2 := by
          apply BitVec.eq_of_getLsbD_eq
          intro k hk
          obtain rfl | rfl : k = 0 ∨ k = 1 := by omega
          · simpa using h0
          · simpa using h1
        have he := encode_fmt32 hl hf
        rw [← hf2] at he
        refine ⟨hw, by rw [encode, he], ?_⟩
        rw [encode, he]
        simp only [BitVec.toNat_setWidth]
        omega
      · cases h
    · rw [h0, h1] at h
      simp only [if_true, decodeWord, decode64] at h ⊢
      rw [if_neg (by decide), if_neg (by decide)] at h
      split at h
      · next f hf =>
        obtain ⟨hf2, hw⟩ := checkFmt_ok h
        have hl : w.extractLsb' 0 2 = 3#2 := by
          apply BitVec.eq_of_getLsbD_eq
          intro k hk
          obtain rfl | rfl : k = 0 ∨ k = 1 := by omega
          · simpa using h0
          · simpa using h1
        have he := encode_fmt64 hl hf
        rw [← hf2] at he
        refine ⟨hw, by rw [encode, he], ?_⟩
        rw [encode, he, Nat.mod_eq_of_lt (by have := w.isLt; omega)]
      · cases h

end Sys2Proof.Laws
end

