-- ==== Sys2Proof/Laws/Step.lean ====
section
/-! SUPPORT. Fetch and decode, what every instruction issues through, and what the end of a step leaves. -/

namespace Sys2Proof.Laws

open Sys2Proof.Machine

set_option maxHeartbeats 4000000 in
theorem exec_issue (i : Instr) (s : State) (he : i.fmt ≠ .event) : ∃ body, exec i s = issue i s body := by
  cases i with
  | c16Mov o => exact ⟨_, execC16Mov.eq_1 o s⟩
  | c16Add o => exact ⟨_, execC16Add.eq_1 o s⟩
  | c16Sub o => exact ⟨_, execC16Sub.eq_1 o s⟩
  | c16And o => exact ⟨_, execC16And.eq_1 o s⟩
  | c16Or o => exact ⟨_, execC16Or.eq_1 o s⟩
  | c16Xor o => exact ⟨_, execC16Xor.eq_1 o s⟩
  | c16Shli o => exact ⟨_, execC16Shli.eq_1 o s⟩
  | c16Shri o => exact ⟨_, execC16Shri.eq_1 o s⟩
  | c16Addi o => exact ⟨_, execC16Addi.eq_1 o s⟩
  | c16Movi o => exact ⟨_, execC16Movi.eq_1 o s⟩
  | c16Mul o => exact ⟨_, execC16Mul.eq_1 o s⟩
  | c16Fadd o => exact ⟨_, execC16Fadd.eq_1 o s⟩
  | c16Fsub o => exact ⟨_, execC16Fsub.eq_1 o s⟩
  | c16Fmul o => exact ⟨_, execC16Fmul.eq_1 o s⟩
  | c16Fmax o => exact ⟨_, execC16Fmax.eq_1 o s⟩
  | c16Fmin o => exact ⟨_, execC16Fmin.eq_1 o s⟩
  | add o => exact ⟨_, execAdd.eq_1 o s⟩
  | sub o => exact ⟨_, execSub.eq_1 o s⟩
  | mul o => exact ⟨_, execMul.eq_1 o s⟩
  | mulhi o => exact ⟨_, execMulhi.eq_1 o s⟩
  | mulhiz o => exact ⟨_, execMulhiz.eq_1 o s⟩
  | abs o => exact ⟨_, execAbs.eq_1 o s⟩
  | min o => exact ⟨_, execMin.eq_1 o s⟩
  | max o => exact ⟨_, execMax.eq_1 o s⟩
  | minz o => exact ⟨_, execMinz.eq_1 o s⟩
  | maxz o => exact ⟨_, execMaxz.eq_1 o s⟩
  | and o => exact ⟨_, execAnd.eq_1 o s⟩
  | or o => exact ⟨_, execOr.eq_1 o s⟩
  | xor o => exact ⟨_, execXor.eq_1 o s⟩
  | andn o => exact ⟨_, execAndn.eq_1 o s⟩
  | orn o => exact ⟨_, execOrn.eq_1 o s⟩
  | rotl o => exact ⟨_, execRotl.eq_1 o s⟩
  | shl o => exact ⟨_, execShl.eq_1 o s⟩
  | shr o => exact ⟨_, execShr.eq_1 o s⟩
  | sar o => exact ⟨_, execSar.eq_1 o s⟩
  | clz o => exact ⟨_, execClz.eq_1 o s⟩
  | ctz o => exact ⟨_, execCtz.eq_1 o s⟩
  | popc o => exact ⟨_, execPopc.eq_1 o s⟩
  | brev o => exact ⟨_, execBrev.eq_1 o s⟩
  | bpick o => exact ⟨_, execBpick.eq_1 o s⟩
  | bfx o => exact ⟨_, execBfx.eq_1 o s⟩
  | bfxs o => exact ⟨_, execBfxs.eq_1 o s⟩
  | bfi o => exact ⟨_, execBfi.eq_1 o s⟩
  | sel o => exact ⟨_, execSel.eq_1 o s⟩
  | add64 o => exact ⟨_, execAdd64.eq_1 o s⟩
  | sub64 o => exact ⟨_, execSub64.eq_1 o s⟩
  | mov o => exact ⟨_, execMov.eq_1 o s⟩
  | actmask o => exact ⟨_, execActmask.eq_1 o s⟩
  | cmp o => exact ⟨_, execCmp.eq_1 o s⟩
  | fadd o => exact ⟨_, execFadd.eq_1 o s⟩
  | fsub o => exact ⟨_, execFsub.eq_1 o s⟩
  | fmul o => exact ⟨_, execFmul.eq_1 o s⟩
  | fmin o => exact ⟨_, execFmin.eq_1 o s⟩
  | fmax o => exact ⟨_, execFmax.eq_1 o s⟩
  | fsat o => exact ⟨_, execFsat.eq_1 o s⟩
  | fscale o => exact ⟨_, execFscale.eq_1 o s⟩
  | fgetexp o => exact ⟨_, execFgetexp.eq_1 o s⟩
  | fcmp o => exact ⟨_, execFcmp.eq_1 o s⟩
  | pand o => exact ⟨_, execPand.eq_1 o s⟩
  | por o => exact ⟨_, execPor.eq_1 o s⟩
  | pxor o => exact ⟨_, execPxor.eq_1 o s⟩
  | pandn o => exact ⟨_, execPandn.eq_1 o s⟩
  | pnot o => exact ⟨_, execPnot.eq_1 o s⟩
  | pmov o => exact ⟨_, execPmov.eq_1 o s⟩
  | ptov o => exact ⟨_, execPtov.eq_1 o s⟩
  | vtop o => exact ⟨_, execVtop.eq_1 o s⟩
  | xlaneGet o => exact ⟨_, execXlaneGet.eq_1 o s⟩
  | xlaneRot o => exact ⟨_, execXlaneRot.eq_1 o s⟩
  | xlaneFlip o => exact ⟨_, execXlaneFlip.eq_1 o s⟩
  | xlaneShift o => exact ⟨_, execXlaneShift.eq_1 o s⟩
  | pcount o => exact ⟨_, execPcount.eq_1 o s⟩
  | pmask o => exact ⟨_, execPmask.eq_1 o s⟩
  | pfirst o => exact ⟨_, execPfirst.eq_1 o s⟩
  | vrank o => exact ⟨_, execVrank.eq_1 o s⟩
  | pkadd o => exact ⟨_, execPkadd.eq_1 o s⟩
  | pkmul o => exact ⟨_, execPkmul.eq_1 o s⟩
  | pkmax o => exact ⟨_, execPkmax.eq_1 o s⟩
  | pkmin o => exact ⟨_, execPkmin.eq_1 o s⟩
  | addi o => exact ⟨_, execAddi.eq_1 o s⟩
  | andi o => exact ⟨_, execAndi.eq_1 o s⟩
  | ori o => exact ⟨_, execOri.eq_1 o s⟩
  | xori o => exact ⟨_, execXori.eq_1 o s⟩
  | shli o => exact ⟨_, execShli.eq_1 o s⟩
  | shri o => exact ⟨_, execShri.eq_1 o s⟩
  | sari o => exact ⟨_, execSari.eq_1 o s⟩
  | rotli o => exact ⟨_, execRotli.eq_1 o s⟩
  | muli o => exact ⟨_, execMuli.eq_1 o s⟩
  | cmpi o => exact ⟨_, execCmpi.eq_1 o s⟩
  | movi o => exact ⟨_, execMovi.eq_1 o s⟩
  | bra o => exact ⟨_, execBra.eq_1 o s⟩
  | laneid o => exact ⟨_, execLaneid.eq_1 o s⟩
  | grprank o => exact ⟨_, execGrprank.eq_1 o s⟩
  | teamid o => exact ⟨_, execTeamid.eq_1 o s⟩
  | ftime o => exact ⟨_, execFtime.eq_1 o s⟩
  | poisonq o => exact ⟨_, execPoisonq.eq_1 o s⟩
  | formq o => exact ⟨_, execFormq.eq_1 o s⟩
  | nop o => exact ⟨_, execNop.eq_1 o s⟩
  | yield o => exact ⟨_, execYield.eq_1 o s⟩
  | ret o => exact ⟨_, execRet.eq_1 o s⟩
  | exit o => exact ⟨_, execExit.eq_1 o s⟩
  | brx o => exact ⟨_, execBrx.eq_1 o s⟩
  | callx o => exact ⟨_, execCallx.eq_1 o s⟩
  | join o => exact ⟨_, execJoin.eq_1 o s⟩
  | wsync o => exact ⟨_, execWsync.eq_1 o s⟩
  | pin o => exact ⟨_, execPin.eq_1 o s⟩
  | unpin o => exact ⟨_, execUnpin.eq_1 o s⟩
  | trap o => exact ⟨_, execTrap.eq_1 o s⟩
  | syscall o => exact ⟨_, execSyscall.eq_1 o s⟩
  | redux o => exact ⟨_, execRedux.eq_1 o s⟩
  | ffma o => exact ⟨_, execFfma.eq_1 o s⟩
  | dfma o => exact ⟨_, execDfma.eq_1 o s⟩
  | pkfmaF16 o => exact ⟨_, execPkfmaF16.eq_1 o s⟩
  | pkfmaBf16 o => exact ⟨_, execPkfmaBf16.eq_1 o s⟩
  | mad o => exact ⟨_, execMad.eq_1 o s⟩
  | madw o => exact ⟨_, execMadw.eq_1 o s⟩
  | dot4 o => exact ⟨_, execDot4.eq_1 o s⟩
  | dot4z o => exact ⟨_, execDot4z.eq_1 o s⟩
  | dot2bf o => exact ⟨_, execDot2bf.eq_1 o s⟩
  | fdiv o => exact ⟨_, execFdiv.eq_1 o s⟩
  | fsqrt o => exact ⟨_, execFsqrt.eq_1 o s⟩
  | frcp o => exact ⟨_, execFrcp.eq_1 o s⟩
  | frsq o => exact ⟨_, execFrsq.eq_1 o s⟩
  | fexp2 o => exact ⟨_, execFexp2.eq_1 o s⟩
  | flog2 o => exact ⟨_, execFlog2.eq_1 o s⟩
  | fsin o => exact ⟨_, execFsin.eq_1 o s⟩
  | fcos o => exact ⟨_, execFcos.eq_1 o s⟩
  | frnd o => exact ⟨_, execFrnd.eq_1 o s⟩
  | fclass o => exact ⟨_, execFclass.eq_1 o s⟩
  | ddiv o => exact ⟨_, execDdiv.eq_1 o s⟩
  | dsqrt o => exact ⟨_, execDsqrt.eq_1 o s⟩
  | dadd o => exact ⟨_, execDadd.eq_1 o s⟩
  | dsub o => exact ⟨_, execDsub.eq_1 o s⟩
  | dmul o => exact ⟨_, execDmul.eq_1 o s⟩
  | dmin o => exact ⟨_, execDmin.eq_1 o s⟩
  | dmax o => exact ⟨_, execDmax.eq_1 o s⟩
  | dcmp o => exact ⟨_, execDcmp.eq_1 o s⟩
  | div o => exact ⟨_, execDiv.eq_1 o s⟩
  | divz o => exact ⟨_, execDivz.eq_1 o s⟩
  | rem o => exact ⟨_, execRem.eq_1 o s⟩
  | remz o => exact ⟨_, execRemz.eq_1 o s⟩
  | cvtF2f o => exact ⟨_, execCvtF2f.eq_1 o s⟩
  | cvtF2i o => exact ⟨_, execCvtF2i.eq_1 o s⟩
  | cvtI2f o => exact ⟨_, execCvtI2f.eq_1 o s⟩
  | cvtNarrow o => exact ⟨_, execCvtNarrow.eq_1 o s⟩
  | cvtWiden o => exact ⟨_, execCvtWiden.eq_1 o s⟩
  | packmx o => exact ⟨_, execPackmx.eq_1 o s⟩
  | planeSplit o => exact ⟨_, execPlaneSplit.eq_1 o s⟩
  | planeJoin o => exact ⟨_, execPlaneJoin.eq_1 o s⟩
  | rngCb o => exact ⟨_, execRngCb.eq_1 o s⟩
  | movi32 o => exact ⟨_, execMovi32.eq_1 o s⟩
  | addi32 o => exact ⟨_, execAddi32.eq_1 o s⟩
  | call o => exact ⟨_, execCall.eq_1 o s⟩
  | brl o => exact ⟨_, execBrl.eq_1 o s⟩
  | enter o => exact ⟨_, execEnter.eq_1 o s⟩
  | ld o => exact ⟨_, execLd.eq_1 o s⟩
  | ldL o => exact ⟨_, execLdL.eq_1 o s⟩
  | st o => exact ⟨_, execSt.eq_1 o s⟩
  | stP o => exact ⟨_, execStP.eq_1 o s⟩
  | atom o => exact ⟨_, execAtom.eq_1 o s⟩
  | atomCas o => exact ⟨_, execAtomCas.eq_1 o s⟩
  | redP o => exact ⟨_, execRedP.eq_1 o s⟩
  | redK o => exact ⟨_, execRedK.eq_1 o s⟩
  | redclose o => exact ⟨_, execRedclose.eq_1 o s⟩
  | fence o => exact ⟨_, execFence.eq_1 o s⟩
  | barInit o => exact ⟨_, execBarInit.eq_1 o s⟩
  | barArrive o => exact ⟨_, execBarArrive.eq_1 o s⟩
  | barWait o => exact ⟨_, execBarWait.eq_1 o s⟩
  | barSync o => exact ⟨_, execBarSync.eq_1 o s⟩
  | cwait o => exact ⟨_, execCwait.eq_1 o s⟩
  | migrate o => exact ⟨_, execMigrate.eq_1 o s⟩
  | park o => exact ⟨_, execPark.eq_1 o s⟩
  | wake o => exact ⟨_, execWake.eq_1 o s⟩
  | qpush o => exact ⟨_, execQpush.eq_1 o s⟩
  | qpop o => exact ⟨_, execQpop.eq_1 o s⟩
  | copy o => exact ⟨_, execCopy.eq_1 o s⟩
  | copyS o => exact ⟨_, execCopyS.eq_1 o s⟩
  | twait o => exact ⟨_, execTwait.eq_1 o s⟩
  | tpoll o => exact ⟨_, execTpoll.eq_1 o s⟩
  | cfill o => exact ⟨_, execCfill.eq_1 o s⟩
  | publish o => exact ⟨_, execPublish.eq_1 o s⟩
  | hset o => exact ⟨_, execHset.eq_1 o s⟩
  | hget o => exact ⟨_, execHget.eq_1 o s⟩
  | hload o => exact ⟨_, execHload.eq_1 o s⟩
  | tld o => exact ⟨_, execTld.eq_1 o s⟩
  | tst o => exact ⟨_, execTst.eq_1 o s⟩
  | tnext o => exact ⟨_, execTnext.eq_1 o s⟩
  | tpos o => exact ⟨_, execTpos.eq_1 o s⟩
  | mgopen o => exact ⟨_, execMgopen.eq_1 o s⟩
  | mgpush o => exact ⟨_, execMgpush.eq_1 o s⟩
  | mgseal o => exact ⟨_, execMgseal.eq_1 o s⟩
  | mgwait o => exact ⟨_, execMgwait.eq_1 o s⟩
  | mgstat o => exact ⟨_, execMgstat.eq_1 o s⟩
  | mgstatK o => exact ⟨_, execMgstatK.eq_1 o s⟩
  | mgresume o => exact ⟨_, execMgresume.eq_1 o s⟩
  | mgclose o => exact ⟨_, execMgclose.eq_1 o s⟩
  | mclaim o => exact ⟨_, execMclaim.eq_1 o s⟩
  | mrelease o => exact ⟨_, execMrelease.eq_1 o s⟩
  | mloadb o => exact ⟨_, execMloadb.eq_1 o s⟩
  | mloads o => exact ⟨_, execMloads.eq_1 o s⟩
  | mzero o => exact ⟨_, execMzero.eq_1 o s⟩
  | mma o => exact ⟨_, execMma.eq_1 o s⟩
  | mloop o => exact ⟨_, execMloop.eq_1 o s⟩
  | mbatch o => exact ⟨_, execMbatch.eq_1 o s⟩
  | msparse o => exact ⟨_, execMsparse.eq_1 o s⟩
  | mwait o => exact ⟨_, execMwait.eq_1 o s⟩
  | mread o => exact ⟨_, execMread.eq_1 o s⟩
  | mstore o => exact ⟨_, execMstore.eq_1 o s⟩
  | mstat o => exact ⟨_, execMstat.eq_1 o s⟩
  | mprog o => exact ⟨_, execMprog.eq_1 o s⟩
  | mfs o => exact ⟨_, execMfs.eq_1 o s⟩
  | mts o => exact ⟨_, execMts.eq_1 o s⟩
  | rte o => exact ⟨_, execRte.eq_1 o s⟩
  | rdprev o => exact ⟨_, execRdprev.eq_1 o s⟩
  | rdprevP o => exact ⟨_, execRdprevP.eq_1 o s⟩
  | wrprev o => exact ⟨_, execWrprev.eq_1 o s⟩
  | wrprevP o => exact ⟨_, execWrprevP.eq_1 o s⟩
  | replay o => exact ⟨_, execReplay.eq_1 o s⟩
  | replayPage o => exact ⟨_, execReplayPage.eq_1 o s⟩
  | tlbinvPage o => exact ⟨_, execTlbinvPage.eq_1 o s⟩
  | tlbinvCtx o => exact ⟨_, execTlbinvCtx.eq_1 o s⟩
  | tlbinvAll o => exact ⟨_, execTlbinvAll.eq_1 o s⟩
  | parkctx o => exact ⟨_, execParkctx.eq_1 o s⟩
  | wakectx o => exact ⟨_, execWakectx.eq_1 o s⟩
  | wakectxGrp o => exact ⟨_, execWakectxGrp.eq_1 o s⟩
  | idle o => exact ⟨_, execIdle.eq_1 o s⟩
  | fsinx o => exact ⟨_, execFsinx.eq_1 o s⟩
  | fcosx o => exact ⟨_, execFcosx.eq_1 o s⟩
  | crossingArrival _ _ => exact absurd rfl he
  | berthRelease _ _ _ => exact absurd rfl he
  | admission _ => exact absurd rfl he
  | overflowReturn _ => exact absurd rfl he
  | wharfPromotion _ _ => exact absurd rfl he
  | arrival _ _ => exact absurd rfl he
  | exitNotice _ _ => exact absurd rfl he
  | liveRankChange _ _ => exact absurd rfl he
  | postedStoreApply _ _ => exact absurd rfl he
  | reductionApply _ _ => exact absurd rfl he
  | keyedBufferEntry _ _ => exact absurd rfl he
  | flip _ _ => exact absurd rfl he
  | closeCommand _ => exact absurd rfl he
  | tideSample _ _ => exact absurd rfl he
  | tideAdoption _ _ => exact absurd rfl he
  | copyLine _ _ => exact absurd rfl he
  | windowSpill _ => exact absurd rfl he
  | refill _ => exact absurd rfl he
  | parkCommand _ _ => exact absurd rfl he
  | drainMarker _ _ => exact absurd rfl he
  | parkReport _ _ => exact absurd rfl he
  | claimNarrowing _ _ => exact absurd rfl he
  | claimRestore _ _ _ => exact absurd rfl he
  | claimEnd _ _ => exact absurd rfl he
  | matrixCommandExecution _ _ => exact absurd rfl he
  | mergeSpill _ => exact absurd rfl he
  | rowCommit _ _ => exact absurd rfl he
  | launchRecord _ => exact absurd rfl he
  | teamPlacement _ => exact absurd rfl he
  | launchCompletion _ _ => exact absurd rfl he
  | queueRegisterWrite _ => exact absurd rfl he
  | append _ => exact absurd rfl he
  | hostCxlMemRead _ => exact absurd rfl he
  | hostCxlMemWrite _ => exact absurd rfl he
  | cxlIoAccess _ => exact absurd rfl he
  | linkItemArrival _ => exact absurd rfl he
  | routeChange _ => exact absurd rfl he
  | pageMove _ => exact absurd rfl he
  | fqheadWrite _ _ => exact absurd rfl he
  | parityFailure _ => exact absurd rfl he
  | repairSwap _ _ _ => exact absurd rfl he
  | init _ => exact absurd rfl he
  | initComplete _ => exact absurd rfl he
  | testMode _ _ => exact absurd rfl he
  | go _ _ _ => exact absurd rfl he
  | testComplete _ _ _ => exact absurd rfl he
  | logclr _ _ => exact absurd rfl he
  | moduleReset => exact absurd rfl he
  | watchdog => exact absurd rfl he
  | recovery _ => exact absurd rfl he
  | getVersion _ => exact absurd rfl he
  | getCapabilities _ => exact absurd rfl he
  | negotiateAlgorithms _ => exact absurd rfl he
  | getDigests _ => exact absurd rfl he
  | getCertificate _ => exact absurd rfl he
  | challenge _ => exact absurd rfl he
  | getMeasurements _ => exact absurd rfl he
  | keyExchange _ => exact absurd rfl he
  | finish _ => exact absurd rfl he
  | idleCompletion _ => exact absurd rfl he
  | registerWrite _ => exact absurd rfl he
  | illegalInstruction _ => exact absurd rfl he
  | hostPortTraining _ _ => exact absurd rfl he

theorem lengthOf_cases (h : BitVec 16) : lengthOf h = 2 ∨ lengthOf h = 4 ∨ lengthOf h = 8 := by
  unfold lengthOf
  split
  · split <;> simp
  · simp

theorem fetch_lt {s t : State} {g : Group} : ∀ {n va x : Nat}, s.fetch g n va = .ok (x, t) → x < 65536 ^ n := by
  intro n
  induction n generalizing s t with
  | zero => intro va x h; simp only [State.fetch, Except.ok.injEq, Prod.mk.injEq] at h; rw [← h.1]; decide
  | succ n ih =>
    intro va x h
    simp only [State.fetch] at h
    split at h
    · cases h
    · next y s1 _ =>
      split at h
      · cases h
      · next z s2 h2 =>
        simp only [Except.ok.injEq, Prod.mk.injEq] at h
        have := ih h2
        have hy := y.isLt
        rw [← h.1, pow_succ]
        omega

theorem decode_fetched {h x n : Nat} (hh : h < 65536) (hn : n = lengthOf (BitVec.ofNat 16 h)) (hx : x < 65536 ^ (n / 2 - 1)) :
    decodeBytes (toBytes n (h + 65536 * x)) = some (decodeWord n (BitVec.ofNat 64 (h + 65536 * x)), []) := by
  have hb : h + 65536 * x < 256 ^ n := by
    rcases lengthOf_cases (BitVec.ofNat 16 h) with h2 | h2 | h2 <;> rw [h2] at hn <;> subst hn <;> simp at hx ⊢ <;> omega
  have h8 : 2 ≤ n ∧ n ≤ 8 := by rcases lengthOf_cases (BitVec.ofNat 16 h) with h2 | h2 | h2 <;> omega
  have h64 : h + 65536 * x < 2 ^ 64 := lt_of_lt_of_le hb (by
    calc 256 ^ n ≤ 256 ^ 8 := Nat.pow_le_pow_right (by decide) h8.2
      _ = 2 ^ 64 := by decide)
  have e : (BitVec.ofNat 64 (h + 65536 * x)).toNat = h + 65536 * x := by rw [BitVec.toNat_ofNat, Nat.mod_eq_of_lt h64]
  have := decodeBytes_toBytes n (BitVec.ofNat 64 (h + 65536 * x)) [] h8.1 h8.2 (by
    rw [hn]
    congr 1
    apply BitVec.eq_of_toNat_eq
    simp only [BitVec.toNat_setWidth, BitVec.toNat_ofNat]
    omega)
  rw [e, List.append_nil, Nat.mod_eq_of_lt hb] at this
  exact this

/-- What the end of a step leaves. -/
structure Kept where
  mem : Mem
  ctxs : List Ctx
  teams : List Team
  units : List MUnit
  boot : Boot
  pairs : List ((Nat × Nat) × List Item)
  steps : Nat
  groups : List (Nat × Frame × DWord × Word × Wait)

/-- What of a state the end of a step leaves. -/
def Kept.of (s : State) : Kept :=
  ⟨s.mem, s.ctxs, s.teams, s.units, s.boot, s.pairs, s.steps, s.groups.map fun g => (g.uid, g.frame, g.pc, g.gstatus, g.wait)⟩

theorem observe_kept (s : State) : Kept.of s.observe = Kept.of s ∧ s.observe.ft = s.ft := by
  refine ⟨?_, rfl⟩
  unfold Kept.of State.observe
  congr 1
  rw [List.map_map]
  apply List.map_congr_left
  intro g _
  dsimp only [Function.comp]
  split <;> rfl

theorem passTime_kept (s : State) : Kept.of s.passTime = Kept.of s ∧ s.ft ≤ s.passTime.ft ∧ s.passTime.ft ≤ s.ft + 1 := by
  unfold State.passTime
  split
  · exact ⟨rfl, Nat.le_refl _, Nat.le_succ _⟩
  · refine ⟨rfl, Nat.le_add_right _ _, ?_⟩
    have : Config.tick s.steps % 2 < 2 := Nat.mod_lt _ (by decide)
    show s.ft + Config.tick s.steps % 2 ≤ s.ft + 1
    omega

theorem giveTurn_kept (s : State) (u : Nat) : Kept.of (s.giveTurn u) = Kept.of s := by
  unfold Kept.of State.giveTurn
  congr 1
  rw [List.map_map]
  apply List.map_congr_left
  intro g _
  dsimp only [Function.comp]
  split <;> rfl

theorem choose_kept (s : State) : Kept.of s.choose = Kept.of s ∧ s.choose.ft = s.ft := by
  unfold State.choose
  dsimp only
  split
  · exact ⟨rfl, rfl⟩
  · split
    · exact ⟨giveTurn_kept s _, rfl⟩
    · split <;> exact ⟨rfl, rfl⟩

theorem endCopy_kept (s : State) (c : Copy) : Kept.of (s.endCopy c) = Kept.of s ∧ (s.endCopy c).ft = s.ft := ⟨rfl, rfl⟩

theorem takeReply_kept (s : State) (r : PeerReply) : Kept.of (s.takeReply r) = Kept.of s ∧ (s.takeReply r).ft = s.ft := by
  unfold State.takeReply
  split
  · exact endCopy_kept _ _
  · split <;> exact ⟨rfl, rfl⟩

theorem acknowledge_kept (s : State) : Kept.of s.acknowledge = Kept.of s ∧ s.acknowledge.ft = s.ft := by
  unfold State.acknowledge State.ackHost
  dsimp only
  split
  · exact ⟨rfl, rfl⟩
  · split
    · exact takeReply_kept _ _
    · exact ⟨rfl, rfl⟩

/-- Nothing that a step leaves to be done is there. -/
theorem windUp_quiet {s : State} (h : Quiet s) : s.windUp = { s with steps := s.steps + 1 } := by
  have hs : s.settleTransfers = s := by
    unfold State.settleTransfers
    rw [if_pos]
    rw [List.isEmpty_iff, List.flatMap_eq_nil_iff]
    exact h.transfers
  have hf (t : State) (ht : t.pairs = s.pairs) : ∀ ps : List ((Nat × Nat) × List Item), ps.foldl (fun (t : State) p => t.serveHead p.1.1 p.1.2) t = t := by
    intro ps
    induction ps with
    | nil => rfl
    | cons p ps ih =>
      have : t.serveHead p.1.1 p.1.2 = t := by
        unfold State.serveHead
        split
        · next peer src id pl op xs s1 hh =>
          exfalso
          simp only [State.head, State.pair, ht] at hh
          cases hp : s.pairs.find? (fun q => q.1 == p.1) with
          | none => simp [hp] at hh
          | some q =>
            have hm := List.mem_of_find?_eq_some hp
            cases hq : q.2 with
            | nil => simp [hp, hq] at hh
            | cons y ys =>
              have := h.requests q hm y (by rw [hq]; rfl) peer src id pl op xs
              simp only [hp, hq, Option.map_some, Option.getD_some, Option.some.injEq, Prod.mk.injEq] at hh
              exact this hh.1
        · rfl
      rw [List.foldl_cons, this, ih]
  have hw (t : State) (ht : t.landings = s.landings) : ∀ ls : List Nat,
      ls.foldl (fun (t : State) l => if (t.landing l).poolWait.isEmpty then t else t.postHeld l) t = t := by
    intro ls
    induction ls with
    | nil => rfl
    | cons l ls ih =>
      have : (t.landing l).poolWait = [] := by
        unfold State.landing
        rw [ht, List.getD_eq_getElem?_getD]
        cases hl : s.landings[l]? with
        | none => rfl
        | some x => exact h.images x (List.mem_of_getElem? hl)
      rw [List.foldl_cons, this]
      exact ih
  unfold State.windUp State.serveRequests State.postAll
  rw [hs]
  dsimp only
  rw [hf { s with steps := s.steps + 1 } rfl, hw { s with steps := s.steps + 1 } rfl]

/-- What ends a step, after what the step leaves to be done. -/
theorem finish_windUp (s : State) : Kept.of (finish s) = Kept.of s.windUp ∧ s.windUp.ft ≤ (finish s).ft ∧ (finish s).ft ≤ s.windUp.ft + 1 := by
  unfold finish
  generalize s.windUp = a
  obtain ⟨o1, o2⟩ := observe_kept a
  obtain ⟨k, k2⟩ := acknowledge_kept a.observe
  obtain ⟨p1, p2, p3⟩ := passTime_kept a.observe.acknowledge
  obtain ⟨c1, c2⟩ := choose_kept a.observe.acknowledge.passTime
  refine ⟨by rw [c1, p1, k, o1], ?_, ?_⟩ <;> rw [c2] <;> rw [k2, o2] at p2 p3
  · exact p2
  · exact p3

theorem finish_kept {s : State} (h : Quiet s) : Kept.of (finish s) = Kept.of { s with steps := s.steps + 1 } ∧ s.ft ≤ (finish s).ft ∧ (finish s).ft ≤ s.ft + 1 := by
  have := finish_windUp s
  rwa [windUp_quiet h] at this

theorem enabled_event (s : State) (e : Option Event) : ({ s with event := e } : State).enabled = s.enabled := rfl
theorem enabled_inputs (s : State) (e : Option Event) (xs : List Instr) : ({ s with event := e, inputs := xs } : State).enabled = s.enabled := rfl

/-- What goes first can happen. -/
theorem firstDue_enabled {s : State} {e : Event} (h : e ∈ s.firstDue) : e ∈ s.enabled := by
  have hl (l : Nat) (hm : l ∈ List.range 64) (he : e ∈ s.landingEvents l) : e ∈ s.enabled := by
    unfold State.enabled
    simp only [List.mem_append]
    exact .inl (.inl (.inl (.inl (.inl (.inl (.inr (List.mem_flatMap.2 ⟨l, hm, he⟩)))))))
  rcases List.mem_append.1 h with h | h
  · obtain ⟨l, hm, h⟩ := List.mem_flatMap.1 h
    obtain ⟨b, hb, h⟩ := List.mem_flatMap.1 h
    refine hl l hm ?_
    have : e ∈ rasEvents s.steps l (s.landing l).ras := by
      unfold rasEvents
      exact List.mem_append.2 (.inr (List.mem_flatMap.2 ⟨b, hb, List.mem_append.2 (.inr h)⟩))
    unfold State.landingEvents
    simp only [List.mem_append]
    exact .inl (.inr this)
  · obtain ⟨l, hm, h⟩ := List.mem_flatMap.1 h
    refine hl l hm ?_
    unfold State.landingEvents
    simp only [List.mem_append]
    exact .inl (.inl (.inl (.inl (.inr h))))

theorem first_enabled {s : State} {e : Event} (h : e ∈ if s.firstDue.isEmpty then s.enabled else s.firstDue) : e ∈ s.enabled := by
  split at h
  · exact h
  · exact firstDue_enabled h

theorem choose_turn (s : State) : ∀ e, s.choose.event = some e → e ∈ s.choose.enabled ∨ (∃ i, e = .outside i ∧ fromOutside i = true) ∨ e = .moduleReset := by
  intro e
  unfold State.choose
  dsimp only
  split
  · next e' h =>
    intro he
    cases he
    exact .inl (first_enabled (List.mem_of_getElem? h))
  · split
    · intro h; cases h
    · split
      · next i rest _ =>
        intro he
        by_cases hi : fromOutside i = true
        · rw [show (if fromOutside i = true then some (Event.outside i) else none) = some (.outside i) from if_pos hi] at he
          cases he
          exact .inr (.inl ⟨i, rfl, hi⟩)
        · simp [hi] at he
      · intro h; cases h

theorem choose_landings (s : State) : s.choose.landings = s.landings ∧ s.choose.ft = s.ft := by
  unfold State.choose
  dsimp only
  split
  · exact ⟨rfl, rfl⟩
  · split
    · exact ⟨rfl, rfl⟩
    · split <;> exact ⟨rfl, rfl⟩

theorem passTime_skew (s : State) : ∀ x ∈ s.passTime.landings, x.skew ≤ 2 := by
  unfold State.passTime
  split
  · intro x hx
    obtain ⟨y, _, rfl⟩ := List.mem_map.1 hx
    exact Nat.min_le_left _ _
  · intro x hx
    obtain ⟨k, hk, rfl⟩ := List.mem_mapIdx.1 hx
    dsimp only
    omega

theorem ftAt_of (s : State) (l : Nat) (hl : l < s.landings.length) : s.ftAt l = s.ft + s.landings[l].skew := by
  simp [State.ftAt, State.landing, List.getD_eq_getElem?_getD, hl]

theorem passTime_ft {s : State} (hs : ∀ x ∈ s.landings, x.skew ≤ 2) (l : Nat) (hl : l < s.landings.length) :
    s.ftAt l ≤ s.passTime.ftAt l ∧ s.passTime.ftAt l ≤ s.ftAt l + 1 := by
  have h2 := hs _ (List.getElem_mem hl)
  rw [ftAt_of s l hl]
  unfold State.passTime
  split
  · rw [ftAt_of _ l (by simpa using hl)]
    simp only [List.getElem_map]
    omega
  · rw [ftAt_of _ l (by simpa using hl)]
    simp only [List.getElem_mapIdx]
    have h1 : Config.tick s.steps % 2 < 2 := Nat.mod_lt _ (by decide)
    have h3 : Config.skew s.steps l % 2 < 2 := Nat.mod_lt _ (by decide)
    omega

theorem acknowledge_skew (s : State) : s.acknowledge.landings.map Landing.skew = s.landings.map Landing.skew := by
  have he (s : State) (c : Copy) : (s.endCopy c).landings.map Landing.skew = s.landings.map Landing.skew := by
    unfold State.endCopy
    apply List.ext_getElem
    · simp
    · intro k h1 h2; simp
  unfold State.acknowledge State.ackHost State.takeReply
  dsimp only
  split
  · rfl
  · split
    · split
      · exact he _ _
      · split <;> rfl
    · rfl

theorem observe_skew (s : State) : s.observe.landings.map Landing.skew = s.landings.map Landing.skew := by
  unfold State.observe
  simp [List.map_map, Function.comp_def]

theorem ftAt_skew {s t : State} (hf : t.ft = s.ft) (hl : t.landings.map Landing.skew = s.landings.map Landing.skew) (l : Nat) :
    t.ftAt l = s.ftAt l := by
  have : ∀ u : State, (u.landing l).skew = (u.landings.map Landing.skew).getD l 0 := fun u => by
    unfold State.landing
    rw [List.getD_eq_getElem?_getD, List.getD_eq_getElem?_getD, List.getElem?_map]
    cases u.landings[l]? <;> rfl
  unfold State.ftAt
  rw [this, this, hf, hl]

theorem observe_ftAt (s : State) (l : Nat) : s.observe.acknowledge.ftAt l = s.ftAt l :=
  ftAt_skew ((acknowledge_kept _).2.trans (observe_kept s).2) ((acknowledge_skew _).trans (observe_skew s)) l

end Sys2Proof.Laws
end

