-- ==== Sys2Proof/Laws/Turns.lean ====
section
/-! SUPPORT. Turns: the dispatcher's order, what makes a piece ready, one landing or bus changed, what ends a step. -/

namespace Sys2Proof.Laws

open Sys2Proof.Machine

theorem lexLt_irrefl : ∀ a : List Nat, lexLt a a = false
  | [] => rfl
  | a :: as => by simp [lexLt, lexLt_irrefl as]

theorem lexLt_asymm : ∀ {a b : List Nat}, lexLt a b = true → lexLt b a = false
  | [], [], h => by simp [lexLt] at h
  | [], _ :: _, _ => rfl
  | _ :: _, [], h => by simp [lexLt] at h
  | a :: as, b :: bs, h => by
    simp only [lexLt, Bool.or_eq_true, decide_eq_true_eq, Bool.and_eq_true, beq_iff_eq] at h
    simp only [lexLt, Bool.or_eq_false_iff, decide_eq_false_iff_not, Bool.and_eq_false_iff]
    rcases h with h | ⟨rfl, h⟩
    · exact ⟨by omega, .inl (by simp; omega)⟩
    · exact ⟨by omega, .inr (lexLt_asymm h)⟩

theorem lexLt_trans : ∀ {a b c : List Nat}, lexLt b a = false → lexLt c b = false → lexLt c a = false
  | [], _, [], _, _ => rfl
  | _ :: _, [], [], h, _ => by simp [lexLt] at h
  | _ :: _, _ :: _, [], _, h => by simp [lexLt] at h
  | [], _, _ :: _, _, _ => rfl
  | a :: as, [], c :: cs, h, _ => by simp [lexLt] at h
  | a :: as, b :: bs, c :: cs, h1, h2 => by
    simp only [lexLt, Bool.or_eq_false_iff, decide_eq_false_iff_not, Bool.and_eq_false_iff, beq_eq_false_iff_ne] at h1 h2 ⊢
    refine ⟨by omega, ?_⟩
    by_cases hca : c = a
    · subst hca
      have hb : b = c := by omega
      subst hb
      exact .inr (lexLt_trans (h1.2.resolve_left (by simp)) (h2.2.resolve_left (by simp)))
    · exact .inl hca

theorem leastBy_least {α : Type} (key : α → List Nat) : ∀ {xs : List α} {r : α}, leastBy key xs = some r →
    r ∈ xs ∧ ∀ x ∈ xs, lexLt (key x) (key r) = false
  | [], r, h => by simp [leastBy] at h
  | x :: xs, r, h => by
    simp only [leastBy] at h
    cases hy : leastBy key xs with
    | none =>
      have : xs = [] := by
        cases xs with
        | nil => rfl
        | cons z zs =>
          simp only [leastBy] at hy
          split at hy
          · cases hy
          · split at hy <;> cases hy
      simp only [hy, Option.some.injEq] at h
      subst h this
      exact ⟨by simp, fun z hz => by simp at hz; subst hz; exact lexLt_irrefl _⟩
    | some y =>
      obtain ⟨hm, hl⟩ := leastBy_least key hy
      simp only [hy] at h
      split at h
      · next hc =>
        cases h
        exact ⟨by simp [hm], fun z hz => by
          rcases List.mem_cons.1 hz with rfl | hz
          · exact lexLt_asymm hc
          · exact hl z hz⟩
      · next hc =>
        cases h
        refine ⟨by simp, fun z hz => ?_⟩
        rcases List.mem_cons.1 hz with rfl | hz
        · exact lexLt_irrefl _
        · exact lexLt_trans ((Bool.not_eq_true _).mp hc) (hl z hz)

theorem pieceReady_read {s : State} {c : Copy} {k : Nat} {p : Piece} {x : Loc × Nat} (hp : c.pieces[k]? = some p)
    (hx : p.src[p.data.length]? = some x) (ha : p.asked = none) (hh : home x.1.pa ≠ 64 ∨ x.1.peer.isSome ∨ s.hostUp) : s.pieceReady c k = true := by
  simp only [State.pieceReady, hp, hx, ha, bne_iff_ne, Bool.or_eq_true]
  tauto

theorem pieceReady_write {s : State} {c : Copy} {k : Nat} {p : Piece} (hp : c.pieces[k]? = some p) (hl : p.src.length ≤ p.data.length)
    (h : ∀ q ∈ c.pieces.take k, q.dst.peer ≠ p.dst.peer ∨ home q.dst.pa ≠ home p.dst.pa) : s.pieceReady c k = true := by
  simp only [State.pieceReady, hp, List.getElem?_eq_none hl, Bool.not_eq_true', List.any_eq_false, Bool.and_eq_true, beq_iff_eq]
  intro q hq ⟨h1, h2⟩
  rcases h q hq with h | h <;> contradiction

theorem cellRead_none {cs : List Host.Cell} {a : Nat} (h : ∀ c ∈ cs, c.1 ≠ a) : cellRead cs a = 0 := by
  induction cs with
  | nil => rfl
  | cons c cs ih =>
    obtain ⟨k, v⟩ := c
    have hk : a ≠ k := fun e => h (k, v) (by simp) e.symm
    simp only [cellRead, if_neg hk]
    split
    · rfl
    · exact ih fun c hc => h c (by simp [hc])

theorem landing_mod_same (s : State) (l : Nat) (f : Landing → Landing) (hl : l < s.landings.length) :
    (s.modLanding l f).landing l = f (s.landing l) := by
  simp [State.modLanding, State.setLanding, State.landing, List.getD_eq_getElem?_getD, hl]

theorem modBus_same (s : State) (l bus : Nat) (f : Bus → Bus) (hl : l < s.landings.length) (hb : bus < (s.landing l).ras.buses.length) :
    ((s.modBus l bus f).landing l).ras.buses.getD bus Bus.reset = f ((s.landing l).ras.buses.getD bus Bus.reset) := by
  rw [State.modBus, State.modRas, landing_mod_same _ _ _ hl]
  simp [List.getD_eq_getElem?_getD, hb]

end Sys2Proof.Laws
end

