-- ==== Sys2Proof/Tests/Slice0.lean ====
section
/-! SUPPORT. Tests of the model on small states: words decoded, ill-formed terms refused, vectors of the spec, and for each
statement with hypotheses a state and operands that meet them. -/

-- The tests are elaborated one after another: side by side, each waits for the kernel's check of those before it in a thread of its own.
set_option Elab.async false

namespace Sys2Proof.Tests

open Sys2Proof Sys2Proof.Machine

/-! ### A small state, in which most instructions issue -/

/-- Pages of the context beside the code page: virtual page, physical address, and the kind of each with what else its entry says.
Page 5 lies at landing 1, page 7 in peer module 5, the others at landing 0. -/
def pages : List (Nat × Nat × Nat) :=
  [(1, 0x080000040000, 64), (2, 0x080000060000, 2 * 64), (3, 0x0800000A0000, 3 * 64), (4, 0x0800000C0000, 4 * 64), (5, 0x080002000000, 0),
    (6, 0x080000100000, 0), (7, 0x080000200000, 0x2000 + 5 * 2 ^ 48)]

/-- The page tables of placed code, with those pages mapped in the last of them, cell by cell. -/
def tables : List (Nat × Byte) :=
  ([(0, 1), (1, 16), (5, 8), (4096, 1), (4097, 32), (4101, 8), (8192, 1), (8193, 48), (8197, 8), (12288, 1), (12289, 64), (12293, 8),
    (16384, 59), (16385, 6), (16386, 2), (16389, 8), (16392, 123), (16393, 6), (16394, 4), (16397, 8), (16400, 187), (16401, 6), (16402, 6),
    (16405, 8), (16408, 251), (16409, 6), (16410, 10), (16413, 8), (16416, 59), (16417, 7), (16418, 12), (16421, 8), (16424, 59), (16425, 6),
    (16427, 2), (16429, 8), (16432, 59), (16433, 6), (16434, 16), (16437, 8),
    (16440, 59), (16441, 38), (16442, 32), (16445, 8), (16446, 5)] : List (Nat × Byte)).map fun c => (0x080000000000 + c.1, c.2)

/-- The machine with a program placed, those pages mapped and a route to module 5, before its first instruction: one group, all 64 registers
present and zero. -/
def s0 : State :=
  { State.reset.placeCode [] with mem := { State.reset.mem with cells := tables }, links := { Links.reset with routes := [(5, 1)] } }

/-- Its memory is what placing code leaves, with the entries of the pages put into the last table. -/
theorem test_tables : s0.mem.cells = (pages.foldl (fun m p => m.put (0x080000004000 + 8 * p.1) (toBytes 8 (p.2.1 + 0x63B + p.2.2)) false)
    (State.reset.placeCode []).mem).cells := by decide +kernel

/-- Its group. -/
def g0 : Group := placeGroup

/-- The same machine with another group in its place. -/
def held (g : Group) : State := { s0 with groups := [g] }

/-- The group with lane values in registers. -/
def holding (g : Group) (rs : List (Nat × Word)) : Group :=
  { g with frame := rs.foldl (fun (f : Frame) r => f.setReg r.1 (some ⟨.u r.2, 0⟩)) g.frame }

/-- The environment of an instruction of `g`. -/
def env (i : Instr) (g : Group) : Env := ⟨g.laStep i true, g.guard i.g4, Manifest.all⟩

/-- An instruction passes the checks before its own effect. -/
def ready (i : Instr) (s : State) (g : Group) : Bool :=
  g.uid == s.cur && (i.privTrap (s.ctx g.ctx).pl).isNone && (g.rangeTrap i.shape.named).isNone && i.ls == 0 &&
    g.guard i.g4 != 0 && (g.absentReads i).isEmpty

theorem issues {i : Instr} {s : State} {g : Group} (h : ready i { s with groups := [g] } g = true) :
    Issues i { s with groups := [g] } { s with groups := [g] } g (env i g) := by
  simp only [ready, Bool.and_eq_true, beq_iff_eq, bne_iff_ne, ne_eq, Option.isNone_iff_eq_none, List.isEmpty_iff] at h
  obtain ⟨⟨⟨⟨⟨hu, hp⟩, hr⟩, hl⟩, ha⟩, hd⟩ := h
  refine ⟨by simp [State.curGroup, State.group?, hu], hp, hr, by simp [State.manifest, hl, env], rfl, ha, g, by simp [State.deadRead, hd], rfl⟩

/-- An instruction that issues in `s0` with room for whatever it writes. -/
def Runs (i : Instr) : Prop := ∃ e, Issues i s0 s0 g0 e ∧ Room e.g ∧ ∀ ds ps hs, RoomFor e.g ds ps hs

theorem room (g : Group) (h : g.older = []) : Room g ∧ ∀ ds ps hs, RoomFor g ds ps hs := by
  simp [RoomFor, Room, filled, h]

theorem older_laStep (g : Group) (i : Instr) : (g.laStep i true).older = g.older := by
  rw [Group.laStep]; split
  · rfl
  · simp only []; (repeat' split) <;> rfl

theorem runs (i : Instr) (h : ready i s0 g0 = true) : Runs i :=
  ⟨_, issues (s := s0) h, room _ (older_laStep g0 i)⟩

/-- Several of them. -/
theorem allRun {α : Type} {cs : List (α → Instr)} {x : α} (h : (cs.all fun c => ready (c x) s0 g0) = true) : ∀ c ∈ cs, Runs (c x) :=
  fun _ hc => runs _ (List.all_eq_true.mp h _ hc)

/-- A group in which registers 0 and 1 are poisoned in every lane. -/
def poisoned : Group :=
  { g0 with frame := (g0.frame.setReg 0 (some ⟨.u 0, -1⟩)).setReg 1 (some ⟨.u 0, -1⟩) }

/-- A group with every floating-point trap enabled, and a signalling NaN in registers 0 and 1 (as an f32, an f64 and two 16-bit floats). -/
def trapping : Group := { holding g0 [(0, 0x7FA17DA1), (1, 0x7FF10001)] with gmode := 0xF8 }

theorem firstPoison (f : Frame) (act : Mask) (r : Nat) (rest : List Nat) (hr : f.bad r 0 = true) (ha : act.getLsbD 0 = true)
    (hs : ∀ q ∈ rest, r ≤ q) : FirstPoison f act (r :: rest) r 0 := by
  refine ⟨by simp, ha, hr, by simp, fun q hq hlt => ?_⟩
  rcases List.mem_cons.mp hq with rfl | h
  · exact absurd hlt (Nat.lt_irrefl _)
  · exact absurd hlt (Nat.not_lt.mpr (hs q h))

/-- An instruction issues for group `g`, and `P` holds of its environment. -/
def Meets (i : Instr) (s : State) (g : Group) (P : Env → Prop) : Prop := ∃ e, Issues i s s g e ∧ P e

theorem meets {i : Instr} {s : State} {g : Group} {P : Env → Prop} (h : ready i { s with groups := [g] } g = true) (hp : P (env i g)) :
    Meets i { s with groups := [g] } g P := ⟨_, issues h, hp⟩

theorem lanes {act : Mask} {P : Nat → Prop} (h : ∀ l < 32, act.getLsbD l = true → P l) : ∀ l, act.getLsbD l = true → P l :=
  fun l hl => h l (BitVec.lt_of_getLsbD hl) hl

/-- The machine whose context spills its group at 0x20000, `2 ^ n` bytes for each segment, and takes traps at 0x100. -/
def spilling (n : Nat) : State :=
  { s0 with ctxs := [{ placeCtx with spillArea := 0x20000, spillSeg := BitVec.ofNat 32 n, utrapVec := 0x100 }] }

/-- A group whose p1 holds in the low sixteen lanes. -/
def halved : Group := { g0 with frame := g0.frame.writePred (-1) 1 0xFFFF }

theorem room_env {i : Instr} {g : Group} (h : g.older = []) : Room (env i g).g :=
  (room _ ((older_laStep g i).trans h)).1

theorem roomFor_env {i : Instr} {g : Group} (ds ps hs : List Nat) (h : g.older = []) : RoomFor (env i g).g ds ps hs :=
  (room _ ((older_laStep g i).trans h)).2 ds ps hs

/-- The translations of the lanes' addresses. -/
def walk (a : Access) (va : Nat → Nat) (s : State) (e : Env) : Lanes :=
  (s.setGroup e.g).translateLanes e.g.l e.g.ctx a ((lanesOf e.act).map fun l => (l, va l))

/-- The checks of `Checked`, one by one. -/
def passes (a : Access) (n : Nat) (regs : List Nat) (va : Nat → Nat) (s : State) (e : Env) : Bool :=
  !(s.setGroup e.g).sideBusy e.g.uid &&
    (List.range 32).all (fun l => !e.act.getLsbD l || ((regs.all fun r => !e.g.frame.bad r l) && decide (va l < 2 ^ 56) && va l % n == 0)) &&
    (walk a va s e).refused.isEmpty && (walk a va s e).missing.isEmpty

theorem checked {a : Access} {n : Nat} {regs : List Nat} {va : Nat → Nat} {s : State} {e : Env} (h : passes a n regs va s e = true) :
    Checked a n regs va s e (walk a va s e).ok (walk a va s e).s := by
  simp only [passes, Bool.and_eq_true, Bool.not_eq_true', List.isEmpty_iff, List.all_eq_true, Bool.or_eq_true, beq_iff_eq, decide_eq_true_eq] at h
  obtain ⟨⟨⟨hb, hl⟩, hr⟩, hm⟩ := h
  have hx (l : Nat) (ha : e.act.getLsbD l = true) :=
    (hl l (List.mem_range.mpr (BitVec.lt_of_getLsbD ha))).resolve_left (by simp [ha])
  refine ⟨hb, fun r hr l ha => (hx l ha).1.1 r hr, fun l ha => (hx l ha).1.2, fun l ha => (hx l ha).2, ?_⟩
  unfold walk at hr hm ⊢
  rw [← hr, ← hm]

/-- Where the lanes have translated, they are at the landing of the group. -/
def near (a : Access) (va : Nat → Nat) (s : State) (e : Env) : Bool :=
  ((walk a va s e).ok.all fun x => x.2.peer.isNone && home x.2.pa == e.g.l) && !(walk a va s e).s.ownPosts e.g

theorem isLocal {a : Access} {va : Nat → Nat} {s : State} {e : Env} (hn : near a va s e = true) :
    Local e.g.l (walk a va s e).s e.g (walk a va s e).ok := by
  simp only [near, Bool.and_eq_true, List.all_eq_true, Option.isNone_iff_eq_none, beq_iff_eq, Bool.not_eq_true'] at hn
  exact ⟨hn.1, hn.2⟩

theorem isHere {a : Access} {n : Nat} {regs : List Nat} {va : Nat → Nat} {s : State} {e : Env} (h0 : e.g.carried = none)
    (h : passes a n regs va s e = true) (hn : near a va s e = true) : Here a n regs va s e (walk a va s e).ok (walk a va s e).s :=
  ⟨.inr ⟨h0, checked h⟩, isLocal hn⟩

theorem meetsHeld {i : Instr} {g : Group} {P : Env → Prop} (h : ready i (held g) g = true) (hp : P (env i g)) : Meets i (held g) g P :=
  meets (s := s0) h hp

/-- A group of lanes 0 and 31 whose v0 and v1 hold the address of page 6 in form U, and v2 holds 1. -/
def page6 : Group := { holding g0 [(0, 0xC0000), (2, 1)] with active := 0x80000001 }

/-- The same where only lane 31 satisfies p1. -/
def lane31 : Group := { page6 with frame := page6.frame.writePred (-1) 1 0x80000000 }

/-- What each lane of a part reads. -/
def reads (t : State) (n : Nat) (xs : List (Nat × Loc)) (l : Nat) : Nat × Bool :=
  ((xs.find? fun x => x.1 == l).map fun x => t.seen n x.2).getD (0, false)

theorem inMemory {t : State} {xs : List (Nat × Loc)}
    (h : (xs.all fun x => !isControl (t.mem.backing x.2 false) && !isControl x.2.pa) = true) : InMemory t xs := by
  intro x hx
  have := List.all_eq_true.mp h x hx
  simp only [Bool.and_eq_true, Bool.not_eq_true'] at this
  exact this

/-- The same for a group in another machine. -/
theorem meetsIn (s : State) {i : Instr} {g : Group} {P : Env → Prop} (h : ready i { s with groups := [g] } g = true) (hp : P (env i g)) :
    Meets i { s with groups := [g] } g P := meets h hp

/-- The location of the address of page 6. -/
def loc6 : Loc := ⟨0x080000100000, 0, none, false, 17⟩

theorem oneAddr {w : Bool} {a : Access} {op : AddrOp} {s : State} {e : Env} {x : Loc} {t : State}
    (h0 : e.g.carried = none) (h1 : (s.setGroup e.g).sideBusy e.g.uid = false)
    (h2 : (op.regs.all fun r => !e.g.frame.bad r (lowLane e.act)) = true) (h3 : op.va (lowLane e.act) < 2 ^ 56 ∧ op.va (lowLane e.act) % op.align = 0)
    (h4 : (s.setGroup e.g).translate e.g.l e.g.ctx (op.va (lowLane e.act)) a = .ok (x, t)) : OneAddr w a op s e x t :=
  .inr ⟨h0, fun _ => h1, fun r hr => by simpa using List.all_eq_true.mp h2 r hr, h3.1, h3.2, h4⟩

/-- What the translation of the one address of an instruction comes to. -/
def found (a : Access) (op : AddrOp) (s : State) (e : Env) : Loc × State :=
  (((s.setGroup e.g).translate e.g.l e.g.ctx (op.va (lowLane e.act)) a).toOption).getD (loc6, s)

theorem ok_found {a : Access} {op : AddrOp} {s : State} {e : Env}
    (h : ((s.setGroup e.g).translate e.g.l e.g.ctx (op.va (lowLane e.act)) a).toOption.isSome = true) :
    (s.setGroup e.g).translate e.g.l e.g.ctx (op.va (lowLane e.act)) a = .ok ((found a op s e).1, (found a op s e).2) := by
  unfold found
  generalize (s.setGroup e.g).translate e.g.l e.g.ctx (op.va (lowLane e.act)) a = r at h ⊢
  cases r with
  | error _ => simp [Except.toOption] at h
  | ok x => rfl

/-- The checks of `OneAddr`, one by one. -/
def oneOk (a : Access) (op : AddrOp) (s : State) (e : Env) : Bool :=
  e.g.carried.isNone && !(s.setGroup e.g).sideBusy e.g.uid && (op.regs.all fun r => !e.g.frame.bad r (lowLane e.act)) &&
    decide (op.va (lowLane e.act) < 2 ^ 56) && op.va (lowLane e.act) % op.align == 0 &&
    ((s.setGroup e.g).translate e.g.l e.g.ctx (op.va (lowLane e.act)) a).toOption.isSome

theorem isOne {w : Bool} {a : Access} {op : AddrOp} {s : State} {e : Env} (h : oneOk a op s e = true) :
    OneAddr w a op s e (found a op s e).1 (found a op s e).2 := by
  simp only [oneOk, Bool.and_eq_true, Bool.not_eq_true', Option.isNone_iff_eq_none, decide_eq_true_eq, beq_iff_eq] at h
  exact oneAddr h.1.1.1.1.1 h.1.1.1.1.2 h.1.1.1.2 ⟨h.1.1.2, h.1.2⟩ (ok_found h.2)

theorem isOneHere {a : Access} {op : AddrOp} {s : State} {e : Env} (h : oneOk a op s e = true)
    (hh : ((found a op s e).1.peer.isNone && home (found a op s e).1.pa == e.g.l && !(found a op s e).2.ownPosts e.g) = true) :
    OneHere a op s e (found a op s e).1 (found a op s e).2 := by
  simp only [Bool.and_eq_true, Bool.not_eq_true', Option.isNone_iff_eq_none, beq_iff_eq] at hh
  exact ⟨isOne h, hh.1, hh.2⟩

/-- The machine with bytes on page 6, at offsets in ascending order. -/
def withBytes (xs : List (Nat × Byte)) : State :=
  { s0 with mem := { s0.mem with cells := tables ++ (xs.filter fun x => x.2 != 0).map fun x => (0x080000100000 + x.1, x.2) } }

/-! ### Witnesses: states and operands that meet the hypotheses of the statements -/

/-- IntegerAndLogic, with the lowest and the highest register as operands. -/
theorem test_witness_IntegerAndLogic : ∀ c ∈ ([.add, .sub, .mul, .mulhi, .mulhiz, .abs, .min, .max, .minz, .maxz, .and, .or, .xor, .andn, .orn,
    .rotl, .shl, .shr, .sar, .clz, .ctz, .popc, .brev] : List (A32 → Instr)), Runs (c ⟨0, 0, 0, 63, 0⟩) :=
  allRun (by decide +kernel)

/-- BitFields: the instructions; and a word with a bit, whose counts are below 32. -/
theorem test_witness_BitFields : (∀ c ∈ ([.bpick, .bfx, .bfxs, .bfi] : List (A32 → Instr)), Runs (c ⟨0, 0, 63, 0, 63⟩)) ∧
    (1 : Word) ≠ 0 ∧ (clzWord 1).toNat = 31 ∧ (ctzWord 0x80000000).toNat = 31 :=
  ⟨allRun (by decide +kernel), by decide, by decide, by decide⟩

/-- Immediates, with the largest amount of major 14. -/
theorem test_witness_Immediates :
    (∀ c ∈ ([.addi, .andi, .ori, .xori, .muli] : List (I32 → Instr)), Runs (c ⟨0, 0x100, 63, 0⟩)) ∧
    Runs (.shli ⟨0, 31, 63, 0⟩) ∧ Runs (.shri ⟨0, 64 + 31, 63, 0⟩) ∧ Runs (.sari ⟨0, 128 + 31, 63, 0⟩) ∧ Runs (.rotli ⟨0, 192 + 31, 63, 0⟩) ∧
    (192 + 31) % 64 < 32 ∧ Runs (.movi ⟨0, 0x4000, 63⟩) ∧ Runs (.movi32 ⟨0xFFFFFFFF, 0, 0, 0, 0, 63⟩) ∧ Runs (.addi32 ⟨0xFFFFFFFF, 0, 0, 1, 0, 63⟩) :=
  ⟨allRun (by decide +kernel), runs _ (by decide +kernel), runs _ (by decide +kernel), runs _ (by decide +kernel),
    runs _ (by decide +kernel), by decide, runs _ (by decide +kernel), runs _ (by decide +kernel), runs _ (by decide +kernel)⟩

/-- ShortIntegers. -/
theorem test_witness_ShortIntegers : ∀ c ∈ ([.c16Mov, .c16Add, .c16Sub, .c16And, .c16Or, .c16Xor, .c16Mul, .c16Shli, .c16Shri, .c16Addi,
    .c16Movi] : List (C16 → Instr)), Runs (c ⟨0, 31, 0⟩) :=
  allRun (by decide +kernel)

/-- PairsAndProducts, with the highest pair as destination. -/
theorem test_witness_PairsAndProducts : (∀ c ∈ ([.add64, .sub64] : List (A32 → Instr)), Runs (c ⟨0, 0, 0, 62, 62⟩)) ∧ 62 % 2 = 0 ∧
    ∀ c ∈ ([.mad, .madw, .dot4, .dot4z] : List (T64 → Instr)), Runs (c ⟨1, 0, 0, 0, 0, 62, 63, 0, 62⟩) :=
  ⟨allRun (by decide +kernel), rfl, allRun (by decide +kernel)⟩

/-- Division. -/
theorem test_witness_Division : ∀ c ∈ ([.div, .divz, .rem, .remz] : List (T64 → Instr)), Runs (c ⟨0, 0, 0, 0, 0, 0, 63, 0, 63⟩) :=
  allRun (by decide +kernel)

/-- MovesAndQueries, with an even destination. -/
theorem test_witness_MovesAndQueries : ∀ c ∈ ([.mov, .sel, .actmask, .laneid, .grprank, .teamid, .ftime, .poisonq, .formq, .ptov] :
    List (A32 → Instr)), Runs (c ⟨0, 0, 1, 0, 62⟩) :=
  allRun (by decide +kernel)

/-- LanesAcross. -/
theorem test_witness_LanesAcross : ∀ c ∈ ([.xlaneGet, .xlaneRot, .xlaneFlip, .xlaneShift, .pcount, .pmask, .pfirst, .vrank, .redux] :
    List (A32 → Instr)), Runs (c ⟨0, 0, 63, 0, 63⟩) :=
  allRun (by decide +kernel)

/-- ComparisonsAndPredicates: with sources that are not poisoned, and, for CMP, VTOP and CMPI, with poisoned ones; p0 and p7 as
destinations. -/
theorem test_witness_ComparisonsAndPredicates :
    (∀ c ∈ ([.cmp, .vtop, .pand, .por, .pxor, .pandn, .pnot, .pmov] : List (A32 → Instr)), Runs (c ⟨0, 0, 0, 0, 7⟩) ∧ Runs (c ⟨0, 0, 0, 0, 0⟩)) ∧
    Runs (.cmpi ⟨0, 0, 63, 7⟩) ∧ (∀ r l, g0.frame.bad r l = false ∨ 64 ≤ r ∨ 32 ≤ l) ∧
    ∀ c ∈ ([.cmp ⟨0, 0, 1, 0, 7⟩, .vtop ⟨0, 0, 0, 0, 7⟩, .cmpi ⟨0, 0, 0, 7⟩] : List Instr),
      ∃ s e, Issues c s s poisoned e ∧ RoomFor e.g [] [7] [] ∧ FirstPoison e.g.frame e.act [0, 1] 0 0 := by
  refine ⟨fun c hc => ⟨allRun (by decide +kernel) c hc, allRun (by decide +kernel) c hc⟩,
    runs _ (by decide +kernel), ?_, ?_⟩
  · intro r l
    by_cases hr : r < 64
    · by_cases hl : l < 32
      · exact .inl (by
          have := (by decide +kernel : ∀ r < 64, ∀ l < 32, g0.frame.bad r l = false)
          exact this r hr l hl)
      · exact .inr (.inr (by omega))
    · exact .inr (.inl (by omega))
  · intro c hc
    have h : ready c (held poisoned) poisoned = true :=
      List.all_eq_true.mp (by decide +kernel : List.all _ (fun c => ready c (held poisoned) poisoned) = true) c hc
    have hx : (env c poisoned).g.frame = poisoned.frame ∧ (env c poisoned).act = -1 := by
      simp only [List.mem_cons, List.not_mem_nil, or_false] at hc
      rcases hc with rfl | rfl | rfl <;> exact ⟨by decide +kernel, by decide +kernel⟩
    refine ⟨_, _, issues (s := s0) h, (room _ (older_laStep _ _)).2 _ _ _, ?_⟩
    rw [hx.1, hx.2]
    exact firstPoison _ _ 0 [1] (by decide +kernel) (by decide) (by simp)

/-- SingleArithmetic: without an enabled flag, and with one that the operands raise. -/
theorem test_witness_SingleArithmetic :
    (∀ c ∈ ([.fadd, .fsub, .fmul, .fmin, .fmax, .fsat, .fscale, .fgetexp] : List (A32 → Instr)), Runs (c ⟨0, 0, 63, 0, 63⟩)) ∧ g0.fxe = 0 ∧
    (∀ c ∈ ([.c16Fadd, .c16Fsub, .c16Fmul, .c16Fmax, .c16Fmin] : List (C16 → Instr)), Runs (c ⟨0, 31, 0⟩)) ∧
    Meets (.fadd ⟨0, 0, 0, 0, 63⟩) (held trapping) trapping fun e => RoomFor e.g [63] [] [] ∧
      orFlags e.act (fun l => (F32.add e.gmodeRm (e.g.frame.f32 0 l) (e.g.frame.f32 0 l)).fl) &&& e.g.fxe ≠ 0 :=
  ⟨allRun (by decide +kernel), by decide, allRun (by decide +kernel),
    meets (s := s0) (by decide +kernel) ⟨(room _ (older_laStep _ _)).2 _ _ _, by decide +kernel⟩⟩

/-- PackedAndDouble, in f16 and in bf16, and with the highest pairs; and with a flag that traps. -/
theorem test_witness_PackedAndDouble :
    (∀ c ∈ ([.pkadd, .pkmul, .pkmax, .pkmin] : List (A32 → Instr)), Runs (c ⟨0, 0, 63, 0, 63⟩) ∧ Runs (c ⟨0, 4, 63, 0, 63⟩)) ∧
    (∀ c ∈ ([.ffma, .pkfmaF16, .pkfmaBf16, .dot2bf, .dfma] : List (T64 → Instr)), Runs (c ⟨0, 0, 0, 0, 0, 62, 62, 0, 62⟩)) ∧
    (∀ c ∈ ([.dadd, .dsub, .dmul, .dmin, .dmax, .ddiv, .dsqrt] : List (T64 → Instr)), Runs (c ⟨0, 0, 0, 0, 0, 0, 62, 0, 62⟩)) ∧
    Meets (.dadd ⟨0, 0, 0, 0, 0, 0, 0, 0, 62⟩) (held trapping) trapping fun e => RoomFor e.g [62, 63] [] [] ∧
      orFlags e.act (fun l => (F64.add (e.mode ⟨0, 0, 0, 0, 0, 0, 0, 0, 62⟩) (e.g.frame.f64 0 l) (e.g.frame.f64 0 l)).fl) &&& e.g.fxe ≠ 0 :=
  ⟨fun c hc => ⟨allRun (by decide +kernel) c hc, allRun (by decide +kernel) c hc⟩, allRun (by decide +kernel), allRun (by decide +kernel),
    meets (s := s0) (by decide +kernel) ⟨(room _ (older_laStep _ _)).2 _ _ _, by decide +kernel⟩⟩

/-- FloatFunctionsAndComparisons. -/
theorem test_witness_FloatFunctionsAndComparisons :
    (∀ c ∈ ([.fdiv, .fsqrt, .frcp, .frsq, .fexp2, .flog2, .fsin, .fcos, .frnd, .fsinx, .fcosx, .fclass] : List (T64 → Instr)),
      Runs (c ⟨0, 0, 0, 0, 0, 0, 63, 0, 63⟩)) ∧
    Runs (.fcmp ⟨0, 0, 63, 0, 7⟩) ∧ Runs (.dcmp ⟨0, 0, 0, 0, 0, 0, 62, 0, 7⟩) ∧ Runs (.fclass ⟨0x10, 0, 0, 0, 0, 0, 0, 62, 63⟩) ∧
    (0x10 : BitVec 12).getLsbD 4 = true ∧
    (Meets (.fcmp ⟨0, 2, 0, 0, 7⟩) (held trapping) trapping fun e => RoomFor e.g [] [7] [] ∧
      (∀ r ∈ [0], ∀ l, e.act.getLsbD l = true → e.g.frame.bad r l = false) ∧
      orFlags e.act (fun l => (F32.compare 2 (e.g.frame.f32 0 l) (e.g.frame.f32 0 l)).2) &&& e.g.fxe ≠ 0) ∧
    (Meets (.fcmp ⟨0, 2, 1, 0, 7⟩) (held poisoned) poisoned fun e => RoomFor e.g [] [7] [] ∧ FirstPoison e.g.frame e.act [0, 1] 0 0) :=
  ⟨allRun (by decide +kernel), runs _ (by decide +kernel), runs _ (by decide +kernel), runs _ (by decide +kernel), by decide,
    meets (s := s0) (by decide +kernel) ⟨(room _ (older_laStep _ _)).2 _ _ _, fun _ h => by
      rw [List.mem_singleton] at h; subst h; exact lanes (by decide +kernel), by decide +kernel⟩,
    meets (s := s0) (by decide +kernel) ⟨(room _ (older_laStep _ _)).2 _ _ _,
      firstPoison _ _ 0 [1] (by decide +kernel) (by decide +kernel) (by simp)⟩⟩

/-- Conversions: every code, into one register or an even pair. -/
theorem test_witness_Conversions :
    Runs (.cvtF2f ⟨0x100, 0, 0, 0, 0, 0, 0, 63, 62⟩) ∧ Runs (.cvtF2f ⟨0x010, 0, 0, 0, 0, 0, 0, 62, 63⟩) ∧
    Runs (.cvtF2i ⟨0x010, 1, 0, 0, 0, 0, 0, 63, 63⟩) ∧ Runs (.cvtF2i ⟨0x710, 1, 0, 0, 0, 0, 0, 63, 62⟩) ∧ 7 % 4 = 3 ∧
    Runs (.cvtF2i ⟨0x700, 1, 0, 0, 0, 0, 0, 62, 62⟩) ∧
    Runs (.cvtI2f ⟨0x310, 2, 0, 0, 0, 0, 0, 62, 63⟩) ∧ Runs (.cvtI2f ⟨0x200, 2, 0, 0, 0, 0, 0, 63, 62⟩) ∧
    Runs (.cvtNarrow ⟨0x020, 3, 0, 0, 0, 0, 63, 0, 63⟩) ∧ Runs (.cvtNarrow ⟨0x380, 3, 0, 0, 0, 0, 63, 0, 63⟩) ∧
    Runs (.cvtWiden ⟨0x790, 4, 0, 0, 0, 0, 0, 63, 63⟩) :=
  ⟨runs _ (by decide +kernel), runs _ (by decide +kernel), runs _ (by decide +kernel), runs _ (by decide +kernel), rfl, runs _ (by decide +kernel),
    runs _ (by decide +kernel), runs _ (by decide +kernel), runs _ (by decide +kernel), runs _ (by decide +kernel), runs _ (by decide +kernel)⟩

/-- BlockPacking. -/
theorem test_witness_BlockPacking : Runs (.packmx ⟨0x040, 5, 0, 0, 0, 0, 0, 63, 63⟩) := runs _ (by decide +kernel)

/-- PlanesAndRandom, in both planes. -/
theorem test_witness_PlanesAndRandom :
    Runs (.planeSplit ⟨0x000, 6, 0, 0, 0, 0, 63, 0, 63⟩) ∧ Runs (.planeSplit ⟨0x030, 6, 0, 0, 0, 0, 63, 0, 63⟩) ∧
    Runs (.planeJoin ⟨0x030, 7, 0, 0, 0, 0, 63, 0, 63⟩) ∧ Runs (.rngCb ⟨0, 3, 0, 0, 0, 0, 62, 0, 63⟩) :=
  ⟨runs _ (by decide +kernel), runs _ (by decide +kernel), runs _ (by decide +kernel), runs _ (by decide +kernel)⟩

/-- Branches: below 0, forward for every lane, and forward for half of them. -/
theorem test_witness_Branches :
    (Meets (.bra ⟨0, -1⟩) s0 g0 fun e => 2 ^ 56 ≤ (e.g.pc + 2 * (-1 : BitVec 21).signExtend 64).toNat) ∧
    (Meets (.bra ⟨0, 3⟩) s0 g0 fun e => (e.g.pc + 2 * (3 : BitVec 21).signExtend 64).toNat < 2 ^ 56 ∧ e.act = e.g.active ∧ Room e.g) ∧
    (Meets (.brl ⟨3, 1, 0, 0, 0⟩) s0 g0 fun e => (e.g.pc + 2 * (3 : BitVec 32).signExtend 64).toNat < 2 ^ 56 ∧ e.act = e.g.active ∧ Room e.g) ∧
    ∀ i, i = .bra ⟨1, 3⟩ ∨ i = .brl ⟨3, 1, 1, 0, 0⟩ → ∃ s, Meets i s halved fun e => (e.g.pc + 6).toNat < 2 ^ 56 ∧ e.act ≠ e.g.active ∧
      e.g.older = [] ∧ ∀ parts, parts = [(e.g.active &&& ~~~e.act, fun h => h.advance i), (e.act, fun h => { h.advance i with pc := e.g.pc + 6 })] →
        (s.setGroup e.g).splitFault e.g parts = none := by
  refine ⟨meets (s := s0) (by decide +kernel) (by decide), meets (s := s0) (by decide +kernel) ⟨by decide, by decide, (room _ (older_laStep _ _)).1⟩,
    meets (s := s0) (by decide +kernel) ⟨by decide, by decide, (room _ (older_laStep _ _)).1⟩, ?_⟩
  rintro i (rfl | rfl)
  · exact ⟨_, meets (s := spilling 11) (by decide +kernel) ⟨by decide +kernel, by decide +kernel, older_laStep _ _, fun _ h => h ▸ by decide +kernel⟩⟩
  · exact ⟨_, meets (s := spilling 11) (by decide +kernel) ⟨by decide +kernel, by decide +kernel, older_laStep _ _, fun _ h => h ▸ by decide +kernel⟩⟩

/-- IndirectTransfers: a poisoned target, one at 2 ^ 56, an odd one, and one target for the whole context, with a caller's depth
below the limit and at it. -/
theorem test_witness_IndirectTransfers (i : Instr) (hi : i = .brx ⟨0, 0, 0, 0, 0⟩ ∨ i = .callx ⟨0, 0, 0, 0, 0⟩) :
    let clean (e : Env) : Prop := ∀ l, e.act.getLsbD l = true → e.g.frame.bad 0 l = false ∧ e.g.frame.bad 1 l = false
    let t (e : Env) (l : Nat) : Nat := (e.g.frame.pair 0 l).toNat
    let far (e : Env) : Mask := maskOf fun l => e.act.getLsbD l && decide (2 ^ 56 ≤ t e l)
    let odd (e : Env) : Mask := maskOf fun l => e.act.getLsbD l && t e l % 2 == 1
    (∃ s, Meets i s poisoned fun e => FirstPoison e.g.frame e.act [0, 1] 0 0) ∧
    (∃ s, Meets i s (holding g0 [(1, 0x01000000)]) fun e => clean e ∧ far e ≠ 0) ∧
    (∃ s, Meets i s (holding g0 [(0, 1), (1, 0x00FFFFFF)]) fun e => clean e ∧ far e = 0 ∧ odd e ≠ 0) ∧
    (∃ s, Meets i s (holding g0 [(0, 0x100)]) fun e => clean e ∧ far e = 0 ∧ odd e = 0 ∧ e.act = e.g.active ∧
      (∀ l, e.act.getLsbD l = true → t e l = (0x100 : DWord).toNat) ∧ Room e.g ∧ e.g.depth < e.g.depthLimit ∧
        Room ((e.g.advance i).call (e.g.pc + 4) 0x100)) ∧
    ∃ s, Meets i s { g0 with depth := 65504 } fun e => clean e ∧ far e = 0 ∧ odd e = 0 ∧ e.act = e.g.active ∧ e.g.depthLimit ≤ e.g.depth := by
  rcases hi with rfl | rfl
  · exact ⟨⟨_, meets (s := s0) (by decide +kernel) (firstPoison _ _ 0 [1] (by decide +kernel) (by decide +kernel) (by simp))⟩,
      ⟨_, meets (s := s0) (by decide +kernel) ⟨lanes (by decide +kernel), by decide +kernel⟩⟩,
      ⟨_, meets (s := s0) (by decide +kernel) ⟨lanes (by decide +kernel), by decide +kernel, by decide +kernel⟩⟩,
      ⟨_, meets (s := s0) (by decide +kernel) ⟨lanes (by decide +kernel), by decide +kernel, by decide +kernel, by decide +kernel, lanes (by decide +kernel),
        room_env rfl, by decide +kernel, by rw [Room]; decide +kernel⟩⟩,
      ⟨_, meets (s := s0) (by decide +kernel) ⟨lanes (by decide +kernel), by decide +kernel, by decide +kernel, by decide +kernel, by decide +kernel⟩⟩⟩
  · exact ⟨⟨_, meets (s := s0) (by decide +kernel) (firstPoison _ _ 0 [1] (by decide +kernel) (by decide +kernel) (by simp))⟩,
      ⟨_, meets (s := s0) (by decide +kernel) ⟨lanes (by decide +kernel), by decide +kernel⟩⟩,
      ⟨_, meets (s := s0) (by decide +kernel) ⟨lanes (by decide +kernel), by decide +kernel, by decide +kernel⟩⟩,
      ⟨_, meets (s := s0) (by decide +kernel) ⟨lanes (by decide +kernel), by decide +kernel, by decide +kernel, by decide +kernel, lanes (by decide +kernel),
        room_env rfl, by decide +kernel, by rw [Room]; decide +kernel⟩⟩,
      ⟨_, meets (s := s0) (by decide +kernel) ⟨lanes (by decide +kernel), by decide +kernel, by decide +kernel, by decide +kernel, by decide +kernel⟩⟩⟩

/-- FrameOpening, at both ends of a frame's size. -/
theorem test_witness_FrameOpening : 8 ≤ g0.frame.fsz ∧ g0.frame.fsz ≤ 64 ∧
    8 ≤ ({ g0 with frame := Frame.fresh } : Group).frame.fsz ∧ ({ g0 with frame := Frame.fresh } : Group).frame.fsz ≤ 64 := by decide

/-- A group in a called frame, whose caller is the frame `f`. -/
def called (f : Frame) : Group := { g0 with depth := 1, older := [f] }

/-- CallsAndReturnsNested. -/
theorem test_witness_CallsAndReturnsNested :
    (Meets (.call ⟨-1, 0, 0, 0, 0⟩) s0 g0 fun e => 2 ^ 56 ≤ (e.g.pc + 2 * (-1 : BitVec 32).signExtend 64).toNat) ∧
    (Meets (.call ⟨3, 0, 0, 0, 0⟩) s0 g0 fun e => (e.g.pc + 2 * (3 : BitVec 32).signExtend 64).toNat < 2 ^ 56 ∧ e.act = e.g.active ∧
      e.g.depth < e.g.depthLimit ∧ Room ((e.g.advance (.call ⟨3, 0, 0, 0, 0⟩)).call (e.g.pc + 8) 6)) ∧
    (∃ s, Meets (.call ⟨3, 0, 0, 0, 0⟩) s { g0 with depth := 65504 } fun e => (e.g.pc + 2 * (3 : BitVec 32).signExtend 64).toNat < 2 ^ 56 ∧
      e.act = e.g.active ∧ e.g.depthLimit ≤ e.g.depth) ∧
    (∃ s, Meets (.ret ⟨0, 0, 0, 0, 0⟩) s { g0 with depth := 1 } fun e => e.act = e.g.active ∧ 0 < e.g.depth ∧ e.g.sibling = false ∧ e.g.older = []) ∧
    (∃ s, Meets (.ret ⟨0, 0, 0, 0, 0⟩) s (called { g0.frame with tp := true }) fun e => e.act = e.g.active ∧ 0 < e.g.depth ∧ e.g.sibling = false ∧
      ∃ c rest, e.g.older = c :: rest ∧ c.tp = true) ∧
    (∃ s, Meets (.ret ⟨0, 0, 0, 0, 0⟩) s (called g0.frame) fun e => e.act = e.g.active ∧ 0 < e.g.depth ∧ e.g.sibling = false ∧
      ∃ c rest, e.g.older = c :: rest ∧ c.tp = false ∧ Room ((e.g.advance (.ret ⟨0, 0, 0, 0, 0⟩)).return_ c rest)) ∧
    ∃ c, (g0.call 8 6).older = c :: g0.older :=
  ⟨meets (s := s0) (by decide +kernel) (by decide +kernel),
    meets (s := s0) (by decide +kernel) ⟨by decide +kernel, by decide +kernel, by decide +kernel, by rw [Room]; decide +kernel⟩,
    ⟨_, meets (s := s0) (by decide +kernel) ⟨by decide +kernel, by decide +kernel, by decide +kernel⟩⟩,
    ⟨_, meets (s := s0) (by decide +kernel) ⟨by decide +kernel, by decide +kernel, by decide +kernel, by decide +kernel⟩⟩,
    ⟨_, meets (s := s0) (by decide +kernel) ⟨by decide +kernel, by decide +kernel, by decide +kernel, _, _, rfl, by decide +kernel⟩⟩,
    ⟨_, meets (s := s0) (by decide +kernel) ⟨by decide +kernel, by decide +kernel, by decide +kernel, _, _, rfl, by decide +kernel, by rw [Room]; decide +kernel⟩⟩,
    _, rfl⟩

/-- FrameEntry: a table that is not aligned; a frame already entered; no spill room; and room, in the smallest segment. -/
theorem test_witness_FrameEntry :
    (Meets (.enter ⟨1, 0, 0, 0, 8⟩) s0 g0 fun e => ¬((1 : BitVec 32) = 0 ∨ (e.g.pc + 2 * (1 : BitVec 32).signExtend 64).toNat % 16 = 0)) ∧
    (Meets (.enter ⟨8, 0, 0, 0, 8⟩) s0 g0 fun e => (e.g.pc + 2 * (8 : BitVec 32).signExtend 64).toNat % 16 = 0 ∧ e.g.frame.entered = true) ∧
    (∃ s g, Meets (.enter ⟨0, 0, 0, 0, 8⟩) s g fun e => e.g.frame.entered = false ∧ e.g.inTrap = false ∧
      (s.setGroup e.g).spillLim e.g < (s.setGroup e.g).spillTop e.g + e.g.olderBytes + 16384) ∧
    ∃ s g, Meets (.enter ⟨8, 0, 0, 0, 8⟩) s g fun e => e.g.frame.entered = false ∧ e.g.inTrap = false ∧
      (s.setGroup e.g).spillTop e.g + e.g.olderBytes + 16384 ≤ (s.setGroup e.g).spillLim e.g ∧
      ∀ f : Frame, Room { e.g with frame := f } :=
  ⟨meets (s := s0) (by decide +kernel) (by decide +kernel), meets (s := s0) (by decide +kernel) (by decide +kernel),
    ⟨_, { g0 with frame := Frame.fresh }, meets (s := spilling 12) (by decide +kernel) (by decide +kernel)⟩,
    ⟨_, { g0 with frame := Frame.fresh }, meets (s := spilling 16) (by decide +kernel) ⟨by decide +kernel, by decide +kernel, by decide +kernel, fun _ => (room _ rfl).1⟩⟩⟩

/-- SimpleControl. -/
theorem test_witness_SimpleControl : (∀ c ∈ ([.nop, .wsync, .join, .pin, .unpin, .yield] : List (A32 → Instr)), Runs (c ⟨0, 0, 0, 0, 0⟩)) ∧
    g0.sibling = false := ⟨allRun (by decide +kernel), rfl⟩

/-- SoftwareTraps. -/
theorem test_witness_SoftwareTraps : Runs (.trap ⟨0, 511, 0, 0⟩) ∧ Runs (.syscall ⟨0, 0, 0, 0⟩) :=
  ⟨runs _ (by decide +kernel), runs _ (by decide +kernel)⟩

/-- TrapEntry: a trap that the context's own level takes, and one that is delegated; the deepest depth at which it enters. -/
theorem test_witness_TrapEntry :
    let deep : Group := { g0 with depth := 65534 }
    let user : State := { spilling 16 with ctxs := (spilling 16).ctxs.map fun c => { c with pl := 0, trapDeleg := 2 ^ 35 } }
    (((spilling 16).ctx 1).utrapVec ≠ 0 ∧ 1 ≤ ((spilling 16).ctx 1).pl ∧ (mkTrap 35 0).cause ≠ 37 ∧ deep.depth ≠ 65535 ∧
      (spilling 16).spillTop deep + deep.olderBytes + (deep.frame.image 0).length ≤ (spilling 16).spillLim deep ∧
      Room (deep.enterTrap (mkTrap 35 0) ((spilling 16).ctx 1).utrapVec)) ∧
    (user.ctx 1).pl = 0 ∧ (user.ctx 1).trapDeleg.getLsbD 35 = true ∧ (user.ctx 1).utrapVec ≠ 0 := by
  refine ⟨⟨by decide +kernel, by decide +kernel, by decide, by decide, by decide +kernel, by rw [Room]; decide +kernel⟩, by decide +kernel, by decide +kernel,
    by decide +kernel⟩

/-- TrapEntryFails. -/
theorem test_witness_TrapEntryFails : ((spilling 16).ctx 1).entersTrap 35 = true ∧ ({ g0 with depth := 65535 } : Group).depth = 65535 ∧ 35 < 64 ∧
    ({ g0 with depth := 65535 } : Group).ctx = 1 := by decide +kernel

/-- A group in a trap handler, whose v0 to v3 say where to return; the frame that trapped is previous. -/
def handling (rs : List (Nat × Word)) : Group := { holding g0 rs with inTrap := true, depth := 1, older := [{ g0.frame with tp := true }] }

/-- TrapReturn. -/
theorem test_witness_TrapReturn :
    let i : Instr := .rte ⟨0, 0, 0, 0, 0, 0, 0, 0, 0⟩
    let w (e : Env) (n : Nat) : Word := e.g.frame.lane n (lowLane e.g.active)
    let here (e : Env) : Prop := ∀ n < 4, ∃ r, e.g.frame.reg? n = some r
    let legal (e : Env) : Prop := (w e 2).toNat < 512 ∧ (w e 2).toNat / 64 % 4 = 0 ∧ (w e 3).toNat < 256
    let clean (e : Env) : Prop := ∀ n < 4, e.g.frame.bad n (lowLane e.g.active) = false
    (0 : BitVec 12).getLsbD 0 = false ∧ (Meets i s0 g0 fun e => e.g.inTrap = false) ∧
    (∃ s, Meets i s { handling [] with depth := 0 } fun e => e.g.inTrap = true ∧ e.g.depth = 0) ∧
    (∃ s, Meets i s (handling [(2, 512)]) fun e => e.g.inTrap = true ∧ 0 < e.g.depth ∧ ¬(here e ∧ legal e)) ∧
    (∃ s, Meets i s { handling [] with frame := poisoned.frame } fun e => e.g.inTrap = true ∧ 0 < e.g.depth ∧ here e ∧ legal e ∧
      e.g.frame.bad 0 (lowLane e.g.active) = true) ∧
    (∃ s, Meets i s (handling [(1, 0x01000000)]) fun e => e.g.inTrap = true ∧ 0 < e.g.depth ∧ here e ∧ legal e ∧ clean e ∧ 2 ^ 56 ≤ (w e 1 ++ w e 0).toNat) ∧
    (∃ s, Meets i s (handling [(0, 1)]) fun e => e.g.inTrap = true ∧ 0 < e.g.depth ∧ here e ∧ legal e ∧ clean e ∧
      (w e 1 ++ w e 0).toNat < 2 ^ 56 ∧ (w e 1 ++ w e 0).toNat % 2 = 1) ∧
    (∃ s, Meets i s { handling [] with older := [] } fun e => e.g.inTrap = true ∧ 0 < e.g.depth ∧ here e ∧ legal e ∧ clean e ∧
      (w e 1 ++ w e 0).toNat < 2 ^ 56 ∧ (w e 1 ++ w e 0).toNat % 2 = 0 ∧ e.g.older = []) ∧
    ∃ s, Meets i s (handling [(2, 0x100 + 35), (3, 255)]) fun e => e.g.inTrap = true ∧ 0 < e.g.depth ∧ here e ∧ legal e ∧ clean e ∧
      (w e 1 ++ w e 0).toNat < 2 ^ 56 ∧ (w e 1 ++ w e 0).toNat % 2 = 0 ∧ ∃ c rest, e.g.older = c :: rest ∧
        Room ((e.g.advance i).returnTrap (e.g.resumed c) (w e 1 ++ w e 0) (w e 2) (w e 3)) := by
  have here {g : Group} (h : ((List.range 4).all fun n => (g.frame.reg? n).isSome) = true) : ∀ n < 4, ∃ r, g.frame.reg? n = some r :=
    fun n hn => Option.isSome_iff_exists.mp (List.all_eq_true.mp h n (List.mem_range.mpr hn))
  refine ⟨rfl, meets (s := s0) (by decide +kernel) (by decide +kernel), ⟨_, meets (s := s0) (by decide +kernel) (by decide +kernel)⟩,
    ⟨_, meets (s := s0) (by decide +kernel) ⟨by decide +kernel, by decide +kernel, fun h => absurd h.2 (by decide +kernel)⟩⟩,
    ⟨_, meets (s := s0) (by decide +kernel) ⟨by decide +kernel, by decide +kernel, here (by decide +kernel), by decide +kernel, by decide +kernel⟩⟩,
    ⟨_, meets (s := s0) (by decide +kernel) ⟨by decide +kernel, by decide +kernel, here (by decide +kernel), by decide +kernel, by decide +kernel, by decide +kernel⟩⟩,
    ⟨_, meets (s := s0) (by decide +kernel) ⟨by decide +kernel, by decide +kernel, here (by decide +kernel), by decide +kernel, by decide +kernel, by decide +kernel, by decide +kernel⟩⟩,
    ⟨_, meets (s := s0) (by decide +kernel) ⟨by decide +kernel, by decide +kernel, here (by decide +kernel), by decide +kernel, by decide +kernel, by decide +kernel, by decide +kernel, by decide +kernel⟩⟩,
    ⟨_, meets (s := s0) (by decide +kernel) ⟨by decide +kernel, by decide +kernel, here (by decide +kernel), by decide +kernel, by decide +kernel, by decide +kernel, by decide +kernel, _, _, rfl, by rw [Room]; decide +kernel⟩⟩⟩

/-- What a load needs of the lanes it has translated: as many batches, and the batch at hand reads what memory holds. -/
def loads (g : Group) (t : State) (xs : List (Nat × Loc)) (uni : Bool) (count k : Nat) : Bool :=
  [0, 1].all g.frame.isU == uni && ((lineOrder (if uni then xs.take 1 else xs)).length + 15) / 16 == count && g.progIdx == k &&
    (batchOf (if uni then xs.take 1 else xs) k).all fun x => (reads t 4 xs x.1) == t.seen 4 x.2

/-- 32 lines of page 6. -/
def spreadLocs : List (Nat × Loc) := (List.range 32).map fun l => (l, ⟨0x080000100000 + 64 * l, 0, none, false, 17⟩)

/-- A group of 32 lanes that a move brought to those lines, at batch `k` of its load. -/
def spread (k : Nat) : Group :=
  { g0 with progIdx := k, carried := some spreadLocs
            frame := g0.frame.setReg 0 (some ⟨.g ((List.range 32).map fun l => BitVec.ofNat 32 (0xC0000 + 64 * l)), 0⟩) }

/-- Loads: by LD and by LD.L, every lane from one address; and lanes on 32 lines, which take two batches: the first batch, and the
last, after which nothing is left. -/
theorem test_witness_Loads :
    let o : M64 := ⟨0, 0, 0, 0, 0, 0, 0, 2, 0, 0, 63⟩
    let at_ (g : Group) (e : Env) : Lanes := walk accLoad (memAddr (s0.ctx e.g.ctx) e.g o) (held g) e
    sizeBytes o.size = 4 ∧ 63 + sizeRegs o.size ≤ 64 ∧
    (Meets (.ld o) (held page6) page6 fun e => Here accLoad 4 [0, 1] (memAddr (s0.ctx e.g.ctx) e.g o) (held page6) e (at_ page6 e).ok (at_ page6 e).s ∧
      RoomFor e.g [63] [] [] ∧ loads e.g (at_ page6 e).s (at_ page6 e).ok true 1 0 = true) ∧
    (Meets (.ldL o) (held page6) page6 fun e => Checked accLoadL 4 [0, 1] (memAddr (s0.ctx e.g.ctx) e.g o) (held page6) e (at_ page6 e).ok (at_ page6 e).s ∧
      Local e.g.l (at_ page6 e).s e.g (at_ page6 e).ok ∧ RoomFor e.g [63] [] [] ∧ loads e.g (at_ page6 e).s (at_ page6 e).ok true 1 0 = true) ∧
    ∀ k < 2, Meets (.ld o) (held (spread k)) (spread k) fun e => e.g.carried = some spreadLocs ∧ spreadLocs.map Prod.fst = lanesOf e.act ∧
      Local e.g.l ((held (spread k)).setGroup e.g) e.g spreadLocs ∧ loads e.g ((held (spread k)).setGroup e.g) spreadLocs false 2 k = true :=
  ⟨rfl, by decide,
    meetsHeld (by decide +kernel) ⟨isHere (by decide +kernel) (by decide +kernel) (by decide +kernel), roomFor_env _ _ _ rfl, by decide +kernel⟩,
    meetsHeld (by decide +kernel) ⟨checked (by decide +kernel), isLocal (by decide +kernel), roomFor_env _ _ _ rfl, by decide +kernel⟩,
    fun k hk => by
      rcases (by omega : k = 0 ∨ k = 1) with rfl | rfl <;>
        exact meetsHeld (by decide +kernel) ⟨by decide +kernel, by decide +kernel, ⟨by decide +kernel, by decide +kernel⟩, by decide +kernel⟩⟩

/-- Stores, by both lanes and by lane 31 alone. -/
theorem test_witness_Stores : ∀ g ∈ [page6, lane31], ∀ o : M64, o = ⟨0, 0, 0, 0, 0, if g = page6 then 0 else 1, 0, 2, 2, 0, 0⟩ → Meets (.st o) (held g) g fun e =>
    let w := walk (accStore.wide 4) (memAddr (s0.ctx e.g.ctx) e.g o) (held g) e
    Here (accStore.wide 4) 4 [0, 1] (memAddr (s0.ctx e.g.ctx) e.g o) (held g) e w.ok w.s ∧ Room e.g ∧ InMemory w.s w.ok ∧ w.s.mem.wf = true ∧
      Covers w.s 4 w.ok 0x080000100003 := by
  intro g hg o ho
  rw [List.mem_cons, List.mem_singleton] at hg
  rcases hg with rfl | rfl
  · rw [if_pos rfl] at ho; subst ho
    exact meetsHeld (by decide +kernel) ⟨isHere (by decide +kernel) (by decide +kernel) (by decide +kernel), room_env rfl, inMemory (by decide +kernel),
      by decide +kernel, by rw [Covers]; decide +kernel⟩
  · rw [if_neg (by decide +kernel)] at ho; subst ho
    exact meetsHeld (by decide +kernel) ⟨isHere (by decide +kernel) (by decide +kernel) (by decide +kernel), room_env rfl, inMemory (by decide +kernel),
      by decide +kernel, by rw [Covers]; decide +kernel⟩

/-- Atomics, by lane 31: one location, which reads what was there. -/
theorem test_witness_Atomics : ∀ c ∈ ([.atom, .atomCas] : List (M64 → Instr)),
    let o : M64 := ⟨0, 0, 0, 0, 0, 1, 0, 2, 2, 0, 63⟩
    Meets (c o) (held lane31) lane31 fun e =>
      let w := walk (accAtom.wide 4) (memAddr (s0.ctx e.g.ctx) e.g o) (held lane31) e
      let got := ((w.s.beatTwice (w.ok.map Prod.snd) 4).atomLanes 1 0 4 (dataLane e.g.frame 2 1 4) (e.g.frame.badRun 2 1) w.ok).1
      let got' := ((w.s.beatLocs (w.ok.map Prod.snd) 4).casLanes 1 4 (dataLane e.g.frame 2 1 4) (dataLane e.g.frame 3 1 4) (e.g.frame.badRun 3 1) w.ok).1
      Here (accAtom.wide 4) 4 [0, 1] (memAddr (s0.ctx e.g.ctx) e.g o) (held lane31) e w.ok w.s ∧ RoomFor e.g [63] [] [] ∧ InMemory w.s w.ok ∧
        w.s.mem.wf = true ∧ w.ok = [(31, ⟨0x080000100000, 0, none, false, 17⟩)] ∧ (∀ r ∈ got, (0, false) = r.2) ∧
        ∀ r ∈ got', (0, false) = (r.2.1, r.2.2 || e.g.frame.badRun 2 1 r.1) := by
  intro c hc
  simp only [List.mem_cons, List.not_mem_nil, or_false] at hc
  rcases hc with rfl | rfl <;>
    exact meetsHeld (by decide +kernel) ⟨isHere (by decide +kernel) (by decide +kernel) (by decide +kernel), roomFor_env _ _ _ rfl,
      inMemory (by decide +kernel), by decide +kernel, by decide +kernel, by decide +kernel, by decide +kernel⟩

/-- A group whose v0 and v1 hold the address of page 5, at landing 1, v2 a value, v4 and v5 that address plus 64 (a counter), and v6 and v7 the
address of page 3, of kind keyed. -/
def posting : Group := { holding g0 [(0, 0xA0000), (2, 1), (4, 0xA0040), (6, 0x60000)] with active := 0x80000001 }

/-- PostedOperations: ST.P without and with a counter, RED.P, and RED.K. -/
theorem test_witness_PostedOperations :
    let o : M64 := ⟨0, 0, 0, 0, 0, 0, 0, 2, 2, 0, 0⟩
    let oc : M64 := ⟨0, 0, 0, 0, 0, 0, 0, 2, 2, 0, 4⟩
    let ok : M64 := ⟨0, 0, 0, 0, 0, 0, 0, 2, 2, 6, 2⟩
    let posted (i : Instr) (o : M64) (a : Access) (regs : List Nat) : Prop := Meets i (held posting) posting fun e =>
      let w := walk (a.wide 4) (memAddr (s0.ctx e.g.ctx) e.g o) (held posting) e
      Room e.g ∧ Checked (a.wide 4) 4 regs (memAddr (s0.ctx e.g.ctx) e.g o) (held posting) e w.ok w.s ∧ ∀ x ∈ w.ok, x.2.peer = none
    posted (.stP o) o accPost [0, 1] ∧ posted (.redP o) o accPost [0, 1] ∧ posted (.redK ok) ok accKeyed [6, 7, 2] ∧
    Meets (.stP oc) (held posting) posting fun e =>
      let w := walk (accPost.wide 4) (memAddr (s0.ctx e.g.ctx) e.g oc) (held posting) e
      let cva := ctrAddr (s0.ctx e.g.ctx) e.g oc
      let r := w.s.translateLanes e.g.l e.g.ctx (accPost.wide 8) ((lanesOf e.act).map fun l => (l, cva l))
      Room e.g ∧ Checked (accPost.wide 4) 4 [0, 1] (memAddr (s0.ctx e.g.ctx) e.g oc) (held posting) e w.ok w.s ∧
        (∀ r ∈ addrRegs false 4, ∀ l, e.act.getLsbD l = true → e.g.frame.bad r l = false) ∧
        (∀ l, e.act.getLsbD l = true → cva l < 2 ^ 56 ∧ cva l % 8 = 0) ∧ r.refused = [] ∧ r.missing = [] ∧
        ∀ x ∈ w.ok, ∀ c ∈ r.ok, x.1 = c.1 → x.2.site = c.2.site := by
  refine ⟨meetsHeld (by decide +kernel) ⟨room_env rfl, checked (by decide +kernel), by decide +kernel⟩,
    meetsHeld (by decide +kernel) ⟨room_env rfl, checked (by decide +kernel), by decide +kernel⟩,
    meetsHeld (by decide +kernel) ⟨room_env rfl, checked (by decide +kernel), by decide +kernel⟩,
    meetsHeld (by decide +kernel) ⟨room_env rfl, checked (by decide +kernel), ?_, lanes (by decide +kernel), by decide +kernel, by decide +kernel, by decide +kernel⟩⟩
  intro r hr
  simp only [addrRegs, Bool.false_eq_true, if_false, List.mem_cons, List.not_mem_nil, or_false] at hr
  rcases hr with rfl | rfl <;> exact lanes (by decide +kernel)

/-- AddressChecks: addresses whose register is poisoned, one at 2 ^ 56, and one that is not aligned, for each instruction with its operands. -/
theorem test_witness_AddressChecks : ∀ c ∈ ([.ld, .ldL, .st, .atom, .atomCas, .stP, .redP, .redK, .cwait, .migrate] : List (M64 → Instr)),
    let o : M64 := ⟨0, 0, 0, 0, 0, 0, 0, 2, 2, 0, 0⟩
    Meets (c o) (held poisoned) poisoned (fun e => e.g.carried = none ∧ ((held poisoned).setGroup e.g).sideBusy e.g.uid = false ∧
      FirstPoison e.g.frame e.act [0, 1] 0 0) ∧
    Meets (c o) (held (holding g0 [(1, 0x01000000)])) (holding g0 [(1, 0x01000000)]) (fun e =>
      Fails e.act [⟨[0, 1], 4, memAddr (s0.ctx e.g.ctx) e.g o⟩] (fun _ v => 2 ^ 56 ≤ v) (-1) (2 ^ 56)) ∧
    Meets (c o) (held (holding g0 [(0, 1)])) (holding g0 [(0, 1)]) fun e =>
      Fails e.act [⟨[0, 1], 4, memAddr (s0.ctx e.g.ctx) e.g o⟩] (fun x v => v % x.align ≠ 0) (-1) 1 := by
  intro c hc o
  have hr (g : Group) (h : (([.ld, .ldL, .st, .atom, .atomCas, .stP, .redP, .redK, .cwait, .migrate] : List (M64 → Instr)).all fun c => ready (c o) (held g) g) = true) :
      ready (c o) (held g) g = true := List.all_eq_true.mp h c hc
  have he (g : Group) (h : g.la = []) (h' : (g.guard 0) = -1) (hla : (c o).la = 0) (hg : (c o).g4 = 0) : (env (c o) g).g = g ∧ (env (c o) g).act = -1 := by
    exact ⟨by simp [env, Group.laStep, h, hla], by show g.guard (c o).g4 = -1; rw [hg]; exact h'⟩
  have hco : (c o).la = 0 ∧ (c o).g4 = 0 := by
    simp only [List.mem_cons, List.not_mem_nil, or_false] at hc
    rcases hc with rfl | rfl | rfl | rfl | rfl | rfl | rfl | rfl | rfl | rfl <;> exact ⟨rfl, rfl⟩
  have hf {g : Group} {bad : AddrOp → Nat → Prop} {addr : Nat} (h : ∀ l, l < 32 → memAddr (s0.ctx g.ctx) g o l = addr)
      (hb : bad ⟨[0, 1], 4, memAddr (s0.ctx g.ctx) g o⟩ addr) : Fails (-1) [⟨[0, 1], 4, memAddr (s0.ctx g.ctx) g o⟩] bad (-1) addr := by
    refine ⟨fun l => ⟨fun hl => ⟨hl, _, List.mem_singleton.mpr rfl, ?_⟩, fun hl => hl.1⟩, 0, by decide, by simp, [], _, [], rfl, ?_, ?_, by simp⟩
    · show bad _ (memAddr (s0.ctx g.ctx) g o l); rw [h l (BitVec.lt_of_getLsbD hl)]; exact hb
    · show bad _ (memAddr (s0.ctx g.ctx) g o 0); rw [h 0 (by omega)]; exact hb
    · exact (h 0 (by omega)).symm
  refine ⟨meetsHeld (hr _ (by decide +kernel)) ?_, meetsHeld (hr _ (by decide +kernel)) ?_, meetsHeld (hr _ (by decide +kernel)) ?_⟩
  · obtain ⟨h1, h2⟩ := he poisoned rfl (by decide +kernel) hco.1 hco.2
    rw [h1, h2]
    exact ⟨rfl, by decide +kernel, firstPoison _ _ 0 [1] (by decide +kernel) (by decide +kernel) (by simp)⟩
  · obtain ⟨h1, h2⟩ := he (holding g0 [(1, 0x01000000)]) rfl (by decide +kernel) hco.1 hco.2
    rw [h1, h2]
    exact hf (by decide +kernel) (by decide)
  · obtain ⟨h1, h2⟩ := he (holding g0 [(0, 1)]) rfl (by decide +kernel) hco.1 hco.2
    rw [h1, h2]
    exact hf (by decide +kernel) (by decide)

/-- The machine whose landing 0 has seen tide 9 and adoption 5 of every scope. -/
def tidal : State := s0.modLanding 0 fun x => { x with tideL := 9, adL := 5, tideM := 9, adM := 5, tideS := 9, adS := 5 }

/-- The machine whose landing 0 still holds close command 7. -/
def closing : State := s0.modLanding 0 fun x => { x with mn := { x.mn with closes := [⟨7, 1, [], none⟩] } }

/-- OrderingAndWaits: FENCE without a scope, at its issue, where the tide has passed the horizon, and where it has reached it;
CWAIT for a value that the counter has and for one it has not; MIGRATE; REDCLOSE at its issue, with no page, with the most, and
with one, and while a home holds its command and after. -/
theorem test_witness_OrderingAndWaits :
    let fence (k : BitVec 2) : Instr := .fence ⟨0, 0, 0, 0, 0, 0, k, 0, 0, 0, 0⟩
    let oc : M64 := ⟨0, 0, 0, 0, 0, 0, 0, 3, 4, 0, 0⟩
    let om : M64 := ⟨0, 0, 0, 0, 0, 0, 0, 0, 0, 0, 0⟩
    let close : M64 := ⟨0, 0, 0, 0, 0, 0, 0, 0, 2, 0, 0⟩
    let keyed (n : Nat) : Group := holding g0 [(0, 0x60000), (2, BitVec.ofNat 32 n)]
    Runs (fence 0) ∧ Runs (fence 3) ∧ g0.mark = none ∧
    (∃ s, Meets (fence 1) s { g0 with mark := some 4, horizon := 8 } fun e => Room e.g ∧ (s.setGroup e.g).sideBusy e.g.uid = false ∧
      (s.landing e.g.l).tide 1 = (9, 5) ∧ e.g.mark = some 4 ∧ 4 < 5 ∧ e.g.horizon < 9) ∧
    (∃ s, Meets (fence 2) s { g0 with mark := some 4, horizon := 9 } fun e => (s.landing e.g.l).tide 2 = (9, 5) ∧ e.g.mark = some 4 ∧ ¬(4 < 5 ∧ e.g.horizon < 9)) ∧
    (∀ v ∈ [0, 1], let g := { page6 with frame := page6.frame.setReg 4 (some ⟨.u v, 0⟩) }
      Meets (.cwait oc) (held g) g fun e => let w := walk accCwait (memAddr (s0.ctx e.g.ctx) e.g oc) (held g) e
        Here accCwait 8 [0, 1] (memAddr (s0.ctx e.g.ctx) e.g oc) (held g) e w.ok w.s ∧ Room e.g ∧
          ∀ x ∈ w.ok, (if v = 0 then (e.g.frame.pair 4 x.1).toNat = 0 else w.s.mem.num (w.s.mem.backing x.2 false) 8 < (e.g.frame.pair 4 x.1).toNat)) ∧
    (Meets (.migrate om) (held page6) page6 fun e => let w := walk accMigrate (memAddr (s0.ctx e.g.ctx) e.g om) (held page6) e
      Here accMigrate 1 [0, 1] (memAddr (s0.ctx e.g.ctx) e.g om) (held page6) e w.ok w.s ∧ Room e.g) ∧
    (∀ n ∈ [0, 65537], Meets (.redclose close) (held (keyed n)) (keyed n) fun e => e.g.mark = none ∧
      (∀ r ∈ [0, 1], e.g.frame.bad r (lowLane e.act) = false) ∧ memAddr (s0.ctx e.g.ctx) e.g close 0 % 0x20000 = 0 ∧
        (e.g.frame.lane 2 (lowLane e.act)).toNat = n ∧ (n = 0 ∨ 65536 < n)) ∧
    (Meets (.redclose close) (held (keyed 1)) (keyed 1) fun e => e.g.mark = none ∧ (∀ r ∈ [0, 1], e.g.frame.bad r (lowLane e.act) = false) ∧
      memAddr (s0.ctx e.g.ctx) e.g close 0 = 0x60000 ∧ (((held (keyed 1)).setGroup e.g).translatePages e.g.l e.g.ctx accClose 0x60000 1).toOption.isSome = true) ∧
    (∃ s, Meets (.redclose close) s { g0 with mark := some 8 } fun e => e.g.mark = some 8 ∧ ∀ x ∈ s.landings, ∀ c ∈ x.mn.closes, c.id ≠ 8) ∧
    ∃ s, Meets (.redclose close) s { g0 with mark := some 7 } fun e => e.g.mark = some 7 ∧ ∃ x ∈ s.landings, ∃ c ∈ x.mn.closes, c.id = 7 :=
  ⟨runs _ (by decide +kernel), runs _ (by decide +kernel), rfl,
    ⟨_, meetsIn tidal (by decide +kernel) ⟨room_env rfl, by decide +kernel, by decide +kernel, by decide +kernel, by decide, by decide +kernel⟩⟩,
    ⟨_, meetsIn tidal (by decide +kernel) ⟨by decide +kernel, by decide +kernel, by decide +kernel⟩⟩,
    fun v hv => by
      rw [List.mem_cons, List.mem_singleton] at hv
      rcases hv with rfl | rfl <;>
        exact meetsHeld (by decide +kernel) ⟨isHere (by decide +kernel) (by decide +kernel) (by decide +kernel), room_env rfl, by decide +kernel⟩,
    meetsHeld (by decide +kernel) ⟨isHere (by decide +kernel) (by decide +kernel) (by decide +kernel), room_env rfl⟩,
    fun n hn => by
      rw [List.mem_cons, List.mem_singleton] at hn
      rcases hn with rfl | rfl <;> exact meetsHeld (by decide +kernel) (by decide +kernel),
    meetsHeld (by decide +kernel) ⟨by decide +kernel, by decide +kernel, by decide +kernel, by decide +kernel⟩,
    ⟨_, meetsIn closing (by decide +kernel) ⟨by decide +kernel, by decide +kernel⟩⟩,
    ⟨_, meetsIn closing (by decide +kernel) ⟨by decide +kernel, by decide +kernel⟩⟩⟩

/-- The machine with a barrier object on page 6. -/
def barred (b : BarObj) : State := withBytes [(2, BitVec.ofNat 8 b.st), (3, BitVec.ofNat 8 b.e), (4, b.phase.setWidth 8)]

/-- BarrierObjects: objects in every state that the clauses tell apart, for a group that is alone in its team. -/
theorem test_witness_BarrierObjects :
    let o : M64 := ⟨0, 0, 0, 0, 0, 0, 0, 0, 2, 0, 63⟩
    let at_ (b : BarObj) (g : Group) : State := { barred b with groups := [g] }
    let look (s : State) (e : Env) : Loc × State := found accBar (memOp (s.ctx e.g.ctx) e.g o 64) s e
    let base (s : State) (e : Env) : Prop := OneHere accBar (memOp (s.ctx e.g.ctx) e.g o 64) s e (look s e).1 (look s e).2 ∧ e.g.sibling = false ∧
      ∀ ds, RoomFor e.g ds [] []
    let fresh : BarObj := ⟨0, 1, 1, 0, 0, false⟩
    let check (s : State) (e : Env) (init arriving : Bool) : Option Nat :=
      barCheck (look s e).2 e.g (look s e).1.pa ((look s e).2.mem.bar (look s e).1.pa) init arriving
    (∀ c ∈ ([.barArrive, .barWait, .barSync] : List (M64 → Instr)), Meets (c o) (at_ ⟨0, 3, 1, 0, 0, false⟩ page6) page6 fun e =>
      base (at_ ⟨0, 3, 1, 0, 0, false⟩ page6) e ∧ check (at_ ⟨0, 3, 1, 0, 0, false⟩ page6) e false true = some 1) ∧
    (∀ k ∈ [1, 128], let g := { page6 with frame := page6.frame.setReg 2 (some ⟨.u (BitVec.ofNat 32 k), 0⟩) }
      Meets (.barInit o) (at_ fresh g) g fun e => base (at_ fresh g) e ∧ check (at_ fresh g) e true false = none ∧
        (e.g.frame.lane 2 (lowLane e.act)).toNat = k ∧ e.g.team < 65536 ∧ ((look (at_ fresh g) e).2.team? e.g.ctx e.g.tag e.g.team).isSome = true) ∧
    (∀ st ∈ [1, 2], ∀ c ∈ ([.barArrive] : List (M64 → Instr)), Meets (c o) (at_ ⟨0, st, 1, 0, 0, false⟩ page6) page6 fun e =>
      base (at_ ⟨0, st, 1, 0, 0, false⟩ page6) e ∧ check (at_ ⟨0, st, 1, 0, 0, false⟩ page6) e false true = none ∧ e.g.progIdx ≠ 1 ∧
        ((look (at_ ⟨0, st, 1, 0, 0, false⟩ page6) e).2.mem.bar (look (at_ ⟨0, st, 1, 0, 0, false⟩ page6) e).1.pa).st = st) ∧
    (∀ b ∈ ([⟨0, 1, 1, 0, 0, false⟩, ⟨0, 2, 2, 0, 0, false⟩] : List BarObj), Meets (.barSync o) (at_ b page6) page6 fun e =>
      base (at_ b page6) e ∧ check (at_ b page6) e false true = none ∧ e.g.progIdx ≠ 1) ∧
    (∀ p ∈ [0, 1], Meets (.barSync o) (at_ ⟨0, 1, 2, p, 0, false⟩ { page6 with progIdx := 1 }) { page6 with progIdx := 1 } fun e =>
      base (at_ ⟨0, 1, 2, p, 0, false⟩ { page6 with progIdx := 1 }) e ∧ check (at_ ⟨0, 1, 2, p, 0, false⟩ { page6 with progIdx := 1 }) e false false = none ∧
        e.g.progIdx = 1 ∧ e.g.frame.lane 63 (lowLane e.act) = 0) ∧
    (∀ x ∈ ([(1, 1), (2, 3), (2, 1)] : List (Nat × BitVec 128)), ∃ (b : BarObj) (arr : BitVec 128), b = ⟨0, 1, x.1, 0, 0, false⟩ ∧ arr = b.arrived ||| 1 <<< page6.rank ∧
      (decide (count128 arr = b.e), decide (count128 (x.2 &&& ~~~arr) + count128 arr < b.e)) =
        if x = (1, 1) then (true, false) else if x = (2, 3) then (false, false) else (false, true)) ∧
    ∀ p ∈ [0, 1], ∀ st ∈ [1, 2], (st = 2 → p = 0) → Meets (.barWait o) (at_ ⟨0, st, 1, p, 0, false⟩ page6) page6 fun e =>
      base (at_ ⟨0, st, 1, p, 0, false⟩ page6) e ∧ check (at_ ⟨0, st, 1, p, 0, false⟩ page6) e false false = none ∧
        e.g.frame.lane 2 (lowLane e.act) = 1 ∧ (look (at_ ⟨0, st, 1, p, 0, false⟩ page6) e).2.mem.bar 0x080000100000 = ⟨0, st, 1, p, 0, false⟩ := by
  refine ⟨fun c hc => ?_, fun k hk => ?_, fun st hst c hc => ?_, fun b hb => ?_, fun p hp => ?_, fun x hx => ⟨_, _, rfl, rfl, ?_⟩, fun p hp st hst hps => ?_⟩
  · simp only [List.mem_cons, List.not_mem_nil, or_false] at hc
    rcases hc with rfl | rfl | rfl <;>
      exact meetsIn (barred _) (by decide +kernel) ⟨⟨isOneHere (by decide +kernel) (by decide +kernel), by decide +kernel, fun _ => roomFor_env _ _ _ rfl⟩, by decide +kernel⟩
  · simp only [List.mem_cons, List.not_mem_nil, or_false] at hk
    rcases hk with rfl | rfl <;>
      exact meetsIn (barred _) (by decide +kernel) ⟨⟨isOneHere (by decide +kernel) (by decide +kernel), by decide +kernel, fun _ => roomFor_env _ _ _ rfl⟩, by decide +kernel⟩
  · simp only [List.mem_cons, List.not_mem_nil, or_false] at hc hst
    rcases hst with rfl | rfl <;> rcases hc with rfl <;>
      exact meetsIn (barred _) (by decide +kernel) ⟨⟨isOneHere (by decide +kernel) (by decide +kernel), by decide +kernel, fun _ => roomFor_env _ _ _ rfl⟩, by decide +kernel⟩
  · simp only [List.mem_cons, List.not_mem_nil, or_false] at hb
    rcases hb with rfl | rfl <;>
      exact meetsIn (barred _) (by decide +kernel) ⟨⟨isOneHere (by decide +kernel) (by decide +kernel), by decide +kernel, fun _ => roomFor_env _ _ _ rfl⟩, by decide +kernel⟩
  · simp only [List.mem_cons, List.not_mem_nil, or_false] at hp
    rcases hp with rfl | rfl <;>
      exact meetsIn (barred _) (by decide +kernel) ⟨⟨isOneHere (by decide +kernel) (by decide +kernel), by decide +kernel, fun _ => roomFor_env _ _ _ rfl⟩, by decide +kernel⟩
  · simp only [List.mem_cons, List.not_mem_nil, or_false] at hx
    rcases hx with rfl | rfl | rfl <;> decide +kernel
  · simp only [List.mem_cons, List.not_mem_nil, or_false] at hp hst
    rcases hst with rfl | rfl <;> rcases hp with rfl | rfl <;>
      first
      | exact absurd (hps rfl) (by decide)
      | exact meetsIn (barred _) (by decide +kernel) ⟨⟨isOneHere (by decide +kernel) (by decide +kernel), by decide +kernel, fun _ => roomFor_env _ _ _ rfl⟩, by decide +kernel⟩

/-- Continuations: PARK with the least extent, which is too small, and with enough, on page 6 and in a peer module; WAKE of an image that is not armed, of one that
fails a check, and of one that passes. -/
theorem test_witness_Continuations :
    let o : M64 := ⟨0, 0, 0, 0, 0, 0, 0, 0, 2, 0, 63⟩
    let op (s : State) (e : Env) : AddrOp := memOp (s.ctx e.g.ctx) e.g o 64
    let h (s : State) (e : Env) : Group := { (s.setGroup e.g).ship (e.g.advance (.park o)) e.m (srcsOf e.g (.park o)).v (srcsOf e.g (.park o)).p (srcsOf e.g (.park o)).h with armed := false, la := [] }
    let parking (n a : Nat) : Group := holding g0 [(0, BitVec.ofNat 32 a), (2, BitVec.ofNat 32 n)]
    let st (n a : Nat) : State := { spilling 16 with groups := [parking n a] }
    (∀ n ∈ [128, 2 ^ 20], ∀ a ∈ [0xC0000, 0xE0000], Meets (.park o) (st n a) (parking n a) fun e =>
      (e.g.frame.lane 2 (lowLane e.act)).toNat = n ∧
      OneAddr true accPark (op (st n a) e) (st n a) e (found accPark (op (st n a) e) (st n a) e).1 (found accPark (op (st n a) e) (st n a) e).2 ∧
        e.act = e.g.active ∧ ((st n a).setGroup e.g).ownPosts e.g = false ∧ e.g.older = [] ∧
        (n = 128 → n < imageRoom (h (st n a) e)) ∧ (n = 2 ^ 20 → imageRoom (h (st n a) e) ≤ n ∧
          (((found accPark (op (st n a) e) (st n a) e).2.translateLines e.g.l e.g.ctx accPark a (imageRoom (h (st n a) e) / 64)).toOption.map
              fun r => (r.1.map Loc.peer).head?) = some (some (if a = 0xC0000 then none else some 5)) ∧
          ((found accPark (op (st n a) e) (st n a) e).2.writeBlock (h (st n a) e)).toOption.isSome = true)) ∧
    ∀ xs ∈ ([[], [(27, 16)], [(27, 16), (60, 8)]] : List (List (Nat × Byte))), Meets (.wake o) { withBytes xs with groups := [page6] } page6 fun e =>
      let s : State := { withBytes xs with groups := [page6] }
      let r := found accWake (op s e) s e
      OneAddr false accWake (op s e) s e r.1 r.2 ∧ (∀ ds, RoomFor e.g ds [] []) ∧ r.2.ownPosts e.g = false ∧
        (r.2.mem.byte (r.1.pa + 27)).getLsbD 4 = !xs.isEmpty ∧
        ((r.2.imageAt e.g.l e.g.ctx ((op s e).va (lowLane e.act)) r.1).toOption.map fun y => y.2.2.imageCheck e.g.ctx false y.1) =
          some (if xs.length = 2 then none else some 1) := by
  refine ⟨fun n hn a ha => ?_, fun xs hx => ?_⟩
  · simp only [List.mem_cons, List.not_mem_nil, or_false] at hn ha
    rcases hn with rfl | rfl <;> rcases ha with rfl | rfl <;>
      exact meetsIn (spilling 16) (by decide +kernel) ⟨by decide +kernel, isOne (by decide +kernel), by decide +kernel, by decide +kernel, by decide +kernel, by decide +kernel⟩
  · simp only [List.mem_cons, List.not_mem_nil, or_false] at hx
    rcases hx with rfl | rfl | rfl <;>
      exact meetsIn (withBytes _) (by decide +kernel) ⟨isOne (by decide +kernel), fun _ => roomFor_env _ _ _ rfl, by decide +kernel⟩

/-- The machine with a queue of sixteen 4-byte entries on page 4, `n` of them filled. -/
def queueing (n : Nat) (stop : Bool) : State :=
  s0.modLanding 0 fun x => { x with queues := [⟨0, 0x0800000C0000, if stop then 0x100C4 else 0x10044, 0xFFFFFFFF, 0xFFFFFFFF + BitVec.ofNat 32 n, 0, 0, 0⟩] }

/-- Queues: a page that is no queue's, an entry of another size, and a queue that is empty, full, and stopped. -/
theorem test_witness_Queues :
    let o (size : BitVec 4) : M64 := ⟨0, 0, 0, 0, 0, 0, 0, size, 2, 0, 7⟩
    let g : Group := holding g0 [(0, 0x80000)]
    let op (size : BitVec 4) (s : State) (e : Env) : AddrOp := memOp (s.ctx e.g.ctx) e.g (o size) (sizeBytes size)
    let here (size : BitVec 4) (s : State) (e : Env) : Prop := OneHere accQueue (op size s e) s e (found accQueue (op size s e) s e).1 (found accQueue (op size s e) s e).2 ∧
      (∀ ds ps, RoomFor e.g ds ps []) ∧ (found accQueue (op size s e) s e).1.pageBits = 17
    let queue (size : BitVec 4) (s : State) (e : Env) : Option Queue :=
      (found accQueue (op size s e) s e).2.queueAt e.g.ctx ((found accQueue (op size s e) s e).1.pa / 0x20000 * 0x20000)
    ∀ c ∈ ([.qpush, .qpop] : List (M64 → Instr)),
      (Meets (c (o 2)) (held g) g fun e => here 2 (held g) e ∧ queue 2 (held g) e = none) ∧
      (Meets (c (o 3)) { queueing 0 false with groups := [g] } g fun e => here 3 { queueing 0 false with groups := [g] } e ∧
        (queue 3 { queueing 0 false with groups := [g] } e).map Queue.esb = some 4 ∧ 4 ≠ sizeBytes 3) ∧
      ∀ k ∈ [(0, false), (16, false), (1, true)], Meets (c (o 2)) { queueing k.1 k.2 with groups := [g] } g fun e => here 2 { queueing k.1 k.2 with groups := [g] } e ∧
        (queue 2 { queueing k.1 k.2 with groups := [g] } e).map (fun q => (q.esb, (q.tail - q.head).toNat, q.stop)) = some (4, k.1, k.2) := by
  intro o g op here queue c hc
  simp only [List.mem_cons, List.not_mem_nil, or_false] at hc
  refine ⟨?_, ?_, fun k hk => ?_⟩
  · rcases hc with rfl | rfl <;>
      exact meetsHeld (by decide +kernel) ⟨⟨isOneHere (by decide +kernel) (by decide +kernel), fun _ _ => roomFor_env _ _ _ rfl, by decide +kernel⟩, by decide +kernel⟩
  · rcases hc with rfl | rfl <;>
      exact meetsIn (queueing _ _) (by decide +kernel) ⟨⟨isOneHere (by decide +kernel) (by decide +kernel), fun _ _ => roomFor_env _ _ _ rfl, by decide +kernel⟩, by decide +kernel, by decide⟩
  · simp only [List.mem_cons, List.not_mem_nil, or_false] at hk
    rcases hc with rfl | rfl <;> rcases hk with rfl | rfl | rfl <;>
      exact meetsIn (queueing _ _) (by decide +kernel) ⟨⟨isOneHere (by decide +kernel) (by decide +kernel), fun _ _ => roomFor_env _ _ _ rfl, by decide +kernel⟩, by decide +kernel⟩

/-- A group in a trap handler whose v4 is the index of a register or a predicate, and whose previous frame lacks register 7 and predicate 7. -/
def looking (idx : Nat) (bad : Mask) (gmode : Word) : Group :=
  { handling [] with
    gmode := gmode, frame := (g0.frame.setReg 4 (some ⟨.u (BitVec.ofNat 32 idx), 0⟩)).setReg 5 (some ⟨.u 1, bad⟩)
    older := [{ (g0.frame.setReg 7 none).writePred (-1) 1 0xFF with tp := true }] }

/-- PreviousFrame: outside a trap, at depth 0, with the frame not resident, with a poisoned index, with an index at the limit, and with the
last index, of a register and a predicate that are absent, with and without DEADTRAP, and that are present. -/
theorem test_witness_PreviousFrame : ∀ c ∈ ([(.rdprev, 64), (.wrprev, 64), (.rdprevP, 8), (.wrprevP, 8)] : List ((T64 → Instr) × Nat)),
    let i : Instr := c.1 ⟨0, 0, 0, 0, 0, 0, 5, 4, 6⟩
    let idx (e : Env) (l : Nat) : Nat := (e.g.frame.lane 4 l).toNat
    Runs i ∧ g0.inTrap = false ∧
    (Meets i (held { handling [] with depth := 0 }) { handling [] with depth := 0 } fun e => e.g.inTrap = true ∧ e.g.depth = 0) ∧
    (Meets i (held { handling [] with older := [] }) { handling [] with older := [] } fun e => e.g.inTrap = true ∧ 0 < e.g.depth ∧ e.g.older = []) ∧
    (∀ k, k = c.2 ∨ k = 7 ∨ k = 1 → Meets i (held (looking k 0 0)) (looking k 0 0) fun e => e.g.inTrap = true ∧ 0 < e.g.depth ∧
      (∀ l, e.act.getLsbD l = true → e.g.frame.bad 4 l = false ∧ e.g.frame.bad 5 l = false ∧ (if k = c.2 then c.2 ≤ idx e l else idx e l < c.2)) ∧
      e.g.deadTrap = false ∧ RoomFor e.g [6] [] [] ∧ ∃ f rest, e.g.older = f :: rest ∧ f.fsz ≤ 64 ∧
        ((e.g.prevReg f 7).isNone && (f.p.getD 7 none).isNone && (e.g.prevReg f 1).isSome && (f.p.getD 1 none).isSome) = true) ∧
    (Meets i (held (looking 7 (-1) 4)) (looking 7 (-1) 4) fun e => e.g.inTrap = true ∧ 0 < e.g.depth ∧ e.g.deadTrap = true ∧
      (∀ l, e.act.getLsbD l = true → e.g.frame.bad 4 l = false) ∧ FirstPoison e.g.frame e.act [5] 5 0) := by
  intro c hc
  simp only [List.mem_cons, List.not_mem_nil, or_false] at hc
  rcases hc with rfl | rfl | rfl | rfl <;>
    refine ⟨runs _ (by decide +kernel), rfl, meetsHeld (by decide +kernel) (by decide +kernel), meetsHeld (by decide +kernel) (by decide +kernel),
      fun k hk => ?_, meetsHeld (by decide +kernel) ⟨by decide +kernel, by decide +kernel, by decide +kernel, lanes (by decide +kernel),
        firstPoison _ _ 5 [] (by decide +kernel) (by decide +kernel) (by simp)⟩⟩ <;>
    rcases hk with rfl | rfl | rfl <;>
    exact meetsHeld (by decide +kernel) ⟨by decide +kernel, by decide +kernel, lanes (by decide +kernel), by decide +kernel,
      by rw [RoomFor, Room]; decide +kernel, _, _, rfl, by decide +kernel, by decide +kernel⟩

/-- A group that is sibling 1 of its team's rank 0, split at depth 0, whose anchor is landing 0. -/
def sibling (older : List Frame) : Group := { g0 with sibling := true, sib := 1, sb := some 0, depth := 1, older := older }

/-- Exits: an EXIT of every lane and of half of them, of a context that is no sibling and of one that is; and JOIN in a sibling, with its older frames
resident and with none. -/
theorem test_witness_Exits :
    (∀ x ∈ ([(halved, 0), (halved, 9), (sibling [], 0)] : List (Group × BitVec 4)), Meets (.exit ⟨x.2, 0, 0, 0, 0⟩) (held x.1) x.1 fun e => Room e.g) ∧
    ((env (.exit ⟨9, 0, 0, 0, 0⟩) halved).act ≠ halved.active ∧ (env (.exit ⟨0, 0, 0, 0, 0⟩) halved).act = halved.active) ∧
    (∃ tm, s0.team? 1 0 0 = some tm ∧ ({ tm with exited := tm.exited.set 0 0xFFFF } : Team).rankLive 0 = true) ∧
    (∃ s, Meets (.join ⟨0, 0, 0, 0, 0⟩) s (sibling [g0.frame]) fun e => e.g.sibling = true ∧ (s.setGroup e.g).sideBusy e.g.uid = false ∧ e.g.anchor = e.g.l ∧ e.g.older ≠ []) ∧
    (∃ s, Meets (.ret ⟨0, 0, 0, 0, 0⟩) s { sibling [g0.frame] with sb := some 1 } fun e => e.act = e.g.active ∧ e.g.sb = some e.g.depth ∧ e.g.sibling = true ∧
      (s.setGroup e.g).sideBusy e.g.uid = false ∧ e.g.anchor = e.g.l ∧ e.g.older ≠ []) ∧
    ∃ s, Meets (.join ⟨0, 0, 0, 0, 0⟩) s (sibling []) fun e => e.g.sibling = true ∧ (s.setGroup e.g).sideBusy e.g.uid = false ∧ e.g.anchor = e.g.l ∧ e.g.older = [] ∧
      ((s.setGroup e.g).writeBlock e.g).toOption.isSome = true :=
  ⟨fun x hx => by
      simp only [List.mem_cons, List.not_mem_nil, or_false] at hx
      rcases hx with rfl | rfl | rfl <;> exact meetsHeld (by decide +kernel) (room_env rfl),
    ⟨by decide +kernel, by decide +kernel⟩, ⟨_, rfl, by decide +kernel⟩,
    ⟨_, meetsIn (spilling 11) (by decide +kernel) ⟨by decide +kernel, by decide +kernel, by decide +kernel, by decide +kernel⟩⟩,
    ⟨_, meetsIn (spilling 11) (by decide +kernel) ⟨by decide +kernel, by decide +kernel, by decide +kernel, by decide +kernel, by decide +kernel, by decide +kernel⟩⟩,
    ⟨_, meetsIn (spilling 11) (by decide +kernel) ⟨by decide +kernel, by decide +kernel, by decide +kernel, by decide +kernel, by decide +kernel⟩⟩⟩

/-- The machine with a second context in a state, and no landings. -/
def withCtx (st : Nat) : State := { s0 with ctxs := [placeCtx, { Ctx.free 2 with state := st }] }

/-- A group whose v0 and v1 hold a value and v2 the number of a context. -/
def naming (x : Nat) (n : Nat) : Group := holding g0 [(0, BitVec.ofNat 32 x), (2, BitVec.ofNat 32 n)]

/-- SystemRegisters: reads of the first and the last register, of a context that does not exist, and by a poisoned number; writes of every kind of register, to
contexts in each state, and by a poisoned value. -/
theorem test_witness_SystemRegisters :
    let mfs (ctl : BitVec 12) : Instr := .mfs ⟨ctl, 0, 0, 0, 0, 0, 2, 0, 62⟩
    let mts (ctl : BitVec 12) : Instr := .mts ⟨ctl, 1, 0, 0, 0, 0, 2, 0, 0⟩
    (Meets (.mfs ⟨0x900, 0, 0, 0, 0, 0, 0, 0, 62⟩) (held poisoned) poisoned fun e => PoisonLow e [0] 0) ∧
    (∃ s, Meets (mfs 0x900) s (naming 0 9) fun e => CleanLow e [2] ∧ s.liveCtx (e.lowWord 2) = false) ∧
    (Meets (mfs 0) (held g0) g0 fun e => CleanLow e [] ∧ 0 ∈ (sysTable (held g0) e.g ((held g0).ctx e.g.ctx)).map Prod.fst ∧ RoomFor e.g [62] [] []) ∧
    (∃ s, Meets (mfs 0x90E) s (naming 0 2) fun e => CleanLow e [2] ∧ s.liveCtx (e.lowWord 2) = true ∧
      0x10E ∈ (sysTable s e.g (s.ctx (e.lowWord 2))).map Prod.fst ∧ RoomFor e.g [62, 63] [] []) ∧
    (Meets (mts 0) (held poisoned) poisoned fun e => PoisonLow e [0] 0 ∧ Room e.g) ∧
    (∀ r ∈ [(0 : BitVec 12), 1, 5], ∀ x ∈ [255, 256], Meets (mts r) (held (naming x 0)) (naming x 0) fun e => CleanLow e [0] ∧ Room e.g ∧ e.lowWord 0 = x) ∧
    ∀ x ∈ [(0x105, 0, 0), (0x100, 0, 4), (0x100, 1, 3), (0x100, 1, 0x20), (0x100, 1, 4), (0x100, 1, 0), (0x100, 4, 0), (0x100, 2, 8), (0x100, 2, 4),
        (0x101, 2, 0), (0x10E, 3, 0), (0x103, 2, 0), (0x101, 1, 0)],
      Meets (mts (BitVec.ofNat 12 (0x800 + x.1))) { withCtx x.2.1 with groups := [naming x.2.2 2] } (naming x.2.2 2) fun e =>
        CleanLow e [0, 1, 2] ∧ Room e.g ∧ e.lowWord 2 = 2 ∧ e.lowPair 0 = x.2.2 ∧ ((withCtx x.2.1).ctx 2).state = x.2.1 ∧ (withCtx x.2.1).liveCtx 2 = (x.2.1 != 0) := by
  refine ⟨meetsHeld (by decide +kernel) ⟨by decide, by decide +kernel, by decide +kernel⟩,
    ⟨_, meetsIn (withCtx 2) (by decide +kernel) ⟨by rw [CleanLow]; decide +kernel, by decide +kernel⟩⟩,
    meetsHeld (by decide +kernel) ⟨by rw [CleanLow]; decide, by decide +kernel, roomFor_env _ _ _ rfl⟩,
    ⟨_, meetsIn (withCtx 2) (by decide +kernel) ⟨by rw [CleanLow]; decide +kernel, by decide +kernel, by decide +kernel, roomFor_env _ _ _ rfl⟩⟩,
    meetsHeld (by decide +kernel) ⟨⟨by decide, by decide +kernel, by decide +kernel⟩, room_env rfl⟩, fun r hr x hx => ?_, fun x hx => ?_⟩
  · simp only [List.mem_cons, List.not_mem_nil, or_false] at hr hx
    rcases hr with rfl | rfl | rfl <;> rcases hx with rfl | rfl <;>
      exact meetsHeld (by decide +kernel) ⟨by rw [CleanLow]; decide +kernel, room_env rfl, by decide +kernel⟩
  · simp only [List.mem_cons, List.not_mem_nil, or_false] at hx
    rcases hx with rfl | rfl | rfl | rfl | rfl | rfl | rfl | rfl | rfl | rfl | rfl | rfl | rfl <;>
      exact meetsIn (withCtx _) (by decide +kernel) ⟨by rw [CleanLow]; decide +kernel, room_env rfl, by decide +kernel⟩

/-- The machine with one live token of landing 0, and a copy of context 1 on its way to page 6. -/
def waiting (k : Nat) : State :=
  { s0.modLanding 0 fun x => { x with tokens := [⟨5, 0, 1, 0xC0000⟩] } with copies := if k = 1 then [⟨0, 1, 9, 0, false, [⟨loc6, [], [], none⟩], [], []⟩] else [] }

/-- Maintenance. -/
theorem test_witness_Maintenance :
    (∀ t ∈ [5, 6, 2 ^ 24], Meets (.replay ⟨0, 5, 0, 0, 0, 0, 0, 0, 6⟩) { waiting 0 with groups := [naming t 0] } (naming t 0) fun e =>
      CleanLow e [0] ∧ RoomFor e.g [6] [] [] ∧ e.lowWord 0 = t ∧ (({ waiting 0 with groups := [naming t 0] } : State).setGroup e.g).plainBusy e.g.uid = false) ∧
    (∃ s, Meets (.replayPage ⟨1, 5, 0, 0, 0, 0, 2, 0, 6⟩) s (naming 0xC0000 1) fun e => CleanLow e [0, 1, 2] ∧ RoomFor e.g [6] [] [] ∧
      (s.setGroup e.g).plainBusy e.g.uid = false ∧ (0, 5) ∈ (s.setGroup e.g).pageTokens (e.lowWord 2) (e.lowPair 0)) ∧
    (∀ c ∈ ([.tlbinvPage, .tlbinvCtx, .tlbinvAll] : List (T64 → Instr)), ∀ n ∈ [1, 9], ∀ f ∈ [none, some Flush.everything], ∀ k ∈ [0, 1],
      ready (c ⟨0, 6, 0, 0, 0, 0, 2, 0, 0⟩) { waiting k with groups := [{ naming 0xC0000 n with flush := f }] } { naming 0xC0000 n with flush := f } = true ∧
        (({ waiting k with groups := [{ naming 0xC0000 n with flush := f }] } : State).plainBusy 1 = false ∧ (waiting k).liveCtx n = (n == 1) ∧
          (waiting k).flushing 1 (some 1) Flush.everything = (k == 1))) ∧
    Runs (.idle ⟨0, 9, 0, 0, 0, 0, 0, 0, 0⟩) ∧ (∀ r ∈ [0, 1], ∀ l < 32, g0.frame.bad r l = false) :=
  ⟨fun t ht => by
      simp only [List.mem_cons, List.not_mem_nil, or_false] at ht
      rcases ht with rfl | rfl | rfl <;>
        exact meetsIn (waiting 0) (by decide +kernel) ⟨by rw [CleanLow]; decide +kernel, roomFor_env _ _ _ rfl, by decide +kernel, by decide +kernel⟩,
    ⟨_, meetsIn (waiting 0) (by decide +kernel) ⟨by rw [CleanLow]; decide +kernel, roomFor_env _ _ _ rfl, by decide +kernel, by decide +kernel⟩⟩,
    fun c hc n hn f hf k hk => by
      have h1 : List.all ([.tlbinvPage, .tlbinvCtx, .tlbinvAll] : List (T64 → Instr)) (fun c => [1, 9].all fun n => [none, some Flush.everything].all fun f => [0, 1].all fun k =>
        ready (c ⟨0, 6, 0, 0, 0, 0, 2, 0, 0⟩) { waiting k with groups := [{ naming 0xC0000 n with flush := f }] } { naming 0xC0000 n with flush := f }) = true := by decide +kernel
      refine ⟨List.all_eq_true.mp (List.all_eq_true.mp (List.all_eq_true.mp (List.all_eq_true.mp h1 c hc) n hn) f hf) k hk, ?_⟩
      exact (by decide +kernel : ∀ n ∈ [1, 9], ∀ f ∈ [none, some Flush.everything], ∀ k ∈ [0, 1],
        (({ waiting k with groups := [{ naming 0xC0000 n with flush := f }] } : State).plainBusy 1 = false ∧ (waiting k).liveCtx n = (n == 1) ∧
          (waiting k).flushing 1 (some 1) Flush.everything = (k == 1))) n hn f hf k hk,
    runs _ (by decide +kernel), by decide +kernel⟩

/-- The machine with a second context, RUNNING or in another state, of the landings of a mask. -/
def other (st : Nat) (lands : DWord) (parker : Option Nat) : State :=
  { s0 with ctxs := [placeCtx, { Ctx.free 2 with state := st, landMask := lands, parker := parker }] }

/-- ContextControl: PARKCTX and WAKECTX of the own context, of one that does not exist, of one that runs at no landing and at two, and of one that is parked; PARKCTX
while the other is parking and after. -/
theorem test_witness_ContextControl :
    (∀ x ∈ ([(1, 2, 0), (9, 2, 0), (2, 4, 3), (2, 2, 0), (2, 2, 3)] : List (Nat × Nat × DWord)), ∀ c ∈ ([.parkctx, .wakectx] : List (T64 → Instr)),
      Meets (c ⟨0, 7, 0, 0, 0, 0, 0, 0, 6⟩) { other x.2.1 x.2.2 none with groups := [naming x.1 0] } (naming x.1 0) fun e =>
        CleanLow e [0] ∧ RoomFor e.g [6] [] [] ∧ e.g.mark = none ∧ e.lowWord 0 = x.1 ∧ (other x.2.1 x.2.2 none).liveCtx x.1 = (x.1 != 9) ∧
          ((other x.2.1 x.2.2 none).ctx x.1).state = (if x.1 = 9 then 0 else x.2.1)) ∧
    (∀ p ∈ [some 1, none], Meets (.parkctx ⟨0, 7, 0, 0, 0, 0, 0, 0, 6⟩) { other 3 3 p with groups := [{ g0 with mark := some 2 }] } { g0 with mark := some 2 } fun e =>
      RoomFor e.g [6] [] [] ∧ e.g.mark = some 2 ∧ ((other 3 3 p).ctx 2).parker = p) := by
  refine ⟨fun x hx c hc => ?_, fun p hp => ?_⟩
  · simp only [List.mem_cons, List.not_mem_nil, or_false] at hx hc
    rcases hx with rfl | rfl | rfl | rfl | rfl <;> rcases hc with rfl | rfl <;>
      exact meetsIn (other _ _ _) (by decide +kernel) ⟨by rw [CleanLow]; decide +kernel, roomFor_env _ _ _ rfl, by decide +kernel, by decide +kernel, by decide +kernel, by decide +kernel⟩
  · simp only [List.mem_cons, List.not_mem_nil, or_false] at hp
    rcases hp with rfl | rfl <;> exact meetsIn (other _ _ _) (by decide +kernel) ⟨roomFor_env _ _ _ rfl, by decide +kernel, by decide +kernel⟩

/-- WAKECTX.GRP: no record; a record of a context that is PARKING, of one that runs with a bad image, of one that is PARKED, and of one that runs. -/
theorem test_witness_ContextControl_record :
    let recorded (n : Nat) (xs : List (Nat × Byte)) (st : Nat) : State :=
      { withBytes ([(0, BitVec.ofNat 8 n), (2, 1), (3, 1)] ++ xs) with
        ctxs := [placeCtx, { Ctx.free 2 with state := st }], teams := [⟨1, 0, 0, 0, 0, 0, 3, 1, [0], 1, [], [], []⟩, ⟨2, 0, 0, 0, 0, 0, 3, 1, [0], 1, [], [], []⟩] }
    let g : Group := holding g0 [(0, 0x100000), (1, 0x800)]
    let i : Instr := .wakectxGrp ⟨1, 8, 0, 0, 0, 0, 0, 0, 6⟩
    let what (s : State) (e : Env) : Bool × Nat × Option Nat :=
      let r := ParkRec.read (s.mem.bytes (e.lowPair 0) 64)
      ((s.target (home (e.lowPair 0)) (e.lowPair 0)).isMemory && (s.mem.byte (e.lowPair 0 + 3)).getLsbD 0 && r.reason == 1, (s.ctx r.ctx).state,
        (s.setGroup e.g).imageCheck r.ctx true ((s.setGroup e.g).poolImage (e.lowPair 0 + 64)))
    (Meets i (held g) g fun e => CleanLow e [0, 1] ∧ RoomFor e.g [6] [] [] ∧ ((held g).mem.byte (e.lowPair 0 + 3)).getLsbD 0 = false) ∧
    ∀ x ∈ ([(2, [], 3, some 1), (1, [], 0, some 1), (2, [(124, 8)], 4, none), (1, [(124, 8)], 0, none)] : List (Nat × List (Nat × Byte) × Nat × Option Nat)),
      Meets i { recorded x.1 x.2.1 x.2.2.1 with groups := [g] } g fun e =>
        CleanLow e [0, 1] ∧ what { recorded x.1 x.2.1 x.2.2.1 with groups := [g] } e = (true, if x.1 = 1 then 2 else x.2.2.1, x.2.2.2) := by
  intro recorded g i what
  refine ⟨meetsHeld (by decide +kernel) ⟨by rw [CleanLow]; decide +kernel, roomFor_env _ _ _ rfl, by decide +kernel⟩, fun x hx => ?_⟩
  simp only [List.mem_cons, List.not_mem_nil, or_false] at hx
  rcases hx with rfl | rfl | rfl | rfl <;> exact meetsIn (recorded _ _ _) (by decide +kernel) ⟨by rw [CleanLow]; decide +kernel, by decide +kernel⟩

/-- A group whose v0 and v1 hold a destination, v2 and v3 a source, and v4 a length, in lane 31. -/
def copying (dst src n : Nat) : Group :=
  { holding g0 [(0, BitVec.ofNat 32 dst), (2, BitVec.ofNat 32 src), (4, BitVec.ofNat 32 n)] with active := 0x80000000 }

/-- A group whose token 7 is of copy 3. -/
def tokened (dropped : Bool) : Group := { g0 with frame := { g0.frame with k := g0.frame.k.set 7 ⟨[3], dropped⟩ } }

/-- CopiesAndPages: ranges that overlap by a byte, ranges that meet, lengths of zero; the token's copy outstanding and not; CFILL; and PUBLISH. -/
theorem test_witness_CopiesAndPages :
    let o : T64 := ⟨0, 0, 0, 0, 0, 4, 2, 0, 7⟩
    let da (s : State) (e : Env) : AddrOp := kOp (s.ctx e.g.ctx) e.g false 0
    let sa (s : State) (e : Env) : AddrOp := kOp (s.ctx e.g.ctx) e.g false 2
    let rs (s : State) (e : Env) : List (Nat × Nat × Nat × Nat) := ((lanesOf e.act).filter fun l => e.g.frame.lane 4 l != 0).map fun l =>
      (l, (sa s e).va l, (da s e).va l, (e.g.frame.lane 4 l).toNat)
    let clean (s : State) (e : Env) : Prop := Room e.g ∧ (s.setGroup e.g).sideBusy e.g.uid = false ∧
      ∀ r ∈ [0, 1, 2, 3, 4], ∀ l, e.act.getLsbD l = true → e.g.frame.bad r l = false
    (∀ x ∈ ([(.copy, accCopyDst, 0xC0040), (.copyS, accCopyS, 0x40000)] : List ((T64 → Instr) × Access × Nat)),
      (Meets (x.1 o) (held (copying 0xC0000 0xC0001 2)) (copying 0xC0000 0xC0001 2) fun e => clean (held (copying 0xC0000 0xC0001 2)) e ∧
        ∃ m : Mask, m ≠ 0 ∧ rs (held (copying 0xC0000 0xC0001 2)) e = [(31, 0xC0001, 0xC0000, 2)] ∧ ∀ l, m.getLsbD l = true ↔ l = 31) ∧
      (Meets (x.1 o) (held (copying x.2.2 0xC0000 0)) (copying x.2.2 0xC0000 0) fun e => clean (held (copying x.2.2 0xC0000 0)) e ∧ rs (held (copying x.2.2 0xC0000 0)) e = []) ∧
      Meets (x.1 o) (held (copying x.2.2 0xC0000 64)) (copying x.2.2 0xC0000 64) fun e => clean (held (copying x.2.2 0xC0000 64)) e ∧
        rs (held (copying x.2.2 0xC0000 64)) e = [(31, 0xC0000, x.2.2, 64)] ∧
        (((held (copying x.2.2 0xC0000 64)).setGroup e.g).copyPages e x.2.1 [(31, 0xC0000, x.2.2, 64)]).2.1.isEmpty = true ∧
        ∀ l < 64, ((held (copying x.2.2 0xC0000 64)).landing l).fills.length < 256) ∧
    (∀ x ∈ ([(false, true, true), (false, false, false), (true, true, false)] : List (Bool × Bool × Bool)), ∀ c ∈ ([.twait, .tpoll] : List (T64 → Instr)),
      let s : State := { s0 with copies := if x.2.1 then [⟨3, 1, 1, 0, false, [], [], []⟩] else [] }
      Meets (c ⟨0, 2, 0, 0, 0, 63, 0, 0, 7⟩) { s with groups := [tokened x.1] } (tokened x.1) fun e => Room e.g ∧ RoomFor e.g [63] [] [] ∧
        (x.2.2 = true ↔ (e.g.frame.k.getD 7 Token.complete).dropped = false ∧ ∃ c ∈ (e.g.frame.k.getD 7 Token.complete).copies, c ∈ s.copies.map Copy.id)) ∧
    (Meets (.cfill ⟨0, 4, 0, 0, 0, 62, 0, 0, 0⟩) (held page6) page6 fun e => RoomFor e.g [62, 63] [] [] ∧
      Checked accCfill 1 [0, 1] (da (held page6) e).va (held page6) e (walk accCfill (da (held page6) e).va (held page6) e).ok (walk accCfill (da (held page6) e).va (held page6) e).s) ∧
    Meets (.publish ⟨0, 5, 0, 0, 0, 0, 0, 0, 0⟩) (held (copying 0x40000 0 0)) (copying 0x40000 0 0) fun e => Room e.g ∧
      ((held (copying 0x40000 0 0)).setGroup e.g).sideBusy e.g.uid = false ∧ (∀ r ∈ [0, 1], e.g.frame.bad r (lowLane e.act) = false) ∧
      (da (held (copying 0x40000 0 0)) e).va (lowLane e.act) = 0x40000 ∧
      ((((held (copying 0x40000 0 0)).setGroup e.g).translate e.g.l e.g.ctx 0x40000 accPublish).toOption.map fun r => r.1.peer) = some none := by
  intro o da sa rs clean
  refine ⟨fun x hx => ?_, fun x hx c hc => ?_, meetsHeld (by decide +kernel) ⟨roomFor_env _ _ _ rfl, checked (by decide +kernel)⟩,
    meetsHeld (by decide +kernel) ⟨room_env rfl, by decide +kernel, by decide +kernel, by decide +kernel, by decide +kernel⟩⟩
  · have cl {act : Mask} {f : Frame} (h : ∀ r ∈ [0, 1, 2, 3, 4], ∀ l < 32, f.bad r l = false) :
        ∀ r ∈ [0, 1, 2, 3, 4], ∀ l, act.getLsbD l = true → f.bad r l = false := fun r hr => lanes fun l hl _ => h r hr l hl
    simp only [List.mem_cons, List.not_mem_nil, or_false] at hx
    rcases hx with rfl | rfl <;>
      exact ⟨meetsHeld (by decide +kernel) ⟨⟨room_env rfl, by decide +kernel, cl (by decide +kernel)⟩, 0x80000000, by decide, by decide +kernel, fun l => by
          constructor
          · intro h
            have := BitVec.lt_of_getLsbD h
            revert h; revert l; decide
          · rintro rfl; decide⟩,
        meetsHeld (by decide +kernel) ⟨⟨room_env rfl, by decide +kernel, cl (by decide +kernel)⟩, by decide +kernel⟩,
        meetsHeld (by decide +kernel) ⟨⟨room_env rfl, by decide +kernel, cl (by decide +kernel)⟩, by decide +kernel, by decide +kernel, by decide +kernel⟩⟩
  · simp only [List.mem_cons, List.not_mem_nil, or_false] at hx hc
    rcases hx with rfl | rfl | rfl <;> rcases hc with rfl | rfl <;>
      exact meetsIn { s0 with copies := _ } (by decide +kernel) ⟨room_env rfl, roomFor_env _ _ _ rfl, by decide +kernel⟩

theorem ok_toOption {ε α : Type} {x : Except ε α} {a : α} (h : x.toOption = some a) : x = .ok a := by
  cases x with
  | error _ => simp [Except.toOption] at h
  | ok b => simp [Except.toOption] at h; rw [h]

/-- A dense tensor of one level and four elements of 4 bytes, on page 6. -/
def dense : BitVec 256 := 1 <<< 4 ||| 4 <<< 16 ||| 0xC0000 <<< 168

/-- A group that holds the handle `x` in h7, and an index in v2 and v3, in lane 31. -/
def tensoring (x : BitVec 256) (idx : Nat) : Group :=
  let g := holding g0 [(0, 0xC0000), (2, BitVec.ofNat 32 idx)]
  { g with active := 0x80000000, frame := { g.frame with h := g.frame.h.set 7 (some x) } }

/-- The machine with words of memory poisoned. -/
def spoiled (ws : List Nat) : State := { s0 with mem := { s0.mem with poison := ws } }

/-- TensorsAndHandles, the handles: HSET of each field, with an address of 56 bits and one above; HGET of each; HLOAD of bytes that are sound and of bytes that are poisoned. -/
theorem test_witness_TensorsAndHandles :
    (∀ k ∈ [0, 1, 2, 3, 6], Meets (.hset ⟨BitVec.ofNat 12 k, 0, 0, 0, 0, 0, 0, 0, 7⟩) (held page6) page6 fun e => RoomFor e.g [] [] [7] ∧ CleanLow e [0]) ∧
    (∀ k ∈ [4, 5], ∀ x ∈ [(0x00FFFFFF : Word), 0x01000000], Meets (.hset ⟨BitVec.ofNat 12 k, 0, 0, 0, 0, 0, 0, 0, 7⟩) (held (holding g0 [(1, x)])) (holding g0 [(1, x)]) fun e =>
      RoomFor e.g [] [] [7] ∧ CleanLow e [0, 1] ∧ (decide ((e.g.frame.pair 0 (lowLane e.act)).toNat < 2 ^ 56)) = (x == 0x00FFFFFF)) ∧
    (∀ k ∈ [0, 1, 2, 3, 4, 5], Meets (.hget ⟨BitVec.ofNat 12 k, 1, 0, 0, 0, 0, 0, 7, 62⟩) (held (tensoring dense 0)) (tensoring dense 0) fun e => RoomFor e.g [62, 63] [] []) ∧
    ∀ ws ∈ [[], [0x080000100000 / 16]], let s : State := { spoiled ws with groups := [page6] }
      Meets (.hload ⟨0, 2, 0, 0, 0, 0, 0, 0, 7⟩) s page6 fun e =>
        let op : AddrOp := ⟨[0, 1], 32, fun l => (e.g.frame.pair 0 l).toNat⟩
        let r := found accHload op s e
        RoomFor e.g [] [] [7] ∧ (s.setGroup e.g).ownPosts e.g = false ∧ OneAddr true accHload op s e r.1 r.2 ∧ r.1.peer = none ∧
          isControl (r.2.mem.backing r.1 false) = false ∧ r.2.mem.unreadable (r.2.mem.backing r.1 false) 32 = !ws.isEmpty := by
  refine ⟨fun k hk => ?_, fun k hk x hx => ?_, fun k hk => ?_, fun ws hw => ?_⟩
  · simp only [List.mem_cons, List.not_mem_nil, or_false] at hk
    rcases hk with rfl | rfl | rfl | rfl | rfl <;> exact meetsHeld (by decide +kernel) ⟨roomFor_env _ _ _ rfl, by rw [CleanLow]; decide +kernel⟩
  · simp only [List.mem_cons, List.not_mem_nil, or_false] at hk hx
    rcases hk with rfl | rfl <;> rcases hx with rfl | rfl <;>
      exact meetsHeld (by decide +kernel) ⟨roomFor_env _ _ _ rfl, by rw [CleanLow]; decide +kernel, by decide +kernel⟩
  · simp only [List.mem_cons, List.not_mem_nil, or_false] at hk
    rcases hk with rfl | rfl | rfl | rfl | rfl | rfl <;> exact meetsHeld (by decide +kernel) (roomFor_env _ _ _ rfl)
  · simp only [List.mem_cons, List.not_mem_nil, or_false] at hw
    rcases hw with rfl | rfl <;>
      exact meetsIn (spoiled _) (by decide +kernel) ⟨roomFor_env _ _ _ rfl, by decide +kernel, isOne (by decide +kernel), by decide +kernel⟩

/-- TensorsAndHandles, the elements: a handle that is not valid; the last element and the first index past it, by coordinates and by position. -/
theorem test_witness_TensorsAndHandles_elements :
    let tn := Tensor.of dense
    tn.bad = none ∧ tn.width = 4 ∧ tn.nlev = 1 ∧
    (∀ c ∈ ([.tpos, .tnext] : List (T64 → Instr)), Meets (c ⟨0, 6, 0, 0, 0, 7, 7, 2, 62⟩) (held (tensoring 0 3)) (tensoring 0 3) fun e =>
      (∀ r ∈ [2, 3], ∀ l, e.act.getLsbD l = true → e.g.frame.bad r l = false) ∧ ((held (tensoring 0 3)).setGroup e.g).sideBusy e.g.uid = false ∧
        ((held (tensoring 0 3)).setGroup e.g).ownPosts e.g = false ∧ (Tensor.of (e.g.frame.handle 7)).bad = some 1) ∧
    ∀ n ∈ [3, 4], ∀ ctl ∈ [(0 : BitVec 12), 0x10], ∀ c ∈ ([(.tld, accTld), (.tst, accTst)] : List ((T64 → Instr) × Access)),
      let o : T64 := ⟨ctl, 3, 0, 0, 0, 7, 7, 2, 63⟩
      let s := held (tensoring dense n)
      Meets (c.1 o) s (tensoring dense n) fun e =>
        let pos : Option Nat := if n < 4 then some n else none
        let found := (lanesOf e.act).filter fun _ => pos.isSome
        let w := ((s.setGroup e.g).indexed e.g ((lanesOf e.act).flatMap fun _ => [])).translateLanes e.g.l e.g.ctx (c.2.wide tn.width) (found.map fun l => (l, tn.vals + (pos.getD 0) * tn.width))
        RoomFor e.g [63] [7] [] ∧ Elems c.2 o tn s e w.ok w.s ∧ InMemory w.s w.ok ∧ w.s.mem.wf = true ∧
          (tn.locate ((s.setGroup e.g).index e.g) s.steps 31 (laneCoords e.g.frame tn 2 31)).toOption = some (pos, []) ∧
            (tn.count ((s.setGroup e.g).index e.g)).toOption = some (4, []) := by
  refine ⟨by decide +kernel, by decide +kernel, by decide +kernel, fun c hc => ?_, fun n hn ctl hl c hc => ?_⟩
  · have cl {act : Mask} {f : Frame} (h : ∀ r ∈ [2, 3], ∀ l < 32, f.bad r l = false) :
        ∀ r ∈ [2, 3], ∀ l, act.getLsbD l = true → f.bad r l = false := fun r hr => lanes fun l hl _ => h r hr l hl
    simp only [List.mem_cons, List.not_mem_nil, or_false] at hc
    rcases hc with rfl | rfl <;> exact meetsHeld (by decide +kernel) ⟨cl (by decide +kernel), by decide +kernel, by decide +kernel, by decide +kernel⟩
  · have el {acc : Access} {o : T64} {g : Group} {e : Env} {p : Option Nat} (hc : e.g.carried = none)
        (hr : TensorReady (held g) e (Tensor.of dense) (if o.ctl.getLsbD 4 then [o.a.toNat, o.a.toNat + 1] else coordRegs (Tensor.of dense) o.a.toNat)
          (if o.ctl.getLsbD 4 then [] else coordRegs (Tensor.of dense) o.a.toNat))
        (hp : ((lanesOf e.act).all fun l => (lanePos ((held g).setGroup e.g) e (Tensor.of dense) (o.ctl.getLsbD 4) o.a.toNat l).toOption == some (p, [])) = true)
        (hw : let w := (((held g).setGroup e.g).indexed e.g ((lanesOf e.act).flatMap fun _ => [])).translateLanes e.g.l e.g.ctx (acc.wide (Tensor.of dense).width) (((lanesOf e.act).filter fun _ => p.isSome).map fun l =>
            (l, (Tensor.of dense).vals + (p.getD 0) * (Tensor.of dense).width))
          (w.refused.isEmpty && w.missing.isEmpty && (w.ok.all fun x => x.2.peer.isNone && home x.2.pa == e.g.l) && !w.s.ownPosts e.g) = true) :
        let w := (((held g).setGroup e.g).indexed e.g ((lanesOf e.act).flatMap fun _ => [])).translateLanes e.g.l e.g.ctx (acc.wide (Tensor.of dense).width) (((lanesOf e.act).filter fun _ => p.isSome).map fun l =>
            (l, (Tensor.of dense).vals + (p.getD 0) * (Tensor.of dense).width))
        Elems acc o (Tensor.of dense) (held g) e w.ok w.s := by
      intro w
      simp only [Bool.and_eq_true, List.isEmpty_iff, List.all_eq_true, Option.isNone_iff_eq_none, beq_iff_eq, Bool.not_eq_true'] at hw
      refine ⟨.inr ⟨_, _, fun _ => p, fun _ => [], _, rfl, rfl, hc, hr, fun l hl => ok_toOption (by simpa using List.all_eq_true.mp hp l (Laws.mem_lanesOf.2 hl)), rfl, ?_⟩, hw.1.2, hw.2⟩
      have (v : Lanes) (h1 : v.refused = []) (h2 : v.missing = []) : v = ⟨v.ok, [], [], v.s⟩ := by cases v; simp_all
      exact this _ hw.1.1.1 hw.1.1.2
    have rd {g : Group} {e : Env} {tn : Tensor} {xs ys : List Nat} (h1 : ((held g).setGroup e.g).sideBusy e.g.uid = false) (h2 : ((held g).setGroup e.g).ownPosts e.g = false)
        (h3 : ∀ r ∈ xs, ∀ l < 32, e.g.frame.bad r l = false) (h4 : tn.bad = none) (h5 : e.g.rangeTrap ys = none) : TensorReady (held g) e tn xs ys :=
      ⟨h1, h2, fun r hr => lanes fun l hl _ => h3 r hr l hl, h4, h5⟩
    simp only [List.mem_cons, List.not_mem_nil, or_false] at hc hn hl
    rcases hn with rfl | rfl <;> rcases hl with rfl | rfl <;> rcases hc with rfl | rfl <;>
      exact meetsHeld (by decide +kernel) ⟨roomFor_env _ _ _ rfl,
        el (by decide +kernel) (rd (by decide +kernel) (by decide +kernel) (by decide +kernel) (by decide +kernel) (by decide +kernel)) (by decide +kernel) (by decide +kernel),
        inMemory (by decide +kernel), by decide +kernel, by decide +kernel, by decide +kernel⟩

/-- The operand of a merge descriptor at v0 and v1. -/
def descOp (e : Env) : AddrOp := ⟨[0, 1], 64, fun l => (e.g.frame.pair 0 l).toNat⟩

/-- The machine with a merge descriptor on page 6: four rows and columns, ROWPTR at page 6 from byte 256, output format `fmt`, one stream. -/
def described (fmt : Nat) : State := withBytes [(1, 1), (2, 12), (48, 4), (52, 4), (60, BitVec.ofNat 8 fmt)]

/-- The descriptor it holds. -/
def theDesc (fmt : Nat) : MergeDesc := ⟨0xC0100, 0, 0, 0, 0, 0, 4, 4, 0, BitVec.ofNat 32 fmt⟩

/-- The descriptor has been read by `e` from `s`, as its statement asks. -/
def descOk (s : State) (e : Env) (low : List Nat) (fmt : Nat) : Bool :=
  let r := found accEngR (descOp e) s e
  let pa := r.2.mem.backing r.1 false
  oneOk accEngR (descOp e) s e && ((0 :: 1 :: low).all fun q => !e.g.frame.bad q (lowLane e.act)) && !isControl pa && decide (home r.1.pa < 64) &&
    !r.2.mem.unreadable pa 64 && theDesc fmt == MergeDesc.ofBytes (toBytes 64 (r.2.mem.num pa 64)) && (theDesc fmt).bad.isNone

/-- The machine after it. -/
def descAfter (s : State) (e : Env) : State :=
  let r := found accEngR (descOp e) s e
  (r.2.beats [(r.2.mem.backing r.1 false, 64)]).sense (r.2.mem.backing r.1 false) 64

theorem descRead {s : State} {e : Env} {low : List Nat} {fmt : Nat} (h : descOk s e low fmt = true) :
    DescRead s e 0 low (theDesc fmt) (found accEngR (descOp e) s e).1 (found accEngR (descOp e) s e).2 (descAfter s e) := by
  simp only [descOk, Bool.and_eq_true, Bool.not_eq_true', decide_eq_true_eq, beq_iff_eq, Option.isNone_iff_eq_none] at h
  obtain ⟨⟨⟨⟨⟨⟨h1, h2⟩, h3⟩, h4⟩, h5⟩, h6⟩, h7⟩ := h
  exact ⟨fun r hr => by simpa using List.all_eq_true.mp h2 r hr, isOne h1, h3, h4, h5, h6, h7, rfl⟩

/-- A session of context 1 in a state, of the descriptor on page 6, holding `n` tuples. -/
def sess (st n : Nat) : Session :=
  ⟨1, 1, theDesc 1, List.replicate 16 false, List.replicate n ⟨0, 0, 0, 0, false⟩, [], st, 0, 0, false, false, 0, 0, 0, 0, false, none, false, 0, false⟩

/-- The machine with sessions in the first slots of landing 0. -/
def merging (xs : List Session) : State := (described 1).modMN 0 fun (m : MergeNet) =>
  { m with slots := xs.map some ++ List.replicate (8 - xs.length) none, gens := List.replicate 8 1 }

/-- A new session in slot 0 of landing 0. -/
def newSession (fmt : Nat) : Session :=
  { ctx := 1, gen := 1, desc := theDesc fmt, sealed := List.replicate 16 false, held := [], runs := [], state := 1
    cause := 0, flags := 0, drop := false, poison := false, nextRow := 0, e := 0, need := 0, faultVA := 0
    rowDone := false, token := none, opening := fmt == 0, ending := 0, closing := false }

/-- MergeSessions: MGOPEN of either output format where a slot is free, and where none is; MGRESUME without a session, of a session that does not rest, and of
one that rests with the same descriptor and with another. -/
theorem test_witness_MergeSessions :
    (∀ fmt ∈ [0, 1], Meets (.mgopen ⟨0, 0, 0, 0, 0, 0, 0, 0, 63⟩) { described fmt with groups := [naming 0xC0000 65536] } (naming 0xC0000 65536) fun e =>
      let s : State := { described fmt with groups := [naming 0xC0000 65536] }
      let t := descAfter s e
      let t1 := t.modMN 0 fun (m : MergeNet) => { m with slots := m.slots.set 0 (some (newSession fmt)), gens := m.gens.set 0 1 }
      e.g.mark = none ∧ RoomFor e.g [63] [] [] ∧ DescRead s e 0 [] (theDesc fmt) (found accEngR (descOp e) s e).1 (found accEngR (descOp e) s e).2 t ∧
        home (found accEngR (descOp e) s e).1.pa = 0 ∧ (t.landing 0).mn.slots.getD 0 none = none ∧ (t.landing 0).mn.gens.getD 0 0 = 0 ∧
        (theDesc fmt).coo = (fmt == 1) ∧ t1.slotOf 65536 = some (newSession fmt) ∧
        ((match t1.emit 0 1 [((theDesc fmt).rowPtr.toNat, toBytes (theDesc fmt).pw 0, false)] with | .ok _ => true | _ => false) = true)) ∧
    (∃ s, Meets (.mgopen ⟨0, 0, 0, 0, 0, 0, 0, 0, 63⟩) s (naming 0xC0000 65536) fun e => descOk s e [] 1 = true ∧
      ∀ k < 8, ((descAfter s e).landing 0).mn.slots.getD k none ≠ none) ∧
    ∀ xs ∈ ([[], [sess 1 0], [sess 4 0], [{ sess 4 0 with desc := theDesc 0 }]] : List (List Session)), ∃ s,
      Meets (.mgresume ⟨0, 5, 0, 0, 0, 0, 2, 0, 0⟩) s (naming 0xC0000 65536) fun e => Room e.g ∧ descOk s e [2] 1 = true ∧
        (e.g.frame.lane 2 (lowLane e.act)).toNat = 65536 ∧ ((descAfter s e).session? 1 65536) = xs.head? := by
  refine ⟨fun fmt hf => ?_, ⟨_, meetsIn (merging (List.replicate 8 (sess 1 0))) (by decide +kernel) (by decide +kernel)⟩, fun xs hx => ?_⟩
  · simp only [List.mem_cons, List.not_mem_nil, or_false] at hf
    rcases hf with rfl | rfl <;>
      exact meetsIn (described _) (by decide +kernel) ⟨by decide +kernel, roomFor_env _ _ _ rfl, descRead (by decide +kernel), by decide +kernel, by decide +kernel,
        by decide +kernel, by decide +kernel, by decide +kernel, by decide +kernel⟩
  · simp only [List.mem_cons, List.not_mem_nil, or_false] at hx
    rcases hx with rfl | rfl | rfl | rfl
    · exact ⟨_, meetsIn (merging []) (by decide +kernel) ⟨room_env rfl, by decide +kernel⟩⟩
    · exact ⟨_, meetsIn (merging [sess 1 0]) (by decide +kernel) ⟨room_env rfl, by decide +kernel⟩⟩
    · exact ⟨_, meetsIn (merging [sess 4 0]) (by decide +kernel) ⟨room_env rfl, by decide +kernel⟩⟩
    · exact ⟨_, meetsIn (merging [{ sess 4 0 with desc := theDesc 0 }]) (by decide +kernel) ⟨room_env rfl, by decide +kernel⟩⟩

/-- That machine with a group in the berth. -/
def mergingWith (xs : List Session) (g : Group) : State := { merging xs with groups := [g] }

theorem meetsMerging {xs : List Session} {i : Instr} {g : Group} {P : Env → Prop} (h : ready i (mergingWith xs g) g = true) (hp : P (env i g)) :
    Meets i (mergingWith xs g) g P := meets (s := merging xs) h hp

/-- A group that pushes to session 0 of landing 0 in generation 1, at a batch, to a stream. -/
def pushing (k : Nat) (c : Word) : Group := { holding g0 [(4, 65536), (5, c)] with progIdx := k }

/-- The batches left to a push. -/
def batches (e : Env) : List (List Nat) :=
  (((List.range 4).map fun j => (lanesOf e.act).filter fun l => l / 8 == j).filter fun ls => !ls.isEmpty).drop e.g.progIdx

theorem sessionFails {s : State} {e : Env} {sid r : Nat} {stream : Option Nat} {states : List Nat} {xs : List Session}
    (h : ((s.setGroup e.g).session? e.g.ctx sid).toList = xs)
    (hc : (∀ x ∈ xs, ∀ c ∈ stream, let k := (e.g.frame.lane c (lowLane e.act)).toNat
        (x.desc.streams ≤ k ∧ r = 2) ∨ (k < x.desc.streams ∧ (x.sealed.getD k false = true ∧ r = 3 ∨ x.sealed.getD k false = false ∧ x.state ∉ states ∧ r = 4))) ∧
      (stream = none → ∀ x ∈ xs, x.state ∉ states ∧ r = 4) ∧ (xs = [] → r = 1)) : SessionFails s e sid stream states r := by
  unfold SessionFails
  cases hs : (s.setGroup e.g).session? e.g.ctx sid with
  | none => rw [hs] at h; exact .inl ⟨rfl, hc.2.2 h.symm⟩
  | some x =>
    rw [hs] at h; subst h
    refine .inr ⟨x, rfl, ?_⟩
    cases stream with
    | none => exact .inr ⟨by simp, .inr ⟨by simp, hc.2.1 rfl x (by simp)⟩⟩
    | some c =>
      rcases hc.1 x (by simp) c rfl with ⟨h1, h2⟩ | ⟨h0, ⟨h1, h2⟩ | ⟨h1, h2, h3⟩⟩
      · exact .inl ⟨⟨c, rfl, h1⟩, h2⟩
      · exact .inr ⟨fun d hd => by cases hd; exact h0, .inl ⟨⟨c, rfl, h1⟩, h2⟩⟩
      · exact .inr ⟨fun d hd => by cases hd; exact h0, .inr ⟨fun d hd => by cases hd; exact h1, h2, h3⟩⟩

/-- MergePush: each reason for which a session does not admit a batch; the first batch and the last. -/
theorem test_witness_MergePush :
    let i : Instr := .mgpush ⟨0, 1, 0, 0, 0, 5, 4, 0, 0⟩
    let base (s : State) (e : Env) : Prop := Room e.g ∧ (e.g.frame.lane 4 (lowLane e.act)).toNat = 65536 ∧ CleanLow e [4, 5] ∧
      (∀ r ∈ [0, 1, 3], ∀ l, e.act.getLsbD l = true → e.g.frame.bad r l = false) ∧ (s.setGroup e.g).plainBusy e.g.uid = false
    (∀ x ∈ ([([], 0, 1), ([sess 1 0], 1, 2), ([{ sess 1 0 with sealed := [true] }], 0, 3), ([sess 2 0], 0, 4)] : List (List Session × Word × Nat)),
      Meets i (mergingWith x.1 (pushing 0 x.2.1)) (pushing 0 x.2.1) fun e => base (mergingWith x.1 (pushing 0 x.2.1)) e ∧ batches e ≠ [] ∧
        SessionFails (mergingWith x.1 (pushing 0 x.2.1)) e 65536 (some 5) [1] x.2.2) ∧
    ∀ k ∈ [0, 3], let s := mergingWith [sess 1 2] (pushing k 0)
      Meets i s (pushing k 0) fun e => base s e ∧ SessionReady s e 4 (some 5) [1] 65536 (sess 1 2) ∧
      (batches e).length = 4 - k ∧ (s.landing 0).mn.held + 8 = 10 := by
  intro i base
  have cl {act : Mask} {f : Frame} (h : ∀ r ∈ [0, 1, 3], ∀ l < 32, f.bad r l = false) :
      ∀ r ∈ [0, 1, 3], ∀ l, act.getLsbD l = true → f.bad r l = false := fun r hr => lanes fun l hl _ => h r hr l hl
  refine ⟨fun x hx => ?_, fun k hk => ?_⟩
  · simp only [List.mem_cons, List.not_mem_nil, or_false] at hx
    rcases hx with rfl | rfl | rfl | rfl <;>
      exact meetsMerging (by decide +kernel) ⟨⟨room_env rfl, by decide +kernel, by rw [CleanLow]; decide +kernel, cl (by decide +kernel), by decide +kernel⟩,
        by decide +kernel, sessionFails rfl (by decide +kernel)⟩
  · simp only [List.mem_cons, List.not_mem_nil, or_false] at hk
    rcases hk with rfl | rfl <;>
      exact meetsMerging (by decide +kernel) ⟨⟨room_env rfl, by decide +kernel, by rw [CleanLow]; decide +kernel, cl (by decide +kernel), by decide +kernel⟩,
        ⟨by decide +kernel, by rw [CleanLow]; decide +kernel, by decide +kernel, by decide +kernel, by decide +kernel, by decide +kernel⟩, by decide +kernel⟩

/-- MergePush: the network holds as many tuples as its sessions do, so its run store can be without room for a batch. -/
theorem test_witness_MergePush_full (n : Nat) : (⟨[some (sess 1 n)], [], [], 0, false, 0, []⟩ : MergeNet).held = n := by
  simp [MergeNet.held, sess]

/-- MergeCommands: a session that is not there, sealed streams, states that do not admit; the last stream to be sealed, and one before it; waits for a session
that goes on, that rests, and that is gone; MGCLOSE between rows, in a row, and while it waits; MGSTAT.K. -/
theorem test_witness_MergeCommands :
    let o : T64 := ⟨0, 0, 0, 0, 0, 5, 4, 0, 60⟩
    let two (st : Nat) : Session := { sess st 0 with desc := { theDesc 1 with ctl := 0x101 } }
    (∀ c ∈ ([(.mgseal, some 5), (.mgwait, none), (.mgstat, none), (.mgclose, none)] : List ((T64 → Instr) × Option Nat)), let s := mergingWith [] (pushing 0 0)
      Meets (c.1 o) s (pushing 0 0) fun e => e.g.mark = none ∧ CleanLow e (4 :: c.2.toList) ∧ (s.setGroup e.g).plainBusy e.g.uid = false ∧ (e.g.frame.lane 4 (lowLane e.act)).toNat = 65536 ∧
        SessionFails s e 65536 c.2 [1] 1) ∧
    (∀ x ∈ ([(sess 1 0, 1, 2), ({ sess 1 0 with sealed := [true] }, 0, 3), (sess 2 0, 0, 4)] : List (Session × Word × Nat)), let s := mergingWith [x.1] (pushing 0 x.2.1)
      Meets (.mgseal o) s (pushing 0 x.2.1) fun e =>
      SessionFails s e 65536 (some 5) [1] x.2.2) ∧
    (∀ x ∈ [sess 1 0, two 1], let s := mergingWith [x] (pushing 0 0)
      Meets (.mgseal o) s (pushing 0 0) fun e => Room e.g ∧ SessionReady s e 4 (some 5) [1] 65536 x ∧
      (∀ j < x.desc.streams, (x.sealed.set 0 true).getD j false = true) = (x.desc.streams = 1)) ∧
    (∀ x ∈ [sess 2 0, sess 3 0], ∀ c ∈ ([.mgwait, .mgstat, .mgclose] : List (T64 → Instr)), let s := mergingWith [x] (pushing 0 0)
      Meets (c o) s (pushing 0 0) fun e =>
      (∀ ds, RoomFor e.g ds [] []) ∧ e.g.mark = none ∧ SessionReady s e 4 none [1, 2, 3, 4, 5] 65536 x) ∧
    (∀ xs ∈ [[], [sess 2 0], [sess 3 0]], ∀ c ∈ ([.mgwait, .mgclose] : List (T64 → Instr)), let s := mergingWith xs { pushing 0 0 with mark := some 65536 }
      Meets (c o) s { pushing 0 0 with mark := some 65536 } fun e =>
      (∀ ds, RoomFor e.g ds [] []) ∧ e.g.mark = some 65536 ∧ (s.setGroup e.g).session? e.g.ctx 65536 = xs.head? ∧ s.slotOf 65536 = xs.head?) ∧
    (∀ x ∈ [sess 2 0, { sess 2 0 with rowDone := true }], let s := mergingWith [x] (pushing 0 0)
      Meets (.mgclose o) s (pushing 0 0) fun e => Room e.g ∧ SessionReady s e 4 none [1, 2, 3, 4, 5] 65536 x ∧
      (s.setSlot 0 0 none).slotOf 65536 = none ∧ (s.setSlot 0 0 (some { x with closing := true, held := [] })).slotOf 65536 = some { x with closing := true, held := [] }) ∧
    Meets (.mgstatK o) (held page6) page6 fun e => (∀ ds, RoomFor e.g ds [] []) ∧
      let op : AddrOp := ⟨[0, 1], 1, fun l => (e.g.frame.pair 0 l).toNat⟩
      OneAddr true accEngR op (held page6) e (found accEngR op (held page6) e).1 (found accEngR op (held page6) e).2 := by
  intro o two
  have rdy {s : State} {e : Env} {st : Option Nat} {ss : List Nat} {x : Session} (h : ((e.g.frame.lane 4 (lowLane e.act)).toNat == 65536 &&
      ((4 :: st.toList).all fun r => !e.g.frame.bad r (lowLane e.act)) && !(s.setGroup e.g).plainBusy e.g.uid && (s.setGroup e.g).session? e.g.ctx 65536 == some x &&
      (st.toList.all fun c => decide ((e.g.frame.lane c (lowLane e.act)).toNat < x.desc.streams) && !x.sealed.getD (e.g.frame.lane c (lowLane e.act)).toNat false) &&
      ss.contains x.state) = true) : SessionReady s e 4 st ss 65536 x := by
    simp only [Bool.and_eq_true, beq_iff_eq, Bool.not_eq_true', decide_eq_true_eq, List.all_eq_true, List.contains_iff_mem] at h
    obtain ⟨⟨⟨⟨⟨h1, h2⟩, h3⟩, h4⟩, h5⟩, h6⟩ := h
    exact ⟨h1.symm, fun r hr => h2 r hr, h3, h4, fun c hc => h5 c (by simpa using hc), h6⟩
  refine ⟨fun c hc => ?_, fun x hx => ?_, fun x hx => ?_, fun x hx c hc => ?_, fun xs hx c hc => ?_, fun x hx => ?_, ?_⟩
  · simp only [List.mem_cons, List.not_mem_nil, or_false] at hc
    rcases hc with rfl | rfl | rfl | rfl <;>
      exact meetsMerging (by decide +kernel) ⟨by decide +kernel, by rw [CleanLow]; decide +kernel, by decide +kernel, by decide +kernel, .inl ⟨by decide +kernel, rfl⟩⟩
  · simp only [List.mem_cons, List.not_mem_nil, or_false] at hx
    rcases hx with rfl | rfl | rfl <;> exact meetsMerging (by decide +kernel) (sessionFails rfl (by decide +kernel))
  · simp only [List.mem_cons, List.not_mem_nil, or_false] at hx
    rcases hx with rfl | rfl <;> exact meetsMerging (by decide +kernel) ⟨room_env rfl, rdy (by decide +kernel), propext (by decide +kernel)⟩
  · simp only [List.mem_cons, List.not_mem_nil, or_false] at hx hc
    rcases hx with rfl | rfl <;> rcases hc with rfl | rfl | rfl <;>
      exact meetsMerging (by decide +kernel) ⟨fun _ => roomFor_env _ _ _ rfl, by decide +kernel, rdy (by decide +kernel)⟩
  · simp only [List.mem_cons, List.not_mem_nil, or_false] at hx hc
    rcases hx with rfl | rfl | rfl <;> rcases hc with rfl | rfl <;>
      exact meetsMerging (by decide +kernel) ⟨fun _ => roomFor_env _ _ _ rfl, by decide +kernel, by decide +kernel⟩
  · simp only [List.mem_cons, List.not_mem_nil, or_false] at hx
    rcases hx with rfl | rfl <;> exact meetsMerging (by decide +kernel) ⟨room_env rfl, rdy (by decide +kernel), by decide +kernel⟩
  · exact meetsHeld (by decide +kernel) ⟨fun _ => roomFor_env _ _ _ rfl, isOne (by decide +kernel)⟩

/-- The machine whose unit of core 0 of landing 0 has a holder, queued commands, and numbers of commands accepted and done. -/
def matrix (h : Option (Nat × Nat × Nat)) (q : List MOp) (acc don : Nat) : State :=
  { s0 with units := [{ MUnit.clear 0 0 with holder := h, queue := q.map fun op => ⟨op, 1, 0, []⟩, accepted := acc, done := don }] }

/-- The same with a group in the berth. -/
def matrixWith (h : Option (Nat × Nat × Nat)) (q : List MOp) (acc don : Nat) (g : Group) : State := { matrix h q acc don with groups := [g] }

theorem meetsMatrix {h : Option (Nat × Nat × Nat)} {q : List MOp} {acc don : Nat} {i : Instr} {g : Group} {P : Env → Prop}
    (hr : ready i (matrixWith h q acc don g) g = true) (hp : P (env i g)) : Meets i (matrixWith h q acc don g) g P := meets (s := matrix h q acc don) hr hp

/-- The team holds the unit, and registers are clean, as `MatrixReady` asks. -/
def unitOk (s : State) (e : Env) (regs : List Nat) : Bool :=
  !(s.setGroup e.g).plainBusy e.g.uid && !(s.setGroup e.g).lostClaim e.g && (s.unit e.g.l e.g.core).holder == some e.g.teamKey &&
    ((s.unit e.g.l e.g.core).queue.all fun c => !c.op.isRelease) && regs.all fun r => !e.g.frame.bad r (lowLane e.act)

theorem matrixReady {s : State} {e : Env} {regs : List Nat} (h : unitOk s e regs = true) : MatrixReady s e regs := by
  simp only [unitOk, Bool.and_eq_true, Bool.not_eq_true', beq_iff_eq, List.all_eq_true] at h
  obtain ⟨⟨⟨⟨h1, h2⟩, h3⟩, h4⟩, h5⟩ := h
  exact ⟨h1, h2, h3, h4, by simpa [CleanLow] using h5⟩

/-- MatrixClaims: a unit that is free, the team's, another team's and about to be released; MRELEASE with room and without; MWAIT in every state of its mark; MPROG. -/
theorem test_witness_MatrixClaims :
    let o : T64 := ⟨0, 0, 0, 0, 0, 0, 0, 0, 7⟩
    let mine := some g0.teamKey
    (∀ c ∈ ([.mrelease, .mzero, .mwait, .mread, .mstat, .mprog] : List (T64 → Instr)), ∀ x ∈ [(none, []), (some (1, 0, 9), []), (mine, [MOp.release 1])],
      Meets (c o) (matrixWith x.1 x.2 1 0 g0) g0 fun e => e.g.mark = none ∧ ((matrixWith x.1 x.2 1 0 g0).setGroup e.g).plainBusy e.g.uid = false ∧
        ((matrixWith x.1 x.2 1 0 g0).setGroup e.g).lostClaim e.g = false ∧
        ((matrixWith x.1 x.2 1 0 g0).unit e.g.l e.g.core).holder.or (((matrixWith x.1 x.2 1 0 g0).setGroup e.g).setAside 0 0) = x.1) ∧
    (∀ x ∈ [(none, []), (some (1, 0, 9), []), (mine, [MOp.release 1]), (mine, [])],
      Meets (.mclaim o) (matrixWith x.1 x.2 1 0 g0) g0 fun e => RoomFor e.g [] [7] [] ∧ ((matrixWith x.1 x.2 1 0 g0).setGroup e.g).plainBusy e.g.uid = false ∧
        ((matrixWith x.1 x.2 1 0 g0).setGroup e.g).lostClaim e.g = false ∧
        ((matrixWith x.1 x.2 1 0 g0).unit e.g.l e.g.core).holder.or (((matrixWith x.1 x.2 1 0 g0).setGroup e.g).setAside 0 0) = x.1) ∧
    (∀ n ∈ [0, 15, 16], Meets (.mrelease o) (matrixWith mine (List.replicate n (.zero 1)) n 0 g0) g0 fun e =>
      Room e.g ∧ MatrixReady (matrixWith mine (List.replicate n (.zero 1)) n 0 g0) e [] ∧
        ((matrixWith mine (List.replicate n (.zero 1)) n 0 g0).unit e.g.l e.g.core).queue.length = n) ∧
    (∀ n ∈ [0, 1], Meets (.mwait o) (matrixWith mine [] 1 n g0) g0 fun e => e.g.mark = none ∧ Room e.g ∧ MatrixReady (matrixWith mine [] 1 n g0) e [] ∧
      ((matrixWith mine [] 1 n g0).unit e.g.l e.g.core).done = n ∧ ((matrixWith mine [] 1 n g0).unit e.g.l e.g.core).accepted = 1) ∧
    (∀ n ∈ [0, 1], Meets (.mwait o) (matrixWith mine [] 1 n { g0 with mark := some 1 }) { g0 with mark := some 1 } fun e => e.g.mark = some 1 ∧ Room e.g ∧
      ((matrixWith mine [] 1 n { g0 with mark := some 1 }).unit e.g.l e.g.core).done = n) ∧
    (∀ q ∈ [[], [MOp.zero 1]], Meets (.mprog o) (matrixWith mine q 1 0 g0) g0 fun e => RoomFor e.g [7] [] [] ∧ MatrixReady (matrixWith mine q 1 0 g0) e []) := by
  intro o mine
  refine ⟨fun c hc x hx => ?_, fun x hx => ?_, fun n hn => ?_, fun n hn => ?_, fun n hn => ?_, fun q hq => ?_⟩
  · simp only [List.mem_cons, List.not_mem_nil, or_false] at hc hx
    rcases hx with rfl | rfl | rfl <;> rcases hc with rfl | rfl | rfl | rfl | rfl | rfl <;> exact meetsMatrix (by decide +kernel) (by decide +kernel)
  · simp only [List.mem_cons, List.not_mem_nil, or_false] at hx
    rcases hx with rfl | rfl | rfl | rfl <;> exact meetsMatrix (by decide +kernel) ⟨roomFor_env _ _ _ rfl, by decide +kernel, by decide +kernel, by decide +kernel⟩
  · simp only [List.mem_cons, List.not_mem_nil, or_false] at hn
    rcases hn with rfl | rfl | rfl <;> exact meetsMatrix (by decide +kernel) ⟨room_env rfl, matrixReady (by decide +kernel), by decide +kernel⟩
  · simp only [List.mem_cons, List.not_mem_nil, or_false] at hn
    rcases hn with rfl | rfl <;> exact meetsMatrix (by decide +kernel) ⟨by decide +kernel, room_env rfl, matrixReady (by decide +kernel), by decide +kernel, by decide +kernel⟩
  · simp only [List.mem_cons, List.not_mem_nil, or_false] at hn
    rcases hn with rfl | rfl <;> exact meetsMatrix (by decide +kernel) ⟨by decide +kernel, room_env rfl, by decide +kernel⟩
  · simp only [List.mem_cons, List.not_mem_nil, or_false] at hq
    rcases hq with rfl | rfl <;> exact meetsMatrix (by decide +kernel) ⟨roomFor_env _ _ _ rfl, matrixReady (by decide +kernel)⟩

/-- What the pages of runs of bytes translate to. -/
def touched (s : State) (e : Env) (a : Access) (runs : List (Nat × Nat)) : List (Nat × Loc) × State :=
  ((s.translateTouched e.g.l e.g.ctx a (pagesTouched runs)).toOption).getD ([], s)

theorem matrixReach {s : State} {e : Env} {a : Access} {runs : List (Nat × Nat)}
    (h : (s.translateTouched e.g.l e.g.ctx a (pagesTouched runs)).toOption.isSome = true) :
    MatrixReach s e a runs [] (touched s e a runs).1 [] (touched s e a runs).2 := by
  refine ⟨(touched s e a runs).2, [], ?_, by simp, rfl, rfl, by simp⟩
  simp only [List.map_nil, List.append_nil]
  unfold touched
  generalize s.translateTouched e.g.l e.g.ctx a (pagesTouched runs) = r at h ⊢
  cases r with
  | error _ => simp [Except.toOption] at h
  | ok x => rfl

/-- A group with the address of page 6 in v0 and v1, 4 in v2, 1024 in v4 and 1 in v5. -/
def matrixGroup : Group := holding g0 [(0, 0xC0000), (2, 4), (3, 512), (4, 1024), (5, 1)]

/-- The machine whose unit the team holds, with a loop descriptor on page 6: one A row of bf16 on that page, 2048 bytes apart. -/
def looping : State := { matrix (some g0.teamKey) [] 0 0 with mem := (withBytes [(2, 0x0C), (9, 8), (60, 3)]).mem, groups := [matrixGroup] }

/-- The machine whose unit the team holds, with a B record. -/
def stepping (fmt : Nat) (sp : Bool) : State :=
  { s0 with units := [{ MUnit.clear 0 0 with holder := some g0.teamKey, brec := some (fmt, sp) }], groups := [matrixGroup] }

/-- The descriptor. -/
def theLoop : LoopDesc :=
  { aBase := 0xC0000, aPitch := 2048, aStep := 0, xaBase := 0, xaPitch := 0, xaStep := 0, bBase := 0, bPitch := 0, bStep := 0, xbBase := 0, xbStep := 0
    aFmt := 3, bFmt := 0, amx := false, reload := false, sparse := false, rsv := false, tile := 0, row0 := 0, n := 1, steps := 1 }

/-- MatrixCommands: each command with room in the queue, and those without operands in memory where it is full. -/
theorem test_witness_MatrixCommands :
    let mine := some g0.teamKey
    let one := matrixWith mine [] 0 0 matrixGroup
    (∀ n ∈ [15, 16], ∀ c ∈ ([.mzero ⟨0, 0, 0, 0, 0, 0, 0, 0, 3⟩, .mread ⟨0, 0, 0, 0, 0, 0, 5, 3, 56⟩, .mstat ⟨1, 0, 0, 0, 0, 0, 0, 0, 62⟩] : List Instr),
      Meets c (matrixWith mine (List.replicate n (.zero 1)) n 0 g0) g0 fun e => Room e.g ∧ (∀ ds, RoomFor e.g ds [] []) ∧
        MatrixReady (matrixWith mine (List.replicate n (.zero 1)) n 0 g0) e [] ∧
        ((matrixWith mine (List.replicate n (.zero 1)) n 0 g0).unit e.g.l e.g.core).queue.length = n) ∧
    (∀ c ∈ [(Instr.mma ⟨0x30, 0, 0, 0, 0, 0, 0, 16, 3⟩, 3, false), (Instr.msparse ⟨0x40, 0, 0, 0, 0, 0, 0, 16, 3⟩, 4, true)],
      Meets c.1 (stepping c.2.1 c.2.2) matrixGroup fun e => Room e.g ∧ MatrixReady (stepping c.2.1 c.2.2) e [] ∧
        ((List.range 8).map (16 + ·)).filter (fun n => (e.g.frame.reg? n).isNone) = [] ∧
        formatReason c.2.1 false c.2.2 false c.2.2 ((stepping c.2.1 c.2.2).unit e.g.l e.g.core).recordAfter none = none ∧
        0 + (regRows e.g.frame 16 c.2.1 c.2.2).length ≤ 64 ∧ ((stepping c.2.1 c.2.2).unit e.g.l e.g.core).queue.length < 16) ∧
    (Meets (.mloadb ⟨0x30, 0, 0, 0, 0, 0, 3, 0, 0⟩) one matrixGroup fun e => let rows := (List.range 256).map fun k => (0xC0000 + k * 512) % 2 ^ 64
      Room e.g ∧ MatrixReady one e [0, 1, 3] ∧ (e.g.frame.pair 0 (lowLane e.act)).toNat = 0xC0000 ∧ (e.g.frame.lane 3 (lowLane e.act)).toNat = 512 ∧ rowBytes 3 = 512 ∧
      (∀ r ∈ rows, r < 2 ^ 56) ∧ ∃ pages t, MatrixReach (one.setGroup e.g) e accEngR (rows.map fun r => (r, rowBytes 3)) [] pages [] t ∧
        (t.unit e.g.l e.g.core).queue.length < 16) ∧
    (Meets (.mloads ⟨0, 0, 0, 0, 0, 0, 0, 0, 0⟩) one matrixGroup fun e => Room e.g ∧ MatrixReady one e [0, 1] ∧
      ∃ pages t, MatrixReach (one.setGroup e.g) e accEngR [(0xC0000, 4096)] [] pages [] t ∧ (t.unit e.g.l e.g.core).queue.length < 16) ∧
    (Meets (.mstore ⟨0x10, 0, 0, 0, 0, 0, 4, 0, 63⟩) one matrixGroup fun e => Room e.g ∧ MatrixReady one e [0, 1, 4, 5] ∧ 256 * storeBytes 1 ≤ 1024 ∧
      (e.g.frame.lane 4 (lowLane e.act)).toNat = 1024 ∧ (e.g.frame.lane 5 (lowLane e.act)).toNat = 1 ∧
      ∃ pages t, MatrixReach (one.setGroup e.g) e accEngW [(0xC0000, 256 * storeBytes 1)] [] pages [] t ∧ (t.unit e.g.l e.g.core).queue.length < 16) ∧
    ∀ c ∈ [(Instr.mloop ⟨0, 0, 0, 0, 0, 0, 0, 0, 0⟩, false), (Instr.mbatch ⟨0, 0, 0, 0, 0, 0, 0, 0, 0⟩, true)], Meets c.1 looping matrixGroup fun e => Room e.g ∧
      MatrixReady looping e [0, 1] ∧ ∃ x t0, LoopRead looping e 0xC0000 theLoop x t0 ∧
        formatReason 3 false false c.2 false (looping.unit e.g.l e.g.core).recordAfter none = none ∧ theLoop.rangeReason c.2 = none ∧
        ∃ pages t, MatrixReach t0 e accEngR [(0xC0000, theLoop.aRowBytes c.2)] [] pages [] t ∧ (t.unit e.g.l e.g.core).queue.length < 16 := by
  intro mine one
  refine ⟨fun n hn c hc => ?_, fun c hc => ?_, ?_, ?_, ?_, fun c hc => ?_⟩
  · simp only [List.mem_cons, List.not_mem_nil, or_false] at hn hc
    rcases hn with rfl | rfl <;> rcases hc with rfl | rfl | rfl <;>
      exact meetsMatrix (by decide +kernel) ⟨room_env rfl, fun _ => roomFor_env _ _ _ rfl, matrixReady (by decide +kernel), by decide +kernel⟩
  · simp only [List.mem_cons, List.not_mem_nil, or_false] at hc
    rcases hc with rfl | rfl <;>
      exact meets (s := stepping _ _) (by decide +kernel) ⟨room_env rfl, matrixReady (by decide +kernel), by decide +kernel, by decide +kernel, by decide +kernel, by decide +kernel⟩
  · exact meetsMatrix (by decide +kernel) ⟨room_env rfl, matrixReady (by decide +kernel), by decide +kernel, by decide +kernel, rfl, by decide +kernel, _, _,
      matrixReach (by decide +kernel), by decide +kernel⟩
  · exact meetsMatrix (by decide +kernel) ⟨room_env rfl, matrixReady (by decide +kernel), _, _, matrixReach (by decide +kernel), by decide +kernel⟩
  · exact meetsMatrix (by decide +kernel) ⟨room_env rfl, matrixReady (by decide +kernel), by decide, by decide +kernel, by decide +kernel, _, _,
      matrixReach (by decide +kernel), by decide +kernel⟩
  · have hl (e : Env) (h1 : (looping.unit e.g.l e.g.core).storing = false)
        (h2 : ((looping.setGroup e.g).translate e.g.l e.g.ctx 0xC0000 accEngR).toOption.isSome = true)
        (h3 : theLoop = LoopDesc.ofBytes (toBytes 64 ((((looping.setGroup e.g).translate e.g.l e.g.ctx 0xC0000 accEngR).toOption.getD (loc6, looping)).2.readLoc
          (((looping.setGroup e.g).translate e.g.l e.g.ctx 0xC0000 accEngR).toOption.getD (loc6, looping)).1 64).1)) :
        LoopRead looping e 0xC0000 theLoop (((looping.setGroup e.g).translate e.g.l e.g.ctx 0xC0000 accEngR).toOption.getD (loc6, looping)).1
          ((((looping.setGroup e.g).translate e.g.l e.g.ctx 0xC0000 accEngR).toOption.getD (loc6, looping)).2.readLoc
            (((looping.setGroup e.g).translate e.g.l e.g.ctx 0xC0000 accEngR).toOption.getD (loc6, looping)).1 64).2.2 := by
      refine ⟨by decide, by decide, h1, _, _, _, ?_, rfl, h3⟩
      generalize (looping.setGroup e.g).translate e.g.l e.g.ctx 0xC0000 accEngR = r at h2
      cases r with
      | error _ => simp [Except.toOption] at h2
      | ok x => rfl
    simp only [List.mem_cons, List.not_mem_nil, or_false] at hc
    rcases hc with rfl | rfl <;>
      exact meets (s := looping) (by decide +kernel) ⟨room_env rfl, matrixReady (by decide +kernel), _, _, hl _ (by decide +kernel) (by decide +kernel) (by decide +kernel),
        by decide +kernel, by decide +kernel, _, _, matrixReach (by decide +kernel), by decide +kernel⟩

/-- TileZero. -/
theorem test_witness_TileZero : let u : MUnit := { MUnit.clear 0 0 with holder := some g0.teamKey, queue := [⟨.zero 3, 1, 0, []⟩], accepted := 1 }
    u = ({ s0 with units := [u] } : State).unit u.l u.core := by decide +kernel

/-- A posted operation of one lane on page 6. -/
def onePost (op : PostOp) (x : Loc) : Post :=
  { op := op, ctx := 1, pl := 1, uids := [1], tag := 0, size := 4, ft := 0, lanes := [⟨0, x, 5, false, none, 7⟩], token := none, side := false, plain := false }

/-- Deliveries: each kind of item alone on a pair; a crossing and an arrival of a context that runs there, of one that is free and of one that is parking; an arrival before
and after its time, from the module and from a peer; stores to memory and to a launch window. -/
theorem test_witness_Deliveries :
    let j : JoinPoint := ⟨0, 0x40, true⟩
    let at_ (n : Nat) : State := { other 3 3 none with ft := n }
    let of (id : Nat) : Group := { g0 with ctx := id }
    (∀ x ∈ [Item.crossing g0, .arrival ⟨g0, j⟩, .exit 1 0 0 0 3, .live 1 0 0 3, .post (onePost .store loc6), .post (onePost (.reduce 0) loc6), .post (onePost (.keyed 0) loc6),
      .post (onePost .flip loc6), .marker 1], (s0.setPair 1 0 [x]).pair 1 0 = x :: []) ∧
    (∀ x ∈ [(1, true, 2), (2, false, 3), (9, false, 0)], let t := (at_ 9).setPair 1 0 []
      (t.ctx (of x.1).ctx).runsAt 0 = x.2.1 ∧ (t.ctx (of x.1).ctx).state = x.2.2 ∧ (of x.1).lastFT < (at_ 9).ftAt 0) ∧
    (at_ 0).ftAt 0 ≤ g0.lastFT ∧ (((at_ 0).setPair 70 0 [.arrival ⟨g0, j⟩]).pair 70 0 = [Item.arrival ⟨g0, j⟩] ∧ 64 ≤ 70) ∧
    (let t := s0.setPair 1 0 [];
      t.mem.wf = true ∧ isControl (t.mem.backing loc6 false) = false ∧ loc6.peer = none ∧ loc6.lwin = false ∧ (t.landing 0).mn.keyed.length + 1 ≤ keyedRoom) ∧
    ({ loc6 with pa := 0x0C0000032000 } : Loc).lwin = true := by
  intro j at_ of
  refine ⟨fun x hx => ?_, by decide +kernel, by decide +kernel, by decide +kernel, by decide +kernel, by decide +kernel⟩
  simp only [List.mem_cons, List.not_mem_nil, or_false] at hx
  rcases hx with rfl | rfl | rfl | rfl | rfl | rfl | rfl | rfl | rfl <;> rfl

/-- A frame to be spilled, and a group with it under its own, in a state of the WSE. -/
def spillingGroup (w : Wse) : Group := { g0 with older := [g0.frame], wse := w }

/-- DispatcherTurns. -/
theorem test_witness_DispatcherTurns :
    let waits : Waiting := ⟨g0, 0, false, .none⟩
    let arrived : State := State.modLanding { s0 with groups := [], ft := 9 } 0 fun x => { x with wharf := [waits] }
    let turn (s : State) (w : Wse) : State := { s with groups := [spillingGroup w] }
    ((arrived.nextAdmitted 0).isSome = true ∧ arrived.nextAdmitted 0 = some waits ∧ (arrived.berthFor 0 g0).isSome = true) ∧
    (∀ w ∈ [Wse.spillAll, .spillOne], (turn s0 w).group? 1 = some (spillingGroup w) ∧ (spillingGroup w).waitToken = none ∧ (spillingGroup w).wait = .none ∧
      (spillingGroup w).older.getLast? = some g0.frame) ∧
    (let n (s : State) : Nat := (s.seg 1 (s.spillBase g0)).cursor + (g0.frame.image (s.kmask g0.frame)).length;
      (spilling 8).spillLim g0 < n (spilling 8) ∧ n (spilling 16) ≤ (spilling 16).spillLim g0 ∧
      ((spilling 16).pagesOf 0 1 accSpill ((spilling 16).seg 1 0x20000).cursor 4096).toOption.isSome = true ∧
      (State.pagesOf { spilling 16 with mem := State.reset.mem } 0 1 accSpill ((spilling 16).seg 1 0x20000).cursor 4096).toOption.isNone = true) ∧
    (let g : Group := { g0 with wse := .refill, frame := { g0.frame with cp := true, coff := 1 } };
      g.wait = .none ∧ g.older = [] ∧ ((spilling 16).pagesOf 0 1 accRefill ((spilling 16).callerVA g) 64).toOption.isSome = true ∧
        (s0.pagesOf 0 9 accRefill (s0.callerVA g) 64).toOption.isNone = true) ∧
    (∀ x ∈ [(5, 0), (50, 0)], let g : Group := { g0 with wait := .idle x.1 x.2 }
      let s : State := State.modLanding { s0 with groups := [g], ft := 9 } 0 fun y => { y with fq := { y.fq with posted := if x.1 = 5 then 0 else 1 } }
      s.group? 1 = some g ∧ g.l = 0 ∧ (x.1 ≤ s.ftAt 0 ∨ x.2 < (s.landing 0).fq.posted)) ∧
    (∀ sc ∈ [TideScope.landing, .module, .system], let s : State := { s0 with ft := 1024 + s0.tideLag sc, landings := s0.landings.map fun x => { x with samples := [⟨sc, 1024, 0⟩] } }
      State.sampleDue { s0 with ft := 4096 } sc 0 = true ∧ (s.adoption sc 0).isSome = true) := by
  refine ⟨?_, ?_, ?_, ?_, ?_, ?_⟩ <;> decide +kernel

/-- A copy of 64 bytes of page 6 onto the same bytes, with some of its data read. -/
def lineCopy (d : List (List (Byte × Bool))) : Copy := ⟨3, 1, 1, 0, false, [⟨loc6, [(loc6, 64)], d, none⟩], [], []⟩

/-- The move of page 6 of context 1 to the next page but three, by its entry in the page table, at a step. -/
def moving (pte : DWord) (step : Nat) : PageMove :=
  { src := 0x080000100000, dst := 0x080000400000, pte := pte, new := 0x08000040063B, ctl := 0x10002, stat := 1, step := step, old := 0x08000010063B }

/-- The parked claim of a unit. -/
def parked : SavedClaim :=
  ⟨1, 0, 0, { MUnit.clear 0 0 with holder := some g0.teamKey }, s0.mem.bytes (placeCtx.saveArea 0 0 + 0x66000) 1024, s0.mem.bytes (placeCtx.saveArea 0 0 + 0x68000) 32768⟩

/-- EngineTurns. -/
theorem test_witness_EngineTurns :
    (∀ d ∈ [[], [[((5 : Byte), false)]]], State.copies { s0 with copies := [lineCopy d] } = [lineCopy d] ∧ (lineCopy d).pieces[0]? = some ⟨loc6, [(loc6, 64)], d, none⟩ ∧
      (d = [] → [(loc6, 64)][d.length]? = some (loc6, 64)) ∧ (d ≠ [] → [(loc6, 64)].length ≤ d.length)) ∧
    (let s := s0.modMN 0 fun (m : MergeNet) => { m with closes := [⟨1, 1, [0x080000100000], none⟩] };
      (s.landing 0).mn.closes = [⟨1, 1, [0x080000100000], none⟩] ∧ (s.ctx 1).keyedRuns 0 = []) ∧
    (∀ x ∈ [{ sess 2 0 with ending := 1 }, { sess 1 0 with closing := true }, sess 2 0, { sess 2 0 with rowDone := true }],
      ((merging [x]).landing 0).mn.slots.getD 0 none = some x ∧ x.token = none ∧
        (x.rowDone = true → ((merging [x]).emit 0 x.ctx [(x.desc.rowPtr.toNat + x.desc.pw * (x.nextRow + 1), toBytes x.desc.pw (x.e + x.need), false)] matches .ok _) = true)) ∧
    (∀ x ∈ [(g0.teamKey, [MOp.release 1]), ((1, 0, 9), [])], ((matrix (some x.1) x.2 1 0).unit 0 0).holder = some x.1 ∧
      ((∃ c rest, ((matrix (some x.1) x.2 1 0).unit 0 0).queue = c :: rest ∧ c.op.isRelease = true) ∨
        (((matrix (some x.1) x.2 1 0).unit 0 0).queue = [] ∧ (matrix (some x.1) x.2 1 0).teamGone x.1 = true))) ∧
    (let s := { matrix (some g0.teamKey) [] 0 0 with ctxs := [{ placeCtx with state := 3, stopping := [0] }], groups := [] };
      s.narrowable (s.unit 0 0) = true) ∧
    (State.saved { s0 with saved := [parked] }).find? (fun c => c.ctx == 1 && c.l == 0 && c.core == 0 && (s0.ctx 1).state == 2) = some parked ∧
    State.restoreCore { s0 with saved := [parked] } parked = some 0 ∧ (s0.ctx 1).saveArea 0 0 = placeCtx.saveArea 0 0 ∧
    (∀ a, a = (s0.ctx 1).saveArea 0 0 → s0.mem.bytes (a + 0x66000) 1024 = parked.queueBytes ∧ s0.mem.bytes (a + 0x68000) 32768 = parked.rowBytes) ∧
    (∀ op ∈ ([.loadB 3 false 0xC0000 512 [], .loadS 0xC0000, .step 0 0 3 false [] [], .read 0 0 56 1 (-1), .store 0 false 1 0 1 0 0xC0000 1024, .loop false theLoop [],
      .stat true 62 1 (-1)] : List MOp), ((matrix (some g0.teamKey) [op] 1 0).unit 0 0).queue = [⟨op, 1, 0, []⟩]) ∧
    (∀ c ∈ [{ placeCtx with state := 3, toCommand := [0] }, { placeCtx with state := 3, stopping := [0] }, { placeCtx with state := 3 }],
      State.ctx { s0 with ctxs := [c] } 1 = c ∧ (c.toCommand ++ c.stopping = [] → State.reportReady { s0 with ctxs := [c] } c 0 = true)) ∧
    (∀ x ∈ [((0 : DWord), 0), (0x080000004030, 0), (0, 1), (0, 2), (0, 2 + 2048)], let s := s0.modLanding 0 fun y => { y with pm := moving x.1 x.2 };
      (s.landing 0).pm.stat.getLsbD 0 = true ∧ (s.landing 0).pm.step = x.2 ∧ (x.2 = 0 → (s.moveCause 0 (moving x.1 x.2)).isSome = (x.1 == 0)) ∧ (moving x.1 x.2).len / 64 = 2048) ∧
    (s0.landing 0).fq.held = [] := by
  have ha : (s0.ctx 1).saveArea 0 0 = placeCtx.saveArea 0 0 := by decide +kernel
  refine ⟨?_, ?_, ?_, ?_, ?_, rfl, ?_, ha, ?_, ?_, ?_, ?_, ?_⟩
  · decide +kernel
  · decide +kernel
  · decide +kernel
  · intro x hx
    simp only [List.mem_cons, List.not_mem_nil, or_false] at hx
    rcases hx with rfl | rfl
    · exact ⟨rfl, .inl ⟨_, _, rfl, rfl⟩⟩
    · exact ⟨rfl, .inr ⟨rfl, by decide +kernel⟩⟩
  iterate 2 decide +kernel
  · rintro _ rfl
    rw [ha]; constructor <;> simp only [parked]
  all_goals decide +kernel

/-- EngineTurns: a network whose one session holds more than fits, and has made 64 runs. -/
theorem test_witness_EngineTurns_spill : ∃ (m : MergeNet) (x : Session), m.slots.getD m.fullest none = some x ∧ 458752 < m.held + 8 ∧ x.token = none ∧ x.ending = 0 ∧ 64 ≤ x.runs.length := by
  have h (n : Nat) (hn : 458752 < n + 8) : let x := { sess 1 0 with held := List.replicate n ⟨0, 0, 0, 0, false⟩, runs := List.replicate 64 (0, 0) }
      let m := { MergeNet.reset with slots := some x :: List.replicate 7 none }
      m.slots.getD m.fullest none = some x ∧ 458752 < m.held + 8 ∧ x.token = none ∧ x.ending = 0 ∧ 64 ≤ x.runs.length := by
    simp [MergeNet.held, MergeNet.fullest, List.range_succ, sess, hn]
  exact ⟨_, _, h 458752 (by decide)⟩

/-- 64 bytes, zero where not listed. -/
def line64 (xs : List (Nat × Byte)) : List Byte := (List.range 64).map fun k => ((xs.find? fun x => x.1 == k).map Prod.snd).getD 0

/-- A launch record that is well formed, for context `c` and landings of a mask. -/
def launchLine (c m : Byte) : List Byte := line64 [(1, 1), (16, 64), (20, c), (26, 0x80), (27, 1), (32, m)]

/-- The record it gives. -/
def launch0 : Launch := Launch.ofBytes 5 0 (launchLine 1 1)

/-- The machine with pending records at landing 0. -/
def pendingAt (xs : List Launch) : State := s0.modLanding 0 fun y => { y with pending := xs }

/-- The machine with the host link up. -/
def linked : State := { s0 with links := { s0.links with rate := 5, width := 16 } }

/-- HostTurns. -/
theorem test_witness_HostTurns :
    ((launchLine 1 1).tail.length ≠ 64 ∧ (∀ x ∈ [(line64 [], true, 0), (launchLine 9 1, false, 0), (launchLine 1 2, false, 2), (launchLine 1 1, false, 2)],
      let r := Launch.ofBytes 5 0 x.1
      x.1.length = 64 ∧ r.malformed (bits (num x.1 24 4) 31 26) (s0.ctx r.ctx).pl = x.2.1 ∧ (s0.ctx r.ctx).state = x.2.2)) ∧
    ((∀ k < 64, ((Launch.ofBytes 5 0 (launchLine 1 2)).placeMask &&& (s0.ctx 1).landMask).getLsbD k = false) ∧ (launch0.placeMask &&& (s0.ctx 1).landMask).getLsbD 0 = true) ∧
    (∀ n ∈ [15, 16], ((pendingAt (List.replicate n launch0)).landing 0).pending.length = n) ∧
    (((s0.modLanding 0 fun y => { y with hold := true }).landing 0).hold = true ∧ (s0.landing 0).hold = false) ∧
    (((pendingAt [launch0]).landing 0).pending.find? (fun p => !p.started && p.watch.isNone && p.token.isNone) = some launch0) ∧
    (let p : Launch := { launch0 with started := true, tag := some 1 };
      ((pendingAt [p]).landing 0).pending = [p] ∧ p.started = true ∧ ((pendingAt [p]).anchorFor p).isSome = true) ∧
    (let p : Launch := { launch0 with started := true };
      ((pendingAt [p]).landing 0).pending = [p] ∧ p.tag = none ∧ p.token = none) ∧
    (let x (d : DWord) : Launch := { launch0 with started := true, tag := some 7, placed := true, doneCtr := d };
      let s (d : DWord) : State := { s0 with launches := [x d] };
      (∀ n ∈ [0, 0xC0000], let d := BitVec.ofNat 64 n; (s d).launches.find? (fun x => x.ctx == 1 && x.tag == some 7) = some (x d) ∧ (s d).launchEnds (x d) = true ∧ (x d).rejected = false) ∧
        ((s 0xC0000).translate 0 1 0xC0000 accDone).toOption.isSome = true) ∧
    (CtlOk ⟨0x0C0000030000, 8, 1, 1⟩ = true ∧ (0x30000 ≤ 0x0C0000030000 % 0x40000000 ∧ 0x0C0000030000 % 0x40000000 < 0x32000)) ∧
    (linked.hostUp = true ∧ linked.cxlMemUp = true ∧ linked.boot.phase ≠ 6 ∧ hdmOk 0 64 = true ∧ linked.mem.wf = true ∧ linked.hdmAbsent 0 = true) ∧
    (let up : State := linked.modLanding 0 fun y => { y with ras := { y.ras with homemap := [16] } };
      let queue : Queue := { Queue.reset 0 with cfg := 0x40 };
      up.hdmAbsent 0 = false ∧ up.windowAt 0 = none ∧ State.windowAt (up.modLanding 0 fun y => { y with queues := [queue] }) 0 = some queue) ∧
    (∀ x ∈ [(0, 0), (1, 1), (2 ^ 32 - 1, 2 ^ 32 - 1)], let p := s0.inPair 5 1 0
      p.expect = 0 ∧ p.early = [] ∧ x.1 < 2 ^ 32 ∧ (x.1 + 2 ^ 32 - p.expect) % 2 ^ 32 = x.2) := by
  refine ⟨?_, ?_, ?_, ?_, ?_, ?_, ?_, ?_, ?_, ?_, ?_, ?_⟩ <;> decide +kernel

/-- A repair group whose tracker has counted three, with spares taken. -/
def third (f0 f1 : Nat) : RepairGroup := { RepairGroup.reset with f0 := f0, f1 := f1, trk := ⟨5, 3, 0⟩ }

/-- The machine with a landing whose first bus is as given. -/
def busAt (ready busy : Bool) (b : Bus) : State :=
  s0.modLanding 0 fun y => { y with ras := { y.ras with ready := ready, busy := busy, capU := 16, act := List.range 16, buses := b :: y.ras.buses.tail } }

/-- RasAndBoot. -/
theorem test_witness_RasAndBoot :
    (∀ x ∈ [(1, 0), (2, 0), (0, 3), (0, 4), (0, 5)], ∀ w ∈ [true, false], let p : ParityFailure := ⟨0, 0, w, [0], [0], x.2, x.1⟩
      let r := ((busAt true false Bus.reset).landing 0).ras
      p.l = 0 ∧ (x.1 = 0 → parityReal p = decide (x.2 ≤ 4)) ∧ r.ready = true ∧ 128 * p.block + 128 ≤ busBytes * r.capU) ∧
    (∀ y ∈ [third 0x7F 0x7F, third 4 0x7F, third 4 6, RepairGroup.reset], let b : Bus := { Bus.reset with groups := [y] }
      (((busAt true false b).landing 0).ras.buses.getD 0 Bus.reset) = b ∧ b.groups.getD 0 RepairGroup.reset = y ∧
        0 < ((busAt true false b).landing 0).ras.buses.length ∧ 0 < (busAt true false b).landings.length) ∧
    (∀ x ∈ [(true, false), (false, true), (false, false)], ((busAt x.1 x.2 Bus.reset).landing 0).ras.ready = x.1 ∧ ((busAt x.1 x.2 Bus.reset).landing 0).ras.busy = x.2) ∧
    (∀ b ∈ [true, false], let u : Bus := { Bus.reset with state := 3, busy := b, driven := 5 }
      ((busAt false false u).landing 0).ras.buses.getD 0 Bus.reset = u) ∧
    (∀ n ∈ [0, 3], State.boot { s0 with boot := { s0.boot with attempts := n, phase := 1 } } = { s0.boot with attempts := n, phase := 1 } ∧
      ({ s0.boot with attempts := n, phase := 1 } : Boot).starting = true) ∧
    (s0.boot.starting = false ∧ s0.boot.spdmUp = true ∧ ({ s0.boot with phase := 6 } : Boot).spdmUp = false ∧ s0.boot.phase ≠ 6) ∧
    s0.curGroup = some g0 := by
  refine ⟨?_, ?_, ?_, ?_, ?_, ?_, ?_⟩ <;> decide +kernel

/-! ### Words of the spec, decoded and run -/

/-- Words that the spec's examples print, family by family: Tables 7-7 (LANEID, MOVI, REDUX, CMPI, JOIN, EXIT), 8-12 (CVT.WIDEN, PACKMX, RNG.CB) and 18-1 (RTE). -/
theorem test_words :
    decodeTableWord 32 0x0000024D = some (.laneid ⟨0, 0, 0, 0, 4⟩) ∧ decodeTableWord 32 0x000202C5 = some (.movi ⟨0, 16, 5⟩) ∧
    decodeTableWord 32 0x0000845D = some (.redux ⟨0, 0, 0, 4, 8⟩) ∧ decodeTableWord 32 0x04408141 = some (.cmpi ⟨0, 0x88, 4, 2⟩) ∧
    decodeTableWord 32 0x08000051 = some (.join ⟨0, 4, 0, 0, 0⟩) ∧ decodeTableWord 32 0x02000051 = some (.exit ⟨0, 1, 0, 0, 0⟩) ∧
    decodeTableWord 32 0x00000051 = some (.ret ⟨0, 0, 0, 0, 0⟩) ∧ decodeTableWord 64 0x3401000000024A0F = some (.cvtWiden ⟨0x340, 4, 0, 0, 0, 0, 0, 9, 10⟩) ∧
    decodeTableWord 64 0x040140000002CC0F = some (.packmx ⟨0x040, 5, 0, 0, 0, 0, 0, 11, 12⟩) ∧
    decodeTableWord 64 0x0000400000610813 = some (.rngCb ⟨0, 1, 0, 0, 0, 0, 6, 4, 8⟩) ∧ decodeTableWord 64 0x000080000000004B = some (.rte ⟨0, 2, 0, 0, 0, 0, 0, 0, 0⟩) := by
  decide +kernel

/-- An ill-formed term for each sub-code of Table 6-6 that the fields of a term can give: 2, a register of no such class (a handle above h7); 3, a field that must be
zero; 6, the halfword 0x0000; 7, a pair that is not aligned; and a function value that is another instruction's. -/
theorem test_illFormed :
    (Instr.tpoll ⟨0, 0, 0, 0, 0, 0, 0, 0, 8⟩).illegalSub ≠ none ∧ (Instr.add64 ⟨0, 0, 1, 0, 0⟩).illegalSub = some 7 ∧ (Instr.c16Mov ⟨0, 0, 0⟩).illegalSub = some 6 ∧
    (Instr.nop ⟨0, 0, 0, 0, 1⟩).illegalSub = some 3 ∧ (Instr.add ⟨0, 1, 0, 0, 0⟩).fmt.instr? ≠ some (.add ⟨0, 1, 0, 0, 0⟩) := by decide +kernel

/-- DecodeEncode: a well-formed instruction of each format. -/
theorem test_witness_DecodeEncode : ∀ i ∈ ([.c16Add ⟨1, 0, 8⟩, .add ⟨15, 0, 63, 63, 63⟩, .addi ⟨0, 0x1FF, 0, 63⟩, .movi ⟨0, 0x7FFF, 63⟩, .bra ⟨2, 3⟩, .divz ⟨0, 1, 0, 0, 0, 0, 24, 15, 16⟩,
    .ld ⟨1, 1, 0, 1, 0, 0, 0, 2, 0, 2, 8⟩, .movi32 ⟨0xFFFFFFFF, 0, 0, 0, 0, 12⟩, .enter ⟨0x10, 0, 0, 0, 2⟩] : List Instr),
    i.fmt.instr? = some i ∧ i.illegalSub = none ∧ i.fmt ≠ .event := by decide +kernel

/-- DecodingLosesNothing. -/
theorem test_witness_DecodingLosesNothing : decodeBytes [0x02, 0x81, 0x05] = some (.ok (.c16Add ⟨1, 0, 8⟩), [0x05]) := by rfl

/-- The machine at a word, placed as the next instruction, for a group. -/
def atWord (nbits w : Nat) (g : Group) : State := { State.reset.withFetchWord nbits w with groups := [g] }

/-- What the instruction of a word leaves in lanes of a register of the group, and its status. -/
def stepped (nbits w : Nat) (g : Group) (r : Nat) (ls : List Nat) : List Nat × Nat :=
  match (decodeTableWord nbits w).map fun i => exec i (held g) with
  | some (.next t) => let h := t.groups.headD g; (ls.map fun l => (h.frame.lane r l).toNat, h.gstatus.toNat)
  | _ => ([], 0)

/-- A step of placed code answers a next state. -/
theorem test_step : (match step (State.reset.withFetchWord 32 0x0000024D) with | .next _ => true | _ => false) = true := by decide +kernel

/-- The group of the example of Table 8-12, at its start. -/
def narrowing : Group :=
  let put (g : Group) (r : Nat) (f : Nat → Word) : Group := { g with frame := g.frame.setReg r (some ⟨.g ((List.range 32).map f), 0⟩) }
  put (put (holding g0 [(2, 0x3F800000), (9, 0x5544), (4, 1), (6, 0x89ABCDEF), (7, 0x01234567)]) 3 fun l => if l < 16 then 0x3E99999A else 0x43FA0000)
    11 fun l => if l = 0 then 0x447A0000 else 0x3F800000

/-- The example of Table 8-12: CVT.NARROW, then CVT.WIDEN of its result, PACKMX and RNG.CB. -/
theorem test_narrow : stepped 64 0x1400C0000030890F narrowing 9 [0, 15, 16, 31] = ([0x2A385544, 0x2A385544, 0x7E385544, 0x7E385544], 0x14) ∧
    stepped 64 0x3401000000024A0F (holding g0 [(9, 0x2A385544)]) 10 [0] = ([0x3EA00000], 0) ∧
    stepped 64 0x040140000002CC0F narrowing 12 [0, 1, 31] = ([0x807E, 0x8030, 0x8030], 0x14) ∧
    stepped 64 0x0000400000610813 narrowing 8 [0, 31] = ([0x0544978F, 0x0544978F], 0) := by decide +kernel

/-- The vectors of Table 4-8. -/
theorem test_rng : (List.range 4).map (rngWord 0 0) = [0xA3DBBE25, 0xBAC52EC1, 0x2926781E, 0x911965EB] ∧
    (List.range 4).map (rngWord 1 0x0123456789ABCDEF) = [0xCD08FD8F, 0x0544978F, 0xFD80479B, 0xD8B7F3A4] := by decide +kernel

/-- The example of Table 7-7: LANEID, XLANE.FLIP of it by 16, and REDUX.ADD over it. -/
theorem test_butterfly : stepped 32 0x0000024D g0 4 [0, 31] = ([0, 31], 0) ∧
    (let g : Group := { holding g0 [(5, 16)] with frame := (holding g0 [(5, 16)]).frame.setReg 4 (some ⟨.a 0 1, 0⟩) };
      stepped 32 0x04288321 g 6 [0, 15, 16, 31] = ([16, 31, 0, 15], 0) ∧ stepped 32 0x0000845D g 8 [7] = ([0x1F0], 0)) := by decide +kernel

/-! ### The statements about steps -/

/-- StepRunsDecoded: a group on turn whose word decodes; one whose word is no instruction; one whose code page is missing; and an event on turn. -/
theorem test_witness_StepRunsDecoded :
    (∀ w ∈ [0x0000024D, 0x0000845D], let s := atWord 32 w g0
      s.event = none ∧ s.curGroup = some g0 ∧ s.canIssue g0 = true ∧ g0.block = .none ∧ g0.pend = none ∧ (s.fetch g0 1 g0.pc.toNat).toOption.isSome = true ∧
        (decodeTableWord 32 w).isSome = true) ∧
    decodeTableWord 16 0 = none ∧ ((State.fetch { s0 with ctxs := [{ placeCtx with ptRoot := 0x080000100000 }] } g0 1 g0.pc.toNat).toOption.isSome = false) ∧
    State.reset.event = some .moduleReset := by decide +kernel

/-- IssueChecks: a privileged instruction at PL0; a register at F; a guard that no lane meets; an absent register with DEADTRAP. -/
theorem test_witness_IssueChecks :
    s0.curGroup = some g0 ∧ ((Instr.replay ⟨0, 5, 0, 0, 0, 0, 0, 0, 6⟩).privTrap 0).isSome = true ∧
    (let g : Group := { g0 with frame := { g0.frame with fsz := 8 } }; 8 ∈ (Instr.add ⟨0, 0, 0, 0, 8⟩).shape.named ∧ g.frame.fsz = 8 ∧
      (g.rangeTrap (Instr.add ⟨0, 0, 0, 0, 8⟩).shape.named).isSome = true) ∧
    (g0.guard (Instr.add ⟨1, 0, 0, 0, 8⟩).g4 = 0 ∧ g0.guard (Instr.add ⟨0, 0, 0, 0, 8⟩).g4 ≠ 0) ∧
    (let g : Group := { g0 with gmode := 4, frame := { Frame.fresh with fsz := 64 } };
      (match s0.deadRead g (g.absentReads (.add ⟨0, 0, 1, 0, 8⟩)) with | .error _ => true | .ok _ => false) = true ∧ g.deadTrap = true) := by decide +kernel

/-- StepsKeepTime: the machine with placed code. -/
theorem test_witness_StepsKeepTime : Inv s0 ∧ Quiet s0 :=
  ⟨⟨by decide +kernel, fun e h => (by cases h)⟩, ⟨fun p hp => (by cases hp), by decide +kernel, by decide +kernel⟩⟩

/-- FormsComplete: a group on turn, and a form that issues; the operands are those of the statements of each family above. -/
theorem test_witness_FormsComplete : s0.curGroup.isSome = true ∧ Runs (.twait ⟨0, 1, 0, 0, 0, 0, 0, 0, 7⟩) ∧
    ∀ c ∈ (g0.frame.k.getD 7 Token.complete).copies, c ∉ s0.copies.map Copy.id :=
  ⟨by decide +kernel, runs _ (by decide +kernel), by decide +kernel⟩

/-- CallsAndReturnsNested and TrapReturn: a caller whose record was lost, and one whose record stands. -/
theorem test_witness_lost : ∀ c ∈ [g0.frame, { g0.frame with fsz := 0 }], let g : Group := { g0 with depth := 1, older := [c], inTrap := true }
    ready (.ret ⟨0, 0, 0, 0, 0⟩) (held g) g = true ∧ ready (.rte ⟨0, 2, 0, 0, 0, 0, 0, 0, 0⟩) (held g) g = true ∧ c.lost = (c.fsz == 0) := by decide +kernel

end Sys2Proof.Tests
end

section
/-! PROOF. What every step keeps, and the machine it starts from (01 R16, R17; 05 R128, R133; 24 R432): the end of a step bounds the
FTs, lets each go on by at most one tick, and chooses an event that may take the turn. -/

namespace Sys2Proof.Laws

open Sys2Proof.Machine

/-- What a landing's FT is worth against the base, once no landing stands more than two ticks ahead of it. -/
theorem ftAt_bounds {s : State} (hs : ∀ x ∈ s.landings, x.skew ≤ 2) {l : Nat} (hl : l < s.landings.length) :
    s.ft ≤ s.ftAt l ∧ s.ftAt l ≤ s.ft + 2 := by
  have h2 := hs _ (List.getElem_mem hl)
  rw [ftAt_of s l hl]
  omega

/-- A bound on the skews rests on the list of skews alone. -/
theorem skew_le_of_map_eq {xs ys : List Landing} (h : ys.map Landing.skew = xs.map Landing.skew) (hx : ∀ x ∈ xs, x.skew ≤ 2) :
    ∀ y ∈ ys, y.skew ≤ 2 := by
  intro y hy
  have hm : y.skew ∈ xs.map Landing.skew := h ▸ List.mem_map_of_mem hy
  obtain ⟨x, hxm, hxy⟩ := List.mem_map.1 hm
  exact hxy ▸ hx x hxm

theorem choose_ftAt (s : State) (l : Nat) : s.choose.ftAt l = s.ftAt l := by
  obtain ⟨hl, hf⟩ := choose_landings s
  exact ftAt_skew hf (by rw [hl]) l

/-- However a step ends, what stands after it is what `finish` makes of some state. -/
theorem step_next {s t : State} (h : step s = .next t) : ∃ u, t = finish u := by
  have ran {r : Host.Outcome State Fault Refusal} (hr : andThen r finish = .next t) : ∃ u, t = finish u := by
    cases r with
    | next u => exact ⟨u, (Host.Outcome.next.inj hr).symm⟩
    | fault e => cases hr
    | refused e => cases hr
  unfold step at h
  split at h
  · exact ran h
  · split at h
    · exact ⟨_, (Host.Outcome.next.inj h).symm⟩
    · exact ⟨_, (Host.Outcome.next.inj h).symm⟩
    · exact ran h
    · exact ran h

/-- The end of a step makes the invariant hold, whatever the step did: the passing of time bounds the skews, and the choice of the
next turn leaves them and takes an event that may happen. -/
theorem finish_inv (s : State) : Inv (finish s) where
  skew := by
    unfold finish
    rw [(choose_landings _).1]
    exact passTime_skew _
  turn := choose_turn _

theorem step_inv {s t : State} (h : step s = .next t) : Inv t := by
  obtain ⟨u, hu⟩ := step_next h
  rw [hu]
  exact finish_inv u

/-- What ends a step moves no landing's FT back, and none by more than a tick, from where it stands once the step's work is wound
up. -/
theorem finish_ftAt {s : State} (hs : ∀ x ∈ s.windUp.landings, x.skew ≤ 2) {l : Nat} (hl : l < s.windUp.landings.length) :
    s.windUp.ftAt l ≤ (finish s).ftAt l ∧ (finish s).ftAt l ≤ s.windUp.ftAt l + 1 := by
  have hk : s.windUp.observe.acknowledge.landings.map Landing.skew = s.windUp.landings.map Landing.skew :=
    (acknowledge_skew _).trans (observe_skew _)
  have hn : s.windUp.observe.acknowledge.landings.length = s.windUp.landings.length := by
    simpa using congrArg List.length hk
  have hp := passTime_ft (skew_le_of_map_eq hk hs) l (hl.trans_eq hn.symm)
  rw [observe_ftAt] at hp
  unfold finish
  rwa [choose_ftAt]

/-- Where nothing is left to be done, the same holds from where the step left the FTs. -/
theorem finish_ftAt_quiet {s : State} (hq : Quiet s) (hs : ∀ x ∈ s.landings, x.skew ≤ 2) {l : Nat} (hl : l < s.landings.length) :
    s.ftAt l ≤ (finish s).ftAt l ∧ (finish s).ftAt l ≤ s.ftAt l + 1 := by
  have hw := windUp_quiet hq
  have h := finish_ftAt (s := s) (l := l) (by rw [hw]; exact hs) (by rw [hw]; exact hl)
  rw [hw] at h
  exact h

theorem reset_skew : ∀ x ∈ State.reset.landings, x.skew = 0 := by
  intro x hx
  rw [List.eq_of_mem_replicate hx]
  rfl

theorem reset_ftAt {l : Nat} (hl : l < State.reset.landings.length) : State.reset.ftAt l = 0 := by
  rw [ftAt_of _ l hl, reset_skew _ (List.getElem_mem hl)]
  rfl

/-- A machine starts with its module reset on turn. -/
theorem reset_inv : Inv State.reset where
  skew x hx := by rw [reset_skew x hx]; decide
  turn _ he := .inr (.inr (Option.some.inj he).symm)

end Sys2Proof.Laws

namespace Sys2Proof

open Sys2Proof.Machine Sys2Proof.Laws

/-- Settles O58: every step ends in `finish`, which makes the invariant hold of its own and moves the FTs by at most a tick. That a
turn goes to any event that can happen, and that FT passes by a free amount, are the model's choices (log entries 4, 5). -/
theorem stepsKeepTime : Obligations.StepsKeepTime := by
  unfold Obligations.StepsKeepTime
  intro s hs
  refine ⟨fun t ht => ?_, fun hq l hl => finish_ftAt_quiet hq hs.skew hl, ?_⟩
  · have hi := step_inv ht
    refine ⟨hi, fun l k hl hk => ?_⟩
    have above := (ftAt_bounds hi.skew hl).2
    have below := (ftAt_bounds hi.skew hk).1
    omega
  · intro u hu
    rw [hu]
    exact fun hw l hl => finish_ftAt hw hl

/-- Settles O59: the invariant at reset, and the fields of `State.reset`. That unwritten memory reads zero is the model's choice (log
entry 2). -/
theorem resetState : Obligations.ResetState := by
  unfold Obligations.ResetState
  refine ⟨reset_inv, by decide, fun _ => rfl, List.length_replicate, rfl, rfl, rfl, fun l hl => ?_⟩
  exact reset_ftAt (lt_of_lt_of_eq hl List.length_replicate.symm)

end Sys2Proof
end

section
/-! PROOF. Contexts and lanes that leave (02 R31, R35; 03 R78; 07 R194, R195): what EXIT leaves at the berth, at the anchor and on the pair
to it, and what a JOIN of a sibling, or a RET that acts as one, sends there. -/

namespace Sys2Proof.Laws

open Sys2Proof.Machine

/-- A context that left its berth is no longer found. -/
theorem group?_of_left {s t : State} {u : Nat} (h : t.groups = (s.dropGroup u).groups) : t.group? u = none := by
  unfold State.group?
  rw [h, State.dropGroup_groups, List.find?_eq_none]
  intro x hx
  simpa using (List.mem_filter.1 hx).2

/-! EXIT -/

/-- A context that has exited lanes. -/
def withoutLanes (g : Group) (m : Mask) : Group := { g with exited := g.exited ||| m, active := g.active &&& ~~~m }

/-- What the lanes of a context leave at its berth: it is free when no lane remains. -/
def vacated (s : State) (g : Group) (m : Mask) : State :=
  if (withoutLanes g m).active = 0 then s.dropGroup g.uid else s.setGroup (withoutLanes g m)

section
variable (s : State) (g : Group) (m : Mask)

theorem vacated_eq : ∃ gs, vacated s g m = { s with groups := gs } := by unfold vacated; split <;> exact ⟨_, rfl⟩

variable {s g}

/-- Toward an anchor on a peer module the exit travels as a notice. -/
theorem exitLanes_of_origin {p : Nat} (h : g.origin = some p) : s.exitLanes g m =
    (vacated s g m).sendPeer p g.l g.anchor (s.ftAt g.l) (.exitNotice g.ctx g.tag g.team g.rank m) := by
  simp only [State.exitLanes, vacated, withoutLanes, State.leaveBerth, h]

/-- A sibling tells its anchor on its pair. -/
theorem exitLanes_of_sibling (h : g.origin = none) (hs : g.sibling = true) : s.exitLanes g m =
    (vacated s g m).send g.l g.anchor (.exit g.ctx g.tag g.team g.rank m) := by
  simp only [State.exitLanes, vacated, withoutLanes, State.leaveBerth, h, hs, if_true]

/-- A context that is no sibling is counted at once. -/
theorem exitLanes_of_alone (h : g.origin = none) (hs : g.sibling = false) : s.exitLanes g m =
    (vacated s g m).countExited g.ctx g.tag g.team g.rank m := by
  simp only [State.exitLanes, vacated, withoutLanes, State.leaveBerth, h, hs, Bool.false_eq_true, if_false]

/-- A rank that keeps a lane keeps its team's record, with the lanes counted. -/
theorem countExited_team? {s : State} {ctx tag team r : Nat} {m : Mask} {tm tm' : Team} (h : s.team? ctx tag team = some tm)
    (ht : tm' = { tm with exited := tm.exited.set r (tm.exited.getD r 0 ||| m) }) (hl : tm'.rankLive r = true) :
    (s.countExited ctx tag team r m).team? ctx tag team = some tm' := by
  unfold State.countExited
  rw [h]
  dsimp only
  rw [← ht, hl, Bool.not_true, Bool.and_false, if_neg Bool.false_ne_true]
  subst ht
  exact setTeam_find h rfl rfl rfl

theorem exitLanes_sendPeer {p : Nat} (h : g.origin = some p) : (s.exitLanes g m).teams = s.teams ∧
    (s.exitLanes g m).links = (s.sendPeer p g.l g.anchor (s.ftAt g.l) (.exitNotice g.ctx g.tag g.team g.rank m)).links := by
  obtain ⟨gs, hv⟩ := vacated_eq s g m
  rw [exitLanes_of_origin m h, hv]
  exact ⟨rfl, rfl⟩

theorem exitLanes_pair (h : g.origin = none) (hs : g.sibling = true) : (s.exitLanes g m).teams = s.teams ∧
    (s.exitLanes g m).pair g.l g.anchor = s.pair g.l g.anchor ++ [.exit g.ctx g.tag g.team g.rank m] := by
  obtain ⟨gs, hv⟩ := vacated_eq s g m
  rw [exitLanes_of_sibling m h hs, hv]
  exact ⟨rfl, (pair_send _ _ _ _ _ _).trans (if_pos ⟨rfl, rfl⟩)⟩

theorem exitLanes_team? {tm tm' : Team} (h : g.origin = none) (hs : g.sibling = false) (hf : s.team? g.ctx g.tag g.team = some tm)
    (ht : tm' = { tm with exited := tm.exited.set g.rank (tm.exited.getD g.rank 0 ||| m) }) (hl : tm'.rankLive g.rank = true) :
    (s.exitLanes g m).team? g.ctx g.tag g.team = some tm' := by
  obtain ⟨gs, hv⟩ := vacated_eq s g m
  rw [exitLanes_of_alone m h hs, hv]
  exact countExited_team? hf ht hl

/-- Wherever the exit is counted, the berths are as the lanes left them. -/
theorem exitLanes_groups : (s.exitLanes g m).groups = (vacated s g m).groups := by
  cases ho : g.origin with
  | some p => rw [exitLanes_of_origin m ho, State.sendPeer_groups]
  | none =>
    cases hs : g.sibling with
    | true => rw [exitLanes_of_sibling m ho hs, send_groups]
    | false => rw [exitLanes_of_alone m ho hs, countExited_groups]

end

variable {i : Instr} {s s1 u : State} {g : Group} {e : Env}

/-- EXIT leaves its context's frames as they were: one that had room, and is still in its berth, has room. -/
theorem exec_exit {o : A32} (h : Issues (.exit o) s s1 g e) (hr : Room e.g) :
    exec (.exit o) s = .next ((s1.setGroup e.g).exitLanes (e.g.advance (.exit o)) e.act) := by
  refine exec_ok h (execExit.eq_1 o s) rfl fun k hk => ?_
  rw [← issues_uid h] at hk
  have hg := exitLanes_groups (s := s1.setGroup e.g) (g := e.g.advance (.exit o)) e.act
  unfold vacated at hg
  split at hg
  · exact absurd ((group?_of_left (u := e.g.uid) hg).symm.trans hk) nofun
  · unfold State.group? at hk
    rw [hg] at hk
    rw [group?_setGroup (g := withoutLanes (e.g.advance (.exit o)) e.act) hk]
    exact Room.same hr rfl rfl

/-- Where the lanes of ACTIVE leave the berths (07 R195). -/
theorem exited_groups (h : Issues i s s1 g e) : (vacated (s1.setGroup e.g) (e.g.advance i) e.act).groups =
    if e.act = e.g.active then ((s1.setGroup e.g).dropGroup e.g.uid).groups
    else (s1.setGroup (withoutLanes (e.g.advance i) e.act)).groups := by
  have hz : (withoutLanes (e.g.advance i) e.act).active = 0 ↔ e.act = e.g.active := rest_zero h
  unfold vacated
  by_cases ha : e.act = e.g.active
  · rw [if_pos (hz.2 ha), if_pos ha]
    rfl
  · rw [if_neg (mt hz.1 ha), if_neg ha, setGroup_setGroup s1 e.g (withoutLanes (e.g.advance i) e.act) rfl]

/-! JOIN in a sibling, and a RET in the frame it split in -/

/-- A RET of every lane of a sibling, in the frame it split in, does what JOIN with J = 15 does (03 R78). -/
theorem joins_eq {o : A32} {j : Nat} {implicit : Bool}
    (hi : (i = .join o ∧ j = o.b.toNat ∧ implicit = false) ∨
      (i = .ret o ∧ j = 15 ∧ implicit = true ∧ e.act = e.g.active ∧ e.g.sb = some e.g.depth))
    (h : Issues i s s1 g e) (hs : e.g.sibling = true) (hb : (s1.setGroup e.g).sideBusy e.g.uid = false) :
    ∃ body, exec i s = issue i s body ∧ body (s1.setGroup e.g) e = joinAt (s1.setGroup e.g) e j implicit := by
  rcases hi with ⟨rfl, rfl, rfl⟩ | ⟨rfl, rfl, rfl, ha, hsb⟩
  · exact ⟨_, execJoin.eq_1 o s, by simp [hb, hs]⟩
  · exact ⟨_, execRet.eq_1 o s, by simp [fall_all h ha, hs, hsb]⟩

/-- The checks of a join pass: its context has no side-log part, and its anchor is its own landing, one of its context's, or on a
peer module. -/
structure MayJoin (s : State) (g : Group) : Prop where
  idle : s.sideBusy g.uid = false
  anchored : g.origin.isSome = true ∨ g.anchor = g.l ∨ (s.ctx g.ctx).landMask.getLsbD g.anchor = true

theorem MayJoin.reaches {s : State} {g : Group} (h : MayJoin s g) :
    ¬(g.origin.isNone = true ∧ g.anchor ≠ g.l ∧ (!(s.ctx g.ctx).landMask.getLsbD g.anchor) = true) := by
  rintro ⟨ho, ha, hl⟩
  rcases h.anchored with h | h | h
  · rw [Option.isNone_iff_eq_none.1 ho] at h
    exact absurd h (by decide)
  · exact ha h
  · rw [h] at hl
    exact absurd hl (by decide)

/-- A context as it leaves for its anchor: its LA windows are gone, and unless it stays on its landing its last FT is that of leaving. -/
def leaving (s : State) (g : Group) : Group :=
  { g with la := [], lastFT := if g.anchor = g.l ∧ g.origin = none then g.lastFT else s.ftAt g.l }

/-- A join waits while older frames are to be spilled. -/
theorem joinAt_of_older {j : Nat} {implicit : Bool} (h : MayJoin s e.g) (ho : e.g.older ≠ []) :
    joinAt s e j implicit = .wait (s.modGroup e.g.uid fun x => { x with wse := .spillAll }) := by
  simp only [joinAt, h.idle, h.reaches, State.needSealed, List.isEmpty_iff, ho, Bool.false_eq_true, if_false]

/-- What a context sealed in `u` leaves behind, and what goes to its anchor: the arrival itself, or toward a peer module its image. -/
def departed (s u : State) (g : Group) (join : JoinPoint) : State :=
  match g.origin with
  | none => (u.dropGroup g.uid).send g.l g.anchor (.arrival ⟨leaving s g, join⟩)
  | some p => (u.dropGroup g.uid).sendPeer p g.l g.anchor (s.ftAt g.l)
      (.arrival g.ctx ((u.image (leaving s g)).map Prod.fst) join.j join.addr.toNat join.implicit)

section
variable {s u : State} {g : Group} (join : JoinPoint)

theorem departed_of_origin_none (h : g.origin = none) : departed s u g join =
    (u.dropGroup g.uid).send g.l g.anchor (.arrival ⟨leaving s g, join⟩) := by simp only [departed, h]

theorem departed_of_origin {p : Nat} (h : g.origin = some p) : departed s u g join =
    (u.dropGroup g.uid).sendPeer p g.l g.anchor (s.ftAt g.l)
      (.arrival g.ctx ((u.image (leaving s g)).map Prod.fst) join.j join.addr.toNat join.implicit) := by simp only [departed, h]

@[simp] theorem departed_groups : (departed s u g join).groups = (u.dropGroup g.uid).groups := by unfold departed; split <;> rfl
@[simp] theorem departed_mem : (departed s u g join).mem = u.mem := by unfold departed; split <;> rfl

end

/-- A join of a sealed context, but for the berth that one on its way to another landing still holds. -/
theorem joinAt_of_sealed (j : Nat) (implicit : Bool) (h : MayJoin s e.g) (ho : e.g.older = []) (hw : s.writeBlock e.g = .ok u) :
    ∃ gs, joinAt s e j implicit = .ok { departed s u e.g ⟨j, e.g.pc, implicit⟩ with ghosts := gs } := by
  have hs : s.needSealed e.g = none := by simp only [State.needSealed, ho, List.isEmpty_nil, if_true]
  have hl : (e.g.anchor == e.g.l && e.g.origin.isNone) = decide (e.g.anchor = e.g.l ∧ e.g.origin = none) := by
    rw [Bool.eq_iff_iff]
    simp
  simp only [joinAt, h.idle, h.reaches, hs, hw, hl, Bool.false_eq_true, if_false, decide_eq_true_eq]
  unfold departed leaving
  by_cases hc : e.g.anchor = e.g.l ∧ e.g.origin = none
  · simp only [hc, true_and, if_true]
    exact ⟨_, rfl⟩
  · simp only [hc, if_false]
    exact ⟨_, rfl⟩

end Sys2Proof.Laws

namespace Sys2Proof

open Sys2Proof.Machine Sys2Proof.Laws

/-- Settles O36: `exitLanes` by where its context's anchor stands, and `joinAt` by whether older frames are to be spilled. That the exit
of a context that is no sibling is counted at once, that an arrival that stays on its landing keeps its last FT, and the items that
go to a peer module are the model's choices (log entries 36, 38 and 91). -/
theorem exits : Obligations.Exits := by
  unfold Obligations.Exits
  refine fun o s s1 g e => ⟨fun i g' hi h hr hg => ?_, fun i j implicit u hi h hs hb ha => ?_⟩
  · subst hi hg
    let s0 := s1.setGroup e.g
    let a := e.g.advance (.exit o)
    exact ⟨s0.exitLanes a e.act, exec_exit h hr, (exitLanes_groups _).trans (exited_groups h),
      fun _ => exitLanes_sendPeer (s := s0) (g := a) _, exitLanes_pair (s := s0) (g := a) _,
      fun hn hs _ _ => exitLanes_team? (s := s0) (g := a) _ hn hs⟩
  · obtain ⟨body, hx, hj⟩ := joins_eq hi h hs hb
    have hm : MayJoin (s1.setGroup e.g) e.g := ⟨hb, ha⟩
    refine ⟨fun ho => exec_wait_self h hx (hj.trans (joinAt_of_older hm ho)) (fun _ => rfl) rfl, fun ho hw => ?_⟩
    obtain ⟨gs, hd⟩ := joinAt_of_sealed j implicit hm ho hw
    have hg : (departed (s1.setGroup e.g) u e.g ⟨j, e.g.pc, implicit⟩).groups = ((s1.setGroup e.g).dropGroup e.g.uid).groups := by
      rw [departed_groups, State.dropGroup_groups, writeBlock_groups hw, State.dropGroup_groups]
    refine ⟨_, leaving (s1.setGroup e.g) e.g, exec_ok h hx (hj.trans hd) fun k hk => ?_, hg, departed_mem _, rfl, fun hn => ?_, fun p hp => ?_⟩
    · rw [← issues_uid h, group?_of_left (t := { departed _ _ _ _ with ghosts := gs }) hg] at hk
      cases hk
    · rw [departed_of_origin_none _ hn]
      exact (pair_send _ _ _ _ _ _).trans (if_pos ⟨rfl, rfl⟩)
    · rw [departed_of_origin _ hp]
      rfl

end Sys2Proof
end

section
/-! PROOF. What pairs of landings deliver (02 R28, R31, R32, R35, R43; 05 R127, R128, R130, R140; 12 R322; 17 R363). -/

namespace Sys2Proof.Laws

open Sys2Proof.Machine

/-- An item that a turn does not take stays on its pair. -/
theorem deliver_none {s t : State} {src dst : Nat} {item : Item} {rest : List Item} {f : Item → State → Option State}
    (h : s.pair src dst = item :: rest) (ht : t = s.setPair src dst rest) (hf : f item t = none) : s.deliver src dst f = .next s := by
  subst ht
  simp [State.deliver, State.head, h, hf]

section
variable {t : State} {dst : Nat} {g : Group}

/-! An image reaches a landing: its context runs there, is free, or is parking (17 R363). -/

theorem arriveImage_of_runs (h : (t.ctx g.ctx).runsAt dst = true) : t.arriveImage dst g = t.enterWharf dst g .frame := if_pos h

theorem arriveImage_of_free (h : (t.ctx g.ctx).runsAt dst = false) (h0 : (t.ctx g.ctx).state = 0) : t.arriveImage dst g = t := by
  simp only [State.arriveImage, h, h0, Bool.false_eq_true, if_false, if_true]

theorem arriveImage_of_parking (h : (t.ctx g.ctx).runsAt dst = false) (h0 : (t.ctx g.ctx).state ≠ 0) :
    t.arriveImage dst g = t.parkArriving dst g true false := by
  simp only [State.arriveImage, h, h0, Bool.false_eq_true, if_false]

end

/-! A posted store of one lane -/

/-- A rejection is recorded in its landing's registers alone. -/
@[simp] theorem rejectPost_mem (t : State) (xs : List PostLane) : (t.rejectPost xs).mem = t.mem := by
  unfold State.rejectPost
  split <;> rfl

/-- A lane in a launch window writes nothing. -/
theorem applyStore_of_lwin {t : State} {pl n : Nat} {x : PostLane} (hc : x.ctr = none) (hl : x.loc.lwin = true) :
    t.applyStore pl n x = t := by
  simp only [State.applyStore, hc, hl, if_true]

/-- The state in which a posted store's lanes are applied: its transfers are counted. -/
def counted (t : State) (p : Post) : State :=
  (t.beatLocs (p.lanes.map PostLane.loc) p.size true).beatTwice (p.lanes.filterMap PostLane.ctr) 8

theorem counted_mem (t : State) (p : Post) : (counted t p).mem = t.mem := by
  unfold counted
  rw [beatTwice_mem, beatLocs_mem]

/-- A store of one lane leaves in memory what the lane does. -/
theorem applyStores_one {t : State} {p : Post} {x : PostLane} (h : p.lanes = [x]) :
    (t.applyStores p).mem = ((counted t p).applyStore p.pl p.size x).mem := by
  unfold State.applyStores counted
  rw [rejectPost_mem, h]
  rfl

/-! Keyed contributions -/

theorem keyedEnter_of_room {t : State} {l n : Nat} {es : List KeyedEntry} (h : (t.landing l).mn.keyed.length + es.length ≤ keyedRoom) :
    t.keyedEnter l es (n + 1) = (true, none, t.modMN l fun (m : MergeNet) => { m with keyed := m.keyed ++ es }) := by
  rw [State.keyedEnter, if_pos h]

section
variable {src dst : Nat} {s t : State} {rest : List Item}

/-- A crossing that is delivered reaches its landing. -/
theorem exec_crossingArrival {g : Group} (h : s.pair src dst = .crossing g :: rest) (ht : t = s.setPair src dst rest) :
    exec (.crossingArrival src dst) s = .next (t.arriveImage dst g) := deliver_some h ht rfl

/-- An arrival waits until FT has passed that of its crossing (01 R17). -/
theorem exec_arrival_early {a : Arrival} (h : s.pair src dst = .arrival a :: rest) (hf : s.ftAt dst ≤ a.g.lastFT) :
    exec (.arrival src dst) s = .next s := deliver_none h rfl (if_pos hf)

/-- What an arrival whose time has come does at its anchor. -/
def arrived (t : State) (src dst : Nat) (a : Arrival) : State :=
  if (t.ctx a.g.ctx).runsAt dst then (if src < 64 then t.joinArrives dst a else t.rejoin dst a .frame)
  else if (t.ctx a.g.ctx).state = 0 then t
  else t.parkArriving dst a.g true true

theorem exec_arrival_due {a : Arrival} (h : s.pair src dst = .arrival a :: rest) (ht : t = s.setPair src dst rest)
    (hf : a.g.lastFT < s.ftAt dst) : exec (.arrival src dst) s = .next (arrived t src dst a) := by
  refine deliver_some h ht ?_
  unfold arrived
  dsimp only
  rw [if_neg (Nat.not_le.2 hf)]
  split
  · rfl
  · split <;> rfl

theorem exec_postedStoreApply {p : Post} (h : s.pair src dst = .post p :: rest) (ht : t = s.setPair src dst rest) (hp : p.op = .store) :
    exec (.postedStoreApply src dst) s = .next (t.applyStores p) := deliver_some h ht (if_pos hp)

theorem exec_reductionApply {p : Post} {f : Nat} (h : s.pair src dst = .post p :: rest) (ht : t = s.setPair src dst rest)
    (hp : p.op = .reduce f) : exec (.reductionApply src dst) s = .next (t.applyReduce p f) :=
  deliver_some h ht (by dsimp only; rw [hp])

/-- Keyed contributions that find room are entered together. -/
theorem exec_keyedBufferEntry {p : Post} {f : Nat} (h : s.pair src dst = .post p :: rest) (ht : t = s.setPair src dst rest)
    (hp : p.op = .keyed f) (hk : p.token = none) (hr : (t.landing dst).mn.keyed.length + p.lanes.length ≤ keyedRoom) :
    exec (.keyedBufferEntry src dst) s = .next (t.modMN dst fun (m : MergeNet) =>
      { m with keyed := m.keyed ++ p.lanes.map fun x => x.entry p.ctx f }) := by
  refine deliver_some h ht ?_
  dsimp only
  rw [hp, hk]
  dsimp only
  rw [keyedEnter_of_room (by rwa [List.length_map])]

theorem exec_flip {p : Post} {x : PostLane} (h : s.pair src dst = .post p :: rest) (ht : t = s.setPair src dst rest)
    (hp : p.op = .flip) (hx : p.lanes = [x]) :
    exec (.flip src dst) s = .next { t with mem := t.mem.setFlip x.loc.pa !(t.mem.flip x.loc.pa) } := by
  refine deliver_some h ht ((if_pos hp).trans ?_)
  rw [hx]
  rfl

end

end Sys2Proof.Laws

namespace Sys2Proof

open Sys2Proof.Machine Sys2Proof.Laws

/-- Settles O48: each kind of item by the turn that takes it; a crossing and an arrival by whether their context runs at the landing,
and a posted store of one lane by whether it falls in a launch window. That a pair numbered 64 or above comes from a peer module
is the model's choice (log entry 78). -/
theorem deliveries : Obligations.Deliveries := by
  unfold Obligations.Deliveries
  intro src dst s t item rest h ht
  refine ⟨?_, ?_, ?_, ?_, ?_, ?_⟩
  · rintro g rfl
    exact ⟨_, exec_crossingArrival h ht, arriveImage_of_runs, arriveImage_of_free, arriveImage_of_parking⟩
  · rintro a rfl
    by_cases hf : s.ftAt dst ≤ a.g.lastFT
    · exact ⟨s, exec_arrival_early h hf, fun _ => rfl, fun hc => absurd hf (Nat.not_le.2 hc)⟩
    · refine ⟨_, exec_arrival_due h ht (Nat.not_le.1 hf), fun hc => absurd hc hf, fun _ => ⟨?_, ?_, ?_, ?_⟩⟩
      · intro hr hs
        rw [arrived, if_pos hr, if_pos hs]
      · intro hr hs
        rw [arrived, if_pos hr, if_neg (Nat.not_lt.2 hs)]
      · intro hr h0
        rw [arrived, if_neg (by rw [hr]; decide), if_pos h0]
      · intro hr h0
        rw [arrived, if_neg (by rw [hr]; decide), if_neg h0]
  · rintro ctx tag team rank m rfl
    exact deliver_some h ht rfl
  · rintro ctx tag o m rfl
    exact deliver_some h ht rfl
  · rintro p rfl
    refine ⟨fun hp => ⟨_, exec_postedStoreApply h ht hp, rfl, fun x hx hc => ⟨fun hl b => ?_, fun hl _ hm hw b => ?_⟩⟩,
      fun f hp => exec_reductionApply h ht hp, fun f hp hk hr => exec_keyedBufferEntry h ht hp hk hr, fun hp x hx => exec_flip h ht hp hx⟩
    · rw [applyStores_one hx, applyStore_of_lwin hc hl, counted_mem]
    · rw [← counted_mem t p] at hm hw ⊢
      rw [applyStores_one hx]
      exact applyStore_byte hc hm hl hw b
  · rintro id rfl
    exact deliver_some h ht rfl

end Sys2Proof
end

section
/-! PROOF. Register windows (02 R37; 03 R50, R60, R61, R63, R65; 06 R151, R157, R160; 07 R192; 17 R350): what opening a frame leaves in
the callee and in the caller, what ENTER makes of a frame, and the checks that an instruction passes before its own effect. -/

namespace Sys2Proof.Laws

open Sys2Proof.Machine

/-! Opening a frame -/

/-- A frame whose registers are given by their numbers. -/
theorem reg?_of_v_eq {f : Frame} {r : Nat → Option VReg} (h : f.v = (List.range 64).map r) (k : Nat) :
    f.reg? k = if k < 64 then r k else none := by
  unfold Frame.reg?
  rw [h, List.getD_eq_getElem?_getD, List.getElem?_map]
  split
  · next hk => rw [List.getElem?_range hk]; rfl
  · next hk => rw [List.getElem?_eq_none (by simpa using hk)]; rfl

/-- A caller's frame once it has given its last eight registers to a callee that returns to `ret` (03 R60). -/
def callerOf (f : Frame) (ret : DWord) : Frame :=
  { f with resumePC := ret, v := (List.range 64).map fun k => if f.fsz - 8 ≤ k ∧ k < f.fsz then none else f.reg? k }

theorem callerOf_v (f : Frame) (ret : DWord) : (callerOf f ret).v =
    (List.range 64).map fun k => if f.fsz - 8 ≤ k ∧ k < f.fsz then none else f.reg? k := rfl

theorem call_older (g : Group) (ret t : DWord) : (g.call ret t).older = callerOf g.frame ret :: g.older := rfl

/-- A caller keeps its registers below the last eight. -/
theorem callerOf_reg?_of_lt {f : Frame} {k : Nat} (ret : DWord) (hf : f.fsz ≤ 64) (hk : k < f.fsz - 8) :
    (callerOf f ret).reg? k = f.reg? k := by
  rw [reg?_of_v_eq (callerOf_v f ret), if_pos (by omega), if_neg (by omega)]

section
variable (g : Group) (ret t : DWord)

theorem call_v : (g.call ret t).frame.v =
    (List.range 64).map fun k => if k < 8 then g.frame.reg? (g.frame.fsz - 8 + k) else none := rfl

/-- A callee's first eight registers are its caller's last eight. -/
theorem call_reg?_of_lt {k : Nat} (hk : k < 8) : (g.call ret t).frame.reg? k = g.frame.reg? (g.frame.fsz - 8 + k) := by
  rw [reg?_of_v_eq (call_v g ret t), if_pos (by omega), if_pos hk]

/-- A callee has no other register. -/
theorem call_reg?_of_ge {k : Nat} (hk : 8 ≤ k) : (g.call ret t).frame.reg? k = none := by
  rw [reg?_of_v_eq (call_v g ret t)]
  split
  · exact if_neg (by omega)
  · rfl

/-- No copy is outstanding under a callee's tokens. -/
theorem call_token {k : Nat} (hk : k < 8) : (g.call ret t).frame.k.getD k Token.complete = Token.complete :=
  List.getD_replicate _ hk

end

/-! ENTER -/

/-- A target is aligned to sixteen bytes when its low four bits are zero. -/
theorem and_15_eq_zero_iff (t : DWord) : t &&& 0xF = 0 ↔ t.toNat % 16 = 0 := by
  rw [← BitVec.toNat_inj, BitVec.toNat_and]
  exact iff_of_eq (congrArg (· = 0) (Nat.and_two_pow_sub_one_eq_mod t.toNat 4))

/-- The frame that ENTER makes of an unentered one: its size, its manifest table, and no register above v7 (03 R61). -/
def enteredFrame (o : J64) (t : DWord) (f : Frame) : Frame :=
  { f with
    fsz := 8 * o.d.toNat, table := if o.off = 0 then none else some t, entered := true
    v := (List.range 64).map fun k => if k < 8 then f.reg? k else none }

section
variable {o : J64} {s s1 : State} {g : Group} {e : Env}

/-- ENTER's table is absent, or aligned (07 R192). -/
def EnterAligned (o : J64) (e : Env) : Prop := o.off = 0 ∨ (e.g.pc + 2 * o.off.signExtend 64).toNat % 16 = 0

theorem enterAligned_iff :
    (o.off != 0 && (directTarget e.g (o.off.signExtend 64) &&& 0xF) != 0) = false ↔ EnterAligned o e := by
  rw [Bool.and_eq_false_iff, bne_eq_false_iff_eq, bne_eq_false_iff_eq, and_15_eq_zero_iff]
  rfl

theorem exec_enter_of_misaligned (h : Issues (.enter o) s s1 g e) (ha : ¬EnterAligned o e) :
    exec (.enter o) s = .next (trapped s1 g 0 (illegalTrap 2 7 8)) :=
  exec_trap h (execEnter.eq_1 o s) (if_pos (Bool.of_not_eq_false (mt enterAligned_iff.1 ha)))

theorem exec_enter_of_entered (h : Issues (.enter o) s s1 g e) (ha : EnterAligned o e) (he : e.g.frame.entered = true) :
    exec (.enter o) s = .next (trapped s1 g 0 (mkTrap 17 1)) := by
  refine exec_trap h (execEnter.eq_1 o s) ?_
  simp only [enterAligned_iff.2 ha, he, Bool.false_eq_true, if_false, if_true]

/-- Outside trap handlers ENTER keeps 16,384 bytes of spill room free (03 R63). -/
theorem exec_enter_of_short (h : Issues (.enter o) s s1 g e) (ha : EnterAligned o e) (he : e.g.frame.entered = false)
    (hn : e.g.inTrap = false) (hs : (s1.setGroup e.g).spillLim e.g < (s1.setGroup e.g).spillTop e.g + e.g.olderBytes + 16384) :
    exec (.enter o) s = .next (trapped s1 g 0 (mkTrap 16 1)) := by
  refine exec_trap h (execEnter.eq_1 o s) ?_
  simp only [enterAligned_iff.2 ha, he, Bool.false_eq_true, if_false]
  simp [hn, hs]

/-- Where there is spill room, for a trap handler just enough for the frames it has, ENTER completes. -/
theorem exec_enter_of_room (h : Issues (.enter o) s s1 g e) (ha : EnterAligned o e) (he : e.g.frame.entered = false)
    (hs : if e.g.inTrap then (s1.setGroup e.g).spillTop e.g + e.g.olderBytes ≤ (s1.setGroup e.g).spillLim e.g
      else (s1.setGroup e.g).spillTop e.g + e.g.olderBytes + 16384 ≤ (s1.setGroup e.g).spillLim e.g)
    (hr : Room { e.g with frame := enteredFrame o (e.g.pc + 2 * o.off.signExtend 64) e.g.frame }) :
    exec (.enter o) s = .next (after (.enter o) s1 e.g 0 (enteredFrame o (e.g.pc + 2 * o.off.signExtend 64) e.g.frame)) := by
  have hz : e.g.gstatus ||| (0 : Word) = e.g.gstatus := by simp
  unfold after
  rw [hz]
  refine exec_self_done h (execEnter.eq_1 o s) ?_ rfl hr
  simp only [enterAligned_iff.2 ha, he, Bool.false_eq_true, if_false]
  cases ht : e.g.inTrap with
  | true =>
    rw [ht, if_pos rfl] at hs
    simp only [Nat.not_lt.2 hs, decide_false, Bool.and_false, Bool.not_true, Bool.false_and, Bool.false_eq_true, if_false]
    rfl
  | false =>
    rw [ht, if_neg Bool.false_ne_true] at hs
    simp only [Nat.not_lt.2 hs, decide_false, Bool.and_false, Bool.false_and, Bool.false_eq_true, if_false]
    rfl

end

/-! The checks before an instruction's own effect -/

/-- No register at or above F is named: there is no frame-range trap (03 R50). -/
theorem rangeTrap_eq_none {g : Group} {regs : List Nat} (h : ∀ r < 72, g.frame.fsz ≤ r → r ∉ regs) : g.rangeTrap regs = none := by
  have hf : (List.range 72).find? (fun r => decide (g.frame.fsz ≤ r) && regs.contains r) = none := by
    rw [List.find?_range_eq_none]
    intro r hr
    simpa [imp_iff_not_or] using h r hr
  unfold Group.rangeTrap
  rw [hf]

/-- The frame-range trap reports the lowest register at or above F that is named (03 R50). -/
theorem rangeTrap_of_lowest {g : Group} {regs : List Nat} {r : Nat} (hlow : ∀ k < r, g.frame.fsz ≤ k → k ∉ regs) (hr : r < 72)
    (hf : g.frame.fsz ≤ r) (hm : r ∈ regs) : g.rangeTrap regs = some (mkTrap 3 r) := by
  have hfind : (List.range 72).find? (fun r => decide (g.frame.fsz ≤ r) && regs.contains r) = some r := by
    rw [List.find?_range_eq_some]
    refine ⟨by simp [hf, hm], List.mem_range.2 hr, fun k hk => ?_⟩
    simpa [imp_iff_not_or] using hlow k hk
  unfold Group.rangeTrap
  rw [hfind]

section
variable {i : Instr} {s s1 : State} {g : Group} {body : State → Env → R} {t : Trap} {m : Manifest}

theorem issue_privTrap (hc : s.curGroup = some g) (hp : i.privTrap (s.ctx g.ctx).pl = some t) :
    issue i s body = .next (s.takeTrap g t) := by
  simp only [issue, hc, hp]

theorem issue_rangeTrap (hc : s.curGroup = some g) (hp : i.privTrap (s.ctx g.ctx).pl = none)
    (hr : g.rangeTrap i.shape.named = some t) : issue i s body = .next (s.takeTrap g t) := by
  simp only [issue, hc, hp, hr]

/-- The group on turn may use the instruction, and its frame holds every register that it names. -/
structure MayName (i : Instr) (s : State) (g : Group) : Prop where
  current : s.curGroup = some g
  allowed : i.privTrap (s.ctx g.ctx).pl = none
  inFrame : g.rangeTrap i.shape.named = none

variable (h : MayName i s g)
include h

theorem issue_manifestTrap (hm : s.manifest g i.ls = .trap t) : issue i s body = .next (s.takeTrap g t) := by
  simp only [issue, h.current, h.allowed, h.inFrame, hm]

theorem issue_manifestFault {va : Nat} {e : TFault} (hm : s.manifest g i.ls = .fault va e) :
    issue i s body = .next (s.fetchFault g va e) := by
  simp only [issue, h.current, h.allowed, h.inFrame, hm]

/-- An instruction that no lane takes only moves the pc (06 R151). -/
theorem issue_noLane (hm : s.manifest g i.ls = .ok m s1) (hg : g.guard i.g4 = 0) :
    issue i s body = .next (s1.setGroup ((g.laStep i false).advance i)) := by
  simp only [issue, h.current, h.allowed, h.inFrame, hm, hg, if_true]

theorem issue_deadTrap (hm : s.manifest g i.ls = .ok m s1) (hg : g.guard i.g4 ≠ 0)
    (hd : s1.deadRead g (g.absentReads i) = .error t) : issue i s body = .next (s.takeTrap g t) := by
  simp only [issue, h.current, h.allowed, h.inFrame, hm, hg, hd, if_false]

end

end Sys2Proof.Laws

namespace Sys2Proof

open Sys2Proof.Machine Sys2Proof.Laws

/-- Settles O18: the registers of the callee and of the caller by number; every other field stands in `Group.call` as it is. -/
theorem frameOpening : Obligations.FrameOpening := by
  unfold Obligations.FrameOpening
  rintro g ret t h rfl - hf
  exact ⟨rfl, fun _ hk => call_reg?_of_lt g ret t hk, fun _ hk => call_reg?_of_ge g ret t hk, rfl, rfl, fun _ hk => call_token g ret t hk,
    rfl, rfl, rfl, _, call_older g ret t, rfl, fun _ hk => callerOf_reg?_of_lt ret hf hk⟩

/-- Settles O20: the checks of ENTER in their order, and the frame it leaves where they pass. -/
theorem frameEntry : Obligations.FrameEntry := by
  unfold Obligations.FrameEntry
  rintro o i rfl s s1 g e h
  refine ⟨exec_enter_of_misaligned h, exec_enter_of_entered h, exec_enter_of_short h, ?_⟩
  rintro ha he hs f rfl hr
  exact exec_enter_of_room h ha he hs hr

/-- Settles O57: every instruction goes through `issue`, whose checks stand in this order. -/
theorem issueChecks : Obligations.IssueChecks := by
  unfold Obligations.IssueChecks
  intro i s g hi hc
  obtain ⟨body, hx⟩ := exec_issue i s hi
  rw [hx]
  refine ⟨fun t ht => issue_privTrap hc ht, fun hp => ⟨fun r hlow hr hf hm => ?_, fun hn => ?_⟩⟩
  · exact issue_rangeTrap hc hp (rangeTrap_of_lowest hlow hr hf hm)
  · have h : MayName i s g := ⟨hc, hp, rangeTrap_eq_none hn⟩
    exact ⟨fun _ => issue_manifestTrap h, fun _ _ => issue_manifestFault h,
      fun _ _ hm => ⟨issue_noLane h hm, fun hg _ => issue_deadTrap h hm hg⟩⟩

end Sys2Proof
end

section
/-! PROOF. Instructions that order and wait (05 R131, R135; 09 R238 to R241): FENCE, CWAIT, MIGRATE and REDCLOSE, each by what it
finds when its turn comes. -/

namespace Sys2Proof.Laws

open Sys2Proof.Machine

variable {i : Instr} {o : M64} {s s1 t : State} {g : Group} {e : Env} {xs : List (Nat × Loc)}

/-! FENCE -/

theorem exec_fence_unscoped (h : Issues (.fence o) s s1 g e) (hr : Room e.g) (ho : o.scope = 0) :
    exec (.fence o) s = .next (s1.setGroup (e.g.advance (.fence o))) :=
  exec_self_done h (execFence.eq_1 o s) (if_pos ho) rfl hr

/-- What a FENCE does at its turn, by the adoption it has marked and the tide it sees there. -/
theorem exec_fence_scoped {tide ad : Nat} (h : Issues (.fence o) s s1 g e) (hr : Room e.g) (ho : o.scope ≠ 0)
    (hb : (s1.setGroup e.g).sideBusy e.g.uid = false) (ht : (tide, ad) = (s1.landing e.g.l).tide o.scope.toNat) :
    (e.g.mark = none → exec (.fence o) s = .next (s1.setGroup { g with mark := some ad })) ∧
    ∀ m, e.g.mark = some m →
      (m < ad → e.g.horizon < tide → exec (.fence o) s = .next (s1.setGroup (e.g.advance (.fence o)))) ∧
      (¬(m < ad ∧ e.g.horizon < tide) → exec (.fence o) s = .next (s1.setGroup g)) := by
  have ht' : ((s1.setGroup e.g).landing e.g.l).tide o.scope.toNat = (tide, ad) := ht.symm
  refine ⟨fun hm => ?_, fun m hm => ⟨fun h1 h2 => ?_, fun hn => ?_⟩⟩
  · refine exec_wait_self (F := fun k => { k with mark := some ad }) h (execFence.eq_1 o s) ?_ (fun _ => rfl) rfl
    simp only [if_neg ho, hb, ht', hm, Bool.false_eq_true, if_false]
  · refine exec_self_done h (execFence.eq_1 o s) ?_ rfl hr
    simp only [if_neg ho, hb, ht', hm, Bool.false_eq_true, if_false, if_pos (And.intro h1 h2)]
  · refine exec_wait_same h (execFence.eq_1 o s) ?_
    simp only [if_neg ho, hb, ht', hm, Bool.false_eq_true, if_false, if_neg hn]

/-! CWAIT -/

/-- The counters of a CWAIT, each with the value its lane waits for. -/
def awaited (e : Env) (o : M64) (xs : List (Nat × Loc)) : List (Nat × Loc × Nat) :=
  xs.map fun x => (x.1, x.2, (e.g.frame.pair o.b.toNat x.1).toNat)

/-- The lanes of a CWAIT whose counters have been seen to reach their values, now or at an earlier turn. -/
def met (t : State) (e : Env) (o : M64) (xs : List (Nat × Loc)) : Mask := e.g.satisfied ||| t.reached (awaited e o xs)

theorem met_getLsbD {l : Nat} (hl : l < 32) : (met t e o xs).getLsbD l = true ↔
    e.g.satisfied.getLsbD l = true ∨ ∃ x ∈ xs, x.1 = l ∧ (e.g.frame.pair o.b.toNat l).toNat ≤ (t.seen 8 x.2).1 := by
  unfold met State.reached awaited failMask
  rw [BitVec.getLsbD_or, maskOf_getLsbD, decide_eq_true hl, Bool.true_and, Bool.or_eq_true, List.contains_iff_mem]
  refine or_congr_right ?_
  constructor
  · intro h
    obtain ⟨w, hw, rfl⟩ := List.mem_map.1 h
    obtain ⟨hw, hle⟩ := List.mem_filter.1 hw
    obtain ⟨x, hx, rfl⟩ := List.mem_map.1 hw
    exact ⟨x, hx, rfl, of_decide_eq_true hle⟩
  · rintro ⟨x, hx, rfl, hle⟩
    exact List.mem_map.2 ⟨_, List.mem_filter.2 ⟨List.mem_map.2 ⟨x, hx, rfl⟩, decide_eq_true hle⟩, rfl⟩

/-- Nothing of ACTIVE is left where every lane of it is met. -/
theorem rest_met {a m : Mask} : a &&& ~~~m = 0 ↔ ∀ l, a.getLsbD l = true → m.getLsbD l = true := by
  constructor
  · intro h l ha
    have hl := congrArg (BitVec.getLsbD · l) h
    simpa [ha, getLsbD_lt ha] using hl
  · intro h
    apply BitVec.eq_of_getLsbD_eq
    intro l hl
    cases ha : a.getLsbD l with
    | false => simp [ha]
    | true => simp [ha, h l ha]

/-- A CWAIT reads its counters at its first turn alone; after it they are watched. -/
def looked (t : State) (e : Env) (xs : List (Nat × Loc)) : State := if e.g.watch.isEmpty then (t.readLanes 8 xs).2 else t

theorem readLocPart_groups (t : State) (x : Loc) (n : Nat) : (t.readLocPart x n).2.2.groups = t.groups := by
  unfold State.readLocPart State.readPart
  split
  · rfl
  · exact findErrors_groups _ _ _ _

theorem readLanes_groups (t : State) (n : Nat) (xs : List (Nat × Loc)) : (t.readLanes n xs).2.groups = t.groups :=
  (foldl_groups (fun s (x : Nat × Loc) => (s.readLocPart x.2 n).2.2) (fun s x => readLocPart_groups s x.2 n) xs _).trans
    (beats_groups _ _)

theorem looked_byte (t : State) (e : Env) (xs : List (Nat × Loc)) (b : Nat) : (looked t e xs).mem.byte b = t.mem.byte b := by
  unfold looked
  split
  · exact readLanes_byte t 8 xs b
  · rfl

theorem looked_groups (t : State) (e : Env) (xs : List (Nat × Loc)) : (looked t e xs).groups = t.groups := by
  unfold looked
  split
  · exact readLanes_groups t 8 xs
  · rfl

/-- Where no post of its own stands in its way, a CWAIT completes when the lanes of ACTIVE are met, and else watches its counters. -/
theorem cwaitHere_of_ours (ho : t.ownPosts e.g = false) : cwaitHere t i e o xs =
    if e.act &&& ~~~met t e o xs = 0 then memDone (looked t e xs) i e.g (xs.map fun x => x.2.pa)
    else .wait ((looked t e xs).modGroup e.g.uid fun k =>
      { k with satisfied := met t e o xs, watch := awaited e o xs, carried := some xs }) := by
  unfold cwaitHere
  rw [ho]
  rfl

section
variable {va : Nat → Nat} (hva : va = memAddr (s1.ctx e.g.ctx) e.g o)
include hva

/-- A CWAIT whose counters are at its landing does there what `cwaitHere` says. -/
theorem execCwait_here (hk : Here accCwait 8 (addrRegs (o.af == 1) o.a.toNat) va s1 e xs t) :
    ∃ body, exec (.cwait o) s = issue (.cwait o) s body ∧ body (s1.setGroup e.g) e = cwaitHere t (.cwait o) e o xs := by
  subst hva
  have hg : resolve (s1.setGroup e.g) e accCwait e.act (memOp ((s1.setGroup e.g).ctx e.g.ctx) e.g o 8) = .go xs t :=
    resolve_go (o := memOp (s1.ctx e.g.ctx) e.g o 8) hk
  refine ⟨_, execCwait.eq_1 o s, ?_⟩
  simp only [hg]
  exact partitioned_here hk.here.1

theorem exec_cwait_done (h : Issues (.cwait o) s s1 g e) (hr : Room e.g)
    (hk : Here accCwait 8 (addrRegs (o.af == 1) o.a.toNat) va s1 e xs t)
    (hm : ∀ l, e.act.getLsbD l = true → (met t e o xs).getLsbD l = true) : exec (.cwait o) s =
      .next ((looked t e xs).setGroup ((e.g.laLines (.cwait o) (xs.map fun (x : Nat × Loc) => x.2.pa)).advance (.cwait o))) := by
  obtain ⟨body, hx, hb⟩ := execCwait_here (s := s) hva hk
  obtain ⟨la, y, hl⟩ := laLines_sticky e.g (.cwait o) (xs.map fun (x : Nat × Loc) => x.2.pa)
  refine exec_done h hx (hb.trans ?_) (laLines_uid _ _ _) (by rw [hl]; exact Room.same hr rfl rfl)
  rw [cwaitHere_of_ours hk.here.2, if_pos (rest_met.2 hm)]
  rfl

theorem exec_cwait_wait (h : Issues (.cwait o) s s1 g e)
    (hk : Here accCwait 8 (addrRegs (o.af == 1) o.a.toNat) va s1 e xs t)
    (hm : ∃ l, e.act.getLsbD l = true ∧ (met t e o xs).getLsbD l = false) :
    exec (.cwait o) s =
      .next ((looked t e xs).setGroup { g with satisfied := met t e o xs, watch := awaited e o xs, carried := some xs }) := by
  obtain ⟨body, hx, hb⟩ := execCwait_here (s := s) hva hk
  refine exec_wait_at (F := fun k => { k with satisfied := met t e o xs, watch := awaited e o xs, carried := some xs }) h hx
    ((looked_groups t e xs).trans (here_walked hk).groups) (hb.trans ?_) (fun _ => rfl) rfl
  rw [cwaitHere_of_ours hk.here.2]
  refine if_neg fun h0 => ?_
  obtain ⟨l, ha, hn⟩ := hm
  exact absurd ((rest_met.1 h0 l ha).symm.trans hn) (by decide)

/-! MIGRATE -/

theorem exec_migrate (h : Issues (.migrate o) s s1 g e) (hr : Room e.g)
    (hk : Here accMigrate 1 (addrRegs (o.af == 1) o.a.toNat) va s1 e xs t) :
    exec (.migrate o) s = .next (t.setGroup (e.g.advance (.migrate o))) := by
  subst hva
  have hg : resolve (s1.setGroup e.g) e accMigrate e.act (memOp ((s1.setGroup e.g).ctx e.g.ctx) e.g o 1) = .go xs t :=
    resolve_go (o := memOp (s1.ctx e.g.ctx) e.g o 1) hk
  refine exec_done h (execMigrate.eq_1 o s) ?_ rfl hr
  simp only [hg]
  exact partitioned_here hk.here.1

end

/-! REDCLOSE -/

theorem exec_redclose_closed {id : Nat} (h : Issues (.redclose o) s s1 g e) (hr : Room e.g) (hm : e.g.mark = some id)
    (hc : ∀ x ∈ s1.landings, ∀ c ∈ x.mn.closes, c.id ≠ id) :
    exec (.redclose o) s = .next (s1.setGroup (e.g.advance (.redclose o))) := by
  refine exec_self_done h (execRedclose.eq_1 o s) ?_ rfl hr
  simp only [hm]
  exact if_neg (by simpa using hc)

theorem exec_redclose_wait {id : Nat} (h : Issues (.redclose o) s s1 g e) (hm : e.g.mark = some id)
    (hc : ∃ x ∈ s1.landings, ∃ c ∈ x.mn.closes, c.id = id) : exec (.redclose o) s = .next (s1.setGroup g) := by
  refine exec_wait_same h (execRedclose.eq_1 o s) ?_
  simp only [hm]
  exact if_pos (by simpa using hc)

/-- A REDCLOSE that has given no command may give one: nothing of its context stands in its way, and its address passes checks
1 to 3 (09 R227). -/
structure MayClose (s1 : State) (e : Env) (o : M64) (va : Nat) : Prop where
  fresh : e.g.mark = none
  idle : (s1.setGroup e.g).plainBusy e.g.uid = false
  named : va = memAddr (s1.ctx e.g.ctx) e.g o (lowLane e.act)
  clean : ∀ r ∈ addrRegs (o.af == 1) o.a.toNat, e.g.frame.bad r (lowLane e.act) = false
  range : va < 2 ^ 56
  aligned : va % 0x20000 = 0

namespace MayClose

variable {n va : Nat} (hc : MayClose s1 e o va) (hn : n = (e.g.frame.lane o.b.toNat (lowLane e.act)).toNat)
include hc

theorem checks : checks3 e.g 4 e.low [memOp ((s1.setGroup e.g).ctx e.g.ctx) e.g o 0x20000] = none := by
  have hva : (memOp ((s1.setGroup e.g).ctx e.g.ctx) e.g o 0x20000).va (lowLane e.act) = va := hc.named.symm
  apply checks3_clean <;> simp only [List.mem_singleton, forall_eq]
  · intro r hr l hl
    rw [low_lane hl]
    exact hc.clean r hr
  · intro l hl
    rw [low_lane hl, hva]
    exact hc.range
  · intro l hl
    rw [low_lane hl, hva]
    exact hc.aligned

include hn

theorem exec_count (h : Issues (.redclose o) s s1 g e) (h0 : n = 0 ∨ 65536 < n) :
    exec (.redclose o) s = .next (trapped s1 g 0 (illegalTrap 2 11 8)) := by
  refine exec_trap h (execRedclose.eq_1 o s) ?_
  simp only [hc.fresh, hc.idle, hc.checks, ← hn, if_pos h0, Bool.false_eq_true, if_false]

/-- The close commands of a region go to the homes of its pages, and the context waits for them under a mark of its own. -/
theorem exec_closes {ys : List Loc} (h : Issues (.redclose o) s s1 g e) (h0 : 0 < n) (h1 : n ≤ 65536)
    (ht : (s1.setGroup e.g).translatePages e.g.l e.g.ctx accClose va n = .ok (ys, t)) :
    ∃ u : State, exec (.redclose o) s = .next (u.setGroup { g with mark := some t.nextReq, busy := true }) ∧ u.mem = t.mem ∧
      u.groups = t.groups ∧ u.nextReq = t.nextReq + 1 ∧
      ∀ l < t.landings.length, (u.landing l).mn.closes = (t.landing l).mn.closes ++
        if ys.any (fun x => home x.pa == l)
          then [⟨t.nextReq, e.g.ctx, (ys.filter fun x => home x.pa == l).map Loc.pa, none⟩] else [] := by
  obtain ⟨hmem, hgroups, hreq, hcloses⟩ := closes_fold t.nextReq e.g.ctx ys { t with nextReq := t.nextReq + 1 }
  refine ⟨_, exec_wait_at (F := fun k => { k with mark := some t.nextReq, busy := true }) h (execRedclose.eq_1 o s)
    (hgroups.trans (walked_pages ht).groups) ?_ (fun _ => rfl) rfl, hmem, hgroups, hreq, hcloses⟩
  have hva : (memOp ((s1.setGroup e.g).ctx e.g.ctx) e.g o 0x20000).va (lowLane e.act) = va := hc.named.symm
  have hcount : ¬(n = 0 ∨ 65536 < n) := by omega
  simp only [hc.fresh, hc.idle, hc.checks, ← hn, if_neg hcount, Bool.false_eq_true, if_false, hva, ht]

end MayClose

end Sys2Proof.Laws

namespace Sys2Proof

open Sys2Proof.Machine Sys2Proof.Laws

/-- Settles O31: each of the four by what it finds at its turn. That FENCE marks the adoption it is issued at, and the permission that
REDCLOSE asks for, are the model's choices (log entries 44, 95). -/
theorem orderingAndWaits : Obligations.OrderingAndWaits := by
  unfold Obligations.OrderingAndWaits
  intro o s s1 g e hr
  refine ⟨?_, ?_, ?_, ?_⟩
  · rintro _ rfl h
    exact ⟨exec_fence_unscoped h hr, fun ho hb _ _ ht => exec_fence_scoped h hr ho hb ht⟩
  · rintro _ rfl h va xs t hva hk
    have hmet {l : Nat} (ha : e.act.getLsbD l = true) := met_getLsbD (t := t) (e := e) (o := o) (xs := xs) (getLsbD_lt ha)
    refine ⟨looked t e xs, looked_byte t e xs, looked_groups t e xs, fun hall => ?_, ?_⟩
    · exact exec_cwait_done hva h hr hk fun l ha => (hmet ha).2 (hall l ha)
    · rintro ⟨l, ha, hs, hx⟩
      refine ⟨_, _, exec_cwait_wait hva h hk ⟨l, ha, ?_⟩, fun l hl => met_getLsbD hl⟩
      refine Bool.eq_false_iff.2 fun hl => ?_
      rcases (hmet ha).1 hl with hl | ⟨x, hm, he, hle⟩
      · exact absurd (hs.symm.trans hl) (by decide)
      · exact absurd hle (Nat.not_le.2 (hx x hm he))
  · rintro _ rfl h va xs t hva hk
    exact exec_migrate hva h hr hk
  · rintro _ rfl h n va hn hva
    refine ⟨fun id hm => exec_redclose_closed h hr hm, fun id hm => exec_redclose_wait h hm, fun hm hb hp hra ha => ?_⟩
    have hc : MayClose s1 e o va := ⟨hm, hb, hva, hp, hra, ha⟩
    exact ⟨hc.exec_count hn h, fun h0 h1 _ _ ht => hc.exec_closes hn h h0 h1 ht⟩

end Sys2Proof
end

section
/-! PROOF. Turns of the engines (05 R138, R139; 10 R265, R266, R270, R271; 12 R314, R315, R322; 17 R363; 19 R387, R388): each event
by the state of its engine. -/

namespace Sys2Proof.Laws

open Sys2Proof.Machine

variable {s : State} {l core slot : Nat}

/-! The copy engine -/

section
variable {id k : Nat} {c : Copy} {p : Piece}

/-- A piece that can go on takes its step. -/
theorem exec_copyLine (hc : s.copies.find? (fun c => c.id == id) = some c) (hp : c.pieces[k]? = some p)
    (hr : s.pieceReady c k = true) : exec (.copyLine id k) s = .next (s.copyStep c k p) := by
  refine (execCopyLine.eq_1 id k s).trans ?_
  simp only [hc, hp, hr, if_true]

theorem copyStep_of_run {x : Loc} {n : Nat} (hx : p.src[p.data.length]? = some (x, n)) (hn : x.peer = none) :
    s.copyStep c k p =
      (s.readRun x n).2.endCopy { c with pieces := c.pieces.set k { p with data := p.data ++ [(s.readRun x n).1] } } := by
  simp only [State.copyStep, hx, hn]

theorem copyStep_of_read (hl : p.src.length ≤ p.data.length) : s.copyStep c k p =
    (s.writePiece c p).1.endCopy { c with pieces := c.pieces.eraseIdx k, unacked := c.unacked ++ (s.writePiece c p).2 } := by
  simp only [State.copyStep, List.getElem?_eq_none hl]

end

/-! A merge network -/

/-- A close of a region for a context that has no keyed run. -/
theorem exec_closeCommand_of_noRuns {c : Close} {rest : List Close} (hc : (s.landing l).mn.closes = c :: rest) (ht : c.token = none)
    (hr : (s.ctx c.ctx).keyedRuns l = []) :
    let inside (k : KeyedEntry) : Bool := c.pages.contains (k.pa / 0x20000 * 0x20000)
    exec (.closeCommand l) s = .next (((s.setRuns c.ctx l []).modMN l fun (m : MergeNet) =>
      { m with keyed := m.keyed.filter fun k => !inside k, closes := rest }).applyKeyed l (s.ctx c.ctx).pl
        ((s.landing l).mn.keyed.filter inside)) := by
  refine (execCloseCommand.eq_1 l s).trans ?_
  simp [hc, ht, hr, State.readKeyed, State.rewriteRuns]

section
variable {x : Session}

/-- A network that must spill spills the session that holds the most. -/
theorem exec_mergeSpill {m : MergeNet} (hm : m = (s.landing l).mn) (hx : m.slots.getD m.fullest none = some x)
    (hf : 458752 < m.held + 8) (ht : x.token = none) (he : x.ending = 0) :
    exec (.mergeSpill l) s = .next (s.spillSession l m.fullest x) := by
  subst hm
  have hfull : (s.landing l).mn.full = true := decide_eq_true hf
  refine (execMergeSpill.eq_1 l s).trans ?_
  simp only [hx, hfull, ht, he]
  rfl

theorem spillSession_of_noRoom (h : 64 ≤ x.runs.length ∨ x.desc.spill.toNat + 65536 * x.desc.spillCap.toNat <
    runsEnd x.desc.spill.toNat x.runs + runBytes x.held.length) : s.spillSession l slot x = s.failSession l slot x 3 0 := if_pos h

theorem spillSession_of_written {s1 : State} {a n : Nat} (ha : a = runsEnd x.desc.spill.toNat x.runs) (hn : n = x.held.length)
    (hr : x.runs.length < 64) (hc : a + runBytes n ≤ x.desc.spill.toNat + 65536 * x.desc.spillCap.toNat)
    (hw : s.writeRun l x.ctx a ((sortBy Tuple.order x.held).map fun t => (t.bytes, t.poison)) = .ok s1) :
    s.spillSession l slot x = s1.settleSlot l slot { x with held := [], runs := x.runs ++ [(a, n)] } := by
  subst ha hn
  refine (if_neg (by omega)).trans ?_
  simp only [hw]

section
variable (hx : (s.landing l).mn.slots.getD slot none = some x) (ht : x.token = none)
include hx ht

theorem exec_rowCommit_ending (he : x.ending ≠ 0) : exec (.rowCommit l slot) s = .next (s.rest l slot x) := by
  refine (execRowCommit.eq_1 l slot s).trans ?_
  simp only [hx, ht, Option.isSome_none, Bool.false_eq_true, if_false, if_pos he]

section
variable (he : x.ending = 0)
include he

theorem exec_rowCommit_closing (hs : x.state = 1) (hc : x.closing = true) (ho : x.opening = false) :
    exec (.rowCommit l slot) s = .next (s.spillSession l slot x) := by
  have hf : x.finishes = true := by simp [Session.finishes, hs, hc, ho]
  have hs2 : x.state ≠ 2 := by omega
  refine (execRowCommit.eq_1 l slot s).trans ?_
  simp only [hx, ht, Option.isSome_none, Bool.false_eq_true, if_false, if_neg (not_not.2 he), if_pos hs2, if_pos hf]

variable (hs : x.state = 2)
include hs

theorem exec_rowCommit_merging (hd : x.rowDone = false) : exec (.rowCommit l slot) s = .next (s.mergeRow l slot x) := by
  refine (execRowCommit.eq_1 l slot s).trans ?_
  simp only [hx, ht, Option.isSome_none, Bool.false_eq_true, if_false, if_neg (not_not.2 he), if_neg (not_not.2 hs), hd]

theorem exec_rowCommit_written {s1 : State} (hd : x.rowDone = true)
    (hw : s.emit l x.ctx [(x.desc.rowPtr.toNat + x.desc.pw * (x.nextRow + 1), toBytes x.desc.pw (x.e + x.need), false)] = .ok s1) :
    exec (.rowCommit l slot) s = .next (s1.commitRow l slot x) := by
  refine (execRowCommit.eq_1 l slot s).trans ?_
  simp only [hx, ht, Option.isSome_none, Bool.false_eq_true, if_false, if_neg (not_not.2 he), if_neg (not_not.2 hs), if_pos hd, hw]

end
end
end

/-! A matrix unit -/

section
variable {u : MUnit} (hu : u = s.unit l core)
include hu

theorem exec_claimEnd {h : Nat × Nat × Nat} (hh : u.holder = some h)
    (he : (∃ c rest, u.queue = c :: rest ∧ c.op.isRelease = true) ∨ (u.queue = [] ∧ s.teamGone h = true)) :
    exec (.claimEnd l core) s =
      .next ((s.letGo u.queue).setUnit { MUnit.clear l core with accepted := u.accepted, done := u.accepted }) := by
  subst hu
  refine (execClaimEnd.eq_1 l core s).trans (if_pos ?_)
  unfold State.claimEnds
  rcases he with ⟨c, rest, hq, hr⟩ | ⟨hq, hg⟩
  · simp [hh, hq, hr]
  · simp [hh, hq, hg]

/-- The machine after a claim's regions are saved, its queue as `q` and its row buffer as `r` (10 R270). -/
def savedState (s : State) (a : Nat) (u : MUnit) (q r : List Byte) : State :=
  ((((s.store a u.saveBytes false).store (a + 0x65000) u.scaleBytes false).store (a + 0x65800) (u.statusBytes s.steps) false).store
    (a + 0x66000) q false).store (a + 0x68000) r false

theorem exec_claimNarrowing {h : Nat × Nat × Nat} (hh : u.holder = some h) (hn : s.narrowable u = true) :
    ∃ t q r, exec (.claimNarrowing l core) s =
        .next { t.setUnit { MUnit.clear l core with accepted := u.accepted, done := u.accepted } with
          saved := t.saved ++ [⟨h.1, l, core, u, q, r⟩] } ∧
      t = savedState s ((s.ctx h.1).saveArea l core) u q r := by
  subst hu
  refine ⟨_, freeBytes s.steps 0x66000 1024, freeBytes s.steps 0x68000 32768, (execClaimNarrowing.eq_1 l core s).trans ?_, rfl⟩
  simp only [hn, if_true, hh]
  rfl

end

/-- A saved claim whose queue and row-buffer regions stand as they were saved goes to a free unit. -/
theorem exec_claimRestore {ctxid k a : Nat} {c : SavedClaim}
    (hc : s.saved.find? (fun c => c.ctx == ctxid && c.l == l && c.core == core && (s.ctx ctxid).state == 2) = some c)
    (ha : a = (s.ctx ctxid).saveArea l core) (hq : s.mem.bytes (a + 0x66000) 1024 = c.queueBytes)
    (hr : s.mem.bytes (a + 0x68000) 32768 = c.rowBytes) (hk : s.restoreCore c = some k) : exec (.claimRestore ctxid l core) s =
      .next ((State.setUnit { s with saved := s.saved.filter fun d => !(d.ctx == ctxid && d.l == l && d.core == core) }
        { c.restore s.mem a with
          l := l, core := k, accepted := (s.unit l k).accepted + c.unit.queue.length, done := (s.unit l k).accepted }).moveAffinity
          (c.unit.holder.getD (ctxid, 0, 0)) l core k) := by
  subst ha
  refine (execClaimRestore.eq_1 ctxid l core s).trans ?_
  simp only [hc, hk]
  exact if_neg (not_or.2 ⟨not_not.2 hq, not_not.2 hr⟩)

/-! What a matrix unit's replies leave in the registers that wait for them -/

theorem wrote_nil (f : Frame) (amask act : Mask) (form : DForm) (val : Nat → Nat → Word) (bad : Nat → Nat → Bool) :
    Wrote f f amask act ⟨[], form, val, bad⟩ where
  value _ h := absurd h List.not_mem_nil
  poison _ h := absurd h List.not_mem_nil
  partly _ _ h := absurd h List.not_mem_nil
  full _ _ h := absurd h List.not_mem_nil
  all _ _ _ h := absurd h List.not_mem_nil
  kept _ _ h := absurd h List.not_mem_nil
  others _ _ _ := rfl
  rest := rfl

/-- One register after those written before it. -/
theorem wrote_putLanes {f h : Frame} {mask : Mask} {ds : List Nat} {d : Nat} {val : Nat → Nat → Word} {v : Nat → Nat}
    (hd : d < 64) (hds : ∀ x ∈ ds, x < d) (hv : val d = fun i => BitVec.ofNat 32 (v i))
    (h1 : Wrote f h mask mask ⟨ds, .g, val, fun _ _ => false⟩) :
    Wrote f (h.putLanes mask d v) mask mask ⟨ds ++ [d], .g, val, fun _ _ => false⟩ := by
  have := wrote_snoc hd (fun x hx => (hds x hx).trans hd) (fun hx => lt_irrefl d (hds d hx)) h1 (hw := trivial)
  rwa [hv] at this

theorem wrote_row (f : Frame) (mask : Mask) (d : Nat) (v : Nat → Nat → Nat) : ∀ n, d + n ≤ 64 →
    Wrote f ((List.range n).foldl (fun (h : Frame) k => h.putLanes mask (d + k) (v k)) f) mask mask
      ⟨(List.range n).map (d + ·), .g, fun r i => BitVec.ofNat 32 (v (r - d) i), fun _ _ => false⟩
  | 0, _ => wrote_nil f mask mask _ _ _
  | n + 1, hn => by
    rw [List.range_succ, List.foldl_append, List.map_append]
    refine wrote_putLanes (by omega) (fun x hx => ?_) ?_ (wrote_row f mask d v n (by omega))
    · obtain ⟨k, hk, rfl⟩ := List.mem_map.1 hx
      have := List.mem_range.1 hk
      omega
    · rw [Nat.add_sub_cancel_left]

theorem wrote_two (f : Frame) (mask : Mask) {d : Nat} (hd : d + 2 ≤ 64) (x : Nat) (y : Nat → Nat) :
    Wrote f ((f.putLanes mask d fun _ => x).putLanes mask (d + 1) y) mask mask
      ⟨[d, d + 1], .g, fun r i => BitVec.ofNat 32 (if r ≤ d then x else y i), fun _ _ => false⟩ := by
  refine wrote_putLanes (ds := [d]) (by omega) (fun r hr => ?_) ?_ <|
    wrote_putLanes (ds := []) (by omega) nofun ?_ (wrote_nil f mask mask _ _ _)
  · rw [List.mem_singleton.1 hr]
    exact d.lt_succ_self
  · simp
  · simp

/-! The head of a unit's queue -/

section
variable {u : MUnit} {c : MCmd} {rest : List MCmd} (hu : u = s.unit l core) (hq : u.queue = c :: rest)
include hu hq

theorem exec_queuedLoadB {fmt base pitch : Nat} {sp : Bool} {metas : List (Nat × Bool)}
    (ho : c.op = .loadB fmt sp base pitch metas) {b : List (List (Byte × Bool)) × State}
    (hb : b = s.readVas c.pages (rowBytes fmt) ((List.range 256).map fun k => (base + k * pitch) % 2 ^ 64)) :
    exec (.matrixCommandExecution l core) s =
      .next (b.2.setUnit (u.loadB fmt sp (b.1.map fun r => elements (fmtClass fmt) r 0 128 256) metas).complete) := by
  subst hu
  refine (execMatrixCommandExecution.eq_1 l core s).trans ?_
  simp only [hq, ho]
  rw [hb]

theorem exec_queuedLoadS {base : Nat} (ho : c.op = .loadS base) {b : List (Byte × Bool) × State}
    (hb : b = (s.beats (s.wordRuns c.pages base 4096)).readVa c.pages base 4096 258) :
    exec (.matrixCommandExecution l core) s = .next (b.2.setUnit (u.loadScales b.1).complete) := by
  subst hu
  refine (execMatrixCommandExecution.eq_1 l core s).trans ?_
  simp only [hq, ho]
  rw [hb]

theorem exec_queuedStep {z row fmt : Nat} {sparse : Bool} {a : List (List (Option Nat))} {xs : List (List Nat)}
    (ho : c.op = .step z row fmt sparse a xs) : exec (.matrixCommandExecution l core) s = .next (s.setUnit
      (u.step (arrayErrors s.steps) (s.ftAt l) z row fmt sparse ((a.zip xs).map fun r => ⟨r.1, r.2⟩)).complete) := by
  subst hu
  refine (execMatrixCommandExecution.eq_1 l core s).trans ?_
  simp only [hq, ho]

/-- The registers that an MREAD waits for take a row of an accumulator. -/
theorem exec_queuedRead {z row d uid : Nat} {mask : Mask} (ho : c.op = .read z row d uid mask) (hd : d + 8 ≤ 64) :
    ∃ f, exec (.matrixCommandExecution l core) s = .next ((s.matrixReply uid f).setUnit u.complete) ∧
      ∀ h : Frame, Wrote h (f h) mask mask ⟨(List.range 8).map (d + ·), .g,
        fun r i => BitVec.ofNat 32 (look u.tiles 0 (16384 * z + 256 * row + 32 * (r - d) + i)), fun _ _ => false⟩ := by
  subst hu
  refine ⟨_, (execMatrixCommandExecution.eq_1 l core s).trans ?_, fun h => wrote_row h mask d
    (fun k i => look (s.unit l core).tiles 0 (16384 * z + 256 * row + 32 * k + i)) 8 hd⟩
  simp only [hq, ho]

theorem exec_queuedStore {rm fmt row n z base pitch : Nat} {nosat : Bool}
    (ho : c.op = .store rm nosat fmt row n z base pitch) {w : State × Flags}
    (hw : w = s.storeRows u c.pages (s.ctx c.ctx).pl rm nosat fmt row n z base pitch) : exec (.matrixCommandExecution l core) s =
      .next (w.1.setUnit { u with status := u.status ||| w.2.setWidth 32 }.complete) := by
  subst hu hw
  refine (execMatrixCommandExecution.eq_1 l core s).trans ?_
  simp only [hq, ho]

/-- One K-step of a loop, or one quarter pass of a batch, that reloads no B tile. -/
theorem exec_queuedLoop {batch : Bool} {d : LoopDesc} {metas : List (List (Nat × Bool))} (ho : c.op = .loop batch d metas)
    (hr : d.reload = false) {k : Nat} (hk : k = u.progIdx) {rows : List ARow} {t : State}
    (ht : s.readA c.pages d batch (if batch then k / 4 else k) = (rows, t)) {v : MUnit}
    (hv : v = (if batch then u.pass (arrayErrors s.steps) (s.ftAt l) (k % 4) d.row0 d.aFmt rows
      else u.step (arrayErrors s.steps) (s.ftAt l) d.tile d.row0 d.aFmt d.sparse rows)) : exec (.matrixCommandExecution l core) s =
      .next (t.setUnit (if k + 1 = (if batch then 4 * d.steps else d.steps) then v.complete else { v with progIdx := k + 1 })) := by
  subst hu hk hv
  refine (execMatrixCommandExecution.eq_1 l core s).trans ?_
  simp only [hq, ho, hr, Bool.false_and, Bool.false_eq_true, if_false, ht]
  cases batch <;> simp only [Bool.false_eq_true, if_false, if_true]

/-- The registers that an MSTAT waits for take the status and the log. -/
theorem exec_queuedStat {clr : Bool} {d uid : Nat} {mask : Mask} (ho : c.op = .stat clr d uid mask) (hd : d + 2 ≤ 64) :
    ∃ f, exec (.matrixCommandExecution l core) s =
        .next ((s.matrixReply uid f).setUnit (if clr then { u with status := 0, log := [] } else u).complete) ∧
      ∀ h : Frame, Wrote h (f h) mask mask ⟨[d, d + 1], .g, fun r i => BitVec.ofNat 32
        (if r ≤ d then (u.status ||| BitVec.ofNat 32 (256 * u.log.length)).toNat
          else (u.log.getD (i / 4) 0).toNat / 2 ^ (32 * (i % 4))), fun _ _ => false⟩ := by
  subst hu
  refine ⟨_, (execMatrixCommandExecution.eq_1 l core s).trans ?_, fun h => wrote_two h mask hd _
    fun i => ((s.unit l core).log.getD (i / 4) 0).toNat / 2 ^ (32 * (i % 4))⟩
  simp only [hq, ho]

end

/-! A parking landing -/

section
variable {id : Nat} {c : Ctx} (hc : c = s.ctx id)
include hc

theorem exec_parkCommand_taken (h3 : c.state = 3) (ht : c.toCommand.contains l = true) : exec (.parkCommand id l) s =
    .next (s.modCtx id fun k => { k with toCommand := k.toCommand.filter (· != l), stopping := k.stopping ++ [l] }) := by
  subst hc
  exact (execParkCommand.eq_1 id l s).trans ((if_neg (not_not.2 h3)).trans (if_pos ht))

theorem exec_parkCommand_turn (h3 : c.state = 3) (ht : c.toCommand.contains l = false) (hs : c.stopping.contains l = true) :
    exec (.parkCommand id l) s = .next (s.parkTurn id l) := by
  subst hc
  refine (execParkCommand.eq_1 id l s).trans ((if_neg (not_not.2 h3)).trans ?_)
  rw [ht, if_neg Bool.false_ne_true, if_pos hs]

/-- The last landing of the context to report makes it PARKED. -/
theorem exec_parkReport (hr : s.reportReady c l = true) : exec (.parkReport id l) s = .next (s.setCtx
    (if ∀ k ∈ c.lands, k ∈ c.reported ∨ k = l then { c with state := 4, parker := none, reported := [] }
      else { c with reported := c.reported ++ [l] })) := by
  subst hc
  refine (execParkReport.eq_1 id l s).trans ?_
  have hall : ((s.ctx id).lands.all ((s.ctx id).reported ++ [l]).contains) = true ↔
      ∀ k ∈ (s.ctx id).lands, k ∈ (s.ctx id).reported ∨ k = l := by simp
  simp only [hr, hall, Bool.not_true, Bool.false_eq_true, if_false]

end

/-! The page move engine and the fault queue -/

section
variable {p : PageMove} (hp : p = (s.landing l).pm) (hb : p.stat.getLsbD 0 = true)
include hp hb

theorem exec_pageMove_refused {c : Nat} (h0 : p.step = 0) (hc : s.moveCause l p = some c) :
    exec (.pageMove l) s = .next ((s.readEntry l p).setMove l (p.finish 2 c)) := by
  subst hp
  refine (execPageMove.eq_1 l s).trans ?_
  simp only [hb, h0, hc, Bool.not_true, Bool.false_eq_true, if_false, if_true]

theorem exec_pageMove_begins (h0 : p.step = 0) (hc : s.moveCause l p = none) : exec (.pageMove l) s =
    .next ((((s.readEntry l p).moveDiscard l p).putEntry p.pte.toNat (s.mem.num p.pte.toNat 8 - 1)).setMove l
      { p with step := 1, old := BitVec.ofNat 64 (s.mem.num p.pte.toNat 8) }) := by
  subst hp
  refine (execPageMove.eq_1 l s).trans ?_
  simp only [hb, h0, hc, Bool.not_true, Bool.false_eq_true, if_false, if_true]

theorem exec_pageMove_waits (h1 : p.step = 1) :
    exec (.pageMove l) s = .next (if s.moveWaits p then s else s.setMove l { p with step := 2 }) := by
  subst hp
  refine (execPageMove.eq_1 l s).trans ?_
  simp only [hb, h1, Bool.not_true, Bool.false_eq_true, if_false, if_true, one_ne_zero]

theorem exec_pageMove_line {k : Nat} (hk : p.step = 2 + k) (hl : k < p.len / 64)
    (hs : (s.target l (p.src.toNat + 64 * k)).isMemory = true) (hd : (s.target l (p.dst.toNat + 64 * k)).isMemory = true) :
    exec (.pageMove l) s = .next (s.moveLine l p k) := by
  subst hp
  refine (execPageMove.eq_1 l s).trans ?_
  have h0 : (s.landing l).pm.step ≠ 0 := by omega
  have h1 : (s.landing l).pm.step ≠ 1 := by omega
  have h2 : (s.landing l).pm.step < 2 + (s.landing l).pm.len / 64 := by omega
  have hsub : (s.landing l).pm.step - 2 = k := by omega
  simp only [hb, if_neg h0, if_neg h1, if_pos h2, hsub, hs, hd, Bool.not_true, Bool.false_eq_true, if_false, Bool.and_self, if_true]

theorem exec_pageMove_ends (hk : p.step = 2 + p.len / 64) (hm : (s.target l p.pte.toNat).isMemory = true) : exec (.pageMove l) s =
    .next ((State.putEntry { s with mem := s.mem.forget p.dst.toNat p.len } p.pte.toNat p.new.toNat).moveEnd l p 1 0) := by
  subst hp
  refine (execPageMove.eq_1 l s).trans ?_
  have h0 : (s.landing l).pm.step ≠ 0 := by omega
  have h1 : (s.landing l).pm.step ≠ 1 := by omega
  have h2 : ¬(s.landing l).pm.step < 2 + (s.landing l).pm.len / 64 := by omega
  simp only [hb, if_neg h0, if_neg h1, if_neg h2, hm, Bool.not_true, Bool.false_eq_true, if_false, if_true]

end

theorem exec_fqheadWrite (h : (s.landing l).fq.held = []) (v : BitVec 32) :
    exec (.fqheadWrite l v) s = .next (s.modLanding l fun x => { x with fq := { x.fq with head := v } }) := by
  refine (execFqheadWrite.eq_1 l v s).trans ?_
  rw [h]
  rfl

end Sys2Proof.Laws

namespace Sys2Proof

open Sys2Proof.Machine Sys2Proof.Laws

/-- Settles O50: each engine's turn by the state it is found in. That a close applies the tuples of every context, that the landings of
LANDMASK alone report, the details of the page move, and the bytes of a saved queue and row buffer are the model's choices (log
entries 46, 67, 76 and 20). -/
theorem engineTurns : Obligations.EngineTurns := by
  unfold Obligations.EngineTurns
  intro s l core u m hu hm
  refine ⟨?_, ?_, ?_, ?_, ?_, ?_, ?_, ?_, ?_, ?_⟩
  · intro id k c p hc hp
    refine ⟨fun x n hx hn ha hh => ?_, fun hl hf => ?_⟩
    · have hr : home x.pa ≠ 64 ∨ x.peer.isSome ∨ s.hostUp := by tauto
      rw [exec_copyLine hc hp (pieceReady_read hp hx ha hr), copyStep_of_run hx hn]
    · rw [exec_copyLine hc hp (pieceReady_write hp hl hf), copyStep_of_read hl]
  · intro c rest hc ht hr
    subst hm
    exact exec_closeCommand_of_noRuns hc ht hr
  · intro x a n hx hf ht he ha hn
    have hs := exec_mergeSpill hm hx hf ht he
    refine ⟨fun hroom => ?_, fun hr hc s1 hw => ?_⟩
    · subst ha hn
      rw [hs, spillSession_of_noRoom hroom]
    · rw [hs, spillSession_of_written ha hn hr hc hw]
  · intro slot x hx ht
    subst hm
    exact ⟨exec_rowCommit_ending hx ht, exec_rowCommit_closing hx ht, exec_rowCommit_merging hx ht,
      fun he hs hd _ hw => exec_rowCommit_written hx ht he hs hd hw⟩
  · exact fun h hh => ⟨exec_claimEnd hu hh, exec_claimNarrowing hu hh⟩
  · exact fun _ _ _ _ hc ha hq hr hk => exec_claimRestore hc ha hq hr hk
  · intro c rest hq
    exact ⟨fun _ _ _ _ _ _ ho hb => exec_queuedLoadB hu hq ho hb, fun _ _ ho hb => exec_queuedLoadS hu hq ho hb,
      fun _ _ _ _ _ _ ho => exec_queuedStep hu hq ho, fun _ _ _ _ _ ho hd => exec_queuedRead hu hq ho hd,
      fun _ _ _ _ _ _ _ _ _ ho hw => exec_queuedStore hu hq ho hw,
      fun _ _ _ _ _ _ _ ho hr hk ht hv => exec_queuedLoop hu hq ho hr hk ht hv,
      fun _ _ _ _ ho hd => exec_queuedStat hu hq ho hd⟩
  · exact fun id c hc h3 => ⟨exec_parkCommand_taken hc h3, exec_parkCommand_turn hc h3, exec_parkReport hc⟩
  · exact fun p hp hb => ⟨fun _ h0 hc => exec_pageMove_refused hp hb h0 hc, exec_pageMove_begins hp hb, exec_pageMove_waits hp hb,
      fun _ hk hl hs hd => exec_pageMove_line hp hb hk hl hs hd, exec_pageMove_ends hp hb⟩
  · exact fun v hh => exec_fqheadWrite hh v

end Sys2Proof
end

section
/-! PROOF. What comes from outside the module (05 R143; 20 R390, R393, R395 to R399; 23 R421 to R424, R429): launches, register writes,
the host's accesses, and the items of the links. -/

namespace Sys2Proof.Laws

open Sys2Proof.Machine

variable {s : State} {l : Nat}

/-! Launch records -/

theorem candidates_eq_nil {x : Launch} : s.candidates x = [] ↔
    ∀ k < 64, (x.placeMask &&& (s.ctx x.ctx).landMask).getLsbD k = false := by
  simp [State.candidates]

theorem candidates_ne_nil {x : Launch} {k : Nat} (hk : k < 64) (hb : (x.placeMask &&& (s.ctx x.ctx).landMask).getLsbD k = true) :
    s.candidates x ≠ [] := fun h => absurd ((candidates_eq_nil.1 h k hk).symm.trans hb) (by decide)

section
variable {bs : List Byte} {x : Launch} (hx : x = Launch.ofBytes s.nextUid l bs)

theorem submitLaunch_of_length (hl : bs.length ≠ 64) : s.submitLaunch l bs = s.rejectLaunch l 5 := if_pos hl

variable (hl : bs.length = 64)
include hx hl

theorem submitLaunch_of_malformed (hb : x.malformed (bits (num bs 24 4) 31 26) (s.ctx x.ctx).pl = true) :
    s.submitLaunch l bs = s.rejectLaunch l 1 := by
  subst hx
  exact (if_neg (not_not.2 hl)).trans (if_pos hb)

variable (hb : x.malformed (bits (num bs 24 4) 31 26) (s.ctx x.ctx).pl = false)
include hb

/-- What a well-formed record comes to: the causes of R396 that are left, in their order. -/
theorem submitLaunch_of_wellFormed : s.submitLaunch l bs =
    if (s.ctx x.ctx).state ≠ 1 ∧ (s.ctx x.ctx).state ≠ 2 then s.rejectLaunch l 2
    else if s.candidates x = [] then s.rejectLaunch l 3
    else if 16 ≤ (s.landing l).pending.length then s.rejectLaunch l 4
    else (State.modCtx { s with nextUid := s.nextUid + 1 } x.ctx fun k => { k with state := 2 }).modLanding l fun y =>
      { y with pending := y.pending ++ [x] } := by
  subst hx
  simp only [State.submitLaunch, hl, hb, List.isEmpty_iff, ne_eq, not_true_eq_false, Bool.false_eq_true, if_false]

end

/-! Placement -/

theorem exec_teamPlacement_hold (h : (s.landing l).hold = true) : exec (.teamPlacement l) s = .next s :=
  (execTeamPlacement.eq_1 l s).trans (if_pos h)

/-- No record's start condition is left to be looked at. -/
theorem pending_lookedAt (hs : ∀ p ∈ (s.landing l).pending, p.started = true ∨ p.watch.isSome = true ∨ p.token.isSome = true) :
    (s.landing l).pending.find? (fun p => !p.started && p.watch.isNone && p.token.isNone) = none := by
  rw [List.find?_eq_none]
  intro p hp
  rw [Bool.and_eq_true, Bool.and_eq_true, Bool.not_eq_true', Option.isNone_iff_eq_none, Option.isNone_iff_eq_none]
  rintro ⟨⟨h1, h2⟩, h3⟩
  simpa [h1, h2, h3] using hs p hp

section
variable {p : Launch} (hh : (s.landing l).hold = false)
include hh

theorem exec_teamPlacement_looks
    (hp : (s.landing l).pending.find? (fun p => !p.started && p.watch.isNone && p.token.isNone) = some p) :
    exec (.teamPlacement l) s = .next (s.watchStart l p) := by
  refine (execTeamPlacement.eq_1 l s).trans ?_
  simp only [hh, hp, Bool.false_eq_true, if_false]

variable (hs : ∀ p ∈ (s.landing l).pending, p.started = true ∨ p.watch.isSome = true ∨ p.token.isSome = true)
include hs

theorem exec_teamPlacement_places {a n : Nat} (hp : (s.landing l).pending.find? (fun p => p.tag.isSome) = some p) (ht : p.token = none)
    (ha : s.anchorFor p = some (a, n)) : exec (.teamPlacement l) s = .next (s.placeTeam l p a n) := by
  refine (execTeamPlacement.eq_1 l s).trans ?_
  simp only [hh, pending_lookedAt hs, hp, ht, ha, Option.isSome_none, Bool.false_eq_true, if_false]

theorem exec_teamPlacement_tags (hn : ∀ p ∈ (s.landing l).pending, p.tag = none)
    (hp : (s.landing l).pending.find? (fun p => p.started && p.token.isNone) = some p) :
    exec (.teamPlacement l) s = .next (s.tagLaunch l p) := by
  have ht : (s.landing l).pending.find? (fun p => p.tag.isSome) = none := List.find?_eq_none.2 fun p hp => by simp [hn p hp]
  refine (execTeamPlacement.eq_1 l s).trans ?_
  simp only [hh, pending_lookedAt hs, ht, hp, Bool.false_eq_true, if_false]

end

/-! Completion -/

section
variable {id tag : Nat} {x : Launch} (hx : s.launches.find? (fun x => x.ctx == id && x.tag == some tag) = some x)
  (he : s.launchEnds x = true)
include hx he

theorem exec_launchCompletion_plain (h : x.rejected = true ∨ x.doneCtr = 0) :
    exec (.launchCompletion id tag) s = .next { s with launches := s.launches.filter fun y => y.uid != x.uid } := by
  refine (execLaunchCompletion.eq_1 id tag s).trans ?_
  simp only [hx, he, if_pos h, Bool.not_true, Bool.false_eq_true, if_false]

/-- The completion counter of a launch takes one more. -/
theorem exec_launchCompletion_counts {loc : Loc} {t u : State} (hr : x.rejected = false) (hd : x.doneCtr ≠ 0)
    (ha : x.doneCtr.toNat % 8 = 0) (ht : s.translate x.l x.ctx x.doneCtr.toNat accDone = .ok (loc, t))
    (hu : u = ((t.beatTwice [loc] 8).combineAt (t.mem.backing loc false) (s.ctx x.ctx).pl 0 8 1 false).2.2.2) :
    exec (.launchCompletion id tag) s = .next { u with launches := u.launches.filter fun y => y.uid != x.uid } := by
  subst hu
  have hn : ¬(x.rejected = true ∨ x.doneCtr = 0) := not_or.2 ⟨Bool.eq_false_iff.1 hr, hd⟩
  refine (execLaunchCompletion.eq_1 id tag s).trans ?_
  simp only [hx, he, if_neg hn, if_neg (not_not.2 ha), ht, Bool.not_true, Bool.false_eq_true, if_false]

end

/-! Control registers -/

section
variable {w : CtlWrite} (hw : CtlOk w = true)
include hw

theorem exec_registerWrite :
    exec (.registerWrite w) s = .next (if 1 ≤ w.pl then s.ctlWrite w.pa w.pl (toBytes w.n w.value) else s) := by
  refine (execRegisterWrite.eq_1 w s).trans ?_
  by_cases h : 1 ≤ w.pl <;> simp [hw, h]

theorem exec_queueRegisterWrite (h0 : 0x30000 ≤ w.pa % 0x40000000) (h1 : w.pa % 0x40000000 < 0x32000) :
    exec (.queueRegisterWrite w) s = .next (if 1 ≤ w.pl then s.ctlWrite w.pa w.pl (toBytes w.n w.value) else s) := by
  refine (execQueueRegisterWrite.eq_1 w s).trans ?_
  by_cases h : 1 ≤ w.pl <;> simp [hw, h0, h1, h]

end

/-! The host's accesses to device memory -/

/-- A host write that meets no append window writes its bytes, and no others. -/
theorem hostWrite_byte {pa : Nat} {w : HostWrite} (hq : s.windowAt pa = none) (hw : s.mem.wf = true) (b : Nat) :
    (s.hostWrite pa w).mem.byte b = if pa ≤ b ∧ b < pa + w.bytes.length then w.bytes.getD (b - pa) 0 else s.mem.byte b := by
  have hc := mapFlip_cells s pa 1 w.bytes
  have hwf : (s.mapFlip pa 1 w.bytes).mem.wf = true := (wf_cells hc).trans hw
  unfold State.hostWrite State.store
  simp only [hq, State.lay_mem, State.beats_mem]
  rw [Mem.byte_put _ _ _ _ hwf, byte_cells hc]

section
variable (hu : s.hostUp = true) (hm : s.cxlMemUp = true)
include hu hm

section
variable {r : HostRead} (hr : hdmOk r.hdm r.n = true)
include hr

theorem exec_hostCxlMemRead_absent (ha : s.hdmAbsent r.hdm = true) :
    exec (.hostCxlMemRead r) s = .next (s.countHerr.answer (.data (List.replicate r.n 0) true)) := by
  refine (execHostCxlMemRead.eq_1 r s).trans ?_
  simp only [hu, hm, hr, ha, Bool.not_true, Bool.or_self, Bool.false_eq_true, if_false, if_true]

theorem exec_hostCxlMemRead_memory (ha : s.hdmAbsent r.hdm = false) (hq : s.windowAt (hdmAddr r.hdm) = none) :
    exec (.hostCxlMemRead r) s = .next ((s.touch (hdmAddr r.hdm) r.n).answer
      (.data (s.mem.bytes (hdmAddr r.hdm) r.n) (s.mem.unreadable (hdmAddr r.hdm) r.n))) := by
  refine (execHostCxlMemRead.eq_1 r s).trans ?_
  simp only [hu, hm, hr, ha, hq, Bool.not_true, Bool.or_self, Bool.false_eq_true, if_false]

end

section
variable {w : HostWrite} (hw : hdmOk w.hdm w.bytes.length = true)
include hw

theorem exec_hostCxlMemWrite_absent (ha : s.hdmAbsent w.hdm = true) :
    exec (.hostCxlMemWrite w) s = .next (s.countHerr.answer .complete) := by
  refine (execHostCxlMemWrite.eq_1 w s).trans ?_
  simp only [hu, hm, hw, ha, Bool.not_true, Bool.or_self, Bool.false_eq_true, if_false, if_true]

variable (ha : s.hdmAbsent w.hdm = false)
include ha

theorem exec_hostCxlMemWrite_served : exec (.hostCxlMemWrite w) s = .next ((s.hostWrite (hdmAddr w.hdm) w).answer .complete) := by
  refine (execHostCxlMemWrite.eq_1 w s).trans ?_
  simp only [hu, hm, hw, ha, Bool.not_true, Bool.or_self, Bool.false_eq_true, if_false]

theorem exec_append {q : Queue} (hq : s.windowAt (hdmAddr w.hdm) = some q) :
    exec (.append w) s = .next ((s.hostAppend (hdmAddr w.hdm) q w.bytes w.poison).answer .complete) := by
  refine (execAppend.eq_1 w s).trans ?_
  simp only [hu, hm, hw, ha, hq, Bool.not_true, Bool.or_self, Bool.false_eq_true, if_false]

end
end

/-! Control space through the host link -/

section
variable {x : IoAccess} (hu : s.hostUp = true) (hb : s.boot.phase ≠ 6) (h1 : 1 ≤ x.n) (h2 : x.off % 64 + x.n ≤ 64)
  (h3 : x.off < 0x1000000000)
include hu hb h1 h2 h3

theorem exec_cxlIoAccess_read (hv : x.value = none) : exec (.cxlIoAccess x) s =
    .next (s.answer (.data (toBytes x.n (s.ctlRead (0x0C0000000000 + x.off) x.n)) false)) := by
  refine (execCxlIoAccess.eq_1 x s).trans ?_
  have hn : x.n ≠ 0 := by omega
  simp [hu, hb, hn, not_lt.2 h2, not_le.2 h3, hv]

theorem exec_cxlIoAccess_write {v : Nat} (hv : x.value = some v) : exec (.cxlIoAccess x) s =
    .next ((s.ctlWrite (0x0C0000000000 + x.off) 1 (toBytes x.n v)).answer .complete) := by
  refine (execCxlIoAccess.eq_1 x s).trans ?_
  have hn : x.n ≠ 0 := by omega
  simp [hu, hb, hn, not_lt.2 h2, not_le.2 h3, hv]

end

/-! Items of the links -/

section
variable {x : LinkItem} {p : InPair} (hp : p = s.inPair x.peer x.src x.dst)
include hp

theorem exec_linkItemArrival_behind (ha : 2 ^ 31 ≤ (x.seq + 2 ^ 32 - p.expect) % 2 ^ 32) :
    exec (.linkItemArrival x) s = .next s := by
  subst hp
  exact (execLinkItemArrival.eq_1 x s).trans (if_pos (.inr (.inr (.inr (.inl ha)))))

variable (h1 : x.peer < 1024) (h2 : x.src < 64) (h3 : x.dst < 64) (hd : ∀ y ∈ p.early, y.seq ≠ x.seq)
include h1 h2 h3 hd

/-- An item that is not behind its pair, and that the pair does not hold already, is kept or applied. -/
theorem exec_linkItemArrival (ha : (x.seq + 2 ^ 32 - p.expect) % 2 ^ 32 < 2 ^ 31) : exec (.linkItemArrival x) s =
    if (x.seq + 2 ^ 32 - p.expect) % 2 ^ 32 ≠ 0 then .next (s.setIn { p with early := p.early ++ [x] })
    else .next (((s.setIn { p with expect := (p.expect + 1) % 2 ^ 32 }).applyLink x).applyEarly
      x.peer x.src x.dst p.early.length) := by
  subst hp
  refine (execLinkItemArrival.eq_1 x s).trans (if_neg ?_)
  have hearly : ¬((s.inPair x.peer x.src x.dst).early.any fun y => y.seq == x.seq) = true := by simpa using hd
  rintro (h | h | h | h | h)
  · omega
  · omega
  · omega
  · omega
  · exact hearly h

end

theorem exec_hostPortTraining {width rate : Nat} (hw : width ∈ [0, 1, 2, 4, 8, 16]) (hr : rate ≤ 7) :
    exec (.hostPortTraining width rate) s =
      .next { s with links := { s.links with width := width, rate := rate, ide := s.links.ide && rate != 0 } } :=
  (execHostPortTraining.eq_1 width rate s).trans (if_pos ⟨List.contains_iff_mem.2 hw, hr⟩)

end Sys2Proof.Laws

namespace Sys2Proof

open Sys2Proof.Machine Sys2Proof.Laws

/-- Settles O51: each event by what it finds where it arrives. That a host write is received and applied in one step, that a start
condition is translated once, and that an item up to 2^31 behind its pair counts as a duplicate are the model's choices (log entries
77 and 71; 23 R429). -/
theorem hostTurns : Obligations.HostTurns := by
  unfold Obligations.HostTurns
  intro s l
  refine ⟨?_, exec_teamPlacement_hold, ?_, ?_, ?_, ?_, ?_, ?_, ?_, ?_⟩
  · intro w x c hl hx hc
    subst hl hc
    have hs : exec (.launchRecord w) s = .next (s.submitLaunch w.l w.bytes) := execLaunchRecord.eq_1 w s
    rw [hs]
    refine ⟨fun hn => congrArg _ (submitLaunch_of_length hn), fun hn hb => congrArg _ (submitLaunch_of_malformed hx hn hb),
      fun hn hb h1 h2 => ?_, fun hn hb hst => ?_⟩
    · rw [submitLaunch_of_wellFormed hx hn hb, if_pos ⟨h1, h2⟩]
      rfl
    · have hst' : ¬((s.ctx x.ctx).state ≠ 1 ∧ (s.ctx x.ctx).state ≠ 2) := by tauto
      rw [submitLaunch_of_wellFormed hx hn hb, if_neg hst']
      refine ⟨fun hk => ?_, fun k hk hb => ⟨fun hf => ?_, fun hf => ?_⟩⟩
      · rw [if_pos (candidates_eq_nil.2 hk)]
        rfl
      · rw [if_neg (candidates_ne_nil hk hb), if_pos hf]
        rfl
      · rw [if_neg (candidates_ne_nil hk hb), if_neg (by omega)]
  · intro hh
    refine ⟨fun p hp => exec_teamPlacement_looks hh hp, fun hs => ⟨fun p a n hp ht ha => ?_, fun hn p hp => ?_⟩⟩
    · exact exec_teamPlacement_places hh hs hp ht ha
    · exact exec_teamPlacement_tags hh hs hn hp
  · exact fun id tag x hx he => ⟨exec_launchCompletion_plain hx he,
      fun _ _ _ hr hd ha ht hu => exec_launchCompletion_counts hx he hr hd ha ht hu⟩
  · exact fun w hw => ⟨exec_registerWrite hw, exec_queueRegisterWrite hw⟩
  · intro hu hm
    refine ⟨fun r hr => ⟨exec_hostCxlMemRead_absent hu hm hr, exec_hostCxlMemRead_memory hu hm hr⟩, fun w hw => ?_⟩
    refine ⟨exec_hostCxlMemWrite_absent hu hm hw, fun ha hq hwf => ?_, fun q ha hq => exec_append hu hm hw ha hq⟩
    exact ⟨_, exec_hostCxlMemWrite_served hu hm hw ha, rfl, hostWrite_byte hq hwf⟩
  · exact fun hu hb x h1 h2 h3 => ⟨exec_cxlIoAccess_read hu hb h1 h2 h3, fun v => exec_cxlIoAccess_write hu hb h1 h2 h3⟩
  · intro x p hp h1 h2 h3 hd
    refine ⟨fun hs hlt => ?_, fun ha hb => ?_, exec_linkItemArrival_behind hp⟩
    · have h0 : (x.seq + 2 ^ 32 - p.expect) % 2 ^ 32 = 0 := by rw [hs, Nat.add_sub_cancel_left, Nat.mod_self]
      rw [exec_linkItemArrival hp h1 h2 h3 hd (by omega), if_neg (not_not.2 h0)]
    · rw [exec_linkItemArrival hp h1 h2 h3 hd hb, if_pos (by omega)]
  · exact fun up => execRouteChange.eq_1 up s
  · exact fun width rate => exec_hostPortTraining

end Sys2Proof
end

section
/-! PROOF. The round trip of the encoding, words of the spec, and what a step runs (06 R145, R148, R159, R160). -/

namespace Sys2Proof.Laws

open Sys2Proof.Machine

/-- The check of a format passes for a well-formed instruction of that format. -/
theorem checkFmt_of_wellFormed {i : Instr} (h : WellFormed i) (maj len : Nat) : checkFmt i.fmt maj len = .ok i := by
  obtain ⟨hi, hs⟩ := h
  simp only [checkFmt, hi, hs]

/-- What a list of bytes decodes to holds the bytes of one word: the length that its first halfword gives, and their little-endian
value. -/
theorem decodeBytes_inv {bs rest : List Byte} {r : Except BadEncoding Instr} (h : decodeBytes bs = some (r, rest)) :
    ∃ (n : Nat) (w : BitVec 64), n = lengthOf (w.setWidth 16) ∧ n ≤ bs.length ∧ w.toNat = leBytes (bs.take n) ∧
      w.toNat < 256 ^ n ∧ decodeWord n w = r ∧ rest = bs.drop n := by
  unfold decodeBytes at h
  dsimp only at h
  have h8 := lengthOf_cases (BitVec.ofNat 16 (leBytes (bs.take 2)))
  generalize hn : lengthOf (BitVec.ofNat 16 (leBytes (bs.take 2))) = n at h h8
  split_ifs at h with h2 hlen
  obtain ⟨hr, hd⟩ := Prod.mk.inj (Option.some.inj h)
  have hlt : leBytes (bs.take n) < 256 ^ n := by
    have := leBytes_lt (bs.take n)
    rwa [List.length_take_of_le (by omega)] at this
  have h64 : 256 ^ n ≤ 2 ^ 64 := (Nat.pow_le_pow_right (by decide) (by omega : n ≤ 8)).trans (by decide)
  have hw : (BitVec.ofNat 64 (leBytes (bs.take n))).toNat = leBytes (bs.take n) :=
    (BitVec.toNat_ofNat _ _).trans (Nat.mod_eq_of_lt (hlt.trans_le h64))
  have hfirst : leBytes (bs.take 2) = leBytes (bs.take n) % 65536 := by
    rw [← leBytes_take2, List.take_take, min_eq_left (by omega)]
  refine ⟨n, _, ?_, by omega, hw, hw.symm ▸ hlt, hr, hd.symm⟩
  refine hn.symm.trans (congrArg lengthOf (BitVec.eq_of_toNat_eq ?_))
  rw [BitVec.toNat_setWidth, hw, BitVec.toNat_ofNat, hfirst]
  omega

/-- What a step makes of the current group's turn. -/
def turnOutcome (s : State) : Turn → Host.Outcome State Fault Refusal
  | .idle => .next (finish s)
  | .settled s' => .next (finish s')
  | .instr i s' => andThen (exec i s') finish
  | .bad b s' => andThen (execIllegalInstruction b s') finish

/-- The step of a group on turn that may issue, reads no control block and takes no pending trap, is what it fetches. -/
theorem step_of_ready {s : State} {g : Group} (he : s.event = none) (hg : s.curGroup = some g) (hi : s.canIssue g = true)
    (hb : g.block = .none) (hp : g.pend = none) : step s = turnOutcome s (s.fetchInstr g) := by
  have ht : s.fetchTurn = s.fetchInstr g := by
    unfold State.fetchTurn
    simp only [hg, hi, hb, hp, if_true]
    rfl
  rw [← ht]
  unfold step
  simp only [he]
  rfl

section
variable {s s1 s2 : State} {g : Group} {h x n : Nat} {rest : List Byte} (hf : s.fetch g 1 g.pc.toNat = .ok (h, s1))
  (hn : n = lengthOf (BitVec.ofNat 16 h)) (hx : s1.fetch g (n / 2 - 1) ((g.pc.toNat + 2) % 2 ^ 64) = .ok (x, s2))
include hf hn hx

/-- The halfwords fetched are the word whose bytes are decoded. -/
theorem decodeWord_of_fetch {r : Except BadEncoding Instr} (hr : decodeBytes (toBytes n (h + 65536 * x)) = some (r, rest)) :
    decodeWord n (BitVec.ofNat 64 (h + 65536 * x)) = r := by
  rw [decode_fetched (by simpa using fetch_lt hf) hn (fetch_lt hx)] at hr
  exact (Prod.mk.inj (Option.some.inj hr)).1

/-- What is fetched is an instruction; a decode-table slot that the boot has not mapped holds none (06 R162). -/
theorem fetchInstr_of_ok {i : Instr} (hr : decodeBytes (toBytes n (h + 65536 * x)) = some (.ok i, rest)) :
    s.fetchInstr g = if i.major < 56 ∨ n ≠ 8 ∨ i.major ∈ s.boot.mapped then .instr i s2 else .bad ⟨5, i.major, 3⟩ s2 := by
  have hw := decodeWord_of_fetch hf hn hx hr
  subst hn
  unfold State.fetchInstr
  simp only [hf, hx, hw]
  by_cases hm : i.major < 56 ∨ lengthOf (BitVec.ofNat 16 h) ≠ 8 ∨ i.major ∈ s.boot.mapped
  · rw [if_pos hm, if_neg]
    rcases hm with hm | hm | hm <;> simp [hm]
  · rw [if_neg hm, if_pos]
    push Not at hm
    simp [hm]

theorem fetchInstr_of_error {b : BadEncoding} (hr : decodeBytes (toBytes n (h + 65536 * x)) = some (.error b, rest)) :
    s.fetchInstr g = .bad (g.enterFirst n (h + 65536 * x) b) s2 := by
  have hw := decodeWord_of_fetch hf hn hx hr
  subst hn
  unfold State.fetchInstr
  simp only [hf, hx, hw]

end

theorem fetchInstr_of_fault {s : State} {g : Group} {va : Nat} {e} (hf : s.fetch g 1 g.pc.toNat = .error (va, e)) :
    s.fetchInstr g = .settled (s.fetchFault g va e) := by
  unfold State.fetchInstr
  simp only [hf]

end Sys2Proof.Laws

namespace Sys2Proof

open Sys2Proof.Machine Sys2Proof.Laws

/-- Settles O53: the decoder reads of the written bytes the format they were written of, and the check of a well-formed
instruction's format passes. -/
theorem decodeEncode : Obligations.DecodeEncode := by
  unfold Obligations.DecodeEncode
  intro i rest hw he
  obtain ⟨maj, len, hd⟩ := decodeBytes_fmt i.fmt (Major.all i) he rest
  rw [encodeBytes, encode, hd, checkFmt_of_wellFormed hw]

/-- Settles O54: the bytes read are one word, which is the encoding of what it decodes to. -/
theorem decodingLosesNothing : Obligations.DecodingLosesNothing := by
  unfold Obligations.DecodingLosesNothing
  intro bs rest i h
  obtain ⟨n, w, hn, hlen, hw, hlt, hd, rfl⟩ := decodeBytes_inv h
  rw [hn] at hd
  obtain ⟨hwf, hl, hv⟩ := decodeWord_ok hd
  rw [← hn] at hl hv
  refine ⟨hwf, instr_event hwf.1, ?_⟩
  have he : encodeBytes i = bs.take n := by
    rw [encodeBytes, hl, hv, Nat.mod_eq_of_lt hlt, hw]
    calc toBytes n (leBytes (bs.take n)) = toBytes (bs.take n).length (leBytes (bs.take n)) := by rw [List.length_take_of_le hlen]
      _ = bs.take n := toBytes_leBytes _
  rw [he, List.take_append_drop]

/-- Settles O55, word by word. -/
theorem decodeWords : Obligations.DecodeWords := by
  unfold Obligations.DecodeWords
  decide +kernel

/-- Settles O56: the turn of a step by what is fetched, and what the end of a step keeps. That FT goes on by at most one tick in
a step is the model's choice (log entry 5). -/
theorem stepRunsDecoded : Obligations.StepRunsDecoded := by
  unfold Obligations.StepRunsDecoded
  intro s
  refine ⟨fun e he => ?_, fun i => rfl, ?_, ?_, windUp_quiet, ?_⟩
  · unfold step
    rw [he]
  · intro g h x n s1 s2 he hg hi hb hp hf hn hx
    rw [step_of_ready he hg hi hb hp]
    refine ⟨fun i rest hr hm => ?_, fun i rest hr hm => ?_, fun b rest hr => ?_⟩
    · rw [fetchInstr_of_ok hf hn hx hr, if_pos hm, turnOutcome]
    · rw [fetchInstr_of_ok hf hn hx hr, if_neg hm, turnOutcome]
    · rw [fetchInstr_of_error hf hn hx hr, turnOutcome]
  · intro g va e he hg hi hb hp hf
    rw [step_of_ready he hg hi hb hp, fetchInstr_of_fault hf, turnOutcome]
  · intro t u ht hu
    rw [ht, hu]
    obtain ⟨hk, h1, h2⟩ := finish_windUp s
    obtain ⟨hmem, hctxs, hteams, hunits, hboot, hpairs, hsteps, hgroups⟩ := Kept.mk.inj hk
    exact ⟨hmem, hctxs, hteams, hunits, hboot, hpairs, hsteps, h1, h2, hgroups⟩

end Sys2Proof
end

section
/-! PROOF. The 16-bit integer instructions (06 R150, R154, R155): each shared lane operation writes the form of its row. -/

namespace Sys2Proof.Laws

open Sys2Proof.Machine

section
variable {i : Instr} {d a b : Nat} (hd : d < 64)
include hd

theorem writes_addOp (hx : ∀ s, exec i s = issue i s (addOp i d a b)) :
    Writes i (fun _ => formed d (addRow false a b) [a, b] fun f l => f.lane a l + f.lane b l) :=
  writes_formed hx hd fun f => formOk_add (lanesOf_reg f a) (lanesOf_reg f b)

theorem writes_subOp (hx : ∀ s, exec i s = issue i s (subOp i d a b)) :
    Writes i (fun _ => formed d (addRow true a b) [a, b] fun f l => f.lane a l - f.lane b l) :=
  writes_formed hx hd fun f => formOk_sub (lanesOf_reg f a) (lanesOf_reg f b)

theorem writes_mulOp (hx : ∀ s, exec i s = issue i s (mulOp i d a b)) :
    Writes i (fun _ => formed d (mulRow a b) [a, b] fun f l => f.lane a l * f.lane b l) :=
  writes_formed hx hd fun f => formOk_mul (lanesOf_reg f a) (lanesOf_reg f b)

theorem writes_movOp (hx : ∀ s, exec i s = issue i s (movOp i d a)) :
    Writes i (fun _ => formed d (movRow a) [a] fun f l => f.lane a l) :=
  writes_formed hx hd fun _ => formOk_mov

theorem writes_addImm {x : Word} (hx : ∀ s, exec i s = issue i s (addImm i d a x)) :
    Writes i (fun _ => formed d (addImmRow a x) [a] fun f l => f.lane a l + x) :=
  writes_formed hx hd fun f => formOk_add (lanesOf_reg f a) (lanesOf_imm x)

/-- A lane function of two registers, under the "all other" row. -/
theorem writes_other2 {op : Word → Word → Word} (hx : ∀ s, exec i s = issue i s (lane2 i d a b (other2 a b) op)) :
    Writes i (fun _ => oneReg d [a, b] fun f l => op (f.lane a l) (f.lane b l)) :=
  writes_oneReg hx hd fun f h l => by rw [h a (by simp) l, h b (by simp) l]

/-- A lane function of one register, under the "all other" row. -/
theorem writes_other1 {op : Word → Word} (hx : ∀ s, exec i s = issue i s (lane1 i d a (other1 a) op)) :
    Writes i (fun _ => oneReg d [a] fun f l => op (f.lane a l)) :=
  writes_oneReg hx hd fun f h l => by rw [h a (by simp) l]

end

theorem shlWord_amount (x : Word) {n : Nat} (hn : n < 32) : shlWord x (BitVec.ofNat 32 n) = x <<< n := by
  have hv : (BitVec.ofNat 32 n).toNat = n := Nat.mod_eq_of_lt (by omega)
  rw [shlWord, hv, if_pos (by omega)]

theorem shrWord_amount (x : Word) {n : Nat} (hn : n < 32) : shrWord x (BitVec.ofNat 32 n) = x >>> n := by
  have hv : (BitVec.ofNat 32 n).toNat = n := Nat.mod_eq_of_lt (by omega)
  rw [shrWord, hv, if_pos (by omega)]

theorem writes_shlImm {i : Instr} {d a n : Nat} (hd : d < 64) (hn : n < 32) (hx : ∀ s, exec i s = issue i s (shlImm i d a n)) :
    Writes i (fun _ => formed d (shlImmRow a n) [a] fun f l => f.lane a l <<< n) := by
  have hf (f : Frame) : FormOk ⟨shlImmRow a n f, fun l => shlWord (f.lane a l) (BitVec.ofNat 32 n), f.badAny [a]⟩ :=
    formOk_shl (w := fun _ => BitVec.ofNat 32 n) (lanesOf_reg f a) fun _ _ => rfl
  have h : Writes i (fun _ => formed d (shlImmRow a n) [a] fun f l => shlWord (f.lane a l) (BitVec.ofNat 32 n)) :=
    writes_formed hx hd hf
  exact Writes.congr_formed h fun f l => (shlWord_amount (f.lane a l) hn).symm

theorem writes_shrImm {i : Instr} {d a n : Nat} (hd : d < 64) (hn : n < 32) (hx : ∀ s, exec i s = issue i s (shrImm i d a n)) :
    Writes i (fun _ => oneReg d [a] fun f l => f.lane a l >>> n) :=
  Writes.congr_val (writes_other1 hd hx) fun f l => (shrWord_amount (f.lane a l) hn).symm

end Sys2Proof.Laws

namespace Sys2Proof

open Sys2Proof.Machine Sys2Proof.Laws

/-- Settles O4: each instruction is one shared lane operation, of its destination and its source or amount. -/
theorem shortIntegers : Obligations.ShortIntegers := by
  unfold Obligations.ShortIntegers
  rintro o d b rfl rfl
  have hd : o.d.toNat < 64 := by omega
  have hb : o.s.toNat < 32 := o.s.isLt
  exact ⟨writes_movOp hd fun _ => rfl, writes_addOp hd fun _ => rfl, writes_subOp hd fun _ => rfl, writes_other2 hd fun _ => rfl,
    writes_other2 hd fun _ => rfl, writes_other2 hd fun _ => rfl, writes_mulOp hd fun _ => rfl, writes_shlImm hd hb fun _ => rfl,
    writes_shrImm hd hb fun _ => rfl, writes_addImm hd fun _ => rfl, writes_oneValue (fun _ => rfl) hd⟩

end Sys2Proof
end

section
/-! PROOF. The address of a lane, and checks 1 to 3 of Table 9-2 (06 R158; 09 R224, R225, R227). -/

namespace Sys2Proof.Laws

open Sys2Proof.Machine

/-- The offset of an M64 operand, in two's complement. -/
theorem signExtend_off (x : BitVec 12) :
    x.signExtend 64 = if x.msb then -BitVec.ofNat 64 (2 ^ 12 - x.toNat) else BitVec.ofNat 64 x.toNat := by
  apply BitVec.eq_of_toNat_eq
  rw [BitVec.toNat_signExtend]
  have := x.isLt
  cases hm : x.msb
  · simp
  · simp
    omega

theorem sizeBytes_le (sz : BitVec 4) : sizeBytes sz ≤ 16 := by
  revert sz
  decide

theorem ofNat_memAddr (c : Ctx) (g : Group) (o : M64) (l : Nat) : BitVec.ofNat 64 (memAddr c g o l) =
    BitVec.ofNat 64 (baseAddr c g (o.af == 1) o.a.toNat l) + o.off.signExtend 64 * BitVec.ofNat 64 (sizeBytes o.size) := by
  have hn := sizeBytes_le o.size
  have hmod (x : Nat) : BitVec.ofNat 64 (x % 2 ^ 64) = BitVec.ofNat 64 x := by
    apply BitVec.eq_of_toNat_eq
    simp
  rw [signExtend_off, memAddr, hmod]
  by_cases hm : o.off.msb = true
  · have hle : (2 ^ 12 - o.off.toNat) * sizeBytes o.size ≤ 2 ^ 64 :=
      (Nat.mul_le_mul (Nat.sub_le _ _) hn).trans (by decide)
    have hneg : ∀ k ≤ 2 ^ 64, BitVec.ofNat 64 (2 ^ 64 - k) = -BitVec.ofNat 64 k := fun k hk => by
      apply BitVec.eq_of_toNat_eq
      simp
      omega
    rw [if_pos hm, if_pos hm, if_pos hm, Nat.add_zero, BitVec.ofNat_add, hneg _ hle, BitVec.ofNat_mul, BitVec.neg_mul]
  · rw [if_neg hm, if_neg hm, if_neg hm, Nat.sub_zero, BitVec.ofNat_add, BitVec.ofNat_add, BitVec.ofNat_mul]
    simp

theorem ofNat_baseAddr (c : Ctx) (g : Group) (heap : Bool) (a l : Nat) : BitVec.ofNat 64 (baseAddr c g heap a l) =
    if heap then c.heapBase + (g.frame.lane a l).setWidth 64 else g.frame.pair a l := by
  cases heap
  · simp [baseAddr]
  · simp [baseAddr, BitVec.ofNat_add]

theorem ctx_setGroup (s : State) (g : Group) (id : Nat) : (s.setGroup g).ctx id = s.ctx id := rfl

/-- A failed check of an operand that is resolved, and whose outcome is the instruction's, ends the instruction. -/
theorem exec_resolve_trap {i : Instr} {s s1 : State} {g : Group} {e : Env} {a : Access} {o : AddrOp} {t : Trap}
    {body : State → Env → R} (h : Issues i s s1 g e) (hx : exec i s = issue i s body) (hc : e.g.carried = none)
    (hb : (s1.setGroup e.g).sideBusy e.g.uid = false) (ht : checks3 e.g a.code e.act [o] = some t)
    (hr : ∀ r, resolve (s1.setGroup e.g) e a e.act o = .out r → body (s1.setGroup e.g) e = r) :
    exec i s = .next (trapped s1 g 0 t) := by
  rw [hx, issue_eq h, hr _ (resolve_trap hc hb ht)]
  exact congrArg _ (settle_trap0 h t)

section
variable {o : M64} {s s1 : State} {g : Group} {e : Env} {t : Trap} (hc : e.g.carried = none) (hb : (s1.setGroup e.g).sideBusy e.g.uid = false)
include hc hb

theorem exec_ld_trap (h : Issues (.ld o) s s1 g e)
    (ht : checks3 e.g 0 e.act [memOp (s1.ctx e.g.ctx) e.g o (sizeBytes o.size)] = some t) :
    exec (.ld o) s = .next (trapped s1 g 0 t) :=
  exec_resolve_trap (a := accLoad) h (execLd.eq_1 o s) hc hb ht fun r hr => by
    rw [ctx_setGroup, hr]

theorem exec_atom_trap (h : Issues (.atom o) s s1 g e)
    (ht : checks3 e.g 2 e.act [memOp (s1.ctx e.g.ctx) e.g o (sizeBytes o.size)] = some t) :
    exec (.atom o) s = .next (trapped s1 g 0 t) :=
  exec_resolve_trap (a := accAtom.wide (sizeBytes o.size)) h (execAtom.eq_1 o s) hc hb ht fun r hr => by
    dsimp only
    rw [ctx_setGroup, hr]

theorem exec_atomCas_trap (h : Issues (.atomCas o) s s1 g e)
    (ht : checks3 e.g 2 e.act [memOp (s1.ctx e.g.ctx) e.g o (sizeBytes o.size)] = some t) :
    exec (.atomCas o) s = .next (trapped s1 g 0 t) :=
  exec_resolve_trap (a := accAtom.wide (sizeBytes o.size)) h (execAtomCas.eq_1 o s) hc hb ht fun r hr => by
    dsimp only
    rw [ctx_setGroup, hr]

theorem exec_cwait_trap (h : Issues (.cwait o) s s1 g e) (ht : checks3 e.g 2 e.act [memOp (s1.ctx e.g.ctx) e.g o 8] = some t) :
    exec (.cwait o) s = .next (trapped s1 g 0 t) :=
  exec_resolve_trap (a := accCwait) h (execCwait.eq_1 o s) hc hb ht fun r hr => by
    rw [ctx_setGroup, hr]

theorem exec_migrate_trap (h : Issues (.migrate o) s s1 g e) (ht : checks3 e.g 0 e.act [memOp (s1.ctx e.g.ctx) e.g o 1] = some t) :
    exec (.migrate o) s = .next (trapped s1 g 0 t) :=
  exec_resolve_trap (a := accMigrate) h (execMigrate.eq_1 o s) hc hb ht fun r hr => by
    rw [ctx_setGroup, hr]

theorem exec_ldL_trap (h : Issues (.ldL o) s s1 g e)
    (ht : checks3 e.g 0 e.act [memOp (s1.ctx e.g.ctx) e.g o (sizeBytes o.size)] = some t) :
    exec (.ldL o) s = .next (trapped s1 g 0 t) := by
  refine (execLdL.eq_1 o s).trans ?_
  rw [issue_eq h]
  simp only [hc, hb, Bool.false_eq_true, if_false]
  rw [ctx_setGroup, ht]
  exact congrArg _ (settle_trap0 h t)

theorem exec_st_trap (h : Issues (.st o) s s1 g e)
    (ht : checks3 e.g 1 e.act [memOp (s1.ctx e.g.ctx) e.g o (sizeBytes o.size)] = some t) :
    exec (.st o) s = .next (trapped s1 g 0 t) := by
  refine (execSt.eq_1 o s).trans ?_
  rw [issue_eq h]
  simp only [hc, hb, Bool.false_eq_true, if_false]
  rw [ctx_setGroup, ht]
  exact congrArg _ (settle_trap0 h t)

end

/-- A failed check of the operands of a posted operation ends it. -/
theorem exec_postLanes_trap {i : Instr} {o : M64} {op : PostOp} {a : Access} {ctr : Bool} {extra : List Nat} {s s1 : State} {g : Group}
    {e : Env} {m : AddrOp} {t : Trap} (h : Issues i s s1 g e) (hx : exec i s = issue i s (postLanes i o op a ctr extra))
    (hm : m = memOp (s1.ctx e.g.ctx) e.g o (sizeBytes o.size))
    (ht : checks3 e.g 3 e.act ({ m with regs := m.regs ++ extra } ::
      if ctr then [⟨addrRegs (o.af == 1) o.d.toNat, 8, ctrAddr (s1.ctx e.g.ctx) e.g o⟩] else []) = some t) :
    exec i s = .next (trapped s1 g 0 t) := by
  subst hm
  rw [hx, issue_eq h]
  have hp : postLanes i o op a ctr extra (s1.setGroup e.g) e = .trap (s1.setGroup e.g) t := by
    unfold postLanes
    dsimp only
    rw [ctx_setGroup, ht]
  rw [hp]
  exact congrArg _ (settle_trap0 h t)

end Sys2Proof.Laws

namespace Sys2Proof

open Sys2Proof.Machine Sys2Proof.Laws

/-- Settles O30: each instruction takes the trap of the first check that fails of its operands, and the three checks give the traps
stated. -/
theorem addressChecks : Obligations.AddressChecks := by
  unfold Obligations.AddressChecks
  refine ⟨fun c g o l => ?_, ?_⟩
  · rw [ofNat_memAddr, ofNat_baseAddr]
    simp
  · intro o i code n s s1 g e ops mem ctr key hmem hctr hkey hi h hc hb
    have trap (t : Trap) (ht : checks3 e.g code e.act ops = some t) : exec i s = .next (trapped s1 g 0 t) := by
      rcases hi with ⟨rfl, hi, rfl⟩ | ⟨rfl, rfl, rfl, rfl⟩ | ⟨rfl, rfl, rfl, rfl⟩ | ⟨rfl, rfl, rfl, rfl⟩ | ⟨rfl, rfl, rfl, rfl⟩ |
        ⟨rfl, rfl, rfl, rfl⟩
      · rw [hmem] at ht
        rcases hi with ⟨rfl, rfl⟩ | ⟨rfl, rfl⟩ | ⟨rfl, rfl⟩ | ⟨rfl, rfl⟩ | ⟨rfl, rfl⟩
        · exact exec_ld_trap hc hb h ht
        · exact exec_ldL_trap hc hb h ht
        · exact exec_st_trap hc hb h ht
        · exact exec_atom_trap hc hb h ht
        · exact exec_atomCas_trap hc hb h ht
      · refine exec_postLanes_trap h (execStP.eq_1 o s) hmem (extra := []) (ctr := o.d != 0) ?_
        rw [List.append_nil, ← hctr]
        by_cases hd : o.d = 0 <;> simpa [hd] using ht
      · refine exec_postLanes_trap h (execRedP.eq_1 o s) hmem (extra := []) (ctr := false) ?_
        simpa using ht
      · refine exec_postLanes_trap h (execRedK.eq_1 o s) hmem (extra := [o.d.toNat]) (ctr := false) ?_
        rwa [← hkey]
      · rw [hmem] at ht
        exact exec_cwait_trap hc hb h ht
      · rw [hmem] at ht
        exact exec_migrate_trap hc hb h ht
    refine ⟨fun r l hr hp => trap _ (checks3_poison hr hp), fun hclean => ⟨fun m addr hf => trap _ (checks3_far hclean hf), ?_⟩⟩
    exact fun hrange m addr hf => trap _ (checks3_odd hclean hrange hf)

end Sys2Proof
end

section
/-! PROOF. An error of the scratch, which `State.parityFails` has no case for (21 R409, R413). -/

namespace Sys2Proof.Laws

open Sys2Proof.Machine

/-- A correctable error of the first word of landing 0's scratch (21 R409, R413). -/
def scratchError : ParityFailure := ⟨0, 0, false, [0], [], 1, 3⟩

/-- The word waits for a read to find it, though no transfer of the landing can fail: at reset it is not READY. -/
theorem exec_scratchError : exec (.parityFailure scratchError) State.reset =
    .next { State.reset with mem := { State.reset.mem with weak := [0x8000000000] } } := rfl

theorem parityFails_scratchError : (State.reset.parityFails scratchError).mem.weak = [] := rfl

end Sys2Proof.Laws

namespace Sys2Proof

open Sys2Proof.Machine Sys2Proof.Laws

/-- Refutes O60: its clause for PARITY_FAILURE says `State.parityFails` for every failure, which is what the event does with a
failing transfer and with an error of stored words of DRAM only. An error of the scratch marks its word, and so has another effect. -/
theorem not_formsComplete : ¬ Obligations.FormsComplete := by
  unfold Obligations.FormsComplete
  rintro ⟨-, -, -, -, -, events⟩
  have h := (events State.reset 0 0).1 scratchError
  rw [exec_scratchError] at h
  have hw := congrArg (fun t : State => t.mem.weak) (Host.Outcome.next.inj h)
  rw [parityFails_scratchError] at hw
  cases hw

end Sys2Proof
end

section
/-! PROOF. Memory failures and repair, INIT, bus tests, module reset, recovery and the SPDM exchange (21 R405 to R413; 24 R432, R436,
R437, R439). -/

namespace Sys2Proof.Laws

open Sys2Proof.Machine

variable {s : State} {l bus : Nat}

/-! Failing transfers and errors of stored words -/

section
variable {x : ParityFailure}

theorem exec_parityFailure (h : x.array ≤ 2) : exec (.parityFailure x) s = .next (s.parityFails x) := by
  refine (execParityFailure.eq_1 x s).trans ?_
  obtain h | h | h : x.array = 0 ∨ x.array = 1 ∨ x.array = 2 := by omega
  all_goals
    rw [h]
    rfl

theorem parityFails_cells (s : State) (x : ParityFailure) : (s.parityFails x).mem.cells = s.mem.cells := by
  unfold State.parityFails
  dsimp only
  split_ifs <;> rfl

theorem parityFails_weak (h : x.array = 1) : s.parityFails x =
    { s with mem := { s.mem with weak := (failedWords x.l x.block x.groups).foldl natInsert s.mem.weak } } := if_pos h

theorem parityFails_bad (h : x.array = 2) : s.parityFails x =
    { s with mem := { s.mem with bad := (failedWords x.l x.block x.groups).foldl natInsert s.mem.bad } } :=
  (if_neg (by omega)).trans (if_pos h)

/-- A failure that no transfer can meet is none. -/
theorem parityFails_none (h : x.array = 0) (hr : parityReal x = false ∨ (s.landing x.l).ras.ready = false ∨
    busBytes * (s.landing x.l).ras.capU < 128 * x.block + 128) : s.parityFails x = s := by
  unfold State.parityFails
  dsimp only
  rw [if_neg (by omega), if_neg (by omega), if_pos]
  simpa [or_assoc] using hr

/-- A landing's transfers will meet a failure. -/
def armFailure (s : State) (x : ParityFailure) : State :=
  s.modLanding x.l fun y => { y with ras := { y.ras with armed := y.ras.armed ++ [x] } }

theorem parityFails_armed (h : x.array = 0) (hp : parityReal x = true) (hr : (s.landing x.l).ras.ready = true)
    (hc : 128 * x.block + 128 ≤ busBytes * (s.landing x.l).ras.capU) : s.parityFails x =
      if x.fails ≠ 4 then armFailure s x
      else if x.write then { armFailure s x with mem := { s.mem with
        failW := (failedWords x.l x.block (groupsOut x)).foldl natInsert s.mem.failW } }
      else { armFailure s x with mem := { s.mem with
        failR := (failedWords x.l x.block (groupsOut x)).foldl natInsert s.mem.failR } } := by
  unfold State.parityFails
  dsimp only
  rw [if_neg (by omega), if_neg (by omega), if_neg (by simp [hp, hr, hc])]
  rfl

end

/-! INIT -/

/-- The buses that INIT retires (21 R408). -/
theorem init_act (r : Ras) (h1 : r.ready = false) (h2 : r.busy = false) : r.init.busy = true ∧ r.init.capU = r.init.act.length ∧
    ∀ k, k ∈ r.init.act ↔ k < 16 ∧ (r.buses.getD k Bus.reset).retire = false ∧ ∀ y ∈ (r.buses.getD k Bus.reset).groups, y.exh = false := by
  unfold Ras.init
  rw [if_neg (by simp [h1, h2])]
  refine ⟨rfl, rfl, fun k => ?_⟩
  simp [List.mem_filter]

theorem init_idle {r : Ras} (h : r.ready = true ∨ r.busy = true) : r.init = r := if_pos (by simpa using h)

theorem modRas_same (s : State) (f : Ras → Ras) (hl : l < s.landings.length) : ((s.modRas l f).landing l).ras = f (s.landing l).ras := by
  rw [State.modRas, landing_mod_same _ _ _ hl]

theorem initDone_idle (h : (s.landing l).ras.busy = false) : s.initDone l = s := by
  unfold State.initDone
  simp [h]

theorem initDone_ras (h : (s.landing l).ras.busy = true) (hl : l < s.landings.length) :
    ((s.initDone l).landing l).ras.busy = false ∧ ((s.initDone l).landing l).ras.ready = true := by
  unfold State.initDone
  dsimp only
  rw [if_neg (by simp [h]), landing_mod_same _ _ _ (by simpa using hl)]
  exact ⟨rfl, rfl⟩

/-- Every byte of the landing reads zero after its INIT. -/
theorem initDone_byte (h : (s.landing l).ras.busy = true) {pa : Nat} (hp : pa / 0x1000000000 = l) : (s.initDone l).mem.byte pa = 0 := by
  unfold State.initDone
  dsimp only
  rw [if_neg (by simp [h])]
  refine cellRead_none fun c hc hpa => ?_
  have := (List.mem_filter.1 hc).2
  simp [inSlot, hpa, hp] at this

/-! Bus tests -/

theorem go_result (b : Bus) (phys : Nat) : Bus.go { b with phys := phys } =
    if b.state = 3 ∧ b.busy = false then { b with phys := phys, busy := true, driven := phys } else { b with phys := phys } := by
  simp [Bus.go]

theorem testDone_result (b : Bus) (ones : List Nat) : b.testDone ones =
    if b.busy then { b with
      busy := false
      pass := !decide (b.driven ∉ ones ∨ 1088 + b.driven ∉ ones) && ((ones.map (· % 1088)).filter (· != b.driven)).isEmpty
      failk := if decide (b.driven ∉ ones ∨ 1088 + b.driven ∉ ones) then b.driven
        else if (ones.map (· % 1088)).filter (· != b.driven) = [] then 0 else ((ones.map (· % 1088)).filter (· != b.driven)).foldl min 2047 }
    else b := by
  have hz : (!ones.contains b.driven || !ones.contains (1088 + b.driven)) = decide (b.driven ∉ ones ∨ 1088 + b.driven ∉ ones) := by
    simp
  unfold Bus.testDone
  dsimp only
  rw [hz]
  generalize (ones.map (· % 1088)).filter (· != b.driven) = others
  generalize decide (b.driven ∉ ones ∨ 1088 + b.driven ∉ ones) = zero
  cases b.busy <;> cases zero <;> cases others <;> simp

/-! Module reset and recovery -/

/-- After three failed starts a module reset comes to minimal mode (24 R437). -/
theorem resetModule_minimal (c : Nat) (h : s.boot.attempts = 3) : s.resetModule c = { State.reset with
    event := none, inputs := s.inputs, steps := s.steps
    landings := State.reset.landings.mapIdx fun l (x : Landing) => { x with ras := { x.ras with buses := (s.landing l).ras.buses.map Bus.kept } }
    boot := { Boot.reset with attempts := 3, lastCause := c, phase := 6 } } := by
  unfold State.resetModule State.start
  rw [if_pos h, h]

theorem recover_elsewhere {n : Nat} (h : s.boot.phase ≠ 6) : s.recover n = s := if_pos (.inl h)

section
variable {n : Nat} (hp : s.boot.phase = 6) (h1 : 1 ≤ n) (h2 : n ≤ 2 ^ 25)
include hp h1 h2

theorem recover_refused (hf : bootFault s.steps ≠ none) :
    s.recover n = { s with boot := { s.boot with recLen := n, cause := 12, lastCause := 12 } } := by
  unfold State.recover
  rw [if_neg (by omega)]
  exact if_pos (Option.isSome_iff_ne_none.2 hf)

theorem recover_runs (hb : bootFault s.steps = none) (hf : firmwareFault s.steps = none) (hc : Config.bootCheck s.steps 11 = true) :
    s.recover n = State.firmware { s with boot := { s.boot with recLen := n } } := by
  unfold State.recover
  rw [if_neg (by omega)]
  simp [hb, hf, hc]

end

/-! The SPDM exchange (24 R436) -/

/-- What an SPDM request leaves of the state of the exchange: the exchange and the answer where it is in order, else an error. -/
def spdmLeft (z y : Spdm) (k ans : Nat) (ok : Bool) : Spdm := if ok then { y with response := [k, ans] } else { z with response := [0x7F, k] }

theorem spdmAnswer_silent {k arg : Nat} {ok : Bool} {f : Spdm → Spdm} (h : s.boot.spdmUp = false) : s.spdmAnswer k arg ok f = s := by
  unfold State.spdmAnswer
  simp [h]

theorem spdmAnswer_spdm {k arg : Nat} {ok : Bool} {f : Spdm → Spdm} (h : s.boot.spdmUp = true) :
    (s.spdmAnswer k arg ok f).boot.spdm = spdmLeft s.boot.spdm (f s.boot.spdm) k (Config.spdm s.steps (16 * arg + k)) ok := by
  unfold State.spdmAnswer spdmLeft
  cases ok <;> simp [h]

/-- GET_MEASUREMENTS answers with the measurement that its index names. -/
theorem exec_getMeasurements (s : State) (q : SpdmRequest) : ∃ t, exec (.getMeasurements q) s = .next t ∧ (s.boot.spdmUp = false → t = s) ∧
    (s.boot.spdmUp = true → t.boot.spdm = spdmLeft s.boot.spdm s.boot.spdm 7 (s.measurement q.arg)
      (s.boot.spdm.algs && decide (1 ≤ q.arg) && decide (q.arg ≤ 5))) := by
  have hx := execGetMeasurements.eq_1 q s
  dsimp only at hx
  generalize (s.boot.spdm.algs && decide (1 ≤ q.arg) && decide (q.arg ≤ 5)) = ok at hx ⊢
  cases hu : s.boot.spdmUp with
  | false =>
    rw [if_neg (by simp [hu]), spdmAnswer_silent hu] at hx
    exact ⟨s, hx, fun _ => rfl, fun h => (by cases h)⟩
  | true =>
    have ha := spdmAnswer_spdm (k := 7) (arg := q.arg) (ok := ok) (f := id) hu
    cases ok with
    | false =>
      rw [if_neg (by simp [ha, spdmLeft])] at hx
      exact ⟨_, hx, fun h => (by cases h), fun _ => ha⟩
    | true =>
      rw [if_pos ⟨by simp [ha, spdmLeft], hu⟩] at hx
      refine ⟨_, hx, fun h => (by cases h), fun _ => ?_⟩
      dsimp only
      rw [ha]
      rfl

/-- FINISH answers in a session; what it does with the keys leaves the exchange. -/
theorem exec_finish (s : State) (q : SpdmRequest) : ∃ t, exec (.finish q) s = .next t ∧ (s.boot.spdmUp = false → t = s) ∧
    (s.boot.spdmUp = true → t.boot.spdm = spdmLeft s.boot.spdm { s.boot.spdm with keyed := true } 9
      (Config.spdm s.steps (16 * q.arg + 9)) s.boot.spdm.session) := by
  refine ⟨_, execFinish.eq_1 q s, fun hu => ?_, fun hu => ?_⟩
  · dsimp only
    rw [if_neg (by simp [hu]), spdmAnswer_silent hu]
  · dsimp only
    rw [← spdmAnswer_spdm (f := fun x => { x with keyed := true }) hu]
    split <;> rfl

/-- The requests that are answered by the exchange alone. -/
theorem spdm_asked {i : Instr} {k arg : Nat} {ok : Bool} {f : Spdm → Spdm} (hx : exec i s = .next (s.spdmAnswer k arg ok f)) :
    ∃ t, exec i s = .next t ∧ (s.boot.spdmUp = false → t = s) ∧
      (s.boot.spdmUp = true → t.boot.spdm = spdmLeft s.boot.spdm (f s.boot.spdm) k (Config.spdm s.steps (16 * arg + k)) ok) :=
  ⟨_, hx, spdmAnswer_silent, spdmAnswer_spdm⟩

theorem exec_illegalInstruction {x : BadEncoding} {g : Group} (hg : s.curGroup = some g) :
    exec (.illegalInstruction x) s = .next (s.takeTrap g (mkTrap 0 (x.sub + 256 * x.maj + 65536 * x.len))) := by
  refine (execIllegalInstruction.eq_1 x s).trans ?_
  rw [hg]

theorem exec_watchdog_idle (h : s.boot.starting = false) : exec .watchdog s = .next s :=
  (execWatchdog.eq_1 s).trans (if_neg (by simp [h]))

theorem exec_watchdog (h : s.boot.starting = true) : exec .watchdog s = .next (s.resetModule 11) :=
  (execWatchdog.eq_1 s).trans (if_pos h)

end Sys2Proof.Laws

namespace Sys2Proof

open Sys2Proof.Machine Sys2Proof.Laws

/-- Settles O52: each event by its equation. That a start keeps the repair maps, the codes of errors of arrays, the order of the SPDM
requests, that INIT sets the capacity before its zeroing, and how a test's receiving ends are listed, are the model's choices (log
entries 103, 81, 26, 80, 27). -/
theorem rasAndBoot : Obligations.RasAndBoot := by
  unfold Obligations.RasAndBoot
  intro s l bus b r kept hr hb hkept
  refine ⟨?_, ?_, ?_, ?_, ?_, ?_, ?_, ?_, ?_, ?_⟩
  · intro x ws ls hl hws hls
    subst hl hws hls hr
    by_cases h2 : x.array ≤ 2
    · refine ⟨_, exec_parityFailure h2, fun _ => parityFails_cells s x, fun h => absurd h (by omega), parityFails_weak, parityFails_bad,
        parityFails_none, fun h hp hready hc => ?_⟩
      rw [parityFails_armed h hp hready hc]
      refine ⟨?_, fun h3 => ?_, fun h4 hw => ?_, fun h4 hw => ?_⟩
      · split_ifs <;> rfl
      · rw [if_pos (by omega)]
        rfl
      · rw [if_neg (by omega), if_neg (by simp [hw])]
      · rw [if_neg (by omega), if_pos hw]
    · refine ⟨_, execParityFailure.eq_1 x s, fun h => absurd h h2, fun h => ?_, ?_, ?_, ?_, ?_⟩
      · rw [h]
        exact ⟨rfl, rfl⟩
      all_goals exact fun h => absurd h (by omega)
  · intro g y hy hbus hl
    have hsame := modBus_same s l bus (fun b => b.swap g) hl (hr ▸ hbus)
    refine ⟨_, execRepairSwap.eq_1 l bus g s, ?_⟩
    dsimp only
    rw [hsame, ← hr, ← hb]
    unfold Bus.swap
    dsimp only
    rw [← hy]
    refine ⟨fun h => if_pos h, fun h h0 => ?_, fun h h0 h1 => ?_, fun h h0 h1 => ?_⟩
    · rw [if_neg (by simp [h]), if_pos h0]
    · rw [if_neg (by simp [h]), if_neg h0, if_pos h1]
    · rw [if_neg (by simp [h]), if_neg h0, if_neg h1]
  · intro hl
    subst hr
    refine ⟨⟨_, execInit.eq_1 l s, ?_⟩, _, execInitComplete.eq_1 l s, initDone_idle, fun h => ?_⟩
    · rw [modRas_same s Ras.init hl]
      exact ⟨init_idle, init_act _⟩
    · obtain ⟨h1, h2⟩ := initDone_ras h hl
      exact ⟨h1, h2, fun pa => initDone_byte h⟩
  · intro hbus hl
    subst hr hb
    have same (f : Bus → Bus) := modBus_same s l bus f hl hbus
    refine ⟨⟨_, execTestMode.eq_1 l bus s, same _⟩, fun phys => ⟨_, execGo.eq_1 l bus phys s, (same _).trans ?_⟩, ?_⟩
    · rw [go_result]
    · rintro ones zero others rfl rfl
      exact ⟨_, execTestComplete.eq_1 l bus ones s, (same _).trans (testDone_result _ ones)⟩
  · exact fun link => execLogclr.eq_1 l link s
  · refine ⟨_, execModuleReset.eq_1 s, fun h => ?_⟩
    rw [hkept, resetModule_minimal _ h]
  · cases hs : s.boot.starting with
    | false => exact ⟨s, exec_watchdog_idle hs, fun _ => rfl, fun h => (by cases h)⟩
    | true =>
      refine ⟨_, exec_watchdog hs, fun h => (by cases h), fun _ h => ?_⟩
      rw [hkept, resetModule_minimal _ h]
  · intro n
    refine ⟨_, execRecovery.eq_1 n s, recover_elsewhere, fun hp h1 h2 => recover_refused hp h1 h2, fun hp h1 h2 hb hf hc => ?_⟩
    rw [recover_runs hp h1 h2 hb hf hc]
    exact ⟨rfl, rfl, rfl⟩
  · intro q
    exact ⟨spdm_asked (i := .getVersion q) (execGetVersion.eq_1 q s), spdm_asked (i := .getCapabilities q) (execGetCapabilities.eq_1 q s),
      spdm_asked (i := .negotiateAlgorithms q) (execNegotiateAlgorithms.eq_1 q s), spdm_asked (i := .getDigests q) (execGetDigests.eq_1 q s),
      spdm_asked (i := .getCertificate q) (execGetCertificate.eq_1 q s), spdm_asked (i := .challenge q) (execChallenge.eq_1 q s),
      exec_getMeasurements s q, spdm_asked (i := .keyExchange q) (execKeyExchange.eq_1 q s), exec_finish s q⟩
  · exact fun x g => exec_illegalInstruction

end Sys2Proof
end

section
/-! PROOF. Integer arithmetic, logic, shifts and counts (07 R170, R173): the word that each operation computes, as its row of
Table 7-1 gives it. -/

namespace Sys2Proof.Laws

open Sys2Proof.Machine

/-! The words of Table 7-1 -/

theorem mulhiWord_eq (x y : Word) : mulhiWord x y = ((x.signExtend 64 * y.signExtend 64) >>> 32).setWidth 32 := by
  have hp : x.signExtend 64 * y.signExtend 64 = BitVec.ofInt 64 (x.toInt * y.toInt) := (BitVec.ofInt_mul _ _).symm
  apply BitVec.eq_of_toNat_eq
  rw [mulhiWord, hp]
  simp only [BitVec.toNat_ofInt, BitVec.toNat_setWidth, BitVec.toNat_ushiftRight, Nat.shiftRight_eq_div_pow]
  omega

theorem mulhizWord_eq (x y : Word) : mulhizWord x y = ((x.setWidth 64 * y.setWidth 64) >>> 32).setWidth 32 := by
  have hx : x.toNat < 2 ^ 64 := by omega
  have hy : y.toNat < 2 ^ 64 := by omega
  apply BitVec.eq_of_toNat_eq
  simp only [mulhizWord, BitVec.toNat_ofNat, BitVec.toNat_setWidth, BitVec.toNat_ushiftRight, BitVec.toNat_mul,
    Nat.shiftRight_eq_div_pow, Nat.mod_eq_of_lt hx, Nat.mod_eq_of_lt hy]
  omega

theorem absWord_eq (x : Word) : absWord x = if x.getLsbD 31 then 0 - x else x := by
  rw [absWord, BitVec.msb_eq_getLsbD_last]
  simp

theorem minS_eq (x y : Word) : minS x y = if y.slt x then y else x := by
  by_cases h : x.toInt ≤ y.toInt <;> simp [minS, BitVec.slt, h]

/-- Where neither value is greater they are one word. -/
theorem maxS_eq (x y : Word) : maxS x y = if x.slt y then y else x := by
  rcases lt_trichotomy x.toInt y.toInt with h | h | h
  · simp [maxS, BitVec.slt, h, h.le]
  · simp [BitVec.eq_of_toInt_eq h, maxS]
  · simp [maxS, BitVec.slt, h.le, h.not_ge]

theorem minZ_eq (x y : Word) : minZ x y = if y < x then y else x := by
  by_cases h : x.toNat ≤ y.toNat <;> simp [minZ, BitVec.lt_def, h]

theorem maxZ_eq (x y : Word) : maxZ x y = if x < y then y else x := by
  rcases lt_trichotomy x.toNat y.toNat with h | h | h
  · simp [maxZ, BitVec.lt_def, h, h.le]
  · simp [BitVec.eq_of_toNat_eq h, maxZ]
  · simp [maxZ, BitVec.lt_def, h.le, h.not_ge]

theorem rotlWord_eq (x n : Word) : rotlWord x n = (x <<< (n.toNat % 32)) ||| (x >>> (32 - n.toNat % 32)) := by
  rw [rotlWord, BitVec.rotateLeft, Nat.mod_mod]
  rfl

theorem shlWord_eq (x n : Word) : shlWord x n = if n.toNat < 32 then x <<< n.toNat else 0 :=
  if_congr Nat.lt_succ_iff.symm rfl rfl

theorem shrWord_eq (x n : Word) : shrWord x n = if n.toNat < 32 then x >>> n.toNat else 0 :=
  if_congr Nat.lt_succ_iff.symm rfl rfl

/-- Shifted right by 31, a signed word is its sign. -/
theorem sshiftRight_31 (x : Word) : x.sshiftRight 31 = if x.getLsbD 31 then 0xFFFFFFFF else 0 := by
  apply BitVec.eq_of_getLsbD_eq
  intro k hk
  rw [BitVec.getLsbD_sshiftRight, BitVec.msb_eq_getLsbD_last]
  have hbit : (if 31 + k < 32 then x.getLsbD (31 + k) else x.getLsbD (32 - 1)) = x.getLsbD 31 := by
    split
    · next h => rw [show 31 + k = 31 by omega]
    · rfl
  rw [hbit]
  cases x.getLsbD 31 with
  | false => simp
  | true =>
    have hones : (0xFFFFFFFF : Word).getLsbD k = decide (k < 32) := BitVec.getLsbD_allOnes
    rw [if_pos rfl, hones]
    simp [hk]

theorem sarWord_eq (x n : Word) : sarWord x n =
    if n.toNat < 32 then x.sshiftRight n.toNat else if x.getLsbD 31 then 0xFFFFFFFF else 0 := by
  unfold sarWord
  split
  · next h => rw [Nat.min_eq_left (by omega)]
  · next h => rw [Nat.min_eq_right (by omega), sshiftRight_31]

/-! Operations under the "all other" row, by the word they compute -/

section
variable {i : Instr} {d a b : Nat} (hd : d < 64)
include hd

/-- A lane function of two registers, under the "all other" row, as the spec writes it. -/
theorem writes_word2 {op spec : Word → Word → Word} (hop : ∀ x y, op x y = spec x y)
    (hx : ∀ s, exec i s = issue i s (lane2 i d a b (other2 a b) op)) :
    Writes i (fun _ => oneReg d [a, b] fun f l => spec (f.lane a l) (f.lane b l)) :=
  Writes.congr_val (writes_other2 hd hx) fun _ _ => (hop _ _).symm

theorem writes_word1 {op spec : Word → Word} (hop : ∀ x, op x = spec x)
    (hx : ∀ s, exec i s = issue i s (lane1 i d a (other1 a) op)) :
    Writes i (fun _ => oneReg d [a] fun f l => spec (f.lane a l)) :=
  Writes.congr_val (writes_other1 hd hx) fun _ _ => (hop _).symm

end

end Sys2Proof.Laws

namespace Sys2Proof

open Sys2Proof.Machine Sys2Proof.Laws

/-- Settles O1: each instruction is one shared lane operation, whose word is the one its row of Table 7-1 gives. -/
theorem integerAndLogic : Obligations.IntegerAndLogic := by
  unfold Obligations.IntegerAndLogic
  refine ⟨?_, ?_⟩
  · rintro o d a b rfl rfl rfl
    have hd : o.d.toNat < 64 := o.d.isLt
    exact ⟨writes_addOp hd fun _ => rfl, writes_subOp hd fun _ => rfl, writes_mulOp hd fun _ => rfl,
      writes_word2 hd mulhiWord_eq fun _ => rfl, writes_word2 hd mulhizWord_eq fun _ => rfl, writes_word1 hd absWord_eq fun _ => rfl,
      writes_word2 hd minS_eq fun _ => rfl, writes_word2 hd maxS_eq fun _ => rfl, writes_word2 hd minZ_eq fun _ => rfl,
      writes_word2 hd maxZ_eq fun _ => rfl⟩
  · rintro o d a b rfl rfl rfl
    have hd : o.d.toNat < 64 := o.d.isLt
    have hshl : Writes (.shl o) (fun _ => formed o.d.toNat (shlRow o.a.toNat o.b.toNat) [o.a.toNat, o.b.toNat] fun f l =>
        shlWord (f.lane o.a.toNat l) (f.lane o.b.toNat l)) :=
      writes_formed (fun _ => rfl) hd fun f => formOk_shl (lanesOf_reg f _) fun hu l => lane_isU hu l
    exact ⟨writes_other2 hd fun _ => rfl, writes_other2 hd fun _ => rfl, writes_other2 hd fun _ => rfl,
      writes_other2 (op := fun x y => x &&& ~~~y) hd fun _ => rfl, writes_other2 (op := fun x y => x ||| ~~~y) hd fun _ => rfl,
      writes_word2 hd rotlWord_eq fun _ => rfl, Writes.congr_formed hshl fun _ _ => (shlWord_eq _ _).symm,
      writes_word2 hd shrWord_eq fun _ => rfl, writes_word2 hd sarWord_eq fun _ => rfl, writes_other1 hd fun _ => rfl,
      writes_other1 hd fun _ => rfl, writes_other1 hd fun _ => rfl, writes_other1 hd fun _ => rfl⟩

end Sys2Proof
end

section
/-! PROOF. Counts, byte selection and bit fields, bit by bit (07 R173, R174, R175). -/

namespace Sys2Proof.Laws

open Sys2Proof.Machine

/-- A lane function of three registers, under the "all other" row. -/
theorem writes_other3 {i : Instr} {d a b c : Nat} {op : Word → Word → Word → Word} (hd : d < 64)
    (hx : ∀ s, exec i s = issue i s (lane3 i d a b c op)) :
    Writes i (fun _ => oneReg d [a, b, c] fun f l => op (f.lane a l) (f.lane b l) (f.lane c l)) :=
  writes_oneReg hx hd fun f h l => by rw [h a (by simp) l, h b (by simp) l, h c (by simp) l]

/-! Counts -/

/-- The bits before the first of a word's 32 where a test holds. -/
def leading (p : Nat → Bool) : Nat := ((List.range 32).takeWhile fun j => !p j).length

theorem clzWord_leading (x : Word) : clzWord x = BitVec.ofNat 32 (leading fun j => x.getLsbD (31 - j)) := rfl

theorem ctzWord_leading (x : Word) : ctzWord x = BitVec.ofNat 32 (leading fun j => x.getLsbD j) := rfl

theorem leading_eq_findIdx (p : Nat → Bool) : leading p = (List.range 32).findIdx p := by
  rw [leading, List.takeWhile_eq_take_findIdx_not, List.length_take, Nat.min_eq_left List.findIdx_le_length]
  simp

/-- No bit before the first where the test holds passes it, and that one does. -/
theorem leading_spec {p : Nat → Bool} (h : ∃ j < 32, p j = true) :
    leading p < 32 ∧ p (leading p) = true ∧ ∀ j < leading p, p j = false := by
  rw [leading_eq_findIdx]
  have hlt : (List.range 32).findIdx p < (List.range 32).length := by
    obtain ⟨j, hj, hp⟩ := h
    exact List.findIdx_lt_length.2 ⟨j, List.mem_range.2 hj, hp⟩
  refine ⟨by simpa using hlt, ?_, fun j hj => ?_⟩
  · have := List.findIdx_getElem (w := hlt)
    rwa [List.getElem_range] at this
  · have := List.not_of_lt_findIdx hj
    rwa [List.getElem_range] at this

theorem leading_toNat {p : Nat → Bool} (h : ∃ j < 32, p j = true) : (BitVec.ofNat 32 (leading p)).toNat = leading p := by
  have := (leading_spec h).1
  rw [BitVec.toNat_ofNat, Nat.mod_eq_of_lt (by omega)]

theorem exists_getLsbD {x : Word} (h : x ≠ 0) : ∃ j < 32, x.getLsbD j = true := by
  by_contra hc
  push Not at hc
  refine h (BitVec.eq_of_getLsbD_eq fun j hj => ?_)
  simpa using hc j hj

theorem ctzWord_spec {x : Word} (h : x ≠ 0) :
    (ctzWord x).toNat < 32 ∧ x.getLsbD (ctzWord x).toNat = true ∧ ∀ j < (ctzWord x).toNat, x.getLsbD j = false := by
  have he := exists_getLsbD h
  rw [ctzWord_leading, leading_toNat he]
  exact leading_spec he

theorem clzWord_spec {x : Word} (h : x ≠ 0) :
    (clzWord x).toNat < 32 ∧ x.getLsbD (31 - (clzWord x).toNat) = true ∧ ∀ j < (clzWord x).toNat, x.getLsbD (31 - j) = false := by
  have he : ∃ j < 32, x.getLsbD (31 - j) = true := by
    obtain ⟨j, hj, hx⟩ := exists_getLsbD h
    exact ⟨31 - j, by omega, by rwa [show 31 - (31 - j) = j by omega]⟩
  rw [clzWord_leading, leading_toNat he]
  exact leading_spec he

theorem length_filter_eq_sum (p : Nat → Bool) (xs : List Nat) : (xs.filter p).length = (xs.map fun j => (p j).toNat).sum := by
  induction xs with
  | nil => rfl
  | cons x xs ih => cases h : p x <;> simp [h, ih, Nat.add_comm]

theorem popcWord_toNat (x : Word) : (popcWord x).toNat = ((List.range 32).map fun j => (x.getLsbD j).toNat).sum := by
  have hle : (lanesOf x).length ≤ 32 := (List.length_filter_le _ _).trans_eq List.length_range
  rw [popcWord, BitVec.toNat_ofNat, Nat.mod_eq_of_lt (by omega)]
  exact length_filter_eq_sum _ _

theorem brevWord_getLsbD (x : Word) {j : Nat} (hj : j < 32) : (brevWord x).getLsbD j = x.getLsbD (31 - j) := by
  rw [brevWord, maskOf_getLsbD, decide_eq_true hj, Bool.true_and]

/-! Byte selection (R174) -/

/-- A field of two bits, by its bits. -/
theorem toNat_two_bits (y : BitVec 2) : y.toNat = 2 * (y.getLsbD 1).toNat + (y.getLsbD 0).toNat := by
  revert y
  decide

theorem bpickByte_getLsbD (x s o : Word) (i : Nat) {k : Nat} (hk : k < 8) : (bpickByte x s o i).getLsbD k =
    if s.getLsbD (4 * i + 3) then s.getLsbD (4 * i + 2)
    else if s.getLsbD (4 * i + 2) then o.getLsbD (8 * i + k)
    else x.getLsbD (8 * (s.toNat / 2 ^ (4 * i) % 4) + k) := by
  have hkind : (s.extractLsb' (4 * i + 2) 2).toNat = 2 * (s.getLsbD (4 * i + 3)).toNat + (s.getLsbD (4 * i + 2)).toNat := by
    rw [toNat_two_bits]
    simp
  have hn : (s.extractLsb' (4 * i) 2).toNat = s.toNat / 2 ^ (4 * i) % 4 := by
    rw [BitVec.extractLsb'_toNat, Nat.shiftRight_eq_div_pow]
  unfold bpickByte
  rw [hkind, hn]
  cases s.getLsbD (4 * i + 3) with
  | true =>
    cases s.getLsbD (4 * i + 2) with
    | true => exact (BitVec.getLsbD_allOnes (v := 8)).trans (decide_eq_true hk)
    | false => exact BitVec.getLsbD_zero
  | false => cases s.getLsbD (4 * i + 2) <;> simp [hk]

theorem bpickWord_getLsbD (x s o : Word) {i k : Nat} (hi : i < 4) (hk : k < 8) :
    (bpickWord x s o).getLsbD (8 * i + k) = (bpickByte x s o i).getLsbD k := by
  unfold bpickWord
  simp only [BitVec.getLsbD_append]
  obtain rfl | rfl | rfl | rfl : i = 0 ∨ i = 1 ∨ i = 2 ∨ i = 3 := by omega
  · rw [if_pos (by omega), show 8 * 0 + k = k by omega]
  · rw [if_neg (by omega), if_pos (by omega), show 8 * 1 + k - 8 = k by omega]
  · rw [if_neg (by omega), if_neg (by omega), if_pos (by omega), show 8 * 2 + k - 8 - 8 = k by omega]
  · rw [if_neg (by omega), if_neg (by omega), if_neg (by omega), show 8 * 3 + k - 8 - 8 - 8 = k by omega]

/-! Bit fields (R175, Table 7-2) -/

theorem fieldPos_eq (c : Word) : fieldPos c = c.toNat % 32 := by
  rw [fieldPos, BitVec.extractLsb'_toNat, Nat.shiftRight_zero]

theorem fieldLen_eq (c : Word) : fieldLen c = min (min (c.toNat / 2 ^ 8 % 64) 32) (32 - fieldPos c) := by
  rw [fieldLen, BitVec.extractLsb'_toNat, Nat.shiftRight_eq_div_pow]

theorem fieldMask_getLsbD (c : Word) {j : Nat} (hj : j < 32) :
    (fieldMask c).getLsbD j = decide (fieldPos c ≤ j ∧ j < fieldPos c + fieldLen c) := by
  rw [fieldMask, BitVec.getLsbD_ofNat, Nat.testBit_mul_two_pow, Nat.testBit_two_pow_sub_one, decide_eq_true hj, Bool.true_and,
    ← Bool.decide_and]
  exact decide_eq_decide.2 (by omega)

theorem bfxWord_getLsbD (a c : Word) (j : Nat) :
    (bfxWord a c).getLsbD j = (decide (j < fieldLen c) && a.getLsbD (fieldPos c + j)) := by
  rw [bfxWord, BitVec.getLsbD_ushiftRight, BitVec.getLsbD_and, Bool.and_comm]
  by_cases hj : fieldPos c + j < 32
  · rw [fieldMask_getLsbD c hj]
    simp
  · simp [BitVec.getLsbD_of_ge _ _ (Nat.le_of_not_lt hj)]

theorem bfxsWord_getLsbD (a c : Word) {j : Nat} (hj : j < 32) : (bfxsWord a c).getLsbD j =
    (decide (0 < fieldLen c) && a.getLsbD (fieldPos c + min j (fieldLen c - 1))) := by
  have hw : fieldLen c ≤ 32 - fieldPos c := Nat.min_le_right _ _
  unfold bfxsWord
  dsimp only
  by_cases h0 : fieldLen c = 0
  · simp [h0]
  have hmin : min j (fieldLen c - 1) < fieldLen c := by omega
  have hbit : (if 32 - fieldLen c + j < 32 then (bfxWord a c <<< (32 - fieldLen c)).getLsbD (32 - fieldLen c + j)
      else (bfxWord a c <<< (32 - fieldLen c)).getLsbD (32 - 1)) = (bfxWord a c).getLsbD (min j (fieldLen c - 1)) := by
    rw [BitVec.getLsbD_shiftLeft, BitVec.getLsbD_shiftLeft]
    split
    · next h => simp [h, show min j (fieldLen c - 1) = j by omega]
    · next h => simp [show min j (fieldLen c - 1) = 31 - (32 - fieldLen c) by omega, show 32 ≤ 31 + fieldLen c by omega]
  rw [if_neg h0, BitVec.getLsbD_sshiftRight, BitVec.msb_eq_getLsbD_last, hbit, bfxWord_getLsbD]
  simp [hj, hmin, Nat.pos_of_ne_zero h0]

theorem bfiWord_getLsbD (d a c : Word) {j : Nat} (hj : j < 32) : (bfiWord d a c).getLsbD j =
    if fieldPos c ≤ j ∧ j < fieldPos c + fieldLen c then a.getLsbD (j - fieldPos c) else d.getLsbD j := by
  rw [bfiWord]
  simp only [BitVec.getLsbD_or, BitVec.getLsbD_and, BitVec.getLsbD_not, BitVec.getLsbD_shiftLeft, fieldMask_getLsbD c hj, hj,
    decide_true, Bool.true_and]
  split_ifs with h <;> simp [h]

end Sys2Proof.Laws

namespace Sys2Proof

open Sys2Proof.Machine Sys2Proof.Laws

/-- Settles O2: the words bit by bit, each by its lemma; each instruction is one lane operation. -/
theorem bitFields : Obligations.BitFields := by
  unfold Obligations.BitFields
  refine ⟨fun a => ⟨?_, clzWord_spec, ctzWord_spec, popcWord_toNat a, fun _ => brevWord_getLsbD a⟩, ?_, ?_, ?_⟩
  · rintro rfl
    decide
  · rintro o d a b rfl rfl rfl
    have hd : o.d.toNat < 64 := o.d.isLt
    exact ⟨writes_other3 hd fun _ => rfl, writes_other2 hd fun _ => rfl, writes_other2 hd fun _ => rfl,
      writes_other3 (op := fun x y z => bfiWord z x y) hd fun _ => rfl⟩
  · intro x s o i k hi hk
    rw [bpickWord_getLsbD x s o hi hk, bpickByte_getLsbD x s o i hk]
  · rintro a d c pos w rfl rfl i hi
    rw [← fieldPos_eq, ← fieldLen_eq]
    exact ⟨bfxWord_getLsbD a c i, bfxsWord_getLsbD a c hi, bfiWord_getLsbD d a c hi⟩

end Sys2Proof
end

section
/-! PROOF. Instructions with an immediate (07 R177, R178): an immediate is a U source, and the amount of major 14 is below 64. -/

namespace Sys2Proof.Laws

open Sys2Proof.Machine

theorem amount_eq (o : I32) : Machine.I32.amount o = o.imm.toNat % 64 := by
  rw [Machine.I32.amount, BitVec.extractLsb'_toNat, Nat.shiftRight_zero]

theorem toNat_amount {n : Nat} (hn : n < 32) : (BitVec.ofNat 32 n).toNat = n := Nat.mod_eq_of_lt (by omega)

theorem sarWord_amount (x : Word) {n : Nat} (hn : n < 32) : sarWord x (BitVec.ofNat 32 n) = x.sshiftRight n := by
  rw [sarWord_eq, toNat_amount hn, if_pos hn]

theorem rotlWord_amount (x : Word) {n : Nat} (hn : n < 32) : rotlWord x (BitVec.ofNat 32 n) = (x <<< n) ||| (x >>> (32 - n)) := by
  rw [rotlWord_eq, toNat_amount hn, Nat.mod_eq_of_lt hn]

theorem writes_mulImm {i : Instr} {d a : Nat} {x : Word} (hd : d < 64) (hx : ∀ s, exec i s = issue i s (lane1 i d a
      (fun f => formMul (f.affine a) (some (x, 0)) (f.isU a) true) (· * x))) :
    Writes i (fun _ => formed d (mulImmRow a x) [a] fun f l => f.lane a l * x) :=
  writes_formed hx hd fun f => formOk_mul (lanesOf_reg f a) (lanesOf_imm x)

end Sys2Proof.Laws

namespace Sys2Proof

open Sys2Proof.Machine Sys2Proof.Laws

/-- Settles O3: each instruction is the lane operation of its register form, with the immediate in place of the second register. -/
theorem immediates : Obligations.Immediates := by
  unfold Obligations.Immediates
  refine ⟨?_, fun o => writes_oneValue (fun _ => rfl) o.d.isLt, ?_⟩
  · rintro o d a n x rfl rfl hn rfl
    have hd : o.d.toNat < 64 := o.d.isLt
    rw [← amount_eq] at hn
    subst hn
    refine ⟨writes_addImm hd fun _ => rfl, writes_other1 (op := (· &&& _)) hd fun _ => rfl,
      writes_other1 (op := (· ||| _)) hd fun _ => rfl, writes_other1 (op := (· ^^^ _)) hd fun _ => rfl,
      fun hn => ?_, writes_mulImm hd fun _ => rfl⟩
    exact ⟨writes_shlImm hd hn fun _ => rfl, writes_shrImm hd hn fun _ => rfl,
      writes_word1 hd (fun x => sarWord_amount x hn) fun _ => rfl, writes_word1 hd (fun x => rotlWord_amount x hn) fun _ => rfl⟩
  · rintro o d a rfl rfl
    exact ⟨writes_oneValue (fun _ => rfl) o.d.isLt, writes_addImm o.d.isLt fun _ => rfl⟩

end Sys2Proof
end

section
/-! PROOF. Sums of pairs, multiply-add and division (07 R175, R179, R180). -/

namespace Sys2Proof.Laws

open Sys2Proof.Machine

/-- A pair whose registers read the same in every lane does so too. -/
theorem pair_of_uniform {f : Frame} {a l : Nat} (h0 : f.lane a l = f.lane a 0) (h1 : f.lane (a + 1) l = f.lane (a + 1) 0) :
    f.pair a l = f.pair a 0 := by
  rw [Frame.pair, h0, h1, Frame.pair]

/-- The upper register of an aligned pair is a register. -/
theorem aligned_lt {d : Nat} (hd : d < 64) (h2 : d % 2 = 0) : d + 1 < 64 := by omega

theorem writes_pair2 {i : Instr} {d a b : Nat} {op : DWord → DWord → DWord} (hd : d + 1 < 64)
    (hx : ∀ s, exec i s = issue i s (pair2 i d a b op)) :
    Writes i (fun _ => pairRegs d [a, a + 1, b, b + 1] fun f l => op (f.pair a l) (f.pair b l)) :=
  writes_pairRegs hx hd fun f h l => by
    rw [pair_of_uniform (h a (by simp) l) (h (a + 1) (by simp) l), pair_of_uniform (h b (by simp) l) (h (b + 1) (by simp) l)]

/-- MADW extends both factors as its ctl[0] says (Table 7-4). -/
theorem writes_madw (o : T64) (hd : o.d.toNat + 1 < 64) :
    Writes (.madw o) (fun _ => pairRegs o.d.toNat [o.a.toNat, o.b.toNat, o.c.toNat, o.c.toNat + 1] fun f l =>
      (if o.ctl.getLsbD 0 then (f.lane o.a.toNat l).setWidth 64 * (f.lane o.b.toNat l).setWidth 64
        else (f.lane o.a.toNat l).signExtend 64 * (f.lane o.b.toNat l).signExtend 64) + f.pair o.c.toNat l) := by
  refine writes_pairRegs (fun s => (execMadw.eq_1 o s).trans ?_) hd fun f h l => ?_
  · cases o.ctl.getLsbD 0 <;> rfl
  · rw [h o.a.toNat (by simp) l, h o.b.toNat (by simp) l, pair_of_uniform (h o.c.toNat (by simp) l) (h (o.c.toNat + 1) (by simp) l)]

/-! Products of bytes (Table 7-4) -/

theorem ofInt_toInt_byte (x : Byte) : BitVec.ofInt 32 x.toInt = x.signExtend 32 := rfl

theorem ofInt_toNat_byte (x : Byte) : BitVec.ofInt 32 (x.toNat : Int) = x.setWidth 32 := by
  rw [BitVec.ofInt_natCast, BitVec.ofNat_toNat]

/-- A dot product of four bytes is a sum of words. -/
theorem dot4Word_eq {x : Byte → Int} {w : Byte → Word} (hw : ∀ y, BitVec.ofInt 32 (x y) = w y) (a b c : Word) :
    dot4Word x a b c =
      let p (i : Nat) := w (a.extractLsb' (8 * i) 8) * w (b.extractLsb' (8 * i) 8)
      c + (p 0 + p 1 + p 2 + p 3) := by
  simp only [dot4Word, List.range, List.range.loop, List.map_cons, List.map_nil, List.sum_cons, List.sum_nil, BitVec.ofInt_add,
    BitVec.ofInt_mul, hw, BitVec.ofInt_natCast, BitVec.ofNat_toNat, BitVec.setWidth_eq, add_assoc]
  rw [show BitVec.ofInt 32 0 = 0 from rfl, add_zero]

theorem writes_dot4 {i : Instr} {d a b c : Nat} {x : Byte → Int} {w : Byte → Word} (hd : d < 64)
    (hw : ∀ y, BitVec.ofInt 32 (x y) = w y) (hx : ∀ s, exec i s = issue i s (lane3 i d a b c (dot4Word x))) :
    Writes i (fun _ => oneReg d [a, b, c] fun f l =>
      let p (k : Nat) := w ((f.lane a l).extractLsb' (8 * k) 8) * w ((f.lane b l).extractLsb' (8 * k) 8)
      f.lane c l + (p 0 + p 1 + p 2 + p 3)) :=
  Writes.congr_val (writes_other3 hd hx) fun f l => (dot4Word_eq hw (f.lane a l) (f.lane b l) (f.lane c l)).symm

/-! Quotients and remainders (R180) -/

theorem ofInt_tdiv (x y : Word) : BitVec.ofInt 32 (x.toInt.tdiv y.toInt) = x.sdiv y := by
  apply BitVec.eq_of_toInt_eq
  rw [BitVec.toInt_ofInt, BitVec.toInt_sdiv]

theorem divWord_eq (x y : Word) : divWord x y =
    if y = 0 then 0xFFFFFFFF else if x = 0x80000000 ∧ y = 0xFFFFFFFF then 0x80000000 else x.sdiv y := by
  rw [divWord, ofInt_tdiv]
  refine if_congr Iff.rfl rfl ?_
  split
  · next h => rw [h.1, h.2]; rfl
  · rfl

theorem remWord_eq (x y : Word) : remWord x y =
    if y = 0 then x else if x = 0x80000000 ∧ y = 0xFFFFFFFF then 0 else x - y * x.sdiv y := by
  have hrem : BitVec.ofInt 32 (x.toInt.tmod y.toInt) = x - y * x.sdiv y := by
    refine eq_sub_of_add_eq ?_
    have h := congrArg (BitVec.ofInt 32) (Int.tmod_add_mul_tdiv x.toInt y.toInt)
    rwa [BitVec.ofInt_add, BitVec.ofInt_mul, ofInt_tdiv, BitVec.ofInt_toInt, BitVec.ofInt_toInt] at h
  rw [remWord, hrem]
  refine if_congr Iff.rfl rfl ?_
  split
  · next h => rw [h.1, h.2]; rfl
  · rfl

theorem divzWord_eq (x y : Word) : divzWord x y = if y = 0 then 0xFFFFFFFF else x / y := by
  refine if_congr Iff.rfl rfl (BitVec.eq_of_toNat_eq ?_)
  rw [BitVec.toNat_ofNat, BitVec.toNat_udiv]
  exact Nat.mod_eq_of_lt ((Nat.div_le_self _ _).trans_lt x.isLt)

theorem remzWord_eq (x y : Word) : remzWord x y = if y = 0 then x else x % y := by
  refine if_congr Iff.rfl rfl (BitVec.eq_of_toNat_eq ?_)
  rw [BitVec.toNat_ofNat, BitVec.toNat_umod]
  exact Nat.mod_eq_of_lt ((Nat.mod_le _ _).trans_lt x.isLt)

end Sys2Proof.Laws

namespace Sys2Proof

open Sys2Proof.Machine Sys2Proof.Laws

/-- Settles O5: a pair is written as one double word, and a dot product of bytes is a sum of products of words. -/
theorem pairsAndProducts : Obligations.PairsAndProducts := by
  unfold Obligations.PairsAndProducts
  refine ⟨?_, ?_⟩
  · rintro o d a b rfl rfl rfl h2
    have hd := aligned_lt o.d.isLt h2
    exact ⟨writes_pair2 hd fun _ => rfl, writes_pair2 hd fun _ => rfl⟩
  · rintro o d a b c rfl rfl rfl rfl
    have hd : o.d.toNat < 64 := o.d.isLt
    exact ⟨writes_other3 (op := fun x y z => x * y + z) hd fun _ => rfl,
      fun h2 => writes_madw o (aligned_lt hd h2), writes_dot4 hd ofInt_toInt_byte fun _ => rfl,
      writes_dot4 hd ofInt_toNat_byte fun _ => rfl⟩

/-- Settles O6: each instruction is one lane operation, whose word is given by the table's cases. -/
theorem division : Obligations.Division := by
  unfold Obligations.Division
  rintro o d a b rfl rfl rfl
  have hd : o.d.toNat < 64 := o.d.isLt
  exact ⟨writes_word2 hd divWord_eq fun _ => rfl, writes_word2 hd divzWord_eq fun _ => rfl, writes_word2 hd remWord_eq fun _ => rfl,
    writes_word2 hd remzWord_eq fun _ => rfl⟩

end Sys2Proof
end

section
/-! PROOF. Moves, selection and queries of the group (07 R175, R176, R182, R186). -/

namespace Sys2Proof.Laws

open Sys2Proof.Machine

/-- SEL's predicate, turned over by N (R176). -/
def selPred (o : A32) (f : Frame) : Mask := if o.g.getLsbD 3 then ~~~f.pred (o.g.toNat % 8) else f.pred (o.g.toNat % 8)

/-- What SEL writes: the selected source lane by lane, in the form of the source that alone is selected. -/
def selWrite (o : A32) (f : Frame) : LaneWrite :=
  ⟨if selPred o f = BitVec.allOnes 32 then movRow o.a.toNat f else if selPred o f = 0 then movRow o.b.toNat f else .g,
    fun l => if (selPred o f).getLsbD l then f.lane o.a.toNat l else f.lane o.b.toNat l,
    fun l => if (selPred o f).getLsbD l then f.bad o.a.toNat l else f.bad o.b.toNat l⟩

theorem exec_sel (o : A32) (s : State) :
    exec (.sel o) s = issue (.sel o) s fun s e => writeLanes (.sel o) s e o.d.toNat (selWrite o e.g.frame) := by
  have hp : (o.g.extractLsb' 0 3).toNat = o.g.toNat % 8 := by rw [BitVec.extractLsb'_toNat, Nat.shiftRight_zero]
  refine (execSel.eq_1 o s).trans ?_
  rw [hp]
  rfl

/-- The form that a write asks for speaks of the 32 lanes only. -/
theorem FormOk.congr {form : DForm} {v v' : Nat → Word} {bad bad' : Nat → Bool} (h : FormOk ⟨form, v, bad⟩)
    (hv : ∀ l < 32, v' l = v l) : FormOk ⟨form, v', bad'⟩ := by
  cases form with
  | u => exact fun l hl => (hv l hl).trans ((h l hl).trans (hv 0 (by decide)).symm)
  | a => exact fun l hl => (hv l hl).trans (h l hl)
  | g => trivial

/-- A selection by a predicate of all ones or of none keeps the lanes of its one source. -/
theorem formOk_sel (o : A32) (f : Frame) : FormOk (selWrite o f) := by
  have hmov (n : Nat) : FormOk ⟨movRow n f, f.lane n, fun _ => false⟩ := formOk_mov
  unfold selWrite
  split
  · next h => exact (hmov o.a.toNat).congr fun l hl => if_pos (by rw [h, BitVec.getLsbD_allOnes, decide_eq_true hl])
  · split
    · next h => exact (hmov o.b.toNat).congr fun l _ => if_neg (by simp [h])
    · trivial

/-- A register's poison, as a mask, is that of its lanes (R186). -/
theorem poison_eq_maskOf (f : Frame) (n : Nat) : ((f.reg? n).map VReg.poison).getD 0 = maskOf fun l => f.bad n l := by
  apply BitVec.eq_of_getLsbD_eq
  intro l hl
  rw [maskOf_getLsbD, decide_eq_true hl, Bool.true_and, Frame.bad]
  cases f.reg? n with
  | none => simp
  | some r => rfl

theorem writes_poisonq (o : A32) : Writes (.poisonq o) (fun _ e => oneValue o.d.toNat (maskOf fun l => e.g.frame.bad o.a.toNat l)) := by
  refine writes_oneValue (fun s => (execPoisonq.eq_1 o s).trans ?_) o.d.isLt
  simp only [poison_eq_maskOf]

theorem writes_laneid (o : A32) :
    Writes (.laneid o) (fun _ _ => ⟨[o.d.toNat], .a 0 1, fun _ l => BitVec.ofNat 32 l, fun _ _ => false⟩) := by
  refine writes_lanes (w := fun _ _ => ⟨.a 0 1, fun l => BitVec.ofNat 32 l, fun _ => false⟩) (funext (execLaneid.eq_1 o)) o.d.isLt
    (fun _ _ => rfl) (fun _ _ => rfl) (fun _ _ => rfl) fun _ _ l _ => ?_
  simp

theorem writes_ftime (o : A32) (h2 : o.d.toNat % 2 = 0) : Writes (.ftime o) (fun s e =>
    ⟨[o.d.toNat, o.d.toNat + 1], .u, pairWords o.d.toNat fun _ => BitVec.ofNat 64 (s.ftAt e.g.l), fun _ _ => false⟩) :=
  writes_pair (form := fun _ _ => .u) (v := fun s e _ => BitVec.ofNat 64 (s.ftAt e.g.l)) (bad := fun _ _ _ => false)
    (funext (execFtime.eq_1 o)) (aligned_lt o.d.isLt h2) (fun _ _ => rfl) (fun _ _ => ⟨rfl, rfl, rfl⟩) (fun _ _ => rfl)
    fun _ _ _ _ _ => rfl

/-- A write of form G, whose lanes are free. -/
theorem writes_g {i : Instr} {d : Nat} {val : Env → Nat → Word} {bad : Env → Nat → Bool} (hd : d < 64)
    (hx : ∀ s, exec i s = issue i s fun s e => writeLanes i s e d ⟨.g, val e, bad e⟩) :
    Writes i (fun _ e => ⟨[d], .g, fun _ => val e, fun _ => bad e⟩) :=
  writes_lanes (w := fun _ e => ⟨.g, val e, bad e⟩) (funext hx) hd (fun _ _ => rfl) (fun _ _ => rfl) (fun _ _ => rfl) fun _ _ => trivial

end Sys2Proof.Laws

namespace Sys2Proof

open Sys2Proof.Machine Sys2Proof.Laws

/-- Settles O7: SEL by the mask that selects, every other instruction by one shared write of a register, a value or a pair. -/
theorem movesAndQueries : Obligations.MovesAndQueries := by
  unfold Obligations.MovesAndQueries
  rintro o d a b rfl rfl rfl
  have hd : o.d.toNat < 64 := o.d.isLt
  refine ⟨writes_movOp hd fun _ => rfl, ?_, writes_oneValue (fun _ => rfl) hd, writes_laneid o, writes_oneValue (fun _ => rfl) hd,
    writes_oneValue (fun _ => rfl) hd, writes_ftime o, writes_poisonq o, writes_oneValue (fun _ => rfl) hd, writes_g hd fun _ => rfl⟩
  exact writes_lanes (funext (exec_sel o)) hd (fun _ _ => rfl) (fun _ _ => rfl) (fun _ _ => rfl) fun _ e => formOk_sel o e.g.frame

end Sys2Proof
end

section
/-! PROOF. XLANE, and what is counted, ranked or combined over the lanes of ACTIVE (07 R183 to R185). -/

namespace Sys2Proof.Laws

open Sys2Proof.Machine

/-- What XLANE writes, reading lane `j` of its source (R183). -/
def xlaneEffect (d a b : Nat) (j : Nat → Nat → Nat) (f : Frame) : Effect :=
  ⟨[d], f.formOther [a, b], fun _ l => f.lane a (j l (f.lane b l).toNat),
    fun _ l => f.bad a (j l (f.lane b l).toNat) || f.bad b l⟩

theorem writes_xlane {i : Instr} {d a b : Nat} {j : Nat → Nat → Nat} (hd : d < 64)
    (hx : ∀ s, exec i s = issue i s (xlane i d a b true fun l n => some (j l n.toNat))) :
    Writes i (fun _ e => xlaneEffect d a b j e.g.frame) :=
  writes_lanes (w := fun _ e => ⟨e.g.frame.formOther [a, b], fun l => e.g.frame.lane a (j l (e.g.frame.lane b l).toNat),
      fun l => e.g.frame.bad a (j l (e.g.frame.lane b l).toNat) || e.g.frame.bad b l⟩)
    (funext hx) hd (fun _ _ => rfl) (fun _ _ => rfl) (fun _ _ => rfl) fun _ e => formOk_other fun h l => by
      rw [h a (by simp), h a (by simp) (j 0 _)]

/-- XLANE.SHIFT reads nothing below lane 0. -/
theorem exec_xlaneShift (o : A32) (s : State) : exec (.xlaneShift o) s = issue (.xlaneShift o) s fun s e =>
    let f := e.g.frame
    writeLanes (.xlaneShift o) s e o.d.toNat ⟨.g,
      fun l => if (f.lane o.b.toNat l).toNat ≤ l then f.lane o.a.toNat (l - (f.lane o.b.toNat l).toNat) else 0,
      fun l => (decide ((f.lane o.b.toNat l).toNat ≤ l) && f.bad o.a.toNat (l - (f.lane o.b.toNat l).toNat)) || f.bad o.b.toNat l⟩ := by
  refine (execXlaneShift.eq_1 o s).trans ?_
  congr 1
  funext s e
  unfold xlane
  dsimp only
  congr 2
  · funext l
    split_ifs <;> rfl
  · funext l
    by_cases h : (e.g.frame.lane o.b.toNat l).toNat ≤ l <;> simp [h]

/-- The lanes of ACTIVE where a predicate holds, ascending (R184). -/
theorem lanesOf_held (e : Env) (p : Nat) :
    lanesOf (e.held p) = (List.range 32).filter fun l => e.act.getLsbD l && (e.g.frame.pred p).getLsbD l :=
  List.filter_congr fun _ _ => BitVec.getLsbD_and

/-- The number of trailing zero bits is the lowest lane, 32 where there is none. -/
theorem ctzWord_eq_head (m : Mask) : ctzWord m = BitVec.ofNat 32 ((lanesOf m).headD 32) := by
  rw [ctzWord_leading]
  congr 1
  by_cases h : m = 0
  · subst h
    decide
  · obtain ⟨hlt, hbit, hlow⟩ := leading_spec (exists_getLsbD h)
    rw [lanesOf, List.headD_eq_head?_getD, head?_filter_range hlt hbit hlow]
    rfl

/-- The operations of REDUX are those of the spec. -/
theorem reduxOp_eq : (fn : Nat) → reduxOp fn = reduceBy fn
  | 0 | 5 | 6 | _ + 7 => rfl
  | 1 => funext₂ minS_eq
  | 2 => funext₂ maxS_eq
  | 3 => funext₂ minZ_eq
  | 4 => funext₂ maxZ_eq

theorem foldLanes_eq (op : Word → Word → Word) (xs : List Word) : foldLanes op xs = xs.tail.foldl op (xs.headD 0) := by
  cases xs <;> rfl

theorem writes_pcount (o : A32) : Writes (.pcount o) (fun _ e => oneValue o.d.toNat (BitVec.ofNat 32
    ((List.range 32).filter fun l => e.act.getLsbD l && (e.g.frame.pred o.a.toNat).getLsbD l).length)) := by
  refine writes_oneValue (fun s => (execPcount.eq_1 o s).trans ?_) o.d.isLt
  simp only [popcWord, lanesOf_held]

theorem writes_pmask (o : A32) : Writes (.pmask o) (fun _ e => oneValue o.d.toNat (e.act &&& e.g.frame.pred o.a.toNat)) :=
  writes_oneValue (execPmask.eq_1 o) o.d.isLt

theorem writes_pfirst (o : A32) : Writes (.pfirst o) (fun _ e => oneValue o.d.toNat (BitVec.ofNat 32
    (((List.range 32).filter fun l => e.act.getLsbD l && (e.g.frame.pred o.a.toNat).getLsbD l).headD 32))) := by
  refine writes_oneValue (fun s => (execPfirst.eq_1 o s).trans ?_) o.d.isLt
  simp only [ctzWord_eq_head, lanesOf_held]

theorem writes_redux (o : A32) : Writes (.redux o) (fun _ e =>
    let f := e.g.frame
    let xs := (lanesOf e.act).map fun l => f.lane o.a.toNat l
    ⟨[o.d.toNat], .u, fun _ _ => xs.tail.foldl (reduceBy o.fn.toNat) (xs.headD 0),
      fun _ _ => (lanesOf e.act).any fun l => f.bad o.a.toNat l⟩) := by
  refine writes_lanes (w := fun _ e => ⟨.u,
    fun _ => foldLanes (reduxOp o.fn.toNat) ((lanesOf e.act).map fun l => e.g.frame.lane o.a.toNat l),
    fun _ => (lanesOf e.act).any fun l => e.g.frame.bad o.a.toNat l⟩) (funext (execRedux.eq_1 o)) o.d.isLt
    (fun _ _ => rfl) (fun _ _ => rfl) (fun _ e => ?_) fun _ _ => formOk_const _ _
  dsimp only
  rw [reduxOp_eq, foldLanes_eq]

end Sys2Proof.Laws

namespace Sys2Proof

open Sys2Proof.Machine Sys2Proof.Laws

/-- Settles O8: XLANE by the lane it reads; the others by the lanes of ACTIVE in ascending order. -/
theorem lanesAcross : Obligations.LanesAcross := by
  unfold Obligations.LanesAcross
  refine ⟨?_, ?_⟩
  · rintro o d a b rfl rfl rfl
    have hd : o.d.toNat < 64 := o.d.isLt
    exact ⟨writes_xlane (j := fun _ n => n % 32) hd fun _ => rfl, writes_xlane (j := fun l n => (l + n) % 32) hd fun _ => rfl,
      writes_xlane (j := fun l n => l ^^^ (n % 32)) hd fun _ => rfl,
      writes_g hd (exec_xlaneShift o)⟩
  · rintro o d a rfl rfl
    exact ⟨writes_pcount o, writes_pmask o, writes_pfirst o, writes_g o.d.isLt (execVrank.eq_1 o), writes_redux o⟩

end Sys2Proof
end

section
/-! PROOF. Comparisons, which trap on a poisoned source, and predicate logic (07 R171, R181, R182). -/

namespace Sys2Proof.Laws

open Sys2Proof.Machine

/-- The conditions of the model are those of the spec (R181). -/
theorem intCond_eq : (cc : Nat) → intCond cc = holdsFor cc
  | 0 | 1 | 2 | 3 | 4 | 5 | 6 | _ + 7 => rfl

theorem exec_cmp (o : A32) (s : State) : exec (.cmp o) s = issue (.cmp o) s
    (predFrom (.cmp o) o.d.toNat [o.a.toNat, o.b.toNat] fun f l => holdsFor o.fn.toNat (f.lane o.a.toNat l) (f.lane o.b.toNat l)) := by
  refine (execCmp.eq_1 o s).trans ?_
  rw [intCond_eq]

/-- CMPI's immediate is its condition and a comparand of six bits. -/
theorem exec_cmpi (o : I32) (s : State) : exec (.cmpi o) s = issue (.cmpi o) s
    (predFrom (.cmpi o) o.d.toNat [o.a.toNat] fun f l =>
      holdsFor (o.imm.toNat / 64) (f.lane o.a.toNat l) ((o.imm.setWidth 6).signExtend 32)) := by
  have hcc : (o.imm.extractLsb' 6 3).toNat = o.imm.toNat / 64 := by
    rw [BitVec.extractLsb'_toNat, Nat.shiftRight_eq_div_pow]
    omega
  have himm : o.imm.extractLsb' 0 6 = o.imm.setWidth 6 := (BitVec.setWidth_eq_extractLsb' (by decide)).symm
  refine (execCmpi.eq_1 o s).trans ?_
  rw [intCond_eq, hcc, himm]

/-- A predicate written from predicates: no source is a register, and so none is poisoned. -/
theorem writesPred_op {i : Instr} {d : Nat} {x : Frame → Mask} {val : Frame → Nat → Bool} (hd : d < 8)
    (hv : ∀ f, ∀ l < 32, (x f).getLsbD l = val f l) (hx : ∀ s, exec i s = issue i s (predOp i d x)) : WritesPred i d [] val := by
  intro s s1 g e h hr
  refine ⟨fun _ => ?_, fun r l hp => absurd hp.1 List.not_mem_nil⟩
  obtain ⟨f', hw, he⟩ := pred_done (x := x e.g.frame) hd h (funext hx) hr rfl
  refine ⟨f', ⟨fun h0 l hl => ?_, hw.present, hw.others, hw.rest⟩, he⟩
  rw [hw.lanes h0 l hl, hv e.g.frame l hl]

end Sys2Proof.Laws

namespace Sys2Proof

open Sys2Proof.Machine Sys2Proof.Laws

/-- Settles O9: comparisons and VTOP write from registers, the logic of predicates from predicates, bit by bit. -/
theorem comparisonsAndPredicates : Obligations.ComparisonsAndPredicates := by
  unfold Obligations.ComparisonsAndPredicates
  refine ⟨⟨?_, ?_⟩, ?_⟩
  · rintro o d a b rfl rfl rfl hd
    exact ⟨writesPred_from hd (List.forall_mem_cons.2 ⟨o.a.isLt, List.forall_mem_singleton.2 o.b.isLt⟩) (funext (exec_cmp o)),
      writesPred_from hd (List.forall_mem_singleton.2 o.a.isLt) (funext (execVtop.eq_1 o))⟩
  · rintro o d a rfl rfl hd
    exact writesPred_from hd (List.forall_mem_singleton.2 o.a.isLt) (funext (exec_cmpi o))
  · rintro o d a b rfl rfl rfl hd
    refine ⟨writesPred_op hd (fun f l hl => ?_) (execPand.eq_1 o), writesPred_op hd (fun f l hl => ?_) (execPor.eq_1 o),
      writesPred_op hd (fun f l hl => ?_) (execPxor.eq_1 o), writesPred_op hd (fun f l hl => ?_) (execPandn.eq_1 o),
      writesPred_op hd (fun f l hl => ?_) (execPnot.eq_1 o), writesPred_op hd (fun f l hl => rfl) (execPmov.eq_1 o)⟩
    all_goals simp [hl]

end Sys2Proof
end

section
/-! PROOF. Instructions without an effect on data (07 R186, R187, R194, R196, R197), and software traps (R198). -/

namespace Sys2Proof.Laws

open Sys2Proof.Machine

/-- An identity among those of the groups that pass a test is that of such a group. -/
theorem hold_named {gs : List Group} {p : Group → Bool} {u : Nat} (h : u ∈ (gs.filter p).map Group.uid) :
    ∃ k ∈ gs, k.uid = u ∧ p k = true := by
  obtain ⟨k, hk, hu⟩ := List.mem_map.1 h
  obtain ⟨hm, hp⟩ := List.mem_filter.1 hk
  exact ⟨k, hm, hu, hp⟩

section
variable {o : A32} {s s1 : State} {g : Group} {e : Env}

theorem exec_join_plain (h : Issues (.join o) s s1 g e) (hr : Room e.g) (hs : e.g.sibling = false)
    (hb : (s1.setGroup e.g).sideBusy e.g.uid = false) : exec (.join o) s = .next (s1.setGroup (e.g.advance (.join o))) := by
  refine exec_self_done h (execJoin.eq_1 o s) ?_ rfl hr
  simp only [hb, hs, Bool.false_eq_true, if_false]

theorem exec_join_busy (h : Issues (.join o) s s1 g e) (hb : (s1.setGroup e.g).sideBusy e.g.uid = true) :
    exec (.join o) s = .next (s1.setGroup g) :=
  exec_wait_same h (execJoin.eq_1 o s) (if_pos hb)

/-- YIELD holds its group back behind the other ready groups of its class on its core (R187). -/
theorem exec_yield (h : Issues (.yield o) s s1 g e) (hr : Room e.g) :
    ∃ hold, (∀ u ∈ hold, ∃ k ∈ (s1.setGroup e.g).groups, k.uid = u ∧ u ≠ e.g.uid ∧ k.l = e.g.l ∧ k.core = e.g.core ∧
        k.cls = e.g.cls ∧ k.ready = true) ∧
      exec (.yield o) s = .next (s1.setGroup ({ e.g with hold := hold }.advance (.yield o))) := by
  refine ⟨_, fun u hu => ?_, exec_self_done h (execYield.eq_1 o s) rfl rfl (Room.same hr rfl rfl)⟩
  obtain ⟨k, hm, rfl, hp⟩ := hold_named hu
  simp only [Bool.and_eq_true, bne_iff_ne, beq_iff_eq] at hp
  obtain ⟨⟨⟨⟨hne, hl⟩, hcore⟩, hcls⟩, hready⟩ := hp
  exact ⟨k, hm, rfl, hne, hl, hcore, hcls, hready⟩

end

end Sys2Proof.Laws

namespace Sys2Proof

open Sys2Proof.Machine Sys2Proof.Laws

/-- Settles O21: each instruction completes with a change to its group alone, or, a JOIN with parts in the side log, waits. -/
theorem simpleControl : Obligations.SimpleControl := by
  unfold Obligations.SimpleControl
  intro o s s1 g e
  exact ⟨fun h hr => exec_self_done h (execNop.eq_1 o s) rfl rfl hr, fun h hr => exec_self_done h (execWsync.eq_1 o s) rfl rfl hr,
    exec_join_plain, exec_join_busy, fun h hr => exec_self_done h (execPin.eq_1 o s) rfl rfl (Room.same hr rfl rfl),
    fun h hr => exec_self_done h (execUnpin.eq_1 o s) rfl rfl (Room.same hr rfl rfl), exec_yield⟩

/-- Settles O22: the meaning of either instruction is its trap. -/
theorem softwareTraps : Obligations.SoftwareTraps := by
  unfold Obligations.SoftwareTraps
  exact fun o s s1 g e => ⟨fun h => exec_trap h (execTrap.eq_1 o s) rfl, fun h => exec_trap h (execSyscall.eq_1 o s) rfl⟩

end Sys2Proof
end

section
/-! PROOF. Transfers of control: direct branches, indirect transfers, calls and returns (03 R60, R62; 07 R188 to R191, R193). -/

namespace Sys2Proof.Laws

open Sys2Proof.Machine

variable {i : Instr} {s s1 : State} {g : Group} {e : Env}

/-! Direct branches -/

section
variable {off : DWord} (h : Issues i s s1 g e) (hx : exec i s = issue i s (branch i off))
include h hx

theorem exec_branch_far (ht : 2 ^ 56 ≤ (e.g.pc + 2 * off).toNat) :
    exec i s = .next (trapped s1 g 0 (laneTrap 6 5 e.act (e.g.pc + 2 * off).toNat)) := by
  refine exec_trap h hx (if_neg ?_)
  simpa [inRange, directTarget] using ht

omit h hx in
/-- A branch that stays in range moves the lanes of ACTIVE to its target. -/
theorem branch_near {t : State} (ht : (e.g.pc + 2 * off).toNat < 2 ^ 56) :
    branch i off t e = transfer t e (fallPart i e ++ [(e.act, fun k => k.jump i (e.g.pc + 2 * off))]) :=
  if_pos (by simpa [inRange, directTarget] using ht)

theorem exec_branch_jump (ht : (e.g.pc + 2 * off).toNat < 2 ^ 56) (ha : e.act = e.g.active) (hr : Room e.g) :
    exec i s = .next (s1.setGroup { e.g.advance i with pc := e.g.pc + 2 * off }) := by
  refine exec_self h hx ?_ rfl (Room.same hr rfl rfl)
  rw [branch_near ht, fall_all h ha]
  rfl

theorem exec_branch_split (ht : (e.g.pc + 2 * off).toNat < 2 ^ 56) (ha : e.act ≠ e.g.active) (ho : e.g.older = [])
    {parts : List (Mask × (Group → Group))}
    (hp : parts = [(e.g.active &&& ~~~e.act, fun k => k.advance i), (e.act, fun k => k.jump i (e.g.pc + 2 * off))])
    (hf : (s1.setGroup e.g).splitFault e.g parts = none) : exec i s = .next ((s1.setGroup e.g).split e.g parts) := by
  subst hp
  have hg : (s1.setGroup e.g).group? e.g.uid = some e.g := by
    rw [issues_uid h]
    exact issues_put h (issues_uid h)
  have hs : (s1.setGroup e.g).needSealed e.g = none := by simp [State.needSealed, ho]
  refine exec_ok h hx (t := (s1.setGroup e.g).split e.g _) ?_ fun k hk => ?_
  · rw [branch_near ht, fall_some h ha]
    simp only [transfer, List.cons_append, List.nil_append, hs, hf]
  · rw [← issues_uid h, split_found (f0 := fun k => k.advance i) hg fun _ => rfl] at hk
    cases hk
    simp [Room, ho]

end

/-! Indirect transfers -/

/-- The target of an indirect transfer in a lane (R190). -/
def laneTarget (e : Env) (a l : Nat) : Nat := (e.g.frame.pair a l).toNat

/-- No lane of ACTIVE has a poisoned target. -/
def CleanTargets (e : Env) (a : Nat) : Prop :=
  ∀ l, e.act.getLsbD l = true → e.g.frame.bad a l = false ∧ e.g.frame.bad (a + 1) l = false

/-- The lanes of ACTIVE whose target is at or above 2^56. -/
def farTargets (e : Env) (a : Nat) : Mask := maskOf fun l => e.act.getLsbD l && decide (2 ^ 56 ≤ laneTarget e a l)

/-- The lanes of ACTIVE whose target is odd. -/
def oddTargets (e : Env) (a : Nat) : Mask := maskOf fun l => e.act.getLsbD l && laneTarget e a l % 2 == 1

section
variable {a : Nat} {go : List (Mask × DWord) → R} {t : State}

theorem indirect_poison {r l : Nat} (ha : a + 1 < 64) (hp : FirstPoison e.g.frame e.act [a, a + 1] r l) :
    indirect a go t e = .trap t (mkTrap 13 (r + 256 * l)) := by
  have hlt : ∀ q ∈ [a, a + 1], q < 64 := List.forall_mem_cons.2 ⟨by omega, List.forall_mem_singleton.2 ha⟩
  unfold indirect
  rw [poisonUse_first (hlt r hp.1) hp]

theorem poisonUse_of_clean (hc : CleanTargets e a) : e.g.poisonUse e.act [a, a + 1] = none :=
  poisonUse_none (List.forall_mem_cons.2 ⟨fun l hl => (hc l hl).1, List.forall_mem_singleton.2 fun l hl => (hc l hl).2⟩)

/-- The checks of targets that are not poisoned, by the masks of the lanes that fail them. -/
theorem indirect_of_clean (hc : CleanTargets e a) : indirect a go t e =
    if farTargets e a = 0 then
      if oddTargets e a = 0 then go (targetsOf e.act (laneTarget e a))
      else .trap t (laneTrap 5 0 (oddTargets e a) (laneTarget e a (lowLane (oddTargets e a))))
    else .trap t (laneTrap 6 5 (farTargets e a) (laneTarget e a (lowLane (farTargets e a)))) := by
  have hnone (p : Nat → Bool) : ((!((lanesOf e.act).filter p).isEmpty) = true) ↔ ¬(maskOf fun l => e.act.getLsbD l && p l) = 0 := by
    rw [← filter_empty]
    simp
  unfold indirect
  rw [poisonUse_of_clean hc]
  dsimp only
  rw [failMask_filter, failMask_filter, head_filter, head_filter, if_congr (hnone _) rfl (if_congr (hnone _) rfl rfl), ite_not,
    ite_not]
  rfl

theorem indirect_far (hc : CleanTargets e a) (hf : farTargets e a ≠ 0) :
    indirect a go t e = .trap t (laneTrap 6 5 (farTargets e a) (laneTarget e a (lowLane (farTargets e a)))) :=
  (indirect_of_clean hc).trans (if_neg hf)

theorem indirect_odd (hc : CleanTargets e a) (hf : farTargets e a = 0) (ho : oddTargets e a ≠ 0) :
    indirect a go t e = .trap t (laneTrap 5 0 (oddTargets e a) (laneTarget e a (lowLane (oddTargets e a)))) :=
  (indirect_of_clean hc).trans ((if_pos hf).trans (if_neg ho))

theorem indirect_go (hc : CleanTargets e a) (hf : farTargets e a = 0) (ho : oddTargets e a = 0) :
    indirect a go t e = go (targetsOf e.act (laneTarget e a)) :=
  (indirect_of_clean hc).trans ((if_pos hf).trans (if_pos ho))

end

/-- Inserting one value again and again leaves it alone. -/
theorem foldl_natInsert_same {f : Nat → Nat} {n : Nat} {ls : List Nat} (h0 : ls ≠ []) (hf : ∀ l ∈ ls, f l = n) :
    ls.foldl (fun a l => natInsert a (f l)) [] = [n] := by
  have again : ∀ ks : List Nat, (∀ l ∈ ks, f l = n) → ks.foldl (fun a l => natInsert a (f l)) [n] = [n] := by
    intro ks hk
    induction ks with
    | nil => rfl
    | cons k ks ih =>
      have hkn : natInsert [n] (f k) = [n] := by simp [natInsert, hk k List.mem_cons_self]
      rw [List.foldl_cons, hkn]
      exact ih fun l hl => hk l (List.mem_cons_of_mem _ hl)
  cases ls with
  | nil => exact absurd rfl h0
  | cons k ks =>
    rw [List.foldl_cons, hf k List.mem_cons_self]
    exact again ks fun l hl => hf l (List.mem_cons_of_mem _ hl)

/-- Lanes that all have one target make one part (R188). -/
theorem targetsOf_same {act : Mask} {f : Nat → Nat} {x : DWord} (h0 : act ≠ 0) (hf : ∀ l, act.getLsbD l = true → f l = x.toNat) :
    targetsOf act f = [(act, x)] := by
  have hne : lanesOf act ≠ [] := by
    obtain ⟨l, -, hl⟩ := exists_getLsbD h0
    exact List.ne_nil_of_mem (mem_lanesOf.2 hl)
  have hm : (maskOf fun l => act.getLsbD l && f l == x.toNat) = act := by
    apply BitVec.eq_of_getLsbD_eq
    intro l hl
    rw [maskOf_getLsbD, decide_eq_true hl, Bool.true_and]
    cases ha : act.getLsbD l with
    | false => rfl
    | true => simp [hf l ha]
  unfold targetsOf
  dsimp only
  rw [foldl_natInsert_same hne fun l hl => hf l (mem_lanesOf.1 hl), List.map_singleton, hm, BitVec.ofNat_toNat, BitVec.setWidth_eq]

/-- BRX with one target for the whole context jumps. -/
theorem exec_brx_jump {o : A32} {x : DWord} (h : Issues (.brx o) s s1 g e)
    (hb : ∀ go t, indirect o.a.toNat go t e = go [(e.act, x)]) (ha : e.act = e.g.active) (hr : Room e.g) :
    exec (.brx o) s = .next (s1.setGroup { e.g.advance (.brx o) with pc := x }) := by
  refine exec_self h (execBrx.eq_1 o s) ?_ rfl (Room.same hr rfl rfl)
  rw [hb, fall_all h ha]
  rfl

/-! Calls -/

section
variable {x : DWord} {t : State} (h : Issues i s s1 g e) (ha : e.act = e.g.active)
include h ha

/-- A call of the whole context traps at the depth limit (R191). -/
theorem calls_limit (hd : e.g.depthLimit ≤ e.g.depth) : calls i t e [(e.act, x)] = .trap t (mkTrap 16 0) := by
  unfold calls
  rw [fall_all h ha]
  exact if_pos ⟨rfl, hd⟩

/-- Below it, a call of the whole context opens a frame (03 R60). -/
theorem calls_opens (hd : e.g.depth < e.g.depthLimit) :
    calls i t e [(e.act, x)] = .ok (t.setGroup ((e.g.advance i).call (e.g.pc + BitVec.ofNat 64 i.len) x)) := by
  unfold calls
  rw [fall_all h ha]
  refine (if_neg (by simp [hd])).trans ?_
  simp only [List.nil_append, List.map_cons, List.map_nil, transfer, callPart, if_neg (Nat.not_le.2 hd)]
  rfl

end

theorem exec_callx_opens {o : A32} {x : DWord} (h : Issues (.callx o) s s1 g e)
    (hb : ∀ go t, indirect o.a.toNat go t e = go [(e.act, x)]) (ha : e.act = e.g.active) (hd : e.g.depth < e.g.depthLimit)
    (hr : Room ((e.g.advance (.callx o)).call (e.g.pc + 4) x)) :
    exec (.callx o) s = .next (s1.setGroup ((e.g.advance (.callx o)).call (e.g.pc + 4) x)) :=
  exec_self h (execCallx.eq_1 o s) ((hb _ _).trans (calls_opens h ha hd)) rfl hr

theorem exec_callx_limit {o : A32} {x : DWord} (h : Issues (.callx o) s s1 g e)
    (hb : ∀ go t, indirect o.a.toNat go t e = go [(e.act, x)]) (ha : e.act = e.g.active) (hd : e.g.depthLimit ≤ e.g.depth) :
    exec (.callx o) s = .next (trapped s1 g 0 (mkTrap 16 0)) :=
  exec_trap h (execCallx.eq_1 o s) ((hb _ _).trans (calls_limit h ha hd))

section
variable {o : J64} (h : Issues (.call o) s s1 g e)
include h

theorem exec_call_far (ht : 2 ^ 56 ≤ (e.g.pc + 2 * o.off.signExtend 64).toNat) :
    exec (.call o) s = .next (trapped s1 g 0 (laneTrap 6 5 e.act (e.g.pc + 2 * o.off.signExtend 64).toNat)) := by
  refine exec_trap h (execCall.eq_1 o s) (if_neg ?_)
  simpa [inRange, directTarget] using ht

omit h in
/-- A CALL that stays in range is a call of its target. -/
theorem call_near {t : State} (ht : (e.g.pc + 2 * o.off.signExtend 64).toNat < 2 ^ 56) :
    (if inRange (directTarget e.g (o.off.signExtend 64)) then
        calls (.call o) t e [(e.act, directTarget e.g (o.off.signExtend 64))]
      else .trap t (laneTrap 6 5 e.act (directTarget e.g (o.off.signExtend 64)).toNat)) =
      calls (.call o) t e [(e.act, e.g.pc + 2 * o.off.signExtend 64)] :=
  if_pos (by simpa [inRange, directTarget] using ht)

variable (ht : (e.g.pc + 2 * o.off.signExtend 64).toNat < 2 ^ 56) (ha : e.act = e.g.active)
include ht ha

theorem exec_call_limit (hd : e.g.depthLimit ≤ e.g.depth) : exec (.call o) s = .next (trapped s1 g 0 (mkTrap 16 0)) :=
  exec_trap h (execCall.eq_1 o s) ((call_near ht).trans (calls_limit h ha hd))

theorem exec_call_opens (hd : e.g.depth < e.g.depthLimit)
    (hr : Room ((e.g.advance (.call o)).call (e.g.pc + 8) (e.g.pc + 2 * o.off.signExtend 64))) :
    exec (.call o) s = .next (s1.setGroup ((e.g.advance (.call o)).call (e.g.pc + 8) (e.g.pc + 2 * o.off.signExtend 64))) :=
  exec_self h (execCall.eq_1 o s) ((call_near ht).trans (calls_opens h ha hd)) rfl hr

end

/-! Returns -/

/-- What RET comes to in a whole context that returns neither from its first frame nor to its split, by the caller's frame
(03 R62, R72, R78). -/
def returnTo (o : A32) (t : State) (g : Group) : R :=
  match g.older with
  | [] => if t.callerTP g then .trap t (mkTrap 17 5) else .wait (t.modGroup g.uid fun x => { x with wse := .refill })
  | c :: rest =>
    if c.lost then .trap t (spillImageError 0)
    else if c.tp then .trap t (mkTrap 17 5) else .ok (t.setGroup ((g.advance (.ret o)).return_ c rest))

section
variable {o : A32} {t : State} {k : Group} {c : Frame} {rest : List Frame}

theorem returnTo_absent (ho : k.older = []) : returnTo o t k =
    if t.callerTP k then .trap t (mkTrap 17 5) else .wait (t.modGroup k.uid fun x => { x with wse := .refill }) := by
  unfold returnTo
  rw [ho]

theorem returnTo_resident (ho : k.older = c :: rest) : returnTo o t k =
    if c.lost then .trap t (spillImageError 0)
    else if c.tp then .trap t (mkTrap 17 5) else .ok (t.setGroup ((k.advance (.ret o)).return_ c rest)) := by
  unfold returnTo
  rw [ho]

end

section
variable {o : A32} (h : Issues (.ret o) s s1 g e) (ha : e.act = e.g.active) (hd : 0 < e.g.depth)
  (hs : e.g.sibling = false ∨ e.g.sb ≠ some e.g.depth)
include h ha hd hs

theorem exec_ret : ∃ body, exec (.ret o) s = issue (.ret o) s body ∧ body (s1.setGroup e.g) e = returnTo o (s1.setGroup e.g) e.g := by
  refine ⟨_, execRet.eq_1 o s, ?_⟩
  have hsplit : ¬(e.g.sibling && e.g.sb == some e.g.depth) = true := by
    rcases hs with hs | hs <;> simp [hs]
  dsimp only
  rw [fall_all h ha, if_neg (by simp), if_neg hsplit, if_neg hd.ne']
  unfold returnTo
  cases e.g.older <;> rfl

/-- A caller that is not resident is refilled, unless trap entry made it previous (R72, R78). -/
theorem exec_ret_absent (ho : e.g.older = []) : exec (.ret o) s = .next
    (if (s1.setGroup e.g).callerTP e.g then trapped s1 g 0 (mkTrap 17 5) else s1.setGroup { g with wse := .refill }) := by
  obtain ⟨body, hx, hb⟩ := exec_ret h ha hd hs
  rw [returnTo_absent ho] at hb
  split
  · next htp => exact exec_trap h hx (hb.trans (if_pos htp))
  · next htp => exact exec_wait_self (F := fun x => { x with wse := .refill }) h hx (hb.trans (if_neg htp)) (fun _ => rfl) rfl

variable {c : Frame} {rest : List Frame} (ho : e.g.older = c :: rest)
include ho

theorem exec_ret_lost (hl : c.lost = true) : exec (.ret o) s = .next (trapped s1 g 0 (spillImageError 0)) := by
  obtain ⟨body, hx, hb⟩ := exec_ret h ha hd hs
  exact exec_trap h hx (hb.trans ((returnTo_resident ho).trans (if_pos hl)))

theorem exec_ret_tp (hl : c.lost = false) (ht : c.tp = true) : exec (.ret o) s = .next (trapped s1 g 0 (mkTrap 17 5)) := by
  obtain ⟨body, hx, hb⟩ := exec_ret h ha hd hs
  refine exec_trap h hx (hb.trans ((returnTo_resident ho).trans ?_))
  rw [hl, ht]
  rfl

theorem exec_ret_returns (hl : c.lost = false) (ht : c.tp = false) (hr : Room ((e.g.advance (.ret o)).return_ c rest)) :
    exec (.ret o) s = .next (s1.setGroup ((e.g.advance (.ret o)).return_ c rest)) := by
  obtain ⟨body, hx, hb⟩ := exec_ret h ha hd hs
  refine exec_self h hx (hb.trans ((returnTo_resident ho).trans ?_)) rfl hr
  rw [hl, ht]
  rfl

end

/-- A caller takes back the registers that it shares with its callee (R62). -/
theorem return_reg? (k : Group) (c : Frame) (rest : List Frame) {n : Nat} (hn : n < 64) : (k.return_ c rest).frame.reg? n =
    if c.fsz - 8 ≤ n ∧ n < c.fsz then k.frame.reg? (n - (c.fsz - 8)) else c.reg? n := by
  have hv : (k.return_ c rest).frame.v = (List.range 64).map fun n =>
      if c.fsz - 8 ≤ n ∧ n < c.fsz then k.frame.reg? (n - (c.fsz - 8)) else c.reg? n := rfl
  rw [reg?_of_v_eq hv, if_pos hn]

/-- A call and its return leave every register of the frame as it was. -/
theorem call_return_reg? (k : Group) (ret t : DWord) (h8 : 8 ≤ k.frame.fsz) {n : Nat} (hn : n < 64) :
    ((k.call ret t).return_ (callerOf k.frame ret) k.older).frame.reg? n = k.frame.reg? n := by
  have hfsz : (callerOf k.frame ret).fsz = k.frame.fsz := rfl
  rw [return_reg? _ _ _ hn, hfsz]
  split
  · next hshared => rw [call_reg?_of_lt k ret t (by omega), Nat.add_sub_cancel' hshared.1]
  · next hown => rw [reg?_of_v_eq (callerOf_v k.frame ret), if_pos hn, if_neg hown]

end Sys2Proof.Laws

namespace Sys2Proof

open Sys2Proof.Machine Sys2Proof.Laws

/-- Settles O16: both direct branches are one operation of their offset. -/
theorem branches : Obligations.Branches := by
  unfold Obligations.Branches
  intro i off hi s s1 g e t h ht
  subst ht
  have hx : exec i s = issue i s (branch i off) := by
    obtain ⟨o, rfl, rfl⟩ | ⟨o, rfl, rfl⟩ := hi
    · exact execBra.eq_1 o s
    · exact execBrl.eq_1 o s
  exact ⟨exec_branch_far h hx, exec_branch_jump h hx, fun hn ha ho parts hp hf => exec_branch_split h hx hn ha ho hp hf⟩

/-- Settles O17: BRX and CALLX make the same checks of their lanes' targets, and then their own transfer. -/
theorem indirectTransfers : Obligations.IndirectTransfers := by
  unfold Obligations.IndirectTransfers
  intro o a i ha64 ha hi s s1 g e h t clean far odd
  subst ha64
  obtain ⟨go, hx⟩ : ∃ go : State → Env → List (Mask × DWord) → R,
      exec i s = issue i s fun s e => indirect o.a.toNat (go s e) s e := by
    obtain rfl | rfl := hi
    · exact ⟨_, execBrx.eq_1 o s⟩
    · exact ⟨_, execCallx.eq_1 o s⟩
  refine ⟨fun r l hp => exec_trap h hx (indirect_poison ha hp), fun hc hf => exec_trap h hx (indirect_far hc hf),
    fun hc hf ho => exec_trap h hx (indirect_odd hc hf ho), ?_⟩
  intro hc hf ho hact x hsame
  have hb (go : List (Mask × DWord) → R) (t : State) : indirect o.a.toNat go t e = go [(e.act, x)] :=
    (indirect_go hc hf ho).trans (congrArg go (targetsOf_same h.active hsame))
  refine ⟨?_, ?_, ?_⟩
  · rintro rfl hr
    exact exec_brx_jump h hb hact hr
  · rintro rfl hd hr
    exact exec_callx_opens h hb hact hd hr
  · rintro rfl hd
    exact exec_callx_limit h hb hact hd

/-- Settles O19: a call and a return of a whole context, each by what it finds. That a return to a frame whose record was lost takes the
spill image error with TRAPADDR 0 is the model's choice (log entry 81; 03 R76, 21 R413). -/
theorem callsAndReturnsNested : Obligations.CallsAndReturnsNested := by
  unfold Obligations.CallsAndReturnsNested
  refine ⟨⟨?_, ?_⟩, ?_⟩
  · rintro o i rfl s s1 g e t h rfl
    exact ⟨exec_call_far h, exec_call_limit h, exec_call_opens h⟩
  · rintro o i rfl s s1 g e h ha hd hs
    refine ⟨exec_ret_absent h ha hd hs, fun c rest => exec_ret_lost h ha hd hs, fun c rest => exec_ret_tp h ha hd hs, ?_⟩
    rintro c rest ho hl ht k rfl hr
    exact ⟨exec_ret_returns h ha hd hs ho hl ht hr, rfl, fun n hn => return_reg? _ c rest hn⟩
  · rintro g k ret t c h8 - ho rfl
    obtain rfl : callerOf g.frame ret = c := (List.cons.inj ((call_older g ret t).symm.trans ho)).1
    exact ⟨rfl, rfl, rfl, fun n hn => call_return_reg? g ret t h8 hn, rfl⟩

end Sys2Proof
end

section
/-! PROOF. Floating-point lane operations (08 R199, R203 to R211): a result of sources, in one register or in a pair, and single-precision
arithmetic. -/

namespace Sys2Proof.Laws

open Sys2Proof.Machine

/-! Results of sources -/

theorem f32_of_uniform {f : Frame} {a l : Nat} (h : f.lane a l = f.lane a 0) : f.f32 a l = f.f32 a 0 := congrArg BitVec.toNat h

theorem f64_of_uniform {f : Frame} {a l : Nat} (h0 : f.lane a l = f.lane a 0) (h1 : f.lane (a + 1) l = f.lane (a + 1) 0) :
    f.f64 a l = f.f64 a 0 := congrArg BitVec.toNat (pair_of_uniform h0 h1)

section
variable {i : Instr} {d a b c : Nat} {srcs : List Nat}

/-- A lane result of sources, in one register. -/
theorem writesF32_of {op : Env → Frame → Nat → FpR} (hd : d < 64)
    (hx : ∀ s, exec i s = issue i s fun s e => fpLanes i d srcs (op e) s e)
    (hf : ∀ e f l, (∀ r ∈ srcs, f.lane r l = f.lane r 0) → op e f l = op e f 0) :
    WritesF32 i d srcs fun e l => op e e.g.frame l :=
  writesFp_lanes (w := fun e => ⟨e.g.frame.formOther srcs, fun l => BitVec.ofNat 32 (op e e.g.frame l).bits, e.g.frame.badAny srcs⟩)
    (funext hx) hd (fun _ _ => rfl) (fun _ _ => rfl) fun e => formOk_other fun h l => by
      rw [hf e _ l fun r hr => h r hr l]

/-- A lane result of sources, in an aligned pair. -/
theorem writesF64_of {op : Env → Frame → Nat → FpR} (hd : d + 1 < 64)
    (hx : ∀ s, exec i s = issue i s fun s e => fpPairs i d srcs (op e) s e)
    (hf : ∀ e f l, (∀ r ∈ srcs, f.lane r l = f.lane r 0) → op e f l = op e f 0) :
    WritesF64 i d srcs fun e l => op e e.g.frame l :=
  writesFp_pair (form := fun e => e.g.frame.formOther srcs) (v := fun e l => BitVec.ofNat 64 (op e e.g.frame l).bits)
    (bad := fun e => e.g.frame.badAny srcs) (funext hx) hd (fun _ _ => rfl) (fun _ _ => rfl) fun e k => formOk_other fun h l => by
      rw [hf e _ l fun r hr => h r hr l]

/-- A function of one word. -/
theorem writesF32_one {op : Env → Nat → FpR} (hd : d < 64)
    (hx : ∀ s, exec i s = issue i s fun s e => fpLanes i d [a] (fun f l => op e (f.f32 a l)) s e) :
    WritesF32 i d [a] fun e l => op e (e.g.frame.f32 a l) :=
  writesF32_of (op := fun e f l => op e (f.f32 a l)) hd hx fun _ _ _ h => by rw [f32_of_uniform (h a (by simp))]

/-- A function of two words. -/
theorem writesF32_two {op : Env → Nat → Nat → FpR} (hd : d < 64)
    (hx : ∀ s, exec i s = issue i s fun s e => fpLanes i d [a, b] (fun f l => op e (f.f32 a l) (f.f32 b l)) s e) :
    WritesF32 i d [a, b] fun e l => op e (e.g.frame.f32 a l) (e.g.frame.f32 b l) :=
  writesF32_of (op := fun e f l => op e (f.f32 a l) (f.f32 b l)) hd hx fun _ _ _ h => by
    rw [f32_of_uniform (h a (by simp)), f32_of_uniform (h b (by simp))]

/-- A function of three words. -/
theorem writesF32_three {op : Env → Nat → Nat → Nat → FpR} (hd : d < 64)
    (hx : ∀ s, exec i s = issue i s fun s e =>
      fpLanes i d [a, b, c] (fun f l => op e (f.f32 a l) (f.f32 b l) (f.f32 c l)) s e) :
    WritesF32 i d [a, b, c] fun e l => op e (e.g.frame.f32 a l) (e.g.frame.f32 b l) (e.g.frame.f32 c l) :=
  writesF32_of (op := fun e f l => op e (f.f32 a l) (f.f32 b l) (f.f32 c l)) hd hx fun _ _ _ h => by
    rw [f32_of_uniform (h a (by simp)), f32_of_uniform (h b (by simp)), f32_of_uniform (h c (by simp))]

/-! Arithmetic under GMODE.RM -/

/-- An operation of two words under GMODE.RM (R203). -/
theorem writes_fp2 (op : Rm → Nat → Nat → FpR) (hd : d < 64) (hx : ∀ s, exec i s = issue i s (fp2 i d a b op)) :
    WritesF32 i d [a, b] fun e l => op e.gmodeRm (e.g.frame.f32 a l) (e.g.frame.f32 b l) :=
  writesF32_two (op := fun e => op e.gmodeRm) hd hx

end

/-- FSCALE reads its second source as an s32 (R205). -/
theorem writes_fscale (o : A32) : WritesF32 (.fscale o) o.d.toNat [o.a.toNat, o.b.toNat] fun e l =>
    fscaleR e.gmodeRm (e.g.frame.f32 o.a.toNat l) (e.g.frame.lane o.b.toNat l).toInt :=
  writesF32_of (op := fun e f l => fscaleR e.gmodeRm (f.f32 o.a.toNat l) (f.lane o.b.toNat l).toInt) o.d.isLt (execFscale.eq_1 o)
    fun _ _ _ h => by rw [f32_of_uniform (h o.a.toNat (by simp)), h o.b.toNat (by simp)]

end Sys2Proof.Laws

namespace Sys2Proof

open Sys2Proof.Machine Sys2Proof.Laws

/-- Settles O10: each instruction is one shared lane operation of its sources, under GMODE.RM where it rounds. -/
theorem singleArithmetic : Obligations.SingleArithmetic := by
  unfold Obligations.SingleArithmetic
  refine ⟨?_, ?_⟩
  · rintro o d a b rfl rfl rfl
    have hd : o.d.toNat < 64 := o.d.isLt
    exact ⟨writes_fp2 F32.add hd (execFadd.eq_1 o), writes_fp2 F32.sub hd (execFsub.eq_1 o), writes_fp2 F32.mul hd (execFmul.eq_1 o),
      writes_fp2 (fun _ => F32.minmax false) hd (execFmin.eq_1 o), writes_fp2 (fun _ => F32.minmax true) hd (execFmax.eq_1 o),
      writesF32_one hd (execFsat.eq_1 o), writes_fscale o, writesF32_one hd (execFgetexp.eq_1 o)⟩
  · rintro o d b rfl rfl
    have hd : o.d.toNat < 64 := by omega
    exact ⟨writes_fp2 F32.add hd (execC16Fadd.eq_1 o), writes_fp2 F32.sub hd (execC16Fsub.eq_1 o),
      writes_fp2 F32.mul hd (execC16Fmul.eq_1 o), writes_fp2 (fun _ => F32.minmax true) hd (execC16Fmax.eq_1 o),
      writes_fp2 (fun _ => F32.minmax false) hd (execC16Fmin.eq_1 o)⟩

end Sys2Proof
end

section
/-! PROOF. Packed halves, fused multiply-add and double precision (08 R207 to R210). -/

namespace Sys2Proof.Laws

open Sys2Proof.Machine

/-! Packed halves -/

theorem half_eq (x k : Nat) : half x k = elem16 x k := by
  rw [half, elem16, pow_mul]
  rfl

theorem halves_eq (op : Nat → FpR) : halves op = bothHalves op := rfl

/-- Bit 2 of func3 selects bf16 (R207). -/
theorem fn_getLsbD_two (o : A32) : o.fn.getLsbD 2 = decide (4 ≤ o.fn.toNat) := by
  generalize o.fn = n
  revert n
  decide

/-- A packed operation of two words under GMODE.RM (R207). -/
theorem writes_pk2 (op : FpFmt → Rm → Nat → Nat → FpR) {i : Instr} {o : A32} {fmt : FpFmt}
    (hfmt : fmt = if 4 ≤ o.fn.toNat then BF16 else F16) (hx : ∀ s, exec i s = issue i s (pk2 i o op)) :
    WritesF32 i o.d.toNat [o.a.toNat, o.b.toNat] fun e l => bothHalves fun k =>
      op fmt e.gmodeRm (elem16 (e.g.frame.f32 o.a.toNat l) k) (elem16 (e.g.frame.f32 o.b.toNat l) k) := by
  refine writes_fp2 (fun r x y => bothHalves fun k => op fmt r (elem16 x k) (elem16 y k)) o.d.isLt fun s => (hx s).trans ?_
  unfold pk2
  simp only [half_eq, halves_eq, fn_getLsbD_two, decide_eq_true_eq, hfmt]

/-! Fused multiply-add -/

/-- A packed fused multiply-add of three words (R208). -/
theorem writes_pkFma (fmt : FpFmt) {i : Instr} {o : T64} (hx : ∀ s, exec i s = issue i s (pkFma i o fmt)) :
    WritesF32 i o.d.toNat [o.a.toNat, o.b.toNat, o.c.toNat] fun e l => bothHalves fun k => fmt.fma (e.mode o)
      (elem16 (e.g.frame.f32 o.a.toNat l) k) (elem16 (e.g.frame.f32 o.b.toNat l) k) (elem16 (e.g.frame.f32 o.c.toNat l) k) := by
  refine writesF32_three (op := fun e x y z => bothHalves fun k => fmt.fma (e.mode o) (elem16 x k) (elem16 y k) (elem16 z k))
    o.d.isLt fun s => (hx s).trans ?_
  unfold pkFma
  simp only [half_eq, halves_eq]

theorem writes_dfma (o : T64) (hd : o.d.toNat + 1 < 64) : WritesF64 (.dfma o) o.d.toNat
    [o.a.toNat, o.a.toNat + 1, o.b.toNat, o.b.toNat + 1, o.c.toNat, o.c.toNat + 1] fun e l =>
      F64.fma (e.mode o) (e.g.frame.f64 o.a.toNat l) (e.g.frame.f64 o.b.toNat l) (e.g.frame.f64 o.c.toNat l) :=
  writesF64_of (op := fun e f l => F64.fma (e.mode o) (f.f64 o.a.toNat l) (f.f64 o.b.toNat l) (f.f64 o.c.toNat l)) hd
    (execDfma.eq_1 o) fun _ _ _ h => by
      rw [f64_of_uniform (h o.a.toNat (by simp)) (h _ (by simp)), f64_of_uniform (h o.b.toNat (by simp)) (h _ (by simp)),
        f64_of_uniform (h o.c.toNat (by simp)) (h _ (by simp))]

/-! Double precision -/

/-- An operation of two doubles under the mode of the instruction (R209, R210). -/
theorem writes_fp64 (op : Rm → Nat → Nat → FpR) {i : Instr} {o : T64} (hd : o.d.toNat + 1 < 64)
    (hx : ∀ s, exec i s = issue i s (fp64 i o op)) :
    WritesF64 i o.d.toNat [o.a.toNat, o.a.toNat + 1, o.b.toNat, o.b.toNat + 1] fun e l =>
      op (e.mode o) (e.g.frame.f64 o.a.toNat l) (e.g.frame.f64 o.b.toNat l) :=
  writesF64_of (op := fun e f l => op (e.mode o) (f.f64 o.a.toNat l) (f.f64 o.b.toNat l)) hd hx fun _ _ _ h => by
    rw [f64_of_uniform (h o.a.toNat (by simp)) (h _ (by simp)), f64_of_uniform (h o.b.toNat (by simp)) (h _ (by simp))]

theorem writes_dsqrt (o : T64) (hd : o.d.toNat + 1 < 64) : WritesF64 (.dsqrt o) o.d.toNat [o.a.toNat, o.a.toNat + 1]
    fun e l => F64.sqrt (e.mode o) (e.g.frame.f64 o.a.toNat l) :=
  writesF64_of (op := fun e f l => F64.sqrt (e.mode o) (f.f64 o.a.toNat l)) hd (execDsqrt.eq_1 o) fun _ _ _ h => by
    rw [f64_of_uniform (h o.a.toNat (by simp)) (h _ (by simp))]

end Sys2Proof.Laws

namespace Sys2Proof

open Sys2Proof.Machine Sys2Proof.Laws

/-- Settles O11: packed operations element by element, and each fused or double operation as one shared lane operation. -/
theorem packedAndDouble : Obligations.PackedAndDouble := by
  unfold Obligations.PackedAndDouble
  refine ⟨⟨?_, ?_⟩, ?_⟩
  · rintro o d a b fmt rfl rfl rfl hfmt
    exact ⟨writes_pk2 FpFmt.add hfmt (execPkadd.eq_1 o), writes_pk2 FpFmt.mul hfmt (execPkmul.eq_1 o),
      writes_pk2 (fun f _ => f.minmax true) hfmt (execPkmax.eq_1 o), writes_pk2 (fun f _ => f.minmax false) hfmt (execPkmin.eq_1 o)⟩
  · rintro o d a b c rfl rfl rfl rfl
    exact ⟨writesF32_three (op := fun e => F32.fma (e.mode o)) o.d.isLt (execFfma.eq_1 o), writes_pkFma F16 (execPkfmaF16.eq_1 o),
      writes_pkFma BF16 (execPkfmaBf16.eq_1 o), writesF32_three (op := fun e => dot2R (e.mode o)) o.d.isLt (execDot2bf.eq_1 o),
      fun h2 => writes_dfma o (aligned_lt o.d.isLt h2)⟩
  · rintro o d a b rfl rfl rfl h2
    have hd : o.d.toNat + 1 < 64 := aligned_lt o.d.isLt h2
    exact ⟨writes_fp64 F64.add hd (execDadd.eq_1 o), writes_fp64 F64.sub hd (execDsub.eq_1 o), writes_fp64 F64.mul hd (execDmul.eq_1 o),
      writes_fp64 (fun _ => F64.minmax false) hd (execDmin.eq_1 o), writes_fp64 (fun _ => F64.minmax true) hd (execDmax.eq_1 o),
      writes_fp64 F64.div hd (execDdiv.eq_1 o), writes_dsqrt o hd⟩

end Sys2Proof
end

section
/-! PROOF. Quotients, roots and functions of floats, their comparisons and classes (08 R206, R209 to R212; 04 R98 to R104; 24 R442). -/

namespace Sys2Proof.Laws

open Sys2Proof.Machine

/-- A function of one word under the mode of the instruction (R210, R211). -/
theorem writes_fpFun (op : Rm → Nat → FpR) {i : Instr} {o : T64} (hx : ∀ s, exec i s = issue i s (fpFun i o op)) :
    WritesF32 i o.d.toNat [o.a.toNat] fun e l => op (e.mode o) (e.g.frame.f32 o.a.toNat l) :=
  writesF32_one (op := fun e => op (e.mode o)) o.d.isLt hx

/-- DCMP's condition is ctl[2:0] (R209). -/
theorem exec_dcmp (o : T64) (s : State) : exec (.dcmp o) s = issue (.dcmp o) s
    (fpPred (.dcmp o) o.d.toNat [o.a.toNat, o.a.toNat + 1, o.b.toNat, o.b.toNat + 1] fun f l =>
      F64.compare (o.ctl.toNat % 8) (f.f64 o.a.toNat l) (f.f64 o.b.toNat l)) := by
  have hcc : (o.ctl.extractLsb' 0 3).toNat = o.ctl.toNat % 8 := by rw [BitVec.extractLsb'_toNat, Nat.shiftRight_zero]
  refine (execDcmp.eq_1 o s).trans ?_
  rw [hcc]

theorem writes_fclass_f32 (o : T64) (h : o.ctl.getLsbD 4 = false) :
    Writes (.fclass o) fun _ => oneReg o.d.toNat [o.a.toNat] fun f l => F32.cls (f.f32 o.a.toNat l) := by
  refine writes_oneReg (fun s => (execFclass.eq_1 o s).trans ?_) o.d.isLt fun f hf l => ?_
  · simp only [h, Bool.false_eq_true, if_false]
  · rw [f32_of_uniform (hf _ (by simp) l)]

theorem writes_fclass_f64 (o : T64) (h : o.ctl.getLsbD 4 = true) :
    Writes (.fclass o) fun _ => oneReg o.d.toNat [o.a.toNat, o.a.toNat + 1] fun f l => F64.cls (f.f64 o.a.toNat l) := by
  refine writes_oneReg (fun s => (execFclass.eq_1 o s).trans ?_) o.d.isLt fun f hf l => ?_
  · simp only [h, if_true]
  · rw [f64_of_uniform (hf _ (by simp) l) (hf _ (by simp) l)]

end Sys2Proof.Laws

namespace Sys2Proof

open Sys2Proof.Machine Sys2Proof.Laws

/-- Settles O12: functions under the mode of the instruction; comparisons through the shared write of a predicate; FCLASS by the format
that ctl[4] selects. -/
theorem floatFunctionsAndComparisons : Obligations.FloatFunctionsAndComparisons := by
  unfold Obligations.FloatFunctionsAndComparisons
  refine ⟨?_, ?_, ?_⟩
  · rintro o d a b rfl rfl rfl
    exact ⟨writesF32_two (op := fun e => F32.div (e.mode o)) o.d.isLt (execFdiv.eq_1 o), writes_fpFun F32.sqrt (execFsqrt.eq_1 o),
      writes_fpFun (fun r x => F32.div r 0x3F800000 x) (execFrcp.eq_1 o), writes_fpFun rsqR (execFrsq.eq_1 o),
      writes_fpFun exp2R (execFexp2.eq_1 o), writes_fpFun log2R (execFlog2.eq_1 o), writes_fpFun (trigB0R false) (execFsin.eq_1 o),
      writes_fpFun (trigB0R true) (execFcos.eq_1 o), writes_fpFun frndR (execFrnd.eq_1 o),
      writes_fpFun (trigXR false) (execFsinx.eq_1 o), writes_fpFun (trigXR true) (execFcosx.eq_1 o)⟩
  · rintro o d a b rfl rfl rfl hd
    exact writesFpPred_from hd (List.forall_mem_cons.2 ⟨o.a.isLt, List.forall_mem_singleton.2 o.b.isLt⟩) (funext (execFcmp.eq_1 o))
  · rintro o d a b cc rfl rfl rfl rfl
    refine ⟨fun hd ha hb => writesFpPred_from hd ?_ (funext (exec_dcmp o)), writes_fclass_f32 o, writes_fclass_f64 o⟩
    simp only [List.forall_mem_cons]
    exact ⟨o.a.isLt, ha, o.b.isLt, hb, List.forall_mem_nil _⟩

end Sys2Proof
end

section
/-! PROOF. Conversions between float formats and integers (08 R213 to R218). -/

namespace Sys2Proof.Laws

open Sys2Proof.Machine

theorem cvFmt_eq (o : T64) : cvFmt o = o.ctl.toNat / 16 % 16 := by
  rw [cvFmt, BitVec.extractLsb'_toNat, Nat.shiftRight_eq_div_pow]

theorem cvSub_eq (o : T64) : cvSub o = o.ctl.toNat / 256 % 16 := by
  rw [cvSub, BitVec.extractLsb'_toNat, Nat.shiftRight_eq_div_pow]

/-! Between float formats (R214) -/

theorem writes_cvtF2f_f64 (o : T64) (hf : cvFmt o = 0) (hd : o.d.toNat + 1 < 64) :
    WritesF64 (.cvtF2f o) o.d.toNat [o.a.toNat] fun e l => F64.ofNum (e.mode o) (F32.num (e.g.frame.f32 o.a.toNat l)) := by
  refine writesF64_of (op := fun e f l => F64.ofNum (e.mode o) (F32.num (f.f32 o.a.toNat l))) hd
    (fun s => (execCvtF2f.eq_1 o s).trans ?_) fun _ _ _ h => ?_
  · simp only [hf, if_true]
  · rw [f32_of_uniform (h _ (by simp))]

theorem writes_cvtF2f_f32 (o : T64) (hf : cvFmt o ≠ 0) :
    WritesF32 (.cvtF2f o) o.d.toNat [o.a.toNat, o.a.toNat + 1] fun e l =>
      F32.ofNum (e.mode o) (F64.num (e.g.frame.f64 o.a.toNat l)) := by
  refine writesF32_of (op := fun e f l => F32.ofNum (e.mode o) (F64.num (f.f64 o.a.toNat l))) o.d.isLt
    (fun s => (execCvtF2f.eq_1 o s).trans ?_) fun _ _ _ h => ?_
  · simp only [hf, if_false]
  · rw [f64_of_uniform (h _ (by simp)) (h _ (by simp))]

/-! From a float to an integer (R215) -/

/-- The registers of a float source: code 0 is a double, in a pair. -/
def floatRegs (fmt a : Nat) : List Nat := if fmt = 0 then [a, a + 1] else [a]

/-- The number in them, in one lane. -/
def floatNum (fmt a : Nat) (f : Frame) (l : Nat) : Machine.Num := if fmt = 0 then F64.num (f.f64 a l) else F32.num (f.f32 a l)

theorem floatNum_of_uniform {fmt a l : Nat} {f : Frame} (h : ∀ r ∈ floatRegs fmt a, f.lane r l = f.lane r 0) :
    floatNum fmt a f l = floatNum fmt a f 0 := by
  unfold floatNum floatRegs at *
  split_ifs at h ⊢ with hf
  · rw [f64_of_uniform (h a (by simp)) (h _ (by simp))]
  · rw [f32_of_uniform (h a (by simp))]

theorem writes_cvtF2i_word (o : T64) (hs : cvSub o % 8 % 4 ≠ 3) :
    WritesF32 (.cvtF2i o) o.d.toNat (floatRegs (cvFmt o) o.a.toNat) fun e l =>
      toIntR (cvSub o % 8) (e.mode o) (floatNum (cvFmt o) o.a.toNat e.g.frame l) := by
  refine writesF32_of (op := fun e f l => toIntR (cvSub o % 8) (e.mode o) (floatNum (cvFmt o) o.a.toNat f l)) o.d.isLt
    (fun s => (execCvtF2i.eq_1 o s).trans ?_) fun _ _ _ h => by rw [floatNum_of_uniform h]
  simp only [hs, if_false]
  rfl

theorem writes_cvtF2i_pair (o : T64) (hs : cvSub o % 8 % 4 = 3) (hd : o.d.toNat + 1 < 64) :
    WritesF64 (.cvtF2i o) o.d.toNat (floatRegs (cvFmt o) o.a.toNat) fun e l =>
      toIntR (cvSub o % 8) (e.mode o) (floatNum (cvFmt o) o.a.toNat e.g.frame l) := by
  refine writesF64_of (op := fun e f l => toIntR (cvSub o % 8) (e.mode o) (floatNum (cvFmt o) o.a.toNat f l)) hd
    (fun s => (execCvtF2i.eq_1 o s).trans ?_) fun _ _ _ h => by rw [floatNum_of_uniform h]
  simp only [hs, if_true]
  rfl

/-! From an integer to a float (R216) -/

/-- The registers of an integer source: the types of 64 bits are in a pair. -/
def intRegs (ty a : Nat) : List Nat := if ty % 4 = 3 then [a, a + 1] else [a]

/-- The integer in them, in one lane. -/
def intNum (ty a : Nat) (f : Frame) (l : Nat) : Int := intOf ty (if ty % 4 = 3 then f.f64 a l else f.f32 a l)

theorem intNum_of_uniform {ty a l : Nat} {f : Frame} (h : ∀ r ∈ intRegs ty a, f.lane r l = f.lane r 0) :
    intNum ty a f l = intNum ty a f 0 := by
  unfold intNum intRegs at *
  split_ifs at h ⊢ with hs
  · rw [f64_of_uniform (h a (by simp)) (h _ (by simp))]
  · rw [f32_of_uniform (h a (by simp))]

theorem writes_cvtI2f_f32 (o : T64) (hf : cvFmt o ≠ 0) :
    WritesF32 (.cvtI2f o) o.d.toNat (intRegs (cvSub o % 8) o.a.toNat) fun e l =>
      F32.ofInt (e.mode o) (intNum (cvSub o % 8) o.a.toNat e.g.frame l) := by
  refine writesF32_of (op := fun e f l => F32.ofInt (e.mode o) (intNum (cvSub o % 8) o.a.toNat f l)) o.d.isLt
    (fun s => (execCvtI2f.eq_1 o s).trans ?_) fun _ _ _ h => by rw [intNum_of_uniform h]
  simp only [hf, if_false]
  rfl

theorem writes_cvtI2f_f64 (o : T64) (hf : cvFmt o = 0) (hd : o.d.toNat + 1 < 64) :
    WritesF64 (.cvtI2f o) o.d.toNat (intRegs (cvSub o % 8) o.a.toNat) fun e l =>
      F64.ofInt (e.mode o) (intNum (cvSub o % 8) o.a.toNat e.g.frame l) := by
  refine writesF64_of (op := fun e f l => F64.ofInt (e.mode o) (intNum (cvSub o % 8) o.a.toNat f l)) hd
    (fun s => (execCvtI2f.eq_1 o s).trans ?_) fun _ _ _ h => by rw [intNum_of_uniform h]
  simp only [hf, if_true]
  rfl

/-! Narrow formats (R217, R218) -/

/-- A conversion to f16 or bf16 fills its destination. -/
theorem writes_cvtNarrow_whole (o : T64) (hf : cvFmt o ≤ 3) :
    WritesF32 (.cvtNarrow o) o.d.toNat [o.a.toNat, o.b.toNat] fun e l =>
      narrowWord (cvFmt o) (e.mode o) (o.ctl.getLsbD 3) (cvSub o % 4) 0 (e.g.frame.f32 o.a.toNat l) (e.g.frame.f32 o.b.toNat l) := by
  refine writesF32_two (op := fun e => narrowWord (cvFmt o) (e.mode o) (o.ctl.getLsbD 3) (cvSub o % 4) 0) o.d.isLt
    fun s => (execCvtNarrow.eq_1 o s).trans ?_
  simp only [hf, decide_true, if_true]
  rfl

/-- A conversion to a narrower format keeps the other elements of its destination. -/
theorem writes_cvtNarrow_slot (o : T64) (hf : 3 < cvFmt o) :
    WritesF32 (.cvtNarrow o) o.d.toNat [o.a.toNat, o.b.toNat, o.d.toNat] fun e l =>
      narrowWord (cvFmt o) (e.mode o) (o.ctl.getLsbD 3) (cvSub o % 4) (e.g.frame.f32 o.d.toNat l) (e.g.frame.f32 o.a.toNat l)
        (e.g.frame.f32 o.b.toNat l) := by
  refine writesF32_three (op := fun e x y z => narrowWord (cvFmt o) (e.mode o) (o.ctl.getLsbD 3) (cvSub o % 4) z x y) o.d.isLt
    fun s => (execCvtNarrow.eq_1 o s).trans ?_
  simp only [Nat.not_le.2 hf, decide_false, Bool.false_eq_true, if_false]
  rfl

theorem writes_cvtWiden (o : T64) : WritesF32 (.cvtWiden o) o.d.toNat [o.a.toNat] fun e l =>
    widenR (cvFmt o) (e.g.frame.f32 o.a.toNat l / 2 ^ (elemBits (cvFmt o) * (cvSub o % 8)) %
      2 ^ (if cvFmt o = 6 ∨ cvFmt o = 7 then 6 else elemBits (cvFmt o))) :=
  writesF32_one (op := fun _ x => widenR (cvFmt o) (x / 2 ^ (elemBits (cvFmt o) * (cvSub o % 8)) %
    2 ^ (if cvFmt o = 6 ∨ cvFmt o = 7 then 6 else elemBits (cvFmt o)))) o.d.isLt (execCvtWiden.eq_1 o)

end Sys2Proof.Laws

namespace Sys2Proof

open Sys2Proof.Machine Sys2Proof.Laws

/-- Settles O13: each conversion by the register or pair of its result; the source is the one its format or integer type names. -/
theorem conversions : Obligations.Conversions := by
  unfold Obligations.Conversions
  intro o d a b fmt sub hd ha hb hfmt hsub
  rw [← cvFmt_eq] at hfmt
  rw [← cvSub_eq] at hsub
  subst hd ha hb hfmt hsub
  refine ⟨fun hf h2 => writes_cvtF2f_f64 o hf (aligned_lt o.d.isLt h2), fun hf => writes_cvtF2f_f32 o (by omega), ?_, ?_, ?_, ?_, ?_⟩
  · intro hs srcs val hsrc
    obtain ⟨rfl, rfl⟩ : srcs = floatRegs (cvFmt o) o.a.toNat ∧ val = fun e l => floatNum (cvFmt o) o.a.toNat e.g.frame l := by
      unfold floatRegs floatNum
      obtain ⟨hf, rfl, rfl⟩ | ⟨hf, rfl, rfl⟩ := hsrc <;> simp [hf]
    have hw := writes_cvtF2i_word o
    have hp := writes_cvtF2i_pair o
    rw [Nat.mod_eq_of_lt hs] at hw hp
    exact ⟨hw, fun h3 h2 => hp h3 (aligned_lt o.d.isLt h2)⟩
  · intro hs srcs val hsrc
    obtain ⟨rfl, rfl⟩ : srcs = intRegs (cvSub o) o.a.toNat ∧ val = fun e l => intNum (cvSub o) o.a.toNat e.g.frame l := by
      unfold intRegs intNum
      obtain ⟨h3, rfl, rfl⟩ | ⟨h3, rfl, rfl⟩ := hsrc <;> simp [h3]
    have hw := writes_cvtI2f_f32 o
    have hp := writes_cvtI2f_f64 o
    rw [Nat.mod_eq_of_lt hs] at hw hp
    exact ⟨fun hf => hw (by omega), fun hf h2 => hp hf (aligned_lt o.d.isLt h2)⟩
  · intro hf hs
    have hw := writes_cvtNarrow_whole o (by omega)
    rwa [hs] at hw
  · intro hf hs
    have hw := writes_cvtNarrow_slot o (by omega)
    rwa [Nat.mod_eq_of_lt hs] at hw
  · intro _ _ hs
    have hw := writes_cvtWiden o
    rwa [Nat.mod_eq_of_lt hs] at hw

end Sys2Proof
end

section
/-! PROOF. PACKMX packs the lanes of ACTIVE as one block (08 R219). -/

namespace Sys2Proof.Laws

open Sys2Proof.Machine

/-- A lane of PACKMX's destination: the element of its number `x` beside the block's scale, or, where `special` says that the block
holds a NaN or an infinity, a scale of NaN (R219). -/
def packLane (fmt : Nat) (r : Rm) (special : Bool) (scale : Nat) (x : Machine.Num) : FpR :=
  if special then ⟨0xFF00, if x.isNan || x.isInf then fNV else 0⟩
  else ⟨scale * 256 + ((fpCode fmt).narrow r false (x.scale (127 - scale))).bits,
    ((fpCode fmt).narrow r false (x.scale (127 - scale))).fl⟩

/-- A lane of ACTIVE holds a NaN or an infinity in register `a`. -/
def packSpecial (e : Env) (a : Nat) : Bool :=
  (lanesOf e.act).any fun l => (F32.num (e.g.frame.f32 a l)).isNan || (F32.num (e.g.frame.f32 a l)).isInf

/-- The result of PACKMX in one lane. -/
def packmxR (o : T64) (e : Env) (l : Nat) : FpR :=
  packLane (cvFmt o) (e.mode o) (packSpecial e o.a.toNat)
    (packScale (cvFmt o) ((lanesOf e.act).map fun l => F32.num (e.g.frame.f32 o.a.toNat l))) (F32.num (e.g.frame.f32 o.a.toNat l))

/-- Lanes that hold one number get one result: they share the block's scale. -/
theorem packmxR_of_uniform {o : T64} {e : Env} {l : Nat} (h : e.g.frame.lane o.a.toNat l = e.g.frame.lane o.a.toNat 0) :
    packmxR o e l = packmxR o e 0 := by
  rw [packmxR, packmxR, f32_of_uniform h]

theorem writes_packmx (o : T64) : WritesFp (.packmx o) (fun _ e => ⟨[o.d.toNat], e.g.frame.formOther [o.a.toNat],
    fun _ l => BitVec.ofNat 32 (packmxR o e l).bits, fun _ _ => (lanesOf e.act).any fun j => e.g.frame.bad o.a.toNat j⟩)
    fun e l => (packmxR o e l).fl :=
  writesFp_lanes (w := fun e => ⟨e.g.frame.formOther [o.a.toNat], fun l => BitVec.ofNat 32 (packmxR o e l).bits,
      fun _ => (lanesOf e.act).any fun j => e.g.frame.bad o.a.toNat j⟩)
    (funext (execPackmx.eq_1 o)) o.d.isLt (fun _ _ => rfl) (fun _ _ => rfl) fun e => formOk_other fun h l => by
      rw [packmxR_of_uniform (h o.a.toNat (by simp) l)]

end Sys2Proof.Laws

namespace Sys2Proof

open Sys2Proof.Machine Sys2Proof.Laws

/-- Settles O14: a lane's result is a function of its own number, of the block's scale and of whether the block holds a NaN or an
infinity. -/
theorem blockPacking : Obligations.BlockPacking := by
  unfold Obligations.BlockPacking
  intro o d a fmt hd ha hfmt
  rw [← cvFmt_eq] at hfmt
  subst hd ha hfmt
  exact writes_packmx o

end Sys2Proof
end

section
/-! PROOF. The planes of FP6 elements, and random words (08 R220 to R222). -/

namespace Sys2Proof.Laws

open Sys2Proof.Machine

/-- Terms added one after another are their sum. -/
theorem foldl_add_eq_sum (f : Nat → Nat) (xs : List Nat) : xs.foldl (fun x j => x + f j) 0 = (xs.map f).sum := by
  rw [List.sum_eq_foldl, List.foldl_map]

theorem heldElem_eq (x y j : Nat) : heldElem x y j = (if j < 4 then x else y) / 2 ^ (8 * (j % 4)) % 64 := by
  rw [heldElem, pow_mul]
  rfl

/-- The eight pieces `p` of FP6 elements, `w` bits apart (R220). -/
theorem planes_eq (p : Nat → Nat) (w : Nat) :
    (List.range 8).foldl (fun x j => x + p j * (2 ^ w) ^ j) 0 = ((List.range 8).map fun j => p j * 2 ^ (w * j)).sum := by
  simp only [foldl_add_eq_sum, pow_mul]

theorem writes_planeSplit_high (o : T64) (h : o.ctl.getLsbD 4 = false) :
    Writes (.planeSplit o) fun _ => oneReg o.d.toNat [o.a.toNat, o.b.toNat] fun f l =>
      BitVec.ofNat 32 ((List.range 8).map fun j => heldElem (f.f32 o.a.toNat l) (f.f32 o.b.toNat l) j / 4 * 2 ^ (4 * j)).sum := by
  refine writes_oneReg (fun s => (execPlaneSplit.eq_1 o s).trans ?_) o.d.isLt fun f hf l => ?_
  · simp only [h, Bool.false_eq_true, if_false, ← planes_eq]
    rfl
  · rw [f32_of_uniform (hf o.a.toNat (by simp) l), f32_of_uniform (hf o.b.toNat (by simp) l)]

theorem writes_planeSplit_low (o : T64) (h : o.ctl.getLsbD 4 = true) :
    Writes (.planeSplit o) fun _ => oneReg o.d.toNat [o.a.toNat, o.b.toNat, o.d.toNat] fun f l =>
      BitVec.ofNat 32 (putBits (f.f32 o.d.toNat l) (if o.ctl.getLsbD 5 then 16 else 0) 16
        ((List.range 8).map fun j => heldElem (f.f32 o.a.toNat l) (f.f32 o.b.toNat l) j % 4 * 2 ^ (2 * j)).sum) := by
  have hhalf : 16 * (if o.ctl.getLsbD 5 then 1 else 0) = if o.ctl.getLsbD 5 then 16 else 0 := by split <;> rfl
  refine writes_oneReg (fun s => (execPlaneSplit.eq_1 o s).trans ?_) o.d.isLt fun f hf l => ?_
  · simp only [h, if_true, hhalf, ← planes_eq]
    rfl
  · rw [f32_of_uniform (hf o.a.toNat (by simp) l), f32_of_uniform (hf o.b.toNat (by simp) l),
      f32_of_uniform (hf o.d.toNat (by simp) l)]

theorem writes_planeJoin (o : T64) {t : Nat} (ht : t = o.ctl.toNat / 16 % 4) :
    Writes (.planeJoin o) fun _ => oneReg o.d.toNat [o.a.toNat, o.b.toNat] fun f l =>
      BitVec.ofNat 32 ((List.range 4).map fun j => (f.f32 o.a.toNat l / 2 ^ (4 * (4 * (t % 2) + j)) % 16 * 4 +
        f.f32 o.b.toNat l / 2 ^ (2 * (4 * t + j)) % 4) * 2 ^ (8 * j)).sum := by
  have hctl : (o.ctl.extractLsb' 4 2).toNat = t := by rw [ht, BitVec.extractLsb'_toNat, Nat.shiftRight_eq_div_pow]
  refine writes_oneReg (fun s => (execPlaneJoin.eq_1 o s).trans ?_) o.d.isLt fun f hf l => ?_
  · simp only [hctl, foldl_add_eq_sum, pow_mul]
    rfl
  · rw [f32_of_uniform (hf o.a.toNat (by simp) l), f32_of_uniform (hf o.b.toNat (by simp) l)]

theorem writes_rngCb (o : T64) : Writes (.rngCb o) fun _ =>
    oneReg o.d.toNat [o.a.toNat, o.a.toNat + 1, o.b.toNat, o.b.toNat + 1] fun f l =>
      rngWord (f.pair o.a.toNat l) (f.pair o.b.toNat l) o.fn.toNat :=
  writes_oneReg (execRngCb.eq_1 o) o.d.isLt fun f hf l => by
    rw [pair_of_uniform (hf o.a.toNat (by simp) l) (hf _ (by simp) l), pair_of_uniform (hf o.b.toNat (by simp) l) (hf _ (by simp) l)]

end Sys2Proof.Laws

namespace Sys2Proof

open Sys2Proof.Machine Sys2Proof.Laws

/-- Settles O15: PLANE.SPLIT by the planes that ctl[4] selects; each word is the sum of the places of its elements. -/
theorem planesAndRandom : Obligations.PlanesAndRandom := by
  unfold Obligations.PlanesAndRandom
  rintro o d a b rfl rfl rfl elem
  have helem (f : Frame) (l j : Nat) : elem f l j = heldElem (f.f32 o.a.toNat l) (f.f32 o.b.toNat l) j := (heldElem_eq _ _ _).symm
  simp only [helem]
  exact ⟨writes_planeSplit_high o, writes_planeSplit_low o, fun t => writes_planeJoin o, writes_rngCb o⟩

end Sys2Proof
end

section
/-! PROOF. Loads (05 R120; 09 R230, R231): what a batch of a load takes at its home, and how the load goes on from it. -/

namespace Sys2Proof.Laws

open Sys2Proof.Machine

/-- The batches of a load whose lanes are at its landing. -/
def batches (ys : List (Nat × Loc)) : Nat := ((lineOrder ys).length + 15) / 16

/-- One lane is one batch. -/
theorem batches_single (x : Nat × Loc) : batches [x] = 1 := by
  simp [batches, lineOrder]

/-- Lanes that fill one batch at most are that batch. -/
theorem batchOf_only {ys : List (Nat × Loc)} {k : Nat} (hk : k < batches ys) (h1 : batches ys ≤ 1) : batchOf ys k = ys := by
  obtain rfl : k = 0 := by omega
  refine batchOf_all ?_
  unfold batches at h1
  omega

section
variable {t : State} {e : Env} {o : M64} {xs near batch : List (Nat × Loc)} {uni : Bool} {n k : Nat} {got : Nat → Nat × Bool}

/-- A load from one address for all lanes reads its one batch, of the first lane. -/
theorem batch_of_uniform (hnear : near = xs.take 1) (hk : k < batches near) (hb : batch = batchOf near k) :
    ∃ x, batch = [x] := by
  cases xs with
  | nil =>
    rw [hnear] at hk
    exact absurd hk (Nat.not_lt_zero k)
  | cons x rest =>
    have hx : near = [x] := hnear
    subst hx
    exact ⟨x, hb.trans (batchOf_only hk (batches_single x).le)⟩

/-- The lanes that a batch of a load writes: all of ACTIVE where the load is one batch. -/
def batchAct (e : Env) (near batch : List (Nat × Loc)) : Mask := if batches near ≤ 1 then e.act else failMask (batch.map Prod.fst)

/-- Each lane of its own address that a batch writes is one of the batch. -/
theorem mem_batch (hl : near.map Prod.fst = lanesOf e.act) (hk : k < batches near) (hb : batch = batchOf near k) {l : Nat}
    (ha : (batchAct e near batch).getLsbD l = true) : l ∈ batch.map Prod.fst := by
  unfold batchAct at ha
  split at ha
  · next h1 =>
    rw [hb, batchOf_only hk h1, hl]
    exact mem_lanesOf.2 ha
  · rw [failMask, maskOf_getLsbD, Bool.and_eq_true, List.contains_iff_mem] at ha
    exact ha.2

/-- The form of a load's result: one value where one address serves all lanes (09 R230). -/
def loadForm (uni : Bool) : DForm := if uni then .u else .g

/-- The results of a batch: each lane takes what its bytes read as, or every lane what the one address reads as. -/
def batchRes (t : State) (n : Nat) (uni : Bool) (batch : List (Nat × Loc)) (l : Nat) : Nat × Bool :=
  let res := batch.map fun x => (x.1, t.seen n x.2)
  if uni then (res.head?.getD (0, 0, false)).2 else (laneVal res l, laneBad res l)

theorem batchRes_eq (hnear : near = if uni then xs.take 1 else xs) (hl : xs.map Prod.fst = lanesOf e.act) (hk : k < batches near)
    (hb : batch = batchOf near k) (hgot : ∀ x ∈ batch, ∀ l, uni = true ∨ l = x.1 → got l = t.seen n x.2) {l : Nat}
    (ha : (batchAct e near batch).getLsbD l = true ∨ loadForm uni ≠ .g) : batchRes t n uni batch l = got l := by
  unfold batchRes
  cases uni with
  | true =>
    obtain ⟨x, rfl⟩ := batch_of_uniform hnear hk hb
    exact (hgot x (List.mem_singleton.2 rfl) l (.inl rfl)).symm
  | false =>
    have hnear' : near = xs := hnear
    subst hnear'
    have ha' := ha.resolve_right fun h => h rfl
    obtain ⟨hv, hp⟩ := laneVal_found (r := t.seen n) (fun x hx => hgot x hx x.1 (.inr rfl)) (mem_batch hl hk hb ha')
    exact Prod.ext hv hp

/-- The frame after a batch. -/
def batchFrame (t : State) (e : Env) (o : M64) (uni : Bool) (near batch : List (Nat × Loc)) : Frame :=
  e.g.frame.writeLoad e.g.active (batchAct e near batch) o.d.toNat o.size (loadForm uni)
    (fun l => (batchRes t (sizeBytes o.size) uni batch l).1) fun l => (batchRes t (sizeBytes o.size) uni batch l).2

theorem batchFrame_wrote (hd : o.d.toNat + sizeRegs o.size ≤ 64) (hnear : near = if uni then xs.take 1 else xs)
    (hl : xs.map Prod.fst = lanesOf e.act) (hk : k < batches near) (hb : batch = batchOf near k)
    (hgot : ∀ x ∈ batch, ∀ l, uni = true ∨ l = x.1 → got l = t.seen (sizeBytes o.size) x.2) :
    Wrote e.g.frame (batchFrame t e o uni near batch) e.g.active (batchAct e near batch)
      (loaded o.size o.d.toNat (loadForm uni) got) := by
  refine Wrote.congr (wrote_load (got := batchRes t (sizeBytes o.size) uni batch) hd ?_) fun l ha d => ?_
  · cases uni
    · exact .inl rfl
    · exact .inr ⟨rfl, fun _ => rfl⟩
  · rw [batchRes_eq hnear hl hk hb hgot ha]
    exact ⟨rfl, rfl⟩

/-- A batch of a load whose lanes are here, with none of its context's posts in the way (09 R231). -/
theorem loadHere_of_here {i : Instr} (hh : Local e.g.l t e.g xs) (huni : uni = (addrRegs (o.af == 1) o.a.toNat).all e.g.frame.isU)
    (hnear : near = if uni then xs.take 1 else xs) (hb : batch = batchOf near e.g.progIdx) :
    loadHere t i e o xs =
      if e.g.progIdx + 1 < batches near then .ok ((t.readLanes (sizeBytes o.size) batch).2.setGroup { e.g with
        frame := batchFrame t e o uni near batch, progIdx := e.g.progIdx + 1, carried := some xs
        busy := (addrRegs (o.af == 1) o.a.toNat).any (loadRegs o.size o.d.toNat).contains })
      else plainDone (t.readLanes (sizeBytes o.size) batch).2 i { e.g with frame := batchFrame t e o uni near batch }
        (near.map fun x => x.2.pa) := by
  have hpeer : ∀ x ∈ near, x.2.peer = none := by
    intro x hx
    rw [hnear] at hx
    refine (hh.1 x ?_).1
    split at hx
    · exact List.mem_of_mem_take hx
    · exact hx
  unfold loadHere
  dsimp only
  rw [← huni, ← hnear, hh.2, if_neg (by decide), askPeers_none hpeer]
  dsimp only
  rw [filter_near hpeer, ← hb]
  unfold batchFrame batchAct batchRes loadForm State.readLanes
  simp only [List.append_nil, List.map_map]
  cases uni <;> rfl

end

/-- Lanes that are checked pass checks 1 to 3 (09 R227). -/
theorem checks3_of_checked {a : Access} {n code : Nat} {regs : List Nat} {va : Nat → Nat} {s1 : State} {e : Env} {xs : List (Nat × Loc)}
    {t : State} (hk : Checked a n regs va s1 e xs t) : checks3 e.g code e.act [⟨regs, n, va⟩] = none := by
  apply checks3_clean <;> simp only [List.mem_singleton, forall_eq]
  · exact hk.clean
  · exact hk.range
  · exact hk.aligned

/-- The lanes of a memory instruction that is where they are. -/
theorem resolve_here {a : Access} {n : Nat} {o : M64} {va : Nat → Nat} {s1 : State} {e : Env} {xs : List (Nat × Loc)} {t : State}
    (hva : va = memAddr (s1.ctx e.g.ctx) e.g o) (hk : Here a n (addrRegs (o.af == 1) o.a.toNat) va s1 e xs t) :
    resolve (s1.setGroup e.g) e a e.act (memOp ((s1.setGroup e.g).ctx e.g.ctx) e.g o n) = .go xs t := by
  subst hva
  exact resolve_go (o := memOp (s1.ctx e.g.ctx) e.g o n) hk

/-- No lane of an LD.L is remote where all are here. -/
theorem remoteTrap_none {e : Env} {xs : List (Nat × Loc)} (hh : ∀ x ∈ xs, x.2.peer = none ∧ home x.2.pa = e.g.l) : remoteTrap e.g xs = none := by
  unfold remoteTrap
  rw [List.filter_eq_nil_iff.2 fun x hx => by simp [hh x hx]]
  rfl

section
variable {o : M64} {s s1 t : State} {e : Env} {va : Nat → Nat} {xs : List (Nat × Loc)}
  (hva : va = memAddr (s1.ctx e.g.ctx) e.g o)
include hva

/-- An LD whose lanes are here does there what `loadHere` says. -/
theorem execLd_here (hk : Here accLoad (sizeBytes o.size) (addrRegs (o.af == 1) o.a.toNat) va s1 e xs t) :
    ∃ body, exec (.ld o) s = issue (.ld o) s body ∧ body (s1.setGroup e.g) e = loadHere t (.ld o) e o xs := by
  subst hva
  refine ⟨_, execLd.eq_1 o s, ?_⟩
  simp only [resolve_here rfl hk]
  exact partitioned_here hk.here.1

/-- So does an LD.L, which moves nowhere. -/
theorem execLdL_here (hk : Here accLoadL (sizeBytes o.size) (addrRegs (o.af == 1) o.a.toNat) va s1 e xs t) :
    ∃ body, exec (.ldL o) s = issue (.ldL o) s body ∧ body (s1.setGroup e.g) e = loadHere t (.ldL o) e o xs := by
  subst hva
  refine ⟨_, execLdL.eq_1 o s, ?_⟩
  obtain ⟨hc, -, rfl⟩ | ⟨hc, hk'⟩ := hk.way
  · simp only [hc]
  · have h3 : checks3 e.g 0 e.act [memOp ((s1.setGroup e.g).ctx e.g.ctx) e.g o (sizeBytes o.size)] = none :=
      checks3_of_checked hk'
    have hg : resolveLanes (s1.setGroup e.g) e accLoadL false e.act (memOp ((s1.setGroup e.g).ctx e.g.ctx) e.g o (sizeBytes o.size)).va
        (remoteTrap e.g) = .go xs t := resolveLanes_go hk' hk.here (remoteTrap_none hk.here.1)
    simp only [hc, hk'.idle, h3, hg, Bool.false_eq_true, if_false]

end

/-- An instruction that completes a plain access completes with the lines it touched counted (02 R45). -/
theorem exec_plainDone {i : Instr} {s s1 t : State} {g g' : Group} {e : Env} {body : State → Env → R} {pas : List Nat}
    (h : Issues i s s1 g e) (hx : exec i s = issue i s body) (hb : body (s1.setGroup e.g) e = plainDone t i g' pas)
    (hu : g'.uid = e.g.uid) (hr : Room g') :
    exec i s = .next (t.setGroup (({ g'.laLines i pas with lastCopy := none } : Group).advance i)) :=
  exec_done h hx hb ((laLines_uid _ _ _).trans hu) (room_laLines hr _ _ _)

theorem exec_memDone {i : Instr} {s s1 t : State} {g g' : Group} {e : Env} {body : State → Env → R} {pas : List Nat}
    (h : Issues i s s1 g e) (hx : exec i s = issue i s body) (hb : body (s1.setGroup e.g) e = memDone t i g' pas)
    (hu : g'.uid = e.g.uid) (hr : Room g') : exec i s = .next (t.setGroup ((g'.laLines i pas).advance i)) :=
  exec_done h hx hb ((laLines_uid _ _ _).trans hu) (room_lines hr _ _)

/-- A load whose meaning is a batch at its home answers the state after the batch, or after the last of them completes. -/
theorem exec_loadHere {o : M64} {i : Instr} {s s1 t : State} {g : Group} {e : Env} {xs near batch : List (Nat × Loc)} {uni : Bool}
    {body : State → Env → R} (h : Issues i s s1 g e) (hx : exec i s = issue i s body)
    (hbody : body (s1.setGroup e.g) e = loadHere t i e o xs) (hh : Local e.g.l t e.g xs) (hr : RoomFor e.g (loadRegs o.size o.d.toNat) [] [])
    (huni : uni = (addrRegs (o.af == 1) o.a.toNat).all e.g.frame.isU) (hnear : near = if uni then xs.take 1 else xs)
    (hb : batch = batchOf near e.g.progIdx) :
    exec i s = .next (if e.g.progIdx + 1 < batches near then (t.readLanes (sizeBytes o.size) batch).2.setGroup { e.g with
        frame := batchFrame t e o uni near batch, progIdx := e.g.progIdx + 1, carried := some xs
        busy := (addrRegs (o.af == 1) o.a.toNat).any (loadRegs o.size o.d.toNat).contains }
      else (t.readLanes (sizeBytes o.size) batch).2.setGroup (({ ({ e.g with frame := batchFrame t e o uni near batch }.laLines i
        (near.map fun (x : Nat × Loc) => x.2.pa)) with lastCopy := none } : Group).advance i)) := by
  have hroom : Room { e.g with frame := batchFrame t e o uni near batch } := room_load hr _ _ _ _ _
  rw [loadHere_of_here hh huni hnear hb] at hbody
  split at hbody
  · next hk =>
    rw [if_pos hk]
    exact exec_put h hx hbody rfl (Room.same hroom rfl rfl)
  · next hk =>
    rw [if_neg hk]
    exact exec_plainDone h hx hbody rfl hroom

end Sys2Proof.Laws

namespace Sys2Proof

open Sys2Proof.Machine Sys2Proof.Laws

/-- Settles O26: LD and LD.L both come to `loadHere` where their lanes are, of which a batch's frame and the state after it are said
once. -/
theorem loads : Obligations.Loads := by
  unfold Obligations.Loads
  rintro o i n d regs rfl rfl hd rfl s s1 g e va xs t h hva hi hr uni near batch count huni hnear hcount hb hk got hgot
  obtain ⟨body, hx, hbody, hl, hh⟩ : ∃ body, exec i s = issue i s body ∧ body (s1.setGroup e.g) e = loadHere t i e o xs ∧
      xs.map Prod.fst = lanesOf e.act ∧ Local e.g.l t e.g xs := by
    obtain ⟨rfl, hk⟩ | ⟨rfl, hk⟩ := hi
    · obtain ⟨body, hx, hbody⟩ := execLd_here (s := s) hva hk
      exact ⟨body, hx, hbody, here_lanes hk, hk.here⟩
    · obtain ⟨body, hx, hbody⟩ := execLdL_here (s := s) hva hk
      exact ⟨body, hx, hbody, here_lanes hk, hk.here⟩
  subst hcount
  exact ⟨_, _, rfl, readLanes_byte _ _ _, batchFrame_wrote hd hnear hl hk hb hgot,
    exec_loadHere h hx hbody hh hr huni hnear hb⟩

end Sys2Proof
end

section
/-! PROOF. Stores (05 R120, R122; 09 R229, R232): a store whose lanes are here writes them and completes. -/

namespace Sys2Proof.Laws

open Sys2Proof.Machine

variable {o : M64} {s s1 t : State} {g : Group} {e : Env} {xs : List (Nat × Loc)}

theorem pstore_uid (g : Group) (m : Mask) (bad : Nat → Bool) : (g.pstore m bad).uid = g.uid := by
  obtain ⟨x, hx⟩ := pstore_only g m bad
  rw [hx]

/-- Setting PSTORE changes no frame. -/
theorem room_pstore {g : Group} (hr : Room g) (m : Mask) (bad : Nat → Bool) : Room (g.pstore m bad) := by
  obtain ⟨x, hx⟩ := pstore_only g m bad
  rw [hx]
  exact Room.same hr rfl rfl

theorem room_pstore_frame {g : Group} {f : Frame} (hr : Room { g with frame := f }) (m : Mask) (bad : Nat → Bool) :
    Room { g.pstore m bad with frame := f } := by
  obtain ⟨x, hx⟩ := pstore_only g m bad
  rw [hx]
  exact Room.same hr rfl rfl

/-- Where no post of its own stands in its way, a store writes its lanes and completes. -/
theorem storeHere_of_here {i : Instr} (hh : Local e.g.l t e.g xs) {n : Nat} {val : Nat → Nat} {bad : Nat → Bool}
    (hn : n = sizeBytes o.size) (hval : ∀ l, val l = dataLane e.g.frame o.b.toNat (sizeRegs o.size) n l)
    (hbad : ∀ l, bad l = e.g.frame.badRun o.b.toNat (sizeRegs o.size) l) :
    storeHere t i e o xs = plainDone (t.writeLanes (t.ctx e.g.ctx).pl n val bad xs) i (e.g.pstore e.act bad) (xs.map fun x => x.2.pa) := by
  obtain rfl : val = fun l => dataLane e.g.frame o.b.toNat (sizeRegs o.size) n l := funext hval
  obtain rfl : bad = fun l => e.g.frame.badRun o.b.toNat (sizeRegs o.size) l := funext hbad
  have hpeer : ∀ x ∈ xs, x.2.peer = none := fun x hx => (hh.1 x hx).1
  subst hn
  unfold storeHere
  dsimp only
  rw [hh.2, if_neg (by decide), askPeers_none hpeer]
  dsimp only
  rw [filter_near hpeer]

/-- No lane that is here is outside the landings of its context. -/
theorem outside_nil {c : Ctx} {g : Group} {xs : List (Nat × Loc)} (hh : ∀ x ∈ xs, x.2.peer = none ∧ home x.2.pa = g.l) :
    outside c g xs = [] := by
  unfold outside
  rw [List.filter_eq_nil_iff.2 fun x hx => by simp [(hh x hx).2]]
  rfl

/-- An ST whose lanes are here does there what `storeHere` says. -/
theorem execSt_here {n : Nat} {va : Nat → Nat} (hva : va = memAddr (s1.ctx e.g.ctx) e.g o) (hn : n = sizeBytes o.size)
    (hk : Here (accStore.wide n) n (addrRegs (o.af == 1) o.a.toNat) va s1 e xs t) :
    ∃ body, exec (.st o) s = issue (.st o) s body ∧ body (s1.setGroup e.g) e = storeHere t (.st o) e o xs := by
  subst hva hn
  refine ⟨_, execSt.eq_1 o s, ?_⟩
  obtain ⟨hc, -, rfl⟩ | ⟨hc, hk'⟩ := hk.way
  · simp only [hc]
    exact partitioned_here hk.here.1
  · have h3 : checks3 e.g 1 e.act [memOp ((s1.setGroup e.g).ctx e.g.ctx) e.g o (sizeBytes o.size)] = none := checks3_of_checked hk'
    have hw : (s1.setGroup e.g).translateLanes e.g.l e.g.ctx (accStore.wide (sizeBytes o.size))
        ((lanesOf e.act).map fun l => (l, (memOp ((s1.setGroup e.g).ctx e.g.ctx) e.g o (sizeBytes o.size)).va l)) = ⟨xs, [], [], t⟩ := hk'.walked
    have h5 (c va) : check5 c va [] [] = none := by simp [check5]
    simp only [hc, hk'.idle, h3, hw, outside_nil hk.here.1, h5, List.isEmpty_nil, Bool.false_eq_true, if_false, if_true]
    exact partitioned_here hk.here.1

end Sys2Proof.Laws

namespace Sys2Proof

open Sys2Proof.Machine Sys2Proof.Laws

/-- Settles O27: ST comes to `storeHere`, which writes its lanes in order; `writeLanes_mem` says what that does to each byte. -/
theorem stores : Obligations.Stores := by
  unfold Obligations.Stores
  rintro o i n rfl hn s s1 g e va xs t h hva hk hr val bad u hval hbad rfl
  obtain ⟨body, hx, hbody⟩ := execSt_here (s := s) hva hn hk
  exact ⟨exec_plainDone h hx (hbody.trans (storeHere_of_here hk.here hn hval hbad)) (pstore_uid _ _ _) (room_pstore hr _ _),
    writeLanes_mem⟩

end Sys2Proof
end

section
/-! PROOF. Atomics (05 R122; 09 R229, R234, R235): what ATOM and ATOM.CAS do to memory lane after lane, and how they complete where
their lanes are. -/

namespace Sys2Proof.Laws

open Sys2Proof.Machine

/-! Memory -/

section
variable {t u v : State} {xs : List (Nat × Loc)} {x : Nat × Loc} {pl op n pa : Nat} {val cmp new : Nat → Nat} {bad : Nat → Bool}
  {got : List (Nat × Nat × Bool)} {fl : Flags} {hits : List Nat}

/-- A read of memory gives its bytes and their poison (09 R229). -/
theorem readPart_memory (hm : isControl pa = false) :
    t.readPart pa n = (t.mem.num pa n, t.mem.unreadable pa n, t.sense pa n) := by
  unfold State.readPart
  rw [hm, if_neg (by decide)]

/-- Byte `a` of memory that is read, and then written at the same place. -/
theorem byte_readWrite {w : Nat} {d : Bool} (hm : isControl pa = false) (hw : t.mem.wf = true) {a : Nat} (h1 : pa ≤ a) (h2 : a < pa + n) :
    ((t.sense pa n).writePart pa pl (toBytes n w) d).mem.byte a = BitVec.ofNat 8 (w / 2 ^ (8 * (a - pa))) := by
  have hs : (t.sense pa n).mem.wf = true := State.sense_wf pa n hw
  rw [(writePart_mem hm hs).2, toBytes_length, if_pos ⟨h1, h2⟩, toBytes_getD _ _ _ (by omega)]

theorem atomLanes_single (hm : isControl (v.mem.backing x.2 false) = false) (hpa : pa = v.mem.backing x.2 false) :
    v.atomLanes pl op n val bad [x] = ([(x.1, v.mem.num pa n, v.mem.unreadable pa n)], (combine op n (v.mem.num pa n) (val x.1)).2 ||| 0,
      (v.sense pa n).writePart pa pl (toBytes n (combine op n (v.mem.num pa n) (val x.1)).1) (bad x.1)) := by
  subst hpa
  simp only [State.atomLanes, State.reach, List.map_cons, List.map_nil, State.atomRuns, State.combineAt, readPart_memory hm]

theorem casLanes_single (hm : isControl (v.mem.backing x.2 false) = false) (hpa : pa = v.mem.backing x.2 false) :
    v.casLanes pl n cmp new bad [x] = ([(x.1, v.mem.num pa n, v.mem.unreadable pa n)], if v.mem.num pa n == cmp x.1 then [x.1] else [],
      if v.mem.num pa n == cmp x.1 then (v.sense pa n).writePart pa pl (toBytes n (new x.1)) (bad x.1) else v.sense pa n) := by
  subst hpa
  simp only [State.casLanes, State.reach, List.map_cons, List.map_nil, State.casRuns, readPart_memory hm]

section
variable (hv : v.mem = t.mem) (hw : t.mem.wf = true)
include hv hw

/-- An access that keeps what its lanes do not cover, from a state with the memory of `t`. -/
theorem keeps_of_mem (hk : Keeps v u n (v.reach xs)) : u.mem.wf = true ∧ ∀ a, ¬Covers t n xs a → u.mem.byte a = t.mem.byte a := by
  obtain ⟨hwf, hbyte⟩ := hk.covers (by rw [hv]; exact hw)
  refine ⟨hwf, fun a ha => ?_⟩
  rw [hbyte a (by unfold Covers at ha ⊢; rwa [hv]), hv]

variable (hm : InMemory t xs)
include hm

/-- What ATOM does to memory that is not control space. -/
theorem atomLanes_mem (hu : v.atomLanes pl op n val bad xs = (got, fl, u)) :
    u.mem.wf = true ∧ (∀ a, ¬Covers t n xs a → u.mem.byte a = t.mem.byte a) ∧
      ∀ x pa, xs = [x] → pa = t.mem.backing x.2 false → got = [(x.1, t.mem.num pa n, t.mem.unreadable pa n)] ∧
        ∀ a, pa ≤ a → a < pa + n → u.mem.byte a =
          BitVec.ofNat 8 ((combine op n (t.mem.num pa n) (val x.1)).1 / 2 ^ (8 * (a - pa))) := by
  have hk : Keeps v (v.atomLanes pl op n val bad xs).2.2 n (v.reach xs) := atomLanes_keeps (inMemory_mem hv hm)
  rw [hu] at hk
  obtain ⟨hwf, hout⟩ := keeps_of_mem hv hw hk
  refine ⟨hwf, hout, ?_⟩
  rintro x pa rfl hpa
  have hx : isControl pa = false := hpa ▸ (hm x (List.mem_singleton.2 rfl)).1
  rw [atomLanes_single (pa := pa) (by rw [hv, ← hpa]; exact hx) (by rw [hv, hpa])] at hu
  obtain ⟨rfl, -, rfl⟩ := hu
  rw [hv]
  exact ⟨rfl, fun a h1 h2 => byte_readWrite hx (by rw [hv]; exact hw) h1 h2⟩

/-- What ATOM.CAS does to memory that is not control space. -/
theorem casLanes_mem (hu : v.casLanes pl n cmp new bad xs = (got, hits, u)) :
    u.mem.wf = true ∧ (∀ a, ¬Covers t n xs a → u.mem.byte a = t.mem.byte a) ∧
      ∀ x pa, xs = [x] → pa = t.mem.backing x.2 false → got = [(x.1, t.mem.num pa n, t.mem.unreadable pa n)] ∧
        ∀ a, pa ≤ a → a < pa + n → u.mem.byte a = if t.mem.num pa n = cmp x.1
          then BitVec.ofNat 8 (new x.1 / 2 ^ (8 * (a - pa))) else t.mem.byte a := by
  have hk : Keeps v (v.casLanes pl n cmp new bad xs).2.2 n (v.reach xs) := casLanes_keeps (inMemory_mem hv hm)
  rw [hu] at hk
  obtain ⟨hwf, hout⟩ := keeps_of_mem hv hw hk
  refine ⟨hwf, hout, ?_⟩
  rintro x pa rfl hpa
  have hx : isControl pa = false := hpa ▸ (hm x (List.mem_singleton.2 rfl)).1
  rw [casLanes_single (pa := pa) (by rw [hv, ← hpa]; exact hx) (by rw [hv, hpa])] at hu
  obtain ⟨rfl, -, rfl⟩ := hu
  rw [hv]
  refine ⟨rfl, fun a h1 h2 => ?_⟩
  by_cases hc : t.mem.num pa n = cmp x.1
  · rw [if_pos hc, if_pos (beq_iff_eq.2 hc)]
    exact byte_readWrite hx (by rw [hv]; exact hw) h1 h2
  · rw [if_neg hc, if_neg (by rwa [beq_iff_eq])]
    exact (byte_cells (State.sense_cells _ _ _) a).trans (by rw [hv])

end

end

/-! Registers -/

/-- A lane that has a result finds one of those given for it. -/
theorem exists_result {res : List (Nat × Nat × Bool)} {l : Nat} (hl : l ∈ res.map Prod.fst) :
    ∃ r ∈ res, r.1 = l ∧ laneVal res l = r.2.1 ∧ laneBad res l = r.2.2 := by
  obtain ⟨x, hx, rfl⟩ := List.mem_map.1 hl
  unfold laneVal laneBad
  cases hf : res.find? (fun r => r.1 == x.1) with
  | none => exact absurd (List.find?_eq_none.1 hf x hx) (by simp)
  | some r => exact ⟨r, List.mem_of_find?_eq_some hf, by simpa using List.find?_some hf, rfl, rfl⟩

/-- A memory result named by any values that agree in the lanes of ACTIVE. -/
theorem wrote_results {f : Frame} {amask act : Mask} {d : Nat} {size : BitVec 4} {got out : Nat → Nat × Bool}
    (hd : d + sizeRegs size ≤ 64) (h : ∀ l, act.getLsbD l = true → got l = out l) :
    Wrote f (f.writeLoad amask act d size .g (fun l => (got l).1) fun l => (got l).2) amask act (loaded size d .g out) := by
  refine Wrote.congr (wrote_load (got := got) hd (.inl rfl)) fun l ha k => ?_
  rw [h l (ha.resolve_right fun h => h rfl)]
  exact ⟨rfl, rfl⟩

/-! The instructions -/

section
variable {o : M64} {s s1 t u : State} {g : Group} {e : Env} {xs : List (Nat × Loc)} {va : Nat → Nat} {n b k : Nat}
  {got : List (Nat × Nat × Bool)} {fl : Flags} {hits : List Nat} {val new : Nat → Nat} {bad newBad : Nat → Bool}
  (hva : va = memAddr (s1.ctx e.g.ctx) e.g o) (hn : n = sizeBytes o.size) (hb : b = o.b.toNat) (hs : k = sizeRegs o.size)
  (hk : Here (accAtom.wide n) n (addrRegs (o.af == 1) o.a.toNat) va s1 e xs t)
  (hval : val = dataLane e.g.frame b k n) (hbad : bad = e.g.frame.badRun b k)
include hva hn hb hs hk hval hbad

/-- An ATOM whose lanes are here combines them, and completes with what they read as before. -/
theorem execAtom_here (hu : (t.beatTwice (xs.map Prod.snd) n).atomLanes (s1.ctx e.g.ctx).pl o.fn.toNat n val bad xs = (got, fl, u)) :
    ∃ body, exec (.atom o) s = issue (.atom o) s body ∧ body (s1.setGroup e.g) e = plainDone u (.atom o)
      { (e.g.pstore e.act bad).sticky (fl.setWidth 32) with
        frame := e.g.frame.writeLoad e.g.active e.act o.d.toNat o.size .g (laneVal got) (laneBad got) } (xs.map fun x => x.2.pa) := by
  subst hva hn hb hs hval hbad
  have hpeer : ∀ x ∈ xs, x.2.peer = none := fun x hx => (hk.here.1 x hx).1
  refine ⟨_, execAtom.eq_1 o s, ?_⟩
  simp only [resolve_here rfl hk]
  rw [partitioned_here hk.here.1, hk.here.2, if_neg (by decide), askPeers_none hpeer]
  dsimp only
  rw [filter_near hpeer, ctx_setGroup]
  have hfl : fl ||| (0 : Flags) = fl := BitVec.or_zero
  obtain ⟨q, hq⟩ := pstore_only e.g e.act (e.g.frame.badRun o.b.toNat (sizeRegs o.size))
  simp only [hu, hq, hfl, List.append_nil]
  rfl

/-- An ATOM.CAS whose lanes are here swaps those that compare equal, and completes with what they read as before. -/
theorem execAtomCas_here (hnew : new = dataLane e.g.frame (b + k) k n) (hnewBad : newBad = e.g.frame.badRun (b + k) k)
    (hu : (t.beatLocs (xs.map Prod.snd) n).casLanes (s1.ctx e.g.ctx).pl n val new newBad xs = (got, hits, u)) :
    ∃ body, exec (.atomCas o) s = issue (.atomCas o) s body ∧ body (s1.setGroup e.g) e =
      plainDone (u.beatLocs ((xs.filter fun x => hits.contains x.1).map Prod.snd) n true) (.atomCas o)
        { e.g.pstore e.act (fun l => hits.contains l && newBad l) with
          frame := e.g.frame.writeLoad e.g.active e.act o.d.toNat o.size .g (laneVal got) fun l => laneBad got l || bad l }
        (xs.map fun x => x.2.pa) := by
  subst hva hn hb hs hval hbad hnew hnewBad
  have hpeer : ∀ x ∈ xs, x.2.peer = none := fun x hx => (hk.here.1 x hx).1
  refine ⟨_, execAtomCas.eq_1 o s, ?_⟩
  simp only [resolve_here rfl hk]
  rw [partitioned_here hk.here.1, hk.here.2, if_neg (by decide), askPeers_none hpeer]
  dsimp only
  rw [filter_near hpeer, ctx_setGroup]
  obtain ⟨q, hq⟩ := pstore_only e.g e.act (fun l => hits.contains l && e.g.frame.badRun (o.b.toNat + sizeRegs o.size) (sizeRegs o.size) l)
  simp only [hu, List.append_nil, List.any_nil, Bool.or_false, hq]

end

end Sys2Proof.Laws

namespace Sys2Proof

open Sys2Proof.Machine Sys2Proof.Laws

/-- Settles O28: each form by what it leaves in memory and what its destination takes. -/
theorem atomics : Obligations.Atomics := by
  unfold Obligations.Atomics
  intro o n d b k hn hd hb hs hdk s s1 g e va xs t hva hk hr out pas hpas
  subst hd
  rw [hs] at hdk
  have hroom (act : Mask) (v : Nat → Nat) (p : Nat → Bool) :
      Room { e.g with frame := e.g.frame.writeLoad e.g.active act o.d.toNat o.size .g v p } := room_load hr _ _ _ _ _
  have hlanes := here_lanes hk
  subst hpas
  intro f val bad
  refine ⟨fun i got fl u hi h hout hu => ?_, ?_⟩
  · subst hi
    obtain ⟨body, hx, hbody⟩ := execAtom_here (s := s) hva hn hb hs hk rfl rfl hu
    have hl : got.map Prod.fst = lanesOf e.act :=
      (congrArg (fun r => r.1.map Prod.fst) hu).symm.trans ((atomLanes_lanes _ _ _ _ _ _ _).trans hlanes)
    refine ⟨⟨_, wrote_results (got := fun l => (laneVal got l, laneBad got l)) hdk fun l ha => ?_,
      exec_plainDone h hx hbody (pstore_uid e.g _ _) (Room.same (room_pstore_frame (hroom _ _ _) _ _) rfl rfl)⟩,
      fun hm hw => atomLanes_mem (beatTwice_mem _ _ _) hw hm hu⟩
    exact lane_found hout (by rw [hl]; exact mem_lanesOf.2 ha)
  · intro new newBad i got hits u hi h hout hu
    subst hi
    obtain ⟨body, hx, hbody⟩ := execAtomCas_here (s := s) hva hn hb hs hk rfl rfl rfl rfl hu
    have hl : got.map Prod.fst = lanesOf e.act :=
      (congrArg (fun r => r.1.map Prod.fst) hu).symm.trans ((casLanes_lanes _ _ _ _ _ _ _).trans hlanes)
    refine ⟨⟨_, wrote_results (got := fun l => (laneVal got l, laneBad got l || bad l)) hdk fun l ha => ?_,
      exec_plainDone h hx hbody (pstore_uid e.g _ _) (room_pstore_frame (hroom _ _ _) _ _)⟩,
      fun hm hw => casLanes_mem (beatLocs_mem _ _ _) hw hm hu⟩
    obtain ⟨r, hr, rfl, hv, hp⟩ := exists_result (res := got) (by rw [hl]; exact mem_lanesOf.2 ha)
    rw [hout r hr, hv, hp]

end Sys2Proof
end

section
/-! PROOF. Posted stores and reductions (05 R127, R128; 09 R229, R233, R236, R237): ST.P, RED.P and RED.K make one operation by lane, whose
parts join the pairs toward their homes. -/

namespace Sys2Proof

open Sys2Proof.Machine Sys2Proof.Laws

/-- Settles O29: the three are `postLanes` of their kinds; what it sends leaves memory as it was and joins one pair for each home. -/
theorem postedOperations : Obligations.PostedOperations := by
  unfold Obligations.PostedOperations
  rintro o i op a ctr extra n rfl hi s s1 g e va cva xs cs t u h hr rfl rfl hk hc bad posts v hbad hposts rfl
  have hx : exec i s = issue i s (postLanes i o op a ctr extra) := by
    obtain ⟨rfl, rfl, rfl, rfl, rfl⟩ | ⟨rfl, rfl, rfl, rfl, rfl⟩ | ⟨rfl, rfl, rfl, rfl, rfl⟩ := hi
    · exact execStP.eq_1 o s
    · exact execRedP.eq_1 o s
    · exact execRedK.eq_1 o s
  have hb := postLanes_done (i := i) (op := op) hk hc bad hbad posts hposts
  have hu : (e.g.pstore e.act bad).uid = e.g.uid := pstore_uid e.g e.act bad
  have hroom := room_pstore hr e.act bad
  generalize e.g.pstore e.act bad = k at hb hu hroom ⊢
  refine ⟨exec_memDone h hx hb hu (Room.same hroom rfl rfl), sendPosts_mem _ _ _ _ _, ?_⟩
  · rintro hpeer src dst lanes rfl
    refine sendPosts_pair _ _ _ _ _ (fun p hp => ?_) src dst
    rw [hposts] at hp
    obtain ⟨x, hx, rfl⟩ := List.mem_map.1 hp
    exact hpeer x hx

end Sys2Proof
end

section
/-! PROOF. Barrier objects (09 R245 to R249): what an arrival does to its object and those that wait on it, and each instruction by what
it finds at the object. -/

namespace Sys2Proof.Laws

open Sys2Proof.Machine

/-! An arrival -/

/-- Those that wait on a phase pass their waits as it ends (09 R247). -/
theorem releaseBar_groups (t : State) (pa : Nat) (phase : Word) :
    (t.releaseBar pa phase).groups = t.groups.map fun k => if (k.onPhase pa phase).isSome then k.pass else k := by
  refine List.map_congr_left fun k _ => ?_
  unfold Group.onPhase
  cases k.wait <;> simp only [Option.isSome_none, Bool.false_eq_true, if_false]
  split <;> simp

theorem releaseBar_barLive (t : State) (pa : Nat) (phase : Word) : (t.releaseBar pa phase).barLive = t.barLive := rfl

/-- The arrival of a group's rank is the last that the phase asks for. -/
def lastArrival (g : Group) (b : BarObj) : Bool := decide (count128 (b.arrived ||| (1 : BitVec 128) <<< g.rank) = b.e)

/-- The object as an arrival leaves it, before R248: the last arrival ends the phase. -/
def arrivedBar (g : Group) (b : BarObj) : BarObj :=
  if lastArrival g b then { b with arrived := 0, phase := b.phase + 1 }
  else { b with arrived := b.arrived ||| (1 : BitVec 128) <<< g.rank }

/-- The machine in which an arrival is looked at under R248: the object is written, and after the last arrival its phase has ended. -/
def atArrival (t : State) (g : Group) (pa : Nat) (b : BarObj) : State :=
  if lastArrival g b then (t.putBar pa (arrivedBar g b)).releaseBar pa b.phase else t.putBar pa (arrivedBar g b)

theorem arriveBar_eq (t : State) (g : Group) (pa : Nat) (b : BarObj) :
    t.arriveBar g pa b = (lastArrival g b, (atArrival t g pa b).evalBar pa) := by
  unfold State.arriveBar atArrival arrivedBar lastArrival
  by_cases hc : count128 (b.arrived ||| (1 : BitVec 128) <<< g.rank) = b.e
  · simp only [hc, if_true, decide_true]
  · simp only [hc, if_false, decide_false, Bool.false_eq_true]

section
variable {t : State} {g : Group} {pa : Nat} {b : BarObj}

/-- An arrival keeps the object's team, state, count and reserved bytes. -/
theorem arrivedBar_fixed : (arrivedBar g b).team = b.team ∧ (arrivedBar g b).st = b.st ∧ (arrivedBar g b).e = b.e ∧
    (arrivedBar g b).rsv = b.rsv := by
  unfold arrivedBar
  split <;> exact ⟨rfl, rfl, rfl, rfl⟩

theorem atArrival_mem : (atArrival t g pa b).mem = (t.putBar pa (arrivedBar g b)).mem := by
  unfold atArrival
  split <;> rfl

theorem atArrival_liveAt : (atArrival t g pa b).liveAt pa = t.liveAt pa := by
  refine liveAt_eq ?_ pa
  unfold atArrival
  split
  · rw [releaseBar_barLive, putBar_barLive]
  · exact putBar_barLive _ _ _

theorem atArrival_bar (hw : t.mem.wf = true) (hb : b = t.mem.bar pa) : (atArrival t g pa b).mem.bar pa = arrivedBar g b := by
  obtain ⟨hteam, hst, he, hrsv⟩ := arrivedBar_fixed (g := g) (b := b)
  obtain ⟨h1, h2, h3⟩ := bar_bounds t.mem pa
  rw [← hb] at h1 h2 h3
  rw [atArrival_mem, putBar_bar hw (hteam ▸ h1) (hst ▸ h2) (he ▸ h3), ← hb, ← hrsv]

theorem atArrival_only : OnlyAt t (atArrival t g pa b) pa 24 :=
  OnlyAt.trans (putBar_only t pa (arrivedBar g b)) (OnlyAt.of_mem (congrArg Mem.cells atArrival_mem))

theorem atArrival_groups : (atArrival t g pa b).groups = if lastArrival g b
    then t.groups.map fun k => if (k.onPhase pa b.phase).isSome then k.pass else k else t.groups := by
  unfold atArrival
  split
  · rw [releaseBar_groups, putBar_groups]
  · exact putBar_groups _ _ _

/-- What an arrival leaves: the object and those waiting on it, or, where too few live ranks are left, a broken object and the traps of
those waiting (09 R247, R248). -/
theorem arrival_spec {live : BitVec 128} {b' : BarObj} {gs : List Group} (hw : t.mem.wf = true) (hb : b = t.mem.bar pa)
    (hlive : live = t.liveAt pa) (hb' : b' = arrivedBar g b) (hgs : gs = (atArrival t g pa b).groups) :
    OnlyAt t ((atArrival t g pa b).evalBar pa) pa 24 ∧
      (b.st ≠ 1 ∨ b.e ≤ count128 (live &&& ~~~b'.arrived) + count128 b'.arrived →
        ((atArrival t g pa b).evalBar pa).mem.bar pa = b' ∧ ((atArrival t g pa b).evalBar pa).groups = gs) ∧
      (b.st = 1 → count128 (live &&& ~~~b'.arrived) + count128 b'.arrived < b.e →
        ((atArrival t g pa b).evalBar pa).mem.bar pa = { b' with st := 2 } ∧
        ((atArrival t g pa b).evalBar pa).groups = gs.map fun h => ((h.onPhase pa b'.phase).map fun va =>
          ({ h with wait := .none, progIdx := 0, pend := some (b'.unreachable live va) } : Group)).getD h) := by
  subst hb' hgs hlive
  obtain ⟨-, hst, he, -⟩ := arrivedBar_fixed (g := g) (b := b)
  have hbar := atArrival_bar (g := g) hw hb
  obtain ⟨honly, hstands, hbreaks⟩ := evalBar_spec (atArrival_only hw).1 hbar atArrival_liveAt
  refine ⟨OnlyAt.trans atArrival_only honly, fun h => ?_, fun h1 h2 => hbreaks (hst.trans h1) (by rwa [he])⟩
  rw [hstands (by rwa [hst, he])]
  exact ⟨hbar, rfl⟩

end

/-! The instructions -/

section
variable {i : Instr} {o : M64} {s s1 t : State} {g : Group} {e : Env} {x : Loc} {a : Access} {b : BarObj} {va : Nat}
  {body : State → Env → R} {init : Option Nat} {arriving : Bool} {go : State → Nat → Nat → BarObj → R}

/-- A barrier instruction at its object's landing, by the context's own group and with a legal count (09 R245, R246). -/
structure AtBar (o : M64) (a : Access) (init : Option Nat) (s1 : State) (e : Env) (x : Loc) (t : State) (b : BarObj) (va : Nat) : Prop where
  place : OneHere a (memOp (s1.ctx e.g.ctx) e.g o 64) s1 e x t
  whole : e.g.sibling = false
  count : ∀ n, init = some n → 0 < n ∧ n ≤ 128
  object : b = t.mem.bar x.pa
  named : va = memAddr (s1.ctx e.g.ctx) e.g o (lowLane e.act)

theorem AtBar.groups (hk : AtBar o a init s1 e x t b va) : t.groups = (s1.setGroup e.g).groups := (one_walked hk.place).groups

theorem AtBar.touched (hk : AtBar o a init s1 e x t b va) : (t.touch x.pa 64).groups = (s1.setGroup e.g).groups :=
  (touch_groups _ _ _).trans hk.groups

theorem touch_bar (t : State) (pa n : Nat) : (t.touch pa n).mem.bar pa = t.mem.bar pa := bar_cells (touch_cells _ _ _) _

theorem touch_liveAt (t : State) (pa n : Nat) : (t.touch pa n).liveAt pa = t.liveAt pa := liveAt_eq (touch_barLive _ _ _) _

/-- A check of R246 that fails ends the instruction. -/
theorem exec_barTrap {k : Nat} (hk : AtBar o a init s1 e x t b va) (h : Issues i s s1 g e) (hx : exec i s = issue i s body)
    (hb : body (s1.setGroup e.g) e = barOp i o a init arriving (s1.setGroup e.g) e go)
    (hc : barCheck t e.g x.pa b init.isSome arriving = some k) : exec i s = .next (trapped t g 0 (barTrap k va)) := by
  refine exec_trap_here h hx hk.groups (hb.trans ?_)
  rw [barOp_here hk.place hk.whole hk.count, ← hk.object, hc, ← hk.named]

/-- One that passes them reads its object. -/
theorem barOp_go (hk : AtBar o a init s1 e x t b va) (hc : barCheck t e.g x.pa b init.isSome arriving = none) :
    barOp i o a init arriving (s1.setGroup e.g) e go = go (t.touch x.pa 64) x.pa va b := by
  rw [barOp_here hk.place hk.whole hk.count, ← hk.object, hc, ← hk.named]

/-- An object that passes the checks has no reserved byte set. -/
theorem rsv_of_barCheck {pa : Nat} {ini : Bool} (hc : barCheck t g pa b ini arriving = none) : b.rsv = false := by
  unfold barCheck at hc
  by_contra hr
  rw [if_pos (.inr (.inl (by simpa using hr)))] at hc
  cases hc

/-! BAR.INIT -/

theorem register_mem (s : State) (g : Group) (pa : Nat) : (s.register g pa).mem = s.mem := by
  unfold State.register
  split
  · rfl
  · split <;> rfl

theorem register_groups (s : State) (g : Group) (pa : Nat) : (s.register g pa).groups = s.groups := by
  unfold State.register
  split
  · rfl
  · split <;> rfl

/-- An object is registered with its team's record, whose live ranks its home is told (09 R245). -/
theorem register_team {u : State} {pa : Nat} {tm : Team} (ho : g.origin = none) (ht : u.team? g.ctx g.tag g.team = some tm) :
    (u.register g pa).liveAt pa = tm.live ∧ ∃ tm', (u.register g pa).team? g.ctx g.tag g.team = some tm' ∧ pa ∈ tm'.objects := by
  unfold State.register
  simp only [ho, ht]
  refine ⟨by simp [State.liveAt, State.setLive], _, setTeam_find ht rfl rfl rfl, ?_⟩
  dsimp only
  split
  · next hc => exact List.contains_iff_mem.1 hc
  · exact List.mem_append_right _ (List.mem_singleton.2 rfl)

theorem register_origin {u : State} {pa p : Nat} (ho : g.origin = some p) :
    u.register g pa = u.sendPeer p g.l g.anchor (u.ftAt g.l) (.register g.ctx g.tag g.team pa) := by
  unfold State.register
  rw [ho]

/-- The object that BAR.INIT makes. -/
def newBar (e : Env) (n : Nat) : BarObj := ⟨e.g.team, 1, n, 0, 0, false⟩

/-- The machine after BAR.INIT has written and registered its object. -/
def initBar (t : State) (e : Env) (pa n : Nat) : State := ((t.touch pa 64).putBar pa (newBar e n)).register e.g pa

theorem initBar_groups (t : State) (e : Env) (pa n : Nat) : (initBar t e pa n).groups = t.groups :=
  (register_groups _ _ _).trans ((putBar_groups _ _ _).trans (touch_groups _ _ _))

theorem initBar_only (t : State) (e : Env) (pa n : Nat) : OnlyAt t (initBar t e pa n) pa 24 :=
  OnlyAt.trans (OnlyAt.of_mem (touch_cells t pa 64)) (OnlyAt.trans (putBar_only _ pa _) (OnlyAt.of_mem (congrArg Mem.cells (register_mem _ _ _))))

theorem initBar_bar {pa n : Nat} (hw : t.mem.wf = true) (hr : (t.mem.bar pa).rsv = false) (ht : e.g.team < 65536) (hn : n ≤ 128) :
    (initBar t e pa n).mem.bar pa = newBar e n := by
  unfold initBar
  rw [register_mem, putBar_bar (State.touch_wf _ _ hw) ht (by decide : 1 < 256) (Nat.lt_of_le_of_lt hn (by decide)), touch_bar, hr]
  rfl

theorem initBar_team {pa n : Nat} {tm : Team} (ho : e.g.origin = none) (ht : t.team? e.g.ctx e.g.tag e.g.team = some tm) :
    (initBar t e pa n).liveAt pa = tm.live ∧ ∃ tm', (initBar t e pa n).team? e.g.ctx e.g.tag e.g.team = some tm' ∧ pa ∈ tm'.objects := by
  refine register_team ho ?_
  rw [← ht]
  unfold State.team?
  rw [putBar_teams, touch_teams]

theorem exec_barInit {n : Nat} (h : Issues (.barInit o) s s1 g e) (hr : Room e.g) (hk : AtBar o accBar (some n) s1 e x t b va)
    (hn : n = (e.uniform o.b.toNat).toNat) (hc : barCheck t e.g x.pa b true false = none) :
    exec (.barInit o) s = .next ((initBar t e x.pa n).setGroup (e.g.advance (.barInit o))) := by
  subst hn
  exact exec_done h (execBarInit.eq_1 o s) (barOp_go hk hc) rfl hr

/-! BAR.ARRIVE -/

/-- An arrival at a broken object traps. -/
theorem exec_barArrive_broken (h : Issues (.barArrive o) s s1 g e) (hk : AtBar o accBar none s1 e x t b va)
    (hc : barCheck t e.g x.pa b false true = none) (hst : b.st = 2) :
    exec (.barArrive o) s = .next (trapped (t.touch x.pa 64) g 0 (b.unreachable (t.liveAt x.pa) va)) := by
  refine exec_trap_here h (execBarArrive.eq_1 o s) hk.touched ((barOp_go hk hc).trans ?_)
  rw [if_pos hst, touch_liveAt]

theorem exec_barArrive (h : Issues (.barArrive o) s s1 g e) (hd : o.d.toNat < 64) (hr : RoomFor e.g [o.d.toNat] [] [])
    (hk : AtBar o accBar none s1 e x t b va) (hc : barCheck t e.g x.pa b false true = none) (hst : b.st ≠ 2) :
    exec (.barArrive o) s =
      .next (((t.touch x.pa 64).arriveBar e.g x.pa b).2.setGroup ((e.g.writeG e.act o.d.toNat b.phase).advance (.barArrive o))) :=
  exec_done h (execBarArrive.eq_1 o s) ((barOp_go hk hc).trans (if_neg hst)) rfl (laneG hd hr _ _)

/-! Waits -/

/-- A wait on a token, by the object and the token. -/
theorem exec_waitBar {tok : Word} {sync : Bool} (hk : AtBar o a init s1 e x t b va) (h : Issues i s s1 g e) (hr : Room e.g)
    (hx : exec i s = issue i s body) (hb : body (s1.setGroup e.g) e = waitBar (t.touch x.pa 64) i e x.pa va tok sync) :
    (b.st = 2 → exec i s = .next (trapped (t.touch x.pa 64) { g with progIdx := 0 } 0 (b.unreachable (t.liveAt x.pa) va))) ∧
    (b.st ≠ 2 → b.phase ≠ tok → exec i s = .next ((t.touch x.pa 64).setGroup (e.g.advance i))) ∧
    (b.st ≠ 2 → b.phase = tok → exec i s = .next ((t.touch x.pa 64).setGroup
      { g with wait := .bar x.pa va tok sync, progIdx := if sync then 1 else 0 })) := by
  unfold waitBar at hb
  rw [touch_bar, touch_liveAt, ← hk.object] at hb
  refine ⟨fun hst => ?_, fun hst hp => ?_, fun hst hp => ?_⟩
  · exact exec_trap_at (F := fun k => { k with progIdx := 0 }) h hx hk.touched (hb.trans (if_pos hst)) (fun _ => rfl) rfl
  · exact exec_done h hx (hb.trans ((if_neg hst).trans (if_pos hp))) rfl hr
  · exact exec_wait_at (F := fun k => { k with wait := .bar x.pa va tok sync, progIdx := if sync then 1 else 0 }) h hx hk.touched
      (hb.trans ((if_neg hst).trans (if_neg (not_not.2 hp)))) (fun _ => rfl) rfl

theorem execBarWait_waits (hk : AtBar o accBarWait none s1 e x t b va)
    (hc : barCheck t e.g x.pa b false false = none) : ∃ body, exec (.barWait o) s = issue (.barWait o) s body ∧
      body (s1.setGroup e.g) e = waitBar (t.touch x.pa 64) (.barWait o) e x.pa va (e.uniform o.b.toNat) false :=
  ⟨_, execBarWait.eq_1 o s, barOp_go hk hc⟩

/-! BAR.SYNC -/

/-- A BAR.SYNC that has arrived only waits (09 R249). -/
theorem execBarSync_again (hk : AtBar o accBar none s1 e x t b va) (hc : barCheck t e.g x.pa b false false = none)
    (hp : e.g.progIdx = 1) : ∃ body, exec (.barSync o) s = issue (.barSync o) s body ∧
      body (s1.setGroup e.g) e = waitBar (t.touch x.pa 64) (.barSync o) e x.pa va (e.uniform o.d.toNat) true := by
  refine ⟨_, execBarSync.eq_1 o s, ?_⟩
  simp only [hp, beq_self_eq_true, Bool.not_true, if_true]
  exact barOp_go hk hc

/-- A BAR.SYNC that has not arrived arrives, and goes on by whether its arrival was the last, and by whether it broke the object. -/
theorem execBarSync_first {full : Bool} {u : State} {k : Group} (hk : AtBar o accBar none s1 e x t b va)
    (hc : barCheck t e.g x.pa b false true = none) (hp : e.g.progIdx ≠ 1) (hg : k = e.g.writeG e.act o.d.toNat b.phase)
    (hu : (t.touch x.pa 64).arriveBar e.g x.pa b = (full, u)) :
    ∃ body, exec (.barSync o) s = issue (.barSync o) s body ∧ body (s1.setGroup e.g) e =
      if b.st = 2 then .trap (t.touch x.pa 64) (b.unreachable (t.liveAt x.pa) va)
      else if full then done u (.barSync o) k
      else if (u.mem.bar x.pa).st = 2
        then .ok (u.setGroup { k with pend := some ((u.mem.bar x.pa).unreachable (u.liveAt x.pa) va) })
      else .ok (u.setGroup { k with wait := .bar x.pa va b.phase true, progIdx := 1 }) := by
  subst hg
  refine ⟨_, execBarSync.eq_1 o s, ?_⟩
  simp only [beq_eq_false_iff_ne.2 hp, Bool.not_false, Bool.false_eq_true, if_false]
  refine (barOp_go hk hc).trans ?_
  rw [hu, touch_liveAt]

theorem exec_barSync_broken (h : Issues (.barSync o) s s1 g e) (hk : AtBar o accBar none s1 e x t b va)
    (hc : barCheck t e.g x.pa b false true = none) (hp : e.g.progIdx ≠ 1) (hst : b.st = 2) :
    exec (.barSync o) s = .next (trapped (t.touch x.pa 64) g 0 (b.unreachable (t.liveAt x.pa) va)) := by
  obtain ⟨body, hx, hb⟩ := execBarSync_first (s := s) hk hc hp rfl rfl
  exact exec_trap_here h hx hk.touched (hb.trans (if_pos hst))

/-- What a BAR.SYNC at an unbroken object comes to, by what its arrival does. -/
theorem exec_barSync {full : Bool} {u : State} {k : Group} (h : Issues (.barSync o) s s1 g e) (hd : o.d.toNat < 64)
    (hr : RoomFor e.g [o.d.toNat] [] []) (hk : AtBar o accBar none s1 e x t b va) (hc : barCheck t e.g x.pa b false true = none)
    (hp : e.g.progIdx ≠ 1) (hst : b.st ≠ 2) (hg : k = e.g.writeG e.act o.d.toNat b.phase)
    (hu : (t.touch x.pa 64).arriveBar e.g x.pa b = (full, u)) :
    (full = true → exec (.barSync o) s = .next (u.setGroup (k.advance (.barSync o)))) ∧
    (full = false → (u.mem.bar x.pa).st ≠ 2 →
      exec (.barSync o) s = .next (u.setGroup { k with wait := .bar x.pa va b.phase true, progIdx := 1 })) ∧
    (full = false → (u.mem.bar x.pa).st = 2 →
      exec (.barSync o) s = .next (u.setGroup { k with pend := some ((u.mem.bar x.pa).unreachable (u.liveAt x.pa) va) })) := by
  obtain ⟨body, hx, hb⟩ := execBarSync_first (s := s) hk hc hp hg hu
  rw [if_neg hst] at hb
  have hroom : Room k := hg ▸ laneG hd hr _ _
  have huid : k.uid = e.g.uid := hg ▸ rfl
  refine ⟨fun hf => ?_, fun hf h2 => ?_, fun hf h2 => ?_⟩ <;> subst hf
  · exact exec_done h hx (hb.trans (if_pos rfl)) huid hroom
  · exact exec_put h hx (hb.trans ((if_neg Bool.false_ne_true).trans (if_neg h2))) huid (Room.same hroom rfl rfl)
  · exact exec_put h hx (hb.trans ((if_neg Bool.false_ne_true).trans (if_pos h2))) huid (Room.same hroom rfl rfl)

end

end Sys2Proof.Laws

namespace Sys2Proof

open Sys2Proof.Machine Sys2Proof.Laws

/-- Settles O32: each instruction by what it finds at its object, and an arrival by `arrival_spec`. That a broken object whose bit of the
rank is set traps as an arrival there does, and that the object's home holds the live ranks as it is told them, are the model's choices
(log entries 45, 100). -/
theorem barrierObjects : Obligations.BarrierObjects := by
  unfold Obligations.BarrierObjects
  refine ⟨?_, ?_⟩
  · intro o s s1 g e x t v b va w a hva hb hv hw hone hs d broken
    obtain rfl : w = e.uniform := funext hw
    subst hv
    have bar (init : Option Nat) (hn : ∀ n, init = some n → 0 < n ∧ n ≤ 128) : AtBar o a init s1 e x t b va := ⟨hone, hs, hn, hb, hva⟩
    have hk : AtBar o a none s1 e x t b va := bar none fun _ h => by cases h
    refine ⟨?_, ?_, ?_, ?_, ?_⟩
    · rintro i init arriving (⟨rfl, rfl, rfl, rfl, h0, h1⟩ | ⟨rfl, rfl, rfl, rfl⟩ | ⟨rfl, rfl, rfl, rfl⟩ | ⟨rfl, rfl, rfl, rfl⟩) h k hc
      · exact exec_barTrap (bar _ fun n hn => Option.some.inj hn ▸ ⟨h0, h1⟩) h (execBarInit.eq_1 o s) rfl hc
      · exact exec_barTrap hk h (execBarArrive.eq_1 o s) rfl hc
      · exact exec_barTrap hk h (execBarWait.eq_1 o s) rfl hc
      · exact exec_barTrap hk h (execBarSync.eq_1 o s) rfl hc
    · rintro i n rfl rfl h hr hn h0 h1 hteam hc
      refine ⟨_, exec_barInit h hr (bar _ fun m hm => Option.some.inj hm ▸ ⟨h0, h1⟩) hn hc, initBar_groups _ _ _ _, initBar_only _ _ _ _,
        fun hwf => initBar_bar hwf (hb ▸ rsv_of_barCheck hc) hteam h1, fun ho tm ht => initBar_team ho ht, ?_⟩
      rintro p y ho rfl
      exact register_origin ho
    · rintro i rfl rfl h hd hr hc
      exact ⟨exec_barArrive_broken h hk hc, fun hst => ⟨_, wrote_all hd _, exec_barArrive h hd hr hk hc hst⟩⟩
    · rintro i tok sync (⟨rfl, rfl, rfl, rfl⟩ | ⟨rfl, rfl, hp, rfl, rfl⟩) h hr hc
      · obtain ⟨body, hx, hbody⟩ := execBarWait_waits (s := s) hk hc
        exact exec_waitBar hk h hr hx hbody
      · obtain ⟨body, hx, hbody⟩ := execBarSync_again (s := s) hk hc hp
        exact exec_waitBar hk h hr hx hbody
    · rintro i rfl rfl h hd hr hp hc
      exact ⟨exec_barSync_broken h hk hc hp, fun hst => ⟨_, _, wrote_all hd _, rfl, fun full u hu =>
        exec_barSync h hd hr hk hc hp hst rfl hu⟩⟩
  · rintro t u g pa b b' full gs arr live hw hb hu rfl hlive hfull hb' hgs
    rw [arriveBar_eq] at hu
    obtain ⟨rfl, rfl⟩ := hu
    exact arrival_spec hw hb hlive hb' (hgs.trans atArrival_groups.symm)

end Sys2Proof
end

section
/-! PROOF. Continuations (02 R46; 09 R242, R243): PARK writes the image of a whole, sealed context and leaves the berth; WAKE looks at the
armed flag of an image and submits what it finds legal. -/

namespace Sys2Proof.Laws

open Sys2Proof.Machine

variable {o : M64} {s s1 t : State} {g : Group} {e : Env} {x : Loc}

/-! PARK -/

/-- The context as PARK writes it: past the instruction, with what it ships, not armed. -/
def parking (s1 : State) (e : Env) (o : M64) : Group :=
  { (s1.setGroup e.g).ship (e.g.advance (.park o)) e.m (srcsOf e.g (.park o)).v (srcsOf e.g (.park o)).p (srcsOf e.g (.park o)).h with
    armed := false, la := [] }

/-- A PARK of a whole context with no older frame, none of whose posts is on its way, of a legal extent and to an address that passes the
checks (09 R242). -/
structure MayPark (s1 : State) (e : Env) (o : M64) (ext : Nat) (x : Loc) (t : State) : Prop where
  extent : ext = (e.g.frame.lane o.b.toNat (lowLane e.act)).toNat
  lines : ext % 64 = 0
  least : 128 ≤ ext
  most : ext ≤ 2 ^ 20
  place : OneAddr true accPark (memOp (s1.ctx e.g.ctx) e.g o 64) s1 e x t
  whole : e.act = e.g.active
  ours : (s1.setGroup e.g).ownPosts e.g = false
  older : e.g.older = []

namespace MayPark

variable {ext : Nat} (hp : MayPark s1 e o ext x t)
include hp

theorem resolved : ∃ k, resolveOne (s1.setGroup e.g) e accPark true false (memOp ((s1.setGroup e.g).ctx e.g.ctx) e.g o 64)
    (if (e.uniform o.b.toNat).toNat % 64 ≠ 0 ∨ (e.uniform o.b.toNat).toNat < 128 ∨ 2 ^ 20 < (e.uniform o.b.toNat).toNat
      then some (illegalTrap 2 12 8) else none) = .ok ((k, x), t) := by
  have hext : (e.uniform o.b.toNat).toNat = ext := hp.extent.symm
  have := hp.lines
  have := hp.least
  have := hp.most
  rw [hext, if_neg (by omega)]
  exact resolveOne_addr hp.place false fun h => by cases h

theorem rest : (e.rest != 0) = false := by
  unfold Env.rest
  rw [hp.whole]
  simp

theorem needSealed : (s1.setGroup e.g).needSealed e.g = none := by
  unfold State.needSealed
  rw [hp.older]
  rfl

/-- An image that its extent does not hold traps (09 R242). -/
theorem exec_short (h : Issues (.park o) s s1 g e) (hs : ext < imageRoom (parking s1 e o)) :
    exec (.park o) s = .next (trapped s1 g 0 (mkTrap 20 ((s1.setGroup e.g).image (parking s1 e o)).length)) := by
  obtain ⟨k, hk⟩ := hp.resolved
  rw [hp.extent] at hs
  refine exec_trap h (execPark.eq_1 o s) ?_
  simp only [hk, hp.rest, hp.ours, hp.needSealed, Bool.false_eq_true, if_false]
  exact if_pos hs

section
variable {x0 : Loc} {xs : List Loc} {t1 t2 t3 : State} {flag : Byte}
  (hs : imageRoom (parking s1 e o) ≤ ext)
  (h1 : t.translateLines e.g.l e.g.ctx accPark ((memOp (s1.ctx e.g.ctx) e.g o 64).va (lowLane e.act)) (imageRoom (parking s1 e o) / 64) =
    .ok (x0 :: xs, t1))
  (h2 : t1.writeBlock (parking s1 e o) = .ok t2)
  (h3 : t3 = t2.putLines e.g.l (s1.ctx e.g.ctx).pl (x0 :: xs) (pad64 ((s1.setGroup e.g).image (parking s1 e o))))
  (hf : flag = ((((s1.setGroup e.g).image (parking s1 e o)).getD 27 (0, false)).1 ||| 16))
include hs h1 h2 h3 hf

/-- PARK writes the image unarmed, then its armed flag, at the home or in a request to the peer module, and leaves the berth. -/
theorem writes : ∃ body, exec (.park o) s = issue (.park o) s body ∧
    (x0.peer = none → body (s1.setGroup e.g) e = .ok (((t3.store (x0.pa + 27) [flag] false).keepToks e.g.ctx (imageKey x0.pa) e.g.uid
      e.g.origin (parking s1 e o).frame true).leaveBerth e.g)) ∧
    ∀ p, x0.peer = some p → body (s1.setGroup e.g) e =
      .ok ((t3.putLine e.g.l (s1.ctx e.g.ctx).pl { x0 with pa := x0.pa + 27 } [(flag, false)]).leaveBerth e.g) := by
  obtain ⟨k, hk⟩ := hp.resolved
  rw [hp.extent] at hs
  subst h3 hf
  refine ⟨_, execPark.eq_1 o s, fun hx => ?_, fun p hx => ?_⟩
  all_goals
    simp only [hk, hp.rest, hp.ours, hp.needSealed, Bool.false_eq_true, if_false]
    refine (if_neg (Nat.not_lt.2 hs)).trans ?_
    unfold parking at h1 h2
    rw [ctx_setGroup]
    simp only [h1, h2, List.headD_cons, hx]
    rfl

/-- A context whose image lies in the module leaves its berth, its image armed by the last write. -/
theorem exec_home (h : Issues (.park o) s s1 g e) (hx : x0.peer = none) : ∃ u, exec (.park o) s = .next u ∧
    u.groups = t3.groups.filter (fun k => k.uid != e.g.uid) ∧
    (t3.mem.wf = true → ∀ a, u.mem.byte a = if a = x0.pa + 27 then flag else t3.mem.byte a) := by
  obtain ⟨body, hbody, hhome, -⟩ := hp.writes (s := s) hs h1 h2 h3 hf
  refine ⟨_, exec_ok h hbody (hhome hx) (leave_none _ _ (issues_uid h)), ?_, fun hw a => ?_⟩
  · exact congrArg (List.filter fun k : Group => k.uid != e.g.uid) (store_groups t3 (x0.pa + 27) [flag] false)
  · have hm : (t3.store (x0.pa + 27) [flag] false).mem = t3.mem.put (x0.pa + 27) [flag] false :=
      congrArg (fun m : Mem => m.put (x0.pa + 27) [flag] false) (State.beats_mem t3 _)
    refine (congrArg (fun m : Mem => m.byte a) hm).trans ((Mem.byte_put _ _ _ _ hw).trans ?_)
    by_cases ha : a = x0.pa + 27
    · subst ha
      simp
    · rw [if_neg ha, if_neg (by simp only [List.length_singleton]; omega)]

theorem exec_peer {p : Nat} (h : Issues (.park o) s s1 g e) (hx : x0.peer = some p) : exec (.park o) s =
    .next ((t3.putLine e.g.l (s1.ctx e.g.ctx).pl { x0 with pa := x0.pa + 27 } [(flag, false)]).leaveBerth e.g) := by
  obtain ⟨body, hbody, -, hpeer⟩ := hp.writes (s := s) hs h1 h2 h3 hf
  exact exec_ok h hbody (hpeer p hx) (leave_none _ _ (issues_uid h))

end

end MayPark

/-! WAKE -/

/-- Reading an image changes memory and the landings alone. -/
theorem walked_imageAt {s t : State} {l ctx va : Nat} {x : Loc} {bs : List Byte} {runs : List (Nat × Nat)}
    (h : s.imageAt l ctx va x = .ok (bs, runs, t)) : Walked s t := by
  unfold State.imageAt at h
  dsimp only at h
  split at h
  · obtain ⟨-, -, rfl⟩ := h
    exact Walked.refl s
  · split at h
    · cases h
    · next y s1 hy =>
      obtain ⟨-, -, rfl⟩ := h
      exact walked_translate hy

/-- A WAKE at an image before which no post of its context stands. -/
structure AtImage (s1 : State) (e : Env) (o : M64) (x : Loc) (t : State) : Prop where
  place : OneAddr true accWake (memOp (s1.ctx e.g.ctx) e.g o 64) s1 e x t
  ours : t.ownPosts e.g = false ∨ home x.pa ≠ e.g.l

namespace AtImage

variable (hk : AtImage s1 e o x t)
include hk

theorem resolved : ∃ k, resolveOne (s1.setGroup e.g) e accWake true false (memOp ((s1.setGroup e.g).ctx e.g.ctx) e.g o 64) none =
    .ok ((k, x), t) :=
  resolveOne_addr hk.place false fun h => by cases h

theorem free : (t.ownPosts e.g && home x.pa == e.g.l) = false := by
  rcases hk.ours with hl | hl
  · rw [hl]
    rfl
  · rw [beq_eq_false_iff_ne.2 hl, Bool.and_false]

/-- An image that is not armed is only read (09 R243). -/
theorem exec_unarmed (h : Issues (.wake o) s s1 g e) (hd : o.d.toNat < 64) (hr : RoomFor e.g [o.d.toNat] [] [])
    (ha : (t.mem.byte (x.pa + 27)).getLsbD 4 = false) : exec (.wake o) s =
      .next ((t.touch x.pa 64).setGroup (((e.g.writeG e.act o.d.toNat 0).laLines (.wake o) [x.pa]).advance (.wake o))) := by
  obtain ⟨k, hres⟩ := hk.resolved
  refine exec_memDone h (execWake.eq_1 o s) ?_ rfl (laneG hd hr _ _)
  simp only [hres, hk.free, ha, Bool.not_false, Bool.false_eq_true, if_false, if_true]

section
variable {bs : List Byte} {runs : List (Nat × Nat)} {u : State} (h : Issues (.wake o) s s1 g e)
  (ha : (t.mem.byte (x.pa + 27)).getLsbD 4 = true)
  (hi : t.imageAt e.g.l e.g.ctx ((memOp (s1.ctx e.g.ctx) e.g o 64).va (lowLane e.act)) x = .ok (bs, runs, u))
include h ha hi

/-- An armed image that fails a check traps (02 R47; 09 R243). -/
theorem exec_illegal {k : Nat} (hc : u.imageCheck e.g.ctx false bs = some k) : exec (.wake o) s = .next (trapped u g 0
    ⟨19, BitVec.ofNat 64 k, BitVec.ofNat 64 ((memOp (s1.ctx e.g.ctx) e.g o 64).va (lowLane e.act))⟩) := by
  obtain ⟨j, hres⟩ := hk.resolved
  refine exec_trap_here h (execWake.eq_1 o s) (((addr_walked hk.place).trans (walked_imageAt hi)).groups) ?_
  simp only [hres, hk.free, ha, Bool.not_true, Bool.false_eq_true, if_false]
  rw [ctx_setGroup]
  simp only [hi, hc]

/-- One that passes them is submitted. -/
theorem exec_claims (hd : o.d.toNat < 64) (hr : RoomFor e.g [o.d.toNat] [] []) (hc : u.imageCheck e.g.ctx false bs = none) :
    exec (.wake o) s = .next (((runs.foldl (fun (z : State) r => z.sense r.1 r.2) (u.beats runs)).claimImage e.g.ctx x.pa bs).setGroup
      (((e.g.writeG e.act o.d.toNat 1).laLines (.wake o) [x.pa]).advance (.wake o))) := by
  obtain ⟨j, hres⟩ := hk.resolved
  refine exec_memDone h (execWake.eq_1 o s) ?_ rfl (laneG hd hr _ _)
  simp only [hres, hk.free, ha, Bool.not_true, Bool.false_eq_true, if_false]
  rw [ctx_setGroup]
  simp only [hi, hc]

end

end AtImage

end Sys2Proof.Laws

namespace Sys2Proof

open Sys2Proof.Machine Sys2Proof.Laws

/-- Settles O33: PARK by whether its extent holds the image and by where the image lies, WAKE by the armed flag and the checks of the
image. -/
theorem continuations : Obligations.Continuations := by
  unfold Obligations.Continuations
  rintro o s s1 g e op rfl
  refine ⟨?_, ?_⟩
  · rintro i ext x t h xs t1 t2 t3 x0 rfl hi hext h64 hlo hhi hk ha ho hold rfl
    have hp : MayPark s1 e o ext x t := ⟨hext, h64, hlo, hhi, hk, ha, ho, hold⟩
    exact ⟨hp.exec_short hi, fun hs h1 h2 h3 flag hf => ⟨hp.exec_home hs h1 h2 h3 hf hi, fun p => hp.exec_peer hs h1 h2 h3 hf hi⟩⟩
  · rintro i x t armed rfl h hk hd hr hl harm
    have hw : AtImage s1 e o x t := ⟨hk, hl⟩
    refine ⟨fun h0 => ⟨_, wrote_all hd _, hw.exec_unarmed h hd hr (harm.symm.trans h0)⟩, fun h1 bs runs u hi => ⟨fun k hc => ?_, fun hc => ?_⟩⟩
    · exact hw.exec_illegal h (harm.symm.trans h1) hi hc
    · exact ⟨_, wrote_all hd _, hw.exec_claims h (harm.symm.trans h1) hi hd hr hc⟩

end Sys2Proof
end

section
/-! PROOF. Queue instructions (09 R250; 20 R391, R392, R394): the traps of a page that is no queue's, and what QPUSH and QPOP do to the
entries. -/

namespace Sys2Proof.Laws

open Sys2Proof.Machine

/-! Memory -/

section
variable {t : State} {q : Queue}

theorem room_le (q : Queue) : q.room ≤ 2 ^ q.qsize := by
  unfold Queue.room Queue.free
  split
  · exact Nat.zero_le _
  · exact Nat.sub_le _ _

theorem queueAppend_groups (xs : List (Nat × Bool)) : (t.queueAppend q xs).groups = t.groups :=
  (queueLay_groups _ _ _ _).trans (beats_groups _ _)

/-- An append writes the free slots from the tail on, and no other byte (20 R391). -/
theorem queueAppend_mem {xs : List (Nat × Bool)} (hl : xs.length ≤ 2 ^ q.qsize) (hw : t.mem.wf = true) :
    (t.queueAppend q xs).mem.wf = true ∧
      (∀ a, (∀ k < xs.length, ¬(q.slot (q.tail.toNat + k) ≤ a ∧ a < q.slot (q.tail.toNat + k) + q.esb)) →
        (t.queueAppend q xs).mem.byte a = t.mem.byte a) ∧
      ∀ k x, xs[k]? = some x → (t.queueAppend q xs).mem.num (q.slot (q.tail.toNat + k)) q.esb = x.1 % 256 ^ q.esb := by
  have h := queueLay_mem q xs 0 (t.beats ((List.range xs.length).map fun i => (q.slot (q.tail.toNat + i), q.esb)) true)
    (by rwa [State.beats_mem]) (by omega)
  simp only [State.beats_mem, Nat.zero_add] at h
  exact h

/-- A removal reads the oldest entries and leaves every byte as it was. -/
theorem queueTake_spec (t : State) (q : Queue) (n : Nat) : (t.queueTake q n).1 = (List.range n).map (t.mem.entry q) ∧
    (t.queueTake q n).2.groups = t.groups ∧ ∀ a, (t.queueTake q n).2.mem.byte a = t.mem.byte a := by
  obtain ⟨hcells, hgroups⟩ := sense_range_cells (fun i => q.slot (q.head.toNat + i)) q.esb (List.range n)
    (t.beats ((List.range n).map fun i => (q.slot (q.head.toNat + i), q.esb)))
  exact ⟨rfl, hgroups.trans (beats_groups _ _), byte_cells (hcells.trans (congrArg Mem.cells (State.beats_mem _ _)))⟩

end

/-! Registers -/

/-- The result of a lane of QPOP: its entry where it is served, else 0. -/
theorem popped_lane {ls : List Nat} {f : Nat → Nat × Bool} {got : Nat → Nat × Bool} (hn : ls.Nodup)
    (hgot : ∀ k l, ls[k]? = some l → got l = f k) (hrest : ∀ l, l ∉ ls → got l = (0, false)) (l : Nat) :
    (laneVal (ls.zip ((List.range ls.length).map f)) l, laneBad (ls.zip ((List.range ls.length).map f)) l) = got l := by
  unfold laneVal laneBad
  by_cases hl : l ∈ ls
  · obtain ⟨k, hk, rfl⟩ := List.getElem_of_mem hl
    have hk' : ls[k]? = some ls[k] := List.getElem?_eq_getElem hk
    rw [zip_find hn (by simp) hk', List.getElem?_map, List.getElem?_range hk, hgot k _ hk']
    rfl
  · have : (ls.zip ((List.range ls.length).map f)).find? (fun r => r.1 == l) = none := by
      rw [List.find?_eq_none]
      rintro ⟨m, y⟩ hm hc
      exact hl ((by simpa using hc : m = l) ▸ (List.of_mem_zip hm).1)
    rw [this, hrest l hl]
    rfl

/-! The instructions -/

section
variable {i : Instr} {o : M64} {s s1 t : State} {g : Group} {e : Env} {x : Loc} {a : Access} {q : Queue} {n va : Nat}
  {body : State → Env → R} {go : State → Nat → Queue → R}
  (hn : n = sizeBytes o.size) (hva : va = (memOp (s1.ctx e.g.ctx) e.g o n).va (lowLane e.act))
  (hk : OneHere a (memOp (s1.ctx e.g.ctx) e.g o n) s1 e x t)
include hn hva hk

/-- A page that is no queue's traps the lanes of ACTIVE. -/
theorem exec_queue_none (h : Issues i s s1 g e) (hx : exec i s = issue i s body)
    (hb : body (s1.setGroup e.g) e = queueOp i o a (s1.setGroup e.g) e go)
    (hq : x.pageBits ≠ 17 ∨ t.queueAt e.g.ctx (x.pa / 0x20000 * 0x20000) = none) :
    exec i s = .next (trapped s1 g 0 (laneTrap 8 2 e.act va)) := by
  subst hn hva
  refine exec_trap h hx (hb.trans ((queueOp_here hk).trans ?_))
  have : (if x.pageBits = 17 then t.queueAt e.g.ctx (x.pa / 0x20000 * 0x20000) else none) = none := by
    split
    · next hp => exact hq.resolve_left fun h => h hp
    · rfl
  rw [this]

section
variable (hp : x.pageBits = 17) (hq : t.queueAt e.g.ctx (x.pa / 0x20000 * 0x20000) = some q)
include hp hq

/-- Entries of another size trap. -/
theorem exec_queue_size (h : Issues i s s1 g e) (hx : exec i s = issue i s body)
    (hb : body (s1.setGroup e.g) e = queueOp i o a (s1.setGroup e.g) e go) (hs : q.esb ≠ n) :
    exec i s = .next (trapped s1 g 0 ⟨25, BitVec.ofNat 64 n, BitVec.ofNat 64 va⟩) := by
  subst hn hva
  refine exec_trap h hx (hb.trans ((queueOp_here hk).trans ?_))
  simp only [if_pos hp, hq, if_pos hs]

theorem queueOp_go (hs : q.esb = n) : queueOp i o a (s1.setGroup e.g) e go = go t x.pa q := by
  subst hn
  rw [queueOp_here hk]
  simp only [if_pos hp, hq, hs, ne_eq, not_true_eq_false, if_false]

/-- QPUSH appends the data of the lanes there is room for (20 R391, R392). -/
theorem exec_qpush {ls : List Nat} {bad : Nat → Bool} {p : Nat} (ha : a = accQueue) (h : Issues (.qpush o) s s1 g e) (hs : q.esb = n)
    (hl : ls = (lanesOf e.act).take q.room) (hbad : bad = e.g.frame.badRun o.b.toNat (sizeRegs o.size)) (hd : p = o.d.toNat)
    (hr : RoomFor e.g [] [p] []) :
    exec (.qpush o) s = .next (((t.queueAppend q (ls.map fun l => (dataLane e.g.frame o.b.toNat (sizeRegs o.size) n l, bad l))).setQueue
      (home x.pa) { q with tail := q.tail + BitVec.ofNat 32 ls.length }).setGroup
        (({ e.g.pstore (failMask ls) bad with frame := e.g.frame.writePred e.act p (failMask ls) }.laLines (.qpush o) [x.pa]).advance
          (.qpush o))) := by
  subst ha hl hbad hd
  refine exec_memDone h (execQpush.eq_1 o s) ((queueOp_go hn hva hk hp hq hs).trans ?_) (pstore_uid e.g _ _) (room_pstore_frame (room_pred hr) _ _)
  rw [hs]

/-- QPOP takes the oldest entries, one for each lane it serves (20 R391, R392). -/
theorem exec_qpop {ls : List Nat} {p : Nat} {res : List (Nat × Nat × Bool)} {f : Frame} (ha : a = accQpop) (h : Issues (.qpop o) s s1 g e)
    (hs : q.esb = n) (hl : ls = (lanesOf e.act).take q.held) (hres : res = ls.zip (t.queueTake q ls.length).1) (hd : p = o.b.toNat)
    (hr : RoomFor e.g (loadRegs o.size o.d.toNat) [p] [])
    (hf : f = e.g.frame.writeLoad e.g.active e.act o.d.toNat o.size .g (laneVal res) (laneBad res)) :
    exec (.qpop o) s = .next (((t.queueTake q ls.length).2.setQueue (home x.pa)
      { q with head := q.head + BitVec.ofNat 32 ls.length }).setGroup
        (({ e.g with frame := f.writePred e.act p (failMask ls) }.laLines (.qpop o) [x.pa]).advance (.qpop o))) := by
  subst ha hl hres hd hf
  exact exec_memDone h (execQpop.eq_1 o s) (queueOp_go hn hva hk hp hq hs) rfl (room_popped hr _ _ _ _ _ _ _)

end

end

end Sys2Proof.Laws

namespace Sys2Proof

open Sys2Proof.Machine Sys2Proof.Laws

/-- Settles O34: both go through `queueOp`, whose checks trap; then an append, or a removal whose entries the lanes take. That the trap of
a page that is no queue's records all the lanes of ACTIVE is the model's choice (log entry 35). -/
theorem queues : Obligations.Queues := by
  unfold Obligations.Queues
  rintro o s s1 g e n va op x t ls a hn rfl hva hk
  refine ⟨fun i hi h => ?_, fun q hp hq hs => ⟨?_, ?_⟩⟩
  · obtain ⟨body, go, hx, hb⟩ : ∃ body go, exec i s = issue i s body ∧ body (s1.setGroup e.g) e = queueOp i o a (s1.setGroup e.g) e go := by
      obtain ⟨rfl, rfl⟩ | ⟨rfl, rfl⟩ := hi
      · exact ⟨_, _, execQpush.eq_1 o s, rfl⟩
      · exact ⟨_, _, execQpop.eq_1 o s, rfl⟩
    exact ⟨exec_queue_none hn hva hk h hx hb, fun q hp hq hs => exec_queue_size hn hva hk hp hq h hx hb hs⟩
  · rintro i p bad rfl ha h hd h8 hr hl hbad
    have hlen : (ls.map fun l => (dataLane e.g.frame o.b.toNat (sizeRegs o.size) n l, bad l)).length ≤ 2 ^ q.qsize := by
      rw [List.length_map, hl]
      exact (List.length_take_le _ _).trans (room_le q)
    refine ⟨_, _, failMask_list ls _ _ h8, exec_qpush hn hva hk hp hq ha h hs hl (funext hbad) hd hr, queueAppend_groups _, fun hw => ?_⟩
    obtain ⟨hwf, hout, hin⟩ := queueAppend_mem hlen hw
    rw [List.length_map, hs] at hout
    refine ⟨hwf, hout, fun k l hk => ?_⟩
    rw [← dataLane_mod, ← hs]
    rw [← hs] at hin
    exact hin k _ (by rw [List.getElem?_map, hk]; rfl)
  · rintro i p rfl ha h hd h8 hdr hr hl got hgot hrest
    obtain ⟨htake, hgroups, hbyte⟩ := queueTake_spec t q ls.length
    have hnd : ls.Nodup := hl ▸ (lanes_nodup _).sublist (List.take_sublist _ _)
    refine ⟨_, _, _, ?_, failMask_list ls _ _ h8, exec_qpop hn hva hk hp hq ha h hs hl rfl hd hr rfl, hgroups, hbyte⟩
    refine wrote_results (got := fun l => (laneVal _ l, laneBad _ l)) hdr fun l _ => ?_
    rw [htake]
    exact popped_lane hnd hgot hrest l

end Sys2Proof
end

section
/-! PROOF. Claims of a matrix unit (10 R264, R265; 11 R264, R275, R280, R281, R291, R293): the checks for a team that does not hold its
unit, and MCLAIM, MRELEASE, MWAIT and MPROG by what they find at it. -/

namespace Sys2Proof.Laws

open Sys2Proof.Machine

/-! Who holds a unit -/

/-- The team that holds the unit of the group's core, or for whose parked claim it is set aside (R280). -/
def claimant (t : State) (e : Env) : Option (Nat × Nat × Nat) :=
  (t.unit e.g.l e.g.core).holder.or (t.setAside (t.unit e.g.l e.g.core).l (t.unit e.g.l e.g.core).core)

/-- A group may look at its unit: no plain store of its own is still on its way to its home (05 R137), and its rank has no trap to take
for a lost claim (10 R270). -/
structure MayLook (t : State) (e : Env) : Prop where
  idle : t.plainBusy e.g.uid = false
  kept : t.lostClaim e.g = false

section
variable {u : MUnit} {key : Nat × Nat × Nat}

theorem claimTrap_of_unclaimed (h : u.holder = none) : claimTrap u key = some (mkTrap 26 (1 + 2 ^ 32 * 0xFFFF)) := by
  unfold claimTrap
  rw [h]

theorem claimTrap_of_other {k : Nat × Nat × Nat} (h : u.holder = some k) (hk : k ≠ key) :
    claimTrap u key = some (mkTrap 26 (2 + 2 ^ 32 * k.2.2)) := by
  unfold claimTrap
  rw [h]
  exact if_pos hk

theorem claimTrap_of_releasing (h : u.holder = some key) (hq : (u.queue.any fun c => c.op.isRelease) = true) :
    claimTrap u key = some (mkTrap 26 (3 + 2 ^ 32 * key.2.2)) := by
  unfold claimTrap
  rw [h]
  exact (if_neg (not_not.2 rfl)).trans (if_pos hq)

end

/-- A team that does not hold the unit fails check 1 of R275. -/
theorem matrixChecks_claimTrap {t : State} {e : Env} {regs : List Nat} {trap : Trap} (hl : MayLook t e)
    (hc : claimTrap { t.unit e.g.l e.g.core with holder := claimant t e } e.g.teamKey = some trap) :
    matrixChecks t e regs = some (.trap t trap) := by
  unfold claimant at hc
  unfold matrixChecks
  simp only [hl.idle, hl.kept, hc, Bool.false_eq_true, if_false]

/-! The instructions -/

section
variable {i : Instr} {o : T64} {s s1 : State} {g : Group} {e : Env} {u : MUnit}

/-- The commands without operands in memory, and MWAIT before it waits, begin with checks 1 and 2 of R275. -/
theorem exec_checksFirst (hi : i ∈ ([.mrelease o, .mzero o, .mwait o, .mread o, .mstat o, .mprog o] : List Instr)) (hm : e.g.mark = none) :
    ∃ body, exec i s = issue i s body ∧ ∀ t r, matrixChecks t e [] = some r → body t e = r := by
  simp only [List.mem_cons, List.not_mem_nil, or_false] at hi
  obtain rfl | rfl | rfl | rfl | rfl | rfl := hi
  · exact ⟨_, execMrelease.eq_1 o s, fun t r hc => by simp only [hc]⟩
  · exact ⟨_, execMzero.eq_1 o s, fun t r hc => by simp only [hc]⟩
  · exact ⟨_, execMwait.eq_1 o s, fun t r hc => by simp only [hm, hc]⟩
  · exact ⟨_, execMread.eq_1 o s, fun t r hc => by simp only [queueRead, hc]⟩
  · exact ⟨_, execMstat.eq_1 o s, fun t r hc => by simp only [queueRead, hc]⟩
  · exact ⟨_, execMprog.eq_1 o s, fun t r hc => by simp only [hc]⟩

/-- Each of them traps where the team does not hold the unit. -/
theorem exec_claimTrap {trap : Trap} (h : Issues i s s1 g e)
    (hi : i ∈ ([.mrelease o, .mzero o, .mwait o, .mread o, .mstat o, .mprog o] : List Instr)) (hm : e.g.mark = none)
    (hl : MayLook (s1.setGroup e.g) e)
    (hc : claimTrap { s1.unit e.g.l e.g.core with holder := claimant (s1.setGroup e.g) e } e.g.teamKey = some trap) :
    exec i s = .next (trapped s1 g 0 trap) := by
  obtain ⟨body, hx, hb⟩ := exec_checksFirst (s := s) hi hm
  exact exec_trap h hx (hb _ _ (matrixChecks_claimTrap hl hc))

/-! MCLAIM -/

/-- The group after an MCLAIM that says in predicate `d` whether the team holds the unit: one that does is pinned to its core. -/
def claimed (g : Group) (act : Mask) (d : Nat) (ok : Bool) : Group :=
  let h : Group := { g with frame := g.frame.writePred act d (if ok then act else 0) }
  if ok then { h with pinned := true, affL := g.l, affC := g.core } else h

theorem claimed_uid (g : Group) (act : Mask) (d : Nat) (ok : Bool) : (claimed g act d ok).uid = g.uid := by cases ok <;> rfl

theorem room_claimed {d : Nat} (hr : RoomFor g [] [d] []) (act : Mask) (ok : Bool) : Room (claimed g act d ok) := by
  cases ok
  · exact room_pred hr
  · exact Room.same (room_pred hr) rfl rfl

/-- The predicate holds the answer in every lane of ACTIVE. -/
theorem wrotePred_answer (f : Frame) (act : Mask) {d : Nat} (hd : d < 8) (ok : Bool) :
    WrotePred f (f.writePred act d (if ok then act else 0)) act d fun _ => ok :=
  wrotePred_congr (wrotePred f act hd _) fun l _ ha => by cases ok <;> simp [ha]

/-- An unclaimed unit is the team's, with everything in it cleared but its numbers of commands. -/
theorem exec_mclaim_free (h : Issues (.mclaim o) s s1 g e) (hr : RoomFor e.g [] [o.d.toNat] []) (hl : MayLook (s1.setGroup e.g) e)
    (hu : u = s1.unit e.g.l e.g.core) (hc : claimant (s1.setGroup e.g) e = none) :
    exec (.mclaim o) s = .next ((s1.setUnit { MUnit.clear u.l u.core with
      holder := some e.g.teamKey, accepted := u.accepted, done := u.done }).setGroup ((claimed e.g e.act o.d.toNat true).advance (.mclaim o))) := by
  subst hu
  unfold claimant at hc
  refine put_group (t := s1.setUnit _) h (execMclaim.eq_1 o s) ?_ (claimed_uid e.g e.act _ true) (room_claimed hr e.act true)
  simp only [hl.idle, hl.kept, hc, Bool.false_eq_true, if_false]
  rfl

/-- A unit that is claimed stays as it is: the team holds it where the claim is its own and its release is not queued. -/
theorem exec_mclaim_held {k : Nat × Nat × Nat} {ok : Bool} (h : Issues (.mclaim o) s s1 g e) (hr : RoomFor e.g [] [o.d.toNat] [])
    (hl : MayLook (s1.setGroup e.g) e) (hc : claimant (s1.setGroup e.g) e = some k)
    (hok : (k == e.g.teamKey && !(s1.unit e.g.l e.g.core).queue.any fun c => c.op.isRelease) = ok) :
    exec (.mclaim o) s = .next (s1.setGroup ((claimed e.g e.act o.d.toNat ok).advance (.mclaim o))) := by
  subst hok
  unfold claimant at hc
  refine exec_self_done h (execMclaim.eq_1 o s) ?_ (claimed_uid e.g e.act _ _) (room_claimed hr e.act _)
  simp only [hl.idle, hl.kept, hc, Bool.false_eq_true, if_false]
  rfl

/-! MRELEASE -/

/-- A command that finds room joins the queue, and its group goes past it. -/
theorem exec_enqueue {body : State → Env → R} {op : MOp} {pages : List (Nat × Loc)} {pas : List Nat} {k : Group} (h : Issues i s s1 g e)
    (hx : exec i s = issue i s body) (hb : body (s1.setGroup e.g) e = enqueue (s1.setGroup e.g) i e op pages pas k)
    (hq : (s1.unit e.g.l e.g.core).queue.length < 16) (hu : k.uid = e.g.uid) (hr : Room k) :
    exec i s = .next ((queued s1 e op pages).setGroup ((k.laLines i pas).advance i)) :=
  put_group (t := queued s1 e op pages) h hx (hb.trans (enqueue_free (t := s1.setGroup e.g) hq)) ((laLines_uid k i pas).trans hu)
    (room_lines hr i pas)

theorem exec_mrelease_queued (h : Issues (.mrelease o) s s1 g e) (hr : Room e.g) (hk : MatrixReady s1 e [])
    (hq : (s1.unit e.g.l e.g.core).queue.length < 16) :
    exec (.mrelease o) s = .next ((queued s1 e (.release e.g.uid) []).setGroup
      ((({ e.g with wait := .matrixReply } : Group).laLines (.mrelease o) []).advance (.mrelease o))) := by
  refine exec_enqueue (k := { e.g with wait := .matrixReply }) h (execMrelease.eq_1 o s) ?_ hq rfl (Room.same hr rfl rfl)
  simp only [matrix_ready hk]

theorem exec_mrelease_full (h : Issues (.mrelease o) s s1 g e) (hk : MatrixReady s1 e [])
    (hq : 16 ≤ (s1.unit e.g.l e.g.core).queue.length) : exec (.mrelease o) s = .next (s1.setGroup g) := by
  refine exec_wait_same h (execMrelease.eq_1 o s) ?_
  simp only [matrix_ready hk]
  exact enqueue_full (t := s1.setGroup e.g) (Nat.not_lt.2 hq)

/-! MWAIT -/

/-- An MWAIT that has not begun to wait marks the number of commands that the unit has accepted, unless they are all done. -/
theorem exec_mwait_first (h : Issues (.mwait o) s s1 g e) (hr : Room e.g) (hm : e.g.mark = none) (hk : MatrixReady s1 e [])
    (hu : u = s1.unit e.g.l e.g.core) :
    (u.accepted ≤ u.done → exec (.mwait o) s = .next (s1.setGroup (e.g.advance (.mwait o)))) ∧
    (u.done < u.accepted → exec (.mwait o) s = .next (s1.setGroup { g with mark := some u.accepted })) := by
  subst hu
  refine ⟨fun hd => exec_self_done h (execMwait.eq_1 o s) ?_ rfl hr, fun hd =>
    exec_wait_self (F := fun k => { k with mark := some (s1.unit e.g.l e.g.core).accepted }) h (execMwait.eq_1 o s) ?_ (fun _ => rfl) rfl⟩ <;>
    simp only [hm, matrix_ready hk]
  · exact if_pos hd
  · exact if_neg (Nat.not_le.2 hd)

/-- One that waits goes on once that many are done. -/
theorem exec_mwait_again {n : Nat} (h : Issues (.mwait o) s s1 g e) (hr : Room e.g) (hm : e.g.mark = some n)
    (hu : u = s1.unit e.g.l e.g.core) :
    (n ≤ u.done → exec (.mwait o) s = .next (s1.setGroup (e.g.advance (.mwait o)))) ∧
    (u.done < n → exec (.mwait o) s = .next (s1.setGroup g)) := by
  subst hu
  refine ⟨fun hd => exec_self_done h (execMwait.eq_1 o s) ?_ rfl hr, fun hd => exec_wait_same h (execMwait.eq_1 o s) ?_⟩ <;>
    simp only [hm]
  · exact if_pos hd
  · exact if_neg (Nat.not_le.2 hd)

/-! MPROG -/

/-- The word that MPROG writes: PROGIDX, the number of commands accepted and not completed, and whether there are none (R293). -/
def progWord (u : MUnit) : Word :=
  BitVec.ofNat 32 (u.progIdx + 2 ^ 16 * u.queue.length + if u.queue = [] then 2 ^ 31 else 0)

theorem exec_mprog (h : Issues (.mprog o) s s1 g e) (hr : RoomFor e.g [o.d.toNat] [] []) (hk : MatrixReady s1 e [])
    (hu : u = s1.unit e.g.l e.g.core) :
    exec (.mprog o) s = .next (s1.setGroup ((e.g.writeG e.act o.d.toNat (progWord u)).advance (.mprog o))) := by
  subst hu
  refine exec_self_done h (execMprog.eq_1 o s) ?_ rfl (laneG o.d.isLt hr _ _)
  simp only [matrix_ready hk, List.length_eq_zero_iff]
  rfl

end

end Sys2Proof.Laws

namespace Sys2Proof

open Sys2Proof.Machine Sys2Proof.Laws

/-- Settles O45: a team that does not hold its unit fails the first check of each command; MCLAIM by who holds the unit, MRELEASE by
whether the queue has room, MWAIT by its mark, MPROG at once. What a cleared unit holds where R264 names nothing, as in the row buffer, is
the model's choice (log entry 9). -/
theorem matrixClaims : Obligations.MatrixClaims := by
  unfold Obligations.MatrixClaims
  rintro o s s1 g e u d held hu rfl hheld
  obtain rfl : held = claimant (s1.setGroup e.g) e := by rw [hheld, hu]; rfl
  have hany : (u.queue.any fun c => c.op.isRelease) = true ↔ ∃ c ∈ u.queue, c.op.isRelease = true := List.any_eq_true
  refine ⟨fun i hi h hm hb hl => ?_, ?_, ?_, ?_, ?_⟩
  · have traps {t : Trap} := exec_claimTrap (trap := t) h hi hm ⟨hb, hl⟩
    rw [← hu] at traps
    exact ⟨fun hc => traps (claimTrap_of_unclaimed hc), fun k hc hk => traps (claimTrap_of_other hc hk),
      fun hq hc => traps (claimTrap_of_releasing hc (hany.2 hq))⟩
  · rintro i rfl h hr hd hb hl
    have hw := wrotePred_answer e.g.frame e.act hd
    have stays {k} {ok : Bool} := exec_mclaim_held (k := k) (ok := ok) h hr ⟨hb, hl⟩
    rw [← hu] at stays
    refine ⟨fun hc => ⟨_, hw true, exec_mclaim_free h hr ⟨hb, hl⟩ hu hc⟩, fun hc hq => ⟨_, hw true, stays (ok := true) hc ?_⟩, ?_⟩
    · simpa using hq
    · rintro ⟨k, hc, hk⟩
      refine ⟨_, hw false, stays (ok := false) hc ?_⟩
      rcases hk with hk | hq
      · rw [beq_eq_false_iff_ne.2 hk, Bool.false_and]
      · rw [hany.2 hq, Bool.not_true, Bool.and_false]
  · rintro i rfl h hr hk
    subst hu
    exact ⟨exec_mrelease_queued h hr hk, exec_mrelease_full h hk⟩
  · rintro i rfl h hr
    exact ⟨fun hm hk => (exec_mwait_first h hr hm hk hu).1, fun hm hk => (exec_mwait_first h hr hm hk hu).2,
      fun n hm => exec_mwait_again h hr hm hu⟩
  · rintro i rfl h hr hk
    exact ⟨_, wrote_all o.d.isLt _, exec_mprog h hr hk hu⟩

end Sys2Proof
end

section
/-! PROOF. Commands that join the queue of a matrix unit (10 R266; 11 R275 to R279, R283, R284, R286 to R290, R292): each passes its
checks and joins the queue or waits for room in it; and what the command of MZERO does to the tiles (R285). -/

namespace Sys2Proof.Laws

open Sys2Proof.Machine

section
variable {i : Instr} {o : T64} {s s1 : State} {g : Group} {e : Env} {body : State → Env → R} {op : MOp}

/-- A command that finds the queue full waits. -/
theorem exec_enqueue_full {pages : List (Nat × Loc)} {pas : List Nat} {k : Group} (h : Issues i s s1 g e)
    (hx : exec i s = issue i s body) (hb : body (s1.setGroup e.g) e = enqueue (s1.setGroup e.g) i e op pages pas k)
    (hq : ¬(s1.unit e.g.l e.g.core).queue.length < 16) : exec i s = .next (s1.setGroup g) :=
  exec_wait_same h hx (hb.trans (enqueue_full (t := s1.setGroup e.g) hq))

/-- A command whose pages translate and whose metadata words are sound joins the queue where there is room, and its group goes
past it with the lines counted that the command touches, after those that issue has touched, `own`. -/
theorem exec_matrixGo {s0 t : State} {a : Access} {own : List Nat} {runs : List (Nat × Nat)} {metas : List Nat}
    {pages : List (Nat × Loc)} {ms : List (List (Nat × Bool))} {op : List (List (Nat × Bool)) → MOp} (h : Issues i s s1 g e)
    (hx : exec i s = issue i s body) (hb : body (s1.setGroup e.g) e = matrixGo s0 i e a own runs metas op)
    (hm : MatrixReach s0 e a runs metas pages ms t) (hq : (t.unit e.g.l e.g.core).queue.length < 16) (hr : Room e.g) :
    exec i s = .next ((queued t e (op ms) pages).setGroup
      ((e.g.laLines i (own ++ runLines pages (runs ++ metas.map fun m => (m, 16384)))).advance i)) :=
  exec_done h hx (hb.trans ((matrix_reach hm).trans (enqueue_free hq))) (laLines_uid _ _ _) (room_lines hr _ _)

/-! MZERO, MREAD and MSTAT -/

theorem execMzero_ready (hk : MatrixReady s1 e []) : ∃ body, exec (.mzero o) s = issue (.mzero o) s body ∧
    body (s1.setGroup e.g) e = enqueue (s1.setGroup e.g) (.mzero o) e (.zero o.d.toNat) [] [] e.g :=
  ⟨_, execMzero.eq_1 o s, by simp only [matrix_ready hk]⟩

/-- The group of an MREAD or an MSTAT in the queue: its destinations are present with the values they hold, and it waits for what
the unit will write to them (R295). -/
def awaiting (g : Group) (d n : Nat) : Group := { g with frame := g.frame.hold d n, wait := .matrixReply }

theorem queueRead_ready {d n : Nat} (hk : MatrixReady s1 e []) :
    queueRead (s1.setGroup e.g) i e d n op = enqueue (s1.setGroup e.g) i e op [] [] (awaiting e.g d n) := by
  unfold queueRead
  rw [matrix_ready hk]
  rfl

/-- MREAD and MSTAT enter the queue, each with its number of destinations. -/
theorem exec_queueRead {n : Nat} {s1 : State} (hk : MatrixReady s1 e [])
    (hi : (i, n, op) ∈ [(.mread o, 8, .read o.a.toNat o.b.toNat o.d.toNat e.g.uid e.act),
      (.mstat o, 2, .stat (o.ctl.getLsbD 0) o.d.toNat e.g.uid e.act)]) : ∃ body, exec i s = issue i s body ∧
      body (s1.setGroup e.g) e = enqueue (s1.setGroup e.g) i e op [] [] (awaiting e.g o.d.toNat n) := by
  simp only [List.mem_cons, List.not_mem_nil, or_false, Prod.mk.injEq] at hi
  obtain ⟨rfl, rfl, rfl⟩ | ⟨rfl, rfl, rfl⟩ := hi
  · exact ⟨_, execMread.eq_1 o s, queueRead_ready hk⟩
  · exact ⟨_, execMstat.eq_1 o s, queueRead_ready hk⟩

theorem room_awaiting {d n : Nat} (h : RoomFor g ((List.range n).map (d + ·)) [] []) : Room (awaiting g d n) :=
  Room.same (room_hold h) rfl rfl

/-! MMA and MSPARSE -/

/-- The A registers of a step that are absent (R286). -/
def absentRows (f : Frame) (a fmt : Nat) (sp : Bool) : List Nat :=
  ((List.range (if sp = false ∧ fmtClass fmt = 2 then 6 else 8)).map (a + ·)).filter fun n => (f.reg? n).isNone

/-- The scales of the rows of a step: those of register `c`, or 127 where the format takes none (R286). -/
def rowScales (f : Frame) (c : Nat) (amx sp : Bool) (rows : Nat) : List (List Nat) :=
  (List.range rows).map fun r => if amx then scaleBytes (f.regBytes c) ((if sp then 16 else 8) * r) (if sp then 16 else 8)
    else List.replicate (if sp then 16 else 8) 127

/-- Absent A registers read as zero, which GSTATUS keeps (R274). -/
theorem deadRead_absent {t : State} {xs : List Nat} (hd : xs ≠ [] → g.deadTrap = false) :
    t.deadRead g (xs.map fun n => (0, n)) = .ok (if xs = [] then g else g.sticky DEADRD) := by
  by_cases hx : xs = []
  · rw [if_pos hx, hx]
    exact deadRead_nil t g
  · rw [if_neg hx]
    exact deadRead_some (by simpa using hx) (hd hx)

/-- Noting it leaves the group in its place, with its frames. -/
theorem deadRead_group {g' : Group} {xs : List Nat} (hg : g' = if xs = [] then g else g.sticky DEADRD) :
    g'.uid = g.uid ∧ (Room g → Room g') := by
  by_cases hx : xs = []
  · rw [hg, if_pos hx]
    exact ⟨rfl, id⟩
  · rw [hg, if_neg hx]
    exact ⟨rfl, fun hr => Room.same hr rfl rfl⟩

theorem registerStep_ready {sp : Bool} {g' : Group} {a b fmt : Nat} (hk : MatrixReady s1 e [])
    (ha : a = o.a.toNat) (hb : b = o.b.toNat) (hf : fmt = (o.ctl.extractLsb' 4 4).toNat)
    (hd : absentRows e.g.frame a fmt sp ≠ [] → e.g.deadTrap = false)
    (hg : g' = if absentRows e.g.frame a fmt sp = [] then e.g else e.g.sticky DEADRD)
    (hc : formatReason fmt (o.ctl.getLsbD 8) sp false sp (s1.unit e.g.l e.g.core).recordAfter none = none)
    (hn : b + (regRows e.g.frame a fmt sp).length ≤ 64) :
    registerStep i o sp (s1.setGroup e.g) e = enqueue (s1.setGroup e.g) i e (.step o.d.toNat b fmt sp (regRows e.g.frame a fmt sp)
      (rowScales e.g.frame o.c.toNat (o.ctl.getLsbD 8) sp (regRows e.g.frame a fmt sp).length)) [] [] g' := by
  subst ha hb hf hg
  have hu : (if (!sp && fmtClass (o.ctl.extractLsb' 4 4).toNat == 2) = true then 6 else 8) =
      if sp = false ∧ fmtClass (o.ctl.extractLsb' 4 4).toNat = 2 then 6 else 8 := by simp
  have hr := deadRead_absent (t := s1.setGroup e.g) hd
  unfold absentRows at hr
  unfold registerStep
  simp only [hu, hr, matrix_ready hk]
  have hc' : formatReason (o.ctl.extractLsb' 4 4).toNat (o.ctl.getLsbD 8) sp false sp
    ((s1.setGroup e.g).unit e.g.l e.g.core).recordAfter none = none := hc
  simp only [hc', if_neg (Nat.not_lt.2 hn)]
  rfl

/-! MLOADB, MLOADS and MSTORE -/

theorem execMloadb_ready {a b c base mbase pitch fmt : Nat} {sp : Bool} {rows : List Nat}
    (ha : a = o.a.toNat) (hb : b = o.b.toNat) (hc : c = o.c.toNat) (hsp : sp = o.ctl.getLsbD 8) (hf : fmt = (o.ctl.extractLsb' 4 4).toNat)
    (hk : MatrixReady s1 e ([a, a + 1, b] ++ if sp then [c, c + 1] else []))
    (hbase : base = e.lowPair a) (hmb : mbase = e.lowPair c) (hp : pitch = e.lowWord b)
    (h3 : 3 ≤ fmt) (h8 : fmt ≤ 8) (hs8 : sp = true → fmt = 4 ∨ fmt = 5) (hrow : rowBytes fmt ≤ pitch) (hlow : base < 2 ^ 56)
    (hmlow : sp = true → mbase < 2 ^ 56) (hrows : rows = (List.range 256).map fun k => (base + k * pitch) % 2 ^ 64)
    (hin : ∀ r ∈ rows, r < 2 ^ 56) : ∃ body, exec (.mloadb o) s = issue (.mloadb o) s body ∧
      body (s1.setGroup e.g) e = matrixGo (s1.setGroup e.g) (.mloadb o) e accEngR [] (rows.map fun r => (r, rowBytes fmt))
        (if sp then [mbase] else []) fun ms => .loadB fmt sp base pitch (ms.headD []) := by
  subst ha hb hc hsp hf hbase hmb hp hrows
  refine ⟨_, execMloadb.eq_1 o s, ?_⟩
  have hbases : rangeAt e (e.lowPair o.a.toNat :: if o.ctl.getLsbD 8 then [e.lowPair o.c.toNat] else []) = none := by
    refine rangeAt_none fun v hv => ?_
    rcases List.mem_cons.1 hv with rfl | hv
    · exact hlow
    · split at hv
      · next hsp => exact List.mem_singleton.1 hv ▸ hmlow hsp
      · exact absurd hv List.not_mem_nil
  have hsf : ¬(o.ctl.getLsbD 8 = true ∧ (o.ctl.extractLsb' 4 4).toNat ≠ 4 ∧ (o.ctl.extractLsb' 4 4).toNat ≠ 5) :=
    fun hn => (hs8 hn.1).elim hn.2.1 hn.2.2
  simp only [matrix_ready hk, hbases, rangeAt_none hin]
  rw [if_neg (by omega), if_neg hsf, if_neg (Nat.not_lt.2 hrow)]

theorem execMloads_ready {a base : Nat} (ha : a = o.a.toNat) (hk : MatrixReady s1 e [a, a + 1]) (hbase : base = e.lowPair a)
    (hlow : base < 2 ^ 56) : ∃ body, exec (.mloads o) s = issue (.mloads o) s body ∧
      body (s1.setGroup e.g) e = matrixGo (s1.setGroup e.g) (.mloads o) e accEngR [] [(base, 4096)] [] fun _ => .loadS base := by
  subst ha hbase
  refine ⟨_, execMloads.eq_1 o s, ?_⟩
  have hbase : rangeAt e [e.lowPair o.a.toNat] = none := rangeAt_none (by simpa using hlow)
  simp only [matrix_ready hk, hbase]

theorem execMstore_ready {a b d base pitch n fmt rm : Nat} {rows : List Nat} (ha : a = o.a.toNat) (hb : b = o.b.toNat)
    (hd : d = o.d.toNat) (hf : fmt = (o.ctl.extractLsb' 4 4).toNat) (hk : MatrixReady s1 e [a, a + 1, b, b + 1])
    (hbase : base = e.lowPair a) (hp : pitch = e.lowWord b) (hn : n = e.lowWord (b + 1)) (hlow : base < 2 ^ 56)
    (h1 : 1 ≤ fmt) (h5 : fmt ≤ 5) (hn1 : 1 ≤ n) (hn64 : n ≤ 64) (hdn : d + n ≤ 64) (hw : 256 * storeBytes fmt ≤ pitch)
    (hrows : rows = (List.range n).map fun k => (base + k * pitch) % 2 ^ 64) (hin : ∀ r ∈ rows, r < 2 ^ 56)
    (hrm : rm = if (o.ctl.extractLsb' 0 3).toNat = 0 then e.g.rm else (o.ctl.extractLsb' 0 3).toNat - 1) :
    ∃ body, exec (.mstore o) s = issue (.mstore o) s body ∧
      body (s1.setGroup e.g) e = matrixGo (s1.setGroup e.g) (.mstore o) e accEngW [] (rows.map fun r => (r, 256 * storeBytes fmt)) []
        fun _ => .store rm (o.ctl.getLsbD 3) fmt d n o.c.toNat base pitch := by
  subst ha hb hd hf hbase hp hn hrows hrm
  refine ⟨_, execMstore.eq_1 o s, ?_⟩
  have hbase : rangeAt e [e.lowPair o.a.toNat] = none := rangeAt_none (by simpa using hlow)
  simp only [matrix_ready hk, hbase, rangeAt_none hin]
  rw [if_neg (by omega), if_neg (by omega), if_neg (by omega), if_neg (Nat.not_lt.2 hw)]

/-! MLOOP and MBATCH -/

/-- The metadata images that a descriptor command reads at issue, in the order of its steps (R288). -/
def loopMetas (d : LoopDesc) : List Nat := (List.range d.steps).flatMap d.metaRows

/-- The runs of bytes that a descriptor command touches, step after step (R287, R288). -/
def loopRuns (d : LoopDesc) (batch : Bool) : List (Nat × Nat) :=
  (List.range d.steps).flatMap fun k => (d.aRows k).map (fun r => (r, d.aRowBytes batch)) ++
    (d.xaRows k).map (fun r => (r, d.blocks batch)) ++ (d.bRows k).map (fun r => (r, rowBytes d.bFmt)) ++
    (d.xbRows k).map fun r => (r, 4096)

theorem loopOp_ready {a base : Nat} {batch : Bool} {d : LoopDesc} {x : Loc} {t0 : State} (ha : a = o.a.toNat)
    (hk : MatrixReady s1 e [a, a + 1]) (hbase : base = e.lowPair a) (hd : LoopRead s1 e base d x t0)
    (hf : formatReason d.aFmt d.amx d.sparse batch false (s1.unit e.g.l e.g.core).recordAfter (if d.reload then some d.bFmt else none) = none)
    (hr : d.rangeReason batch = none) (hruns : ∀ r ∈ loopRuns d batch, r.1 < 2 ^ 56) (hmetas : ∀ m ∈ loopMetas d, m < 2 ^ 56) :
    loopOp i o batch (s1.setGroup e.g) e =
      matrixGo t0 i e accEngR [x.pa] (loopRuns d batch) (loopMetas d) fun ms => .loop batch d ms := by
  subst ha hbase
  obtain ⟨hlow, halign, hstore, t, v, p, htr, hread, rfl⟩ := hd
  have hlow' : rangeAt e [e.lowPair o.a.toNat] = none := rangeAt_none (by simpa using hlow)
  have hin : rangeAt e ((loopRuns (LoopDesc.ofBytes (toBytes 64 v)) batch).map Prod.fst ++ loopMetas (LoopDesc.ofBytes (toBytes 64 v))) = none := by
    refine rangeAt_none fun a ha => ?_
    rcases List.mem_append.1 ha with ha | ha
    · obtain ⟨r, hr, rfl⟩ := List.mem_map.1 ha
      exact hruns r hr
    · exact hmetas a ha
  unfold loopOp
  simp only [matrix_ready hk, hlow', halign, htr, hread]
  have hu : (s1.setGroup e.g).unit e.g.l e.g.core = s1.unit e.g.l e.g.core := rfl
  rw [if_neg (by decide), hu, hstore, if_neg (by decide), hf]
  simp only [hr]
  unfold loopRuns loopMetas at hin
  rw [hin]
  rfl

end

/-! What the command of MZERO leaves in the tiles -/

/-- What a list reads as where the keys of some are taken out of it. -/
theorem look_filter (xs : List (Nat × Nat)) (p : Nat → Bool) (d k : Nat) :
    look (xs.filter fun x => !p x.1) d k = if p k then d else look xs d k := by
  unfold look
  rw [List.find?_filter]
  cases hp : p k with
  | true =>
    have : xs.find? (fun x => decide ((!p x.1) = true ∧ (x.1 == k) = true)) = none := by
      refine List.find?_eq_none.2 fun x _ hx => ?_
      obtain ⟨hn, hk⟩ := of_decide_eq_true hx
      rw [beq_iff_eq.1 hk, hp] at hn
      cases hn
    rw [this]
    rfl
  | false =>
    have : (fun x : Nat × Nat => decide ((!p x.1) = true ∧ (x.1 == k) = true)) = fun x => x.1 == k := by
      funext x
      by_cases hk : x.1 = k
      · simp [hk, hp]
      · simp [hk]
    rw [this]
    rfl

/-- Tile `z` of the four (R285). -/
def inTile (z k : Nat) : Bool := decide (16384 * z ≤ k) && decide (k < 16384 * z + 16384)

/-- A unit with no element of tile `z` but +0. -/
def zeroed (u : MUnit) (z : Nat) : MUnit := { u with tiles := u.tiles.filter fun x => !inTile z x.1 }

theorem look_zeroed (u : MUnit) (z k : Nat) :
    look (zeroed u z).tiles 0 k = if 16384 * z ≤ k ∧ k < 16384 * (z + 1) then 0 else look u.tiles 0 k := by
  refine (look_filter u.tiles (inTile z) 0 k).trans ?_
  simp only [inTile, Bool.and_eq_true, decide_eq_true_eq, Nat.mul_succ]

theorem exec_queuedZero {s : State} {l core : Nat} {u : MUnit} {c : MCmd} {rest : List MCmd} {z : Nat} (hu : u = s.unit l core)
    (hq : u.queue = c :: rest) (ho : c.op = .zero z) :
    exec (.matrixCommandExecution l core) s = .next (s.setUnit (zeroed u z).complete) := by
  subst hu
  refine (execMatrixCommandExecution.eq_1 l core s).trans ?_
  simp only [hq, ho, zeroed]
  rfl

theorem complete_queue {u : MUnit} {c : MCmd} {rest : List MCmd} (hq : u.queue = c :: rest) : u.complete.queue = rest := by
  show u.queue.drop 1 = rest
  rw [hq]
  rfl

end Sys2Proof.Laws

namespace Sys2Proof

open Sys2Proof.Machine Sys2Proof.Laws

/-- Settles O46: with their checks passed, MZERO, MREAD and MSTAT come to `enqueue`, as MMA and MSPARSE do with their rows read, and
the commands with operands in memory to `matrixGo`, which joins the queue where every page translates. -/
theorem matrixCommands : Obligations.MatrixCommands := by
  unfold Obligations.MatrixCommands
  rintro o s s1 g e a b d ha hb rfl base word fmt free
  refine ⟨?_, ?_, ?_, ?_, ?_, ?_, ?_⟩
  · rintro i op ⟨rfl, rfl⟩ h hr hk
    obtain ⟨body, hx, hbody⟩ := execMzero_ready (o := o) (s := s) hk
    exact ⟨fun hq => exec_enqueue h hx hbody hq rfl hr, exec_enqueue_full h hx hbody⟩
  · intro i n op hi h hr hn hk
    obtain ⟨body, hx, hbody⟩ := exec_queueRead (s := s) hk (ha ▸ hb ▸ hi)
    exact ⟨fun hq => ⟨_, hold_lanes e.g.frame o.d.toNat n hn, exec_enqueue h hx hbody hq rfl (room_awaiting hr)⟩,
      exec_enqueue_full h hx hbody⟩
  · rintro i sp rows g' scales absent hi h hr hk rfl hd hg hf rfl hn rfl hq
    have hx : exec i s = issue i s (registerStep i o sp) := by
      obtain ⟨rfl, rfl⟩ | ⟨rfl, rfl⟩ := hi
      · exact execMma.eq_1 o s
      · exact execMsparse.eq_1 o s
    obtain ⟨huid, hroom⟩ := deadRead_group hg
    exact exec_enqueue h hx (registerStep_ready hk ha hb rfl hd hg hf hn) hq huid (hroom hr)
  · intro i sp mbase pitch rows pages ms t hi h hr hsp hk hmb hp h3 h8 hs8 hrow hlow hmlow hrows hin hm hq
    subst hi
    obtain ⟨body, hx, hbody⟩ := execMloadb_ready (s := s) (base := base) (fmt := fmt) ha hb rfl hsp rfl hk rfl hmb hp h3 h8 hs8 hrow hlow hmlow hrows hin
    simpa only [List.nil_append] using exec_matrixGo h hx hbody hm hq hr
  · rintro i pages ms t rfl h hr hk hlow hm hq
    obtain ⟨body, hx, hbody⟩ := execMloads_ready (s := s) (base := base) ha hk rfl hlow
    simpa only [List.nil_append, List.map_nil, List.append_nil] using exec_matrixGo h hx hbody hm hq hr
  · rintro i pitch n rows rm pages ms t rfl h hr hk hp hn hlow h1 h5 hn1 hn64 hdn hw hrows hin hrm hm hq
    obtain ⟨body, hx, hbody⟩ := execMstore_ready (s := s) (base := base) (fmt := fmt) ha hb rfl rfl hk rfl hp hn hlow h1 h5 hn1 hn64 hdn hw hrows hin hrm
    simpa only [List.map_nil, List.append_nil, List.nil_append] using exec_matrixGo h hx hbody hm hq hr
  · rintro i batch desc x t0 runs metas pages ms t hi h hr hk hd hf hrange hmeta hrun hruns hmetas hm hq
    obtain rfl : metas = loopMetas desc := hmeta
    obtain rfl : runs = loopRuns desc batch := hrun
    have hx : exec i s = issue i s (loopOp i o batch) := by
      obtain ⟨rfl, rfl⟩ | ⟨rfl, rfl⟩ := hi
      · exact execMloop.eq_1 o s
      · exact execMbatch.eq_1 o s
    simpa only [List.singleton_append] using exec_matrixGo h hx (loopOp_ready (base := base) ha hk rfl hd hf hrange hruns hmetas) hm hq hr

/-- Settles O47: the command takes the elements of its tile out of those that are not +0. -/
theorem tileZero : Obligations.TileZero := by
  unfold Obligations.TileZero
  intro s u c rest z hu hq ho
  exact ⟨_, exec_queuedZero hu hq ho, complete_queue (u := zeroed u z) hq, rfl, look_zeroed u z⟩

end Sys2Proof
end

section
/-! PROOF. Tensor handles (12 R296, R302, R303): HSET, HGET and HLOAD. -/

namespace Sys2Proof.Laws

open Sys2Proof.Machine

variable {o : T64} {s s1 t : State} {g : Group} {e : Env} {k lo hi : Nat}

/-! The fields of a handle -/

/-- The fields of a handle by FIELD code, each with its lowest bit and the bit after its highest (Table 12-1). -/
def handleFields : List (Nat × Nat × Nat) :=
  [(0, 0, 16), (1, 16, 48), (2, 48, 80), (3, 80, 112), (4, 112, 168), (5, 168, 224)]

theorem fieldOf_eq (h : BitVec 256) (hf : (k, lo, hi) ∈ handleFields) : fieldOf h.toNat k = (h.extractLsb' lo (hi - lo)).toNat := by
  simp only [handleFields, List.mem_cons, Prod.mk.injEq, List.not_mem_nil, or_false] at hf
  rw [BitVec.extractLsb'_toNat, Nat.shiftRight_eq_div_pow]
  obtain ⟨rfl, rfl, rfl⟩ | ⟨rfl, rfl, rfl⟩ | ⟨rfl, rfl, rfl⟩ | ⟨rfl, rfl, rfl⟩ | ⟨rfl, rfl, rfl⟩ | ⟨rfl, rfl, rfl⟩ := hf <;> rfl

/-- The value that HSET gives a field: nothing where it clears the handle, a pair for an address, else a word (R302). -/
def fieldSource (e : Env) (k a : Nat) : DWord :=
  if k = 6 then 0 else if k = 4 ∨ k = 5 then e.g.frame.pair a (lowLane e.act) else (e.g.frame.lane a (lowLane e.act)).setWidth 64

/-- The registers it comes from. -/
def fieldRegs (k a : Nat) : List Nat := if k = 6 then [] else if k = 4 ∨ k = 5 then [a, a + 1] else [a]

/-- HSET replaces the bits of its field alone; clearing replaces all of them. -/
theorem fieldSet_getLsbD (h : BitVec 256) {a j : Nat} (hf : (k, lo, hi) ∈ handleFields ++ [(6, 0, 256)]) (hj : j < 256) :
    (fieldSet h k (e.g.frame.lane a (lowLane e.act)).toNat (e.g.frame.pair a (lowLane e.act)).toNat).getLsbD j =
      if lo ≤ j ∧ j < hi then (fieldSource e k a).getLsbD (j - lo) else h.getLsbD j := by
  have word : ((e.g.frame.lane a (lowLane e.act)).setWidth 64).getLsbD (j - lo) = (e.g.frame.lane a (lowLane e.act)).toNat.testBit (j - lo) := by
    rw [BitVec.getLsbD, BitVec.toNat_setWidth_of_le (by decide)]
  simp only [handleFields, List.cons_append, List.nil_append, List.mem_cons, Prod.mk.injEq, List.not_mem_nil, or_false] at hf
  obtain ⟨rfl, rfl, rfl⟩ | ⟨rfl, rfl, rfl⟩ | ⟨rfl, rfl, rfl⟩ | ⟨rfl, rfl, rfl⟩ | ⟨rfl, rfl, rfl⟩ | ⟨rfl, rfl, rfl⟩ | ⟨rfl, rfl, rfl⟩ := hf
  · exact (setField_bit h 15 0 _ j (by decide) hj).trans (by rw [← word]; rfl)
  · exact (setField_bit h 47 16 _ j (by decide) hj).trans (by rw [← word]; rfl)
  · exact (setField_bit h 79 48 _ j (by decide) hj).trans (by rw [← word]; rfl)
  · exact (setField_bit h 111 80 _ j (by decide) hj).trans (by rw [← word]; rfl)
  · exact setField_bit h 167 112 _ j (by decide) hj
  · exact setField_bit h 223 168 _ j (by decide) hj
  · simp [fieldSet, fieldSource, hj]

/-! HSET -/

/-- The frame with field `k` of its handle replaced. -/
def fieldFrame (o : T64) (e : Env) (k : Nat) : Frame :=
  e.g.frame.setHandle o.d.toNat (fieldSet (e.g.frame.handle o.d.toNat) k (e.g.frame.lane o.a.toNat (lowLane e.act)).toNat
    (e.g.frame.pair o.a.toNat (lowLane e.act)).toNat)

section
variable (h : Issues (.hset o) s s1 g e) (hk : k = (o.ctl.extractLsb' 0 4).toNat) (hc : CleanLow e (fieldRegs k o.a.toNat))
include h hk hc

omit h in
/-- HSET with its sources clean looks at the range of an address. -/
theorem execHset_clean : ∃ body, exec (.hset o) s = issue (.hset o) s body ∧ ∀ t, body t e =
    if (k = 4 ∨ k = 5) ∧ 2 ^ 56 ≤ (fieldSource e k o.a.toNat).toNat then .trap t (laneTrap 6 0 e.low (fieldSource e k o.a.toNat).toNat)
    else done t (.hset o) { e.g with frame := fieldFrame o e k } := by
  have hp : e.g.poisonUse e.low (fieldRegs k o.a.toNat) = none :=
    poisonUse_none fun r hr l hl => by rw [low_lane hl]; exact hc r hr
  refine ⟨_, execHset.eq_1 o s, fun t => ?_⟩
  simp only [fieldRegs] at hp
  simp only [← hk, Bool.or_eq_true, beq_iff_eq, hp, Bool.and_eq_true, decide_eq_true_eq]
  by_cases hw : k = 4 ∨ k = 5
  · have hs : fieldSource e k o.a.toNat = e.g.frame.pair o.a.toNat (lowLane e.act) :=
      (if_neg (by omega)).trans (if_pos hw)
    rw [hs]
    rfl
  · simp only [hw, false_and, if_false]
    rfl

theorem exec_hset_far (hw : k = 4 ∨ k = 5) (hx : 2 ^ 56 ≤ (fieldSource e k o.a.toNat).toNat) :
    exec (.hset o) s = .next (trapped s1 g 0 (laneTrap 6 0 e.low (fieldSource e k o.a.toNat).toNat)) := by
  obtain ⟨body, hb, hbody⟩ := execHset_clean (s := s) hk hc
  exact exec_trap h hb ((hbody _).trans (if_pos ⟨hw, hx⟩))

theorem exec_hset (hr : RoomFor e.g [] [] [o.d.toNat]) (hx : k = 4 ∨ k = 5 → (fieldSource e k o.a.toNat).toNat < 2 ^ 56) :
    exec (.hset o) s = .next (s1.setGroup (({ e.g with frame := fieldFrame o e k } : Group).advance (.hset o))) := by
  obtain ⟨body, hb, hbody⟩ := execHset_clean (s := s) hk hc
  exact exec_self_done h hb ((hbody _).trans (if_neg fun hn => Nat.not_lt.2 hn.2 (hx hn.1))) rfl (room_handle hr _)

end

/-! HGET -/

/-- A value in form U is written as a memory result of one word or of two is. -/
theorem loaded_uniform (c : Prop) [Decidable c] (d x : Nat) :
    loaded (if c then 3 else 2) d .u (fun _ => (x, false)) = oneU d (if c then 2 else 1) x := by
  split <;> rfl

theorem writes_hget {run : Nat} (hk : k = (o.ctl.extractLsb' 0 4).toNat) (hf : (k, lo, hi) ∈ handleFields)
    (hrun : run = if k = 4 ∨ k = 5 then 2 else 1) (hd : o.d.toNat + run ≤ 64) :
    Writes (.hget o) fun _ e => oneU o.d.toNat run ((e.g.frame.handle o.a.toNat).extractLsb' lo (hi - lo)).toNat := by
  have hs : sizeRegs (if k = 4 ∨ k = 5 then 3 else 2) = run := by
    rw [hrun]
    split <;> rfl
  simp only [hrun, ← loaded_uniform, ← fieldOf_eq _ hf]
  refine writes_of (funext fun s => execHget.eq_1 o s) (fun _ e => e.g.frame.writeLoad e.g.active e.act o.d.toNat
      (if k = 4 ∨ k = 5 then 3 else 2) .u (fun _ => fieldOf (e.g.frame.handle o.a.toNat).toNat k) fun _ => false)
    (fun s e => by rw [hk]) (fun _ _ => rfl) (fun _ e => ?_) fun _ _ => cheaper_load (Cheaper.refl _) _ _ _ _ _ _ _
  exact wrote_load (got := fun _ => (fieldOf (e.g.frame.handle o.a.toNat).toNat k, false)) (by rw [hs]; exact hd) (.inr ⟨rfl, fun _ => rfl⟩)

/-! HLOAD -/

/-- A read of memory at a location gives its bytes and their poison, and is one transfer (09 R229). -/
theorem readLoc_memory {x : Loc} {pa n : Nat} (hpa : pa = t.mem.backing x false) (hm : isControl pa = false) :
    t.readLoc x n = (t.mem.num pa n, t.mem.unreadable pa n, t.touch pa n) := by
  subst hpa
  unfold State.readLoc State.readAt
  rw [readPart_memory hm, State.beats_mem]
  rfl

section
variable {y : Loc} {pa : Nat} (h : Issues (.hload o) s s1 g e) (ho : (s1.setGroup e.g).ownPosts e.g = false)
  (hy : OneAddr true accHload ⟨[o.a.toNat, o.a.toNat + 1], 32, fun l => (e.g.frame.pair o.a.toNat l).toNat⟩ s1 e y t)
  (hn : y.peer = none) (hpa : pa = t.mem.backing y false) (hm : isControl pa = false)
include h ho hy hn hpa hm

theorem exec_hload_poison (hp : t.mem.unreadable pa 32 = true) : exec (.hload o) s = .next (trapped (t.touch pa 32) g 0
    ⟨13, 0, BitVec.ofNat 64 (e.g.frame.pair o.a.toNat (lowLane e.act)).toNat⟩) := by
  obtain ⟨k, hk⟩ := resolveOne_addr hy false fun hc => by cases hc
  refine exec_trap_here h (execHload.eq_1 o s) ((touch_groups t pa 32).trans (addr_walked hy).groups) ?_
  simp only [ho, hk, Bool.false_eq_true, if_false]
  rw [askPeers_none (by simpa using hn)]
  simp only [readLoc_memory hpa hm, hp, if_true]
  rfl

theorem exec_hload {f' : Frame} (hr : RoomFor e.g [] [] [o.d.toNat]) (hp : t.mem.unreadable pa 32 = false)
    (hf : f' = e.g.frame.setHandle o.d.toNat (BitVec.ofNat 256 (t.mem.num pa 32))) : exec (.hload o) s = .next ((t.touch pa 32).setGroup
      (({ (({ e.g with frame := f' } : Group).laLines (.hload o) [y.pa]) with lastCopy := none } : Group).advance (.hload o))) := by
  subst hf
  obtain ⟨k, hk⟩ := resolveOne_addr hy false fun hc => by cases hc
  refine exec_plainDone h (execHload.eq_1 o s) ?_ rfl (room_handle hr _)
  simp only [ho, hk, Bool.false_eq_true, if_false]
  rw [askPeers_none (by simpa using hn)]
  simp only [readLoc_memory hpa hm, hp, Bool.false_eq_true, if_false]

end

end Sys2Proof.Laws
end

section
/-! PROOF. Elements of stored tensors (12 R298, R301, R304): TLD and TST at the home of their elements, TPOS and TNEXT by what their lanes'
index reads give. -/

namespace Sys2Proof.Laws

open Sys2Proof.Machine

variable {o : T64} {s s1 t : State} {g : Group} {e : Env} {tn : Tensor} {xs : List (Nat × Loc)}

/-! What lanes are found -/

/-- A predicate written with the lanes of a list. -/
theorem wrotePred_lanes (f : Frame) (act : Mask) {c : Nat} (hc : c < 8) (ls : List Nat) :
    WrotePred f (f.writePred act c (failMask ls)) act c ls.contains :=
  wrotePred_congr (wrotePred f act hc _) fun l hl _ => by rw [failMask, maskOf_getLsbD, decide_eq_true hl, Bool.true_and]

/-- A predicate written with the lanes of a test. -/
theorem wrotePred_test (f : Frame) (act : Mask) {c : Nat} (hc : c < 8) {p q : Nat → Bool} (h : ∀ l, act.getLsbD l = true → p l = q l) :
    WrotePred f (f.writePred act c (maskOf p)) act c q :=
  wrotePred_congr (wrotePred f act hc _) fun l hl ha => by rw [maskOf_getLsbD, decide_eq_true hl, Bool.true_and, h l ha]

/-! TLD -/

/-- What the found lanes of a TLD read. -/
def elemRes (t : State) (n : Nat) (xs : List (Nat × Loc)) : List (Nat × Nat × Bool) := xs.map fun x => (x.1, t.seen n x.2)

/-- A lane that is not found reads zero, without poison. -/
theorem elemRes_lane {n : Nat} {got : Nat → Nat × Bool} (hin : ∀ x ∈ xs, got x.1 = t.seen n x.2)
    (hout : ∀ l, l ∉ xs.map Prod.fst → got l = (0, false)) (l : Nat) :
    laneVal (elemRes t n xs) l = (got l).1 ∧ laneBad (elemRes t n xs) l = (got l).2 := by
  by_cases hl : l ∈ xs.map Prod.fst
  · exact laneVal_found hin hl
  · have hf : (elemRes t n xs).find? (fun r => r.1 == l) = none := by
      rw [List.find?_eq_none]
      intro r hr hc
      obtain ⟨x, hx, rfl⟩ := List.mem_map.1 hr
      exact hl ((beq_iff_eq.1 hc : x.1 = l) ▸ List.mem_map_of_mem hx)
    rw [hout l hl, laneVal, laneBad, hf]
    exact ⟨rfl, rfl⟩

/-- The frame that TLD writes its elements to. -/
def elemFrame (t : State) (e : Env) (d n : Nat) (xs : List (Nat × Loc)) : Frame :=
  e.g.frame.write e.g.active e.act d ⟨.g, fun l => BitVec.ofNat 32 (laneVal (elemRes t n xs) l), laneBad (elemRes t n xs)⟩

theorem elemFrame_wrote {d n : Nat} (hd : d < 64) {got : Nat → Nat × Bool} (hin : ∀ x ∈ xs, got x.1 = t.seen n x.2)
    (hout : ∀ l, l ∉ xs.map Prod.fst → got l = (0, false)) :
    Wrote e.g.frame (elemFrame t e d n xs) e.g.active e.act ⟨[d], .g, fun _ l => BitVec.ofNat 32 (got l).1, fun _ l => (got l).2⟩ := by
  refine Wrote.congr (wrote_one hd (val := fun _ l => BitVec.ofNat 32 (laneVal (elemRes t n xs) l))
    (bad := fun _ => laneBad (elemRes t n xs)) trivial) fun l _ _ => ?_
  obtain ⟨hv, hb⟩ := elemRes_lane hin hout l
  rw [hv, hb]
  exact ⟨rfl, rfl⟩

theorem exec_tld {f' : Frame} (h : Issues (.tld o) s s1 g e) (hr : RoomFor e.g [o.d.toNat] [o.c.toNat] [])
    (htn : tn = Tensor.of (e.g.frame.handle o.b.toNat)) (hk : Elems accTld o tn s1 e xs t)
    (hf : f' = (elemFrame t e o.d.toNat tn.width xs).writePred e.act o.c.toNat (failMask (xs.map Prod.fst))) :
    exec (.tld o) s = .next ((t.readLanes tn.width xs).2.setGroup
      (({ (({ e.g with frame := f' } : Group).laLines (.tld o) (xs.map fun x => x.2.pa)) with lastCopy := none } : Group).advance (.tld o))) := by
  subst hf
  obtain ⟨hh, ho⟩ := hk.here
  have hpeer : ∀ x ∈ xs, x.2.peer = none := fun x hx => (hh x hx).1
  refine exec_plainDone h (execTld.eq_1 o s) ?_ rfl (room_pred2 hr (cheaper_setReg (Cheaper.refl _) _ _))
  simp only [resolveElems_ok htn hk]
  rw [partitioned_here hh, ho, if_neg (by decide), askPeers_none hpeer]
  dsimp only
  rw [filter_near hpeer, ← htn, List.append_nil]
  rfl

/-! TST -/

theorem exec_tst {val : Nat → Nat} {bad : Nat → Bool} (h : Issues (.tst o) s s1 g e) (hr : RoomFor e.g [] [o.c.toNat] [])
    (htn : tn = Tensor.of (e.g.frame.handle o.b.toNat)) (hk : Elems accTst o tn s1 e xs t)
    (hval : ∀ l, val l = (e.g.frame.lane o.d.toNat l).toNat % 2 ^ (8 * tn.width)) (hbad : ∀ l, bad l = e.g.frame.bad o.d.toNat l)
    {f' : Frame} (hf : f' = e.g.frame.writePred e.act o.c.toNat (failMask (xs.map Prod.fst))) :
    exec (.tst o) s = .next ((t.writeLanes (s1.ctx e.g.ctx).pl tn.width val bad xs).setGroup
      (({ (({ (e.g.pstore (failMask (xs.map Prod.fst)) bad) with frame := f' } : Group).laLines (.tst o) (xs.map fun x => x.2.pa)) with
        lastCopy := none } : Group).advance (.tst o))) := by
  subst hf
  obtain rfl : val = fun l => (e.g.frame.lane o.d.toNat l).toNat % 2 ^ (8 * tn.width) := funext hval
  obtain rfl : bad = fun l => e.g.frame.bad o.d.toNat l := funext hbad
  obtain ⟨hh, ho⟩ := hk.here
  have hpeer : ∀ x ∈ xs, x.2.peer = none := fun x hx => (hh x hx).1
  refine exec_plainDone h (execTst.eq_1 o s) ?_ (pstore_uid e.g _ _) (room_pstore_frame (room_pred hr) _ _)
  simp only [resolveElems_ok htn hk]
  rw [partitioned_here hh, ho, if_neg (by decide), askPeers_none hpeer]
  dsimp only
  rw [filter_near hpeer, ← htn, ctx_setGroup]

/-! A handle that is not valid -/

theorem exec_badHandle {i : Instr} {r : Nat} (hi : i = .tpos o ∧ (∀ r ∈ coordRegs tn o.a.toNat, ∀ l, e.act.getLsbD l = true → e.g.frame.bad r l = false) ∨
      i = .tnext o ∧ ∀ r ∈ [o.a.toNat, o.a.toNat + 1], ∀ l, e.act.getLsbD l = true → e.g.frame.bad r l = false)
    (h : Issues i s s1 g e) (htn : tn = Tensor.of (e.g.frame.handle o.b.toNat)) (hb : (s1.setGroup e.g).sideBusy e.g.uid = false)
    (ho : (s1.setGroup e.g).ownPosts e.g = false) (hr : tn.bad = some r) :
    exec i s = .next (trapped s1 g 0 (mkTrap 31 (r + 16 * o.b.toNat))) := by
  subst htn
  obtain ⟨rfl, hc⟩ | ⟨rfl, hc⟩ := hi
  · refine exec_trap h (execTpos.eq_1 o s) ?_
    simp only [hb, ho, tensorChecks_bad hc hr, Bool.or_self, Bool.false_eq_true, if_false]
  · refine exec_trap h (execTnext.eq_1 o s) ?_
    simp only [hb, ho, tensorChecks_bad hc hr, Bool.or_self, Bool.false_eq_true, if_false]

/-! Lanes that index reads found -/

section
variable {α : Type}

/-- What a lane's index reads gave it, NONE for a lane that made none. -/
def hits (act : Mask) (f : Nat → Option α) (l : Nat) : Option α :=
  ((((lanesOf act).map fun k => (k, f k)).find? fun x => x.1 == l).map Prod.snd).getD none

theorem hits_eq {act : Mask} {f : Nat → Option α} {l : Nat} (hl : act.getLsbD l = true) : hits act f l = f l := by
  unfold hits
  rw [find_map_lane (mem_lanesOf.2 hl)]
  rfl

end

/-! TPOS -/

/-- The results of TPOS: the lanes' positions, or all ones. -/
def posRes (act : Mask) (pos : Nat → Option Nat) : List (Nat × Nat × Bool) :=
  (lanesOf act).map fun l => (l, (hits act pos l).getD (2 ^ 64 - 1), false)

theorem posRes_lane {act : Mask} {pos : Nat → Option Nat} {l : Nat} (hl : act.getLsbD l = true) :
    (laneVal (posRes act pos) l, laneBad (posRes act pos) l) = ((pos l).getD (2 ^ 64 - 1), false) := by
  unfold laneVal laneBad posRes
  rw [find_map_lane (mem_lanesOf.2 hl), hits_eq hl]
  rfl

/-- The frame that TPOS writes its positions to. -/
def posFrame (e : Env) (d : Nat) (pos : Nat → Option Nat) : Frame :=
  e.g.frame.writeLoad e.g.active e.act d 3 .g (laneVal (posRes e.act pos)) (laneBad (posRes e.act pos))

theorem posFrame_wrote {d : Nat} (hd : d + 2 ≤ 64) (pos : Nat → Option Nat) : Wrote e.g.frame (posFrame e d pos) e.g.active e.act
    (loaded 3 d .g fun l => ((pos l).getD (2 ^ 64 - 1), false)) :=
  wrote_results (got := fun l => (laneVal (posRes e.act pos) l, laneBad (posRes e.act pos) l)) hd fun _ => posRes_lane

theorem exec_tpos {pos : Nat → Option Nat} {rd : Nat → List (Nat × Nat)} {f' : Frame} (h : Issues (.tpos o) s s1 g e)
    (hr : RoomFor e.g [o.d.toNat, o.d.toNat + 1] [o.c.toNat] []) (htn : tn = Tensor.of (e.g.frame.handle o.b.toNat))
    (hk : TensorReady s1 e tn (coordRegs tn o.a.toNat) (coordRegs tn o.a.toNat))
    (hp : ∀ l, e.act.getLsbD l = true → tn.locate ((s1.setGroup e.g).index e.g) s1.steps l (laneCoords e.g.frame tn o.a.toNat l) = .ok (pos l, rd l))
    (hf : f' = (posFrame e o.d.toNat pos).writePred e.act o.c.toNat (maskOf fun l => (hits e.act pos l).isSome)) :
    exec (.tpos o) s = .next (((s1.setGroup e.g).indexed e.g ((lanesOf e.act).flatMap rd)).setGroup
      ((({ e.g with frame := f' } : Group).laLines (.tpos o) []).advance (.tpos o))) := by
  subst htn hf
  have hl : indexLanes (lanesOf e.act) (lanePos (s1.setGroup e.g) e (Tensor.of (e.g.frame.handle o.b.toNat)) false o.a.toNat) = _ :=
    indexLanes_ok (g := pos) (rd := rd) (lanesOf e.act) fun l hl => hp l (mem_lanesOf.1 hl)
  refine exec_memDone h (execTpos.eq_1 o s) ?_ rfl (room_pred2 hr (cheaper_load (Cheaper.refl _) _ _ _ 3 _ _ _))
  simp only [hk.idle, hk.ours, tensorChecks_none hk, hl, indexFails_nil, Bool.or_self, Bool.false_eq_true, if_false]
  rfl

/-! TNEXT -/

/-- The lanes of TNEXT: Coords of a position below Count, or NONE (R304). -/
def nextCoords (s : State) (e : Env) (tn : Tensor) (a l : Nat) : Idx (Option (List Nat)) :=
  bindE (tn.count (s.index e.g)) fun n =>
    if (e.g.frame.pair a l).toNat < n then
      bindE (tn.coords (s.index e.g) s.steps (e.g.frame.pair a l).toNat) fun cs => pureE (some cs)
    else pureE none

/-- The word of coordinate `j` of a lane. -/
def coordWord (cs : Option (List Nat)) (j : Nat) : Word :=
  match cs with
  | some xs => BitVec.ofNat 32 (xs.getD j 0)
  | none => -1

theorem coordWord_eq (cs : Option (List Nat)) (j : Nat) : coordWord cs j = (cs.map fun xs => BitVec.ofNat 32 (xs.getD j 0)).getD (-1) := by
  cases cs <;> rfl

/-- The frame that TNEXT writes the coordinates of its lanes to. -/
def coordFrame (e : Env) (d n : Nat) (cs : Nat → Option (List Nat)) : Frame :=
  (List.range n).foldl (fun (f : Frame) j => f.write e.g.active e.act (d + j) ⟨.g, fun l => coordWord (hits e.act cs l) j, fun _ => false⟩) e.g.frame

theorem coordFrame_wrote {d n : Nat} (hd : d + n ≤ 64) (cs : Nat → Option (List Nat)) : Wrote e.g.frame (coordFrame e d n cs) e.g.active e.act
    ⟨(List.range n).map (d + ·), .g, fun r l => ((cs l).map fun xs => BitVec.ofNat 32 (xs.getD (r - d) 0)).getD (-1), fun _ _ => false⟩ :=
  Wrote.congr (wrote_run (fun j l => coordWord (hits e.act cs l) j) n hd) fun l ha r => by
    rw [hits_eq (ha.resolve_right fun h => h rfl)]
    exact ⟨coordWord_eq _ _, rfl⟩

theorem nextCoords_eq {a n l : Nat} {rn : List (Nat × Nat)} {cs : Option (List Nat)} {rd : List (Nat × Nat)}
    (hn : tn.count (s.index e.g) = .ok (n, rn))
    (hl : if (e.g.frame.pair a l).toNat < n then ∃ xs q, tn.coords (s.index e.g) s.steps (e.g.frame.pair a l).toNat = .ok (xs, q) ∧
      cs = some xs ∧ rd = rn ++ q else cs = none ∧ rd = rn) : nextCoords s e tn a l = .ok (cs, rd) := by
  unfold nextCoords
  rw [hn]
  split at hl
  · next hp =>
    obtain ⟨xs, q, hx, rfl, rfl⟩ := hl
    refine bindE_ok n rn _ _ q ?_
    rw [if_pos hp, hx]
    exact (bindE_ok xs q _ _ [] rfl).trans (by rw [List.append_nil])
  · next hp =>
    obtain ⟨rfl, hrd⟩ := hl
    exact (bindE_ok n rn _ none [] (if_neg hp)).trans (by rw [List.append_nil, hrd])

theorem exec_tnext {cs : Nat → Option (List Nat)} {rd : Nat → List (Nat × Nat)} {f' : Frame} (h : Issues (.tnext o) s s1 g e)
    (hr : RoomFor e.g ((List.range tn.nlev).map (o.d.toNat + ·)) [o.c.toNat] []) (htn : tn = Tensor.of (e.g.frame.handle o.b.toNat))
    (hk : TensorReady s1 e tn [o.a.toNat, o.a.toNat + 1] (coordRegs tn o.d.toNat))
    (hp : ∀ l, e.act.getLsbD l = true → nextCoords (s1.setGroup e.g) e tn o.a.toNat l = .ok (cs l, rd l))
    (hf : f' = (coordFrame e o.d.toNat tn.nlev cs).writePred e.act o.c.toNat (maskOf fun l => (hits e.act cs l).isSome)) :
    exec (.tnext o) s = .next (((s1.setGroup e.g).indexed e.g ((lanesOf e.act).flatMap rd)).setGroup
      ((({ e.g with frame := f' } : Group).laLines (.tnext o) []).advance (.tnext o))) := by
  subst htn hf
  have hl : indexLanes (lanesOf e.act) (nextCoords (s1.setGroup e.g) e (Tensor.of (e.g.frame.handle o.b.toNat)) o.a.toNat) = _ :=
    indexLanes_ok (g := cs) (rd := rd) (lanesOf e.act) fun l hl => hp l (mem_lanesOf.1 hl)
  refine exec_memDone h (execTnext.eq_1 o s) ?_ rfl (room_pred2 hr (cheaper_run _ (Cheaper.refl _) _))
  unfold nextCoords at hl
  simp only [hk.idle, hk.ours, tensorChecks_none hk, hl, indexFails_nil, Bool.or_self, Bool.false_eq_true, if_false]
  rfl

end Sys2Proof.Laws

namespace Sys2Proof

open Sys2Proof.Machine Sys2Proof.Laws

/-- Settles O41: HSET and HGET by the bits of their field, HLOAD by whether the bytes it reads are poisoned; TLD and TST where their elements
lie, TPOS and TNEXT by what the index reads of each lane give. That HSET looks at poison before it looks at the range of an address, and
that its range trap has access code 0 and the lowest lane of ACTIVE, are the model's choices (log entry 54), and so is what Locate and
Coords return on a tensor that is not well-formed (log entry 17). -/
theorem tensorsAndHandles : Obligations.TensorsAndHandles := by
  unfold Obligations.TensorsAndHandles
  refine ⟨?_, ?_⟩
  · rintro o s s1 g e k a x hk rfl
    refine ⟨?_, ?_, ?_⟩
    · rintro i lo hi regs rfl h hr hd hf rfl hc rfl
      refine ⟨fun hw hx => exec_hset_far h hk hc hw hx, fun hx => ?_⟩
      obtain ⟨hrest, hsome, hothers, hval⟩ := handle_set (f := e.g.frame) hd (fieldSet (e.g.frame.handle o.d.toNat) k
        (e.g.frame.lane o.a.toNat (lowLane e.act)).toNat (e.g.frame.pair o.a.toNat (lowLane e.act)).toNat)
      refine ⟨fieldFrame o e k, exec_hset h hk hc hr hx, hrest, hsome, hothers, fun j hj => ?_⟩
      exact (congrArg (fun y => BitVec.getLsbD y j) hval).trans (fieldSet_getLsbD _ hf hj)
    · rintro i lo hi rfl h hf run hrun hd hr
      exact writes_hget hk hf hrun hd s s1 g e h hr
    · rintro i op y t pa rfl h hr hd rfl ho hy hn hpa hm
      refine ⟨fun hp => ⟨_, exec_hload_poison h ho hy hn hpa hm hp, byte_cells (touch_cells _ _ _)⟩, fun hp => ?_⟩
      obtain ⟨hrest, -, hothers, hval⟩ := handle_set (f := e.g.frame) hd (BitVec.ofNat 256 (t.mem.num pa 32))
      exact ⟨_, _, exec_hload h ho hy hn hpa hm hr hp rfl, byte_cells (touch_cells _ _ _), hrest, hothers, hval⟩
  · rintro o s s1 g e tn a d c s0 htn rfl rfl rfl hc rfl
    refine ⟨fun i hi h hb ho r hr => exec_badHandle hi h htn hb ho hr, ?_, ?_, ?_, ?_⟩
    · rintro i xs t rfl h hr hk got hin hout
      exact ⟨_, _, _, elemFrame_wrote o.d.isLt hin hout, wrotePred_lanes _ _ hc _, readLanes_byte _ _ _, exec_tld h hr htn hk rfl⟩
    · rintro i xs t rfl h hr hk val bad u hval hbad rfl
      refine ⟨fun hm hw => ?_, _, wrotePred_lanes _ _ hc _, exec_tst h hr htn hk hval hbad rfl⟩
      obtain ⟨hwf, hbyte⟩ := writeLanes_mem hm hw
      exact ⟨hwf, fun b => (hbyte b).1⟩
    · rintro i pos rd rfl h hr hd hk hp
      exact ⟨_, _, posFrame_wrote hd pos, wrotePred_test _ _ hc fun l hl => by rw [hits_eq hl], exec_tpos h hr htn hk hp rfl⟩
    · rintro i n rn cs rd rfl h hr hd hk hn hl
      exact ⟨_, _, coordFrame_wrote hd cs, wrotePred_test _ _ hc fun l hl => by rw [hits_eq hl],
        exec_tnext h hr htn hk (fun l ha => nextCoords_eq hn (hl l _ ha rfl)) rfl⟩

end Sys2Proof
end

section
/-! PROOF. Merge sessions (12 R306, R307, R310, R311, R318): MGOPEN by the slots of its landing, MGRESUME by the session it finds. -/

namespace Sys2Proof.Laws

open Sys2Proof.Machine

variable {o : T64} {s s1 t0 t t1 u : State} {g : Group} {e : Env} {desc : MergeDesc} {x : Loc} {y : Session} {sid : Nat}

/-! MGOPEN -/

/-- The session that MGOPEN opens in generation `gen` of its slot (R311). -/
def newSession (ctx gen : Nat) (desc : MergeDesc) : Session :=
  { ctx := ctx, gen := gen, desc := desc, sealed := List.replicate 16 false, held := [], runs := [], state := 1
    cause := 0, flags := 0, drop := false, poison := false, nextRow := 0, e := 0, need := 0, faultVA := 0
    rowDone := false, token := none, opening := !desc.coo, ending := 0, closing := false }

/-- The landing's merge network with a session in a slot, in its generation. -/
def openSlot (t : State) (l k gen : Nat) (y : Session) : State :=
  t.modMN l fun m => { m with slots := m.slots.set k (some y), gens := m.gens.set k gen }

/-- A session of COO output has nothing to write: MGOPEN completes. -/
theorem openWait_of_coo {i : Instr} {d ctx gen : Nat} (hs : t.slotOf sid = some (newSession ctx gen desc)) (hc : desc.coo = true) :
    openWait t i e d sid = done t i (e.g.writeG e.act d (BitVec.ofNat 32 sid)) := by
  unfold openWait
  rw [hs]
  simp [newSession, hc]

/-- A session of CSR output has ROWPTR[0] written first. -/
theorem openWait_of_csr {i : Instr} {d ctx gen : Nat} (hs : t.slotOf sid = some (newSession ctx gen desc)) (hc : desc.coo = false)
    (hu : t.emit (sidLanding sid) ctx [(desc.rowPtr.toNat, toBytes desc.pw 0, false)] = .ok u) :
    openWait t i e d sid = done (u.setSlot (sidLanding sid) (sidSlot sid) (some { newSession ctx gen desc with opening := false })) i
      (e.g.writeG e.act d (BitVec.ofNat 32 sid)) := by
  unfold openWait
  rw [hs]
  simp [newSession, hc, hu, State.settleSlot]

theorem exec_mgopen_full (h : Issues (.mgopen o) s s1 g e) (hm : e.g.mark = none) (hr : RoomFor e.g [o.d.toNat] [] [])
    (hd : DescRead s1 e o.a.toNat [] desc x t0 t) (hf : ∀ k < 8, ((t.landing (home x.pa)).mn.slots.getD k none).isSome = true) :
    exec (.mgopen o) s = .next (t.setGroup ((e.g.writeG e.act o.d.toNat (-1)).advance (.mgopen o))) := by
  refine exec_done h (execMgopen.eq_1 o s) ?_ rfl (laneG o.d.isLt hr _ _)
  simp only [hm, desc_read hd, find_full hf]
  rfl

/-- MGOPEN that finds a free slot opens its session there and goes on from it. -/
theorem execMgopen_free {k gen : Nat} (hm : e.g.mark = none) (hd : DescRead s1 e o.a.toNat [] desc x t0 t) (hk : k < 8)
    (h0 : (t.landing (home x.pa)).mn.slots.getD k none = none)
    (hj : ∀ j < k, ((t.landing (home x.pa)).mn.slots.getD j none).isSome = true)
    (hg : gen = ((t.landing (home x.pa)).mn.gens.getD k 0 + 1) % 65536) :
    ∃ body, exec (.mgopen o) s = issue (.mgopen o) s body ∧ body (s1.setGroup e.g) e =
      openWait (openSlot t (home x.pa) k gen (newSession e.g.ctx gen desc)) (.mgopen o) e o.d.toNat (sessionId (home x.pa) k gen) := by
  subst hg
  refine ⟨_, execMgopen.eq_1 o s, ?_⟩
  simp only [hm, desc_read hd, find_free hk h0 hj]
  rfl

/-! MGRESUME -/

section
variable (h : Issues (.mgresume o) s s1 g e) (hd : DescRead s1 e o.a.toNat [o.b.toNat] desc x t0 t) (hs : sid = e.lowWord o.b.toNat)
include h hd hs

theorem exec_mgresume_gone (hy : t.session? e.g.ctx sid = none) : exec (.mgresume o) s = .next (trapped t g 0 (mkTrap 33 1)) := by
  subst hs
  refine exec_trap_here h (execMgresume.eq_1 o s) (desc_groups hd) ?_
  simp only [desc_read hd, hy]
  rfl

variable (hy : t.session? e.g.ctx sid = some y)
include hy

theorem exec_mgresume_differs (hn : y.desc.resumes desc = false) :
    exec (.mgresume o) s = .next (trapped t g 0 ⟨32, 5, BitVec.ofNat 64 (e.lowPair o.a.toNat)⟩) := by
  subst hs
  refine exec_trap_here h (execMgresume.eq_1 o s) (desc_groups hd) ?_
  simp only [desc_read hd, hy, hn, Bool.not_false, if_true]

theorem exec_mgresume_unstopped (hn : y.desc.resumes desc = true) (h4 : y.state ≠ 4) :
    exec (.mgresume o) s = .next (trapped t g 0 (mkTrap 33 4)) := by
  subst hs
  refine exec_trap_here h (execMgresume.eq_1 o s) (desc_groups hd) ?_
  simp only [desc_read hd, hy, hn, if_pos h4, Bool.not_true, Bool.false_eq_true, if_false]
  rfl

theorem exec_mgresume_stopped (hr : Room e.g) (hn : y.desc.resumes desc = true) (h4 : y.state = 4) :
    exec (.mgresume o) s = .next ((t.setSlot (sidLanding sid) (sidSlot sid)
      (some { y with desc := desc, state := 2, cause := 0, need := 0 })).setGroup (e.g.advance (.mgresume o))) := by
  subst hs
  refine exec_done h (execMgresume.eq_1 o s) ?_ rfl hr
  simp only [desc_read hd, hy, hn, h4, ne_eq, not_true_eq_false, Bool.not_true, Bool.false_eq_true, if_false]

end

end Sys2Proof.Laws

namespace Sys2Proof

open Sys2Proof.Machine Sys2Proof.Laws

/-- Settles O42: with its descriptor read, MGOPEN by whether a slot is free, and then by the output format; MGRESUME by the session that
it finds, its checks in the order of R310, with REASON 5 before REASON 4 as the model's choice (log entry 48). -/
theorem mergeSessions : Obligations.MergeSessions := by
  unfold Obligations.MergeSessions
  rintro o s s1 g e a b d desc x t0 t rfl rfl rfl
  have hd64 : o.d.toNat < 64 := o.d.isLt
  refine ⟨?_, ?_⟩
  · rintro i l m rfl h hm hr hd rfl rfl
    refine ⟨desc_mem hd, fun hf => ⟨_, wrote_all hd64 _, exec_mgopen_full h hm hr hd hf⟩, ?_⟩
    rintro k gen y sid t1 hk h0 hj hg rfl rfl rfl hs
    obtain ⟨body, hx, hb⟩ := execMgopen_free (s := s) hm hd hk h0 hj hg
    have hroom := laneG hd64 hr e.act (BitVec.ofNat 32 (k + 256 * home x.pa + 65536 * gen))
    obtain ⟨hl, hslot⟩ := sid_landing (k := k) (gen := gen) hk hd.landing
    refine ⟨_, wrote_all hd64 _, fun hc => exec_done h hx (hb.trans (openWait_of_coo hs hc)) rfl hroom, fun u hc hu => ?_⟩
    have hw := exec_done h hx (hb.trans (openWait_of_csr hs hc ((congrArg (fun l => State.emit _ l _ _) hl).trans hu))) rfl hroom
    rwa [sessionId, hl, hslot] at hw
  · rintro i sid rfl h hr hd hs
    exact ⟨desc_mem hd, exec_mgresume_gone h hd hs, fun y hy => ⟨exec_mgresume_differs h hd hs hy, exec_mgresume_unstopped h hd hs hy,
      exec_mgresume_stopped h hd hs hy hr⟩⟩

end Sys2Proof
end

section
/-! PROOF. MGPUSH (12 R310, R312): the trap of a batch that finds no session that admits it, and the batch that finds one. -/

namespace Sys2Proof.Laws

open Sys2Proof.Machine

variable {o : T64} {s s1 : State} {g : Group} {e : Env} {sid : Nat} {x : Session} {ls : List Nat} {rest : List (List Nat)}

/-- An MGPUSH has the batch of the lanes `ls` to hand over now, and those of `rest` after it. -/
structure MayPush (o : T64) (s1 : State) (e : Env) (ls : List Nat) (rest : List (List Nat)) : Prop where
  clean : mergePoison e [o.b.toNat, o.c.toNat] [o.a.toNat, o.a.toNat + 1, o.a.toNat + 3] = none
  idle : (s1.setGroup e.g).plainBusy e.g.uid = false
  batch : (Machine.batches e.act).drop e.g.progIdx = ls :: rest

theorem exec_mgpush_trap {r : Nat} (h : Issues (.mgpush o) s s1 g e) (hp : MayPush o s1 e ls rest) (hs : sid = e.lowWord o.b.toNat)
    (hf : SessionFails s1 e sid (some o.c.toNat) [1] r) :
    exec (.mgpush o) s = .next (trapped s1 g 0 (mkTrap 33 (r + 256 * e.g.progIdx))) := by
  subst hs
  have hc : sessionCheck ((s1.setGroup e.g).session? e.g.ctx (e.lowWord o.b.toNat)) (some (e.lowWord o.c.toNat)) [1] = some r :=
    check_fails hf
  refine exec_trap h (execMgpush.eq_1 o s) ?_
  simp only [hp.clean, hp.idle, hp.batch, hc, Bool.false_eq_true, if_false]
  cases (s1.setGroup e.g).session? e.g.ctx (e.lowWord o.b.toNat) <;> rfl

/-- What a batch does at the session that admits it (R312). -/
def pushBatch (o : T64) (t : State) (e : Env) (sid : Nat) (x : Session) (ls : List Nat) (rest : List (List Nat)) : R :=
  if runStore < (t.landing (sidLanding sid)).mn.held + ls.length then .wait t
  else
    let u := t.setSlot (sidLanding sid) (sidSlot sid) (some (x.accept (ls.map (e.g.frame.tuple o.a.toNat))))
    if rest.isEmpty then done u (.mgpush o) e.g else .ok (u.setGroup { e.g with progIdx := e.g.progIdx + 1 })

theorem execMgpush_ready (hp : MayPush o s1 e ls rest) (hk : SessionReady s1 e o.b.toNat (some o.c.toNat) [1] sid x) :
    ∃ body, exec (.mgpush o) s = issue (.mgpush o) s body ∧
      body (s1.setGroup e.g) e = pushBatch o (s1.setGroup e.g) e sid x ls rest := by
  have hn : e.lowWord o.b.toNat = sid := hk.named.symm
  have hc : sessionCheck (some x) (some (e.lowWord o.c.toNat)) [1] = none := check_ready hk
  refine ⟨_, execMgpush.eq_1 o s, ?_⟩
  simp only [hp.clean, hp.idle, hp.batch, hn, hk.session, hc, Bool.false_eq_true, if_false]
  rfl

section
variable (h : Issues (.mgpush o) s s1 g e) (hp : MayPush o s1 e ls rest)
  (hk : SessionReady s1 e o.b.toNat (some o.c.toNat) [1] sid x)
include h hp hk

theorem exec_mgpush_full (hn : runStore < (s1.landing (sidLanding sid)).mn.held + ls.length) :
    exec (.mgpush o) s = .next (s1.setGroup g) := by
  obtain ⟨body, hx, hb⟩ := execMgpush_ready (s := s) hp hk
  exact exec_wait_same h hx (hb.trans (if_pos hn))

variable (hr : Room e.g) (hn : ¬runStore < (s1.landing (sidLanding sid)).mn.held + ls.length) {u : State}
  (hu : u = s1.setSlot (sidLanding sid) (sidSlot sid) (some (x.accept (ls.map (e.g.frame.tuple o.a.toNat)))))
include hr hn hu

theorem exec_mgpush_last (h0 : rest = []) : exec (.mgpush o) s = .next (u.setGroup (e.g.advance (.mgpush o))) := by
  subst hu h0
  obtain ⟨body, hx, hb⟩ := execMgpush_ready (s := s) hp hk
  exact put_group h hx (hb.trans (if_neg hn)) rfl hr

theorem exec_mgpush_more (h0 : rest ≠ []) :
    exec (.mgpush o) s = .next (u.setGroup { e.g with progIdx := e.g.progIdx + 1 }) := by
  subst hu
  obtain ⟨body, hx, hb⟩ := execMgpush_ready (s := s) hp hk
  refine (exec_put (t := (s1.setSlot _ _ _).setGroup e.g) h hx ((hb.trans (if_neg hn)).trans (if_neg (by simpa using h0))) rfl
    (Room.same hr rfl rfl)).trans (congrArg _ (setGroup_setGroup _ _ _ rfl))

end

end Sys2Proof.Laws

namespace Sys2Proof

open Sys2Proof.Machine Sys2Proof.Laws

/-- Settles O43: MGPUSH by what its batch finds at its session. That the sessions of a landing share the 458,752 tuples of its run store,
so that the batch waits where they hold too many together, is the model's choice (R305, R312; log entry 47). -/
theorem mergePush : Obligations.MergePush := by
  unfold Obligations.MergePush
  rintro o i s s1 g e a b c sid ls rest rfl rfl rfl rfl h hr hs hlow hall hidle hbatch
  have hp : MayPush o s1 e ls rest := ⟨mergePoison_all hlow hall, hidle, hbatch⟩
  refine ⟨fun r hf => exec_mgpush_trap h hp hs hf, ?_⟩
  rintro x n hk rfl
  refine ⟨exec_mgpush_full h hp hk, ?_⟩
  rintro ts keep u hn rfl rfl hu
  exact ⟨exec_mgpush_last h hp hk hr (Nat.not_lt.2 hn) hu, exec_mgpush_more h hp hk hr (Nat.not_lt.2 hn) hu⟩

end Sys2Proof
end

section
/-! PROOF. Commands on merge sessions (12 R310, R313, R319 to R322): the trap of a session that does not admit the command, and each
command by the session it finds. -/

namespace Sys2Proof.Laws

open Sys2Proof.Machine

variable {i : Instr} {o : T64} {s s1 t : State} {g : Group} {e : Env} {sid : Nat} {x : Session}

/-- A session put in the slot that an id names, or the slot freed. -/
def putSession (s : State) (sid : Nat) (y : Option Session) : State := s.setSlot (sidLanding sid) (sidSlot sid) y

/-! Sessions that do not admit the command -/

/-- The commands on a session that a register names, MGWAIT and MGCLOSE before they wait, begin with the checks of R310. -/
theorem exec_sessionFirst {stream : Option Nat} {states : List Nat} (hm : e.g.mark = none)
    (hi : (i, stream, states) ∈ ([(.mgseal o, some o.c.toNat, [1]), (.mgwait o, none, [1, 2, 3, 4, 5]), (.mgstat o, none, [1, 2, 3, 4, 5]),
      (.mgclose o, none, [1, 2, 3, 4, 5])] : List (Instr × Option Nat × List Nat))) :
    ∃ (body : State → Env → R) (go : State → Nat → Session → R), exec i s = issue i s body ∧
      ∀ t, body t e = sessionOp t e o.b.toNat stream states (go t) := by
  simp only [List.mem_cons, Prod.mk.injEq, List.not_mem_nil, or_false] at hi
  obtain ⟨rfl, rfl, rfl⟩ | ⟨rfl, rfl, rfl⟩ | ⟨rfl, rfl, rfl⟩ | ⟨rfl, rfl, rfl⟩ := hi
  · exact ⟨_, _, execMgseal.eq_1 o s, fun _ => rfl⟩
  · exact ⟨_, _, execMgwait.eq_1 o s, fun _ => by simp only [hm]; rfl⟩
  · exact ⟨_, _, execMgstat.eq_1 o s, fun _ => rfl⟩
  · exact ⟨_, _, execMgclose.eq_1 o s, fun _ => by simp only [hm]; rfl⟩

/-! MGSEAL -/

/-- A session with one more stream sealed. -/
def sealedAt (x : Session) (k : Nat) : Session := { x with sealed := x.sealed.set k true }

/-- Every stream of a session is sealed. -/
def allSealed (x : Session) : Bool := (List.range x.desc.streams).all fun j => x.sealed.getD j false

theorem allSealed_iff : allSealed x = true ↔ ∀ j < x.desc.streams, x.sealed.getD j false = true := by
  simp [allSealed]

theorem exec_mgseal {y : Session} (h : Issues (.mgseal o) s s1 g e) (hr : Room e.g)
    (hk : SessionReady s1 e o.b.toNat (some o.c.toNat) [1] sid x) (hy : y = sealedAt x (e.lowWord o.c.toNat)) :
    exec (.mgseal o) s = .next ((putSession s1 sid (some { y with state := if allSealed y then 2 else 1 })).setGroup
      (e.g.advance (.mgseal o))) := by
  subst hy
  exact put_group h (execMgseal.eq_1 o s) (sessionOp_ready hk) rfl hr

/-! MGWAIT -/

/-- What MGWAIT does with the session that it finds (R320). -/
def awaitRest (o : T64) (t : State) (e : Env) (sid : Nat) (x : Session) : R :=
  if 3 ≤ x.state then done t (.mgwait o) (e.g.writeG e.act o.d.toNat (BitVec.ofNat 32 (x.word0 x.state)))
  else .wait (t.modGroup e.g.uid fun k => { k with mark := some sid })

theorem execMgwait_found (hk : e.g.mark = none ∧ SessionReady s1 e o.b.toNat none [1, 2, 3, 4, 5] sid x ∨
    e.g.mark = some sid ∧ (s1.setGroup e.g).session? e.g.ctx sid = some x) :
    ∃ body, exec (.mgwait o) s = issue (.mgwait o) s body ∧ body (s1.setGroup e.g) e = awaitRest o (s1.setGroup e.g) e sid x := by
  refine ⟨_, execMgwait.eq_1 o s, ?_⟩
  obtain ⟨hm, hk⟩ | ⟨hm, hx⟩ := hk
  · simp only [hm]
    exact sessionOp_ready hk
  · simp only [hm, hx]
    rfl

section
variable (h : Issues (.mgwait o) s s1 g e) (hk : e.g.mark = none ∧ SessionReady s1 e o.b.toNat none [1, 2, 3, 4, 5] sid x ∨
  e.g.mark = some sid ∧ (s1.setGroup e.g).session? e.g.ctx sid = some x)
include h hk

theorem exec_mgwait_waits (hx : x.state < 3) : exec (.mgwait o) s = .next (s1.setGroup { g with mark := some sid }) := by
  obtain ⟨body, hx', hb⟩ := execMgwait_found (s := s) hk
  exact exec_wait_self (F := fun k => { k with mark := some sid }) h hx' (hb.trans (if_neg (Nat.not_le.2 hx))) (fun _ => rfl) rfl

theorem exec_mgwait_rested (hr : RoomFor e.g [o.d.toNat] [] []) (hx : 3 ≤ x.state) :
    exec (.mgwait o) s = .next (s1.setGroup ((e.g.writeG e.act o.d.toNat (BitVec.ofNat 32 (x.word0 x.state))).advance (.mgwait o))) := by
  obtain ⟨body, hx', hb⟩ := execMgwait_found (s := s) hk
  exact exec_self_done h hx' (hb.trans (if_pos hx)) rfl (laneG o.d.isLt hr _ _)

end

theorem exec_mgwait_closed (h : Issues (.mgwait o) s s1 g e) (hr : RoomFor e.g [o.d.toNat] [] []) (hm : e.g.mark = some sid)
    (hx : (s1.setGroup e.g).session? e.g.ctx sid = none) :
    exec (.mgwait o) s = .next (s1.setGroup ((e.g.writeG e.act o.d.toNat 0).advance (.mgwait o))) := by
  refine exec_self_done h (execMgwait.eq_1 o s) ?_ rfl (laneG o.d.isLt hr _ _)
  simp only [hm, hx]
  rfl

/-! MGSTAT -/

/-- A session without its flags (R319). -/
def unflagged (x : Session) : Session := { x with flags := 0, drop := false, poison := false }

theorem exec_mgstat {k : Group} (h : Issues (.mgstat o) s s1 g e) (hk : SessionReady s1 e o.b.toNat none [1, 2, 3, 4, 5] sid x)
    (hq : e.g.writeQuad e.act o.d.toNat (x.words x.state) = k) (hu : k.uid = e.g.uid) (hr : Room k) :
    exec (.mgstat o) s = .next ((if o.ctl.getLsbD 1 then putSession s1 sid (some (unflagged x)) else s1).setGroup (k.advance (.mgstat o))) := by
  subst hq
  refine put_group h (execMgstat.eq_1 o s) ((sessionOp_ready hk).trans ?_) hu hr
  dsimp only
  split <;> rfl

/-! MGCLOSE -/

section
variable (h : Issues (.mgclose o) s s1 g e)
include h

theorem exec_mgclose_frees (hr : Room e.g) (hm : e.g.mark = none) (hk : SessionReady s1 e o.b.toNat none [1, 2, 3, 4, 5] sid x)
    (hw : x.writing = false) (hs : (putSession s1 sid none).slotOf sid = none) :
    exec (.mgclose o) s = .next ((putSession s1 sid none).setGroup (e.g.advance (.mgclose o))) := by
  have hc : (s1.setGroup e.g).closeSession (sidLanding sid) (sidSlot sid) x = (putSession s1 sid none).setGroup e.g := by
    unfold State.closeSession
    rw [hw]
    rfl
  have hs' : ((putSession s1 sid none).setGroup e.g).slotOf sid = none := hs
  refine put_group h (execMgclose.eq_1 o s) ?_ rfl hr
  simp only [hm, sessionOp_ready hk, hc, hs', Option.isSome_none, Bool.false_eq_true, if_false]

/-- A close waits for the writes that the session has begun, and discards what it holds where a row is written (R321). -/
theorem exec_mgclose_waits {y : Session} (hm : e.g.mark = none) (hk : SessionReady s1 e o.b.toNat none [1, 2, 3, 4, 5] sid x)
    (hw : x.writing = true) (hy : y = { x with closing := true, held := if x.rowDone then [] else x.held })
    (hs : (putSession s1 sid (some y)).slotOf sid = some y) :
    exec (.mgclose o) s = .next ((putSession s1 sid (some y)).setGroup { g with mark := some sid, busy := true }) := by
  have hc : (s1.setGroup e.g).closeSession (sidLanding sid) (sidSlot sid) x = (putSession s1 sid (some y)).setGroup e.g := by
    unfold State.closeSession
    rw [hw, hy]
    rfl
  have hs' : ((putSession s1 sid (some y)).setGroup e.g).slotOf sid = some y := hs
  refine (exec_wait_at (u := (putSession s1 sid (some y)).setGroup e.g) (F := fun k => { k with mark := some sid, busy := true }) h
    (execMgclose.eq_1 o s) rfl ?_ (fun _ => rfl) rfl).trans (congrArg _ (setGroup_setGroup _ _ _ (issues_uid h).symm))
  simp only [hm, sessionOp_ready hk, hc, hs', Option.isSome_some, if_true]

/-- A close that waits for writes goes on once its slot is free. -/
theorem exec_mgclose_freed (hr : Room e.g) (hm : e.g.mark = some sid) (hn : s1.slotOf sid = none) :
    exec (.mgclose o) s = .next (s1.setGroup (e.g.advance (.mgclose o))) := by
  have hs : (s1.setGroup e.g).slotOf sid = none := hn
  refine exec_self_done h (execMgclose.eq_1 o s) ?_ rfl hr
  simp only [hm, hs, Option.isSome_none, Bool.false_eq_true, if_false]

theorem exec_mgclose_held (hm : e.g.mark = some sid) (hn : s1.slotOf sid = some x) : exec (.mgclose o) s = .next (s1.setGroup g) := by
  have hs : (s1.setGroup e.g).slotOf sid = some x := hn
  refine exec_wait_same h (execMgclose.eq_1 o s) ?_
  simp only [hm, hs, Option.isSome_some, if_true]

end

/-! MGSTAT.K -/

theorem exec_mgstatK {y : Loc} {l : Nat} {m : MergeNet} {k : Group} (h : Issues (.mgstatK o) s s1 g e)
    (hy : OneAddr true accEngR ⟨[o.a.toNat, o.a.toNat + 1], 1, fun l => (e.g.frame.pair o.a.toNat l).toNat⟩ s1 e y t)
    (hl : l = home y.pa) (hm : m = (t.landing l).mn)
    (hq : e.g.writeQuad e.act o.d.toNat [256 * m.kflags.toNat + (if m.kpoison then 16384 else 0), m.keyed.length, m.kruns, 0] = k)
    (hu : k.uid = e.g.uid) (hr : Room k) :
    exec (.mgstatK o) s = .next ((if o.ctl.getLsbD 1 then t.modMN l fun m => { m with kflags := 0, kpoison := false } else t).setGroup
      (k.advance (.mgstatK o))) := by
  subst hl hm hq
  obtain ⟨j, hj⟩ := resolveOne_addr hy false (fun hc => by cases hc)
  refine exec_done h (execMgstatK.eq_1 o s) ?_ hu hr
  simp only [hj]

end Sys2Proof.Laws

namespace Sys2Proof

open Sys2Proof.Machine Sys2Proof.Laws

/-- Settles O44: each command by the session that it finds; one that does not admit the command fails the checks that the commands on a
session share. Status word 0 is the model's `Session.word0` (R319, Table 12-9). -/
theorem mergeCommands : Obligations.MergeCommands := by
  unfold Obligations.MergeCommands
  rintro o s s1 g e a b c d sid x rfl rfl rfl rfl any put
  refine ⟨?_, ?_, ?_, ?_, ?_, ?_⟩
  · intro i stream states hi h hm hc hb hs r hf
    obtain ⟨body, go, hx, hbody⟩ := exec_sessionFirst (s := s) hm hi
    exact exec_trap h hx ((hbody _).trans (sessionOp_fails hc hb hs hf))
  · rintro i k y rfl h hr hk rfl rfl
    have hx := exec_mgseal h hr hk rfl
    refine ⟨fun hall => ?_, fun ⟨j, hj, hopen⟩ => ?_⟩
    · rwa [if_pos (allSealed_iff.2 hall)] at hx
    · rwa [if_neg (fun hall => ?_)] at hx
      exact Bool.false_ne_true (hopen.symm.trans (allSealed_iff.1 hall j hj))
  · rintro i rfl h hr
    have hd : o.d.toNat < 64 := o.d.isLt
    exact ⟨fun hk => ⟨exec_mgwait_waits h hk, fun hx => ⟨_, wrote_all hd _, exec_mgwait_rested h hk hr hx⟩⟩,
      fun hm hx => ⟨_, wrote_all hd _, exec_mgwait_closed h hr hm hx⟩⟩
  · rintro i rfl h hr hd hk
    obtain ⟨f', hw, hq, hroom⟩ := writeQuad_wrote (g := e.g) (act := e.act) (x.words x.state) hd
    exact ⟨f', hw, exec_mgstat h hk hq rfl (hroom hr)⟩
  · rintro i rfl h hr
    refine ⟨fun hm hk => ⟨fun h1 h2 h3 => exec_mgclose_frees h hr hm hk ?_, fun y hw => exec_mgclose_waits h hm hk ?_⟩,
      fun hm => ⟨exec_mgclose_freed h hr hm, exec_mgclose_held h hm⟩⟩
    · simp [Session.writing, h1, h2, h3]
    · simpa [Session.writing, or_assoc] using hw
  · rintro i y t l m rfl h hr hd hy hl hm
    obtain ⟨f', hw, hq, hroom⟩ := writeQuad_wrote (g := e.g) (act := e.act)
      [256 * m.kflags.toNat + (if m.kpoison then 16384 else 0), m.keyed.length, m.kruns, 0] hd
    exact ⟨f', hw, exec_mgstatK h hy hl hm hq rfl (hroom hr)⟩

end Sys2Proof
end

section
/-! PROOF. Trap entry (17 R353 to R356): where it is delivered and has room, and at the greatest depth. -/

namespace Sys2Proof.Laws

open Sys2Proof.Machine

variable {s : State} {g : Group} {t : Trap}

/-- A trap is delivered by entry under a vector, at its own level except for cause 37, or from PL0 where it is delegated (R353). -/
theorem entersTrap_iff {c : Ctx} {n : Nat} : c.entersTrap n = true ↔
    c.utrapVec ≠ 0 ∧ (1 ≤ c.pl ∧ n ≠ 37 ∨ c.pl = 0 ∧ c.trapDeleg.getLsbD n = true) := by
  simp [Ctx.entersTrap]

theorem takeTrap_enters (h : (s.ctx g.ctx).entersTrap t.cause = true) : s.takeTrap g t = s.trapEntry g t := if_pos h

/-- Below the greatest depth, with spill room and room in the window store, entry only changes the group (R354). -/
theorem trapEntry_fits (hd : g.depth ≠ 65535) (hs : s.spillTop g + g.olderBytes + (g.frame.image 0).length ≤ s.spillLim g)
    (hr : Room (g.enterTrap t (s.ctx g.ctx).utrapVec)) :
    s.trapEntry g t = s.setGroup (g.enterTrap t (s.ctx g.ctx).utrapVec) := by
  have hfits : (g.enterTrap t (s.ctx g.ctx).utrapVec).fits = true := by
    have holder : (g.enterTrap t (s.ctx g.ctx).utrapVec).older.isEmpty = false := rfl
    rwa [Room, holder, Bool.or_false] at hr
  simp only [State.trapEntry, if_neg hd, if_neg (Nat.not_lt.2 hs), hfits, Bool.true_or, if_true]

theorem trapEntry_deepest (hd : g.depth = 65535) : s.trapEntry g t = s.trapPark g (mkTrap 37 t.cause) t 3 := if_pos hd

/-- A handler's frame holds the trap record and nothing else (R354). -/
theorem trapFrame_reg?_of_ge (g : Group) (t : Trap) {k : Nat} (hk : 8 ≤ k) : (trapFrame g t).reg? k = none := by
  unfold Frame.reg? trapFrame
  dsimp only
  rw [List.getD_append_right _ _ _ _ hk]
  exact List.getElem?_getD_replicate_default_eq ..

/-- No predicate, handle or outstanding copy is in a handler's frame. -/
theorem trapFrame_rest (g : Group) (t : Trap) {k : Nat} (hk : k < 8) : (trapFrame g t).p.getD k none = none ∧
    (trapFrame g t).h.getD k none = none ∧ (trapFrame g t).k.getD k Token.complete = Token.complete :=
  ⟨List.getD_replicate _ hk, List.getD_replicate _ hk, List.getD_replicate _ hk⟩

/-- TRAPINFO[5:0] holds a cause below 64. -/
theorem mkTrap_info_mod {c n : Nat} (hn : n < 64) : (mkTrap c n).info.toNat % 64 = n := by
  simp only [mkTrap, BitVec.toNat_ofNat]
  omega

end Sys2Proof.Laws

namespace Sys2Proof

open Sys2Proof.Machine Sys2Proof.Laws

/-- Settles O23: entry as a change of the group, and the handler's frame register by register. -/
theorem trapEntry : Obligations.TrapEntry := by
  unfold Obligations.TrapEntry
  rintro s g t c rfl hv ht hd hs h rfl hr
  have henters : (s.ctx g.ctx).entersTrap t.cause = true := entersTrap_iff.2 ⟨hv, ht⟩
  refine ⟨(takeTrap_enters henters).trans (trapEntry_fits hd hs hr), rfl, rfl, rfl, rfl, fun k => trapFrame_rest g t,
    fun k => trapFrame_reg?_of_ge g t, ?_⟩
  intro k x hx
  simp only [List.mem_cons, Prod.mk.injEq, List.not_mem_nil, or_false] at hx
  obtain ⟨rfl, rfl⟩ | ⟨rfl, rfl⟩ | ⟨rfl, rfl⟩ | ⟨rfl, rfl⟩ |
    ⟨rfl, rfl⟩ | ⟨rfl, rfl⟩ | ⟨rfl, rfl⟩ | ⟨rfl, rfl⟩ := hx <;> rfl

/-- Settles O24: at the greatest depth entry is a park with REASON 3. -/
theorem trapEntryFails : Obligations.TrapEntryFails := by
  unfold Obligations.TrapEntryFails
  intro s g t henters hd hc
  exact ⟨mkTrap 37 t.cause, (takeTrap_enters henters).trans (trapEntry_deepest hd), rfl, mkTrap_info_mod hc⟩

end Sys2Proof
end

section
/-! PROOF. RTE (17 R355, R359): its checks in order, and the frame it makes current again. -/

namespace Sys2Proof.Laws

open Sys2Proof.Machine

/-- The status and the mode that a trap saves: no bit at or above 9 or 8, and no cause at or above 64 (R354, R359). -/
def SavedLegal (st gm : Word) : Prop := st.toNat < 512 ∧ st.toNat / 64 % 4 = 0 ∧ gm.toNat < 256

theorem shift_ne_zero {x : Word} {k : Nat} : (x >>> k != 0) = false ↔ x.toNat < 2 ^ k := by
  rw [bne_eq_false_iff_eq, BitVec.toNat_eq, BitVec.toNat_ushiftRight, Nat.shiftRight_eq_div_pow]
  exact Nat.div_eq_zero_iff_lt (by positivity)

/-- RTE's check of what a trap saved passes what is legal. -/
theorem savedCheck_iff {st gm : Word} :
    (st >>> 9 != 0 || st.extractLsb' 6 2 != 0 || gm >>> 8 != 0) = false ↔ SavedLegal st gm := by
  have hmid : (st.extractLsb' 6 2 != 0) = false ↔ st.toNat / 64 % 4 = 0 := by
    rw [bne_eq_false_iff_eq, BitVec.toNat_eq, BitVec.extractLsb'_toNat, Nat.shiftRight_eq_div_pow]
    rfl
  rw [Bool.or_eq_false_iff, Bool.or_eq_false_iff, shift_ne_zero, shift_ne_zero, hmid, and_assoc]
  rfl

/-- v0 to v3 are present (R359). -/
def SavedHere (f : Frame) : Prop := ∀ n < 4, ∃ r, f.reg? n = some r

theorem savedHere_iff {f : Frame} : ([0, 1, 2, 3].any fun n => (f.reg? n).isNone) = false ↔ SavedHere f := by
  have hrange : ([0, 1, 2, 3] : List Nat) = List.range 4 := rfl
  simp [hrange, SavedHere, ← Option.ne_none_iff_exists']

/-- The first of v0 to v3 that is poisoned in a lane. -/
theorem savedPoison_some {f : Frame} {l n : Nat} (hn : n < 4) (hb : f.bad n l = true) (hm : ∀ k < n, f.bad k l = false) :
    [0, 1, 2, 3].find? (fun n => f.bad n l) = some n :=
  (List.find?_range_eq_some (n := 4) (p := fun n => f.bad n l)).2 ⟨hb, List.mem_range.2 hn, fun j hj => by simp [hm j hj]⟩

theorem savedPoison_none {f : Frame} {l : Nat} (hc : ∀ n < 4, f.bad n l = false) : [0, 1, 2, 3].find? (fun n => f.bad n l) = none :=
  (List.find?_range_eq_none (n := 4) (p := fun n => f.bad n l)).2 fun n hn => by simp [hc n hn]

/-- What RTE does at the pc that the trap saved (R359). -/
def resumeAt (o : T64) (t : State) (g : Group) (pc : DWord) (st gm : Word) : R :=
  if 2 ^ 56 ≤ pc.toNat then .trap t (laneTrap 6 5 g.active pc.toNat)
  else if pc.getLsbD 0 then .trap t (laneTrap 5 0 g.active pc.toNat)
  else
    match g.older with
    | [] => .wait (t.modGroup g.uid fun h => { h with wse := .refill })
    | c :: _ =>
      if c.lost then .trap t (spillImageError 0)
      else .ok (t.setGroup ((g.advance (.rte o)).returnTrap (g.resumed c) pc st gm))

section
variable {o : T64} {s s1 : State} {g : Group} {e : Env} (h : Issues (.rte o) s s1 g e)
include h

theorem exec_rte_outside (hi : e.g.inTrap = false) : exec (.rte o) s = .next (trapped s1 g 0 (mkTrap 17 2)) := by
  refine exec_trap h (execRte.eq_1 o s) ?_
  simp only [hi, Bool.not_false, if_true]
  rfl

variable (hi : e.g.inTrap = true)
include hi

theorem exec_rte_outermost (hd : e.g.depth = 0) : exec (.rte o) s = .next (trapped s1 g 0 (mkTrap 17 3)) := by
  refine exec_trap h (execRte.eq_1 o s) ?_
  simp only [hi, hd, Bool.not_true, Bool.false_eq_true, if_false, if_true]
  rfl

variable (hd : 0 < e.g.depth)
include hd

theorem exec_rte_unsaved
    (hn : ¬(SavedHere e.g.frame ∧ SavedLegal (e.g.frame.lane 2 (lowLane e.g.active)) (e.g.frame.lane 3 (lowLane e.g.active)))) :
    exec (.rte o) s = .next (trapped s1 g 0 (mkTrap 17 4)) := by
  refine exec_trap h (execRte.eq_1 o s) ?_
  simp only [hi, hd.ne', Bool.not_true, Bool.false_eq_true, if_false]
  rw [← savedHere_iff, ← savedCheck_iff, not_and_or, Bool.not_eq_false, Bool.not_eq_false] at hn
  split
  · rfl
  · next hhere => exact if_pos (hn.resolve_left hhere)

variable (hh : SavedHere e.g.frame) (hl : SavedLegal (e.g.frame.lane 2 (lowLane e.g.active)) (e.g.frame.lane 3 (lowLane e.g.active)))
include hh hl

theorem exec_rte_poison {n : Nat} (hn : n < 4) (hb : e.g.frame.bad n (lowLane e.g.active) = true)
    (hm : ∀ k < n, e.g.frame.bad k (lowLane e.g.active) = false) :
    exec (.rte o) s = .next (trapped s1 g 0 (mkTrap 13 (n + 256 * lowLane e.g.active))) := by
  refine exec_trap h (execRte.eq_1 o s) ?_
  simp only [hi, hd.ne', savedHere_iff.2 hh, savedCheck_iff.2 hl, savedPoison_some hn hb hm, Bool.not_true, Bool.false_eq_true, if_false]

omit h in
/-- With ADV clear, RTE goes to the saved pc itself. -/
theorem exec_rte_resumes (ha : o.ctl.getLsbD 0 = false) (hc : ∀ n < 4, e.g.frame.bad n (lowLane e.g.active) = false) :
    ∃ body, exec (.rte o) s = issue (.rte o) s body ∧ body (s1.setGroup e.g) e = resumeAt o (s1.setGroup e.g) e.g
      (e.g.frame.pair 0 (lowLane e.g.active)) (e.g.frame.lane 2 (lowLane e.g.active)) (e.g.frame.lane 3 (lowLane e.g.active)) := by
  refine ⟨_, execRte.eq_1 o s, ?_⟩
  simp only [hi, hd.ne', savedHere_iff.2 hh, savedCheck_iff.2 hl, savedPoison_none hc, ha, Bool.not_true, Bool.false_eq_true, if_false]
  unfold resumeAt
  cases e.g.older <;> rfl

end

section
variable {o : T64} {t : State} {g : Group} {pc : DWord} {st gm : Word}

theorem resumeAt_far (hp : 2 ^ 56 ≤ pc.toNat) : resumeAt o t g pc st gm = .trap t (laneTrap 6 5 g.active pc.toNat) := if_pos hp

theorem odd_iff {n : Nat} {x : BitVec n} : x.getLsbD 0 = true ↔ x.toNat % 2 = 1 := by
  rw [show x.getLsbD 0 = decide (x.toNat % 2 = 1) from Nat.testBit_zero x.toNat, decide_eq_true_iff]

theorem resumeAt_odd (hp : pc.toNat < 2 ^ 56) (h2 : pc.toNat % 2 = 1) :
    resumeAt o t g pc st gm = .trap t (laneTrap 5 0 g.active pc.toNat) :=
  (if_neg (Nat.not_le.2 hp)).trans (if_pos (odd_iff.2 h2))

variable (hp : pc.toNat < 2 ^ 56) (h2 : pc.toNat % 2 = 0)
include hp h2

theorem resumeAt_absent (ho : g.older = []) :
    resumeAt o t g pc st gm = .wait (t.modGroup g.uid fun h => { h with wse := .refill }) := by
  refine (if_neg (Nat.not_le.2 hp)).trans ((if_neg (by rw [odd_iff]; omega)).trans ?_)
  rw [ho]

theorem resumeAt_resident {c : Frame} {rest : List Frame} (ho : g.older = c :: rest) : resumeAt o t g pc st gm =
    if c.lost then .trap t (spillImageError 0) else .ok (t.setGroup ((g.advance (.rte o)).returnTrap (g.resumed c) pc st gm)) := by
  refine (if_neg (Nat.not_le.2 hp)).trans ((if_neg (by rw [odd_iff]; omega)).trans ?_)
  rw [ho]

end

/-- A frame that is current again has taken back what its callee shared with it, unless trap entry made it previous (R355). -/
theorem resumed_reg? (g : Group) (c : Frame) {k : Nat} (hk : k < 64) : (g.resumed c).reg? k =
    if c.tp = false ∧ c.fsz - 8 ≤ k ∧ k < c.fsz then g.frame.reg? (k - (c.fsz - 8)) else c.reg? k := by
  have hv : (g.resumed c).v = (List.range 64).map fun n => if n < c.fsz then g.prevReg c n else c.reg? n := rfl
  have hshared : ((!c.tp && decide (c.fsz - 8 ≤ k)) = true) ↔ c.tp = false ∧ c.fsz - 8 ≤ k := by simp
  rw [reg?_of_v_eq hv, if_pos hk, Group.prevReg, if_congr hshared rfl rfl]
  by_cases hin : k < c.fsz
  · simp only [hin, if_true, and_true]
  · simp only [hin, if_false, and_false]

end Sys2Proof.Laws

namespace Sys2Proof

open Sys2Proof.Machine Sys2Proof.Laws

/-- Settles O25: RTE's checks one after another, and then its saved pc. That a return to a frame whose record was lost takes the spill
image error with TRAPADDR 0 (log entry 81), and that the frame takes back what its callee shared with it and loses TP (log entry 61), are
the model's choices. -/
theorem trapReturn : Obligations.TrapReturn := by
  unfold Obligations.TrapReturn
  rintro o i rfl hadv s s1 g e h l0 w pc here legal
  refine ⟨exec_rte_outside h, exec_rte_outermost h, exec_rte_unsaved h, fun hi hd hh hl =>
    ⟨fun n hn hb hm => exec_rte_poison h hi hd hh hl hn hb hm, fun hc => ?_⟩⟩
  obtain ⟨body, hx, hb⟩ := exec_rte_resumes (s := s) hi hd hh hl hadv hc
  refine ⟨fun hp => exec_trap h hx (hb.trans (resumeAt_far hp)), fun hp h2 => exec_trap h hx (hb.trans (resumeAt_odd hp h2)),
    fun hp h2 ho => ?_, fun hp h2 c rest ho hlost => ?_, fun hp h2 c rest ho hlost k hk hr => ⟨?_, ?_, fun n hn => ?_⟩⟩
  · exact exec_wait_self (F := fun x => { x with wse := .refill }) h hx (hb.trans (resumeAt_absent hp h2 ho)) (fun _ => rfl) rfl
  · exact exec_trap h hx (hb.trans ((resumeAt_resident hp h2 ho).trans (if_pos hlost)))
  · subst hk
    exact exec_self h hx (hb.trans ((resumeAt_resident hp h2 ho).trans (if_neg (by simp [hlost])))) rfl hr
  · subst hk
    have hrest : (e.g.advance (.rte o)).older.drop 1 = rest := by rw [advance_older, ho]; rfl
    simp only [Group.returnTrap, hrest]
    rfl
  · subst hk
    exact resumed_reg? e.g c hn

end Sys2Proof
end

section
/-! PROOF. The previous frame from a trap handler (03 R57; 07 R171; 17 R355, R358): the checks that RDPREV, RDPREV.P, WRPREV and WRPREV.P
share, what the reads take, and what the writes put. -/

namespace Sys2Proof.Laws

open Sys2Proof.Machine

variable {o : T64} {i : Instr} {s s1 : State} {g : Group} {e : Env} {c : Frame} {rest : List Frame}

/-! The checks -/

/-- Each of the four instructions is its own effect after the checks they share. -/
theorem exec_prev {p : Bool}
    (hi : (p = false ∧ (i = .rdprev o ∨ i = .wrprev o)) ∨ (p = true ∧ (i = .rdprevP o ∨ i = .wrprevP o))) (s : State) :
    ∃ go : State → Env → Frame → R, exec i s = issue i s fun s e => prevOp s e o.a.toNat p (go s e) := by
  obtain ⟨rfl, rfl | rfl⟩ | ⟨rfl, rfl | rfl⟩ := hi
  · exact ⟨_, execRdprev.eq_1 o s⟩
  · exact ⟨_, execWrprev.eq_1 o s⟩
  · exact ⟨_, execRdprevP.eq_1 o s⟩
  · exact ⟨_, execWrprevP.eq_1 o s⟩

section
variable {t : State} {a : Nat} {p : Bool} {go : Frame → R}

theorem prevOp_outside (hi : e.g.inTrap = false) : prevOp t e a p go = .trap t (mkTrap 17 2) := if_pos (by rw [hi]; rfl)

variable (hi : e.g.inTrap = true)
include hi

theorem prevOp_outermost (hd : e.g.depth = 0) : prevOp t e a p go = .trap t (mkTrap 17 3) :=
  (if_neg (by rw [hi]; decide)).trans (if_pos hd)

variable (hd : 0 < e.g.depth)
include hd

theorem prevOp_absent (ho : e.g.older = []) : prevOp t e a p go = .wait (t.modGroup e.g.uid fun h => { h with wse := .refill }) := by
  refine (if_neg (by rw [hi]; decide)).trans ((if_neg hd.ne').trans ?_)
  rw [ho]

variable (ho : e.g.older = c :: rest)
include ho

theorem prevOp_poison {l : Nat} (ha : a < 64) (hp : FirstPoison e.g.frame e.act [a] a l) :
    prevOp t e a p go = .trap t (mkTrap 13 (a + 256 * l)) := by
  refine (if_neg (by rw [hi]; decide)).trans ((if_neg hd.ne').trans ?_)
  simp only [ho, poisonUse_first ha hp]

/-- The lowest lane whose index is out of the previous frame traps (R358). -/
theorem prevOp_range {l : Nat} (hc : ∀ l, e.act.getLsbD l = true → e.g.frame.bad a l = false) (hl : e.act.getLsbD l = true)
    (hx : (if p then 8 else c.fsz) ≤ (e.g.frame.lane a l).toNat)
    (hlow : ∀ k < l, e.act.getLsbD k = true → (e.g.frame.lane a k).toNat < if p then 8 else c.fsz) :
    prevOp t e a p go = .trap t (mkTrap 3 ((e.g.frame.lane a l).toNat % 64 + 256 * l)) := by
  have hfind : (lanesOf e.act).find? (fun l => decide ((if p then 8 else c.fsz) ≤ (e.g.frame.lane a l).toNat)) = some l :=
    find_lane hl (decide_eq_true hx) fun k hk hak hle => Nat.not_le.2 (hlow k hk hak) (of_decide_eq_true hle)
  refine (if_neg (by rw [hi]; decide)).trans ((if_neg hd.ne').trans ?_)
  simp only [ho, poisonUse_none (List.forall_mem_singleton.2 hc), hfind]

end

/-! Reads -/

/-- The indices of a class that lanes of ACTIVE name and that nothing holds: what DEADRD and DEADTRAP are about (02 R37). -/
def goneReads (e : Env) (a cls : Nat) (absent : Nat → Bool) : List (Nat × Nat) :=
  (((lanesOf e.act).filter absent).foldl (fun (xs : List Nat) l => natInsert xs (e.index a l)) []).map fun n => (cls, n)

section
variable {a cls : Nat} {absent : Nat → Bool}

theorem mem_goneReads {y : Nat × Nat} :
    y ∈ goneReads e a cls absent ↔ ∃ l, e.act.getLsbD l = true ∧ absent l = true ∧ y = (cls, e.index a l) := by
  simp only [goneReads, List.mem_map, insert_mem, List.mem_filter, mem_lanesOf]
  constructor
  · rintro ⟨_, ⟨l, ⟨hl, hg⟩, rfl⟩, rfl⟩
    exact ⟨l, hl, hg, rfl⟩
  · rintro ⟨l, hl, hg, rfl⟩
    exact ⟨_, ⟨l, ⟨hl, hg⟩, rfl⟩, rfl⟩

variable {P : Nat → Prop} (hP : ∀ l, absent l = true ↔ P l)
include hP

/-- Under DEADTRAP, a lane that names something absent makes the read trap for such a lane. -/
theorem goneReads_trap {t : State} (hd : e.g.deadTrap = true) (hg : ∃ l, e.act.getLsbD l = true ∧ P l) :
    ∃ l, e.act.getLsbD l = true ∧ P l ∧ t.deadRead e.g (goneReads e a cls absent) = .error (mkTrap 14 (e.index a l + 64 * cls)) := by
  obtain ⟨l, hl, hgl⟩ := hg
  obtain ⟨y, hy, htrap⟩ := deadRead_trap (s := t) (List.ne_nil_of_mem (mem_goneReads.2 ⟨l, hl, (hP l).2 hgl, rfl⟩)) hd
  obtain ⟨k, hk, hgk, rfl⟩ := mem_goneReads.1 hy
  exact ⟨k, hk, (hP k).1 hgk, htrap⟩

/-- Else the read only sets DEADRD, where a lane names something absent (R37, R358). -/
theorem goneReads_sticky {t : State} {st : Word} (hd : e.g.deadTrap = false ∨ st = 0)
    (hsome : (∃ l, e.act.getLsbD l = true ∧ P l) → st = DEADRD) (hnone : (∀ l, e.act.getLsbD l = true → ¬P l) → st = 0) :
    t.deadRead e.g (goneReads e a cls absent) = .ok (e.g.sticky st) := by
  by_cases hg : ∃ l, e.act.getLsbD l = true ∧ P l
  · obtain rfl := hsome hg
    obtain ⟨l, hl, hgl⟩ := hg
    exact deadRead_some (List.ne_nil_of_mem (mem_goneReads.2 ⟨l, hl, (hP l).2 hgl, rfl⟩)) (hd.resolve_right (by decide))
  · have hno : goneReads e a cls absent = [] := List.eq_nil_iff_forall_not_mem.2 fun y hy =>
      let ⟨l, hl, hgl, _⟩ := mem_goneReads.1 hy
      hg ⟨l, hl, (hP l).1 hgl⟩
    obtain rfl := hnone fun l hl hgl => hg ⟨l, hl, hgl⟩
    rw [hno, deadRead_nil]
    simp [Group.sticky]

end

/-- p0 is never absent (07 R181). -/
theorem absentPred_iff {n : Nat} : (n != 0 && (c.p.getD n none).isNone) = true ↔ n ≠ 0 ∧ c.p.getD n none = none :=
  Bool.and_eq_true_iff.trans (and_congr bne_iff_ne Option.isNone_iff_eq_none)

/-- What RDPREV and RDPREV.P do with the previous frame: what is absent is
read as any register is (02 R37), and one register is written. -/
def readInto (i : Instr) (d : Nat) (xs : List (Nat × Nat)) (w : LaneWrite) (t : State) (e : Env) : R :=
  match t.deadRead e.g xs with
  | .error u => .trap t u
  | .ok g => done t i { g with frame := g.frame.write g.active e.act d w }

section
variable {body : State → Env → R} {d : Nat} {xs : List (Nat × Nat)} {w : LaneWrite} (h : Issues i s s1 g e)
  (hx : exec i s = issue i s body) (hb : body (s1.setGroup e.g) e = readInto i d xs w (s1.setGroup e.g) e)
include h hx hb

theorem exec_readInto_trap {u : Trap} (hd : (s1.setGroup e.g).deadRead e.g xs = .error u) : exec i s = .next (trapped s1 g 0 u) := by
  refine exec_trap h hx (hb.trans ?_)
  unfold readInto
  rw [hd]

theorem exec_readInto {st : Word} (hd : d < 64) (hw : w.form = .g) (hr : RoomFor e.g [d] [] [])
    (hs : (s1.setGroup e.g).deadRead e.g xs = .ok (e.g.sticky st)) :
    ∃ f', Wrote e.g.frame f' e.g.active e.act ⟨[d], .g, fun _ => w.val, fun _ => w.bad⟩ ∧ exec i s = .next (after i s1 e.g st f') := by
  obtain ⟨form, val, bad⟩ := w
  subst hw
  refine ⟨_, wrote_one (val := fun _ => val) (bad := fun _ => bad) hd trivial, exec_self_done h hx (hb.trans ?_) rfl
    (room_cheaper (g := filled e.g [d] [] []) (cheaper_setReg (Cheaper.refl _) _ _) rfl hr)⟩
  unfold readInto
  rw [hs]
  rfl

end

section
variable (o s s1) (hi : e.g.inTrap = true) (hd : 0 < e.g.depth) (ho : e.g.older = c :: rest)
  (hc : ∀ l, e.act.getLsbD l = true → e.g.frame.bad o.a.toNat l = false)
include hi hd ho hc

theorem execRdprev_reads (hx : ∀ l, e.act.getLsbD l = true → (e.g.frame.lane o.a.toNat l).toNat < c.fsz) :
    ∃ body, exec (.rdprev o) s = issue (.rdprev o) s body ∧ body (s1.setGroup e.g) e = readInto (.rdprev o) o.d.toNat
      (goneReads e o.a.toNat 0 fun l => (e.g.prevReg c (e.index o.a.toNat l)).isNone)
      ⟨.g, fun l => laneOf (e.g.prevReg c (e.index o.a.toNat l)) l, fun l => badOf (e.g.prevReg c (e.index o.a.toNat l)) l⟩
      (s1.setGroup e.g) e :=
  ⟨_, execRdprev.eq_1 o s, prevOp_go (p := false) hi hd ho hc hx⟩

variable (hx : ∀ l, e.act.getLsbD l = true → (e.g.frame.lane o.a.toNat l).toNat < 8)
include hx

theorem execRdprevP_reads : ∃ body, exec (.rdprevP o) s = issue (.rdprevP o) s body ∧
    body (s1.setGroup e.g) e = readInto (.rdprevP o) o.d.toNat
      (goneReads e o.a.toNat 1 fun l => e.index o.a.toNat l != 0 && (c.p.getD (e.index o.a.toNat l) none).isNone)
      ⟨.g, fun l => if (c.pred (e.index o.a.toNat l)).getLsbD l then 1 else 0, fun _ => false⟩ (s1.setGroup e.g) e :=
  ⟨_, execRdprevP.eq_1 o s, prevOp_go (p := true) hi hd ho hc hx⟩

end

/-! Writes -/

/-- The lanes that name an index are lanes of ACTIVE that name it. -/
theorem mem_byIndex {a n l : Nat} : l ∈ (lanesOf e.act).filter (fun l => e.index a l == n) ↔
    e.act.getLsbD l = true ∧ (e.g.frame.lane a l).toNat = n := by
  rw [List.mem_filter, mem_lanesOf, beq_iff_eq]
  rfl

/-- WRPREV leaves each lane's value, and its poison, where the lane names, and nothing else of the two frames (R358). -/
theorem wrotePrev_spec {a b : Nat} (ho : e.g.older = c :: rest) (hf : c.fsz ≤ 64)
    (hx : ∀ l, e.act.getLsbD l = true → (e.g.frame.lane a l).toNat < c.fsz) :
    ∃ c' f', e.wrotePrev a b = { e.g with frame := f', older := c' :: rest } ∧ { f' with v := e.g.frame.v } = e.g.frame ∧
      { c' with v := c.v } = c ∧ ∀ n < 64, ∀ l < 32,
        laneOf ((e.wrotePrev a b).prevReg c' n) l =
          (if e.act.getLsbD l ∧ (e.g.frame.lane a l).toNat = n then e.g.frame.lane b l else laneOf (e.g.prevReg c n) l) ∧
        badOf ((e.wrotePrev a b).prevReg c' n) l =
          (if e.act.getLsbD l ∧ (e.g.frame.lane a l).toNat = n then e.g.frame.bad b l else badOf (e.g.prevReg c n) l) := by
  obtain ⟨ks, hnd, hks, hby⟩ := byIndex_keys e a
  have hlt : ∀ k ∈ ks, k < c.fsz := fun k hk => let ⟨l, hl, hlk⟩ := (hks k).1 hk; hlk ▸ hx l hl
  obtain ⟨c', f', hfold, hframe, hc', hlanes⟩ := wrotePrev_fold (v := e.g.frame.lane b) (b := e.g.frame.bad b)
    (sel := fun k => (lanesOf e.act).filter fun l => e.index a l == k) ks e.g c rest ho hf hlt hnd
  have hput : e.wrotePrev a b = { e.g with frame := f', older := c' :: rest } := by
    unfold Env.wrotePrev
    rw [hby]
    exact hfold
  have hnamed (n l : Nat) : (n ∈ ks ∧ l ∈ (lanesOf e.act).filter fun l => e.index a l == n) ↔
      e.act.getLsbD l = true ∧ (e.g.frame.lane a l).toNat = n := by
    rw [mem_byIndex, hks]
    exact ⟨fun hn => hn.2, fun hn => ⟨⟨l, hn⟩, hn⟩⟩
  refine ⟨c', f', hput, hframe, hc', fun n hn l hl => ?_⟩
  rw [hput, ← if_congr (hnamed n l) rfl rfl, ← if_congr (hnamed n l) rfl rfl]
  exact hlanes n hn l hl

/-- WRPREV.P leaves bit 0 of each lane's value where the lane names, and nothing else of the frame; p0 discards it (R358; 07 R181). -/
theorem wrotePrevP_spec {a b : Nat} (ho : e.g.older = c :: rest) (hx : ∀ l, e.act.getLsbD l = true → (e.g.frame.lane a l).toNat < 8) :
    ∃ c', e.wrotePrevP a b = { e.g with older := c' :: rest } ∧ { c' with p := c.p } = c ∧ ∀ n < 8, ∀ l < 32,
      (c'.pred n).getLsbD l =
        if n ≠ 0 ∧ e.act.getLsbD l ∧ (e.g.frame.lane a l).toNat = n then (e.g.frame.lane b l).getLsbD 0 else (c.pred n).getLsbD l := by
  obtain ⟨ks, hnd, hks, hby⟩ := byIndex_keys e a
  have hlt : ∀ k ∈ ks, k < 8 := fun k hk => let ⟨l, hl, hlk⟩ := (hks k).1 hk; hlk ▸ hx l hl
  obtain ⟨c', hfold, hc', hlanes⟩ := wrotePrevP_fold (x := maskOf fun l => (e.g.frame.lane b l).getLsbD 0)
    (sel := fun k => (lanesOf e.act).filter fun l => e.index a l == k) ks e.g c rest ho hlt hnd
  refine ⟨c', ?_, hc', fun n hn l hl => ?_⟩
  · unfold Env.wrotePrevP
    rw [hby]
    exact hfold
  · have hnamed : (n ≠ 0 ∧ n ∈ ks ∧ l ∈ (lanesOf e.act).filter fun l => e.index a l == n) ↔
        n ≠ 0 ∧ e.act.getLsbD l = true ∧ (e.g.frame.lane a l).toNat = n := by
      rw [mem_byIndex, hks]
      exact ⟨fun hn => ⟨hn.1, hn.2.2⟩, fun hn => ⟨hn.1, ⟨l, hn.2⟩, hn.2⟩⟩
    rw [hlanes n hn l hl, if_congr hnamed rfl rfl, maskOf_getLsbD, decide_eq_true hl, Bool.true_and]

section
variable (h : Issues i s s1 g e) (hi : e.g.inTrap = true) (hd : 0 < e.g.depth) (ho : e.g.older = c :: rest)
  (hc : ∀ l, e.act.getLsbD l = true → e.g.frame.bad o.a.toNat l = false)
include h hi hd ho hc

theorem exec_wrprev (he : i = .wrprev o) (hx : ∀ l, e.act.getLsbD l = true → (e.g.frame.lane o.a.toNat l).toNat < c.fsz)
    (hu : (e.wrotePrev o.a.toNat o.b.toNat).uid = e.g.uid) (hr : Room (e.wrotePrev o.a.toNat o.b.toNat)) :
    exec i s = .next (s1.setGroup ((e.wrotePrev o.a.toNat o.b.toNat).advance i)) := by
  subst he
  exact exec_self_done h (execWrprev.eq_1 o s) (prevOp_go (p := false) hi hd ho hc hx) hu hr

variable (he : i = .wrprevP o) (hx : ∀ l, e.act.getLsbD l = true → (e.g.frame.lane o.a.toNat l).toNat < 8)
include he hx

/-- A poisoned value is not written to a predicate (07 R171). -/
theorem exec_wrprevP_poison {l : Nat} (hp : FirstPoison e.g.frame e.act [o.b.toNat] o.b.toNat l) :
    exec i s = .next (trapped s1 g 0 (mkTrap 13 (o.b.toNat + 256 * l))) := by
  subst he
  refine exec_trap h (execWrprevP.eq_1 o s) ((prevOp_go (p := true) hi hd ho hc hx).trans ?_)
  rw [poisonUse_first o.b.isLt hp]

theorem exec_wrprevP (hb : ∀ l, e.act.getLsbD l = true → e.g.frame.bad o.b.toNat l = false)
    (hu : (e.wrotePrevP o.a.toNat o.b.toNat).uid = e.g.uid) (hr : Room (e.wrotePrevP o.a.toNat o.b.toNat)) :
    exec i s = .next (s1.setGroup ((e.wrotePrevP o.a.toNat o.b.toNat).advance i)) := by
  subst he
  refine exec_self_done h (execWrprevP.eq_1 o s) ((prevOp_go (p := true) hi hd ho hc hx).trans ?_) hu hr
  rw [poisonUse_none (List.forall_mem_singleton.2 hb)]

end

end Sys2Proof.Laws

namespace Sys2Proof

open Sys2Proof.Machine Sys2Proof.Laws

/-- Settles O35: the four instructions by the checks they share; then the reads by what they find absent, and the writes lane by lane. -/
theorem previousFrame : Obligations.PreviousFrame := by
  unfold Obligations.PreviousFrame
  intro o i p hi s s1 g e h idx hidx
  obtain rfl : idx = fun l => (e.g.frame.lane o.a.toNat l).toNat := funext hidx
  obtain ⟨go, hx⟩ := exec_prev hi s
  refine ⟨fun ht => exec_trap h hx (prevOp_outside ht), fun ht hd => exec_trap h hx (prevOp_outermost ht hd), fun ht hd ho =>
    exec_wait_self (F := fun x => { x with wse := .refill }) h hx (prevOp_absent ht hd ho) (fun _ => rfl) rfl, ?_⟩
  rintro c rest lim ht hd ho hf rfl
  refine ⟨fun l hp => exec_trap h hx (prevOp_poison ht hd ho o.a.isLt hp), fun hc => ⟨fun l hl hout hlow =>
    exec_trap h hx (prevOp_range ht hd ho hc hl hout hlow), fun hin => ⟨?_, ?_, ?_, ?_, ?_, ?_⟩⟩⟩
  · rintro rfl hdt hgone
    obtain rfl : p = false := by simpa using hi
    obtain ⟨body, hx, hb⟩ := execRdprev_reads o s s1 ht hd ho hc hin
    obtain ⟨k, hk, hkgone, htrap⟩ := goneReads_trap (fun _ => Option.isNone_iff_eq_none) hdt hgone
    exact ⟨k, hk, hkgone, exec_readInto_trap h hx hb htrap⟩
  · rintro rfl hdt hgone
    obtain rfl : p = true := by simpa using hi
    obtain ⟨body, hx, hb⟩ := execRdprevP_reads o s s1 ht hd ho hc hin
    obtain ⟨k, hk, ⟨hk0, hkgone⟩, htrap⟩ := goneReads_trap (fun _ => absentPred_iff) hdt hgone
    exact ⟨k, hk, hk0, hkgone, exec_readInto_trap h hx hb htrap⟩
  · rintro st rfl hr hst hsome hnone
    obtain rfl : p = false := by simpa using hi
    obtain ⟨body, hx, hb⟩ := execRdprev_reads o s s1 ht hd ho hc hin
    exact exec_readInto h hx hb o.d.isLt rfl hr (goneReads_sticky (fun _ => Option.isNone_iff_eq_none) hst hsome hnone)
  · rintro st rfl hr hst hsome hnone
    obtain rfl : p = true := by simpa using hi
    obtain ⟨body, hx, hb⟩ := execRdprevP_reads o s s1 ht hd ho hc hin
    exact exec_readInto h hx hb o.d.isLt rfl hr (goneReads_sticky (fun _ => absentPred_iff) hst hsome fun hall =>
      hnone fun l hl h0 hn => hall l hl ⟨h0, hn⟩)
  · rintro k rfl rfl hr
    obtain rfl : p = false := by simpa using hi
    obtain ⟨c', f', hput, hspec⟩ := wrotePrev_spec (b := o.b.toNat) ho hf hin
    exact ⟨exec_wrprev h ht hd ho hc rfl hin (by rw [hput]) hr, c', f', hput, hspec⟩
  · rintro rfl
    obtain rfl : p = true := by simpa using hi
    refine ⟨fun l hp => exec_wrprevP_poison h ht hd ho hc rfl hin hp, ?_⟩
    rintro k hb rfl hr
    obtain ⟨c', hput, hspec⟩ := wrotePrevP_spec (b := o.b.toNat) ho hin
    exact ⟨exec_wrprevP h ht hd ho hc rfl hin hb (by rw [hput]) hr, c', hput, hspec⟩

end Sys2Proof
end

section
/-! PROOF. MFS and MTS (03 R53, R54; 17 R345, R347 to R351): the target context, what a register reads as, and what a write does to its
register. -/

namespace Sys2Proof.Laws

open Sys2Proof.Machine

variable {o : T64} {i : Instr} {s s1 t : State} {g : Group} {e : Env} {n r x : Nat}

/-! The target context -/

/-- The context that MFS or MTS names: the executing one, or that of a register (R351). -/
def namedCtx (o : T64) (e : Env) : Nat := if o.x then e.lowWord o.b.toNat else e.g.ctx

section
variable (hn : n = namedCtx o e)
include hn

theorem targetCtx_found {creates : Bool} (hl : o.x = false ∨ t.liveCtx n = true) : targetCtx t e o creates = .ok n := by
  subst hn
  unfold targetCtx namedCtx at *
  cases hx : o.x with
  | false => rfl
  | true =>
    simp only [hx, if_true, Bool.true_eq_false, false_or] at hl
    simp only [hl, Bool.not_true, Bool.false_eq_true, if_false, if_true, true_or]

variable (hx : o.x = true)
include hx

theorem targetCtx_missing {creates : Bool} (hl : t.liveCtx n = false) (hc : ¬(creates = true ∧ n < 0xFFFF)) :
    targetCtx t e o creates = .error (ctxTrap n) := by
  subst hn
  simp only [namedCtx, hx, if_true] at hl hc
  simp only [targetCtx, namedCtx, hx, hl, hc, Bool.not_true, Bool.false_eq_true, if_false, if_true, or_self]

/-- A write that creates a context finds any id (R345). -/
theorem targetCtx_created (hlt : n < 0xFFFF) : targetCtx t e o true = .ok n := by
  subst hn
  simp only [namedCtx, hx, if_true] at hlt
  simp only [targetCtx, namedCtx, hx, hlt, Bool.not_true, Bool.false_eq_true, if_false, if_true, and_self, or_true]

end

/-! MFS -/

/-- The numbers of the system registers (Table 17-3). -/
def sysNumbers : List Nat := List.range 6 ++ (List.range 15).map (0x100 + ·)

/-- What a system register reads as: the group's, or the target context's (R347). -/
def sysValue (s : State) (g : Group) (c : Ctx) (r : Nat) : Nat := if r ≤ 4 then s.groupReg g r else s.ctxReg c r

theorem sysTable_eq (s : State) (g : Group) (c : Ctx) : sysTable s g c = sysNumbers.map fun r => (r, sysValue s g c r) := rfl

theorem sysValue_of_mem {c : Ctx} (h : (r, x) ∈ sysTable s g c) : sysValue s g c r = x := by
  rw [sysTable_eq] at h
  obtain ⟨k, -, hk⟩ := List.mem_map.1 h
  obtain ⟨rfl, rfl⟩ := Prod.mk.inj hk
  rfl

section
variable (h : Issues (.mfs o) s s1 g e)
include h

theorem exec_mfs_poison {q : Nat} (hp : PoisonLow e (if o.x then [o.b.toNat] else []) q) :
    exec (.mfs o) s = .next (trapped s1 g 0 (mkTrap 13 (q + 256 * lowLane e.act))) := by
  have hq : q < 64 := by
    have hmem := hp.1
    split at hmem
    · rw [List.mem_singleton.1 hmem]
      exact o.b.isLt
    · cases hmem
  refine exec_trap h (execMfs.eq_1 o s) ?_
  simp only [mergePoison_some h.active hp hq]

variable (hc : CleanLow e (if o.x then [o.b.toNat] else [])) (hn : n = namedCtx o e)
include hc hn

theorem exec_mfs_missing (hx : o.x = true) (hl : s1.liveCtx n = false) : exec (.mfs o) s = .next (trapped s1 g 0 (ctxTrap n)) := by
  have htarget : targetCtx (s1.setGroup e.g) e o false = .error (ctxTrap n) := targetCtx_missing hn hx hl (by simp)
  refine exec_trap h (execMfs.eq_1 o s) ?_
  simp only [mergePoison_none hc, htarget]

theorem exec_mfs {c : Ctx} (hctx : c = s1.ctx n) (hl : o.x = false ∨ s1.liveCtx n = true) (hm : (o.regNum, x) ∈ sysTable s1 e.g c)
    (hr : RoomFor e.g (oneU o.d.toNat (sysRegRun o) x).regs [] []) :
    exec (.mfs o) s = .next (s1.setGroup ((e.g.writeU e.act o.d.toNat (sysRegRun o) x).advance (.mfs o))) := by
  subst hctx
  have htarget : targetCtx (s1.setGroup e.g) e o false = .ok n := targetCtx_found hn hl
  have hvalue : (if o.regNum ≤ 4 then (s1.setGroup e.g).groupReg e.g o.regNum else
      (s1.setGroup e.g).ctxReg ((s1.setGroup e.g).ctx n) o.regNum) = x := sysValue_of_mem hm
  refine exec_self_done h (execMfs.eq_1 o s) ?_ rfl (room_u (run_eq o) hr)
  simp only [mergePoison_none hc, htarget, hvalue]

end

/-! MTS -/

/-- The registers that MTS reads. -/
def mtsRegs (o : T64) : List Nat := (List.range (sysRegRun o)).map (o.a.toNat + ·) ++ if o.x then [o.b.toNat] else []

/-- What a write of `x` to its register does, for the target context `n` (R347). -/
def sysWrite (o : T64) (t : State) (e : Env) (n x : Nat) : R :=
  let i : Instr := .mts o
  let r := o.regNum
  if r = 0 then done t i (if x < 256 then { e.g with gmode := BitVec.ofNat 32 x } else e.g)
  else if r = 1 then done t i (if x < 256 then { e.g with gstatus := e.g.gstatus &&& ~~~(BitVec.ofNat 32 x) } else e.g)
  else if r ≤ 5 then done t i e.g
  else if r = 0x100 then
    match t.writeCtl n x with
    | some u => done u i e.g
    | none => .trap t (ctxTrap n)
  else
    let c := t.ctx n
    if (c.state = 2 ∨ c.state = 3) ∧ r ≠ 0x102 ∧ r ≠ 0x103 then .trap t (ctxTrap n)
    else done (if c.allows r x then t.setCtx (c.setReg r x) else t) i e.g

theorem exec_mts_poison {q : Nat} (h : Issues (.mts o) s s1 g e) (hp : PoisonLow e (mtsRegs o) q) (hq : q < 64) :
    exec (.mts o) s = .next (trapped s1 g 0 (mkTrap 13 (q + 256 * lowLane e.act))) := by
  refine exec_trap h (execMts.eq_1 o s) ?_
  have hpoison := mergePoison_some h.active hp hq
  unfold mtsRegs at hpoison
  simp only [hpoison]

theorem exec_mts_missing (h : Issues (.mts o) s s1 g e) (hc : CleanLow e (mtsRegs o)) (hn : n = namedCtx o e) (hx : o.x = true)
    (hl : s1.liveCtx n = false) (hnew : ¬(o.regNum = 0x100 ∧ e.operand o.a.toNat (sysRegRun o) = 4 ∧ n < 0xFFFF)) :
    exec (.mts o) s = .next (trapped s1 g 0 (ctxTrap n)) := by
  have htarget : targetCtx (s1.setGroup e.g) e o (decide (o.regNum = 0x100 ∧ e.operand o.a.toNat (sysRegRun o) = 4)) = .error (ctxTrap n) :=
    targetCtx_missing hn hx hl (by simpa [and_assoc] using hnew)
  have hpoison := mergePoison_none hc
  unfold mtsRegs at hpoison
  refine exec_trap h (execMts.eq_1 o s) ?_
  simp only [hpoison, htarget]

/-- MTS that finds its target is the write of its register. -/
theorem execMts_writes (s s1 : State) (hc : CleanLow e (mtsRegs o)) (hv : x = e.operand o.a.toNat (sysRegRun o))
    (ht : targetCtx (s1.setGroup e.g) e o (decide (o.regNum = 0x100 ∧ x = 4)) = .ok n) :
    ∃ body, exec (.mts o) s = issue (.mts o) s body ∧ body (s1.setGroup e.g) e = sysWrite o (s1.setGroup e.g) e n x := by
  subst hv
  have hpoison := mergePoison_none hc
  unfold mtsRegs at hpoison
  refine ⟨_, execMts.eq_1 o s, ?_⟩
  simp only [hpoison, ht]
  rfl

/-! What a write does -/

theorem sysWrite_gmode (hr : o.regNum = 0) :
    sysWrite o t e n x = done t (.mts o) (if x < 256 then { e.g with gmode := BitVec.ofNat 32 x } else e.g) := if_pos hr

theorem sysWrite_gstatus (hr : o.regNum = 1) : sysWrite o t e n x =
    done t (.mts o) (if x < 256 then { e.g with gstatus := e.g.gstatus &&& ~~~(BitVec.ofNat 32 x) } else e.g) := by
  simp only [sysWrite, hr, one_ne_zero, if_false, if_true]

theorem sysWrite_readOnly (h2 : 2 ≤ o.regNum) (h5 : o.regNum ≤ 5) : sysWrite o t e n x = done t (.mts o) e.g := by
  have h0 : o.regNum ≠ 0 := by omega
  have h1 : o.regNum ≠ 1 := by omega
  simp only [sysWrite, h0, h1, h5, if_false, if_true]

theorem sysWrite_ctl (hr : o.regNum = 0x100) : sysWrite o t e n x =
    match t.writeCtl n x with
    | some u => done u (.mts o) e.g
    | none => .trap t (ctxTrap n) := by
  unfold sysWrite
  rw [hr]
  rfl

theorem sysWrite_ctx (hr : 0x101 ≤ o.regNum) : sysWrite o t e n x =
    if ((t.ctx n).state = 2 ∨ (t.ctx n).state = 3) ∧ o.regNum ≠ 0x102 ∧ o.regNum ≠ 0x103 then .trap t (ctxTrap n)
    else done (if (t.ctx n).allows o.regNum x then t.setCtx ((t.ctx n).setReg o.regNum x) else t) (.mts o) e.g := by
  have h0 : o.regNum ≠ 0 := by omega
  have h1 : o.regNum ≠ 1 := by omega
  have h5 : ¬o.regNum ≤ 5 := by omega
  have h100 : o.regNum ≠ 0x100 := by omega
  simp only [sysWrite, h0, h1, h5, h100, if_false]

/-! Writes to CTXCTL (Table 17-2) -/

theorem writeCtl_free (h0 : (t.ctx n).state = 0) :
    t.writeCtl n 4 = if t.busyCtxs < 4096 then some (t.setCtx { t.ctx n with state := 1 }) else none := by
  simp only [State.writeCtl, h0, if_true, true_and]

section
variable (h0 : (t.ctx n).state ≠ 0)
include h0

/-- A value that breaks a constraint is ignored (R348). -/
theorem writeCtl_ignored (hv : x / 32 % 2048 ≠ 0 ∨ x % 4 = 3) : t.writeCtl n x = some t := by
  have hbits : bits x 15 5 ≠ 0 ∨ bits x 1 0 = 3 := by simpa [bits] using hv
  simp only [State.writeCtl, h0, hbits, if_false, if_true]

/-- The machine with the level that a write to CTXCTL gives a context that is NEW. -/
def withLevel (t : State) (n x : Nat) : State := if (t.ctx n).state = 1 then t.setCtx { t.ctx n with pl := x % 4 } else t

omit h0 in
theorem withLevel_eq {c' : Ctx} (hc' : c' = if (t.ctx n).state = 1 then { t.ctx n with pl := x % 4 } else t.ctx n) :
    withLevel t n x = if (t.ctx n).state = 1 then t.setCtx c' else t := by
  unfold withLevel
  split
  · next h1 => rw [hc', if_pos h1]
  · rfl

theorem writeCtl_legal (hr : x / 32 % 2048 = 0) (hp : x % 4 ≠ 3) : t.writeCtl n x =
    if x / 4 % 8 = (t.ctx n).state then some (withLevel t n x)
    else if x / 4 % 8 = 0 ∧ ((t.ctx n).state = 1 ∨ (t.ctx n).state = 4) then some ((withLevel t n x).kill n) else none := by
  have hrsv : bits x 15 5 = 0 := hr
  have hstate : bits x 4 2 = x / 4 % 8 := rfl
  have hlevel : bits x 1 0 = x % 4 := by simp [bits]
  simp only [State.writeCtl, h0, hrsv, hstate, hlevel, hp, ne_eq, not_true_eq_false, or_self, if_false, withLevel]

end

section
variable {body : State → Env → R} (h : Issues (.mts o) s s1 g e) (hx : exec (.mts o) s = issue (.mts o) s body)
  (hb : body (s1.setGroup e.g) e = sysWrite o (s1.setGroup e.g) e n x)
include h hx hb

theorem exec_mts_ctl_refused (h100 : o.regNum = 0x100) (hu : (s1.setGroup e.g).writeCtl n x = none) :
    exec (.mts o) s = .next (trapped s1 g 0 (ctxTrap n)) := by
  refine exec_trap h hx (hb.trans ((sysWrite_ctl h100).trans ?_))
  rw [hu]

/-- A context that runs, or is parking, keeps its registers but two (R349). -/
theorem exec_mts_ctx_held (h101 : 0x101 ≤ o.regNum) (hs : (s1.ctx n).state = 2 ∨ (s1.ctx n).state = 3) (h2 : o.regNum ≠ 0x102)
    (h3 : o.regNum ≠ 0x103) : exec (.mts o) s = .next (trapped s1 g 0 (ctxTrap n)) :=
  exec_trap h hx (hb.trans ((sysWrite_ctx h101).trans (if_pos ⟨hs, h2, h3⟩)))

variable (hr : Room e.g)
include hr

/-- A write that leaves nothing but an instruction executed. -/
theorem exec_mts_keeps (hw : sysWrite o (s1.setGroup e.g) e n x = done (s1.setGroup e.g) (.mts o) e.g) :
    exec (.mts o) s = .next (s1.setGroup (e.g.advance (.mts o))) := exec_self_done h hx (hb.trans hw) rfl hr

theorem exec_mts_gmode (h0 : o.regNum = 0) : exec (.mts o) s =
    if x < 256 then .next (s1.setGroup ({ e.g with gmode := BitVec.ofNat 32 x }.advance (.mts o)))
    else .next (s1.setGroup (e.g.advance (.mts o))) := by
  have hw := sysWrite_gmode (t := s1.setGroup e.g) (e := e) (n := n) (x := x) h0
  split
  · next hlt => exact exec_self_done h hx (hb.trans (hw.trans (by rw [if_pos hlt]))) rfl (Room.same hr rfl rfl)
  · next hge => exact exec_mts_keeps h hx hb hr (hw.trans (by rw [if_neg hge]))

theorem exec_mts_gstatus (h1 : o.regNum = 1) : exec (.mts o) s =
    if x < 256 then .next (s1.setGroup ({ e.g with gstatus := e.g.gstatus &&& ~~~(BitVec.ofNat 32 x) }.advance (.mts o)))
    else .next (s1.setGroup (e.g.advance (.mts o))) := by
  have hw := sysWrite_gstatus (t := s1.setGroup e.g) (e := e) (n := n) (x := x) h1
  split
  · next hlt => exact exec_self_done h hx (hb.trans (hw.trans (by rw [if_pos hlt]))) rfl (Room.same hr rfl rfl)
  · next hge => exact exec_mts_keeps h hx hb hr (hw.trans (by rw [if_neg hge]))

/-- CTXCTL takes a value that Table 17-2 has a move for. -/
theorem exec_mts_ctl {u : State} (h100 : o.regNum = 0x100) (hu : (s1.setGroup e.g).writeCtl n x = some u) :
    exec (.mts o) s = .next (u.setGroup (e.g.advance (.mts o))) := by
  refine exec_done h hx (hb.trans ((sysWrite_ctl h100).trans ?_)) rfl hr
  rw [hu]

theorem exec_mts_ctl_ignored (h100 : o.regNum = 0x100) (h0 : (s1.ctx n).state ≠ 0) (hv : x / 32 % 2048 ≠ 0 ∨ x % 4 = 3) :
    exec (.mts o) s = .next (s1.setGroup (e.g.advance (.mts o))) :=
  (exec_mts_ctl h hx hb hr h100 (writeCtl_ignored (t := s1.setGroup e.g) h0 hv)).trans
    (congrArg _ (setGroup_setGroup _ _ _ rfl))

theorem exec_mts_ctx (h101 : 0x101 ≤ o.regNum)
    (hs : ¬((s1.ctx n).state = 2 ∨ (s1.ctx n).state = 3) ∨ o.regNum = 0x102 ∨ o.regNum = 0x103) : exec (.mts o) s =
    if (s1.ctx n).allows o.regNum x then
      .next (((s1.setGroup e.g).setCtx ((s1.ctx n).setReg o.regNum x)).setGroup (e.g.advance (.mts o)))
    else .next (s1.setGroup (e.g.advance (.mts o))) := by
  have hw := (sysWrite_ctx (t := s1.setGroup e.g) (e := e) (n := n) (x := x) h101).trans (if_neg fun hheld =>
    hs.elim (fun hn => hn hheld.1) fun hn => hn.elim hheld.2.1 hheld.2.2)
  split
  · next hallow => exact exec_done h hx (hb.trans (hw.trans (congrArg (done · _ _) (if_pos hallow)))) rfl hr
  · next hno => exact exec_mts_keeps h hx hb hr (hw.trans (congrArg (done · _ _) (if_neg hno)))

end

end Sys2Proof.Laws

namespace Sys2Proof

open Sys2Proof.Machine Sys2Proof.Laws

/-- Settles O37: MFS by what its register reads as, MTS by the class of the register that it writes. That a target at or above 0xFFFF, or FREE,
traps with its low 16 bits, and that MTS of CTXCTL creates a context with STATE 4 exactly, are the model's choices (log entry 57). -/
theorem systemRegisters : Obligations.SystemRegisters := by
  unfold Obligations.SystemRegisters
  rintro o s s1 g e n r x c s0 rfl rfl hn rfl
  refine ⟨?_, ?_⟩
  · rintro i regs rfl h rfl
    refine ⟨fun q => exec_mfs_poison h, fun hc hx hl => exec_mfs_missing h hc hn hx hl, fun hc hl hm hd hr =>
      ⟨_, wrote_u hd (run_eq o), ?_⟩⟩
    rw [exec_mfs h hc hn rfl hl hm hr]
    simp [after, Group.writeU]
  · rintro i regs keep rfl h hr rfl hv rfl
    replace hv : x = e.operand o.a.toNat (sysRegRun o) := hv
    refine ⟨fun q => exec_mts_poison h, fun hc => ⟨fun hx hl hnew => exec_mts_missing h hc hn hx hl (hv ▸ hnew), fun hl => ?_, ?_⟩⟩
    · obtain ⟨body, hx, hb⟩ := execMts_writes s s1 hc hv (targetCtx_found hn hl)
      refine ⟨exec_mts_gmode h hx hb hr, exec_mts_gstatus h hx hb hr, fun h2 h5 => exec_mts_keeps h hx hb hr (sysWrite_readOnly h2 h5),
        fun h100 h0 => ⟨exec_mts_ctl_ignored h hx hb hr h100 h0, ?_⟩, fun h101 =>
          ⟨fun hs h2 h3 => exec_mts_ctx_held h hx hb h101 hs h2 h3, exec_mts_ctx h hx hb hr h101⟩⟩
      intro hrsv hp c' hc'
      have hw := writeCtl_legal (t := s1.setGroup e.g) (n := n) h0 hrsv hp
      rw [withLevel_eq (t := s1.setGroup e.g) hc'] at hw
      refine ⟨fun hst => ?_, fun hst h1 => ?_, fun hst h4 => ?_, fun hst hno => ?_⟩
      · exact exec_mts_ctl h hx hb hr h100 (hw.trans (if_pos hst))
      · have h1' : ((s1.setGroup e.g).ctx n).state = 1 := h1
        rw [h1', hst, if_neg (by decide), if_pos ⟨rfl, .inl rfl⟩, if_pos rfl] at hw
        exact exec_mts_ctl h hx hb hr h100 hw
      · have h4' : ((s1.setGroup e.g).ctx n).state = 4 := h4
        rw [h4', hst, if_neg (by decide), if_pos ⟨rfl, .inr rfl⟩, if_neg (by decide)] at hw
        exact exec_mts_ctl h hx hb hr h100 hw
      · exact exec_mts_ctl_refused h hx hb h100 (hw.trans ((if_neg hst).trans (if_neg hno)))
    · rintro hx1 h0 hlt h100 rfl
      have hnew : decide (o.regNum = 0x100 ∧ (4 : Nat) = 4) = true := by simp [h100]
      obtain ⟨body, hx, hb⟩ := execMts_writes s s1 hc hv (hnew ▸ targetCtx_created hn hx1 hlt)
      have hw := writeCtl_free (t := s1.setGroup e.g) (n := n) h0
      split
      · next hfew => exact exec_mts_ctl h hx hb hr h100 (hw.trans (if_pos hfew))
      · next hmany => exact exec_mts_ctl_refused h hx hb h100 (hw.trans (if_neg hmany))

end Sys2Proof
end

section
/-! PROOF. REPLAY, TLBINV and IDLE (17 R366; 19 R381, R385, R386): what a replay answers, what an invalidation leaves cached, and when it
completes. -/

namespace Sys2Proof.Laws

open Sys2Proof.Machine

variable {o : T64} {i : Instr} {s s1 t u : State} {g : Group} {e : Env} {n x : Nat}

/-! REPLAY -/

/-- One result in every lane, in form U, is written where its register has room. -/
theorem writeU_one {g : Group} {d : Nat} (hd : d < 64) (act : Mask) (x : Nat) (hr : RoomFor g [d] [] []) :
    Wrote g.frame (g.writeU act d 1 x).frame g.active act (oneU d 1 x) ∧ Room (g.writeU act d 1 x) :=
  ⟨wrote_u (by omega) (.inl rfl), room_one hr⟩

/-- An instruction that changed the machine into `u` and answers `x` in every lane. -/
theorem exec_answersU {body : State → Env → R} {d : Nat} (hd : d < 64) (h : Issues i s s1 g e) (hx : exec i s = issue i s body)
    (hr : RoomFor e.g [d] [] []) (hb : body (s1.setGroup e.g) e = done u i (e.g.writeU e.act d 1 x)) :
    ∃ f', Wrote e.g.frame f' e.g.active e.act (oneU d 1 x) ∧ exec i s = .next (u.setGroup ({ e.g with frame := f' }.advance i)) := by
  obtain ⟨hw, hroom⟩ := writeU_one hd e.act x hr
  exact ⟨_, hw, exec_done h hx hb rfl hroom⟩

section
variable (h : Issues (.replay o) s s1 g e) (hc : CleanLow e [o.a.toNat])
include h hc

theorem exec_replay_illegal (ht : 2 ^ 24 ≤ e.lowWord o.a.toNat) : exec (.replay o) s = .next (trapped s1 g 0 (illegalTrap 2 18 8)) := by
  refine exec_trap h (execReplay.eq_1 o s) ?_
  simp only [mergePoison_none hc, if_pos ht]

variable (hn : n = e.lowWord o.a.toNat) (ht : n < 2 ^ 24) (hb : (s1.setGroup e.g).plainBusy e.g.uid = false)
include hn ht hb

/-- A replay that is carried out answers whether its token was live (R385). -/
theorem exec_replay (hr : RoomFor e.g [o.d.toNat] [] []) {hit : Bool} (hl : hit = (s1.setGroup e.g).tokenLive (n / 262144) n)
    (hu : (if hit then (s1.setGroup e.g).replayToken (n / 262144) n else some (s1.setGroup e.g)) = some u) :
    ∃ f', Wrote e.g.frame f' e.g.active e.act (oneU o.d.toNat 1 (if hit then 1 else 0)) ∧
      exec (.replay o) s = .next (u.setGroup ({ e.g with frame := f' }.advance (.replay o))) := by
  subst hn
  refine exec_answersU o.d.isLt h (execReplay.eq_1 o s) hr ?_
  cases hit with
  | false =>
    obtain rfl := Option.some.inj hu
    simp only [mergePoison_none hc, if_neg (Nat.not_le.2 ht), hb, ← hl, Bool.false_eq_true, if_false]
  | true =>
    have hu' : (s1.setGroup e.g).replayToken (e.lowWord o.a.toNat / 262144) (e.lowWord o.a.toNat) = some u := hu
    simp only [mergePoison_none hc, if_neg (Nat.not_le.2 ht), hb, ← hl, hu', Bool.false_eq_true, if_false, if_true]

/-- A replay whose part finds no token or no room for its record waits (R381). -/
theorem exec_replay_waits (hl : (s1.setGroup e.g).tokenLive (n / 262144) n = true)
    (hu : (s1.setGroup e.g).replayToken (n / 262144) n = none) : exec (.replay o) s = .next (s1.setGroup g) := by
  subst hn
  refine exec_wait_same h (execReplay.eq_1 o s) ?_
  simp only [mergePoison_none hc, if_neg (Nat.not_le.2 ht), hb, hl, hu, Bool.false_eq_true, if_false, if_true]

end

/-! REPLAY.PAGE -/

/-- The tokens of a page: those of the context at the page's address whose kind a replay takes (R385). -/
theorem mem_pageTokens {ctx va : Nat} {y : Nat × Nat} : y ∈ s.pageTokens ctx va ↔
    ∃ k ∈ (s.landing y.1).tokens, y.1 < 64 ∧ k.token = y.2 ∧ k.ctx = ctx ∧ k.va / 0x20000 = va / 0x20000 ∧
      k.kind ∈ [0, 1, 2, 3, 4, 6, 7] := by
  obtain ⟨l, tok⟩ := y
  simp only [State.pageTokens, List.mem_flatMap, List.mem_range, List.mem_map, List.mem_filter, Bool.and_eq_true, beq_iff_eq,
    List.contains_iff_mem, Prod.mk.injEq]
  constructor
  · rintro ⟨_, hl, k, ⟨hk, ⟨hctx, hva⟩, hkind⟩, rfl, htok⟩
    exact ⟨k, hk, hl, htok, hctx, hva, hkind⟩
  · rintro ⟨k, hk, hl, htok, hctx, hva, hkind⟩
    exact ⟨l, hl, k, ⟨hk, ⟨hctx, hva⟩, hkind⟩, rfl, htok⟩

section
variable (h : Issues (.replayPage o) s s1 g e) (hc : CleanLow e [o.a.toNat, o.a.toNat + 1, o.b.toNat])
  (hb : (s1.setGroup e.g).plainBusy e.g.uid = false) {ts : List (Nat × Nat)}
  (hts : ts = (s1.setGroup e.g).pageTokens (e.lowWord o.b.toNat) (e.lowPair o.a.toNat))
include h hc hb hts

theorem exec_replayPage_waits (hu : (s1.setGroup e.g).replayAll ts = none) : exec (.replayPage o) s = .next (s1.setGroup g) := by
  subst hts
  refine exec_wait_same h (execReplayPage.eq_1 o s) ?_
  simp only [mergePoison_none hc, hb, hu, Bool.false_eq_true, if_false]

theorem exec_replayPage (hr : RoomFor e.g [o.d.toNat] [] []) (hu : (s1.setGroup e.g).replayAll ts = some u) :
    ∃ f', Wrote e.g.frame f' e.g.active e.act (oneU o.d.toNat 1 ts.length) ∧
      exec (.replayPage o) s = .next (u.setGroup ({ e.g with frame := f' }.advance (.replayPage o))) := by
  subst hts
  refine exec_answersU o.d.isLt h (execReplayPage.eq_1 o s) hr ?_
  simp only [mergePoison_none hc, hb, hu, Bool.false_eq_true, if_false]

end

/-! TLBINV -/

/-- What a discard leaves cached is what its test does not name. -/
theorem discard_keeps {entry : TlbEntry → Bool} {line : IcHalf → Bool} {x : Landing} {y : TlbEntry}
    (hx : x ∈ (s.discard entry line).landings)
    (hy : y ∈ x.tlb) : entry y = false := by
  obtain ⟨z, -, rfl⟩ := List.mem_map.1 hx
  simpa using (List.mem_filter.1 hy).2

/-- No translation of the page stays cached. -/
theorem invalidatePage_keeps {va : Nat} {x : Landing} {y : TlbEntry} (hx : x ∈ (s.invalidatePage n va).landings) (hy : y ∈ x.tlb) :
    ¬(y.ctx = n ∧ y.page = leafPage y.size va) := by
  have hno : covers n va y = false := discard_keeps hx hy
  simpa [covers] using hno

/-- TLBINV waits where an access translated before is on its way, and completes where none is (R386). -/
def awaitFlush (i : Instr) (t : State) (e : Env) (who : Option Nat) (q : Flush) : R :=
  if t.flushing e.g.uid who q then .wait (t.modGroup e.g.uid fun k => { k with flush := some q, busy := true }) else done t i e.g

section
variable {who : Option Nat} {go : State → State} {rs q : Flush} (hp : t.plainBusy e.g.uid = false)
include hp

/-- A context that does not exist has nothing to discard. -/
theorem invalidate_gone (hf : e.g.flush = none) (hw : who = some n) (hl : t.liveCtx n = false) : invalidate i t e who go rs = done t i e.g := by
  subst hw
  simp [invalidate, hp, hf, hl]

theorem invalidate_first (hf : e.g.flush = none) (hl : ∀ n, who = some n → t.liveCtx n = true) :
    invalidate i t e who go rs = awaitFlush i (go t) e who rs := by
  unfold invalidate
  simp only [hp, hf, Bool.false_eq_true, if_false]
  cases who with
  | none => rfl
  | some n =>
    simp only [Option.map_some, Option.getD_some, hl n rfl, Bool.not_true, Bool.false_eq_true, if_false]
    rfl

theorem invalidate_again (hf : e.g.flush = some q) : invalidate i t e who go rs = awaitFlush i t e who q := by
  unfold invalidate
  simp only [hp, hf, Bool.false_eq_true, if_false]
  rfl

end

section
variable {body : State → Env → R} {who : Option Nat} {q : Flush} (h : Issues i s s1 g e) (hx : exec i s = issue i s body)
  (hb : body (s1.setGroup e.g) e = awaitFlush i t e who q)
include h hx hb

theorem exec_awaitFlush_clear (hr : Room e.g) (hf : t.flushing e.g.uid who q = false) : exec i s = .next (t.setGroup (e.g.advance i)) :=
  exec_done h hx (hb.trans (if_neg (by simp [hf]))) rfl hr

theorem exec_awaitFlush_waits (ht : t.groups = (s1.setGroup e.g).groups) (hf : t.flushing e.g.uid who q = true) :
    exec i s = .next (t.setGroup { g with flush := some q, busy := true }) :=
  exec_wait_at (F := fun k => { k with flush := some q, busy := true }) h hx ht (hb.trans (if_pos hf)) (fun _ => rfl) rfl

end

theorem execTlbinvPage (hc : CleanLow e [o.a.toNat, o.a.toNat + 1, o.b.toNat]) (s t : State) :
    ∃ body, exec (.tlbinvPage o) s = issue (.tlbinvPage o) s body ∧ body t e = invalidate (.tlbinvPage o) t e (some (e.lowWord o.b.toNat))
      (fun z => z.invalidatePage (e.lowWord o.b.toNat) (e.lowPair o.a.toNat))
      (t.discarded (covers (e.lowWord o.b.toNat) (e.lowPair o.a.toNat))) := by
  refine ⟨_, execTlbinvPage.eq_1 o s, ?_⟩
  simp only [mergePoison_none hc]

theorem execTlbinvCtx (hc : CleanLow e [o.b.toNat]) (s t : State) :
    ∃ body, exec (.tlbinvCtx o) s = issue (.tlbinvCtx o) s body ∧ body t e = invalidate (.tlbinvCtx o) t e (some (e.lowWord o.b.toNat))
      (fun z => (z.discard (fun x => x.ctx == e.lowWord o.b.toNat) fun _ => true).cleanCode) Flush.everything := by
  refine ⟨_, execTlbinvCtx.eq_1 o s, ?_⟩
  simp only [mergePoison_none hc]

/-! IDLE -/

theorem exec_idle (h : Issues (.idle o) s s1 g e) (hr : Room e.g) (hc : CleanLow e [o.a.toNat, o.a.toNat + 1]) :
    exec (.idle o) s = .next (s1.setGroup { e.g with wait := .idle (e.lowPair o.a.toNat) (s1.landing e.g.l).fq.posted }) := by
  refine exec_self h (execIdle.eq_1 o s) ?_ rfl (Room.same hr rfl rfl)
  simp only [mergePoison_none hc]
  rfl

end Sys2Proof.Laws

namespace Sys2Proof

open Sys2Proof.Machine Sys2Proof.Laws

/-- Settles O38: each replay by what becomes of its tokens, and the three forms of TLBINV by the wait they share. That a replay waits where a
part finds no token or no room for its record (log entry 42), which accesses a TLBINV waits for (log entry 62), and that both act at all
landings in one step (log entry 63), are the model's choices. -/
theorem maintenance : Obligations.Maintenance := by
  unfold Obligations.Maintenance
  rintro o s s1 g e a b s0 rfl rfl rfl
  refine ⟨?_, ?_, ?_, ?_⟩
  · rintro i t hit rfl h hc hr rfl hl
    refine ⟨exec_replay_illegal h hc, fun ht hb u hu => exec_replay h hc rfl ht hb hr hl hu, fun ht hb hhit hu => ?_⟩
    exact exec_replay_waits h hc rfl ht hb (hl.symm.trans hhit) hu
  · rintro i ts rfl h hc hr hb rfl
    exact ⟨fun y => mem_pageTokens, exec_replayPage_waits h hc hb rfl, fun u hu => exec_replayPage h hc hb rfl hr hu⟩
  · intro i who rs go t h hr hb hi
    have hgo : ∀ z, (go z).groups = z.groups := by
      obtain ⟨-, -, -, -, rfl⟩ | ⟨-, -, -, -, rfl⟩ | ⟨-, -, -, rfl⟩ := hi <;> exact fun _ => rfl
    have hcached : ∀ x ∈ (go (s1.setGroup e.g)).landings, ∀ y ∈ x.tlb,
        (i = .tlbinvPage o → ¬(y.ctx = e.lowWord o.b.toNat ∧ y.page = leafPage y.size (e.lowPair o.a.toNat))) ∧
          (i = .tlbinvCtx o → y.ctx ≠ e.lowWord o.b.toNat) ∧ i ≠ .tlbinvAll o := by
      intro x hx y hy
      obtain ⟨rfl, -, -, -, rfl⟩ | ⟨rfl, -, -, -, rfl⟩ | ⟨rfl, -, -, rfl⟩ := hi
      · exact ⟨fun _ => invalidatePage_keeps hx hy, nofun, nofun⟩
      · exact ⟨nofun, fun _ => by simpa using discard_keeps hx hy, nofun⟩
      · exact absurd (discard_keeps hx hy) (by decide)
    have hbody : ∃ body, exec i s = issue i s body ∧ body (s1.setGroup e.g) e = invalidate i (s1.setGroup e.g) e who go rs := by
      obtain ⟨rfl, hc, rfl, rfl, rfl⟩ | ⟨rfl, hc, rfl, rfl, rfl⟩ | ⟨rfl, rfl, rfl, rfl⟩ := hi
      · exact execTlbinvPage hc s _
      · exact execTlbinvCtx hc s _
      · exact ⟨_, execTlbinvAll.eq_1 o s, rfl⟩
    obtain ⟨body, hx, hbody⟩ := hbody
    refine ⟨fun n hn hl hf => exec_self_done h hx (hbody.trans (invalidate_gone hb hf hn hl)) rfl hr, ?_, fun q hf => ?_⟩
    · rintro hl hf rfl
      have hfirst := hbody.trans (invalidate_first hb hf hl)
      exact ⟨hcached, exec_awaitFlush_clear h hx hfirst hr, exec_awaitFlush_waits h hx hfirst (hgo _)⟩
    · have hagain := hbody.trans (invalidate_again hb hf)
      refine ⟨fun hq => (exec_awaitFlush_clear h hx hagain hr hq).trans ?_, fun hq => (exec_awaitFlush_waits h hx hagain rfl hq).trans ?_⟩
      · exact congrArg _ (setGroup_setGroup _ _ _ rfl)
      · exact congrArg _ (setGroup_setGroup _ _ _ (issues_uid h).symm)
  · rintro i rfl h hr hc
    exact exec_idle h hr hc

end Sys2Proof
end

section
/-! PROOF. PARKCTX, WAKECTX and WAKECTX.GRP (17 R363, R365, R368): what each answers, and what it leaves of the context it names. -/

namespace Sys2Proof.Laws

open Sys2Proof.Machine

variable {o : T64} {i : Instr} {s s1 t u : State} {g : Group} {e : Env} {n m : Nat} {x : Word}

/-- One value in every lane of ACTIVE, in form G. -/
theorem writeG_wrote {g : Group} {d : Nat} (hd : d < 64) (act : Mask) (x : Word) :
    Wrote g.frame (g.writeG act d x).frame g.active act (allLanes d x) := wrote_all hd x

section
variable {body : State → Env → R} {d : Nat} (hd : d < 64) (h : Issues i s s1 g e) (hx : exec i s = issue i s body)
  (hr : RoomFor e.g [d] [] [])
include hd h hx hr

/-- An instruction that changed the machine into `u` and answers `x` in every lane. -/
theorem exec_answers (hb : body (s1.setGroup e.g) e = done u i (e.g.writeG e.act d x)) :
    ∃ f', Wrote e.g.frame f' e.g.active e.act (allLanes d x) ∧ exec i s = .next (u.setGroup ({ e.g with frame := f' }.advance i)) :=
  ⟨_, writeG_wrote hd e.act x, exec_done h hx hb rfl (laneG hd hr _ _)⟩

/-- The same where the change is none of its group's, which the answer is then put into. -/
theorem exec_answers_put (hb : body (s1.setGroup e.g) e = done (t.setGroup e.g) i (e.g.writeG e.act d x)) :
    ∃ f', Wrote e.g.frame f' e.g.active e.act (allLanes d x) ∧ exec i s = .next (t.setGroup ({ e.g with frame := f' }.advance i)) :=
  ⟨_, writeG_wrote hd e.act x, put_group h hx hb rfl (laneG hd hr _ _)⟩

end

/-! PARKCTX -/

/-- A context told to park, whose command is on its way to every landing of LANDMASK (R363). -/
def parkingCtx (c : Ctx) (uid : Nat) : Ctx :=
  { c with state := 3, toCommand := c.lands, stopping := [], reported := [], parker := some uid
           markers := c.lands.flatMap fun x => c.lands.map fun y => (x, y) }

theorem startPark_nowhere {c : Ctx} {uid : Nat} (hc : c = s.ctx n) (hl : c.landMask = 0) :
    s.startPark n uid = s.setCtx { c with state := 4 } := by
  subst hc
  have hlands := (lands_nil (s.ctx n)).2 hl
  simp [State.startPark, State.modCtx, hlands]

theorem startPark_somewhere {c : Ctx} {uid : Nat} (hc : c = s.ctx n) (hl : c.landMask ≠ 0) :
    s.startPark n uid = s.setCtx (parkingCtx c uid) := by
  subst hc
  have hlands : (s.ctx n).lands ≠ [] := fun hnil => hl ((lands_nil _).1 hnil)
  simp [State.startPark, State.modCtx, hlands, parkingCtx]

/-- A context put under its own number is found there. -/
theorem ctx_setCtx_of_id {c : Ctx} (hc : c.id = n) : (s.setCtx c).ctx n = c := hc ▸ ctx_setCtx s c

section
variable (h : Issues (.parkctx o) s s1 g e) (hm : e.g.mark = some m)
include h hm

theorem exec_parkctx_waiting (hp : (s1.ctx m).parker = some e.g.uid) : exec (.parkctx o) s = .next (s1.setGroup g) := by
  have hp' : ((s1.setGroup e.g).ctx m).parker = some e.g.uid := hp
  refine exec_wait_same h (execParkctx.eq_1 o s) ?_
  simp only [hm, hp', if_true]

theorem exec_parkctx_parked (hr : RoomFor e.g [o.d.toNat] [] []) (hp : (s1.ctx m).parker ≠ some e.g.uid) :
    ∃ f', Wrote e.g.frame f' e.g.active e.act (allLanes o.d.toNat 0) ∧
      exec (.parkctx o) s = .next (s1.setGroup ({ e.g with frame := f' }.advance (.parkctx o))) := by
  have hp' : ((s1.setGroup e.g).ctx m).parker ≠ some e.g.uid := hp
  refine exec_answers_put o.d.isLt h (execParkctx.eq_1 o s) hr ?_
  simp only [hm, hp', if_false]

end

section
variable (h : Issues (.parkctx o) s s1 g e) (hm : e.g.mark = none) (hc : CleanLow e [o.a.toNat]) (hn : n = e.lowWord o.a.toNat)
include h hm hc hn

theorem exec_parkctx_refused (hr : RoomFor e.g [o.d.toNat] [] []) (hno : n = e.g.ctx ∨ s1.liveCtx n = false ∨ (s1.ctx n).state ≠ 2) :
    ∃ f', Wrote e.g.frame f' e.g.active e.act (allLanes o.d.toNat 1) ∧
      exec (.parkctx o) s = .next (s1.setGroup ({ e.g with frame := f' }.advance (.parkctx o))) := by
  subst hn
  have hno' : e.lowWord o.a.toNat = e.g.ctx ∨ (!(s1.setGroup e.g).liveCtx (e.lowWord o.a.toNat)) = true ∨
      ((s1.setGroup e.g).ctx (e.lowWord o.a.toNat)).state ≠ 2 := hno.imp_right (Or.imp_left (congrArg not))
  refine exec_answers_put o.d.isLt h (execParkctx.eq_1 o s) hr ?_
  simp only [hm, mergePoison_none hc]
  exact if_pos hno'

variable {c : Ctx} (hctx : c = s1.ctx n) (hown : n ≠ e.g.ctx) (hl : s1.liveCtx n = true) (h2 : c.state = 2)
include hctx hown hl h2

omit h in
/-- PARKCTX of another context that runs starts to park it (R363). -/
theorem execParkctx_starts : ∃ body, exec (.parkctx o) s = issue (.parkctx o) s body ∧ body (s1.setGroup e.g) e =
    if (((s1.setGroup e.g).startPark n e.g.uid).ctx n).state = 4 then
      done ((s1.setGroup e.g).startPark n e.g.uid) (.parkctx o) (e.g.writeG e.act o.d.toNat 0)
    else .wait (((s1.setGroup e.g).startPark n e.g.uid).modGroup e.g.uid fun k => { k with mark := some n, busy := true }) := by
  subst hn hctx
  have hgo : ¬(e.lowWord o.a.toNat = e.g.ctx ∨ (!(s1.setGroup e.g).liveCtx (e.lowWord o.a.toNat)) = true ∨
      ((s1.setGroup e.g).ctx (e.lowWord o.a.toNat)).state ≠ 2) := by
    have hlive : (s1.setGroup e.g).liveCtx (e.lowWord o.a.toNat) = true := hl
    have hstate : ((s1.setGroup e.g).ctx (e.lowWord o.a.toNat)).state = 2 := h2
    simp [hown, hlive, hstate]
  refine ⟨_, execParkctx.eq_1 o s, ?_⟩
  simp only [hm, mergePoison_none hc]
  exact if_neg hgo

/-- A context of no landing is PARKED at once. -/
theorem exec_parkctx_nowhere (hr : RoomFor e.g [o.d.toNat] [] []) (h0 : c.landMask = 0) :
    ∃ f', Wrote e.g.frame f' e.g.active e.act (allLanes o.d.toNat 0) ∧
      exec (.parkctx o) s = .next ((s1.setCtx { c with state := 4 }).setGroup ({ e.g with frame := f' }.advance (.parkctx o))) := by
  obtain ⟨body, hx, hb⟩ := execParkctx_starts (s := s) hm hc hn hctx hown hl h2
  have hstart : (s1.setGroup e.g).startPark n e.g.uid = (s1.setCtx { c with state := 4 }).setGroup e.g := startPark_nowhere hctx h0
  have hstate : (((s1.setCtx { c with state := 4 }).setGroup e.g).ctx n).state = 4 :=
    congrArg Ctx.state (ctx_setCtx_of_id (s := s1) (c := { c with state := 4 }) (by rw [hctx, ctx_id]))
  rw [hstart, if_pos hstate] at hb
  exact exec_answers_put o.d.isLt h hx hr hb

theorem exec_parkctx_somewhere (h0 : c.landMask ≠ 0) :
    exec (.parkctx o) s = .next ((s1.setCtx (parkingCtx c e.g.uid)).setGroup { g with mark := some n, busy := true }) := by
  obtain ⟨body, hx, hb⟩ := execParkctx_starts (s := s) hm hc hn hctx hown hl h2
  have hstart : (s1.setGroup e.g).startPark n e.g.uid = (s1.setCtx (parkingCtx c e.g.uid)).setGroup e.g := startPark_somewhere hctx h0
  have hstate : (((s1.setCtx (parkingCtx c e.g.uid)).setGroup e.g).ctx n).state = 3 :=
    congrArg Ctx.state (ctx_setCtx_of_id (s := s1) (c := parkingCtx c e.g.uid) (by rw [hctx]; exact ctx_id s1 n))
  rw [hstart, hstate, if_neg (by decide)] at hb
  refine (exec_wait_at (u := (s1.setCtx (parkingCtx c e.g.uid)).setGroup e.g) (F := fun k => { k with mark := some n, busy := true }) h hx
    rfl hb (fun _ => rfl) rfl).trans ?_
  exact congrArg _ (setGroup_setGroup _ _ _ (issues_uid h).symm)

end

/-! WAKECTX -/

section
variable (h : Issues (.wakectx o) s s1 g e) (hc : CleanLow e [o.a.toNat]) (hn : n = e.lowWord o.a.toNat) (hr : RoomFor e.g [o.d.toNat] [] [])
include h hc hn hr

theorem exec_wakectx_refused (hno : s1.liveCtx n = false ∨ (s1.ctx n).state ≠ 4) :
    ∃ f', Wrote e.g.frame f' e.g.active e.act (allLanes o.d.toNat 1) ∧
      exec (.wakectx o) s = .next (s1.setGroup ({ e.g with frame := f' }.advance (.wakectx o))) := by
  subst hn
  have hno' : (!(s1.setGroup e.g).liveCtx (e.lowWord o.a.toNat)) = true ∨ ((s1.setGroup e.g).ctx (e.lowWord o.a.toNat)).state ≠ 4 :=
    hno.imp_left (congrArg not)
  refine exec_answers_put o.d.isLt h (execWakectx.eq_1 o s) hr ?_
  simp only [mergePoison_none hc]
  exact if_pos hno'

/-- A parked context runs, and its records are resumed landing by landing (R365). -/
theorem exec_wakectx {c : Ctx} (hctx : c = s1.ctx n) (hl : s1.liveCtx n = true) (h4 : c.state = 4)
    (ht : t = (s1.setGroup e.g).setCtx { c with state := 2, reported := [], markers := [], toCommand := [], stopping := [] }) :
    ∃ f', Wrote e.g.frame f' e.g.active e.act (allLanes o.d.toNat 0) ∧
      exec (.wakectx o) s = .next ((c.lands.foldl (fun (z : State) l => z.resumeLanding c l) t).setGroup
        ({ e.g with frame := f' }.advance (.wakectx o))) := by
  subst hn hctx ht
  have hgo : ¬((!(s1.setGroup e.g).liveCtx (e.lowWord o.a.toNat)) = true ∨ ((s1.setGroup e.g).ctx (e.lowWord o.a.toNat)).state ≠ 4) := by
    have hlive : (s1.setGroup e.g).liveCtx (e.lowWord o.a.toNat) = true := hl
    have hstate : ((s1.setGroup e.g).ctx (e.lowWord o.a.toNat)).state = 4 := h4
    simp [hlive, hstate]
  refine exec_answers o.d.isLt h (execWakectx.eq_1 o s) hr ?_
  simp only [mergePoison_none hc]
  exact if_neg hgo

end

/-! WAKECTX.GRP -/

theorem exec_wakectxGrp (h : Issues (.wakectxGrp o) s s1 g e) (hc : CleanLow e [o.a.toNat, o.a.toNat + 1])
    (hr : RoomFor e.g [o.d.toNat] [] []) {k : Nat} (hw : (s1.setGroup e.g).wakeGroup (e.lowPair o.a.toNat) = (k, u)) :
    ∃ f', Wrote e.g.frame f' e.g.active e.act (allLanes o.d.toNat (BitVec.ofNat 32 k)) ∧
      exec (.wakectxGrp o) s = .next (u.setGroup ({ e.g with frame := f' }.advance (.wakectxGrp o))) := by
  refine exec_answers o.d.isLt h (execWakectxGrp.eq_1 o s) hr ?_
  simp only [mergePoison_none hc, hw]

/-- A place of a pool holds a record that WAKECTX.GRP takes: in memory, VALID, and with a REASON other than 0 and 2 (R365). -/
def Wakeable (s : State) (pa : Nat) : Prop :=
  (s.target (home pa) pa).isMemory = true ∧ (s.mem.byte (pa + 3)).getLsbD 0 = true ∧
    (ParkRec.read (s.mem.bytes pa 64)).reason ≠ 0 ∧ (ParkRec.read (s.mem.bytes pa 64)).reason ≠ 2

theorem wakeCheck_iff {pa : Nat} : (!(s.target (home pa) pa).isMemory || !(s.mem.byte (pa + 3)).getLsbD 0 ||
    (ParkRec.read (s.mem.bytes pa 64)).reason = 0 || (ParkRec.read (s.mem.bytes pa 64)).reason = 2) = true ↔ ¬Wakeable s pa := by
  simp only [Wakeable, Bool.or_eq_true, Bool.not_eq_true', decide_eq_true_eq, not_and_or, Bool.not_eq_true, ne_eq, not_not, or_assoc]

theorem wakeGroup_none {pa : Nat} (hk : ¬Wakeable s pa) : s.wakeGroup pa = (2, s) := if_pos (wakeCheck_iff.2 hk)

/-- What WAKECTX.GRP does with a record whose context runs or is parked, by the check of its image: the record of a parked context is
left for WAKECTX, with REASON 0 (R365). -/
def wakeImage (s : State) (pa : Nat) (r : ParkRec) (c : Ctx) (bs : List Byte) : Option Nat → Nat × State
  | some j => (16 + j, s)
  | none =>
    if c.state = 4 then (0, s.store (pa + 2) [0] false)
    else (0, ((s.releaseRecords c (home pa) [pa]).resumeRecord (home pa) pa r bs).retryPool (home pa) none)

section
variable {pa : Nat} (hk : Wakeable s pa) {r : ParkRec} (hr : r = ParkRec.read (s.mem.bytes pa 64)) {c : Ctx} (hc : c = s.ctx r.ctx)
  {bs : List Byte} (hb : bs = s.poolImage (pa + 64))
include hk hr hc hb

/-- A record that can be taken, by the state of its context and by its image (R365). -/
theorem wakeGroup_record : s.wakeGroup pa =
    if c.state ≠ 2 ∧ c.state ≠ 4 then (1, s) else wakeImage s pa r c bs (s.imageCheck r.ctx true bs) := by
  unfold State.wakeGroup
  dsimp only
  rw [if_neg fun hno => wakeCheck_iff.1 hno hk, ← hr, ← hc, ← hb]
  cases s.imageCheck r.ctx true bs <;> rfl

theorem wakeGroup_unready (h2 : c.state ≠ 2) (h4 : c.state ≠ 4) : s.wakeGroup pa = (1, s) :=
  (wakeGroup_record hk hr hc hb).trans (if_pos ⟨h2, h4⟩)

variable {a : Option Nat} (hs : c.state = 2 ∨ c.state = 4) (hi : s.imageCheck r.ctx true bs = a)
include hs hi

theorem wakeGroup_ready : s.wakeGroup pa = wakeImage s pa r c bs a := by
  rw [wakeGroup_record hk hr hc hb, if_neg fun hno => hs.elim hno.1 hno.2, hi]

end

end Sys2Proof.Laws

namespace Sys2Proof

open Sys2Proof.Machine Sys2Proof.Laws

/-- Settles O39: PARKCTX and WAKECTX by the state of the context they name, WAKECTX.GRP by the record it finds. That the drain markers go
between the landings of LANDMASK, and that a context of none is PARKED at once (log entry 67), and that a record is resumed as its fields
stand in memory (log entry 66), are the model's choices. -/
theorem contextControl : Obligations.ContextControl := by
  unfold Obligations.ContextControl
  rintro o s s1 g e n c s0 hn hctx rfl
  refine ⟨?_, ?_, ?_⟩
  · rintro i rfl h hr
    refine ⟨fun hm hc => ⟨fun hno => exec_parkctx_refused h hm hc hn hr (hctx ▸ hno), fun hown hl h2 h0 =>
      exec_parkctx_nowhere h hm hc hn hctx hown hl h2 hr h0, fun hown hl h2 h0 =>
        ⟨_, _, exec_parkctx_somewhere h hm hc hn hctx hown hl h2 h0, rfl, rfl⟩⟩, fun m hm =>
      ⟨exec_parkctx_waiting h hm, exec_parkctx_parked h hm hr⟩⟩
  · rintro i t rfl h hr hc
    exact ⟨fun hno => exec_wakectx_refused h hc hn hr (hctx ▸ hno), fun hl h4 ht => exec_wakectx h hc hn hr hctx hl h4 ht⟩
  · rintro i pa r k bs ok rfl h hr hc rfl hrec hk hbs hok x t hcase
    have hwake : ok ↔ Wakeable (s1.setGroup e.g) (e.lowPair o.a.toNat) := by
      subst hrec
      exact hok
    refine exec_wakectxGrp h hc hr ?_
    obtain ⟨hno, rfl, rfl⟩ | ⟨hyes, h2, h4, rfl, rfl⟩ |
      ⟨hyes, hs, ⟨j, hj, rfl⟩, rfl⟩ | ⟨hyes, h4, hi, rfl, rfl⟩ | ⟨hyes, h2, hi, rfl, ht⟩ := hcase
    · exact wakeGroup_none fun hy => hno (hwake.2 hy)
    · exact wakeGroup_unready (hwake.1 hyes) hrec hk hbs h2 h4
    · exact wakeGroup_ready (hwake.1 hyes) hrec hk hbs hs hj
    · exact (wakeGroup_ready (hwake.1 hyes) hrec hk hbs (.inr h4) hi).trans (if_pos h4)
    · rw [ht]
      exact (wakeGroup_ready (hwake.1 hyes) hrec hk hbs (.inl h2) hi).trans (if_neg (by omega))

end Sys2Proof
end
